-- ==== Sys2Proof/Word.lean ====
section
/-! DEFINITION. The word types of the Polwick K4 and the plainest reading of a bit field (00 R2). -/

namespace Sys2Proof

/-- One byte of memory. -/
abbrev Byte := BitVec 8

/-- One 32-bit register copy (R65). -/
abbrev Word := BitVec 32

/-- A 64-bit value: a register pair or a virtual address (R85, R241). -/
abbrev DWord := BitVec 64

/-- The `len` bits of `x` from bit `lo` up (R2). -/
def bits (x lo len : Nat) : Nat := (x >>> lo) % 2 ^ len

/-- The low half of a 64-bit value (R85). -/
def loWord (x : DWord) : Word := x.extractLsb' 0 32

/-- The high half of a 64-bit value (R85). -/
def hiWord (x : DWord) : Word := x.extractLsb' 32 32

/-- The pair of a high and a low register (R85). -/
def pairWord (hi lo : Word) : DWord := hi ++ lo

end Sys2Proof
end

