-- ==== Sys2Proof/Config.lean ====
section
/-! DEFINITION. The fixed figures of the part (01 R7, R8; 13 R251) and the values the manual leaves open. -/

namespace Sys2Proof.Config

/-- Cores of the module (R7). -/
def cores : Nat := 96
/-- Lakes of the module (R7). -/
def lakes : Nat := 24
/-- The lake of a core (R7). -/
def lakeOf (core : Nat) : Nat := core / 4
/-- The position of a core in its lake (R7). -/
def posOf (core : Nat) : Nat := core % 4
/-- The basin of a lake (R7). -/
def basinOfLake (lake : Nat) : Nat := lake / 3
/-- The basin of a core (R7). -/
def basinOf (core : Nat) : Nat := core / 12
/-- Pools a core may hold (R8, R47). -/
def poolsPerCore : Nat := 64
/-- Threads a core may hold (R8). -/
def threadsPerCore : Nat := 4096
/-- Memory requests that a core may have outstanding (R8). -/
def requestsPerCore : Nat := 4096
/-- Bytes of a core's scratchpad (R8). -/
def scratchBytes : Nat := 524288
/-- Physical reservoir slots of a core (R8). -/
def slotsPerCore : Nat := 24
/-- Matrix arrays of a core (R8). -/
def arraysPerCore : Nat := 6
/-- Entries of the matrix queue of a core (R213). -/
def matrixQueue : Nat := 64
/-- Words the issue journal holds (R196). -/
def journalWords : Nat := 256
/-- Entries of a round buffer (R378). -/
def roundEntries : Nat := 16384
/-- First byte above the device memory of this module (R251). -/
def deviceTop : Nat := 0xB2C0000000
/-- First byte of the peer modules' range (R251). -/
def peerBase : Nat := 0x1000000000000
/-- First byte of host memory (R251). -/
def hostBase : Nat := 0x8000000000000
/-- First byte above the physical space (R251). -/
def physTop : Nat := 0x10000000000000
/-- Modules of a watershed (R251). -/
def modules : Nat := 1792

/-- FEATDEV of the shipped part (R302). -/
def featDev : DWord := 0x1F

/-- A value the manual leaves open (R5 and log 6): nothing is known of it. `n` is the counter of free values. -/
opaque free (n : Nat) : Nat
/-- One cell of an undefined slot or tile (R5, log 6): `n` is the counter of free values, `i` the cell. -/
opaque freeCell (n i : Nat) : Nat
/-- Clocks that a core counts between two moments of the model (log 7). -/
opaque clocks (n : Nat) : Nat
/-- Whether a scheduled word issued later than its scheduling field asked (R106, log 7). -/
opaque delayed (n : Nat) : Bool
/-- Whether the ROM self-check passes (R386, log 23). -/
opaque romCheck (n : Nat) : Bool
/-- Whether the device identity key is available (R386, log 23). -/
opaque identityKey (n : Nat) : Bool
/-- Whether the strap and the fabric storage nodes give an image at a power-on, and the image (R307, log 23). -/
opaque fabricImage (n : Nat) : Option (List Byte)
/-- Whether the strap selects the host mailbox as a source of the image (R307, log 23). -/
opaque hostStrap (n : Nat) : Bool
/-- The module number that the fabric manager assigns at a boot (R305, log 23). -/
opaque moduleNumber (n : Nat) : Nat
/-- Whether a module of the watershed is a member of a group of collectives (R306, R385, log 40). -/
opaque groupHas (group module : Nat) : Bool
/-- The length that the header of an image names, once enough of the image has arrived (R308, log 23). -/
opaque imageLength (image : List Byte) : Option Nat
/-- Whether the header of an image is in range (R386, log 23). -/
opaque imageWellFormed (image : List Byte) : Bool
/-- Whether the public key of an image matches the fuse digest (R386, log 23). -/
opaque imageKeyMatches (image : List Byte) : Bool
/-- Whether the ECDSA P-256 signature of an image verifies (R307, R386, log 23). -/
opaque imageVerifies (image : List Byte) : Bool
/-- The signed attestation report for a nonce, the firmware image and FEATDRV (R307, log 23). -/
opaque attestReport (nonce image : List Byte) (featdrv : DWord) : List Byte

end Sys2Proof.Config
end

