-- ==== Sys2Proof/Syntax.lean ====
section
/-! DEFINITION. The syntax of Gelade (06 R97 to R121): one constructor for each row of the opcode table. The
operations come with their decoded fields, the device's events and the host's actions with what they name. -/

namespace Sys2Proof

/-- The guard of an operation (R108). -/
inductive Guard where
  | always
  | on (p : Fin 64)
  | off (p : Fin 64)
  deriving DecidableEq, Repr

/-- The rank tag of a source (R68). -/
inductive STag where
  | res | sp | pl | pd
  deriving DecidableEq, Repr

/-- The rank tag of a destination (R69). -/
inductive DTag where
  | home | sp | pl | pd
  deriving DecidableEq, Repr

/-- A source operand (R24, R109): a register with its tag and block bit, or a special operand. -/
inductive Src where
  | reg (n : Fin 768) (tag : STag) (blk : Bool)
  | zero | lit | lane | gw | tid
  deriving DecidableEq, Repr

/-- A destination operand (R109): a register with its tag, or code 1023. -/
inductive Dst where
  | none
  | reg (n : Fin 768) (tag : DTag)
  deriving DecidableEq, Repr

/-- A predicate source with its negation (R131, R142, R161). -/
structure PSrc where
  n : Fin 64
  neg : Bool
  deriving DecidableEq, Repr

/-- The integer modifier group [34:32] (R122). -/
structure IMod where
  w : Bool
  uns : Bool
  sat : Bool
  deriving DecidableEq, Repr

/-- Integer conditions (R135). -/
inductive Cond where
  | eq | ne | lt | le | gt | ge
  deriving DecidableEq, Repr

/-- Floating conditions (R152). -/
inductive FCond where
  | eq | ne | lt | le | gt | ge | un | ord
  deriving DecidableEq, Repr

/-- Register formats (R148). -/
inductive Fmt where
  | f32 | f16x2 | bf16x2 | e4m3x4 | e5m2x4
  deriving DecidableEq, Repr

/-- Rounding modes (R83, R147). -/
inductive RM where
  | rne | rtz | rup | rdn | rna | sr
  deriving DecidableEq, Repr

/-- Format, rounding, subnormals and the saturation bit [4] of a floating word (R147). -/
structure FMod where
  fmt : Fmt
  rm : RM
  ftz : Bool
  flip : Bool
  deriving DecidableEq, Repr

/-- Integer kinds of ICVT and FCVTI (R157, R158). -/
inductive IKind where
  | i32 | i16x2 | i8x4 | i64
  deriving DecidableEq, Repr

/-- Modes of XSHF (R161). -/
inductive ShfMode where
  | idx | up | down | xor | rot
  deriving DecidableEq, Repr

/-- Selectors of XBCAST (R161). -/
inductive BcSel where
  | lane | first | last
  deriving DecidableEq, Repr

/-- Modes of XVOTE (R161). -/
inductive VoteMode where
  | any | all | eq
  deriving DecidableEq, Repr

/-- Reduction operations (R164). -/
inductive RedOp where
  | add | mul | min | max | and | or | xor
  deriving DecidableEq, Repr

/-- Reduction types (R164). -/
inductive RedTy where
  | flt (fmt : Fmt)
  | i32 | i64
  deriving DecidableEq, Repr

/-- The fields of XRED, XSCAN and NRED (R164, R199). `alt` is `.seq` or `.excl`. -/
structure RMod where
  op : RedOp
  ty : RedTy
  uns : Bool
  alt : Bool
  rm : RM
  ftz : Bool
  flip : Bool
  deriving DecidableEq, Repr

/-- Selectors of QGET (R171). -/
inductive QSel where
  | mod | mu | wid
  deriving DecidableEq, Repr

/-- Access sizes (R179). -/
inductive Size where
  | b32 | b8 | b16 | b64 | b128
  deriving DecidableEq, Repr

/-- Bytes of an access (R179). -/
def Size.bytes : Size → Nat
  | .b32 => 4 | .b8 => 1 | .b16 => 2 | .b64 => 8 | .b128 => 16

/-- Registers of an access datum (R182). -/
def Size.regs : Size → Nat
  | .b64 => 2 | .b128 => 4 | _ => 1

/-- Memory orders (R179). -/
inductive Order where
  | wk | acq | rel | ar
  deriving DecidableEq, Repr

/-- Memory scopes (R19, R179). -/
inductive Scope where
  | sy | pl | pd | lk | bn | ws
  deriving DecidableEq, Repr

/-- Cache hints (R179). -/
inductive Hint where
  | ca | cg | cs
  deriving DecidableEq, Repr

/-- The fields of LD, ST and STM (R179, R181). -/
structure MemMod where
  size : Size
  disp : BitVec 16
  loc : Bool
  hint : Hint
  order : Order
  scope : Scope
  deriving DecidableEq, Repr

/-- Atomic operations (R189). -/
inductive AtomOp where
  | add | min | max | and | or | xor | exch | cas | fadd
  deriving DecidableEq, Repr

/-- The fields of ATOM and REDM (R179, R188). -/
structure AtomMod where
  op : AtomOp
  wide : Bool
  uns : Bool
  disp : BitVec 16
  hint : Hint
  order : Order
  scope : Scope
  deriving DecidableEq, Repr

/-- Kinds of FENCE (R191). -/
inductive FenceKind where
  | ar | acq | rel
  deriving DecidableEq, Repr

/-- Scopes of the barrier words (R191); `nb` names a barrier. -/
inductive BarScope where
  | blk | pd | pl
  | nb (k : Fin 16)
  deriving DecidableEq, Repr

/-- Directions of COPY (R195). -/
inductive CopyDir where
  | g2s | s2g | o2s | s2o
  deriving DecidableEq, Repr

/-- A layered name: a register source or a modulus slot (R199, R201, R202). -/
inductive LName where
  | src (a : Src)
  | slot (k : Fin 8)
  deriving DecidableEq, Repr

/-- What NBCAST broadcasts (R199). -/
inductive BForm where
  | one (d : Dst) (a : Src)
  | pair (d : Dst) (a : Src)
  | slot (k : Fin 8)
  deriving DecidableEq, Repr

/-- Policies of MERGE (R201); `.red` names its type by R148 or `.i32`. -/
inductive Policy where
  | chk | low
  | red (op : RedOp) (fmt : Option Fmt) (uns : Bool) (rm : RM) (ftz : Bool)
  deriving DecidableEq, Repr

/-- Special registers (R225). -/
inductive SReg where
  | tid | lane | gw | gwn | gwstale | pool | frag | blkx | blky | blkz | core | lake | basin
  | clock | retired | fflags | hintmiss | round | ctx | cbase
  deriving DecidableEq, Repr

/-- The kinds of well (R44). -/
inductive WellKind where
  | launch | spawn | reform
  deriving DecidableEq, Repr

/-- What may park on a recoverable fault (R357, R360, R362). -/
inductive ParkRef where
  | frag (pool id : Nat)
  | copy (id : Nat)
  | mop (id : Nat)
  deriving DecidableEq, Repr

/-- A storage unit that an uncorrectable error may damage (R380). -/
inductive PoisonUnit where
  | line (pa : Nat)
  | evicted (pa ctx : Nat)
  | granule (pond addr : Nat)
  | spring (blk tid reg : Nat)
  | poolCopy (pool reg : Nat)
  | pondCopy (pond reg : Nat)
  | slot (pond idx : Nat)
  deriving DecidableEq, Repr

/-- What a host agent reaches: the BAR2 window (R300) or host memory (R251, R254 item 6). -/
inductive HostTarget where
  | window | hostMem
  deriving DecidableEq, Repr

/-- An access of a peer module to this module's device memory (R305). -/
inductive PeerOp where
  | load (n : Nat)
  | store (data : List Byte)
  | atomic (op : AtomOp) (wide uns : Bool) (b c : DWord)
  deriving DecidableEq, Repr

/-- One operation or event of the part: a constructor for each row of the opcode table. -/
inductive Instr where
  -- 07 R124 control
  | bra (g : Guard) (off : Word)
  | brx (g : Guard) (a : Src)
  | call (g : Guard) (off : Word)
  | callx (g : Guard) (a : Src)
  | ret (g : Guard)
  | reform (g : Guard)
  | exit (g : Guard)
  | nop (g : Guard)
  | yield (g : Guard)
  | drain (g : Guard) (k : Fin 64)
  -- 07 R131 moves
  | mov (g : Guard) (w uns : Bool) (d : Dst) (a : Src) (imm : Word)
  | movi (g : Guard) (w uns : Bool) (d : Dst) (imm : Word)
  | movh (g : Guard) (d : Dst) (a b : Src) (imm : Word)
  | sel (g : Guard) (w uns : Bool) (d : Dst) (a b : Src) (p : PSrc)
  -- 07 R132 to R135 integer arithmetic
  | iadd (g : Guard) (m : IMod) (d : Dst) (a b : Src) (imm : Word)
  | isub (g : Guard) (m : IMod) (d : Dst) (a b : Src) (imm : Word)
  | iaddc (g : Guard) (w : Bool) (d : Dst) (a b : Src) (pi po : Fin 64)
  | isubb (g : Guard) (w : Bool) (d : Dst) (a b : Src) (pi po : Fin 64)
  | imul (g : Guard) (m : IMod) (d : Dst) (a b : Src) (imm : Word)
  | imulh (g : Guard) (w uns : Bool) (d : Dst) (a b : Src) (imm : Word)
  | imad (g : Guard) (m : IMod) (d : Dst) (a b c : Src) (imm : Word)
  | imadw (g : Guard) (uns sat : Bool) (d : Dst) (a b c : Src) (imm : Word)
  | imin (g : Guard) (w uns : Bool) (d : Dst) (a b : Src) (imm : Word)
  | imax (g : Guard) (w uns : Bool) (d : Dst) (a b : Src) (imm : Word)
  | iabs (g : Guard) (w sat : Bool) (d : Dst) (a : Src) (imm : Word)
  | ineg (g : Guard) (m : IMod) (d : Dst) (a : Src) (imm : Word)
  | idiff (g : Guard) (w uns : Bool) (d : Dst) (a b : Src) (imm : Word)
  | icmp (g : Guard) (w uns : Bool) (cond : Cond) (p : Fin 64) (a b : Src)
  | iset (g : Guard) (w uns : Bool) (cond : Cond) (d : Dst) (a b : Src)
  -- 07 R136 to R141 bits and addresses
  | and (g : Guard) (w : Bool) (d : Dst) (a b : Src) (imm : Word)
  | or (g : Guard) (w : Bool) (d : Dst) (a b : Src) (imm : Word)
  | xor (g : Guard) (w : Bool) (d : Dst) (a b : Src) (imm : Word)
  | not (g : Guard) (w : Bool) (d : Dst) (a : Src) (imm : Word)
  | tlog (g : Guard) (w : Bool) (d : Dst) (a b c : Src) (mask : BitVec 8)
  | shl (g : Guard) (w : Bool) (d : Dst) (a b : Src) (imm : Word)
  | shr (g : Guard) (w : Bool) (d : Dst) (a b : Src) (imm : Word)
  | sar (g : Guard) (w : Bool) (d : Dst) (a b : Src) (imm : Word)
  | fshl (g : Guard) (d : Dst) (a b c : Src) (imm : Word)
  | fshr (g : Guard) (d : Dst) (a b c : Src) (imm : Word)
  | rot (g : Guard) (w : Bool) (d : Dst) (a b : Src) (imm : Word)
  | popc (g : Guard) (w : Bool) (d : Dst) (a : Src) (imm : Word)
  | clz (g : Guard) (w : Bool) (d : Dst) (a : Src) (imm : Word)
  | ctz (g : Guard) (w : Bool) (d : Dst) (a : Src) (imm : Word)
  | brev (g : Guard) (w : Bool) (d : Dst) (a : Src) (imm : Word)
  | bfx (g : Guard) (w uns : Bool) (d : Dst) (a b : Src) (imm : Word)
  | bfi (g : Guard) (w : Bool) (d : Dst) (a b c : Src) (imm : Word)
  | bytep (g : Guard) (d : Dst) (a b c : Src) (imm : Word)
  | lea (g : Guard) (uns : Bool) (d : Dst) (a b c : Src) (imm : Word)
  -- 07 R142, R143 predicates
  | pand (g : Guard) (d : Fin 64) (a b : PSrc)
  | por (g : Guard) (d : Fin 64) (a b : PSrc)
  | pxor (g : Guard) (d : Fin 64) (a b : PSrc)
  | pnot (g : Guard) (d : Fin 64) (a : PSrc)
  | pmov (g : Guard) (d : Fin 64) (a : PSrc)
  | pset (g : Guard) (hi : Bool) (a b : Src) (imm : Word)
  | pget (g : Guard) (hi : Bool) (d : Dst)
  -- 08 R149 to R154 floating
  | fadd (g : Guard) (m : FMod) (d : Dst) (a b : Src)
  | fsub (g : Guard) (m : FMod) (d : Dst) (a b : Src)
  | fmul (g : Guard) (m : FMod) (d : Dst) (a b : Src)
  | ffma (g : Guard) (m : FMod) (d : Dst) (a b c : Src)
  | fmin (g : Guard) (fmt : Fmt) (ftz : Bool) (d : Dst) (a b : Src)
  | fmax (g : Guard) (fmt : Fmt) (ftz : Bool) (d : Dst) (a b : Src)
  | fcmp (g : Guard) (fmt : Fmt) (ftz : Bool) (cond : FCond) (p : Fin 64) (d : Dst) (a b : Src)
  | fclass (g : Guard) (fmt : Fmt) (ftz : Bool) (mask : BitVec 9) (d : Dst) (a : Src)
  | fdiv (g : Guard) (m : FMod) (d : Dst) (a b : Src)
  | fsqrt (g : Guard) (m : FMod) (d : Dst) (a : Src)
  | frcp (g : Guard) (m : FMod) (d : Dst) (a : Src)
  | frsq (g : Guard) (m : FMod) (d : Dst) (a : Src)
  | fexp2 (g : Guard) (m : FMod) (d : Dst) (a : Src)
  | flog2 (g : Guard) (m : FMod) (d : Dst) (a : Src)
  | fsin (g : Guard) (m : FMod) (d : Dst) (a : Src)
  | fcos (g : Guard) (m : FMod) (d : Dst) (a : Src)
  | ftanh (g : Guard) (m : FMod) (d : Dst) (a : Src)
  | fscale (g : Guard) (m : FMod) (d : Dst) (a b : Src)
  | frnd (g : Guard) (fmt : Fmt) (rm : RM) (ftz : Bool) (d : Dst) (a : Src)
  -- 08 R155 to R159 conversions
  | fcvt (g : Guard) (m : FMod) (sfmt : Fmt) (d : Dst) (a : Src)
  | icvt (g : Guard) (m : FMod) (kind : IKind) (uns : Bool) (d : Dst) (a : Src)
  | fcvti (g : Guard) (kind : IKind) (uns : Bool) (sfmt : Fmt) (rm : RM) (ftz : Bool) (d : Dst) (a : Src)
  | kdec (g : Guard) (m : FMod) (kb4 : Bool) (d : Dst) (a b : Src)
  -- 08 R160 to R167 lanes
  | xshf (g : Guard) (mode : ShfMode) (rel : Option (Fin 8)) (d : Dst) (a b c : Src)
  | xbcast (g : Guard) (sel : BcSel) (d : Dst) (a b c : Src)
  | xvote (g : Guard) (mode : VoteMode) (d : Fin 64) (p : PSrc)
  | xballot (g : Guard) (d : Dst) (p : PSrc)
  | xpfx (g : Guard) (incl : Bool) (d : Dst) (p : PSrc)
  | xred (g : Guard) (r : RMod) (d : Dst) (a : Src)
  | xscan (g : Guard) (r : RMod) (d : Dst) (a : Src)
  | xslide (g : Guard) (up : Bool) (d : Dst) (a b c : Src)
  | xcmpr (g : Guard) (d : Dst) (a c : Src) (p : PSrc)
  | xexpd (g : Guard) (d : Dst) (a c : Src) (p : PSrc)
  | xtbl (g : Guard) (len : Fin 8) (fill : BitVec 8) (d : Dst) (a b : Src)
  -- 09 R171 modular
  | qset (g : Guard) (k : Fin 8) (wide : Bool) (tag : DTag) (a : Src)
  | qget (g : Guard) (k : Fin 8) (sel : QSel) (d : Dst)
  | maddq (g : Guard) (k : Fin 8) (d : Dst) (a b : Src)
  | msubq (g : Guard) (k : Fin 8) (d : Dst) (a b : Src)
  | mnegq (g : Guard) (k : Fin 8) (d : Dst) (a : Src)
  | mmulq (g : Guard) (k : Fin 8) (d : Dst) (a b : Src)
  | mmacq (g : Guard) (k : Fin 8) (d : Dst) (a b c : Src)
  | mredq (g : Guard) (k : Fin 8) (d : Dst) (a : Src)
  | mpowq (g : Guard) (k : Fin 8) (d : Dst) (a b : Src)
  | bfly (g : Guard) (k : Fin 8) (d : Dst) (a b c : Src)
  | ibfly (g : Guard) (k : Fin 8) (d : Dst) (a b c : Src)
  | xbfly (g : Guard) (k : Fin 8) (rel : Bool) (v : Fin 8) (d : Dst) (a b : Src)
  | xibfly (g : Guard) (k : Fin 8) (rel : Bool) (v : Fin 8) (d : Dst) (a b : Src)
  -- 10 R181 to R202 memory, synchronisation and layered registers
  | ld (g : Guard) (m : MemMod) (uns : Bool) (d : Dst) (a : Src)
  | st (g : Guard) (m : MemMod) (a b : Src)
  | stm (g : Guard) (m : MemMod) (a b c : Src)
  | lds (g : Guard) (size : Size) (take uns : Bool) (disp : BitVec 16) (d : Dst) (a : Src)
  | sts (g : Guard) (size : Size) (disp : BitVec 16) (a b : Src)
  | stsm (g : Guard) (size : Size) (disp : BitVec 16) (a b c : Src)
  | pref (g : Guard) (l2 : Bool) (disp : BitVec 16) (a : Src)
  | atom (g : Guard) (m : AtomMod) (d : Dst) (a b c : Src)
  | atoms (g : Guard) (op : AtomOp) (wide uns : Bool) (disp : BitVec 16) (d : Dst) (a b c : Src)
  | redm (g : Guard) (m : AtomMod) (a b : Src)
  | fence (g : Guard) (kind : FenceKind) (scope : Scope) (cpy : Bool)
  | bar (g : Guard) (scope : BarScope)
  | bara (g : Guard) (scope : BarScope)
  | barw (g : Guard) (scope : BarScope)
  | copy (g : Guard) (size : Size) (dir : CopyDir) (hint : Hint) (a b c : Src)
  | copym (g : Guard) (size : Size) (obj : Bool) (hint : Hint) (mask : BitVec 4) (a b c : Src)
  | feq (g : Guard) (p : Fin 64) (disp : BitVec 16) (a : Src)
  | feset (g : Guard) (full : Bool) (disp : BitVec 16) (a : Src)
  | nred (g : Guard) (r : RMod) (d : Dst) (a : Src)
  | nbcast (g : Guard) (form : BForm) (b : Src)
  | merge (g : Guard) (pd : Bool) (policy : Policy) (p : Fin 64) (a : LName)
  | ldrop (g : Guard) (pd : Bool) (a : LName)
  | lrank (g : Guard) (d : Dst) (a : LName)
  -- 11 R204 matrix
  | mdecl (g : Guard) (n : Fin 16) (count : BitVec 13)
  | moprdy (g : Guard)
  | mma (g : Guard) (n : Fin 16) (k : BitVec 9) (d : Dst) (a b c : Src)
  | mwait (g : Guard) (a : Src)
  | mrel (g : Guard) (a : Src)
  | mlda (g : Guard) (obj : Bool) (d : Dst) (a b c : Src)
  | msta (g : Guard) (obj : Bool) (a b c : Src)
  | mslotAlloc (g : Guard) (d : Dst)
  | mslotCnt (g : Guard) (d : Dst)
  | mslotZero (g : Guard) (a : Src)
  -- 12 R224 system
  | srr (g : Guard) (r : SReg) (d : Dst)
  | srw (g : Guard) (r : SReg) (a : Src)
  | setw (g : Guard) (d : Dst) (a : Src)
  | spawn (g : Guard) (d : Dst) (a b : Src)
  | launch (g : Guard) (d : Dst) (a b : Src)
  | round (g : Guard)
  | trap (g : Guard) (code : BitVec 8)
  | eret (g : Guard) (a : Src)
  | swapc (g : Guard) (a b : Src)
  | objw (g : Guard) (a b : Src)
  | objq (g : Guard) (d : Dst) (a : Src)
  | icinv (g : Guard) (a b : Src)
  | xlinvRng (g : Guard) (a b : Src)
  | xlinvAll (g : Guard)
  -- the device's own events
  | producerCompletion (op : Nat)
  | poolDraw (pond : Nat) (kind : WellKind) (key : Nat)
  | wellAgeExpiry (pond : Nat) (kind : WellKind) (key : Nat)
  | translationInstall (ctx lo hi : Nat)
  | copyCommandStart (id : Nat)
  | copyCommandComplete (id : Nat)
  | matrixOpStart (id : Nat)
  | matrixOpComplete (id : Nat)
  | doorbell (ctx q : Nat) (tail : Word)
  | launchStart (ctx q : Nat)
  | waitConditionReread (ctx q : Nat)
  | blockAdmit (launch : Nat)
  | pondRelease (pond : Nat)
  | launchComplete (launch : Nat)
  | roundCommit (launch : Nat)
  | contextPreempt (ctx : Nat)
  | contextResume (record : BitVec 2048)
  | parkedReplay (what : ParkRef)
  | parkedReplayTimer (what : ParkRef)
  | invalidationAck (id : Nat)
  | stuckBlock (blk : Nat)
  | reservoirDeadlock (core : Nat)
  | faultQueueRetry (ctx : Nat)
  | haltBroadcastArrival (blk core : Nat)
  | uncorrectableError (what : PoisonUnit)
  | coreError (core : Nat) (part : Fin 6)
  | linkFailure (link : Fin 24) (lost : List Nat)
  | collectivePost (tail : DWord)
  | collectiveComplete (record : Nat) (peers : List (BitVec 512 × List Byte)) (abandoned : Bool)
  | collectiveTimeout (record : Nat)
  -- the host's actions
  | go
  | pstateWrite (value : DWord)
  | shootdownRange
  | shootdownAll
  | flushWriteback
  | flushInvalidate
  | flushComplete
  | mailboxImageChunk (value : DWord)
  | mailboxAttestation (value : DWord)
  | hostWindowAccess (target : HostTarget) (addr : Nat) (n : Nat) (data : Option (List Byte))
  | registerWrite (off : Nat) (value : DWord)
  | powerOn
  | moduleReset
  | powerRemove
  | peerAccess (pa : Nat) (op : PeerOp)
  | accessPerformed (id : Nat)
  | l2ModeChange (basin : Fin 8) (priv : Bool)
  | managementPortAttestation (nonce : List Byte)
  | ageUpdate (die : Fin 8) (hours : Word)
  deriving DecidableEq, Repr

end Sys2Proof
end

