-- ==== Sys2Proof/WellFormed.lean ====
section
/-! DEFINITION. Which terms of the syntax stand for an encodable operation: the modifier rules that the instruction
entries give (07 R144, 08 R168, 09 R178, 10 R203, 11 R223, 12 R240). An illegal OPERAND (R346, cause 0x08) is well formed: it
is encodable, and it traps when it issues. -/

namespace Sys2Proof

/-- The operand names the literal of the word (R24). -/
def Src.isLit : Src → Bool
  | .lit => true
  | _ => false

/-- The operand is code 1023 (R109). -/
def Src.isZero : Src → Bool
  | .zero => true
  | _ => false

/-- Bits [31:0] hold 0 in a word that names no literal (R110). -/
def immOk (srcs : List Src) (imm : Word) : Bool := srcs.any Src.isLit || imm == 0

/-- A scope stands only beside an order other than `.wk` (R179). -/
def scopeOk (o : Order) (sc : Scope) : Bool := o != .wk || sc == .sy

/-- The order and scope of a load or store: those its row permits, and only `.wk` under `.loc` (R181). -/
def MemMod.ok (m : MemMod) (orders : List Order) (sizes : List Size) : Bool :=
  orders.contains m.order && sizes.contains m.size && scopeOk m.order m.scope && (!m.loc || m.order == .wk)

/-- The sizes of a masked store (R181, R186). -/
def maskedSizes : List Size := [.b32, .b64, .b128]

/-- All sizes (R179). -/
def allSizes : List Size := [.b32, .b8, .b16, .b64, .b128]

/-- A load's signedness stands at 8 and 16 bits only (R181, R186). -/
def unsOk (uns : Bool) (sz : Size) : Bool := !uns || sz == .b8 || sz == .b16

/-- The atomic operation's signedness and width (R189). -/
def atomOk (op : AtomOp) (wide uns : Bool) : Bool :=
  (!uns || op == .min || op == .max) && !(op == .fadd && wide)

/-- The third source of an atomic stands for `.cas` only (R188). -/
def casOk (op : AtomOp) (c : Src) : Bool := op == .cas || c.isZero

/-- The fields of a reduction (R164, R168). -/
def RMod.ok (r : RMod) : Bool :=
  match r.ty with
  | .flt _ => !r.uns && r.rm != .sr && r.op != .and && r.op != .or && r.op != .xor
  | _ => r.rm == .rne && !r.ftz && !r.flip

/-- The fields of a merge policy (R201). -/
def Policy.ok : Policy → Bool
  | .chk | .low => true
  | .red op (some _) uns rm _ => !uns && rm != .sr && op != .and && op != .or && op != .xor
  | .red _ none _ rm ftz => rm == .rne && !ftz

/-- `.red` has no slot form (R201). -/
def mergeFormOk : Policy → LName → Bool
  | .red .., .slot _ => false
  | _, _ => true

/-- The formats KDEC writes (R159). -/
def kdecFmts : List Fmt := [.f32, .f16x2, .bf16x2]

/-- The term stands for an encodable operation, or is an event. -/
def Instr.wf : Instr → Bool
  | .mov _ _ _ _ a imm => immOk [a] imm
  | .movh _ _ a b imm => immOk [a, b] imm
  | .iadd _ _ _ a b imm | .isub _ _ _ a b imm | .imul _ _ _ a b imm => immOk [a, b] imm
  | .imulh _ _ _ _ a b imm | .imin _ _ _ _ a b imm | .imax _ _ _ _ a b imm
  | .idiff _ _ _ _ a b imm | .bfx _ _ _ _ a b imm => immOk [a, b] imm
  | .imad _ _ _ a b c imm => immOk [a, b, c] imm
  | .imadw _ _ _ _ a b c imm => immOk [a, b, c] imm
  | .iabs _ _ _ _ a imm => immOk [a] imm
  | .ineg _ _ _ a imm => immOk [a] imm
  | .and _ _ _ a b imm | .or _ _ _ a b imm | .xor _ _ _ a b imm | .shl _ _ _ a b imm | .shr _ _ _ a b imm
  | .sar _ _ _ a b imm | .rot _ _ _ a b imm => immOk [a, b] imm
  | .not _ _ _ a imm | .popc _ _ _ a imm | .clz _ _ _ a imm | .ctz _ _ _ a imm | .brev _ _ _ a imm => immOk [a] imm
  | .fshl _ _ a b c imm | .fshr _ _ a b c imm | .bytep _ _ a b c imm => immOk [a, b, c] imm
  | .bfi _ _ _ a b c imm | .lea _ _ _ a b c imm => immOk [a, b, c] imm
  | .pset _ _ a b imm => immOk [a, b] imm
  | .frnd _ _ rm _ _ _ => rm != .sr
  | .fcvti _ _ _ _ rm _ _ _ => rm != .sr
  | .kdec _ m _ _ _ _ => kdecFmts.contains m.fmt
  | .xred _ r _ _ | .xscan _ r _ _ => r.ok
  | .xbfly _ _ rel v _ _ _ | .xibfly _ _ rel v _ _ _ => if rel then v != 0 else v != 7
  | .ld _ m uns _ _ => m.ok [.wk, .acq] allSizes && unsOk uns m.size
  | .st _ m _ _ => m.ok [.wk, .rel] allSizes
  | .stm _ m _ _ _ => m.ok [.wk] maskedSizes
  | .lds _ size _ uns _ _ _ => unsOk uns size
  | .stsm _ size _ _ _ _ => maskedSizes.contains size
  | .atom _ m _ _ _ c => atomOk m.op m.wide m.uns && casOk m.op c && scopeOk m.order m.scope
  | .atoms _ op wide uns _ _ _ _ c => atomOk op wide uns && casOk op c
  | .redm _ m _ _ => atomOk m.op m.wide m.uns && m.op != .exch && m.op != .cas && scopeOk m.order m.scope
  | .copy _ size dir _ _ _ c => maskedSizes.contains size && (dir == .o2s || dir == .s2o || c.isZero)
  | .copym _ size obj _ _ _ _ c => maskedSizes.contains size && (obj || c.isZero)
  | .nred _ r _ _ => r.ok && !r.alt
  | .merge _ _ policy _ a => policy.ok && mergeFormOk policy a
  | .mdecl _ _ count => decide (1 ≤ count.toNat ∧ count.toNat ≤ 4096)
  | .mma _ _ k _ _ _ _ => decide (k.toNat ≤ 256)
  | .bra .. | .brx .. | .call .. | .callx .. | .ret .. | .reform .. | .exit .. | .nop .. | .yield .. | .drain ..
  | .movi .. | .sel .. | .iaddc .. | .isubb .. | .icmp .. | .iset .. | .tlog .. | .pand .. | .por .. | .pxor ..
  | .pnot .. | .pmov .. | .pget .. => true
  | .fadd .. | .fsub .. | .fmul .. | .ffma .. | .fmin .. | .fmax .. | .fcmp .. | .fclass .. | .fdiv .. | .fsqrt ..
  | .frcp .. | .frsq .. | .fexp2 .. | .flog2 .. | .fsin .. | .fcos .. | .ftanh .. | .fscale .. | .fcvt .. | .icvt .. => true
  | .xshf .. | .xbcast .. | .xvote .. | .xballot .. | .xpfx .. | .xslide .. | .xcmpr .. | .xexpd .. | .xtbl .. => true
  | .qset .. | .qget .. | .maddq .. | .msubq .. | .mnegq .. | .mmulq .. | .mmacq .. | .mredq .. | .mpowq .. | .bfly ..
  | .ibfly .. => true
  | .sts .. | .pref .. | .fence .. | .bar .. | .bara .. | .barw .. | .feq .. | .feset .. | .nbcast .. | .ldrop ..
  | .lrank .. => true
  | .moprdy .. | .mwait .. | .mrel .. | .mlda .. | .msta .. | .mslotAlloc .. | .mslotCnt .. | .mslotZero .. => true
  | .srr .. | .srw .. | .setw .. | .spawn .. | .launch .. | .round .. | .trap .. | .eret .. | .swapc .. | .objw ..
  | .objq .. | .icinv .. | .xlinvRng .. | .xlinvAll .. => true
  | .producerCompletion .. | .poolDraw .. | .wellAgeExpiry .. | .translationInstall .. | .copyCommandStart ..
  | .copyCommandComplete .. | .matrixOpStart .. | .matrixOpComplete .. | .doorbell .. | .launchStart ..
  | .waitConditionReread .. | .blockAdmit .. | .pondRelease .. | .launchComplete .. | .roundCommit ..
  | .contextPreempt .. | .contextResume .. | .parkedReplay .. | .parkedReplayTimer .. | .invalidationAck ..
  | .stuckBlock .. | .reservoirDeadlock .. | .faultQueueRetry .. | .haltBroadcastArrival .. | .uncorrectableError ..
  | .coreError .. | .linkFailure .. | .collectivePost .. | .collectiveComplete .. | .collectiveTimeout .. => true
  | .go | .pstateWrite .. | .shootdownRange | .shootdownAll | .flushWriteback | .flushInvalidate | .flushComplete
  | .mailboxImageChunk .. | .mailboxAttestation .. | .hostWindowAccess .. | .registerWrite .. | .powerOn
  | .moduleReset | .powerRemove | .peerAccess .. | .accessPerformed .. | .l2ModeChange ..
  | .managementPortAttestation .. | .ageUpdate .. => true

/-- The term is one of the part's events or host actions, which have no instruction word (log 4). -/
def Instr.isEvent : Instr → Bool
  | .producerCompletion .. | .poolDraw .. | .wellAgeExpiry .. | .translationInstall .. | .copyCommandStart ..
  | .copyCommandComplete .. | .matrixOpStart .. | .matrixOpComplete .. | .doorbell .. | .launchStart ..
  | .waitConditionReread .. | .blockAdmit .. | .pondRelease .. | .launchComplete .. | .roundCommit ..
  | .contextPreempt .. | .contextResume .. | .parkedReplay .. | .parkedReplayTimer .. | .invalidationAck ..
  | .stuckBlock .. | .reservoirDeadlock .. | .faultQueueRetry .. | .haltBroadcastArrival .. | .uncorrectableError ..
  | .coreError .. | .linkFailure .. | .collectivePost .. | .collectiveComplete .. | .collectiveTimeout .. => true
  | .go | .pstateWrite .. | .shootdownRange | .shootdownAll | .flushWriteback | .flushInvalidate | .flushComplete
  | .mailboxImageChunk .. | .mailboxAttestation .. | .hostWindowAccess .. | .registerWrite .. | .powerOn
  | .moduleReset | .powerRemove | .peerAccess .. | .accessPerformed .. | .l2ModeChange ..
  | .managementPortAttestation .. | .ageUpdate .. => true
  | _ => false

/-- The events that come from outside the part's own progress: the host, the runtime, the control cores, peer modules and
damaged hardware (log 1). They stand in the inbox until they land. -/
def Instr.isExternal : Instr → Bool
  | .translationInstall .. | .doorbell .. | .contextPreempt .. | .contextResume .. | .uncorrectableError ..
  | .coreError .. | .linkFailure .. | .collectivePost .. | .collectiveComplete .. | .go | .pstateWrite ..
  | .shootdownRange | .shootdownAll | .flushWriteback | .flushInvalidate | .mailboxImageChunk ..
  | .mailboxAttestation .. | .hostWindowAccess .. | .registerWrite .. | .powerOn | .moduleReset | .powerRemove
  | .peerAccess .. | .l2ModeChange .. | .managementPortAttestation .. | .ageUpdate .. => true
  | _ => false

end Sys2Proof
end

