-- ==== Sys2Proof/Decode.lean ====
section
/-! DEFINITION. Decoding of the 128-bit instruction word (06 R97 to R121), total on any bytes and rejecting by cause code
(22 R341, R342 check 1), and after it the encoder written from the same tables. -/

namespace Sys2Proof

/-- Why a word is not an instruction: the cause code and DETAIL of R341, and the operation of a pair (OPY). -/
structure Illegal where
  cause : Nat
  detail : Nat
  opY : Bool
  deriving DecidableEq, Repr

/-- The scheduling field of a word (R98). -/
structure Sched where
  scheduled : Bool
  awA : Nat
  awB : Nat
  pace : Nat
  cede : Bool
  latch : Nat
  deriving DecidableEq, Repr

/-- A decoded word: one operation, or a pair (R97, R111). -/
inductive Decoded where
  | one (sch : Sched) (i : Instr)
  | two (sch : Sched) (x y : Instr)
  deriving DecidableEq, Repr

/-- The fields of the single-operation layout (R97). -/
structure Fields where
  op : Nat
  guard : Nat
  d : Nat
  dt : Nat
  a : Nat
  at_ : Nat
  b : Nat
  bt : Nat
  c : Nat
  ct : Nat
  ba : Nat
  bb : Nat
  bc : Nat
  grp : Nat
  imm : Nat
  deriving DecidableEq, Repr

/-- The fields of bits [103:0] of a word (R97). -/
def unpack (w : Nat) : Fields where
  op := bits w 94 10
  guard := bits w 86 8
  d := bits w 76 10
  dt := bits w 74 2
  a := bits w 64 10
  at_ := bits w 62 2
  b := bits w 52 10
  bt := bits w 50 2
  c := bits w 40 10
  ct := bits w 38 2
  ba := bits w 37 1
  bb := bits w 36 1
  bc := bits w 35 1
  grp := bits w 32 3
  imm := bits w 0 32

/-- The word of a single operation with every scheduling bit 0, a portable word (R97, R115). -/
def pack (f : Fields) : Nat :=
  f.imm + 2 ^ 32 * (f.grp + 2 ^ 3 * (f.bc + 2 * (f.bb + 2 * (f.ba + 2 * (f.ct + 2 ^ 2 * (f.c + 2 ^ 10 * (f.bt
    + 2 ^ 2 * (f.b + 2 ^ 10 * (f.at_ + 2 ^ 2 * (f.a + 2 ^ 10 * (f.dt + 2 ^ 2 * (f.d + 2 ^ 10 * (f.guard
    + 2 ^ 8 * f.op)))))))))))))

/-- The scheduling field of a word (R98). -/
def schedOf (w : Nat) : Sched where
  scheduled := w.testBit 127
  awA := bits w 120 6
  awB := bits w 114 6
  pace := bits w 110 4
  cede := w.testBit 109
  latch := bits w 106 3

/-- Bit `i` of `x` as a flag. -/
def flag (x i : Nat) : Bool := x.testBit i

/-- A predicate number taken from a field. -/
def fin64 (n : Nat) : Fin 64 := Fin.ofNat 64 n
/-- A three-bit number taken from a field. -/
def fin8 (n : Nat) : Fin 8 := Fin.ofNat 8 n
/-- A four-bit number taken from a field. -/
def fin16 (n : Nat) : Fin 16 := Fin.ofNat 16 n

/-- The source tags (R68). -/
def stagOf : Nat → STag
  | 1 => .sp | 2 => .pl | 3 => .pd | _ => .res
/-- The destination tags (R69). -/
def dtagOf : Nat → DTag
  | 1 => .sp | 2 => .pl | 3 => .pd | _ => .home
/-- The code of a source tag (R68). -/
def STag.code : STag → Nat
  | .res => 0 | .sp => 1 | .pl => 2 | .pd => 3
/-- The code of a destination tag (R69). -/
def DTag.code : DTag → Nat
  | .home => 0 | .sp => 1 | .pl => 2 | .pd => 3

/-- A source operand from its code, tag and block bit (R24). -/
def srcOf (code tag blk : Nat) : Src :=
  if h : code < 768 then .reg ⟨code, h⟩ (stagOf tag) (blk == 1)
  else if code = 1022 then .lit else if code = 1021 then .lane else if code = 1020 then .gw
  else if code = 1019 then .tid else .zero

/-- A destination operand from its code and tag (R109). -/
def dstOf (code tag : Nat) : Dst :=
  if h : code < 768 then .reg ⟨code, h⟩ (dtagOf tag) else .none

/-- The code of a source (R24). -/
def Src.code : Src → Nat
  | .reg n _ _ => n | .zero => 1023 | .lit => 1022 | .lane => 1021 | .gw => 1020 | .tid => 1019
/-- The tag of a source. -/
def Src.tag : Src → Nat
  | .reg _ t _ => t.code | _ => 0
/-- The block bit of a source. -/
def Src.blk : Src → Nat
  | .reg _ _ b => b.toNat | _ => 0
/-- The code of a destination. -/
def Dst.code : Dst → Nat
  | .none => 1023 | .reg n _ => n
/-- The tag of a destination. -/
def Dst.tag : Dst → Nat
  | .none => 0 | .reg _ t => t.code

/-- The guard of a single operation (R108); none where the value is not one of its table. -/
def guardOf (n : Nat) : Option Guard :=
  if n = 0 then some .always
  else if n / 64 = 2 then some (.on (fin64 n)) else if n / 64 = 3 then some (.off (fin64 n)) else none

/-- The guard field (R108). -/
def Guard.code : Guard → Nat
  | .always => 0 | .on p => 128 + p | .off p => 192 + p

/-- Which of d, a, b and c an operation uses (R109). -/
structure Uses4 where
  d : Bool
  a : Bool
  b : Bool
  c : Bool
  deriving DecidableEq, Repr

/-- The check of a destination field under R109: 0x04 with its DETAIL, or nothing. -/
def dstIllegal (used : Bool) (code tag : Nat) : Option Nat :=
  if (768 ≤ code ∧ code ≤ 1022) ∨ (used = false ∧ code ≠ 1023) then some code
  else if code = 1023 ∧ tag ≠ 0 then some (code + 2 ^ 15) else none

/-- The check of a source field under R109; `field` is its number in R341. -/
def srcIllegal (used : Bool) (field code tag blk : Nat) : Option Nat :=
  if (768 ≤ code ∧ code ≤ 1018) ∨ (used = false ∧ code ≠ 1023) then some (code + 2 ^ 12 * field)
  else if 768 ≤ code ∧ (tag ≠ 0 ∨ blk ≠ 0) then some (code + 2 ^ 12 * field + 2 ^ 15) else none

/-- The first operand field that R109 forbids, in the order d, a, b, c. -/
def operandIllegal (u : Uses4) (f : Fields) : Option Nat :=
  (dstIllegal u.d f.d f.dt).or <| (srcIllegal u.a 1 f.a f.at_ f.ba).or <|
    (srcIllegal u.b 2 f.b f.bt f.bb).or (srcIllegal u.c 3 f.c f.ct f.bc)

/-- The number of the lowest bit of `x` that is 1, among the lowest `fuel`. -/
def lowBit (x : Nat) : Nat → Nat → Nat
  | 0, i => i
  | fuel + 1, i => if x.testBit i then i else lowBit x fuel (i + 1)

/-- `x` with the named fields (low bit, length) cleared. -/
def clearFields (x : Nat) (named : List (Nat × Nat)) : Nat :=
  named.foldl (fun y f => y - bits y f.1 f.2 * 2 ^ f.1) x

/-- The modifier check (R110, R121): `x` is [34:0]; `named` its named fields; `checks` the low bit of a field and whether its
value is defined. The answer is the lowest failing bit number (R341), or the instruction. -/
def modRow (x : Nat) (named : List (Nat × Nat)) (checks : List (Nat × Bool)) (i : Instr) : Except Nat Instr :=
  let rest := clearFields x named
  let bad := (checks.filter (fun c => !c.2)).map Prod.fst
  let bad := if rest = 0 then bad else lowBit rest 35 0 :: bad
  match bad with
  | [] => .ok i
  | b :: bs => .error (bs.foldl min b)

/-- Codes of Fmt (R148). -/
def fmtOf : Nat → Fmt
  | 1 => .f16x2 | 2 => .bf16x2 | 3 => .e4m3x4 | 4 => .e5m2x4 | _ => .f32
/-- The code of a Fmt (R148). -/
def Fmt.code : Fmt → Nat
  | .f32 => 0 | .f16x2 => 1 | .bf16x2 => 2 | .e4m3x4 => 3 | .e5m2x4 => 4

/-- Codes of RM (R147). -/
def rmOf : Nat → RM
  | 1 => .rtz | 2 => .rup | 3 => .rdn | 4 => .rna | 5 => .sr | _ => .rne
/-- The code of a RM (R147). -/
def RM.code : RM → Nat
  | .rne => 0 | .rtz => 1 | .rup => 2 | .rdn => 3 | .rna => 4 | .sr => 5

/-- Codes of Cond (R135). -/
def condOf : Nat → Cond
  | 1 => .ne | 2 => .lt | 3 => .le | 4 => .gt | 5 => .ge | _ => .eq
/-- The code of a Cond (R135). -/
def Cond.code : Cond → Nat
  | .eq => 0 | .ne => 1 | .lt => 2 | .le => 3 | .gt => 4 | .ge => 5

/-- Codes of FCond (R152). -/
def fcondOf : Nat → FCond
  | 1 => .ne | 2 => .lt | 3 => .le | 4 => .gt | 5 => .ge | 6 => .un | 7 => .ord | _ => .eq
/-- The code of a FCond (R152). -/
def FCond.code : FCond → Nat
  | .eq => 0 | .ne => 1 | .lt => 2 | .le => 3 | .gt => 4 | .ge => 5 | .un => 6 | .ord => 7

/-- Codes of IKind (R157, R158). -/
def ikindOf : Nat → IKind
  | 1 => .i16x2 | 2 => .i8x4 | 3 => .i64 | _ => .i32
/-- The code of a IKind (R157, R158). -/
def IKind.code : IKind → Nat
  | .i32 => 0 | .i16x2 => 1 | .i8x4 => 2 | .i64 => 3

/-- Codes of ShfMode (R161). -/
def shfOf : Nat → ShfMode
  | 1 => .up | 2 => .down | 3 => .xor | 4 => .rot | _ => .idx
/-- The code of a ShfMode (R161). -/
def ShfMode.code : ShfMode → Nat
  | .idx => 0 | .up => 1 | .down => 2 | .xor => 3 | .rot => 4

/-- Codes of BcSel (R161). -/
def bcOf : Nat → BcSel
  | 1 => .first | 2 => .last | _ => .lane
/-- The code of a BcSel (R161). -/
def BcSel.code : BcSel → Nat
  | .lane => 0 | .first => 1 | .last => 2

/-- Codes of VoteMode (R161). -/
def voteOf : Nat → VoteMode
  | 1 => .all | 2 => .eq | _ => .any
/-- The code of a VoteMode (R161). -/
def VoteMode.code : VoteMode → Nat
  | .any => 0 | .all => 1 | .eq => 2

/-- Codes of RedOp (R164). -/
def redOf : Nat → RedOp
  | 1 => .mul | 2 => .min | 3 => .max | 4 => .and | 5 => .or | 6 => .xor | _ => .add
/-- The code of a RedOp (R164). -/
def RedOp.code : RedOp → Nat
  | .add => 0 | .mul => 1 | .min => 2 | .max => 3 | .and => 4 | .or => 5 | .xor => 6

/-- Codes of QSel (R171). -/
def qselOf : Nat → QSel
  | 1 => .mu | 2 => .wid | _ => .mod
/-- The code of a QSel (R171). -/
def QSel.code : QSel → Nat
  | .mod => 0 | .mu => 1 | .wid => 2

/-- Codes of Size (R179). -/
def sizeOf : Nat → Size
  | 1 => .b8 | 2 => .b16 | 3 => .b64 | 4 => .b128 | _ => .b32
/-- The code of a Size (R179). -/
def Size.code : Size → Nat
  | .b32 => 0 | .b8 => 1 | .b16 => 2 | .b64 => 3 | .b128 => 4

/-- Codes of Order (R179). -/
def orderOf : Nat → Order
  | 1 => .acq | 2 => .rel | 3 => .ar | _ => .wk
/-- The code of a Order (R179). -/
def Order.code : Order → Nat
  | .wk => 0 | .acq => 1 | .rel => 2 | .ar => 3

/-- Codes of Scope (R179). -/
def scopeOf : Nat → Scope
  | 1 => .pl | 2 => .pd | 3 => .lk | 4 => .bn | 5 => .ws | _ => .sy
/-- The code of a Scope (R179). -/
def Scope.code : Scope → Nat
  | .sy => 0 | .pl => 1 | .pd => 2 | .lk => 3 | .bn => 4 | .ws => 5

/-- Codes of Hint (R179). -/
def hintOf : Nat → Hint
  | 1 => .cg | 2 => .cs | _ => .ca
/-- The code of a Hint (R179). -/
def Hint.code : Hint → Nat
  | .ca => 0 | .cg => 1 | .cs => 2

/-- Codes of AtomOp (R189). -/
def atomOpOf : Nat → AtomOp
  | 1 => .min | 2 => .max | 3 => .and | 4 => .or | 5 => .xor | 6 => .exch | 7 => .cas | 8 => .fadd | _ => .add
/-- The code of a AtomOp (R189). -/
def AtomOp.code : AtomOp → Nat
  | .add => 0 | .min => 1 | .max => 2 | .and => 3 | .or => 4 | .xor => 5 | .exch => 6 | .cas => 7 | .fadd => 8

/-- Codes of FenceKind (R191). -/
def fenceOf : Nat → FenceKind
  | 1 => .acq | 2 => .rel | _ => .ar
/-- The code of a FenceKind (R191). -/
def FenceKind.code : FenceKind → Nat
  | .ar => 0 | .acq => 1 | .rel => 2

/-- Codes of CopyDir (R195). -/
def copyDirOf : Nat → CopyDir
  | 1 => .s2g | 2 => .o2s | 3 => .s2o | _ => .g2s
/-- The code of a CopyDir (R195). -/
def CopyDir.code : CopyDir → Nat
  | .g2s => 0 | .s2g => 1 | .o2s => 2 | .s2o => 3

/-- The type of a reduction: 0 to 4 the formats, 5 `.i32`, 6 `.i64` (R164). -/
def redTyOf (n : Nat) : RedTy := if n = 5 then .i32 else if n = 6 then .i64 else .flt (fmtOf n)
/-- The code of a reduction type (R164). -/
def RedTy.code : RedTy → Nat
  | .flt f => f.code | .i32 => 5 | .i64 => 6
/-- The barrier scope and number of bits [1:0] and [7:4] (R191). -/
def barScopeOf (n k : Nat) : BarScope :=
  if n = 1 then .pd else if n = 2 then .pl else if n = 3 then .nb (fin16 k) else .blk
/-- Bits [1:0] of a barrier word (R191). -/
def BarScope.code : BarScope → Nat
  | .blk => 0 | .pd => 1 | .pl => 2 | .nb _ => 3
/-- Bits [7:4] of a barrier word (R191). -/
def BarScope.num : BarScope → Nat
  | .nb k => k | _ => 0

/-- The special-register numbers (R225). -/
def sregOf : Nat → Option SReg
  | 0 => some .tid | 1 => some .lane | 2 => some .gw | 3 => some .gwn | 4 => some .gwstale | 5 => some .pool | 6 => some .frag | 7 => some .blkx | 8 => some .blky | 9 => some .blkz | 10 => some .core | 11 => some .lake | 12 => some .basin | 16 => some .clock | 17 => some .retired | 18 => some .fflags | 19 => some .hintmiss | 20 => some .round | 21 => some .ctx | 22 => some .cbase | _ => none
/-- The number of a special register (R225). -/
def SReg.code : SReg → Nat
  | .tid => 0 | .lane => 1 | .gw => 2 | .gwn => 3 | .gwstale => 4 | .pool => 5 | .frag => 6 | .blkx => 7 | .blky => 8 | .blkz => 9 | .core => 10 | .lake => 11 | .basin => 12 | .clock => 16 | .retired => 17 | .fflags => 18 | .hintmiss => 19 | .round => 20 | .ctx => 21 | .cbase => 22

/-- The modifiers [34:32] of an integer word (R122). -/
def imodOf (x : Nat) : IMod := ⟨flag x 32, flag x 33, flag x 34⟩
/-- Format, rounding, flush and saturation bit of a floating word (R147, R148). -/
def fmodOf (x : Nat) : FMod := ⟨fmtOf (bits x 32 3), rmOf (bits x 0 3), flag x 3, flag x 4⟩
/-- The reduction fields of R164. -/
def rmodOf (x : Nat) : RMod :=
  ⟨redOf (bits x 5 3), redTyOf (bits x 8 3), flag x 11, flag x 12, rmOf (bits x 0 3), flag x 3, flag x 4⟩
/-- The memory fields of R179. -/
def memModOf (x : Nat) : MemMod :=
  ⟨sizeOf (bits x 32 3), BitVec.ofNat 16 (bits x 16 16), flag x 8, hintOf (bits x 6 2), orderOf (bits x 3 2),
    scopeOf (bits x 0 3)⟩
/-- The atomic fields of R179 and R189. -/
def atomModOf (x : Nat) : AtomMod :=
  ⟨atomOpOf (bits x 12 4), bits x 32 3 == 3, flag x 5, BitVec.ofNat 16 (bits x 16 16), hintOf (bits x 6 2),
    orderOf (bits x 3 2), scopeOf (bits x 0 3)⟩
/-- A predicate source in [lo+5:lo] with its negation in bit `neg` (R131, R142, R161). -/
def psrcOf (x lo neg : Nat) : PSrc := ⟨fin64 (bits x lo 6), flag x neg⟩

/-- The sizes that a masked store takes (R181). -/
def maskedCode (n : Nat) : Bool := n == 0 || n == 3 || n == 4
/-- The checks of R179 on LD, ST and STM: `orders` are the order codes of the row. -/
def memChecks (x : Nat) (orders : List Nat) : List (Nat × Bool) :=
  [(6, bits x 6 2 ≤ 2), (3, orders.contains (bits x 3 2) && (!flag x 8 || bits x 3 2 == 0)),
    (0, bits x 0 3 ≤ 5 && (bits x 3 2 != 0 || bits x 0 3 == 0))]
/-- The checks of R189 and R203 on an atomic's operation, size and signedness. -/
def atomChecks (x : Nat) : List (Nat × Bool) :=
  [(32, bits x 32 3 == 0 || bits x 32 3 == 3), (12, bits x 12 4 ≤ 8 && !(bits x 12 4 == 8 && bits x 32 3 == 3)),
    (5, !flag x 5 || bits x 12 4 == 1 || bits x 12 4 == 2)]
/-- The checks of R179 on an atomic's cache hint, order and scope. -/
def orderChecks (x : Nat) : List (Nat × Bool) :=
  [(6, bits x 6 2 ≤ 2), (0, bits x 0 3 ≤ 5 && (bits x 3 2 != 0 || bits x 0 3 == 0))]
/-- The checks of R164 and R168 on a reduction; and, or and xor of a floating type are an illegal encoding (R168, R346; log 58). -/
def redChecks (x : Nat) : List (Nat × Bool) :=
  let flt := decide (bits x 8 3 ≤ 4)
  [(11, !(flt && flag x 11)), (8, bits x 8 3 ≤ 6), (5, bits x 5 3 ≤ 6 && !(flt && decide (4 ≤ bits x 5 3))),
    (4, flt || !flag x 4), (3, flt || !flag x 3), (0, if flt then decide (bits x 0 3 ≤ 4) else bits x 0 3 == 0)]
/-- The policy of a MERGE (R201). -/
def policyOf (x : Nat) : Policy :=
  match bits x 1 2 with
  | 1 => .low
  | 2 => .red (redOf (bits x 3 3)) (if bits x 14 3 = 5 then none else some (fmtOf (bits x 14 3))) (flag x 6)
      (rmOf (bits x 17 3)) (flag x 20)
  | _ => .chk
/-- The checks of R201 and R203 on a MERGE. -/
def mergeChecks (x : Nat) : List (Nat × Bool) :=
  let red := bits x 1 2 == 2
  let flt := decide (bits x 14 3 ≤ 4)
  [(1, bits x 1 2 ≤ 2), (3, if red then decide (bits x 3 3 ≤ 6) && !(flt && decide (4 ≤ bits x 3 3)) else bits x 3 3 == 0),
    (6, if red then !(flt && flag x 6) else !flag x 6), (14, if red then decide (bits x 14 3 ≤ 5) else bits x 14 3 == 0),
    (17, if red && flt then decide (bits x 17 3 ≤ 4) else bits x 17 3 == 0), (20, (red && flt) || !flag x 20),
    (21, !(red && flag x 21))]

/-- Which operand fields the operation numbered `n` of class 0 uses; none for an unassigned number (R120, R345). -/
def usesControl (n : Nat) (_f : Fields) : Option Uses4 :=
  match n with
  | 0x00 => some ⟨false, false, false, false⟩
  | 0x01 => some ⟨false, true, false, false⟩
  | 0x02 => some ⟨false, false, false, false⟩
  | 0x03 => some ⟨false, true, false, false⟩
  | 0x04 => some ⟨false, false, false, false⟩
  | 0x05 => some ⟨false, false, false, false⟩
  | 0x06 => some ⟨false, false, false, false⟩
  | 0x07 => some ⟨false, false, false, false⟩
  | 0x08 => some ⟨false, false, false, false⟩
  | 0x09 => some ⟨false, false, false, false⟩
  | _ => none

/-- The operation numbered `n` of class 0, or the number of its lowest illegal modifier bit (R120, R121). -/
def buildControl (n : Nat) (g : Guard) (f : Fields) (x : Nat) : Except Nat Instr :=
  match n with
  | 0x00 => modRow x ([(0, 32)]) ([])
      (.bra g (BitVec.ofNat 32 f.imm))
  | 0x01 => modRow x ([]) ([])
      (.brx g (srcOf f.a f.at_ f.ba))
  | 0x02 => modRow x ([(0, 32)]) ([])
      (.call g (BitVec.ofNat 32 f.imm))
  | 0x03 => modRow x ([]) ([])
      (.callx g (srcOf f.a f.at_ f.ba))
  | 0x04 => modRow x ([]) ([])
      (.ret g)
  | 0x05 => modRow x ([]) ([])
      (.reform g)
  | 0x06 => modRow x ([]) ([])
      (.exit g)
  | 0x07 => modRow x ([]) ([])
      (.nop g)
  | 0x08 => modRow x ([]) ([])
      (.yield g)
  | 0x09 => modRow x ([(0, 6)]) ([])
      (.drain g (fin64 (bits x 0 6)))
  | _ => .error 0

/-- Which operand fields the operation numbered `n` of class 1 uses; none for an unassigned number (R120, R345). -/
def usesInteger (n : Nat) (_f : Fields) : Option Uses4 :=
  match n with
  | 0x00 => some ⟨true, true, false, false⟩
  | 0x01 => some ⟨true, false, false, false⟩
  | 0x02 => some ⟨true, true, true, false⟩
  | 0x03 => some ⟨true, true, true, false⟩
  | 0x08 => some ⟨true, true, true, false⟩
  | 0x09 => some ⟨true, true, true, false⟩
  | 0x0a => some ⟨true, true, true, false⟩
  | 0x0b => some ⟨true, true, true, false⟩
  | 0x0c => some ⟨true, true, true, false⟩
  | 0x0d => some ⟨true, true, true, false⟩
  | 0x0e => some ⟨true, true, true, true⟩
  | 0x0f => some ⟨true, true, true, true⟩
  | 0x10 => some ⟨true, true, true, false⟩
  | 0x11 => some ⟨true, true, true, false⟩
  | 0x12 => some ⟨true, true, false, false⟩
  | 0x13 => some ⟨true, true, false, false⟩
  | 0x14 => some ⟨true, true, true, false⟩
  | 0x15 => some ⟨false, true, true, false⟩
  | 0x16 => some ⟨true, true, true, false⟩
  | 0x20 => some ⟨true, true, true, false⟩
  | 0x21 => some ⟨true, true, true, false⟩
  | 0x22 => some ⟨true, true, true, false⟩
  | 0x23 => some ⟨true, true, false, false⟩
  | 0x24 => some ⟨true, true, true, true⟩
  | 0x25 => some ⟨true, true, true, false⟩
  | 0x26 => some ⟨true, true, true, false⟩
  | 0x27 => some ⟨true, true, true, false⟩
  | 0x28 => some ⟨true, true, true, true⟩
  | 0x29 => some ⟨true, true, true, true⟩
  | 0x2a => some ⟨true, true, true, false⟩
  | 0x2b => some ⟨true, true, false, false⟩
  | 0x2c => some ⟨true, true, false, false⟩
  | 0x2d => some ⟨true, true, false, false⟩
  | 0x2e => some ⟨true, true, false, false⟩
  | 0x2f => some ⟨true, true, true, false⟩
  | 0x30 => some ⟨true, true, true, true⟩
  | 0x31 => some ⟨true, true, true, true⟩
  | 0x38 => some ⟨true, true, true, true⟩
  | 0x40 => some ⟨false, false, false, false⟩
  | 0x41 => some ⟨false, false, false, false⟩
  | 0x42 => some ⟨false, false, false, false⟩
  | 0x43 => some ⟨false, false, false, false⟩
  | 0x44 => some ⟨false, false, false, false⟩
  | 0x45 => some ⟨false, true, true, false⟩
  | 0x46 => some ⟨true, false, false, false⟩
  | _ => none

/-- The operation numbered `n` of class 1, or the number of its lowest illegal modifier bit (R120, R121). -/
def buildInteger (n : Nat) (g : Guard) (f : Fields) (x : Nat) : Except Nat Instr :=
  match n with
  | 0x00 => modRow x ([(32, 1), (33, 1)] ++ (if f.a == 1022 then [(0, 32)] else [])) ([])
      (.mov g (flag x 32) (flag x 33) (dstOf f.d f.dt) (srcOf f.a f.at_ f.ba) (BitVec.ofNat 32 f.imm))
  | 0x01 => modRow x ([(32, 1), (33, 1), (0, 32)]) ([])
      (.movi g (flag x 32) (flag x 33) (dstOf f.d f.dt) (BitVec.ofNat 32 f.imm))
  | 0x02 => modRow x ([] ++ (if f.a == 1022 || f.b == 1022 then [(0, 32)] else [])) ([])
      (.movh g (dstOf f.d f.dt) (srcOf f.a f.at_ f.ba) (srcOf f.b f.bt f.bb) (BitVec.ofNat 32 f.imm))
  | 0x03 => modRow x ([(32, 1), (33, 1), (0, 6), (6, 1)]) ([])
      (.sel g (flag x 32) (flag x 33) (dstOf f.d f.dt) (srcOf f.a f.at_ f.ba) (srcOf f.b f.bt f.bb) (psrcOf x 0 6))
  | 0x08 => modRow x ([(32, 1), (33, 1), (34, 1)] ++ (if f.a == 1022 || f.b == 1022 then [(0, 32)] else [])) ([])
      (.iadd g (imodOf x) (dstOf f.d f.dt) (srcOf f.a f.at_ f.ba) (srcOf f.b f.bt f.bb) (BitVec.ofNat 32 f.imm))
  | 0x09 => modRow x ([(32, 1), (33, 1), (34, 1)] ++ (if f.a == 1022 || f.b == 1022 then [(0, 32)] else [])) ([])
      (.isub g (imodOf x) (dstOf f.d f.dt) (srcOf f.a f.at_ f.ba) (srcOf f.b f.bt f.bb) (BitVec.ofNat 32 f.imm))
  | 0x0a => modRow x ([(32, 1), (0, 6), (8, 6)]) ([])
      (.iaddc g (flag x 32) (dstOf f.d f.dt) (srcOf f.a f.at_ f.ba) (srcOf f.b f.bt f.bb) (fin64 (bits x 0 6)) (fin64 (bits x 8 6)))
  | 0x0b => modRow x ([(32, 1), (0, 6), (8, 6)]) ([])
      (.isubb g (flag x 32) (dstOf f.d f.dt) (srcOf f.a f.at_ f.ba) (srcOf f.b f.bt f.bb) (fin64 (bits x 0 6)) (fin64 (bits x 8 6)))
  | 0x0c => modRow x ([(32, 1), (33, 1), (34, 1)] ++ (if f.a == 1022 || f.b == 1022 then [(0, 32)] else [])) ([])
      (.imul g (imodOf x) (dstOf f.d f.dt) (srcOf f.a f.at_ f.ba) (srcOf f.b f.bt f.bb) (BitVec.ofNat 32 f.imm))
  | 0x0d => modRow x ([(32, 1), (33, 1)] ++ (if f.a == 1022 || f.b == 1022 then [(0, 32)] else [])) ([])
      (.imulh g (flag x 32) (flag x 33) (dstOf f.d f.dt) (srcOf f.a f.at_ f.ba) (srcOf f.b f.bt f.bb) (BitVec.ofNat 32 f.imm))
  | 0x0e => modRow x ([(32, 1), (33, 1), (34, 1)] ++ (if f.a == 1022 || f.b == 1022 || f.c == 1022 then [(0, 32)] else [])) ([])
      (.imad g (imodOf x) (dstOf f.d f.dt) (srcOf f.a f.at_ f.ba) (srcOf f.b f.bt f.bb) (srcOf f.c f.ct f.bc) (BitVec.ofNat 32 f.imm))
  | 0x0f => modRow x ([(33, 1), (34, 1)] ++ (if f.a == 1022 || f.b == 1022 || f.c == 1022 then [(0, 32)] else [])) ([])
      (.imadw g (flag x 33) (flag x 34) (dstOf f.d f.dt) (srcOf f.a f.at_ f.ba) (srcOf f.b f.bt f.bb) (srcOf f.c f.ct f.bc) (BitVec.ofNat 32 f.imm))
  | 0x10 => modRow x ([(32, 1), (33, 1)] ++ (if f.a == 1022 || f.b == 1022 then [(0, 32)] else [])) ([])
      (.imin g (flag x 32) (flag x 33) (dstOf f.d f.dt) (srcOf f.a f.at_ f.ba) (srcOf f.b f.bt f.bb) (BitVec.ofNat 32 f.imm))
  | 0x11 => modRow x ([(32, 1), (33, 1)] ++ (if f.a == 1022 || f.b == 1022 then [(0, 32)] else [])) ([])
      (.imax g (flag x 32) (flag x 33) (dstOf f.d f.dt) (srcOf f.a f.at_ f.ba) (srcOf f.b f.bt f.bb) (BitVec.ofNat 32 f.imm))
  | 0x12 => modRow x ([(32, 1), (34, 1)] ++ (if f.a == 1022 then [(0, 32)] else [])) ([])
      (.iabs g (flag x 32) (flag x 34) (dstOf f.d f.dt) (srcOf f.a f.at_ f.ba) (BitVec.ofNat 32 f.imm))
  | 0x13 => modRow x ([(32, 1), (33, 1), (34, 1)] ++ (if f.a == 1022 then [(0, 32)] else [])) ([])
      (.ineg g (imodOf x) (dstOf f.d f.dt) (srcOf f.a f.at_ f.ba) (BitVec.ofNat 32 f.imm))
  | 0x14 => modRow x ([(32, 1), (33, 1)] ++ (if f.a == 1022 || f.b == 1022 then [(0, 32)] else [])) ([])
      (.idiff g (flag x 32) (flag x 33) (dstOf f.d f.dt) (srcOf f.a f.at_ f.ba) (srcOf f.b f.bt f.bb) (BitVec.ofNat 32 f.imm))
  | 0x15 => modRow x ([(32, 1), (33, 1), (0, 3), (8, 6)]) ([(0, bits x 0 3 ≤ 5)])
      (.icmp g (flag x 32) (flag x 33) (condOf (bits x 0 3)) (fin64 (bits x 8 6)) (srcOf f.a f.at_ f.ba) (srcOf f.b f.bt f.bb))
  | 0x16 => modRow x ([(32, 1), (33, 1), (0, 3)]) ([(0, bits x 0 3 ≤ 5)])
      (.iset g (flag x 32) (flag x 33) (condOf (bits x 0 3)) (dstOf f.d f.dt) (srcOf f.a f.at_ f.ba) (srcOf f.b f.bt f.bb))
  | 0x20 => modRow x ([(32, 1)] ++ (if f.a == 1022 || f.b == 1022 then [(0, 32)] else [])) ([])
      (.and g (flag x 32) (dstOf f.d f.dt) (srcOf f.a f.at_ f.ba) (srcOf f.b f.bt f.bb) (BitVec.ofNat 32 f.imm))
  | 0x21 => modRow x ([(32, 1)] ++ (if f.a == 1022 || f.b == 1022 then [(0, 32)] else [])) ([])
      (.or g (flag x 32) (dstOf f.d f.dt) (srcOf f.a f.at_ f.ba) (srcOf f.b f.bt f.bb) (BitVec.ofNat 32 f.imm))
  | 0x22 => modRow x ([(32, 1)] ++ (if f.a == 1022 || f.b == 1022 then [(0, 32)] else [])) ([])
      (.xor g (flag x 32) (dstOf f.d f.dt) (srcOf f.a f.at_ f.ba) (srcOf f.b f.bt f.bb) (BitVec.ofNat 32 f.imm))
  | 0x23 => modRow x ([(32, 1)] ++ (if f.a == 1022 then [(0, 32)] else [])) ([])
      (.not g (flag x 32) (dstOf f.d f.dt) (srcOf f.a f.at_ f.ba) (BitVec.ofNat 32 f.imm))
  | 0x24 => modRow x ([(32, 1), (16, 8)]) ([])
      (.tlog g (flag x 32) (dstOf f.d f.dt) (srcOf f.a f.at_ f.ba) (srcOf f.b f.bt f.bb) (srcOf f.c f.ct f.bc) (BitVec.ofNat 8 (bits x 16 8)))
  | 0x25 => modRow x ([(32, 1)] ++ (if f.a == 1022 || f.b == 1022 then [(0, 32)] else [])) ([])
      (.shl g (flag x 32) (dstOf f.d f.dt) (srcOf f.a f.at_ f.ba) (srcOf f.b f.bt f.bb) (BitVec.ofNat 32 f.imm))
  | 0x26 => modRow x ([(32, 1)] ++ (if f.a == 1022 || f.b == 1022 then [(0, 32)] else [])) ([])
      (.shr g (flag x 32) (dstOf f.d f.dt) (srcOf f.a f.at_ f.ba) (srcOf f.b f.bt f.bb) (BitVec.ofNat 32 f.imm))
  | 0x27 => modRow x ([(32, 1)] ++ (if f.a == 1022 || f.b == 1022 then [(0, 32)] else [])) ([])
      (.sar g (flag x 32) (dstOf f.d f.dt) (srcOf f.a f.at_ f.ba) (srcOf f.b f.bt f.bb) (BitVec.ofNat 32 f.imm))
  | 0x28 => modRow x ([] ++ (if f.a == 1022 || f.b == 1022 || f.c == 1022 then [(0, 32)] else [])) ([])
      (.fshl g (dstOf f.d f.dt) (srcOf f.a f.at_ f.ba) (srcOf f.b f.bt f.bb) (srcOf f.c f.ct f.bc) (BitVec.ofNat 32 f.imm))
  | 0x29 => modRow x ([] ++ (if f.a == 1022 || f.b == 1022 || f.c == 1022 then [(0, 32)] else [])) ([])
      (.fshr g (dstOf f.d f.dt) (srcOf f.a f.at_ f.ba) (srcOf f.b f.bt f.bb) (srcOf f.c f.ct f.bc) (BitVec.ofNat 32 f.imm))
  | 0x2a => modRow x ([(32, 1)] ++ (if f.a == 1022 || f.b == 1022 then [(0, 32)] else [])) ([])
      (.rot g (flag x 32) (dstOf f.d f.dt) (srcOf f.a f.at_ f.ba) (srcOf f.b f.bt f.bb) (BitVec.ofNat 32 f.imm))
  | 0x2b => modRow x ([(32, 1)] ++ (if f.a == 1022 then [(0, 32)] else [])) ([])
      (.popc g (flag x 32) (dstOf f.d f.dt) (srcOf f.a f.at_ f.ba) (BitVec.ofNat 32 f.imm))
  | 0x2c => modRow x ([(32, 1)] ++ (if f.a == 1022 then [(0, 32)] else [])) ([])
      (.clz g (flag x 32) (dstOf f.d f.dt) (srcOf f.a f.at_ f.ba) (BitVec.ofNat 32 f.imm))
  | 0x2d => modRow x ([(32, 1)] ++ (if f.a == 1022 then [(0, 32)] else [])) ([])
      (.ctz g (flag x 32) (dstOf f.d f.dt) (srcOf f.a f.at_ f.ba) (BitVec.ofNat 32 f.imm))
  | 0x2e => modRow x ([(32, 1)] ++ (if f.a == 1022 then [(0, 32)] else [])) ([])
      (.brev g (flag x 32) (dstOf f.d f.dt) (srcOf f.a f.at_ f.ba) (BitVec.ofNat 32 f.imm))
  | 0x2f => modRow x ([(32, 1), (33, 1)] ++ (if f.a == 1022 || f.b == 1022 then [(0, 32)] else [])) ([])
      (.bfx g (flag x 32) (flag x 33) (dstOf f.d f.dt) (srcOf f.a f.at_ f.ba) (srcOf f.b f.bt f.bb) (BitVec.ofNat 32 f.imm))
  | 0x30 => modRow x ([(32, 1)] ++ (if f.a == 1022 || f.b == 1022 || f.c == 1022 then [(0, 32)] else [])) ([])
      (.bfi g (flag x 32) (dstOf f.d f.dt) (srcOf f.a f.at_ f.ba) (srcOf f.b f.bt f.bb) (srcOf f.c f.ct f.bc) (BitVec.ofNat 32 f.imm))
  | 0x31 => modRow x ([] ++ (if f.a == 1022 || f.b == 1022 || f.c == 1022 then [(0, 32)] else [])) ([])
      (.bytep g (dstOf f.d f.dt) (srcOf f.a f.at_ f.ba) (srcOf f.b f.bt f.bb) (srcOf f.c f.ct f.bc) (BitVec.ofNat 32 f.imm))
  | 0x38 => modRow x ([(33, 1)] ++ (if f.a == 1022 || f.b == 1022 || f.c == 1022 then [(0, 32)] else [])) ([])
      (.lea g (flag x 33) (dstOf f.d f.dt) (srcOf f.a f.at_ f.ba) (srcOf f.b f.bt f.bb) (srcOf f.c f.ct f.bc) (BitVec.ofNat 32 f.imm))
  | 0x40 => modRow x ([(0, 6), (8, 6), (14, 1), (16, 6), (22, 1)]) ([])
      (.pand g (fin64 (bits x 0 6)) (psrcOf x 8 14) (psrcOf x 16 22))
  | 0x41 => modRow x ([(0, 6), (8, 6), (14, 1), (16, 6), (22, 1)]) ([])
      (.por g (fin64 (bits x 0 6)) (psrcOf x 8 14) (psrcOf x 16 22))
  | 0x42 => modRow x ([(0, 6), (8, 6), (14, 1), (16, 6), (22, 1)]) ([])
      (.pxor g (fin64 (bits x 0 6)) (psrcOf x 8 14) (psrcOf x 16 22))
  | 0x43 => modRow x ([(0, 6), (8, 6), (14, 1)]) ([])
      (.pnot g (fin64 (bits x 0 6)) (psrcOf x 8 14))
  | 0x44 => modRow x ([(0, 6), (8, 6), (14, 1)]) ([])
      (.pmov g (fin64 (bits x 0 6)) (psrcOf x 8 14))
  | 0x45 => modRow x ([(32, 1)] ++ (if f.a == 1022 || f.b == 1022 then [(0, 32)] else [])) ([])
      (.pset g (flag x 32) (srcOf f.a f.at_ f.ba) (srcOf f.b f.bt f.bb) (BitVec.ofNat 32 f.imm))
  | 0x46 => modRow x ([(32, 1)]) ([])
      (.pget g (flag x 32) (dstOf f.d f.dt))
  | _ => .error 0

/-- Which operand fields the operation numbered `n` of class 2 uses; none for an unassigned number (R120, R345). -/
def usesFloating (n : Nat) (_f : Fields) : Option Uses4 :=
  match n with
  | 0x00 => some ⟨true, true, true, false⟩
  | 0x01 => some ⟨true, true, true, false⟩
  | 0x02 => some ⟨true, true, true, false⟩
  | 0x03 => some ⟨true, true, true, true⟩
  | 0x04 => some ⟨true, true, true, false⟩
  | 0x05 => some ⟨true, true, true, false⟩
  | 0x06 => some ⟨true, true, true, false⟩
  | 0x07 => some ⟨true, true, false, false⟩
  | 0x10 => some ⟨true, true, true, false⟩
  | 0x11 => some ⟨true, true, false, false⟩
  | 0x12 => some ⟨true, true, false, false⟩
  | 0x13 => some ⟨true, true, false, false⟩
  | 0x14 => some ⟨true, true, false, false⟩
  | 0x15 => some ⟨true, true, false, false⟩
  | 0x16 => some ⟨true, true, false, false⟩
  | 0x17 => some ⟨true, true, false, false⟩
  | 0x18 => some ⟨true, true, false, false⟩
  | 0x20 => some ⟨true, true, true, false⟩
  | 0x21 => some ⟨true, true, false, false⟩
  | _ => none

/-- The operation numbered `n` of class 2, or the number of its lowest illegal modifier bit (R120, R121). -/
def buildFloating (n : Nat) (g : Guard) (f : Fields) (x : Nat) : Except Nat Instr :=
  match n with
  | 0x00 => modRow x ([(32, 3), (0, 3), (3, 1), (4, 1)]) ([(32, bits x 32 3 ≤ 4), (0, bits x 0 3 ≤ 5)])
      (.fadd g (fmodOf x) (dstOf f.d f.dt) (srcOf f.a f.at_ f.ba) (srcOf f.b f.bt f.bb))
  | 0x01 => modRow x ([(32, 3), (0, 3), (3, 1), (4, 1)]) ([(32, bits x 32 3 ≤ 4), (0, bits x 0 3 ≤ 5)])
      (.fsub g (fmodOf x) (dstOf f.d f.dt) (srcOf f.a f.at_ f.ba) (srcOf f.b f.bt f.bb))
  | 0x02 => modRow x ([(32, 3), (0, 3), (3, 1), (4, 1)]) ([(32, bits x 32 3 ≤ 4), (0, bits x 0 3 ≤ 5)])
      (.fmul g (fmodOf x) (dstOf f.d f.dt) (srcOf f.a f.at_ f.ba) (srcOf f.b f.bt f.bb))
  | 0x03 => modRow x ([(32, 3), (0, 3), (3, 1), (4, 1)]) ([(32, bits x 32 3 ≤ 4), (0, bits x 0 3 ≤ 5)])
      (.ffma g (fmodOf x) (dstOf f.d f.dt) (srcOf f.a f.at_ f.ba) (srcOf f.b f.bt f.bb) (srcOf f.c f.ct f.bc))
  | 0x04 => modRow x ([(32, 3), (3, 1)]) ([(32, bits x 32 3 ≤ 4)])
      (.fmin g (fmtOf (bits x 32 3)) (flag x 3) (dstOf f.d f.dt) (srcOf f.a f.at_ f.ba) (srcOf f.b f.bt f.bb))
  | 0x05 => modRow x ([(32, 3), (3, 1)]) ([(32, bits x 32 3 ≤ 4)])
      (.fmax g (fmtOf (bits x 32 3)) (flag x 3) (dstOf f.d f.dt) (srcOf f.a f.at_ f.ba) (srcOf f.b f.bt f.bb))
  | 0x06 => modRow x ([(32, 3), (3, 1), (5, 3), (8, 6)]) ([(32, bits x 32 3 ≤ 4)])
      (.fcmp g (fmtOf (bits x 32 3)) (flag x 3) (fcondOf (bits x 5 3)) (fin64 (bits x 8 6)) (dstOf f.d f.dt) (srcOf f.a f.at_ f.ba) (srcOf f.b f.bt f.bb))
  | 0x07 => modRow x ([(32, 3), (3, 1), (16, 9)]) ([(32, bits x 32 3 ≤ 4)])
      (.fclass g (fmtOf (bits x 32 3)) (flag x 3) (BitVec.ofNat 9 (bits x 16 9)) (dstOf f.d f.dt) (srcOf f.a f.at_ f.ba))
  | 0x10 => modRow x ([(32, 3), (0, 3), (3, 1), (4, 1)]) ([(32, bits x 32 3 ≤ 4), (0, bits x 0 3 ≤ 5)])
      (.fdiv g (fmodOf x) (dstOf f.d f.dt) (srcOf f.a f.at_ f.ba) (srcOf f.b f.bt f.bb))
  | 0x11 => modRow x ([(32, 3), (0, 3), (3, 1), (4, 1)]) ([(32, bits x 32 3 ≤ 4), (0, bits x 0 3 ≤ 5)])
      (.fsqrt g (fmodOf x) (dstOf f.d f.dt) (srcOf f.a f.at_ f.ba))
  | 0x12 => modRow x ([(32, 3), (0, 3), (3, 1), (4, 1)]) ([(32, bits x 32 3 ≤ 4), (0, bits x 0 3 ≤ 5)])
      (.frcp g (fmodOf x) (dstOf f.d f.dt) (srcOf f.a f.at_ f.ba))
  | 0x13 => modRow x ([(32, 3), (0, 3), (3, 1), (4, 1)]) ([(32, bits x 32 3 ≤ 4), (0, bits x 0 3 ≤ 5)])
      (.frsq g (fmodOf x) (dstOf f.d f.dt) (srcOf f.a f.at_ f.ba))
  | 0x14 => modRow x ([(32, 3), (0, 3), (3, 1), (4, 1)]) ([(32, bits x 32 3 ≤ 4), (0, bits x 0 3 ≤ 5)])
      (.fexp2 g (fmodOf x) (dstOf f.d f.dt) (srcOf f.a f.at_ f.ba))
  | 0x15 => modRow x ([(32, 3), (0, 3), (3, 1), (4, 1)]) ([(32, bits x 32 3 ≤ 4), (0, bits x 0 3 ≤ 5)])
      (.flog2 g (fmodOf x) (dstOf f.d f.dt) (srcOf f.a f.at_ f.ba))
  | 0x16 => modRow x ([(32, 3), (0, 3), (3, 1), (4, 1)]) ([(32, bits x 32 3 ≤ 4), (0, bits x 0 3 ≤ 5)])
      (.fsin g (fmodOf x) (dstOf f.d f.dt) (srcOf f.a f.at_ f.ba))
  | 0x17 => modRow x ([(32, 3), (0, 3), (3, 1), (4, 1)]) ([(32, bits x 32 3 ≤ 4), (0, bits x 0 3 ≤ 5)])
      (.fcos g (fmodOf x) (dstOf f.d f.dt) (srcOf f.a f.at_ f.ba))
  | 0x18 => modRow x ([(32, 3), (0, 3), (3, 1), (4, 1)]) ([(32, bits x 32 3 ≤ 4), (0, bits x 0 3 ≤ 5)])
      (.ftanh g (fmodOf x) (dstOf f.d f.dt) (srcOf f.a f.at_ f.ba))
  | 0x20 => modRow x ([(32, 3), (0, 3), (3, 1), (4, 1)]) ([(32, bits x 32 3 ≤ 4), (0, bits x 0 3 ≤ 5)])
      (.fscale g (fmodOf x) (dstOf f.d f.dt) (srcOf f.a f.at_ f.ba) (srcOf f.b f.bt f.bb))
  | 0x21 => modRow x ([(32, 3), (0, 3), (3, 1)]) ([(32, bits x 32 3 ≤ 4), (0, bits x 0 3 ≤ 4)])
      (.frnd g (fmtOf (bits x 32 3)) (rmOf (bits x 0 3)) (flag x 3) (dstOf f.d f.dt) (srcOf f.a f.at_ f.ba))
  | _ => .error 0

/-- Which operand fields the operation numbered `n` of class 3 uses; none for an unassigned number (R120, R345). -/
def usesLane (n : Nat) (_f : Fields) : Option Uses4 :=
  match n with
  | 0x00 => some ⟨true, true, false, false⟩
  | 0x01 => some ⟨true, true, false, false⟩
  | 0x02 => some ⟨true, true, false, false⟩
  | 0x03 => some ⟨true, true, true, false⟩
  | 0x20 => some ⟨true, true, true, true⟩
  | 0x21 => some ⟨true, true, true, true⟩
  | 0x22 => some ⟨false, false, false, false⟩
  | 0x23 => some ⟨true, false, false, false⟩
  | 0x24 => some ⟨true, false, false, false⟩
  | 0x25 => some ⟨true, true, false, false⟩
  | 0x26 => some ⟨true, true, false, false⟩
  | 0x27 => some ⟨true, true, true, true⟩
  | 0x28 => some ⟨true, true, false, true⟩
  | 0x29 => some ⟨true, true, false, true⟩
  | 0x2a => some ⟨true, true, true, false⟩
  | _ => none

/-- The operation numbered `n` of class 3, or the number of its lowest illegal modifier bit (R120, R121). -/
def buildLane (n : Nat) (g : Guard) (f : Fields) (x : Nat) : Except Nat Instr :=
  match n with
  | 0x00 => modRow x ([(32, 3), (0, 3), (3, 1), (4, 1), (5, 3)]) ([(32, bits x 32 3 ≤ 4), (0, bits x 0 3 ≤ 5), (5, bits x 5 3 ≤ 4)])
      (.fcvt g (fmodOf x) (fmtOf (bits x 5 3)) (dstOf f.d f.dt) (srcOf f.a f.at_ f.ba))
  | 0x01 => modRow x ([(32, 3), (0, 3), (3, 1), (4, 1), (5, 3), (8, 1)]) ([(32, bits x 32 3 ≤ 4), (0, bits x 0 3 ≤ 5), (5, bits x 5 3 ≤ 3)])
      (.icvt g (fmodOf x) (ikindOf (bits x 5 3)) (flag x 8) (dstOf f.d f.dt) (srcOf f.a f.at_ f.ba))
  | 0x02 => modRow x ([(32, 3), (0, 3), (3, 1), (5, 3), (8, 1)]) ([(32, bits x 32 3 ≤ 4), (0, bits x 0 3 ≤ 4), (5, bits x 5 3 ≤ 3)])
      (.fcvti g (ikindOf (bits x 5 3)) (flag x 8) (fmtOf (bits x 32 3)) (rmOf (bits x 0 3)) (flag x 3) (dstOf f.d f.dt) (srcOf f.a f.at_ f.ba))
  | 0x03 => modRow x ([(32, 3), (0, 3), (3, 1), (4, 1), (5, 3)]) ([(32, bits x 32 3 ≤ 2), (0, bits x 0 3 ≤ 5), (5, bits x 5 3 ≤ 1)])
      (.kdec g (fmodOf x) (flag x 5) (dstOf f.d f.dt) (srcOf f.a f.at_ f.ba) (srcOf f.b f.bt f.bb))
  | 0x20 => modRow x ([(0, 3), (3, 1), (4, 4)]) ([(0, bits x 0 3 ≤ 4), (4, if flag x 3 then decide (bits x 4 4 ≤ 7) else bits x 4 4 == 0)])
      (.xshf g (shfOf (bits x 0 3)) (if flag x 3 then some (fin8 (bits x 4 4)) else none) (dstOf f.d f.dt) (srcOf f.a f.at_ f.ba) (srcOf f.b f.bt f.bb) (srcOf f.c f.ct f.bc))
  | 0x21 => modRow x ([(0, 2)]) ([(0, bits x 0 2 ≤ 2)])
      (.xbcast g (bcOf (bits x 0 2)) (dstOf f.d f.dt) (srcOf f.a f.at_ f.ba) (srcOf f.b f.bt f.bb) (srcOf f.c f.ct f.bc))
  | 0x22 => modRow x ([(0, 6), (6, 1), (8, 6), (16, 2)]) ([(16, bits x 16 2 ≤ 2)])
      (.xvote g (voteOf (bits x 16 2)) (fin64 (bits x 8 6)) (psrcOf x 0 6))
  | 0x23 => modRow x ([(0, 6), (6, 1)]) ([])
      (.xballot g (dstOf f.d f.dt) (psrcOf x 0 6))
  | 0x24 => modRow x ([(0, 6), (6, 1), (7, 1)]) ([])
      (.xpfx g (flag x 7) (dstOf f.d f.dt) (psrcOf x 0 6))
  | 0x25 => modRow x ([(0, 3), (3, 1), (4, 1), (5, 3), (8, 3), (11, 1), (12, 1)]) (redChecks x)
      (.xred g (rmodOf x) (dstOf f.d f.dt) (srcOf f.a f.at_ f.ba))
  | 0x26 => modRow x ([(0, 3), (3, 1), (4, 1), (5, 3), (8, 3), (11, 1), (12, 1)]) (redChecks x)
      (.xscan g (rmodOf x) (dstOf f.d f.dt) (srcOf f.a f.at_ f.ba))
  | 0x27 => modRow x ([(0, 1)]) ([])
      (.xslide g (flag x 0) (dstOf f.d f.dt) (srcOf f.a f.at_ f.ba) (srcOf f.b f.bt f.bb) (srcOf f.c f.ct f.bc))
  | 0x28 => modRow x ([(0, 6), (6, 1)]) ([])
      (.xcmpr g (dstOf f.d f.dt) (srcOf f.a f.at_ f.ba) (srcOf f.c f.ct f.bc) (psrcOf x 0 6))
  | 0x29 => modRow x ([(0, 6), (6, 1)]) ([])
      (.xexpd g (dstOf f.d f.dt) (srcOf f.a f.at_ f.ba) (srcOf f.c f.ct f.bc) (psrcOf x 0 6))
  | 0x2a => modRow x ([(0, 3), (8, 8)]) ([])
      (.xtbl g (fin8 (bits x 0 3)) (BitVec.ofNat 8 (bits x 8 8)) (dstOf f.d f.dt) (srcOf f.a f.at_ f.ba) (srcOf f.b f.bt f.bb))
  | _ => .error 0

/-- Which operand fields the operation numbered `n` of class 4 uses; none for an unassigned number (R120, R345). -/
def usesModular (n : Nat) (_f : Fields) : Option Uses4 :=
  match n with
  | 0x00 => some ⟨false, true, false, false⟩
  | 0x01 => some ⟨true, false, false, false⟩
  | 0x08 => some ⟨true, true, true, false⟩
  | 0x09 => some ⟨true, true, true, false⟩
  | 0x0a => some ⟨true, true, false, false⟩
  | 0x0b => some ⟨true, true, true, false⟩
  | 0x0c => some ⟨true, true, true, true⟩
  | 0x0d => some ⟨true, true, false, false⟩
  | 0x0e => some ⟨true, true, true, false⟩
  | 0x10 => some ⟨true, true, true, true⟩
  | 0x11 => some ⟨true, true, true, true⟩
  | 0x12 => some ⟨true, true, true, false⟩
  | 0x13 => some ⟨true, true, true, false⟩
  | _ => none

/-- The operation numbered `n` of class 4, or the number of its lowest illegal modifier bit (R120, R121). -/
def buildModular (n : Nat) (g : Guard) (f : Fields) (x : Nat) : Except Nat Instr :=
  match n with
  | 0x00 => modRow x ([(32, 3), (0, 1), (4, 2)]) ([])
      (.qset g (fin8 (bits x 32 3)) (flag x 0) (dtagOf (bits x 4 2)) (srcOf f.a f.at_ f.ba))
  | 0x01 => modRow x ([(32, 3), (0, 2)]) ([(0, bits x 0 2 ≤ 2)])
      (.qget g (fin8 (bits x 32 3)) (qselOf (bits x 0 2)) (dstOf f.d f.dt))
  | 0x08 => modRow x ([(32, 3)]) ([])
      (.maddq g (fin8 (bits x 32 3)) (dstOf f.d f.dt) (srcOf f.a f.at_ f.ba) (srcOf f.b f.bt f.bb))
  | 0x09 => modRow x ([(32, 3)]) ([])
      (.msubq g (fin8 (bits x 32 3)) (dstOf f.d f.dt) (srcOf f.a f.at_ f.ba) (srcOf f.b f.bt f.bb))
  | 0x0a => modRow x ([(32, 3)]) ([])
      (.mnegq g (fin8 (bits x 32 3)) (dstOf f.d f.dt) (srcOf f.a f.at_ f.ba))
  | 0x0b => modRow x ([(32, 3)]) ([])
      (.mmulq g (fin8 (bits x 32 3)) (dstOf f.d f.dt) (srcOf f.a f.at_ f.ba) (srcOf f.b f.bt f.bb))
  | 0x0c => modRow x ([(32, 3)]) ([])
      (.mmacq g (fin8 (bits x 32 3)) (dstOf f.d f.dt) (srcOf f.a f.at_ f.ba) (srcOf f.b f.bt f.bb) (srcOf f.c f.ct f.bc))
  | 0x0d => modRow x ([(32, 3)]) ([])
      (.mredq g (fin8 (bits x 32 3)) (dstOf f.d f.dt) (srcOf f.a f.at_ f.ba))
  | 0x0e => modRow x ([(32, 3)]) ([])
      (.mpowq g (fin8 (bits x 32 3)) (dstOf f.d f.dt) (srcOf f.a f.at_ f.ba) (srcOf f.b f.bt f.bb))
  | 0x10 => modRow x ([(32, 3)]) ([])
      (.bfly g (fin8 (bits x 32 3)) (dstOf f.d f.dt) (srcOf f.a f.at_ f.ba) (srcOf f.b f.bt f.bb) (srcOf f.c f.ct f.bc))
  | 0x11 => modRow x ([(32, 3)]) ([])
      (.ibfly g (fin8 (bits x 32 3)) (dstOf f.d f.dt) (srcOf f.a f.at_ f.ba) (srcOf f.b f.bt f.bb) (srcOf f.c f.ct f.bc))
  | 0x12 => modRow x ([(32, 3), (0, 3), (3, 1)]) ([(0, if flag x 3 then bits x 0 3 != 0 else bits x 0 3 != 7)])
      (.xbfly g (fin8 (bits x 32 3)) (flag x 3) (fin8 (bits x 0 3)) (dstOf f.d f.dt) (srcOf f.a f.at_ f.ba) (srcOf f.b f.bt f.bb))
  | 0x13 => modRow x ([(32, 3), (0, 3), (3, 1)]) ([(0, if flag x 3 then bits x 0 3 != 0 else bits x 0 3 != 7)])
      (.xibfly g (fin8 (bits x 32 3)) (flag x 3) (fin8 (bits x 0 3)) (dstOf f.d f.dt) (srcOf f.a f.at_ f.ba) (srcOf f.b f.bt f.bb))
  | _ => .error 0

/-- Which operand fields the operation numbered `n` of class 5 uses; none for an unassigned number (R120, R345). -/
def usesMemory (n : Nat) (f : Fields) : Option Uses4 :=
  match n with
  | 0x00 => some ⟨true, true, false, false⟩
  | 0x01 => some ⟨false, true, true, false⟩
  | 0x02 => some ⟨false, true, true, true⟩
  | 0x03 => some ⟨true, true, false, false⟩
  | 0x04 => some ⟨false, true, true, false⟩
  | 0x05 => some ⟨false, true, true, true⟩
  | 0x06 => some ⟨false, true, false, false⟩
  | 0x10 => some ⟨true, true, true, bits f.imm 12 4 == 7⟩
  | 0x11 => some ⟨true, true, true, bits f.imm 12 4 == 7⟩
  | 0x12 => some ⟨false, true, true, false⟩
  | 0x20 => some ⟨false, false, false, false⟩
  | 0x21 => some ⟨false, false, false, false⟩
  | 0x22 => some ⟨false, false, false, false⟩
  | 0x23 => some ⟨false, false, false, false⟩
  | 0x30 => some ⟨false, true, true, flag f.imm 1⟩
  | 0x31 => some ⟨false, true, true, flag f.imm 1⟩
  | 0x32 => some ⟨false, true, false, false⟩
  | 0x33 => some ⟨false, true, false, false⟩
  | 0x40 => some ⟨true, true, false, false⟩
  | 0x41 => some ⟨!flag f.imm 21, !flag f.imm 21, true, false⟩
  | 0x48 => some ⟨false, !flag f.imm 21, false, false⟩
  | 0x49 => some ⟨false, !flag f.imm 21, false, false⟩
  | 0x4a => some ⟨true, !flag f.imm 21, false, false⟩
  | _ => none

/-- The operation numbered `n` of class 5, or the number of its lowest illegal modifier bit (R120, R121). The pair flag of NBCAST is illegal
beside its slot form (log 57). -/
def buildMemory (n : Nat) (g : Guard) (f : Fields) (x : Nat) : Except Nat Instr :=
  match n with
  | 0x00 => modRow x ([(32, 3), (16, 16), (8, 1), (6, 2), (5, 1), (3, 2), (0, 3)]) ((32, bits x 32 3 ≤ 4) :: (5, !flag x 5 || bits x 32 3 == 1 || bits x 32 3 == 2) :: memChecks x [0, 1])
      (.ld g (memModOf x) (flag x 5) (dstOf f.d f.dt) (srcOf f.a f.at_ f.ba))
  | 0x01 => modRow x ([(32, 3), (16, 16), (8, 1), (6, 2), (3, 2), (0, 3)]) ((32, bits x 32 3 ≤ 4) :: memChecks x [0, 2])
      (.st g (memModOf x) (srcOf f.a f.at_ f.ba) (srcOf f.b f.bt f.bb))
  | 0x02 => modRow x ([(32, 3), (16, 16), (8, 1), (6, 2), (3, 2), (0, 3)]) ((32, maskedCode (bits x 32 3)) :: memChecks x [0])
      (.stm g (memModOf x) (srcOf f.a f.at_ f.ba) (srcOf f.b f.bt f.bb) (srcOf f.c f.ct f.bc))
  | 0x03 => modRow x ([(32, 3), (16, 16), (9, 1), (5, 1)]) ([(32, bits x 32 3 ≤ 4), (5, !flag x 5 || bits x 32 3 == 1 || bits x 32 3 == 2)])
      (.lds g (sizeOf (bits x 32 3)) (flag x 9) (flag x 5) (BitVec.ofNat 16 (bits x 16 16)) (dstOf f.d f.dt) (srcOf f.a f.at_ f.ba))
  | 0x04 => modRow x ([(32, 3), (16, 16)]) ([(32, bits x 32 3 ≤ 4)])
      (.sts g (sizeOf (bits x 32 3)) (BitVec.ofNat 16 (bits x 16 16)) (srcOf f.a f.at_ f.ba) (srcOf f.b f.bt f.bb))
  | 0x05 => modRow x ([(32, 3), (16, 16)]) ([(32, maskedCode (bits x 32 3))])
      (.stsm g (sizeOf (bits x 32 3)) (BitVec.ofNat 16 (bits x 16 16)) (srcOf f.a f.at_ f.ba) (srcOf f.b f.bt f.bb) (srcOf f.c f.ct f.bc))
  | 0x06 => modRow x ([(16, 16), (6, 2)]) ([(6, bits x 6 2 ≤ 1)])
      (.pref g (flag x 6) (BitVec.ofNat 16 (bits x 16 16)) (srcOf f.a f.at_ f.ba))
  | 0x10 => modRow x ([(32, 3), (16, 16), (12, 4), (6, 2), (5, 1), (3, 2), (0, 3)]) (atomChecks x ++ orderChecks x)
      (.atom g (atomModOf x) (dstOf f.d f.dt) (srcOf f.a f.at_ f.ba) (srcOf f.b f.bt f.bb) (srcOf f.c f.ct f.bc))
  | 0x11 => modRow x ([(32, 3), (16, 16), (12, 4), (5, 1)]) (atomChecks x)
      (.atoms g (atomOpOf (bits x 12 4)) (bits x 32 3 == 3) (flag x 5) (BitVec.ofNat 16 (bits x 16 16)) (dstOf f.d f.dt) (srcOf f.a f.at_ f.ba) (srcOf f.b f.bt f.bb) (srcOf f.c f.ct f.bc))
  | 0x12 => modRow x ([(32, 3), (16, 16), (12, 4), (6, 2), (5, 1), (3, 2), (0, 3)]) ((12, bits x 12 4 != 6 && bits x 12 4 != 7) :: (atomChecks x ++ orderChecks x))
      (.redm g (atomModOf x) (srcOf f.a f.at_ f.ba) (srcOf f.b f.bt f.bb))
  | 0x20 => modRow x ([(0, 3), (3, 2), (5, 1)]) ([(0, bits x 0 3 ≤ 5), (3, bits x 3 2 ≤ 2)])
      (.fence g (fenceOf (bits x 3 2)) (scopeOf (bits x 0 3)) (flag x 5))
  | 0x21 => modRow x ([(0, 2), (4, 4)]) ([(4, bits x 0 2 == 3 || bits x 4 4 == 0)])
      (.bar g (barScopeOf (bits x 0 2) (bits x 4 4)))
  | 0x22 => modRow x ([(0, 2), (4, 4)]) ([(4, bits x 0 2 == 3 || bits x 4 4 == 0)])
      (.bara g (barScopeOf (bits x 0 2) (bits x 4 4)))
  | 0x23 => modRow x ([(0, 2), (4, 4)]) ([(4, bits x 0 2 == 3 || bits x 4 4 == 0)])
      (.barw g (barScopeOf (bits x 0 2) (bits x 4 4)))
  | 0x30 => modRow x ([(32, 3), (6, 2), (0, 2)]) ([(32, maskedCode (bits x 32 3)), (6, bits x 6 2 ≤ 2)])
      (.copy g (sizeOf (bits x 32 3)) (copyDirOf (bits x 0 2)) (hintOf (bits x 6 2)) (srcOf f.a f.at_ f.ba) (srcOf f.b f.bt f.bb) (srcOf f.c f.ct f.bc))
  | 0x31 => modRow x ([(32, 3), (6, 2), (0, 2), (8, 4)]) ([(32, maskedCode (bits x 32 3)), (6, bits x 6 2 ≤ 2), (0, !flag x 0)])
      (.copym g (sizeOf (bits x 32 3)) (flag x 1) (hintOf (bits x 6 2)) (BitVec.ofNat 4 (bits x 8 4)) (srcOf f.a f.at_ f.ba) (srcOf f.b f.bt f.bb) (srcOf f.c f.ct f.bc))
  | 0x32 => modRow x ([(16, 16), (8, 6)]) ([])
      (.feq g (fin64 (bits x 8 6)) (BitVec.ofNat 16 (bits x 16 16)) (srcOf f.a f.at_ f.ba))
  | 0x33 => modRow x ([(16, 16), (0, 1)]) ([])
      (.feset g (flag x 0) (BitVec.ofNat 16 (bits x 16 16)) (srcOf f.a f.at_ f.ba))
  | 0x40 => modRow x ([(0, 3), (3, 1), (4, 1), (5, 3), (8, 3), (11, 1), (12, 1)]) ((12, !flag x 12) :: redChecks x)
      (.nred g (rmodOf x) (dstOf f.d f.dt) (srcOf f.a f.at_ f.ba))
  | 0x41 => modRow x ([(0, 1), (21, 1)] ++ (if flag x 21 then [(32, 3)] else [])) ([(0, !(flag x 0 && flag x 21))])
      (.nbcast g (if flag x 21 then .slot (fin8 (bits x 32 3)) else if flag x 0 then .pair (dstOf f.d f.dt) (srcOf f.a f.at_ f.ba) else .one (dstOf f.d f.dt) (srcOf f.a f.at_ f.ba)) (srcOf f.b f.bt f.bb))
  | 0x48 => modRow x ([(0, 1), (1, 2), (3, 3), (6, 1), (8, 6), (14, 3), (17, 3), (20, 1), (21, 1)] ++ (if flag x 21 then [(32, 3)] else [])) (mergeChecks x)
      (.merge g (flag x 0) (policyOf x) (fin64 (bits x 8 6)) (if flag x 21 then .slot (fin8 (bits x 32 3)) else .src (srcOf f.a f.at_ f.ba)))
  | 0x49 => modRow x ([(0, 1), (21, 1)] ++ (if flag x 21 then [(32, 3)] else [])) ([])
      (.ldrop g (flag x 0) (if flag x 21 then .slot (fin8 (bits x 32 3)) else .src (srcOf f.a f.at_ f.ba)))
  | 0x4a => modRow x ([(21, 1)] ++ (if flag x 21 then [(32, 3)] else [])) ([])
      (.lrank g (dstOf f.d f.dt) (if flag x 21 then .slot (fin8 (bits x 32 3)) else .src (srcOf f.a f.at_ f.ba)))
  | _ => .error 0

/-- Which operand fields the operation numbered `n` of class 6 uses; none for an unassigned number (R120, R345). -/
def usesMatrix (n : Nat) (f : Fields) : Option Uses4 :=
  match n with
  | 0x00 => some ⟨false, false, false, false⟩
  | 0x01 => some ⟨false, false, false, false⟩
  | 0x02 => some ⟨true, true, true, true⟩
  | 0x03 => some ⟨false, true, false, false⟩
  | 0x04 => some ⟨false, true, false, false⟩
  | 0x05 => some ⟨true, true, true, true⟩
  | 0x06 => some ⟨false, true, true, true⟩
  | 0x07 => some ⟨!flag f.imm 1, flag f.imm 1, false, false⟩
  | _ => none

/-- The operation numbered `n` of class 6, or the number of its lowest illegal modifier bit (R120, R121). -/
def buildMatrix (n : Nat) (g : Guard) (f : Fields) (x : Nat) : Except Nat Instr :=
  match n with
  | 0x00 => modRow x ([(0, 4), (4, 13)]) ([(4, 1 ≤ bits x 4 13 && bits x 4 13 ≤ 4096)])
      (.mdecl g (fin16 (bits x 0 4)) (BitVec.ofNat 13 (bits x 4 13)))
  | 0x01 => modRow x ([]) ([])
      (.moprdy g)
  | 0x02 => modRow x ([(0, 4), (4, 9)]) ([(4, bits x 4 9 ≤ 256)])
      (.mma g (fin16 (bits x 0 4)) (BitVec.ofNat 9 (bits x 4 9)) (dstOf f.d f.dt) (srcOf f.a f.at_ f.ba) (srcOf f.b f.bt f.bb) (srcOf f.c f.ct f.bc))
  | 0x03 => modRow x ([]) ([])
      (.mwait g (srcOf f.a f.at_ f.ba))
  | 0x04 => modRow x ([]) ([])
      (.mrel g (srcOf f.a f.at_ f.ba))
  | 0x05 => modRow x ([(0, 1)]) ([])
      (.mlda g (flag x 0) (dstOf f.d f.dt) (srcOf f.a f.at_ f.ba) (srcOf f.b f.bt f.bb) (srcOf f.c f.ct f.bc))
  | 0x06 => modRow x ([(0, 1)]) ([])
      (.msta g (flag x 0) (srcOf f.a f.at_ f.ba) (srcOf f.b f.bt f.bb) (srcOf f.c f.ct f.bc))
  | 0x07 => modRow x ([(0, 2)]) ([(0, bits x 0 2 ≤ 2)])
      ((if bits x 0 2 = 0 then .mslotAlloc g (dstOf f.d f.dt) else if bits x 0 2 = 1 then .mslotCnt g (dstOf f.d f.dt) else .mslotZero g (srcOf f.a f.at_ f.ba)))
  | _ => .error 0

/-- Which operand fields the operation numbered `n` of class 7 uses; none for an unassigned number (R120, R345). -/
def usesSystem (n : Nat) (f : Fields) : Option Uses4 :=
  match n with
  | 0x00 => some ⟨true, false, false, false⟩
  | 0x01 => some ⟨false, true, false, false⟩
  | 0x02 => some ⟨true, true, false, false⟩
  | 0x03 => some ⟨true, true, true, false⟩
  | 0x04 => some ⟨true, true, true, false⟩
  | 0x05 => some ⟨false, false, false, false⟩
  | 0x06 => some ⟨false, false, false, false⟩
  | 0x07 => some ⟨false, true, false, false⟩
  | 0x08 => some ⟨false, true, true, false⟩
  | 0x09 => some ⟨false, true, true, false⟩
  | 0x0a => some ⟨true, true, false, false⟩
  | 0x0b => some ⟨false, true, true, false⟩
  | 0x0c => some ⟨false, !flag f.imm 0, !flag f.imm 0, false⟩
  | _ => none

/-- The operation numbered `n` of class 7, or the number of its lowest illegal modifier bit (R120, R121). -/
def buildSystem (n : Nat) (g : Guard) (f : Fields) (x : Nat) : Except Nat Instr :=
  match n with
  | 0x00 => modRow x ([(0, 8)]) ([(0, (sregOf (bits x 0 8)).isSome)])
      (.srr g ((sregOf (bits x 0 8)).getD .tid) (dstOf f.d f.dt))
  | 0x01 => modRow x ([(0, 8)]) ([(0, (sregOf (bits x 0 8)).isSome)])
      (.srw g ((sregOf (bits x 0 8)).getD .tid) (srcOf f.a f.at_ f.ba))
  | 0x02 => modRow x ([]) ([])
      (.setw g (dstOf f.d f.dt) (srcOf f.a f.at_ f.ba))
  | 0x03 => modRow x ([]) ([])
      (.spawn g (dstOf f.d f.dt) (srcOf f.a f.at_ f.ba) (srcOf f.b f.bt f.bb))
  | 0x04 => modRow x ([]) ([])
      (.launch g (dstOf f.d f.dt) (srcOf f.a f.at_ f.ba) (srcOf f.b f.bt f.bb))
  | 0x05 => modRow x ([]) ([])
      (.round g)
  | 0x06 => modRow x ([(0, 8)]) ([])
      (.trap g (BitVec.ofNat 8 (bits x 0 8)))
  | 0x07 => modRow x ([]) ([])
      (.eret g (srcOf f.a f.at_ f.ba))
  | 0x08 => modRow x ([]) ([])
      (.swapc g (srcOf f.a f.at_ f.ba) (srcOf f.b f.bt f.bb))
  | 0x09 => modRow x ([]) ([])
      (.objw g (srcOf f.a f.at_ f.ba) (srcOf f.b f.bt f.bb))
  | 0x0a => modRow x ([]) ([])
      (.objq g (dstOf f.d f.dt) (srcOf f.a f.at_ f.ba))
  | 0x0b => modRow x ([]) ([])
      (.icinv g (srcOf f.a f.at_ f.ba) (srcOf f.b f.bt f.bb))
  | 0x0c => modRow x ([(0, 1)]) ([])
      ((if flag x 0 then .xlinvAll g else .xlinvRng g (srcOf f.a f.at_ f.ba) (srcOf f.b f.bt f.bb)))
  | _ => .error 0

/-- Which operand fields an opcode uses; none for an unassigned opcode (R120, R345). -/
def usesOf (f : Fields) : Option Uses4 :=
  let n := f.op % 128
  match f.op / 128 with
  | 0 => usesControl n f | 1 => usesInteger n f | 2 => usesFloating n f | 3 => usesLane n f
  | 4 => usesModular n f | 5 => usesMemory n f | 6 => usesMatrix n f | 7 => usesSystem n f | _ => none

/-- The operation of a word whose opcode, guard and operand fields are legal, or the lowest illegal modifier bit. -/
def buildOf (g : Guard) (f : Fields) : Except Nat Instr :=
  let n := f.op % 128
  let x := f.imm + 2 ^ 32 * f.grp
  match f.op / 128 with
  | 0 => buildControl n g f x | 1 => buildInteger n g f x | 2 => buildFloating n g f x | 3 => buildLane n g f x
  | 4 => buildModular n g f x | 5 => buildMemory n g f x | 6 => buildMatrix n g f x | _ => buildSystem n g f x

/-- Check 1 of R342 on the single-operation layout: opcode (0x01), guard (0x03), operand fields (0x04), modifiers (0x05). -/
def decodeOp (f : Fields) : Except Illegal Instr :=
  match usesOf f with
  | none => .error ⟨0x01, f.op, false⟩
  | some u =>
    match guardOf f.guard with
    | none => .error ⟨0x03, f.guard, false⟩
    | some g =>
      match operandIllegal u f with
      | some d => .error ⟨0x04, d, false⟩
      | none =>
        match buildOf g f with
        | .error b => .error ⟨0x05, b, false⟩
        | .ok i => .ok i

/-- The fields of one operation of a paired word (R111). -/
structure Short where
  op : Nat
  guard : Nat
  d : Nat
  dt : Nat
  a : Nat
  b : Nat
  modi : Nat
  ba : Nat
  bb : Nat
  res : Nat
  deriving DecidableEq, Repr

/-- The fields of the operation in bits [51:0] of `h` (R111). -/
def unpackShort (h : Nat) : Short where
  op := bits h 45 7
  guard := bits h 40 5
  d := bits h 30 10
  dt := bits h 28 2
  a := bits h 18 10
  b := bits h 8 10
  modi := bits h 5 3
  ba := bits h 4 1
  bb := bits h 3 1
  res := bits h 0 3

/-- The guard of a short operation (R111). -/
def shortGuard (n : Nat) : Option Guard :=
  if n = 0 then some .always
  else if n / 8 = 2 then some (.on (fin64 (n % 8))) else if n / 8 = 3 then some (.off (fin64 (n % 8))) else none

/-- The short operation reads one source (R112); none for an unassigned short opcode (R345). -/
def shortOne (op : Nat) : Option Bool :=
  if op ≤ 12 then some false else if op ≤ 14 then some true
  else if 32 ≤ op ∧ op ≤ 36 then some false else if 40 ≤ op ∧ op ≤ 46 then some true
  else if op = 64 ∨ op = 65 ∨ op = 67 then some false else if op = 66 then some true else none

/-- The short operation is a transcendental or MMULQ (R113 item 4). -/
def shortHeavy (op : Nat) : Bool := (40 ≤ op && op ≤ 46) || op == 67

/-- The full operation of a legal short one, every other modifier at its default (R112). -/
def shortInstr (g : Guard) (f : Short) : Instr :=
  let d := dstOf f.d f.dt
  let a := srcOf f.a 0 f.ba
  let b := srcOf f.b 0 f.bb
  let uns := flag f.modi 0
  let m : FMod := ⟨fmtOf f.modi, .rne, false, false⟩
  let k := fin8 f.modi
  match f.op with
  | 0 => .iadd g ⟨false, false, false⟩ d a b 0 | 1 => .isub g ⟨false, false, false⟩ d a b 0
  | 2 => .imul g ⟨false, false, false⟩ d a b 0 | 3 => .imin g false uns d a b 0 | 4 => .imax g false uns d a b 0
  | 5 => .idiff g false uns d a b 0 | 6 => .and g false d a b 0 | 7 => .or g false d a b 0 | 8 => .xor g false d a b 0
  | 9 => .shl g false d a b 0 | 10 => .shr g false d a b 0 | 11 => .sar g false d a b 0 | 12 => .rot g false d a b 0
  | 13 => .mov g false false d a 0 | 14 => .not g false d a 0
  | 32 => .fadd g m d a b | 33 => .fsub g m d a b | 34 => .fmul g m d a b
  | 35 => .fmin g m.fmt false d a b | 36 => .fmax g m.fmt false d a b
  | 40 => .frcp g m d a | 41 => .frsq g m d a | 42 => .fexp2 g m d a | 43 => .flog2 g m d a | 44 => .fsin g m d a
  | 45 => .fcos g m d a | 46 => .ftanh g m d a
  | 64 => .maddq g k d a b | 65 => .msubq g k d a b | 66 => .mnegq g k d a | _ => .mmulq g k d a b

/-- The first operand field of a short operation that R111 forbids. -/
def shortOperandIllegal (one : Bool) (f : Short) : Option Nat :=
  (if 768 ≤ f.d ∧ f.d ≠ 1023 then some f.d
    else if f.d = 1023 ∧ f.dt ≠ 0 then some (f.d + 2 ^ 15) else none).or <|
  (if 768 ≤ f.a then some (f.a + 2 ^ 12) else none).or <|
  if one then (if f.b ≠ 1023 then some (f.b + 2 ^ 13) else if f.bb ≠ 0 then some (f.b + 2 ^ 13 + 2 ^ 15) else none)
  else if 768 ≤ f.b then some (f.b + 2 ^ 13) else none

/-- The modifier of a short operation is defined (R112). -/
def shortModOk (f : Short) : Bool :=
  if f.op < 32 then f.modi == 0 || (f.modi == 1 && 3 ≤ f.op && f.op ≤ 5)
  else if f.op < 64 then f.modi ≤ 4 else true

/-- The source codes of a short operation (R111). -/
def Short.srcs (one : Bool) (f : Short) : List Nat := if one then [f.a] else [f.a, f.b]

/-- The register sources of a short operation. -/
def Short.sources (one : Bool) (f : Short) : List Nat := (f.srcs one).filter (· < 768)

/-- A source holds a code that R109 allows and a short operation does not (R111; item 5 of R113). -/
def Short.special (one : Bool) (f : Short) : Bool := (f.srcs one).any (fun c => decide (1019 ≤ c))

/-- The item of R113 that a pair breaks, if any (log 10). Item 5 stands for the source codes that only R111 forbids: the other fields have causes of
their own (R346). `ox` and `oy` say that the operation reads one source. -/
def pairItem (ox oy : Bool) (x y : Short) : Option Nat :=
  if x.d = y.d then some 1
  else if x.d < 768 ∧ (y.sources oy).contains x.d then some 2
  else if (x.sources ox).any (fun r => (y.sources oy).any (fun q => r % 4 == q % 4)) then some 3
  else if shortHeavy x.op && shortHeavy y.op then some 4
  else if x.special ox || y.special oy then some 5 else none

/-- Check 1 of R342 on the paired layout, each check on X and then on Y (R344). -/
def decodePair (w : Nat) : Except Illegal (Instr × Instr) :=
  let x := unpackShort (bits w 52 52)
  let y := unpackShort (bits w 0 52)
  if x.res ≠ 0 then .error ⟨0x02, 2, false⟩ else if y.res ≠ 0 then .error ⟨0x02, 2, true⟩ else
  match shortOne x.op, shortOne y.op with
  | none, _ => .error ⟨0x01, x.op + 2 ^ 16, false⟩
  | _, none => .error ⟨0x01, y.op + 2 ^ 16, true⟩
  | some ox, some oy =>
    match pairItem ox oy x y with
    | some n => .error ⟨0x07, n, n == 5 && !x.special ox⟩
    | none =>
      match shortGuard x.guard, shortGuard y.guard with
      | none, _ => .error ⟨0x03, x.guard, false⟩
      | _, none => .error ⟨0x03, y.guard, true⟩
      | some gx, some gy =>
        match shortOperandIllegal ox x, shortOperandIllegal oy y with
        | some d, _ => .error ⟨0x04, d, false⟩
        | none, some d => .error ⟨0x04, d, true⟩
        | none, none =>
          if !shortModOk x then .error ⟨0x05, 57, false⟩
          else if !shortModOk y then .error ⟨0x05, 5, true⟩
          else .ok (shortInstr gx x, shortInstr gy y)

/-- The decoder: check 1 of R342 on the 128 bits of a word. -/
def decodeWord (w : Nat) : Except Illegal Decoded :=
  let sch := schedOf w
  if !sch.scheduled && bits w 104 22 != 0 then .error ⟨0x06, 0, false⟩
  else if bits w 104 2 ≠ 0 then .error ⟨0x02, 1, false⟩
  else if w.testBit 126 then
    match decodePair w with
    | .error e => .error e
    | .ok (x, y) => .ok (.two sch x y)
  else
    match decodeOp (unpack w) with
    | .error e => .error e
    | .ok i => .ok (.one sch i)

/-- The value of little-endian bytes (R2, R97). -/
def leNat : List Byte → Nat
  | [] => 0
  | b :: bs => b.toNat + 256 * leNat bs

/-- `n` little-endian bytes of a value (R2). -/
def leBytes : Nat → Nat → List Byte
  | 0, _ => []
  | n + 1, v => BitVec.ofNat 8 v :: leBytes n (v / 256)

/-- The decoder on bytes: the first 16 are one word (R97); fewer decode to nothing. The rest is returned. -/
def decodeBytes (bs : List Byte) : Option (Except Illegal Decoded × List Byte) :=
  if bs.length < 16 then none else some (decodeWord (leNat (bs.take 16)), bs.drop 16)

/-- The instruction that the decoder reads from a word of the opcode table's numbering. The table gives its rows no bits, so a
word is the 128 bits of R97, the bits above `nbits` zero; a pair is not one instruction. -/
def decodeTableWord (nbits w : Nat) : Option Instr :=
  match decodeBytes (leBytes 16 (w % 2 ^ nbits)) with
  | some (.ok (.one _ i), _) => some i
  | _ => none

/-! The encoder, from the same tables. -/

/-- The fields of an operation from its operands, group and immediate. -/
def mkFields (op : Nat) (g : Guard) (d : Dst) (a b c : Src) (grp imm : Nat) : Fields where
  op := op
  guard := g.code
  d := d.code
  dt := d.tag
  a := a.code
  at_ := a.tag
  b := b.code
  bt := b.tag
  c := c.code
  ct := c.tag
  ba := a.blk
  bb := b.blk
  bc := c.blk
  grp := grp
  imm := imm

/-- [34:32] of an integer word (R122). -/
def IMod.code (m : IMod) : Nat := m.w.toNat + 2 * m.uns.toNat + 4 * m.sat.toNat
/-- [4:0] of a floating word (R147). -/
def FMod.low (m : FMod) : Nat := m.rm.code + 8 * m.ftz.toNat + 16 * m.flip.toNat
/-- [31:0] of a reduction (R164). -/
def RMod.code (r : RMod) : Nat :=
  r.rm.code + 8 * r.ftz.toNat + 16 * r.flip.toNat + 32 * r.op.code + 256 * r.ty.code + 2048 * r.uns.toNat
    + 4096 * r.alt.toNat
/-- [31:0] of a load or store (R179). -/
def MemMod.code (m : MemMod) : Nat :=
  m.scope.code + 8 * m.order.code + 64 * m.hint.code + 256 * m.loc.toNat + 65536 * m.disp.toNat
/-- [31:0] of an atomic (R179, R189). -/
def AtomMod.code (m : AtomMod) : Nat :=
  m.scope.code + 8 * m.order.code + 32 * m.uns.toNat + 64 * m.hint.code + 4096 * m.op.code + 65536 * m.disp.toNat
/-- The size field of an atomic (R188). -/
def wideCode (w : Bool) : Nat := if w then 3 else 0
/-- A predicate source (R131, R142, R161). -/
def PSrc.at (p : PSrc) (lo neg : Nat) : Nat := p.n * 2 ^ lo + p.neg.toNat * 2 ^ neg
/-- The policy bits of a MERGE (R201). -/
def Policy.code : Policy → Nat
  | .chk => 0
  | .low => 2
  | .red op fmt uns rm ftz =>
    4 + 8 * op.code + 64 * uns.toNat + 16384 * (match fmt with | some f => f.code | none => 5) + 131072 * rm.code
      + 1048576 * ftz.toNat
/-- The operand, group and bit [21] of a layered name (R201, R202). -/
def LName.parts : LName → Src × Nat × Nat
  | .src a => (a, 0, 0)
  | .slot k => (.zero, k, 2097152)

/-- The fields of an operation; none for an event (log 4). -/
def fieldsOf : Instr → Option Fields
  | .bra g off => some (mkFields 0x000 g .none .zero .zero .zero 0 off.toNat)
  | .brx g a => some (mkFields 0x001 g .none a .zero .zero 0 0)
  | .call g off => some (mkFields 0x002 g .none .zero .zero .zero 0 off.toNat)
  | .callx g a => some (mkFields 0x003 g .none a .zero .zero 0 0)
  | .ret g => some (mkFields 0x004 g .none .zero .zero .zero 0 0)
  | .reform g => some (mkFields 0x005 g .none .zero .zero .zero 0 0)
  | .exit g => some (mkFields 0x006 g .none .zero .zero .zero 0 0)
  | .nop g => some (mkFields 0x007 g .none .zero .zero .zero 0 0)
  | .yield g => some (mkFields 0x008 g .none .zero .zero .zero 0 0)
  | .drain g k => some (mkFields 0x009 g .none .zero .zero .zero 0 k)
  | .mov g w uns d a imm => some (mkFields 0x080 g d a .zero .zero (w.toNat + 2 * uns.toNat) imm.toNat)
  | .movi g w uns d imm => some (mkFields 0x081 g d .zero .zero .zero (w.toNat + 2 * uns.toNat) imm.toNat)
  | .movh g d a b imm => some (mkFields 0x082 g d a b .zero 0 imm.toNat)
  | .sel g w uns d a b p => some (mkFields 0x083 g d a b .zero (w.toNat + 2 * uns.toNat) (p.at 0 6))
  | .iadd g m d a b imm => some (mkFields 0x088 g d a b .zero m.code imm.toNat)
  | .isub g m d a b imm => some (mkFields 0x089 g d a b .zero m.code imm.toNat)
  | .imul g m d a b imm => some (mkFields 0x08c g d a b .zero m.code imm.toNat)
  | .iaddc g w d a b pi po => some (mkFields 0x08a g d a b .zero w.toNat (pi + 256 * po))
  | .isubb g w d a b pi po => some (mkFields 0x08b g d a b .zero w.toNat (pi + 256 * po))
  | .imulh g w uns d a b imm => some (mkFields 0x08d g d a b .zero (w.toNat + 2 * uns.toNat) imm.toNat)
  | .imin g w uns d a b imm => some (mkFields 0x090 g d a b .zero (w.toNat + 2 * uns.toNat) imm.toNat)
  | .imax g w uns d a b imm => some (mkFields 0x091 g d a b .zero (w.toNat + 2 * uns.toNat) imm.toNat)
  | .idiff g w uns d a b imm => some (mkFields 0x094 g d a b .zero (w.toNat + 2 * uns.toNat) imm.toNat)
  | .bfx g w uns d a b imm => some (mkFields 0x0af g d a b .zero (w.toNat + 2 * uns.toNat) imm.toNat)
  | .imad g m d a b c imm => some (mkFields 0x08e g d a b c m.code imm.toNat)
  | .imadw g uns sat d a b c imm => some (mkFields 0x08f g d a b c (2 * uns.toNat + 4 * sat.toNat) imm.toNat)
  | .iabs g w sat d a imm => some (mkFields 0x092 g d a .zero .zero (w.toNat + 4 * sat.toNat) imm.toNat)
  | .ineg g m d a imm => some (mkFields 0x093 g d a .zero .zero m.code imm.toNat)
  | .icmp g w uns cond p a b => some (mkFields 0x095 g .none a b .zero (w.toNat + 2 * uns.toNat) (cond.code + 256 * p))
  | .iset g w uns cond d a b => some (mkFields 0x096 g d a b .zero (w.toNat + 2 * uns.toNat) cond.code)
  | .and g w d a b imm => some (mkFields 0x0a0 g d a b .zero w.toNat imm.toNat)
  | .or g w d a b imm => some (mkFields 0x0a1 g d a b .zero w.toNat imm.toNat)
  | .xor g w d a b imm => some (mkFields 0x0a2 g d a b .zero w.toNat imm.toNat)
  | .shl g w d a b imm => some (mkFields 0x0a5 g d a b .zero w.toNat imm.toNat)
  | .shr g w d a b imm => some (mkFields 0x0a6 g d a b .zero w.toNat imm.toNat)
  | .sar g w d a b imm => some (mkFields 0x0a7 g d a b .zero w.toNat imm.toNat)
  | .rot g w d a b imm => some (mkFields 0x0aa g d a b .zero w.toNat imm.toNat)
  | .not g w d a imm => some (mkFields 0x0a3 g d a .zero .zero w.toNat imm.toNat)
  | .popc g w d a imm => some (mkFields 0x0ab g d a .zero .zero w.toNat imm.toNat)
  | .clz g w d a imm => some (mkFields 0x0ac g d a .zero .zero w.toNat imm.toNat)
  | .ctz g w d a imm => some (mkFields 0x0ad g d a .zero .zero w.toNat imm.toNat)
  | .brev g w d a imm => some (mkFields 0x0ae g d a .zero .zero w.toNat imm.toNat)
  | .tlog g w d a b c mask => some (mkFields 0x0a4 g d a b c w.toNat (65536 * mask.toNat))
  | .fshl g d a b c imm => some (mkFields 0x0a8 g d a b c 0 imm.toNat)
  | .fshr g d a b c imm => some (mkFields 0x0a9 g d a b c 0 imm.toNat)
  | .bytep g d a b c imm => some (mkFields 0x0b1 g d a b c 0 imm.toNat)
  | .bfi g w d a b c imm => some (mkFields 0x0b0 g d a b c w.toNat imm.toNat)
  | .lea g uns d a b c imm => some (mkFields 0x0b8 g d a b c (2 * uns.toNat) imm.toNat)
  | .pand g d a b => some (mkFields 0x0c0 g .none .zero .zero .zero 0 (d + a.at 8 14 + b.at 16 22))
  | .por g d a b => some (mkFields 0x0c1 g .none .zero .zero .zero 0 (d + a.at 8 14 + b.at 16 22))
  | .pxor g d a b => some (mkFields 0x0c2 g .none .zero .zero .zero 0 (d + a.at 8 14 + b.at 16 22))
  | .pnot g d a => some (mkFields 0x0c3 g .none .zero .zero .zero 0 (d + a.at 8 14))
  | .pmov g d a => some (mkFields 0x0c4 g .none .zero .zero .zero 0 (d + a.at 8 14))
  | .pset g hi a b imm => some (mkFields 0x0c5 g .none a b .zero hi.toNat imm.toNat)
  | .pget g hi d => some (mkFields 0x0c6 g d .zero .zero .zero hi.toNat 0)
  | .fadd g m d a b => some (mkFields 0x100 g d a b .zero m.fmt.code m.low)
  | .fsub g m d a b => some (mkFields 0x101 g d a b .zero m.fmt.code m.low)
  | .fmul g m d a b => some (mkFields 0x102 g d a b .zero m.fmt.code m.low)
  | .fdiv g m d a b => some (mkFields 0x110 g d a b .zero m.fmt.code m.low)
  | .fscale g m d a b => some (mkFields 0x120 g d a b .zero m.fmt.code m.low)
  | .ffma g m d a b c => some (mkFields 0x103 g d a b c m.fmt.code m.low)
  | .fmin g fmt ftz d a b => some (mkFields 0x104 g d a b .zero fmt.code (8 * ftz.toNat))
  | .fmax g fmt ftz d a b => some (mkFields 0x105 g d a b .zero fmt.code (8 * ftz.toNat))
  | .fcmp g fmt ftz cond p d a b => some (mkFields 0x106 g d a b .zero fmt.code (8 * ftz.toNat + 32 * cond.code + 256 * p))
  | .fclass g fmt ftz mask d a => some (mkFields 0x107 g d a .zero .zero fmt.code (8 * ftz.toNat + 65536 * mask.toNat))
  | .fsqrt g m d a => some (mkFields 0x111 g d a .zero .zero m.fmt.code m.low)
  | .frcp g m d a => some (mkFields 0x112 g d a .zero .zero m.fmt.code m.low)
  | .frsq g m d a => some (mkFields 0x113 g d a .zero .zero m.fmt.code m.low)
  | .fexp2 g m d a => some (mkFields 0x114 g d a .zero .zero m.fmt.code m.low)
  | .flog2 g m d a => some (mkFields 0x115 g d a .zero .zero m.fmt.code m.low)
  | .fsin g m d a => some (mkFields 0x116 g d a .zero .zero m.fmt.code m.low)
  | .fcos g m d a => some (mkFields 0x117 g d a .zero .zero m.fmt.code m.low)
  | .ftanh g m d a => some (mkFields 0x118 g d a .zero .zero m.fmt.code m.low)
  | .frnd g fmt rm ftz d a => some (mkFields 0x121 g d a .zero .zero fmt.code (rm.code + 8 * ftz.toNat))
  | .fcvt g m sfmt d a => some (mkFields 0x180 g d a .zero .zero m.fmt.code (m.low + 32 * sfmt.code))
  | .icvt g m kind uns d a => some (mkFields 0x181 g d a .zero .zero m.fmt.code (m.low + 32 * kind.code + 256 * uns.toNat))
  | .fcvti g kind uns sfmt rm ftz d a => some (mkFields 0x182 g d a .zero .zero sfmt.code (rm.code + 8 * ftz.toNat + 32 * kind.code + 256 * uns.toNat))
  | .kdec g m kb4 d a b => some (mkFields 0x183 g d a b .zero m.fmt.code (m.low + 32 * kb4.toNat))
  | .xshf g mode rel d a b c => some (mkFields 0x1a0 g d a b c 0 (mode.code + (match rel with | some k => 8 + 16 * k.val | none => 0)))
  | .xbcast g sel d a b c => some (mkFields 0x1a1 g d a b c 0 sel.code)
  | .xvote g mode d p => some (mkFields 0x1a2 g .none .zero .zero .zero 0 (p.at 0 6 + 256 * d + 65536 * mode.code))
  | .xballot g d p => some (mkFields 0x1a3 g d .zero .zero .zero 0 (p.at 0 6))
  | .xpfx g incl d p => some (mkFields 0x1a4 g d .zero .zero .zero 0 (p.at 0 6 + 128 * incl.toNat))
  | .xred g r d a => some (mkFields 0x1a5 g d a .zero .zero 0 r.code)
  | .xscan g r d a => some (mkFields 0x1a6 g d a .zero .zero 0 r.code)
  | .xslide g up d a b c => some (mkFields 0x1a7 g d a b c 0 up.toNat)
  | .xcmpr g d a c p => some (mkFields 0x1a8 g d a .zero c 0 (p.at 0 6))
  | .xexpd g d a c p => some (mkFields 0x1a9 g d a .zero c 0 (p.at 0 6))
  | .xtbl g len fill d a b => some (mkFields 0x1aa g d a b .zero 0 (len + 256 * fill.toNat))
  | .qset g k wide tag a => some (mkFields 0x200 g .none a .zero .zero k (wide.toNat + 16 * tag.code))
  | .qget g k sel d => some (mkFields 0x201 g d .zero .zero .zero k sel.code)
  | .maddq g k d a b => some (mkFields 0x208 g d a b .zero k 0)
  | .msubq g k d a b => some (mkFields 0x209 g d a b .zero k 0)
  | .mnegq g k d a => some (mkFields 0x20a g d a .zero .zero k 0)
  | .mmulq g k d a b => some (mkFields 0x20b g d a b .zero k 0)
  | .mmacq g k d a b c => some (mkFields 0x20c g d a b c k 0)
  | .mredq g k d a => some (mkFields 0x20d g d a .zero .zero k 0)
  | .mpowq g k d a b => some (mkFields 0x20e g d a b .zero k 0)
  | .bfly g k d a b c => some (mkFields 0x210 g d a b c k 0)
  | .ibfly g k d a b c => some (mkFields 0x211 g d a b c k 0)
  | .xbfly g k rel v d a b => some (mkFields 0x212 g d a b .zero k (v + 8 * rel.toNat))
  | .xibfly g k rel v d a b => some (mkFields 0x213 g d a b .zero k (v + 8 * rel.toNat))
  | .ld g m uns d a => some (mkFields 0x280 g d a .zero .zero m.size.code (m.code + 32 * uns.toNat))
  | .st g m a b => some (mkFields 0x281 g .none a b .zero m.size.code m.code)
  | .stm g m a b c => some (mkFields 0x282 g .none a b c m.size.code m.code)
  | .lds g size take uns disp d a => some (mkFields 0x283 g d a .zero .zero size.code (32 * uns.toNat + 512 * take.toNat + 65536 * disp.toNat))
  | .sts g size disp a b => some (mkFields 0x284 g .none a b .zero size.code (65536 * disp.toNat))
  | .stsm g size disp a b c => some (mkFields 0x285 g .none a b c size.code (65536 * disp.toNat))
  | .pref g l2 disp a => some (mkFields 0x286 g .none a .zero .zero 0 (64 * l2.toNat + 65536 * disp.toNat))
  | .atom g m d a b c => some (mkFields 0x290 g d a b c (wideCode m.wide) m.code)
  | .atoms g op wide uns disp d a b c => some (mkFields 0x291 g d a b c (wideCode wide) (32 * uns.toNat + 4096 * op.code + 65536 * disp.toNat))
  | .redm g m a b => some (mkFields 0x292 g .none a b .zero (wideCode m.wide) m.code)
  | .fence g kind scope cpy => some (mkFields 0x2a0 g .none .zero .zero .zero 0 (scope.code + 8 * kind.code + 32 * cpy.toNat))
  | .bar g scope => some (mkFields 0x2a1 g .none .zero .zero .zero 0 (scope.code + 16 * scope.num))
  | .bara g scope => some (mkFields 0x2a2 g .none .zero .zero .zero 0 (scope.code + 16 * scope.num))
  | .barw g scope => some (mkFields 0x2a3 g .none .zero .zero .zero 0 (scope.code + 16 * scope.num))
  | .copy g size dir hint a b c => some (mkFields 0x2b0 g .none a b c size.code (dir.code + 64 * hint.code))
  | .copym g size obj hint mask a b c => some (mkFields 0x2b1 g .none a b c size.code (2 * obj.toNat + 64 * hint.code + 256 * mask.toNat))
  | .feq g p disp a => some (mkFields 0x2b2 g .none a .zero .zero 0 (256 * p + 65536 * disp.toNat))
  | .feset g full disp a => some (mkFields 0x2b3 g .none a .zero .zero 0 (full.toNat + 65536 * disp.toNat))
  | .nred g r d a => some (mkFields 0x2c0 g d a .zero .zero 0 r.code)
  | .merge g pd policy p a => some (mkFields 0x2c8 g .none a.parts.1 .zero .zero a.parts.2.1 (pd.toNat + policy.code + 256 * p + a.parts.2.2))
  | .ldrop g pd a => some (mkFields 0x2c9 g .none a.parts.1 .zero .zero a.parts.2.1 (pd.toNat + a.parts.2.2))
  | .lrank g d a => some (mkFields 0x2ca g d a.parts.1 .zero .zero a.parts.2.1 a.parts.2.2)
  | .mdecl g n count => some (mkFields 0x300 g .none .zero .zero .zero 0 (n + 16 * count.toNat))
  | .moprdy g => some (mkFields 0x301 g .none .zero .zero .zero 0 0)
  | .mma g n k d a b c => some (mkFields 0x302 g d a b c 0 (n + 16 * k.toNat))
  | .mwait g a => some (mkFields 0x303 g .none a .zero .zero 0 0)
  | .mrel g a => some (mkFields 0x304 g .none a .zero .zero 0 0)
  | .mlda g obj d a b c => some (mkFields 0x305 g d a b c 0 obj.toNat)
  | .msta g obj a b c => some (mkFields 0x306 g .none a b c 0 obj.toNat)
  | .mslotAlloc g d => some (mkFields 0x307 g d .zero .zero .zero 0 0)
  | .mslotCnt g d => some (mkFields 0x307 g d .zero .zero .zero 0 1)
  | .mslotZero g a => some (mkFields 0x307 g .none a .zero .zero 0 2)
  | .srr g r d => some (mkFields 0x380 g d .zero .zero .zero 0 r.code)
  | .srw g r a => some (mkFields 0x381 g .none a .zero .zero 0 r.code)
  | .setw g d a => some (mkFields 0x382 g d a .zero .zero 0 0)
  | .spawn g d a b => some (mkFields 0x383 g d a b .zero 0 0)
  | .launch g d a b => some (mkFields 0x384 g d a b .zero 0 0)
  | .round g => some (mkFields 0x385 g .none .zero .zero .zero 0 0)
  | .trap g code => some (mkFields 0x386 g .none .zero .zero .zero 0 code.toNat)
  | .eret g a => some (mkFields 0x387 g .none a .zero .zero 0 0)
  | .swapc g a b => some (mkFields 0x388 g .none a b .zero 0 0)
  | .objw g a b => some (mkFields 0x389 g .none a b .zero 0 0)
  | .objq g d a => some (mkFields 0x38a g d a .zero .zero 0 0)
  | .icinv g a b => some (mkFields 0x38b g .none a b .zero 0 0)
  | .xlinvRng g a b => some (mkFields 0x38c g .none a b .zero 0 0)
  | .xlinvAll g => some (mkFields 0x38c g .none .zero .zero .zero 0 1)
  | .nbcast g (.one d a) b => some (mkFields 0x2c1 g d a b .zero 0 0)
  | .nbcast g (.pair d a) b => some (mkFields 0x2c1 g d a b .zero 0 1)
  | .nbcast g (.slot k) b => some (mkFields 0x2c1 g .none .zero b .zero k 2097152)
  | _ => none

/-- The portable word of a well-formed operation (R97, R115); none for an event. -/
def encode (i : Instr) : Option Nat := (fieldsOf i).map pack

/-- The bytes of a word as they lie in memory (R97). -/
def wordBytes (w : Nat) : List Byte := leBytes 16 w

end Sys2Proof
end

