-- ==== Sys2Proof/Machine/State.lean ====
section
/-! DEFINITION. The state of the part as plain data: every piece of state the spec gives it (INVENTORY.md), the model's own
counters, inputs and choices, and the state right after reset. -/

namespace Sys2Proof.Machine

/-- Why a step stops. Step raises none of these: it runs only what is enabled (log 1). They answer `exec` asked for something
that the state does not offer, and stopping there is safe. -/
inductive Fault where
  /-- Raised by the meaning of an instruction word when no fragment of the state issues it. Safe. -/
  | noIssuer
  /-- Raised by the meaning of an instruction word when its fragment is not ready (R61). Safe. -/
  | notReady
  /-- Raised by the meaning of an event in a state where the part does not perform it. Safe. -/
  | notEnabled
  deriving DecidableEq, Repr

/-- Why an instruction has no meaning. -/
inductive Refusal where
  /-- Raised by an arm of `exec` that has no meaning yet. Safe. -/
  | notModelled (mnemonic : String)
  deriving DecidableEq, Repr

/-- A finite table by number: rising keys, one entry each. -/
abbrev Map (α : Type) := List (Nat × α)

/-- A thread by its block and its block-linear thread index (R40). -/
structure TRef where
  blk : Nat
  tid : Nat
  deriving DecidableEq, Repr

/-- A fragment by its pool and its identifier (R50). -/
structure FRef where
  pool : Nat
  id : Nat
  deriving DecidableEq, Repr

/-- A copy of a modulus slot (R169). -/
structure QSlot where
  mu : DWord
  wide : Bool
  q : BitVec 62
  deriving DecidableEq, Repr

/-- Where a live thread is (R44, R47): in a lane of a pool, or filed in a well of its pond. -/
inductive Place where
  | lane (pool frag lane : Nat)
  | well (kind : WellKind) (key : Nat)
  deriving DecidableEq, Repr

/-- An empty mark (R71, R103): the register, the word that will write it, and whether a younger write stands (R71 item 3). `swept` says
that this younger write is that of a pond copy, and `moved` that the thread has been re-sliced since it was marked (R77). -/
structure Mark where
  reg : Nat
  wid : Nat
  dead : Bool
  swept : Bool
  moved : Bool
  deriving DecidableEq, Repr

/-- A barrier (R193). -/
inductive BarKey where
  | pool (p : Nat)
  | pond (p : Nat)
  | blk (b : Nat)
  | named (b k : Nat)
  deriving DecidableEq, Repr

/-- A trap that waits for its fragment (R200, R351, R364); `late` says that its record carries DEFER, and `transl` and `core` are those of
the word at `pc` as it issued (R337). -/
structure Defer where
  late : Bool
  cause : Nat
  detail : Nat
  addr : Option Nat
  pc : Nat
  count : Nat
  lane : Nat
  transl : Bool
  core : Nat
  deriving DecidableEq, Repr

/-- A matrix operation that a thread signed or issued and has not yet covered by an MWAIT (R220, R221): the slots it works on, the registers
it reads, and whether the thread has written one of those since. -/
structure Use where
  op : Nat
  handles : List Word
  regs : List Nat
  spoiled : Bool
  deriving DecidableEq, Repr

/-- The destination of a SETW that waits for the thread's draw (R228). -/
structure SetwDst where
  reg : Nat
  tag : DTag
  wid : Nat
  deriving DecidableEq, Repr

/-- A live thread (R40, R65, R86, R127, R193, R226, R232). -/
structure Thread where
  blk : Nat
  tid : Nat
  pond : Nat
  entry : Nat
  place : Place
  springs : Map Word
  slots : Map QSlot
  preds : BitVec 64
  fflags : BitVec 5
  retired : DWord
  stack : List DWord
  spilled : Nat
  marks : List Mark
  bars : List (BarKey × Nat)
  handler : Bool
  observed : List Nat
  poison : List Nat
  setw : Option SetwDst
  deferred : List Defer
  uses : List Use
  deriving DecidableEq, Repr

/-- A pool (R47): `num` is %pool, `recNo` its pool record (R247). `opY` is the PC of a frame in use whose RECORD has OPY = 1, and `skid`
counts the words that the pool has issued since a halt broadcast reached its core (R371). -/
structure Pool where
  id : Nat
  num : Nat
  recNo : Nat
  pond : Nat
  grant : Nat
  copies : Map Word
  slots : Map QSlot
  poison : List Nat
  opY : Option Nat
  skid : Nat
  deriving DecidableEq, Repr

/-- The fields of a fault record (R337). -/
structure Rec where
  cause : Nat := 0
  detail : Nat := 0
  addr : Option Nat := none
  pc : Nat := 0
  skid : Nat := 0
  sibs : Nat := 0
  parent : Nat := 0
  frag : Nat := 0
  pool : Nat := 0
  lane : Nat := 0
  bx : Nat := 0
  byy : Nat := 0
  bz : Nat := 0
  ctx : Nat := 0
  core : Nat := 0
  handler : Bool := false
  opY : Bool := false
  transl : Bool := false
  halt : Bool := false
  defer : Bool := false
  deriving DecidableEq, Repr

/-- A word that holds its fragment after it has issued: its address and number, how and where it ran, and the word history before it, which a
trap that stops the fragment there gives back (R343, R364, R377). -/
structure Waiter where
  hist : List Nat
  older : List Nat
  transl : Bool
  core : Nat
  pc : Nat
  wid : Nat
  deriving DecidableEq, Repr

/-- What a fragment waits at (R61 item 4), with the word that waits; `arrive` says that its threads arrived at the barrier with it. `frame` waits for the trap frame of its pool, with the record of its trap and
the address at which that trap resumes it (R353). -/
inductive Hold where
  | free
  | bar (key : BarKey) (ts : List TRef) (arrive : Bool) (w : Waiter)
  | coll (w : Waiter)
  | mwait (ops : List Nat) (slots : List (TRef × Nat × Nat)) (w : Waiter)
  | round (ts : List TRef) (w : Waiter)
  | inval (id : Nat) (w : Waiter)
  | frame (r : Rec) (resume : Nat)
  | parked (page : Nat) (due : Bool)
  | faulted
  deriving DecidableEq, Repr

/-- A result that the next word of a fragment may wait for (R101, R106), by the number of a register, or 1000 up for a predicate and 2000 up
for a slot: of the fixed-latency word `wid`, for `left` cycles more at most, or, with `long`, that of a long-latency producer that
had not completed when the fragment last issued. `ts` are the threads whose results they are. -/
structure Recent where
  name : Nat
  wid : Nat
  left : Nat
  long : Bool
  ts : List TRef
  deriving DecidableEq, Repr

/-- A fragment (R50). `hist` numbers its last 63 words, newest first; `older` the incomplete ones before them (R102). `count` counts
the words it and its ancestors issued; `skid` those since a halt broadcast reached its core (R371). -/
structure Frag where
  pool : Nat
  id : Nat
  parent : Nat
  sibs : Nat
  pc : Nat
  hist : List Nat
  older : List Nat
  pace : Nat
  hold : Hold
  yOnly : Bool
  transl : Bool
  count : Nat
  skid : Nat
  stopped : Bool
  deferred : Option Defer
  recent : List Recent
  deriving DecidableEq, Repr

/-- A granule of the scratchpad (R187). -/
structure Gran where
  full : Bool
  arrived : BitVec 16
  deriving DecidableEq, Repr

/-- What a signer gave to an MMA (R207, R208). -/
structure SignOps where
  dcode : Nat
  dtag : DTag
  a : Word
  b : Word
  c0 : Word
  c1 : Word
  k : Nat
  deriving DecidableEq, Repr

/-- A signer of the current phase, with its word (R207, R337, R351, R361). -/
structure Signer where
  t : TRef
  frag : FRef
  lane : Nat
  pc : Nat
  count : Nat
  wid : Nat
  transl : Bool
  core : Nat
  deriving DecidableEq, Repr

/-- A convergence register (R205): SIGNED is the number of signers, MIS says that some disagreement stands, as the item and the thread of
the first one (R208, R341). `op` numbers the operation that the phase will trigger; `bad` says that a thread has written its tiles since it
signed (R219, R221). -/
structure Conv where
  count : Nat
  phase : Nat
  op : Nat
  first : Option SignOps
  signers : List Signer
  differ : Option (Nat × Nat)
  bad : Bool
  deriving DecidableEq, Repr

/-- The contents of a reservoir slot (R212, R216, R221): zeros, undefined values, or 128 x 128 FP32 cells by rows. -/
inductive SlotData where
  | zero
  | undef (n : Nat)
  | cells (c : List Word)
  deriving DecidableEq, Repr

/-- A slot that a pond holds (R214, R215): `phys` once it has a physical slot. -/
structure RSlot where
  idx : Nat
  gen : Nat
  phys : Bool
  flags : BitVec 5
  data : SlotData
  poisoned : Bool
  stale : Bool
  deriving DecidableEq, Repr

/-- A draw that is to take place (R45, R47): its well, and the threads that it takes. -/
structure Draw where
  kind : WellKind
  key : Nat
  tids : List Nat
  deriving DecidableEq, Repr

/-- A pond (R42, R47, R53, R65, R186, R205, R214): `core` is none while its context is switched out, and `struck` then holds the DETAIL of the
record of a core error that awaits the resumption (R368, R382), and `rots` the rotations of its slots, as slot and last pool number (R63). -/
structure Pond where
  id : Nat
  blk : Nat
  idx : Nat
  core : Option Nat
  base : Nat
  size : Nat
  grant : Nat
  bank : Map Word
  qbank : Map QSlot
  poison : List Nat
  conv : Map Conv
  scratch : Map Byte
  grans : Map Gran
  badGrans : List Nat
  held : List RSlot
  gens : Map Nat
  expired : List (WellKind × Nat)
  draining : List Draw
  struck : Option Nat
  rots : List (Nat × Nat)
  deriving DecidableEq, Repr

/-- The phase and arrivals of a barrier (R193). -/
structure Barrier where
  key : BarKey
  phase : Nat
  arrived : List TRef
  deriving DecidableEq, Repr

/-- What a member brings to a collective of a pond or pool (R73, R199, R200, R228): its word as the fields that must agree, its values
and its fragment. -/
structure Arrival where
  t : TRef
  frag : FRef
  instr : Instr
  opcode : Nat
  key : Word
  val : List Word
  q : Option QSlot
  lane : Nat
  pc : Nat
  wid : Nat
  deriving DecidableEq, Repr

/-- A collective that some members have arrived at; `pool` is none for the pond's sequence (R200). -/
structure Coll where
  pond : Nat
  pool : Option Nat
  arrivals : List Arrival
  deriving DecidableEq, Repr

/-- The word that an access, a copy command or a matrix operation comes from, as an engine record names it (R361): `count` is the count of
its fragment after it issued, and `issued` the core that issued it; `core` is the core at which it acts, that of its pond at the moment (R297). -/
structure Origin where
  ctx : Nat
  core : Nat
  blk : Nat
  pool : Nat
  frag : FRef
  parent : Nat
  sibs : Nat
  lane : Nat
  pc : Nat
  count : Nat
  issued : Nat
  pond : Nat
  transl : Bool
  deriving DecidableEq, Repr

/-- An entry of a round buffer (R230, R293, R378): a store of bytes, an atomic, or the record of a LAUNCH to a queue, with its place in
program order, its thread and word, and where it comes from. `sync` says that it releases at sy scope (R304), and `cut` holds the bytes that a
later write, performed at once, has taken from it. -/
structure BufEntry where
  seq : Nat
  va : Nat
  pa : Nat
  cached : Bool
  bytes : List Byte
  atom : Option (AtomOp × Bool × Bool × DWord × DWord)
  op : Option (Nat × TRef)
  launch : Option Nat
  t : TRef
  wid : Nat
  orig : Origin
  sync : Bool
  cut : List (Nat × Nat)
  deriving DecidableEq, Repr

/-- A block (R40 to R43, R243, R371, R378, R383). `ended` says that the round in which it ended has committed (R294), and `stuckAt` holds the
counts of its threads' words when the fates of R364 were last applied to it. -/
structure Block where
  id : Nat
  launch : Nat
  lin : Nat
  bx : Nat
  byy : Nat
  bz : Nat
  lake : Option Nat
  slot : Nat
  halt : Option Nat
  reached : List Nat
  halted : Bool
  killed : Bool
  restarts : Nat
  buffer : List BufEntry
  images : List Nat
  ended : Bool
  stuckAt : List DWord
  deriving DecidableEq, Repr

/-- What a kernel descriptor says (R287). -/
structure Kernel where
  code : Nat
  extent : Nat
  entry : Nat
  regs : Nat
  preds : Nat
  scratch : Nat
  barriers : Nat
  conv : Nat
  width : Nat
  still : Bool
  restart : Bool
  gen : Nat
  homeMap : Nat
  args : List Nat
  tile : List Nat
  deriving DecidableEq, Repr

/-- The state of a line in a still launch (R291); `priv` names its owner. -/
inductive LineState where
  | free
  | priv (lin : Nat)
  | shared
  deriving DecidableEq, Repr

/-- A line that a still launch touched in the round (R291): the address of its state word, its state, the blocks that accessed and
wrote it, its bytes before the owner's first write, and the owner's writes. -/
structure Touched where
  line : Nat
  word : Option Nat
  st : LineState
  by_ : List Nat
  wrote : List Nat
  image : Option (List Byte)
  log : List BufEntry
  deriving DecidableEq, Repr

/-- A block that a core error has ended and that waits to be admitted again (R299, R383): its index, slot, lake and count. -/
structure Again where
  lin : Nat
  slot : Nat
  lake : Nat
  restarts : Nat
  deriving DecidableEq, Repr

/-- A started launch (R284 to R290). `next` is the lowest block that the dispatcher has not tried, and `waiting` holds those below it that
have found no room (R43); `ranges` holds the ownership table's BASE, LINES and STATES (R292), and `areas` the privileged ranges that the
launch brings (R246), `unread` the words of code that the loader has still to rewrite (R119), and `icinvs` the ranges of the ICINV words of the round, as address and
length (R238). -/
structure Launch where
  id : Nat
  ctx : Nat
  queue : Nat
  seq : Nat
  prio : Nat
  gx : Nat
  gy : Nat
  gz : Nat
  bsize : Nat
  coop : Bool
  tile : List Nat
  argWords : List Word
  kernel : Kernel
  lakes : List Nat
  resident : Nat
  next : Nat
  waiting : List Nat
  again : List Again
  started : Bool
  killed : List Nat
  round : Nat
  newlyEnded : Nat
  ranges : List (Nat × Nat × Nat)
  areas : List (Nat × Nat)
  unread : List Nat
  icinvs : List (Nat × Nat)
  touched : List Touched
  deriving DecidableEq, Repr

/-- The context record (R280). -/
structure CtxRec where
  root : Nat
  objBase : Nat
  locBase : Nat
  locSize : Nat
  bslots : Nat
  handler : Nat
  harea : Nat
  sched : Nat
  schedN : Nat
  qbase : Nat
  imgBase : Nat
  spdBase : Nat
  thrBase : Nat
  fqBase : Nat
  fqLog2 : Nat
  wellAge : Nat
  park : Nat
  objWr : Bool
  lakes : Nat
  id : Nat
  step : Nat
  hextent : Nat
  deriving DecidableEq, Repr

/-- A translation installed for a context (R117): the code that it covers and the safe points in it. -/
structure Transl where
  lo : Nat
  hi : Nat
  safe : List Nat
  deriving DecidableEq, Repr

/-- A record that the fault queue has not yet taken, and the fragment that it stops (R338). -/
structure HeldRec where
  raw : BitVec 512
  frag : Option FRef
  deriving DecidableEq, Repr

/-- A context (R280, R338, R339, R358). `priv` holds the physical bytes of its privileged ranges and `hdrs` those of its queue headers, `privGaps` and `hdrGaps`
the parts of either that translate to nothing as yet (R246); `met` holds the wait conditions already met, as queue and condition (R285). -/
structure Ctx where
  rcd : CtxRec
  running : Bool
  stalled : Bool
  seq : Nat
  held : List HeldRec
  pages : List Nat
  priv : List (Nat × Nat)
  hdrs : List (Nat × Nat)
  privGaps : List (Nat × Nat)
  hdrGaps : List (Nat × Nat)
  fqErr : DWord
  transl : List Transl
  met : List (Nat × Nat)
  gwn : Map Nat
  switchAsked : Bool
  deriving DecidableEq, Repr

/-- What a long-latency producer will write, for one thread (R71): its bytes as they arrive. -/
structure OpLane where
  t : TRef
  got : List (Option Byte)
  deriving DecidableEq, Repr

/-- A long-latency producer in flight (R71, R102): registers `reg` up, `n` of them. `taken` holds the granules, by pond, that it has emptied and
that nothing has set or emptied since (R187, R364). -/
structure Op where
  id : Nat
  wid : Nat
  pool : Nat
  reg : Option Nat
  tag : DTag
  n : Nat
  ext : Option Bool
  lanes : List OpLane
  taken : List (Nat × Nat)
  deriving DecidableEq, Repr

/-- The space of an access in flight (R241): global bytes by physical address, or the scratchpad of a pond. -/
inductive Space where
  | mem
  | scratch (pond : Nat)
  deriving DecidableEq, Repr

/-- What an access does at its location. -/
inductive AccKind where
  | load (take : Bool)
  | store (bytes : List Byte)
  | atom (op : AtomOp) (wide uns : Bool) (b c : DWord)
  deriving DecidableEq, Repr

/-- An access in flight (R182, R185, R254): `stage` 0 issued, 1 at its slice. `dst` is the producer that takes what it reads and the first
byte it fills, and `seen` holds the threads outside its lake that a write at its slice has become visible to (R278). `covers` names the MWAIT words that cover
the write, each with its thread (R220). -/
structure Access where
  id : Nat
  wid : Nat
  t : TRef
  orig : Origin
  space : Space
  va : Nat
  addr : Nat
  n : Nat
  kind : AccKind
  order : Order
  scope : Scope
  cached : Bool
  device : Bool
  stage : Nat
  dst : Option (Nat × Nat)
  seen : List TRef
  covers : List (TRef × Nat)
  deriving DecidableEq, Repr

/-- A leaf translation (R258, R259). -/
structure Leaf where
  page : Nat
  size : Nat
  pa : Nat
  r : Bool
  w : Bool
  x : Bool
  cacheable : Bool
  dev : Bool
  glob : Bool
  level : Nat
  deriving DecidableEq, Repr

/-- A command of the copy engine (R195 to R198, R360): `got` the source bytes read so far, `pa` and `leaf` the translation of its global
address once it has started, `entry` its place in the journal, `passed` the bytes that later commands of its thread wrote while it was parked
(R198 item 3); `again` says that it has still to be replayed after a pre-emption (R297). -/
structure Copy where
  id : Nat
  wid : Nat
  t : TRef
  orig : Origin
  pond : Nat
  toScratch : Bool
  multi : Bool
  dir : Nat
  n : Nat
  va : Nat
  sa : Nat
  dests : List Nat
  pa : Option Nat
  leaf : Option Leaf
  got : List Byte
  parked : Option (Nat × Bool)
  entry : Nat
  passed : List (Nat × Nat)
  again : Bool
  deriving DecidableEq, Repr

/-- The operations of the matrix queue (R213). -/
inductive MKind where
  | mma | mlda | msta | alloc | zero
  deriving DecidableEq, Repr

/-- An operation of the matrix queue (R213, R215, R217, R221, R222). `idx` and `gen` name its slot and `src` its chained source; `a` and `b`
are the tile addresses, `obj` the shape record and the coordinates of a tile in memory; `words` complete with it, or with the delivery
of its handle; `bad` says that its result is undefined; `done` operations wait only for the MWAITs that cover them, and `covered` says that one has, or that a later operation has taken the place of its
result; `wrote` holds the units of memory that an MSTA has written, each with its length and whether it is cached. -/
structure MOp where
  id : Nat
  kind : MKind
  wid : Nat
  orig : Origin
  pond : Nat
  idx : Nat
  gen : Nat
  src : Option (Nat × Nat)
  fresh : Bool
  fmt : Word
  k : Nat
  a : Nat
  b : Nat
  obj : Option (Nat × List Nat)
  conv : Nat
  dreg : Option Nat
  dtag : DTag
  signers : List Signer
  words : List Nat
  started : Bool
  array : Option Nat
  delivered : Bool
  parked : Option (Nat × Bool)
  bad : Bool
  done : Bool
  covered : Bool
  wrote : List (Nat × Nat × Bool)
  deriving DecidableEq, Repr

/-- An invalidation under way (R239, R262): its ranges, or all, and the accesses and copy commands it waits for; `host` for SHOOTGO. Once it
is acknowledged it stands until what it makes replay has replayed (R359). `writers` are the words of those commands. -/
structure Inval where
  id : Nat
  ctx : Nat
  ranges : List (Nat × Nat)
  all : Bool
  waits : List Nat
  copies : List Nat
  writers : List Nat
  host : Bool
  acked : Bool
  replays : List ParkRef
  deriving DecidableEq, Repr

/-- A cached translation of a lake (R261). -/
structure Tlb where
  lake : Nat
  ctx : Nat
  leaf : Leaf
  deriving DecidableEq, Repr

/-- A word of a core's decoded-operation cache (R116). -/
structure Cached where
  core : Nat
  ctx : Nat
  addr : Nat
  word : Nat
  deriving DecidableEq, Repr

/-- A host line that the device holds (R254 item 6); `ctxs` are the contexts that have written it since it was last clean. -/
structure HostLine where
  line : Nat
  bytes : List Byte
  dirty : Bool
  ctxs : List Nat
  deriving DecidableEq, Repr

/-- The registers of BAR0 and the boot (R301 to R311). `logLast` is the newest record of the write-range log as the device wrote it: first line,
context and lines (R303). -/
structure HostRegs where
  featdrv : DWord
  go : Bool
  winoff : DWord
  pstate : Nat
  refused : Bool
  stage : Nat
  bootSrc : Nat
  bootCause : Nat
  age : List Word
  logBase : DWord
  logCtl : DWord
  logProd : DWord
  logCons : DWord
  logLast : Option (Nat × Nat × Nat)
  shootCtx : DWord
  shootVa : DWord
  shootLen : DWord
  shootAll : Bool
  shooting : Bool
  flushPa : DWord
  flushLen : DWord
  flushing : Bool
  flushFrom : Nat
  flushTo : Nat
  flushInv : Bool
  collBase : DWord
  collLog2 : DWord
  collTail : DWord
  mbxCtl : DWord
  mbxNeed : Bool
  mbxDone : Bool
  mbxBusy : Bool
  mbxResult : Nat
  mbxRlen : Nat
  mbxOffset : Nat
  mbxBuf : Map Byte
  image : List Byte
  moduleNo : Nat
  lostLinks : List (Fin 24)
  lostModules : List Nat
  posted : List Nat
  msix : List Nat
  readData : List Byte
  peerReply : List Byte
  report : List Byte
  powered : Bool
  deriving DecidableEq, Repr

/-- The part of an issue that is under way (R111, R114): a single word, or an operation of a pair. -/
inductive Part where
  | single | pairX | pairY
  deriving DecidableEq, Repr

/-- The word that a fragment issues (R102): its number, its scheduling field and the operation. -/
structure Issue where
  frag : FRef
  wid : Nat
  part : Part
  sch : Sched
  deriving DecidableEq, Repr

/-- The state of the part. -/
structure State where
  /-- The registers of BAR0 and the boot. -/
  host : HostRegs
  /-- Device, peer and host memory by physical address (R251), in the canonical form of `Memory.wf`. -/
  mem : List Host.Cell
  /-- Poisoned 128-byte memory lines (R380). -/
  badLines : List Nat
  /-- The context that last wrote a line (R381). -/
  lineTag : Map Nat
  /-- Host lines held by the device (R254 item 6). -/
  hostLines : List HostLine
  /-- The peer lines that a lake holds, as lake and line (R254 item 5, R384). -/
  peerLines : List (Nat × Nat)
  /-- The basins in private L2 mode (R255). -/
  l2priv : List (Fin 8)
  /-- The contexts (R280). -/
  ctxs : List Ctx
  /-- Started launches (R285). -/
  launches : List Launch
  /-- Admitted blocks. -/
  blocks : List Block
  /-- Ponds. -/
  ponds : List Pond
  /-- Pools. -/
  pools : List Pool
  /-- Fragments. -/
  frags : List Frag
  /-- Live threads. -/
  threads : List Thread
  /-- Barriers whose phase is not 0 or that hold an arrival (R193). -/
  bars : List Barrier
  /-- Collectives that wait for members (R73, R200). -/
  colls : List Coll
  /-- Long-latency producers in flight (R71). -/
  ops : List Op
  /-- Accesses in flight, in issue order (R185). -/
  accs : List Access
  /-- Stores and atomics at their slice, in the order they reached it (R254). -/
  slices : List Access
  /-- Copy commands of the issue journals, in journal order (R196). -/
  copies : List Copy
  /-- The matrix queues, in queue order (R213). -/
  mops : List MOp
  /-- Invalidations under way (R262). -/
  invals : List Inval
  /-- Cached translations (R261). -/
  tlb : List Tlb
  /-- Decoded-operation caches (R116). -/
  icache : List Cached
  /-- Cores withheld after a core error (R382). -/
  badCores : List Nat
  /-- Words that have issued and not completed (R102). -/
  incomplete : List Nat
  /-- MODEL: the ponds that the last step has switched out, each with its core (R382). -/
  leaving : List (Nat × Nat)
  /-- The last pool that each slot issued for each still launch: core, slot, launch, pool number (R63). -/
  rot : List (Nat × Nat × Nat × Nat)
  /-- The queue last offered room, for each context (R288). -/
  lastQueue : Map Nat
  /-- MODEL: the next number for words, accesses, producers, pools, blocks and the rest. -/
  nextId : Nat
  /-- MODEL: how many free values have been drawn (log 6). -/
  free : Nat
  /-- MODEL: what each core's clock is known to have counted since its reset (R226, log 7). -/
  clock : Map Nat
  /-- %hintmiss of each context on each core, by 128 × context + core (R106). -/
  hints : Map Nat
  /-- MODEL: which of the enabled moves comes next (log 1). -/
  choices : List Nat
  /-- MODEL: the host's and the environment's actions that have not landed yet (log 1). -/
  inbox : List Instr
  /-- MODEL: the word that issues in this step. -/
  cur : Option Issue
  deriving DecidableEq, Repr

/-- BAR0 and the boot right after reset (R301 to R311; registers whose reset value the spec does not give: log 21). -/
def HostRegs.reset : HostRegs where
  featdrv := 0
  go := false
  winoff := 0
  pstate := 0
  refused := false
  stage := 0
  bootSrc := 0
  bootCause := 0
  age := List.replicate 8 0
  logBase := 0
  logCtl := 0
  logProd := 0
  logCons := 0
  logLast := none
  shootCtx := 0
  shootVa := 0
  shootLen := 0
  shootAll := false
  shooting := false
  flushPa := 0
  flushLen := 0
  flushing := false
  flushFrom := 0
  flushTo := 0
  flushInv := false
  collBase := 0
  collLog2 := 0
  collTail := 0
  mbxCtl := 0
  mbxNeed := false
  mbxDone := false
  mbxBusy := false
  mbxResult := 0
  mbxRlen := 0
  mbxOffset := 0
  mbxBuf := []
  image := []
  moduleNo := 0
  lostLinks := []
  lostModules := []
  posted := []
  msix := []
  readData := []
  peerReply := []
  report := []
  powered := true

/-- The part right after reset: no context, no launch, no thread; memory with nothing listed. -/
def State.reset : State where
  host := HostRegs.reset
  mem := []
  badLines := []
  lineTag := []
  hostLines := []
  peerLines := []
  l2priv := []
  ctxs := []
  launches := []
  blocks := []
  ponds := []
  pools := []
  frags := []
  threads := []
  bars := []
  colls := []
  ops := []
  accs := []
  slices := []
  copies := []
  mops := []
  invals := []
  tlb := []
  icache := []
  badCores := []
  incomplete := []
  leaving := []
  rot := []
  lastQueue := []
  nextId := 0
  free := 0
  clock := []
  hints := []
  choices := []
  inbox := []
  cur := none

end Sys2Proof.Machine
end

