-- ==== Sys2Proof/Machine/Maps.lean ====
section
/-! DEFINITION. Finite tables, bytes of memory in canonical form, and the list helpers of the machine. -/

namespace Sys2Proof.Machine

/-- The entry of a table at `n`. -/
def mapGet {α : Type} : Map α → Nat → Option α
  | [], _ => none
  | (k, v) :: r, n => if k = n then some v else mapGet r n

/-- The table with `v` at `n`. -/
def mapSet {α : Type} : Map α → Nat → α → Map α
  | [], n, v => [(n, v)]
  | (k, w) :: r, n, v => if n < k then (n, v) :: (k, w) :: r else if n = k then (n, v) :: r else (k, w) :: mapSet r n v

/-- The table without an entry at `n`. -/
def mapErase {α : Type} (m : Map α) (n : Nat) : Map α := m.filter (fun p => p.1 != n)

/-- The table with the entry at `n` replaced by `f` of it, `d` where there is none. -/
def mapUpd {α : Type} (m : Map α) (n : Nat) (d : α) (f : α → α) : Map α := mapSet m n (f ((mapGet m n).getD d))

/-- What an address that is not listed reads as (log 3). -/
def unlisted : Byte := 0

/-- A byte of a memory, of a scratchpad or of a buffer: the listed value, or what an unlisted address reads as. -/
def byteAt (m : List Host.Cell) (a : Nat) : Byte := (mapGet m a).getD unlisted

/-- The memory with one byte written, canonical again. -/
def putByte (m : List Host.Cell) (a : Nat) (b : Byte) : List Host.Cell :=
  if b = unlisted then mapErase m a else mapSet m a b

/-- `n` bytes from `a` up. -/
def bytesAt (m : List Host.Cell) (a : Nat) : Nat → List Byte
  | 0 => []
  | n + 1 => byteAt m a :: bytesAt m (a + 1) n

/-- The memory with `bs` written from `a` up. -/
def putBytes (m : List Host.Cell) (a : Nat) : List Byte → List Host.Cell
  | [] => m
  | b :: bs => putBytes (putByte m a b) (a + 1) bs

/-- Keys rise strictly above `lo`, and no cell holds what an unlisted address reads as. -/
def Memory.above (lo : Nat) : List Host.Cell → Bool
  | [] => true
  | (a, b) :: r => decide (lo ≤ a) && b != unlisted && Memory.above (a + 1) r

/-- The canonical form of a memory: addresses strictly rising, no cell equal to what an unlisted address reads as. -/
def Memory.wf (m : List Host.Cell) : Bool := Memory.above 0 m

/-- A little-endian value of `n` bytes (R2). -/
def valueAt (m : List Host.Cell) (a n : Nat) : Nat := leNat (bytesAt m a n)

/-- The little-endian bytes of a word (R2). -/
def word32Bytes (w : Word) : List Byte := leBytes 4 w.toNat

/-- `x` put into a list that `key` sorts, behind equal keys. -/
def insertBy {α : Type} (key : α → Nat) (x : α) : List α → List α
  | [] => [x]
  | y :: r => if key x < key y then x :: y :: r else y :: insertBy key x r

/-- The list in ascending order of `key`, equal keys in their order. -/
def sortBy {α : Type} (key : α → Nat) (l : List α) : List α := l.foldl (fun acc x => insertBy key x acc) []

/-- The list without repeats, first occurrences kept. -/
def distinct {α : Type} [DecidableEq α] (l : List α) : List α :=
  l.foldl (fun acc x => if acc.contains x then acc else acc ++ [x]) []

/-- The lowest natural number below `lo + fuel` from `lo` up that `used` does not hold. -/
def lowestFree (used : List Nat) : Nat → Nat → Option Nat
  | 0, _ => none
  | fuel + 1, lo => if used.contains lo then lowestFree used fuel (lo + 1) else some lo

/-- The least element of a list. -/
def minOf : List Nat → Option Nat
  | [] => none
  | x :: r => some (r.foldl min x)

/-- The first result of `f` along a list. -/
def firstSome {α β : Type} (f : α → Option β) : List α → Option β
  | [] => none
  | x :: r => match f x with
    | some y => some y
    | none => firstSome f r

/-- The position of the first element that `p` holds of. -/
def indexWhere {α : Type} (p : α → Bool) : List α → Option Nat
  | [] => none
  | x :: r => if p x then some 0 else (indexWhere p r).map (· + 1)

/-- The list with its elements that `p` holds of replaced. -/
def updWhere {α : Type} (p : α → Bool) (f : α → α) (l : List α) : List α := l.map (fun x => if p x then f x else x)

/-- The list cut into groups of `n`, for at most `fuel` groups. -/
def chunks {α : Type} (n : Nat) : Nat → List α → List (List α)
  | 0, _ => []
  | _, [] => []
  | fuel + 1, l => l.take n :: chunks n fuel (l.drop n)

end Sys2Proof.Machine
end

