-- ==== Sys2Proof/Machine/Regs.lean ====
section
/-! DEFINITION. Finding the records of the state, and layered registers (04): reading a copy (R68), the layered write (R70), empty marks and
completion (R71), and materialisation (R77). -/

namespace Sys2Proof.Machine

/-- The name of a thread. -/
def Thread.ref (t : Thread) : TRef := ⟨t.blk, t.tid⟩
/-- The lane of a thread that is in a pool (R47). -/
def Thread.lane (t : Thread) : Nat := match t.place with | .lane _ _ l => l | .well .. => 0
/-- The pool of a thread, none for one in a well. -/
def Thread.pool (t : Thread) : Option Nat := match t.place with | .lane p _ _ => some p | .well .. => none
/-- The thread is in the fragment. -/
def Thread.inFrag (t : Thread) (f : FRef) : Bool := match t.place with | .lane p i _ => p == f.pool && i == f.id | .well .. => false
/-- The thread is in the pool. -/
def Thread.inPool (t : Thread) (p : Nat) : Bool := t.pool == some p
/-- The name of a fragment. -/
def Frag.ref (f : Frag) : FRef := ⟨f.pool, f.id⟩

/-- The thread of a name. -/
def thread (s : State) (r : TRef) : Option Thread := s.threads.find? (fun t => t.ref == r)
/-- The fragment of a name. -/
def frag (s : State) (r : FRef) : Option Frag := s.frags.find? (fun f => f.ref == r)
/-- The pool of a number. -/
def pool (s : State) (p : Nat) : Option Pool := s.pools.find? (fun x => x.id == p)
/-- The pond of a number. -/
def pond (s : State) (p : Nat) : Option Pond := s.ponds.find? (fun x => x.id == p)
/-- The block of a number. -/
def block (s : State) (b : Nat) : Option Block := s.blocks.find? (fun x => x.id == b)
/-- The launch of a number. -/
def launch (s : State) (l : Nat) : Option Launch := s.launches.find? (fun x => x.id == l)
/-- The context of an identifier (R227). -/
def ctx (s : State) (c : Nat) : Option Ctx := s.ctxs.find? (fun x => x.rcd.id == c)

/-- The threads that `p` holds of, replaced. -/
def updThreads (s : State) (p : Thread → Bool) (f : Thread → Thread) : State := { s with threads := updWhere p f s.threads }
/-- One thread replaced. -/
def updThread (s : State) (r : TRef) (f : Thread → Thread) : State := updThreads s (fun t => t.ref == r) f
/-- One fragment replaced. -/
def updFrag (s : State) (r : FRef) (f : Frag → Frag) : State := { s with frags := updWhere (fun x => x.ref == r) f s.frags }
/-- One pool replaced. -/
def updPool (s : State) (p : Nat) (f : Pool → Pool) : State := { s with pools := updWhere (fun x => x.id == p) f s.pools }
/-- One pond replaced. -/
def updPond (s : State) (p : Nat) (f : Pond → Pond) : State := { s with ponds := updWhere (fun x => x.id == p) f s.ponds }
/-- One block replaced. -/
def updBlock (s : State) (b : Nat) (f : Block → Block) : State := { s with blocks := updWhere (fun x => x.id == b) f s.blocks }
/-- One launch replaced. -/
def updLaunch (s : State) (l : Nat) (f : Launch → Launch) : State := { s with launches := updWhere (fun x => x.id == l) f s.launches }
/-- One context replaced. -/
def updCtx (s : State) (c : Nat) (f : Ctx → Ctx) : State := { s with ctxs := updWhere (fun x => x.rcd.id == c) f s.ctxs }

/-- The next number of the model, and the state that has given it out. -/
def takeId (s : State) : Nat × State := (s.nextId, { s with nextId := s.nextId + 1 })

/-- The live threads of a pool, in every fragment (R70). -/
def poolThreads (s : State) (p : Nat) : List Thread := s.threads.filter (fun t => t.inPool p)
/-- The live threads of a fragment, in ascending lane. -/
def fragThreads (s : State) (f : FRef) : List Thread := sortBy Thread.lane (s.threads.filter (fun t => t.inFrag f))
/-- The live threads of a pond, those in wells included. -/
def pondThreads (s : State) (p : Nat) : List Thread := s.threads.filter (fun t => t.pond == p)
/-- The live threads of a block on all its ponds. -/
def blockThreads (s : State) (b : Nat) : List Thread := s.threads.filter (fun t => t.blk == b)

/-- The pond copy of a vector register (R65): always present. -/
def Pond.copy (p : Pond) (n : Nat) : Word := (mapGet p.bank n).getD 0
/-- A slot copy that holds nothing (R66). -/
def QSlot.unset : QSlot := ⟨0, false, 0⟩
/-- The pond copy of a modulus slot (R65). -/
def Pond.slotCopy (p : Pond) (k : Nat) : QSlot := (mapGet p.qbank k).getD QSlot.unset

/-- The copy of a register that a read under a tag returns (R68), from the reader's spring copy, its pool's and its pond's. -/
def pickCopy {α : Type} (tag : STag) (spring poolCopy : Option α) (pondCopy : α) : α :=
  match tag with
  | .res | .sp => match spring with
    | some v => v
    | none => poolCopy.getD pondCopy
  | .pl => poolCopy.getD pondCopy
  | .pd => pondCopy

/-- `resolve(t, n, tag)` of R38 by R68: the copy of vn that thread `t` of pool `pl` and pond `pd` reads. -/
def resolve (pl : Option Pool) (pd : Pond) (t : Thread) (n : Nat) (tag : STag) : Word :=
  pickCopy tag (mapGet t.springs n) (pl.bind (fun p => mapGet p.copies n)) (pd.copy n)

/-- `resolve(t, qk, tag)` of R38 by R68. -/
def resolveSlot (pl : Option Pool) (pd : Pond) (t : Thread) (k : Nat) (tag : STag) : QSlot :=
  pickCopy tag (mapGet t.slots k) (pl.bind (fun p => mapGet p.slots k)) (pd.slotCopy k)

/-- The rank of the copy that `.res` would return (R74): 0 spring, 1 pool, 2 pond. -/
def copyRank {α : Type} (spring poolCopy : Option α) : Nat :=
  if spring.isSome then 0 else if poolCopy.isSome then 1 else 2

/-- A write of register n is a pool-rank write (R69): by its tag, or by its home rank. -/
def poolRank (homeMap n : Nat) : DTag → Bool
  | .home => homeMap.testBit n
  | .sp => false
  | .pl | .pd => true

/-- The values agree in every writer (R70). -/
def uniform {α : Type} [DecidableEq α] : List (TRef × α) → Option α
  | [] => none
  | (_, v) :: r => if r.all (fun p => p.2 == v) then some v else none

/-- The value that a writer writes. -/
def valOf {α : Type} (vals : List (TRef × α)) (r : TRef) : Option α := (vals.find? (fun p => p.1 == r)).map Prod.snd

/-- The writers are the live threads of the pool (R70). -/
def coversPool {α : Type} (s : State) (p : Nat) (vals : List (TRef × α)) : Bool :=
  (poolThreads s p).all (fun t => (valOf vals t.ref).isSome) &&
    vals.all (fun v => (poolThreads s p).any (fun t => t.ref == v.1))

/-- A thread writes a register: a younger write stands over every pending one (R71 item 3), those issued before word `wid` or all of
them, and an uncovered matrix operation that reads the register is spoiled (R221). -/
def Thread.overtake (t : Thread) (n : Nat) (wid : Option Nat) : Thread :=
  { t with
    marks := t.marks.map (fun m => if m.reg == n && (match wid with | some w => decide (m.wid < w) | none => true)
      then { m with dead := true } else m)
    uses := t.uses.map (fun u => if u.regs.contains n then { u with spoiled := true } else u) }

/-- A pond copy of the register is set over every pending write of the thread (R71 item 3, R76). -/
def Thread.sweep (t : Thread) (n : Nat) : Thread :=
  let u := t.overtake n none
  { u with marks := u.marks.map (fun m => if m.reg == n then { m with swept := true } else m) }

/-- The thread with a spring copy of vn (R65); the copy is clean (R380). -/
def Thread.setSpring (t : Thread) (n : Nat) (v : Word) : Thread :=
  { t with springs := mapSet t.springs n v, poison := t.poison.filter (· != n) }
/-- The thread without a spring copy of vn. -/
def Thread.dropSpring (t : Thread) (n : Nat) : Thread :=
  { t with springs := mapErase t.springs n, poison := t.poison.filter (· != n) }
/-- The thread with a spring copy of qk. -/
def Thread.setSlot (t : Thread) (k : Nat) (v : QSlot) : Thread :=
  { t with slots := mapSet t.slots k v, poison := t.poison.filter (· != 1000 + k) }
/-- The thread without a spring copy of qk. -/
def Thread.dropSlot (t : Thread) (k : Nat) : Thread :=
  { t with slots := mapErase t.slots k, poison := t.poison.filter (· != 1000 + k) }
/-- The pool with a pool copy of vn. -/
def Pool.setCopy (p : Pool) (n : Nat) (v : Word) : Pool :=
  { p with copies := mapSet p.copies n v, poison := p.poison.filter (· != n) }
/-- The pool without a pool copy of vn. -/
def Pool.dropCopy (p : Pool) (n : Nat) : Pool :=
  { p with copies := mapErase p.copies n, poison := p.poison.filter (· != n) }
/-- The pool with a pool copy of qk. -/
def Pool.setSlot (p : Pool) (k : Nat) (v : QSlot) : Pool :=
  { p with slots := mapSet p.slots k v, poison := p.poison.filter (· != 1000 + k) }
/-- The pool without a pool copy of qk. -/
def Pool.dropSlot (p : Pool) (k : Nat) : Pool :=
  { p with slots := mapErase p.slots k, poison := p.poison.filter (· != 1000 + k) }

/-- The copy of a register (or, from 1000 up, a slot) that the thread would read is poisoned (R380). -/
def readsPoison (pl : Option Pool) (pd : Pond) (t : Thread) (n : Nat) (tag : STag) : Bool :=
  let spring := if n < 1000 then (mapGet t.springs n).isSome else (mapGet t.slots (n - 1000)).isSome
  let poolCopy := match pl with
    | some p => if n < 1000 then (mapGet p.copies n).isSome else (mapGet p.slots (n - 1000)).isSome
    | none => false
  let fromPool := poolCopy && (match pl with | some p => p.poison.contains n | none => false)
  match tag with
  | .res | .sp => if spring then t.poison.contains n else if poolCopy then fromPool else pd.poison.contains n
  | .pl => if poolCopy then fromPool else pd.poison.contains n
  | .pd => pd.poison.contains n

/-- The thread with a spring copy of its own of what it reads of vn, poison with it, so that no write of a wider copy reaches it (R71 item 3). -/
def Thread.holdCopy (pl : Option Pool) (pd : Pond) (n : Nat) (t : Thread) : Thread :=
  if (mapGet t.springs n).isSome then t
  else
    let u := t.setSpring n (resolve pl pd t n .res)
    if readsPoison pl pd t n .res then { u with poison := u.poison ++ [n] } else u

/-- The write of one register, as one event for all its writers (R70): a full pool write, or a write of each writer's spring copy. -/
def writeCopies (s : State) (p n : Nat) (full : Option Word) (vals : List (TRef × Word)) : State :=
  match full with
  | some v => updPool (updThreads s (fun t => t.inPool p) (fun t => t.dropSpring n)) p (fun q => q.setCopy n v)
  | none => updThreads s (fun t => (valOf vals t.ref).isSome) (fun t => t.setSpring n ((valOf vals t.ref).getD 0))

/-- The value of a full pool write, where the write is one (R70). -/
def fullWrite {α : Type} [DecidableEq α] (s : State) (p : Nat) (pl : Bool) (vals : List (TRef × α)) : Option α :=
  if pl && coversPool s p vals then uniform vals else none

/-- `lwrite(W, n, tag, val)` of R70 by an ordinary word: `vals` holds W with each writer's value, `pl` says whether it is pool-rank. It
overtakes every pending write of its writers (R71 item 3). -/
def lwrite (s : State) (p n : Nat) (pl : Bool) (vals : List (TRef × Word)) : State :=
  let s := updThreads s (fun t => (valOf vals t.ref).isSome) (fun t => t.overtake n none)
  writeCopies s p n (fullWrite s p pl vals) vals

/-- `lwrite` on a modulus slot (R69, R172): a slot's home rank is pool. -/
def lwriteSlot (s : State) (p k : Nat) (tag : DTag) (vals : List (TRef × QSlot)) : State :=
  match fullWrite s p (tag != .sp) vals with
  | some v => updPool (updThreads s (fun t => t.inPool p) (fun t => t.dropSlot k)) p (fun q => q.setSlot k v)
  | none => updThreads s (fun t => (valOf vals t.ref).isSome) (fun t => t.setSlot k ((valOf vals t.ref).getD QSlot.unset))

/-- The registers from `reg` up marked empty for the writers by word `wid` (R71 item 1, R103). -/
def markEmpty (s : State) (ws : List TRef) (reg n wid : Nat) : State :=
  updThreads s (fun t => ws.contains t.ref)
    (fun t => { t with marks := t.marks ++ (List.range n).map (fun i => ⟨reg + i, wid, false, false, false⟩) })

/-- The marks of one register by word `wid` cleared. -/
def Thread.clearMark (t : Thread) (n wid : Nat) : Thread :=
  { t with marks := t.marks.filter (fun m => !(m.reg == n && m.wid == wid)) }

/-- The pool that holds every one of some threads, where one does (R71 item 2). -/
def commonPool (ts : List Thread) : Option Nat :=
  match ts with
  | [] => none
  | t :: r => match t.pool with
    | none => none
    | some p => if r.all (fun u => u.inPool p) then some p else none

/-- The write of register `n` that a writer's word `wid` issued has been overtaken by a younger one (R71 item 3). -/
def Thread.overtaken (t : Thread) (n wid : Nat) : Bool := t.marks.any (fun m => m.reg == n && m.wid == wid && m.dead)

/-- The thread was re-sliced while the write of register `n` by its word `wid` pended (R77). -/
def Thread.wasMoved (t : Thread) (n wid : Nat) : Bool := t.marks.any (fun m => m.reg == n && m.wid == wid && m.moved)

/-- The pool and the value of the full pool write that a long-latency producer makes (R71 item 2): its writers that still live are the live
threads of one pool, none of them re-sliced since (R77), and the value is uniform. -/
def fullCompletion (s : State) (n : Nat) (pl : Bool) (vals : List (TRef × Nat × Word)) : Option (Nat × Word) :=
  let live := s.threads.filter (fun t => (valOf vals t.ref).isSome)
  if live.any (fun t => t.wasMoved n (((valOf vals t.ref).map Prod.fst).getD 0)) then none else
  match commonPool live with
  | none => none
  | some p => (fullWrite s p pl ((vals.filter (fun v => (thread s v.1).isSome)).map (fun v => (v.1, v.2.2)))).map (fun v => (p, v))

/-- The layered write of a long-latency producer at its completion (R71 items 2 and 3): a full pool write, or a write of each writer's spring
copy. A writer whose write a younger one has overtaken keeps the younger value, from whatever copy it reads it; `vals` holds each writer with
its word and value, and their marks clear. -/
def completeWrites (s : State) (n : Nat) (pl : Bool) (vals : List (TRef × Nat × Word)) : State :=
  let go := vals.filter (fun v => (thread s v.1).any (fun t => !t.overtaken n v.2.1))
  let late (t : Thread) : Bool := (valOf vals t.ref).isSome && (valOf go t.ref).isNone
  let s' := updThreads s (fun t => (valOf go t.ref).isSome) (fun t => t.overtake n ((valOf go t.ref).map Prod.fst))
  let s'' := match fullCompletion s n pl vals with
    | some (p, v) =>
      let hold (t : Thread) : Thread := (pond s t.pond).elim t (fun d => t.holdCopy (pool s p) d n)
      if go.isEmpty then s'
      else updPool (updThreads s' (fun t => t.inPool p) (fun t => if late t then hold t else t.dropSpring n)) p (fun q => q.setCopy n v)
    | none => writeCopies s' 0 n none (go.map (fun v => (v.1, v.2.2)))
  updThreads s'' (fun t => (valOf vals t.ref).isSome) (fun t => t.clearMark n (((valOf vals t.ref).map Prod.fst).getD 0))

/-- The layered write of a producer that one word issued (R71). -/
def completeWrite (s : State) (n wid : Nat) (pl : Bool) (vals : List (TRef × Word)) : State :=
  completeWrites s n pl (vals.map (fun v => (v.1, wid, v.2)))

/-- A pond copy stored, with every pool copy of the register in the pond dropped (R72). -/
def storePond (s : State) (pd n : Nat) (v : Word) : State :=
  let s := { s with pools := updWhere (fun p => p.pond == pd) (fun p => p.dropCopy n) s.pools }
  updPond s pd (fun p => { p with bank := mapSet p.bank n v, poison := p.poison.filter (· != n) })

/-- The pond copy set by a pond collective, every narrower copy of the register in the pond dropped (R72). -/
def setPondCopy (s : State) (pd n : Nat) (v : Word) : State :=
  let s := updThreads s (fun t => t.pond == pd) (fun t => (t.dropSpring n).sweep n)
  storePond s pd n v

/-- The pond copy of a modulus slot set (R72, R199). -/
def setPondSlot (s : State) (pd k : Nat) (v : QSlot) : State :=
  let s := updThreads s (fun t => t.pond == pd) (fun t => t.dropSlot k)
  let s := { s with pools := updWhere (fun p => p.pond == pd) (fun p => p.dropSlot k) s.pools }
  updPond s pd (fun p => { p with qbank := mapSet p.qbank k v, poison := p.poison.filter (· != 1000 + k) })

/-- The table with the entries of `wide` that it has none of its own for (R77). -/
def mergeUnder {α : Type} (own wide : Map α) : Map α :=
  wide.foldl (fun acc p => if (mapGet acc p.1).isSome then acc else mapSet acc p.1 p.2) own

/-- The thread as it leaves its pool at a re-slice point (R77): spring copies of the pool copies it had in view, and of their
poison. A write that pends for it will go into its spring copy. -/
def Thread.materialise (t : Thread) (p : Pool) : Thread :=
  { t with
    marks := t.marks.map (fun m => { m with moved := true })
    springs := mergeUnder t.springs p.copies
    slots := mergeUnder t.slots p.slots
    poison := t.poison ++ p.poison.filter (fun n => if n < 1000 then (mapGet t.springs n).isNone else (mapGet t.slots (n - 1000)).isNone) }

end Sys2Proof.Machine
end

