-- ==== Sys2Proof/Machine/Translate.lean ====
section
/-! DEFINITION. Physical memory at its home (13 R251 to R257), page-table walks and cached translations (13 R258 to R261), the rights
and range checks of an access (23 R354 to R356), and host lines with their write-range log (13 R254 item 6, 16 R303). -/

namespace Sys2Proof.Machine

/-- The 128-byte line of a physical address (R253). -/
def lineOf (a : Nat) : Nat := a / 128

/-- The physical address lies in host memory (R251). -/
def isHost (a : Nat) : Bool := decide (Config.hostBase ≤ a)
/-- The physical address lies in the peer modules' range (R251). -/
def isPeer (a : Nat) : Bool := decide (Config.peerBase ≤ a ∧ a < Config.hostBase)
/-- The module of a peer address (R251). -/
def moduleOf (a : Nat) : Nat := (a - Config.peerBase) / 2 ^ 40
/-- The home basin of a line (R252). -/
def homeOf (pa : Nat) : Nat := ((pa >>> 12) ^^^ (pa >>> 19) ^^^ (pa >>> 26)) % 8
/-- The lake-cache slice of a line (R253). -/
def sliceOf (pa : Nat) : Nat := ((pa >>> 7) ^^^ (pa >>> 14) ^^^ (pa >>> 21)) % 4

/-- The part of a peer module that no path reaches takes no store (R384). -/
def lostTo (s : State) (a : Nat) : Bool := isPeer a && s.host.lostModules.contains (moduleOf a)

/-- A feature survived negotiation (R302). -/
def feature (s : State) (i : Nat) : Bool := s.host.go && s.host.featdrv.getLsbD i

/-- This module's own memory under its peer address is its device memory (R251). -/
def ownAddr (s : State) (pa : Nat) : Nat :=
  if isPeer pa && moduleOf pa == s.host.moduleNo then (pa - Config.peerBase) % 2 ^ 40 else pa

/-- The physical address is populated (R251): device memory, a peer's device memory, or host memory. -/
def populated (s : State) (pa : Nat) : Bool :=
  decide (pa < Config.deviceTop) || (isPeer pa && feature s 0 && decide ((pa - Config.peerBase) % 2 ^ 40 < Config.deviceTop)) ||
    (isHost pa && decide (pa < Config.physTop))

/-- The device's copy of a host line (R254 item 6). -/
def hostLine (s : State) (line : Nat) : Option HostLine := s.hostLines.find? (fun h => h.line == line)

/-- A byte as its home holds it; a cached host line's is the device's copy (R252, R254). -/
def homeByte (s : State) (a : Nat) : Byte :=
  match hostLine s (lineOf a) with
  | some h => h.bytes.getD (a % 128) 0
  | none => byteAt s.mem a

/-- `n` bytes as their homes hold them. -/
def homeBytes (s : State) (a : Nat) : Nat → List Byte
  | 0 => []
  | n + 1 => homeByte s a :: homeBytes s (a + 1) n

/-- A byte as an access reads it at its home: that of a host line which the access does not cache is the host's own (R254 item 6). -/
def memByte (s : State) (cached : Bool) (a : Nat) : Byte := if cached then homeByte s a else byteAt s.mem a

/-- `n` bytes as an access reads them at their home. -/
def memBytes (s : State) (cached : Bool) (a n : Nat) : List Byte := if cached then homeBytes s a n else bytesAt s.mem a n

/-- A little-endian value at its home. -/
def homeValue (s : State) (a n : Nat) : Nat := leNat (homeBytes s a n)

/-- `bs` put over a list of bytes from position `i` up. -/
def overlay (l : List Byte) (i : Nat) : List Byte → List Byte
  | [] => l
  | b :: bs => overlay (l.set i b) (i + 1) bs

/-- A record of the write-range log (R303): first line, context and lines. -/
def logRecord (r : Nat × Nat × Nat) : List Byte := leBytes 16 (r.1 * 128 * 2 ^ 64 + r.2.1 * 2 ^ 48 + r.2.2 * 2 ^ 16 + 1)

/-- The newest record with one line more, where that line follows on from it under its context and its count has room (R303). -/
def logMerged (s : State) (ctxId line : Nat) : Option (Nat × Nat × Nat) :=
  match s.host.logLast with
  | some (l, c, n) => if l + n = line ∧ c = ctxId ∧ n + 1 < 2 ^ 32 then some (l, c, n + 1) else none
  | none => none

/-- The record of a host line that became dirty, written to the log in host memory, or merged into the newest record, which the device keeps as it
wrote it (R303). The log stops with OVF once the ring is full. LOGBASE is taken as an address of host memory, and a size outside 8 to 20 as it
stands (log 41). -/
def logDirty (s : State) (ctxId line : Nat) : State :=
  let size := 2 ^ bits s.host.logCtl.toNat 0 5
  let prod := s.host.logProd.toNat
  let cons := s.host.logCons.toNat
  if !(feature s 1) || !s.host.logCtl.getLsbD 8 || s.host.logCtl.getLsbD 9 then s else
  let put (i : Nat) (r : Nat × Nat × Nat) (s : State) : State :=
    { s with mem := putBytes s.mem (Config.hostBase + s.host.logBase.toNat + 16 * (i % size)) (logRecord r), host := { s.host with logLast := some r } }
  if size ≤ prod - cons then { s with host := { s.host with logCtl := s.host.logCtl ||| 512 } }
  else match logMerged s ctxId line with
    | some r => put (prod - 1) r s
    | none =>
      let s := put prod (line, ctxId, 1) s
      { s with host := { s.host with
        logProd := s.host.logProd + 1
        logCtl := if size ≤ prod + 1 - cons then s.host.logCtl ||| 512 else s.host.logCtl } }

/-- A host line is dirty in a cache of the device: in its copy, or by a write that stands at its slice (R303). -/
def dirtyLine (s : State) (line : Nat) : Bool :=
  (hostLine s line).any HostLine.dirty || s.slices.any (fun y => y.cached && lineOf y.addr == line)

/-- The log of a cached write to a host line that is not dirty yet, before any other agent sees the write (R303). -/
def logWrite (s : State) (ctxId : Nat) (cached : Bool) (a : Nat) : State :=
  if isHost a && cached && !dirtyLine s (lineOf a) then logDirty s ctxId (lineOf a) else s

/-- A line of a still launch takes bytes that its private owner has not written with the round: they stand in its round-start image too, and the
owner's earlier writes of the round there are not applied again at the commit (R263, R293). -/
def Touched.mirror (a : Nat) (bs : List Byte) (t : Touched) : Touched :=
  match t.image with
  | some img =>
    if t.line = lineOf a then { t with
      image := some (overlay img (a % 128) bs)
      log := t.log.map (fun x => { x with cut := x.cut ++ [(a, a + bs.length)] }) }
    else t
  | none => t

/-- Bytes written at their home stand in the images of their line as well. -/
def mirror (s : State) (a : Nat) (bs : List Byte) : State :=
  { s with launches := s.launches.map (fun l => { l with touched := l.touched.map (Touched.mirror a bs) }) }

/-- Bytes put at their home for a context. A cached host line takes them in the device's copy, which becomes dirty (R254 item 6). -/
def putHome (s : State) (ctxId : Nat) (cached : Bool) (a : Nat) (bs : List Byte) : State :=
  let s := mirror s a bs
  if isHost a && cached then
    let l := lineOf a
    let old := hostLine s l
    let own : List Byte := match old with
      | some h => h.bytes
      | none => bytesAt s.mem (l * 128) 128
    let writers : List Nat := match old with
      | some h => h.ctxs
      | none => []
    let h : HostLine := ⟨l, overlay own (a % 128) bs, true, ctxId :: writers.filter (· != ctxId)⟩
    { s with hostLines := h :: s.hostLines.filter (fun x => x.line != l) }
  else { s with mem := putBytes s.mem a bs, lineTag := mapSet s.lineTag (lineOf a) ctxId }

/-- Bytes written at their home by a context, with the record that the write-range log takes first (R254 item 6, R303). -/
def homeWrite (s : State) (ctxId : Nat) (cached : Bool) (a : Nat) (bs : List Byte) : State :=
  putHome (logWrite s ctxId cached a) ctxId cached a bs

/-- A host line taken into the caches by a cached read (R254 item 6). -/
def fillHost (s : State) (a : Nat) : State :=
  if isHost a && (hostLine s (lineOf a)).isNone then
    { s with hostLines := ⟨lineOf a, bytesAt s.mem (lineOf a * 128) 128, false, []⟩ :: s.hostLines }
  else s

/-- A peer line taken into the cache of a lake by a cached read (R254 item 5). -/
def fillPeer (s : State) (lake a : Nat) : State :=
  if isPeer a && !s.peerLines.contains (lake, lineOf a) then { s with peerLines := (lake, lineOf a) :: s.peerLines } else s

/-- A peer line that a lake owns for a write: no other lake holds it (R254 items 2 and 5). -/
def ownPeer (s : State) (lake a : Nat) : State :=
  if isPeer a then { s with peerLines := (lake, lineOf a) :: s.peerLines.filter (fun p => p.2 != lineOf a) } else s

/-- The lake holds every line of `[pa, pa + n)`, so that a cached read needs no path to its module (R384). -/
def heldPeer (s : State) (lake : Option Nat) (pa n : Nat) : Bool :=
  match lake with
  | some k => s.peerLines.contains (k, lineOf pa) && s.peerLines.contains (k, lineOf (pa + n - 1))
  | none => false

/-- A dirty host line written back to host memory (R254 item 6); its copy is dropped when `drop` says so. -/
def writeBack (s : State) (line : Nat) (drop : Bool) : State :=
  match hostLine s line with
  | none => s
  | some h =>
    let mem := if h.dirty then putBytes s.mem (line * 128) h.bytes else s.mem
    let rest := s.hostLines.filter (fun x => x.line != line)
    { s with mem := mem, hostLines := if drop then rest else { h with dirty := false, ctxs := [] } :: rest }

/-- The bits that R258 reserves in every entry are set. -/
def pteReserved (e : Nat) : Bool := bits e 60 3 != 0 || bits e 52 4 != 0 || bits e 5 7 != 0

/-- The bytes of a leaf's page by its SIZE (R258). -/
def pageBytes (size : Nat) : Nat := if size = 0 then 2 ^ 16 else if size = 1 then 2 ^ 21 else 2 ^ 30

/-- The entry is malformed at its level (R259). -/
def malformed (e lvl : Nat) : Bool :=
  let isLeaf := lvl == 4 || (lvl == 3 && e.testBit 4)
  let addr := bits e 12 40 * 4096
  pteReserved e || (e.testBit 4 && lvl != 3) || (isLeaf && lvl == 3 && bits e 58 2 != 2) ||
    (lvl == 4 && decide (2 ≤ bits e 58 2)) || (isLeaf && addr % pageBytes (bits e 58 2) != 0) ||
    (!isLeaf && addr % 8192 != 0) || (isLeaf && e.testBit 57 && e.testBit 3)

/-- The walk from a table down the remaining levels (R251, R259): a leaf, or the cause, the level at which it was met and the physical address
of an unpopulated entry (log 49). -/
def walkFrom (s : State) (va : Nat) : List (Nat × Nat) → Nat → Except (Nat × Nat × Nat) Leaf
  | [], _ => .error (0x25, 4, 0)
  | (lvl, idx) :: r, tab =>
    let at_ := ownAddr s (tab + 8 * idx)
    let e := homeValue s at_ 8
    if !populated s at_ then .error (0x28, lvl, at_)
    else if s.badLines.contains (lineOf at_) then .error (0x82, lvl, 0)
    else if !e.testBit 0 then .error (0x24, lvl, 0)
    else if malformed e lvl then .error (0x25, lvl, 0)
    else if lvl == 4 || (lvl == 3 && e.testBit 4) then
      let sz := pageBytes (bits e 58 2)
      .ok { page := va / sz, size := sz, pa := bits e 12 40 * 4096, r := e.testBit 1, w := e.testBit 2, x := e.testBit 3,
            cacheable := e.testBit 56, dev := e.testBit 57, glob := e.testBit 63, level := lvl }
    else walkFrom s va r (bits e 12 40 * 4096)

/-- The walk of a virtual address from the root of a page table (R259). -/
def walk (s : State) (root va : Nat) : Except (Nat × Nat × Nat) Leaf :=
  walkFrom s va [(1, bits va 46 11), (2, bits va 36 10), (3, bits va 26 10), (4, bits va 16 10)] root

/-- An access under the leaf goes through the caches (R260). -/
def Leaf.cached (l : Leaf) : Bool := l.cacheable && !l.dev

/-- The physical address of a virtual one under a leaf that covers it (R259). -/
def Leaf.phys (l : Leaf) (va : Nat) : Nat := l.pa + va % l.size

/-- A lake's cached translation of an address: of its context, or global (R261). -/
def tlbHit (s : State) (lake ctxId va : Nat) : Option Leaf :=
  (s.tlb.find? (fun t => t.lake == lake && (t.ctx == ctxId || t.leaf.glob) && t.leaf.page == va / t.leaf.size)).map Tlb.leaf

/-- The translation of an address by a lake's cache or a walk (R242, R259, R261). -/
def xlat (s : State) (lake : Option Nat) (c : Ctx) (va : Nat) : Except (Nat × Nat × Nat) Leaf :=
  if 2 ^ 57 ≤ va then .error (0x23, 0, 0) else
  match lake.bind (fun l => tlbHit s l c.rcd.id va) with
  | some leaf => .ok leaf
  | none => walk s c.rcd.root va

/-- The lake's cache holds a translation (R261). -/
def fillTlb (s : State) (lake ctxId : Nat) (leaf : Leaf) : State :=
  if s.tlb.any (fun t => t.lake == lake && t.ctx == ctxId && t.leaf.page == leaf.page && t.leaf.size == leaf.size) then s
  else { s with tlb := s.tlb ++ [⟨lake, ctxId, leaf⟩] }

/-- The kinds of access of R354. -/
inductive Acc where
  | load | store | atomic | fetch | spill | fill
  deriving DecidableEq, Repr

/-- The code of an access (R354). -/
def Acc.code : Acc → Nat
  | .load => 0 | .store => 1 | .atomic => 2 | .fetch => 3 | .spill => 4 | .fill => 5
/-- The rights an access needs, R = 1, W = 2, X = 4 (R260). -/
def Acc.need : Acc → Nat
  | .load | .fill => 1 | .store | .spill => 2 | .atomic => 3 | .fetch => 4
/-- The rights a leaf grants. -/
def Leaf.grants (l : Leaf) : Nat := l.r.toNat + 2 * l.w.toNat + 4 * l.x.toNat
/-- Rights `need` are among `have_`. -/
def covers (have_ need : Nat) : Bool := have_ &&& need == need

/-- The access fields of R354. -/
def accFields (acc : Acc) (loc parked : Bool) (level grants : Nat) : Nat :=
  acc.code + 8 * loc.toNat + 16 * level + 128 * parked.toNat + 256 * acc.need + 4096 * grants

/-- A fault of memory (R354): its cause, DETAIL, address and level; `recover` when it parks the word (R355). -/
structure MemFault where
  cause : Nat
  detail : Nat
  addr : Nat
  level : Nat
  lane : Nat
  recover : Bool
  deriving DecidableEq, Repr

/-- An access that a word asks for: its lane, virtual address, bytes and kind; `hdr` for a load that may reach a queue header (R246). -/
structure MemReq where
  lane : Nat
  va : Nat
  n : Nat
  acc : Acc
  loc : Bool
  hdr : Bool
  deriving DecidableEq, Repr

/-- The pieces of a range of a context's virtual space by its leaves: start and end, and the physical address and the leaf behind it, none
where a page translates to nothing. -/
def spans (s : State) (c : Ctx) (stop : Nat) : Nat → Nat → List (Nat × Nat × Option (Nat × Leaf))
  | 0, _ => []
  | k + 1, va =>
    if stop ≤ va then [] else
    match xlat s none c va with
    | .error _ =>
      let next := min stop ((va / 65536 + 1) * 65536)
      (va, next, none) :: spans s c stop k next
    | .ok leaf =>
      let next := min stop ((va / leaf.size + 1) * leaf.size)
      let pa := ownAddr s (leaf.phys va)
      (va, next, if populated s pa then some (pa, leaf) else none) :: spans s c stop k next

/-- The pieces of `n` bytes from `va` up. -/
def spansOf (s : State) (c : Ctx) (va n : Nat) : List (Nat × Nat × Option (Nat × Leaf)) := spans s c (va + n) (n / 65536 + 2) va

/-- The physical bytes behind some areas, given as addresses and lengths. -/
def physOf (s : State) (c : Ctx) (as : List (Nat × Nat)) : List (Nat × Nat) :=
  (as.flatMap (fun a => spansOf s c a.1 a.2)).filterMap (fun p => p.2.2.map (fun x => (x.1, x.1 + (p.2.1 - p.1))))

/-- The parts of some areas that translate to nothing, as addresses and lengths. -/
def gapsOf (s : State) (c : Ctx) (as : List (Nat × Nat)) : List (Nat × Nat) :=
  (as.flatMap (fun a => spansOf s c a.1 a.2)).filterMap (fun p => if p.2.2.isNone then some (p.1, p.2.1 - p.1) else none)

/-- Some byte of `[pa, pa + n)` lies in one of the intervals. -/
def inside (l : List (Nat × Nat)) (pa n : Nat) : Bool := l.any (fun i => decide (i.1 < pa + n ∧ pa < i.2))

/-- Some byte of `[pa, pa + n)` lies in a privileged range of the context (R246): as the range translated when it was last taken, or in a part
that translated to nothing then and has become valid since, which needs no invalidation (R261). -/
def privileged (s : State) (c : Ctx) (pa n : Nat) : Bool := inside c.priv pa n || inside (physOf s c c.privGaps) pa n

/-- The same of the queue headers, which a program may load (R246). -/
def inHeader (s : State) (c : Ctx) (pa n : Nat) : Bool := inside c.hdrs pa n || inside (physOf s c c.hdrGaps) pa n

/-- The canonical form of a request (step 3 of R356). -/
def checkCanonical (r : MemReq) : Option MemFault :=
  if 2 ^ 57 ≤ r.va then some ⟨0x23, accFields r.acc r.loc false 0 0, r.va, 0, r.lane, false⟩ else none

/-- Translation, physical range, privileged range and rights of a request, in that order (step 4 of R356); `prog` for an access of the
program, which the privileged ranges refuse (R246). The answer is the physical address and the leaf. -/
def checkXlat (s : State) (lake : Option Nat) (c : Ctx) (prog : Bool) (r : MemReq) : Except MemFault (Nat × Leaf) :=
  match xlat s lake c r.va with
  | .error (cause, lvl, at_) =>
    .error ⟨cause, if cause = 0x82 then 0 else accFields r.acc r.loc (cause == 0x24) lvl 0 + bits at_ 12 40 * 2 ^ 24, r.va, lvl, r.lane,
      cause == 0x24⟩
  | .ok leaf =>
    let pa := ownAddr s (leaf.phys r.va)
    let page := bits pa 12 40 * 2 ^ 24
    if !populated s pa then
      .error ⟨0x28, accFields r.acc r.loc false leaf.level leaf.grants + page, r.va, leaf.level, r.lane, false⟩
    else if isPeer pa && s.host.lostModules.contains (moduleOf pa) && r.acc != .store &&
        !(r.acc == .load && leaf.cached && heldPeer s lake pa r.n) then
      .error ⟨0xA0, moduleOf pa + 2 ^ 16 * r.acc.code, r.va, leaf.level, r.lane, false⟩
    else if prog && privileged s c pa r.n && !(r.hdr && inHeader s c pa r.n) then
      .error ⟨0x27, accFields r.acc r.loc false leaf.level leaf.grants + page, r.va, leaf.level, r.lane, false⟩
    else if !covers leaf.grants r.acc.need then
      .error ⟨0x26, accFields r.acc r.loc true leaf.level leaf.grants, r.va, leaf.level, r.lane, true⟩
    else .ok (pa, leaf)

/-- The place of a cause in steps 3 and 4 of R356: the canonical form, those of the walk, the physical range, the privileged range and the
rights (log 61). A poisoned line that the access itself would read, which no level of a walk meets, comes last. -/
def MemFault.rank (f : MemFault) : Nat :=
  if f.cause = 0x82 ∧ f.level = 0 then 8 else (([0x23, 0x24, 0x25, 0x82, 0x28, 0xA0, 0x27, 0x26] : List Nat).idxOf? f.cause).getD 8

/-- The fault that decides of some, given in ascending lane (R356): the first fatal cause, in the lowest lane that meets it; only without one
a recoverable cause. -/
def firstFault (fs : List MemFault) : Option MemFault :=
  (sortBy MemFault.rank (fs.filter (fun f => !f.recover)) ++ sortBy MemFault.rank fs).head?

/-- The fault that decides step 4 of R356, from the answers in ascending lane. -/
def decidingFault (res : List (Except MemFault (Nat × Leaf))) : Option MemFault :=
  firstFault (res.filterMap (fun x => match x with | .error f => some f | .ok _ => none))

/-- The answers of step 4 of R356 without a fault. -/
def pasOf (res : List (Except MemFault (Nat × Leaf))) : List (Nat × Leaf) :=
  res.filterMap (fun x => match x with | .ok p => some p | .error _ => none)

/-- A recoverable cause that a word meets which cannot park is a trap, and parks nothing (R355). -/
def MemFault.final (f : MemFault) : MemFault :=
  if f.recover then { f with detail := f.detail - 128, recover := false } else f

/-- Steps 3 and 4 of R356 over the requests of a word, in ascending lane, by a translation of one request. -/
def checkBy (tr : MemReq → Except MemFault (Nat × Leaf)) (rs : List MemReq) : Except MemFault (List (Nat × Leaf)) :=
  match firstSome checkCanonical rs with
  | some f => .error f
  | none =>
    match decidingFault (rs.map tr) with
    | some f => .error f
    | none => .ok (pasOf (rs.map tr))

/-- Steps 3 and 4 of R356 over the requests of a word that a recoverable cause parks. -/
def checkMem (s : State) (lake : Option Nat) (c : Ctx) (prog : Bool) (rs : List MemReq) : Except MemFault (List (Nat × Leaf)) :=
  checkBy (checkXlat s lake c prog) rs

/-- Steps 3 and 4 of R356 over the requests of a word that every cause traps (R355): LAUNCH, SWAPC and ERET. -/
def checkFatal (s : State) (lake : Option Nat) (c : Ctx) (prog : Bool) (rs : List MemReq) : Except MemFault (List (Nat × Leaf)) :=
  checkBy (fun r => (checkXlat s lake c prog r).mapError MemFault.final) rs

/-- The lake's cache after the translations of a word (R261). -/
def fillAll (s : State) (lake ctxId : Nat) (ls : List (Nat × Leaf)) : State :=
  ls.foldl (fun s l => fillTlb s lake ctxId l.2) s

/-- A device-level access of the core or the device to its own areas, in pieces of 8 bytes (R339): the physical addresses, or the cause
that it meets. `w` for a write. -/
def areaPieces (s : State) (c : Ctx) (w : Bool) (priv : Bool) : Nat → Nat → Except Nat (List (Nat × Bool))
  | 0, _ => .ok []
  | k + 1, va =>
    match checkXlat s none c priv ⟨0, va, 8, if w then .store else .load, false, false⟩ with
    | .error f => .error f.cause
    | .ok (pa, leaf) =>
      if s.badLines.contains (lineOf pa) then .error 0x82 else
      match areaPieces s c w priv k (va + 8) with
      | .error e => .error e
      | .ok r => .ok ((pa, leaf.cached) :: r)

/-- The host lines that a context wrote are written back, as a release or fence at sy scope performs them (R254 item 6, R304). -/
def flushCtx (s : State) (ctxId : Nat) : State :=
  (s.hostLines.filter (fun h => h.dirty && h.ctxs.contains ctxId)).foldl (fun s h => writeBack s h.line false) s

/-- Bytes of a context's area read by the device through its page table (R280, R285): `n` bytes, a multiple of 8. -/
def areaRead (s : State) (c : Ctx) (va n : Nat) : Except Nat (List Byte) :=
  match areaPieces s c false false ((n + 7) / 8) va with
  | .error e => .error e
  | .ok ps => .ok ((ps.flatMap (fun p => memBytes s p.2 p.1 8)).take n)

/-- A word whose accesses and commands are all at home, and that no producer or matrix operation holds, has completed (R102, R190,
R196). -/
def sweepWord (s : State) (wid : Nat) : State :=
  if s.accs.any (fun y => y.wid == wid) || s.slices.any (fun y => y.wid == wid) || s.ops.any (fun o => o.wid == wid) ||
    s.copies.any (fun c => c.wid == wid) || s.mops.any (fun m => m.words.contains wid) then s
  else { s with incomplete := s.incomplete.filter (· != wid) }

/-- The bytes that an access at its slice writes. -/
def Access.stored (x : Access) : List Byte := match x.kind with | .store bs => bs | _ => []

/-- The lake of an access. -/
def Access.lake (x : Access) : Nat := Config.lakeOf x.orig.core
/-- The access reaches a byte of a space. -/
def Access.holds (x : Access) (sp : Space) (a : Nat) : Bool := x.space == sp && decide (x.addr ≤ a ∧ a < x.addr + x.n)
/-- The access only writes. -/
def Access.isStore (x : Access) : Bool := match x.kind with | .store _ => true | _ => false

/-- The newest of some stores on a byte of memory, with its number. -/
def storedAt (l : List Access) (a : Nat) : Option (Nat × Byte) :=
  l.foldl (fun r y => if y.isStore && y.holds .mem a then some (y.id, y.stored.getD (a - y.addr) 0) else r) none

/-- A byte as a lake holds it, with the write on its way home that it comes from (R254). -/
def lakeByte (s : State) (lake : Nat) (a : Nat) : Option Nat × Byte :=
  match storedAt (s.slices.filter (fun y => y.lake == lake)) a with
  | some (id, b) => (some id, b)
  | none => (none, homeByte s a)

/-- Bytes as a lake holds them. -/
def lakeBytes (s : State) (lake : Nat) (a : Nat) : Nat → List Byte
  | 0 => []
  | n + 1 => (lakeByte s lake a).2 :: lakeBytes s lake (a + 1) n

/-- The writes on their way home that bytes of a lake come from. -/
def lakeWrites (s : State) (lake : Nat) (a : Nat) : Nat → List Nat
  | 0 => []
  | n + 1 => (match (lakeByte s lake a).1 with | some i => [i] | none => []) ++ lakeWrites s lake (a + 1) n

/-- The units of `n` bytes at an address that some ranges leave whole, and the single bytes that they leave of the others, as offsets and lengths
(R269). -/
def leftUnits (gone : List (Nat × Nat)) (a : Nat) (us : List (Nat × Nat)) : List (Nat × Nat) :=
  us.flatMap (fun u => if !inside gone (a + u.1) u.2 then [u] else
    ((List.range u.2).filter (fun i => !inside gone (a + u.1 + i) 1)).map (fun i => (u.1 + i, 1)))

/-- The writes at slices to a line reach their home, before the device writes the line itself; those that no path reaches are lost at their
own time (R384). -/
def settleLine (s : State) (line : Nat) : State :=
  let ys := s.slices.filter (fun y => lineOf y.addr == line && !lostTo s y.addr)
  ys.foldl (fun s y => sweepWord (putHome { s with slices := s.slices.filter (fun z => z.id != y.id) } y.orig.ctx y.cached y.addr y.stored) y.wid) s

/-- A device's write of bytes within a line, which is lost where no path reaches it (R384, log 61). -/
def deviceWrite (s : State) (ctxId : Nat) (cached : Bool) (pa : Nat) (bs : List Byte) : State :=
  if lostTo s pa then s else homeWrite (settleLine s (lineOf pa)) ctxId cached pa bs

/-- Bytes written into a context's area by the device; nothing is written when any of it meets a fault (R339). `priv` when the
privileged ranges refuse it. -/
def areaWrite (s : State) (c : Ctx) (priv : Bool) (va : Nat) (bs : List Byte) : Except Nat State :=
  match areaPieces s c true priv ((bs.length + 7) / 8) va with
  | .error e => .error e
  | .ok ps => .ok ((ps.zip (chunks 8 ps.length bs)).foldl (fun s p => deviceWrite s c.rcd.id p.1.2 p.1.1 p.2) s)

/-- The host lines of an area written back, as a release at sy scope performs them at host memory (R254 item 6, R338). -/
def releaseArea (s : State) (c : Ctx) (priv : Bool) (va n : Nat) : State :=
  match areaPieces s c true priv ((n + 7) / 8) va with
  | .error _ => s
  | .ok ps => ps.foldl (fun s p => if p.2 then writeBack s (lineOf p.1) false else s) s

/-- A number read from an area, 0 where it cannot be read. -/
def areaNat (s : State) (c : Ctx) (va n : Nat) : Nat :=
  match areaRead s c va n with
  | .ok bs => leNat bs
  | .error _ => 0

/-- A number written into an area, where it can be written. -/
def areaPut (s : State) (c : Ctx) (va n v : Nat) : State :=
  match areaWrite s c false va (leBytes n v) with
  | .ok s => s
  | .error _ => s

end Sys2Proof.Machine
end

