-- ==== Sys2Proof/Machine/Ops.lean ====
section
/-! DEFINITION. The shared operations of an issue: where a word issues, fault records and the fault queue (22 R336 to R340), TAKING A
TRAP (12 R232, 22 R343), halting a block (24 R370 to R372), parking (23 R357, R358), finishing a word (R102, R226), splitting a
fragment (03 R49 to R51), and the return from a trap (12 R234). -/

namespace Sys2Proof.Machine

/-- Where a word issues: its fragment with all that contains it, and the fragment's threads in ascending lane. -/
structure Env where
  iss : Issue
  frag : Frag
  pool : Pool
  pond : Pond
  block : Block
  launch : Launch
  ctx : Ctx
  core : Nat
  threads : List Thread
  deriving DecidableEq, Repr

/-- The surroundings of a fragment that lives on a placed pond of a running context. -/
def envOf (s : State) (iss : Issue) : Option Env := do
  let f ← frag s iss.frag
  let p ← pool s f.pool
  let d ← pond s p.pond
  let core ← d.core
  let b ← block s d.blk
  let l ← launch s b.launch
  let c ← ctx s l.ctx
  some ⟨iss, f, p, d, b, l, c, core, fragThreads s f.ref⟩

/-- The guard passes in a thread (R108). -/
def guardPasses (g : Guard) (t : Thread) : Bool :=
  match g with
  | .always => true
  | .on p => t.preds.getLsbD p
  | .off p => !t.preds.getLsbD p

/-- `active(f)` of R38, in ascending lane. -/
def Env.active (e : Env) (g : Guard) : List Thread := e.threads.filter (guardPasses g)
/-- The lake of the core (R7). -/
def Env.lake (e : Env) : Nat := Config.lakeOf e.core
/-- The address of the word. -/
def Env.pc (e : Env) : Nat := e.frag.pc
/-- The fragment is in handler mode (R232). -/
def Env.handling (e : Env) : Bool := e.threads.any Thread.handler
/-- The kernel runs in still mode (R290). -/
def Env.still (e : Env) : Bool := e.launch.kernel.still
/-- The context names a handler (R232, R280). -/
def Ctx.hasHandler (c : Ctx) : Bool := c.rcd.handler != 0 && c.rcd.hextent != 0
/-- The code base in force for the fragment (R232). -/
def Env.codeBase (e : Env) : Nat := if e.handling then e.ctx.rcd.handler else e.launch.kernel.code
/-- The code extent in force for the fragment (R232). -/
def Env.extent (e : Env) : Nat := if e.handling then e.ctx.rcd.hextent else e.launch.kernel.extent
/-- The halt broadcast of the block has reached the core (R371). -/
def Env.reached (e : Env) : Bool := e.block.reached.contains e.core
/-- A target is valid in a code range (R125). -/
def validIn (base extent target : Nat) : Bool := target % 16 == 0 && decide (base ≤ target ∧ target < base + extent)
/-- A branch target is valid for the fragment (R125, R232). -/
def Env.valid (e : Env) (target : Nat) : Bool := validIn e.codeBase e.extent target

/-- A translation installed for the context covers the address (R117). -/
def covered (c : Ctx) (a : Nat) : Bool := c.transl.any (fun t => decide (t.lo ≤ a ∧ a < t.hi))
/-- The address is a safe point of a translation that covers it (R117). -/
def safePoint (c : Ctx) (a : Nat) : Bool := c.transl.any (fun t => decide (t.lo ≤ a ∧ a < t.hi) && t.safe.contains a)
/-- Whether a fragment runs translated code at an address it comes to (R117): it stays in a translation that covers it, and enters one
at a safe point, which the code makes one or, with `safe`, the word that leads there. -/
def arrive (c : Ctx) (was safe : Bool) (a : Nat) : Bool := covered c a && (was || safe || safePoint c a)

/-- A trap of a word: its cause and DETAIL (R341, R354), its address and the lowest failing lane. -/
structure Trap where
  cause : Nat
  detail : Nat
  addr : Option Nat
  lane : Nat
  deriving DecidableEq, Repr

/-- How the body of a word ends: performed, trapped, parked on a recoverable fault, or not ready to issue. -/
inductive Res where
  | ok (s : State)
  | trap (t : Trap)
  | park (f : MemFault)
  | wait
  deriving DecidableEq, Repr

/-- The trap or the parking that a memory fault gives (R355). -/
def MemFault.res (f : MemFault) : Res :=
  if f.recover then .park f else .trap ⟨f.cause, f.detail, some f.addr, f.lane⟩

/-- The 64 bytes of a record as a number, with SEQ 0 and V set (R337). -/
def Rec.raw (r : Rec) : Nat :=
  r.cause % 2 ^ 8 + 2 ^ 8 * r.defer.toNat + 2 ^ 10 * r.addr.isSome.toNat + 2 ^ 11 * r.halt.toNat + 2 ^ 12 * r.transl.toNat
    + 2 ^ 13 * r.opY.toNat + 2 ^ 14 * r.handler.toNat + 2 ^ 15 + 2 ^ 128 * (r.core % 2 ^ 8) + 2 ^ 176 * (r.ctx % 2 ^ 16)
    + 2 ^ 192 * (r.bx % 2 ^ 32) + 2 ^ 224 * (r.byy % 2 ^ 16) + 2 ^ 240 * (r.bz % 2 ^ 16) + 2 ^ 256 * (r.lane % 2 ^ 7)
    + 2 ^ 266 * (r.pool % 2 ^ 6) + 2 ^ 274 * (r.frag % 2 ^ 7) + 2 ^ 281 * (r.parent % 2 ^ 7) + 2 ^ 288 * (r.sibs % 2 ^ 16)
    + 2 ^ 304 * (r.skid % 2 ^ 16) + 2 ^ 320 * (r.pc % 2 ^ 64) + 2 ^ 384 * (r.addr.getD 0 % 2 ^ 64) + 2 ^ 448 * (r.detail % 2 ^ 64)

/-- The fragment's word runs as translated code (R117, R337). -/
def Env.inTransl (e : Env) : Bool := e.frag.transl && !e.handling && covered e.ctx e.frag.pc

/-- The record of a fragment's stop (R337). -/
def Env.rcd (e : Env) (cause detail : Nat) (addr : Option Nat) (pc skid lane : Nat) (opY halt defer : Bool) : Rec where
  cause := cause
  detail := detail
  addr := addr
  pc := pc
  skid := skid
  sibs := e.frag.sibs
  parent := e.frag.parent
  frag := e.frag.id
  pool := e.pool.num
  lane := lane
  bx := e.block.bx
  byy := e.block.byy
  bz := e.block.bz
  ctx := e.ctx.rcd.id
  core := e.core
  handler := e.handling
  opY := opY
  transl := e.inTransl
  halt := halt
  defer := defer

/-- An MSI-X vector raised (R338). -/
def raiseMsix (s : State) (v : Nat) : State := { s with host := { s.host with msix := s.host.msix ++ [v] } }

/-- The block halts: its first event starts the broadcast, whose arrivals are events of their own (R370, R371). -/
def haltBlock (s : State) (b causeSeq : Nat) : State :=
  updBlock s b (fun x => if x.halt.isSome then x else { x with halt := some causeSeq })

/-- The word under way as one that holds its fragment. -/
def Env.waiter (e : Env) : Waiter := ⟨e.frag.hist, e.frag.older, e.inTransl, e.core, e.frag.pc, e.iss.wid⟩

/-- The word under way as the origin of what it starts (R361). -/
def Env.origin (e : Env) (lane : Nat) : Origin :=
  ⟨e.ctx.rcd.id, e.core, e.block.id, e.pool.num, e.frag.ref, e.frag.parent, e.frag.sibs, lane, e.frag.pc, e.frag.count + 1, e.core, e.pond.id, e.inTransl⟩

/-- The slot of record `n` of a fault queue (R338). -/
def fqSlot (c : Ctx) (n : Nat) : Nat := c.rcd.fqBase + 64 * (n % 2 ^ (min 16 (max 4 c.rcd.fqLog2)))

/-- A fault-queue write that met a fault (R339): every block of the context halts, FQERR is set and the vector raised. -/
def fqFail (s : State) (c : Ctx) (va cause : Nat) : State :=
  let mine (b : Block) : Bool := (launch s b.launch).any (fun l => l.ctx == c.rcd.id)
  let stop (x : Block) : Block := if x.halt.isSome then x else { x with halt := some c.seq }
  let s := { s with blocks := updWhere mine stop s.blocks }
  raiseMsix (updCtx s c.rcd.id (fun x => { x with
    stalled := true, fqErr := BitVec.ofNat 64 (va / 4096 * 4096 + 256 + cause) })) (c.rcd.id % 64)

/-- One record written to the queue of a context as it stands, as one release at sy scope (R338), or the state in which it is held. -/
def queueOne (s : State) (c : Ctx) (raw : BitVec 512) : State × Bool :=
  let va := fqSlot c c.seq
  match areaRead s c va 8 with
  | .error cause => (fqFail s c va cause, false)
  | .ok bs =>
    if (leNat bs).testBit 15 then (s, false) else
    match areaWrite s c true va (leBytes 64 (raw.toNat + 2 ^ 64 * (c.seq % 2 ^ 64))) with
    | .error cause => (fqFail s c va cause, false)
    | .ok s => (raiseMsix (updCtx (releaseArea s c true va 64) c.rcd.id (fun x => { x with seq := x.seq + 1 })) (c.rcd.id % 64), true)

/-- A record that goes to the fault queue of its context: written, or held behind those that are held already (R338). `fr` is the fragment
that stays stopped as long as the record is held. -/
def queueRecord (s : State) (ctxId : Nat) (r : Rec) (fr : Option FRef := none) : State :=
  match ctx s ctxId with
  | none => s
  | some c =>
    let raw := BitVec.ofNat 512 r.raw
    let hold (s : State) := updCtx s ctxId (fun x => { x with held := x.held ++ [⟨raw, fr⟩] })
    if !c.held.isEmpty || c.stalled then hold s else
    match queueOne s c raw with
    | (s, true) => s
    | (s, false) => hold s

/-- A block has ended (R286, R294): its last thread has exited, and in still mode the round in which it did has committed. -/
def blockOver (s : State) (b : Block) : Bool :=
  (blockThreads s b.id).isEmpty && ((launch s b.launch).all (fun l => !l.kernel.still) || b.ended)

/-- The record of an engine's operation (R361); one whose block has ended names no fragment (R369). -/
def engineRec (s : State) (o : Origin) (cause detail : Nat) (addr : Option Nat) : Rec :=
  match (block s o.blk).filter (fun b => !blockOver s b) with
  | some b => { cause := cause, detail := detail, addr := addr, pc := o.pc, sibs := o.sibs, parent := o.parent, frag := o.frag.id,
                pool := o.pool, lane := o.lane, bx := b.bx, byy := b.byy, bz := b.bz, ctx := o.ctx, core := o.issued, transl := o.transl }
  | none => { cause := cause, detail := detail, addr := addr, ctx := o.ctx, core := o.issued }

/-- The held records of a context written in order, as far as the queue takes them (R338). -/
def flushHeld (ctxId : Nat) : Nat → State → State
  | 0, s => s
  | fuel + 1, s =>
    match ctx s ctxId with
    | none => s
    | some c => match c.held with
      | [] => s
      | r :: rest => match queueOne s c r.raw with
        | (s, true) => flushHeld ctxId fuel (updCtx s ctxId (fun x => { x with held := rest }))
        | (s, false) => s

/-- The SEQ that the next record of a context will take (R338). -/
def nextSeq (s : State) (ctxId : Nat) : Nat := match ctx s ctxId with | some c => c.seq + c.held.length | none => 0

/-- An engine record of a fatal cause: it is queued and the issuing block halts (R355, R361, R370). -/
def engineFatal (s : State) (o : Origin) (cause detail : Nat) (addr : Option Nat) : State :=
  let seq := nextSeq s o.ctx
  haltBlock (queueRecord s o.ctx (engineRec s o cause detail addr)) o.blk seq

/-- The address of the trap frame of the fragment's pool (R232). -/
def Env.frame (e : Env) : Nat := e.ctx.rcd.harea + ((4 * e.block.slot + e.pond.idx) * 64 + e.pool.recNo) * 2176

/-- A thread of the pool is in handler mode: the frame is in use (R232, R234). -/
def frameBusy (s : State) (p : Nat) : Bool := (poolThreads s p).any Thread.handler

/-- The buffered stores of a block's threads leave bytes to a later write that the device performs at once (R185). -/
def cutBuffer (s : State) (b : Nat) (who : TRef → Bool) (pa n : Nat) : State :=
  updBlock s b (fun b => { b with buffer := b.buffer.map (fun x => if who x.t then { x with cut := x.cut ++ [(pa, pa + n)] } else x) })

/-- Bytes of a trap frame written, which its block then reads as they are, whatever its round buffer holds of an earlier frame (R233). -/
def framePut (s : State) (e : Env) (va : Nat) (bs : List Byte) : Except Nat State :=
  match areaPieces s e.ctx true true ((bs.length + 7) / 8) va, areaWrite s e.ctx true va bs with
  | .ok ps, .ok s => .ok (ps.foldl (fun s p => cutBuffer s e.block.id (fun _ => true) p.1 8) s)
  | .error c, _ | _, .error c => .error c

/-- The frame of a trap written (R233): RECORD, MASK, and PC and SAVEW of the fragment's lanes. -/
def writeFrame (s : State) (e : Env) (r : Rec) (resume : Nat) : Except Nat State :=
  match areaPieces s e.ctx true true 272 e.frame with
  | .error c => .error c
  | .ok _ =>
    let mask := e.threads.foldl (fun m t => m + 2 ^ t.lane) 0
    let head := leBytes 64 (r.raw + 2 ^ 64 * (e.ctx.seq % 2 ^ 64)) ++ leBytes 16 mask ++ leBytes 16 0
    let lane (s : State) (t : Thread) : Except Nat State :=
      let w0 := pairWord (resolve (some e.pool) e.pond t 1 .res) (resolve (some e.pool) e.pond t 0 .res)
      match framePut s e (e.frame + 96 + 8 * t.lane) (leBytes 8 resume) with
      | .error c => .error c
      | .ok s => framePut s e (e.frame + 1120 + 8 * t.lane) (leBytes 8 w0.toNat)
    match framePut s e e.frame head with
    | .error c => .error c
    | .ok s => e.threads.foldl (fun r t => match r with | .error c => .error c | .ok s => lane s t) (.ok s)

/-- The fragment enters handler mode (R232): its threads' w0 holds the frame address, and it continues at the handler. -/
def enterHandler (s : State) (e : Env) (opY : Bool) (pc : Nat) : State :=
  let a := BitVec.ofNat 64 e.frame
  let s := updThreads s (fun t => t.inFrag e.frag.ref) (fun t =>
    { ((((t.overtake 0 none).overtake 1 none).setSpring 0 (loWord a)).setSpring 1 (hiWord a)) with handler := true })
  let s := updPool s e.pool.id (fun p => { p with opY := if opY then some pc else none })
  let s := updCtx s e.ctx.rcd.id (fun c => { c with seq := c.seq + 1 })
  updFrag s e.frag.ref (fun f => { f with pc := e.ctx.rcd.handler, hold := .free, yOnly := false, transl := false, deferred := none })

/-- A trap without a handler (R336, R343, R370): the record is queued, the fragment stops at the address at which it resumes, and its block
halts. -/
def stopAtTrap (s : State) (e : Env) (r : Rec) (resume : Nat) : State :=
  let seq := nextSeq s e.ctx.rcd.id
  let s := queueRecord s e.ctx.rcd.id r (some e.frag.ref)
  let s := updFrag s e.frag.ref (fun f => { f with pc := resume, hold := .faulted, deferred := none })
  haltBlock s e.block.id seq

/-- A trap delivered (R232, R336, R339, R353, R375): `r` its record and `resume` where the frame resumes the fragment. -/
def deliver (s : State) (e : Env) (r : Rec) (resume : Nat) : State :=
  if !e.ctx.hasHandler || e.handling || e.reached then stopAtTrap s e r resume
  else if frameBusy s e.pool.id then updFrag s e.frag.ref (fun f => { f with hold := .frame r resume, deferred := none })
  else match writeFrame s e r resume with
    | .ok s => enterHandler s e r.opY r.pc
    | .error cause =>
      let s := stopAtTrap s e r resume
      queueRecord s e.ctx.rcd.id (e.rcd 0x2A cause (some e.frame) e.pc (if e.reached then e.frag.skid else 0) r.lane false false false)
        (some e.frag.ref)

/-- TAKING A TRAP of a word (R232, R336, R343): the frame resumes at the word, or behind it after TRAP (cause 0x0E). -/
def takeTrap (s : State) (e : Env) (t : Trap) : State :=
  let opY := e.iss.part == .pairY
  deliver s e (e.rcd t.cause t.detail t.addr e.pc (if e.reached then e.frag.skid else 0) t.lane opY false false)
    (if t.cause = 0x0E then e.pc + 16 else e.pc)

/-- The trap that waits for a fragment: its own, or the one of its lowest thread that has one (R351). -/
def Env.waiting (e : Env) : Option Defer := e.frag.deferred.or (firstSome (fun t => t.deferred.head?.map (fun d => { d with lane := t.lane })) e.threads)

/-- A waiting trap is delivered at a word boundary of its fragment (R351, R353, R364), once for all its threads that wait for it. -/
def takeDeferred (s : State) (e : Env) (d : Defer) : State :=
  let skid := if d.late then e.frag.count - d.count else if e.reached then e.frag.skid else 0
  let same (x : Defer) : Bool := x.cause == d.cause && x.detail == d.detail && x.pc == d.pc
  let s := deliver s e { e.rcd d.cause d.detail d.addr d.pc skid d.lane false false d.late with transl := d.transl, core := d.core } e.pc
  updThreads s (fun t => e.threads.any (fun u => u.ref == t.ref)) (fun t => { t with deferred := t.deferred.filter (fun x => !same x) })

/-- The 64 KiB page of an address (R358). -/
def pageOf (va : Nat) : Nat := va / 65536

/-- A parked record of a context, suppressed while the page stands in the outstanding-page table (R357, R358). -/
def reportParked (s : State) (ctxId page : Nat) (r : Rec) (again : Bool) (fr : Option FRef := none) : State :=
  match ctx s ctxId with
  | none => s
  | some c =>
    if again || c.pages.contains page then s else
    let s := queueRecord s ctxId r fr
    if c.pages.length < 64 then updCtx s ctxId (fun x => { x with pages := x.pages ++ [page] }) else s

/-- The pools of a context that live on a core, and those of them that hold a parked fragment (R298, R357). -/
def parkedShare (s : State) (ctxId core : Nat) : Nat × Nat :=
  let mine := s.pools.filter (fun p => (pond s p.pond).any (fun d => d.core == some core &&
    (block s d.blk).any (fun b => (launch s b.launch).any (fun l => l.ctx == ctxId))))
  ((mine.filter (fun p => s.frags.any (fun f => f.pool == p.id && (match f.hold with | .parked .. => true | _ => false)))).length,
    mine.length)

/-- The word meets a recoverable fault: its fragment parks (R357), and the core may ask the runtime to switch the context out
(R298). -/
def park (s : State) (e : Env) (f : MemFault) : State :=
  let page := pageOf f.addr
  let again := match e.frag.hold with | .parked p _ => p == page | _ => false
  let s := reportParked s e.ctx.rcd.id page
    (e.rcd f.cause f.detail (some f.addr) e.pc 0 f.lane (e.iss.part == .pairY) false false) again (some e.frag.ref)
  let s := updFrag s e.frag.ref (fun x => { x with hold := .parked page false })
  let (p, v) := parkedShare s e.ctx.rcd.id e.core
  if e.ctx.rcd.park * v < 64 * p then updCtx s e.ctx.rcd.id (fun c => { c with switchAsked := true }) else s

/-- The word history with one more word (R102). -/
def Frag.push (f : Frag) (wid : Nat) (incomplete : List Nat) : Frag :=
  let out := (f.hist.drop 62).filter (fun w => incomplete.contains w)
  { f with hist := (wid :: f.hist).take 63, older := out ++ f.older.filter (fun w => incomplete.contains w) }

/-- A word that held its fragment on a fault holds it no more once it issues (R359). -/
def Hold.issued : Hold → Hold
  | .parked .. => .free
  | h => h

/-- The place of a context's %hintmiss on a core. -/
def hintKey (ctxId core : Nat) : Nat := 128 * ctxId + core

/-- A scheduled word may have issued later than its scheduling field asked, and counts then (R106, log 7); the count stops at its ceiling. -/
def countHint (s : State) (ctxId core : Nat) : State :=
  { s with
    free := s.free + 1
    hints := mapUpd s.hints (hintKey ctxId core) 0 (fun n => min 0xFFFFFFFF (n + (Config.delayed s.free).toNat)) }

/-- The word is incomplete until an event completes it (R102). -/
def begin_ (s : State) (e : Env) : State := { s with incomplete := s.incomplete ++ [e.iss.wid] }

/-- A word has completed (R102). -/
def completeWord (s : State) (wid : Nat) : State := { s with incomplete := s.incomplete.filter (· != wid) }

/-- The fragment stands before a word that has held it (R343, R364, R377): it has not issued it. -/
def takeBack (s : State) (r : FRef) (w : Waiter) : State :=
  let s := updThreads s (fun t => t.inFrag r) (fun t => { t with retired := t.retired - 1 })
  completeWord (updFrag s r (fun x => { x with
    hist := w.hist
    older := w.older
    pc := w.pc
    pace := 0
    transl := w.transl
    count := x.count - 1
    skid := x.skid - 1
    hold := .free })) w.wid

/-- The fragments of a pool without threads end, and the pool ends with its last thread (R48, R129). -/
def sweepPool (s : State) (p : Nat) : State :=
  let s := { s with frags := s.frags.filter (fun f => f.pool != p || s.threads.any (fun t => t.inFrag f.ref)) }
  if (poolThreads s p).isEmpty then { s with pools := s.pools.filter (fun x => x.id != p) } else s

/-- The surroundings of a fragment outside a word of its own. -/
def envOfFrag (s : State) (r : FRef) : Option Env := envOf s ⟨r, 0, .single, schedOf 0⟩

/-- A device's store of the word under way (R235, R237), in whose line the lake then holds the only copy (R254 items 2 and 5), or its loss with a
record where no path reaches its module (R384). In a still kernel it comes behind the thread's buffered stores. -/
def Env.deviceStore (e : Env) (s : State) (t : Thread) (cached : Bool) (pa : Nat) (bs : List Byte) : State :=
  if lostTo s pa then engineFatal s (e.origin t.lane) 0xA0 (moduleOf pa + 2 ^ 16) none
  else deviceWrite (cutBuffer (if cached then ownPeer s e.lake pa else s) e.block.id (· == t.ref) pa bs.length) e.ctx.rcd.id cached pa bs

/-- What held a fragment holds it no more. One that the halt broadcast has reached meanwhile stops where it is (R371). -/
def release (s : State) (r : FRef) : State :=
  let reached := (envOfFrag s r).any Env.reached
  updFrag s r (fun f => { f with hold := .free, stopped := f.stopped || reached })

/-- The trap of a fragment that waits for the trap frame is delivered (R353). -/
def deliverFramed (s : State) (r : FRef) : State :=
  match envOfFrag s r with
  | none => s
  | some e => match e.frag.hold with
    | .frame x resume => if e.frag.stopped then s else deliver s e x resume
    | _ => s

/-- The fragments of a pool that waited for its trap frame have their traps delivered once it is free, one at a time (R232, R353). -/
def freeFrame (s : State) (p : Nat) : State :=
  if frameBusy s p then s
  else ((sortBy Frag.id (s.frags.filter (fun f => f.pool == p))).map Frag.ref).foldl deliverFramed s

/-- The threads of a fragment by their next address, in ascending order of lowest lane (R49). -/
def groupBy (dest : List (TRef × Nat)) : List (Nat × List TRef) :=
  (distinct (dest.map Prod.snd)).map (fun a => (a, (dest.filter (fun p => p.2 == a)).map Prod.fst))

/-- The most fragments that a split makes (R49). -/
def splitMax : Nat := 16

/-- The threads that a split leaves on its word, when it names more than sixteen addresses (R49). -/
def leftOver (dest : List (TRef × Nat)) : List TRef :=
  let gs := groupBy dest
  if gs.length ≤ splitMax then [] else (gs.drop (splitMax - 1)).flatMap Prod.snd

/-- A group of a split: its address, whether the branch names that address, and its threads. -/
structure SplitGroup where
  addr : Nat
  named : Bool
  ts : List TRef
  deriving DecidableEq, Repr

/-- The groups of a split of the word at `pc`, in ascending order of lowest lane (R49, R126). `dest` holds every thread of the fragment in
ascending lane, with the address that the word names for it. Each named address has a group, and the threads without one go to the next word:
with `apart` as a group of their own (BRA), else with one that is named there. Of more than sixteen named addresses fifteen have a group, and all
other threads stay on the word (log 50). -/
def splitGroups (pc : Nat) (apart : Bool) (dest : List (TRef × Option Nat)) : List SplitGroup :=
  let named := dest.filterMap (fun d => d.2.map (fun a => (d.1, a)))
  let left := leftOver named
  let key (d : TRef × Option Nat) : Nat × Nat := match d.2 with
    | some a => if left.contains d.1 then (1, pc) else (0, a)
    | none => if !left.isEmpty then (1, pc) else if !apart && (named.map Prod.snd).contains (pc + 16) then (0, pc + 16) else (2, pc + 16)
  (distinct (dest.map key)).map (fun k => ⟨k.2, k.1 == 0, (dest.filter (fun d => key d == k)).map Prod.fst⟩)

/-- The `i`-th child of a split (R50, R51): identifier, sibling mask and address of its own, the rest its parent's. -/
def Frag.child (f : Frag) (parent sibs id pc : Nat) (transl : Bool) : Frag :=
  { f with id := id, parent := parent, sibs := sibs, pc := pc, transl := transl }

/-- The sibling mask of the `i`-th child of a split (R50); the sixteen bits have none for a seventeenth (log 50). -/
def sibMask (s : State) (i : Nat) : State × Nat :=
  if i < splitMax then (s, 2 ^ i) else ({ s with free := s.free + 1 }, Config.freeCell s.free i % 2 ^ 16)

/-- The children of a split, given identifiers in turn (R50). `tr` says where translated code runs. -/
def addChildren (tr : Bool → Nat → Bool) (f : Frag) : Nat → List SplitGroup → State → State
  | _, [], s => s
  | i, g :: r, s =>
    let used := (s.frags.filter (fun x => x.pool == f.pool)).map Frag.id
    let id := (lowestFree used 129 0).getD 0
    let (s, sibs) := sibMask s i
    let s := { s with frags := s.frags ++ [f.child f.id sibs id g.addr (tr g.named g.addr)] }
    let s := updThreads s (fun t => g.ts.contains t.ref) (fun t => { t with place := .lane f.pool id t.lane })
    addChildren tr f (i + 1) r s

/-- The fragment's threads go to their next addresses; it splits when they disagree (R49 to R51). `dest` holds every thread of the
fragment in ascending lane, `pc` is the address of the word, `apart` is set for BRA and CALL, and `tr` says where translated code runs. -/
def splitTo (s : State) (r : FRef) (pc : Nat) (apart : Bool) (tr : Bool → Nat → Bool) (dest : List (TRef × Option Nat)) : State :=
  match frag s r with
  | none => s
  | some f =>
    match splitGroups pc apart dest with
    | [] => s
    | [g] => updFrag s r (fun x => { x with pc := g.addr, transl := tr g.named g.addr })
    | gs => addChildren tr f 0 gs { s with frags := s.frags.filter (fun x => x.ref != r) }

/-- A thread filed in a well of its pond (R44), after the materialisation of R77; it loses its pool-barrier record (R193) and its
handler mode. -/
def fileThread (p : Pool) (kind : WellKind) (key : Nat) (t : Thread) : Thread :=
  { t.materialise p with
    place := .well kind key, handler := false
    bars := t.bars.filter (fun b => b.1 != .pool p.id) }

/-- What a trap frame gives a thread at its return: the thread, SAVEW, PC and MASK bit (R233). -/
structure FrameLane where
  t : TRef
  savew : DWord
  pc : Nat
  mask : Bool
  deriving DecidableEq, Repr

/-- A thread leaves handler mode with the w0 that its frame holds, as spring writes (R234). -/
def Thread.leaveHandler (t : Thread) (w : DWord) : Thread :=
  { ((((t.overtake 0 none).overtake 1 none).setSpring 0 (loWord w)).setSpring 1 (hiWord w)) with handler := false }

/-- THE RETURN FROM A TRAP (R234, R344): `lanes` holds what the frame gives each thread of the fragment, in ascending lane. Threads
whose MASK bit is clear are filed, the others go to their addresses as BRX sends them, and those that a split leaves on the word stay
in handler mode. -/
def returnFromTrap (s : State) (e : Env) (lanes : List FrameLane) : State :=
  let stay := (lanes.filter FrameLane.mask).map (fun l => (l.t, l.pc))
  let left := leftOver stay
  let look (t : Thread) : Option FrameLane := lanes.find? (fun l => l.t == t.ref && !left.contains l.t)
  let s := updThreads s (fun t => (look t).isSome) (fun t => match look t with | some l => t.leaveHandler l.savew | none => t)
  let pool' := (pool s e.pool.id).getD e.pool
  let s := updThreads s (fun t => match look t with | some l => !l.mask | none => false)
    (fun t => match look t with | some l => fileThread pool' .reform l.pc t | none => t)
  let s := splitTo s e.frag.ref e.pc false (fun _ a => arrive e.ctx false false a) (stay.map (fun d => (d.1, some d.2)))
  let half (f : Frag) : Bool := pool'.opY == some f.pc &&
    s.threads.any (fun t => t.inFrag f.ref && !t.handler && stay.any (fun d => d.1 == t.ref))
  let s := { s with frags := updWhere half (fun f => { f with yOnly := true }) s.frags }
  freeFrame (sweepPool s e.pool.id) e.pool.id

end Sys2Proof.Machine
end

