-- ==== Sys2Proof/Machine/Operands.lean ====
section
/-! DEFINITION. Every operand form (07 R123, 08 R155, 09 R170, 10 R179 to R182): what an operation names, the checks that depend on the word
only (22 R342 checks 2 and 3, R346, R347), readiness and empty operands (R61, R103, R348), and the reading of a source. -/

namespace Sys2Proof.Machine

/-- An operand as the checks see it: its field (R341), code, registers, alignment, and for a source its tag and block bit. `multi` for a
range of more than one unit (R155). -/
structure Opnd where
  field : Nat
  code : Nat
  n : Nat
  al : Nat
  dst : Bool
  tag : STag
  blk : Bool
  multi : Bool
  deriving DecidableEq, Repr

/-- The rank tag that a source reads under. -/
def srcTag : Src → STag
  | .reg _ t _ => t
  | _ => .res
/-- The block bit of a source. -/
def srcBlk : Src → Bool
  | .reg _ _ b => b
  | _ => false
/-- A destination of `n` registers from a multiple of `al`. -/
def dOp (d : Dst) (n al : Nat) : Opnd := ⟨0, d.code, n, al, true, .res, false, false⟩
/-- A source of `n` registers from a multiple of `al`. -/
def sOp (field : Nat) (s : Src) (n al : Nat) : Opnd := ⟨field, s.code, n, al, false, srcTag s, srcBlk s, false⟩
/-- A destination of an integer operation (R123). -/
def dW (w : Bool) (d : Dst) : Opnd := if w then dOp d 2 2 else dOp d 1 1
/-- A source of an integer operation (R123). -/
def sW (w : Bool) (field : Nat) (s : Src) : Opnd := if w then sOp field s 2 2 else sOp field s 1 1

/-- Elements in a register of a format (R148). -/
def fmtElems : Fmt → Nat
  | .f32 => 1 | .f16x2 | .bf16x2 => 2 | .e4m3x4 | .e5m2x4 => 4
/-- Elements in a unit of an integer kind (R157, R158). -/
def kindElems : IKind → Nat
  | .i32 | .i64 => 1 | .i16x2 => 2 | .i8x4 => 4
/-- Registers in a unit of an integer kind (R155). -/
def kindRegs : IKind → Nat
  | .i64 => 2 | _ => 1

/-- The source and destination ranges of a conversion from units of `ns` elements and `us` registers to units of `nd` and `ud` (R155). -/
def convOps (ns us nd ud : Nat) (d : Dst) (a : Src) : List Opnd :=
  let k := max ns nd
  [{ dOp d (k / nd * ud) ud with multi := decide (1 < k / nd) }, { sOp 1 a (k / ns * us) us with multi := decide (1 < k / ns) }]

/-- The source of a reduction (R164). -/
def redWide (r : RMod) : Bool := r.ty == .i64

/-- The operands of an operation (R123, R155, R164, R170 to R177, R181, R188, R195, R199, R204, R224). `q` says that a modular operation works at
slot width 64 (R170). -/
def opnds (q : Bool) : Instr → List Opnd
  | .brx _ a | .callx _ a => [sOp 1 a 1 1]
  | .mov _ w _ d a _ => [dW w d, sW w 1 a]
  | .movi _ w _ d _ => [dW w d]
  | .movh _ d a b _ => [dOp d 1 1, sOp 1 a 1 1, sOp 2 b 1 1]
  | .sel _ w _ d a b _ => [dW w d, sW w 1 a, sW w 2 b]
  | .iadd _ m d a b _ | .isub _ m d a b _ | .imul _ m d a b _ => [dW m.w d, sW m.w 1 a, sW m.w 2 b]
  | .iaddc _ w d a b _ _ | .isubb _ w d a b _ _ => [dW w d, sW w 1 a, sW w 2 b]
  | .imulh _ w _ d a b _ | .imin _ w _ d a b _ | .imax _ w _ d a b _ | .idiff _ w _ d a b _ => [dW w d, sW w 1 a, sW w 2 b]
  | .imad _ m d a b c _ => [dW m.w d, sW m.w 1 a, sW m.w 2 b, sW m.w 3 c]
  | .imadw _ _ _ d a b c _ => [dOp d 2 2, sOp 1 a 1 1, sOp 2 b 1 1, sOp 3 c 2 2]
  | .iabs _ w _ d a _ => [dW w d, sW w 1 a]
  | .ineg _ m d a _ => [dW m.w d, sW m.w 1 a]
  | .icmp _ w _ _ _ a b => [sW w 1 a, sW w 2 b]
  | .iset _ w _ _ d a b => [dW w d, sW w 1 a, sW w 2 b]
  | .and _ w d a b _ | .or _ w d a b _ | .xor _ w d a b _ => [dW w d, sW w 1 a, sW w 2 b]
  | .not _ w d a _ | .brev _ w d a _ => [dW w d, sW w 1 a]
  | .popc _ w d a _ | .clz _ w d a _ | .ctz _ w d a _ => [dOp d 1 1, sW w 1 a]
  | .tlog _ w d a b c _ => [dW w d, sW w 1 a, sW w 2 b, sW w 3 c]
  | .shl _ w d a b _ | .shr _ w d a b _ | .sar _ w d a b _ | .rot _ w d a b _ => [dW w d, sW w 1 a, sOp 2 b 1 1]
  | .fshl _ d a b c _ | .fshr _ d a b c _ | .bytep _ d a b c _ => [dOp d 1 1, sOp 1 a 1 1, sOp 2 b 1 1, sOp 3 c 1 1]
  | .bfx _ w _ d a b _ => [dW w d, sW w 1 a, sOp 2 b 1 1]
  | .bfi _ w d a b c _ => [dW w d, sW w 1 a, sOp 2 b 1 1, sW w 3 c]
  | .lea _ _ d a b c _ => [dOp d 2 2, sOp 1 a 2 2, sOp 2 b 1 1, sOp 3 c 1 1]
  | .pset _ _ a b _ => [sOp 1 a 1 1, sOp 2 b 1 1]
  | .pget _ _ d => [dOp d 1 1]
  | .fadd _ _ d a b | .fsub _ _ d a b | .fmul _ _ d a b | .fdiv _ _ d a b | .fscale _ _ d a b =>
    [dOp d 1 1, sOp 1 a 1 1, sOp 2 b 1 1]
  | .ffma _ _ d a b c => [dOp d 1 1, sOp 1 a 1 1, sOp 2 b 1 1, sOp 3 c 1 1]
  | .fmin _ _ _ d a b | .fmax _ _ _ d a b => [dOp d 1 1, sOp 1 a 1 1, sOp 2 b 1 1]
  | .fcmp _ _ _ _ _ d a b => [dOp d 1 1, sOp 1 a 1 1, sOp 2 b 1 1]
  | .fclass _ _ _ _ d a => [dOp d 1 1, sOp 1 a 1 1]
  | .fsqrt _ _ d a | .frcp _ _ d a | .frsq _ _ d a | .fexp2 _ _ d a | .flog2 _ _ d a | .fsin _ _ d a | .fcos _ _ d a
  | .ftanh _ _ d a => [dOp d 1 1, sOp 1 a 1 1]
  | .frnd _ _ _ _ d a => [dOp d 1 1, sOp 1 a 1 1]
  | .fcvt _ m sfmt d a => convOps (fmtElems sfmt) 1 (fmtElems m.fmt) 1 d a
  | .icvt _ m kind _ d a => convOps (kindElems kind) (kindRegs kind) (fmtElems m.fmt) 1 d a
  | .fcvti _ kind _ sfmt _ _ d a => convOps (fmtElems sfmt) 1 (kindElems kind) (kindRegs kind) d a
  | .kdec _ m kb4 d a b => convOps (if kb4 then 8 else 4) 1 (fmtElems m.fmt) 1 d a ++ [sOp 2 b 1 1]
  | .xshf _ _ rel d a b c =>
    [dOp d 1 1, sOp 1 a 1 1] ++ (if rel.isSome then [{ sOp 2 b 1 1 with dst := true }] else [sOp 2 b 1 1]) ++ [sOp 3 c 1 1]
  | .xbcast _ _ d a b c => [dOp d 1 1, sOp 1 a 1 1, sOp 2 b 1 1, sOp 3 c 1 1]
  | .xballot _ d _ => [{ dOp d 4 1 with multi := true }]
  | .xpfx _ _ d _ => [dOp d 1 1]
  | .xred _ r d a | .xscan _ r d a | .nred _ r d a => [dW (redWide r) d, sW (redWide r) 1 a]
  | .xslide _ _ d a b c => [dOp d 1 1, sOp 1 a 1 1, sOp 2 b 1 1, sOp 3 c 1 1]
  | .xcmpr _ d a c _ | .xexpd _ d a c _ => [dOp d 1 1, sOp 1 a 1 1, sOp 3 c 1 1]
  | .xtbl _ len _ d a b =>
    [dOp d 1 1, { sOp 1 a (len.val + 1) 1 with multi := decide (0 < len.val) }, sOp 2 b 1 1]
  | .qset _ _ wide _ a => [sW wide 1 a]
  | .qget _ _ sel d => [dW (sel != .wid) d]
  | .maddq _ _ d a b | .msubq _ _ d a b | .mmulq _ _ d a b | .mpowq _ _ d a b => [dW q d, sW q 1 a, sW q 2 b]
  | .mnegq _ _ d a => [dW q d, sW q 1 a]
  | .mmacq _ _ d a b c => [dW q d, sW q 1 a, sW q 2 b, sW q 3 c]
  | .mredq _ _ d a => [dW q d, if q then sOp 1 a 4 2 else sOp 1 a 2 2]
  | .bfly _ _ d a b c | .ibfly _ _ d a b c => [if q then dOp d 4 2 else dOp d 2 1, sW q 1 a, sW q 2 b, sW q 3 c]
  | .xbfly _ _ _ _ d a b | .xibfly _ _ _ _ d a b => [dW q d, sW q 1 a, sW q 2 b]
  | .ld _ m _ d a => [dOp d m.size.regs m.size.regs, sOp 1 a 2 2]
  | .st _ m a b => [sOp 1 a 2 2, sOp 2 b m.size.regs m.size.regs]
  | .stm _ m a b c => [sOp 1 a 2 2, sOp 2 b m.size.regs m.size.regs, sOp 3 c 1 1]
  | .lds _ size _ _ _ d a => [dOp d size.regs size.regs, sOp 1 a 1 1]
  | .sts _ size _ a b => [sOp 1 a 1 1, sOp 2 b size.regs size.regs]
  | .stsm _ size _ a b c => [sOp 1 a 1 1, sOp 2 b size.regs size.regs, sOp 3 c 1 1]
  | .pref _ _ _ a => [sOp 1 a 2 2]
  | .atom _ m d a b c => [dW m.wide d, sOp 1 a 2 2, sW m.wide 2 b, sW m.wide 3 c]
  | .atoms _ _ wide _ _ d a b c => [dW wide d, sOp 1 a 1 1, sW wide 2 b, sW wide 3 c]
  | .redm _ m a b => [sOp 1 a 2 2, sW m.wide 2 b]
  | .copy _ _ dir _ a b c =>
    if dir == .g2s || dir == .s2g then [sOp 1 a 2 2, sOp 2 b 1 1] else [sOp 1 a 1 1, sOp 2 b 1 1, sOp 3 c 4 1]
  | .copym _ _ obj _ _ a b c =>
    if obj then [sOp 1 a 1 1, sOp 2 b 1 1, sOp 3 c 4 1] else [sOp 1 a 2 2, sOp 2 b 1 1]
  | .feq _ _ _ a | .feset _ _ _ a => [sOp 1 a 1 1]
  | .nbcast _ form b =>
    (match form with
      | .one d a => [dOp d 1 1, sOp 1 a 1 1]
      | .pair d a => [dOp d 2 2, sOp 1 a 2 2]
      | .slot _ => []) ++ [sOp 2 b 1 1]
  | .merge _ _ _ _ a | .ldrop _ _ a => match a with | .src s => [sOp 1 s 1 1] | .slot _ => []
  | .lrank _ d a => [dOp d 1 1] ++ (match a with | .src s => [sOp 1 s 1 1] | .slot _ => [])
  | .mma _ _ _ d a b c => [dOp d 1 1, sOp 1 a 1 1, sOp 2 b 1 1, sOp 3 c 2 2]
  | .mwait _ a | .mrel _ a | .mslotZero _ a => [sOp 1 a 1 1]
  | .mlda _ obj d a b c => [dOp d 1 1, sOp 1 a 1 1, sOp 2 b 1 1, sOp 3 c (if obj then 5 else 1) 1]
  | .msta _ obj a b c => [sOp 1 a 1 1, sOp 2 b 1 1, sOp 3 c (if obj then 5 else 1) 1]
  | .mslotAlloc _ d | .mslotCnt _ d => [dOp d 1 1]
  | .srr _ r d => [dW (r == .clock || r == .retired || r == .cbase) d]
  | .srw _ _ a => [sOp 1 a 1 1]
  | .setw _ d a => [dOp d 1 1, sOp 1 a 1 1]
  | .spawn _ d a b => [dOp d 1 1, sOp 1 a 1 1, sOp 2 b 1 1]
  | .launch _ d a b => [dOp d 1 1, sOp 1 a 2 2, sOp 2 b 1 1]
  | .eret _ a => [sOp 1 a 2 2]
  | .swapc _ a b => [sOp 1 a 2 2, sOp 2 b 4 4]
  | .objw _ a b => [sOp 1 a 1 1, sOp 2 b 16 4]
  | .objq _ d a => [dOp d 16 4, sOp 1 a 1 1]
  | .icinv _ a b | .xlinvRng _ a b => [sOp 1 a 2 2, sOp 2 b 1 1]
  | _ => []

/-- The guard of an operation; an event has none. -/
def guardOfInstr : Instr → Guard
  | .bra g _ | .brx g _ | .call g _ | .callx g _ | .ret g | .reform g | .exit g | .nop g | .yield g | .drain g _ => g
  | .mov g .. | .movi g .. | .movh g .. | .sel g .. | .iadd g .. | .isub g .. | .iaddc g .. | .isubb g .. | .imul g ..
  | .imulh g .. | .imad g .. | .imadw g .. | .imin g .. | .imax g .. | .iabs g .. | .ineg g .. | .idiff g .. | .icmp g ..
  | .iset g .. | .and g .. | .or g .. | .xor g .. | .not g .. | .tlog g .. | .shl g .. | .shr g .. | .sar g .. | .fshl g ..
  | .fshr g .. | .rot g .. | .popc g .. | .clz g .. | .ctz g .. | .brev g .. | .bfx g .. | .bfi g .. | .bytep g ..
  | .lea g .. | .pand g .. | .por g .. | .pxor g .. | .pnot g .. | .pmov g .. | .pset g .. | .pget g .. => g
  | .fadd g .. | .fsub g .. | .fmul g .. | .ffma g .. | .fmin g .. | .fmax g .. | .fcmp g .. | .fclass g .. | .fdiv g ..
  | .fsqrt g .. | .frcp g .. | .frsq g .. | .fexp2 g .. | .flog2 g .. | .fsin g .. | .fcos g .. | .ftanh g .. | .fscale g ..
  | .frnd g .. | .fcvt g .. | .icvt g .. | .fcvti g .. | .kdec g .. | .xshf g .. | .xbcast g .. | .xvote g .. | .xballot g ..
  | .xpfx g .. | .xred g .. | .xscan g .. | .xslide g .. | .xcmpr g .. | .xexpd g .. | .xtbl g .. => g
  | .qset g .. | .qget g .. | .maddq g .. | .msubq g .. | .mnegq g .. | .mmulq g .. | .mmacq g .. | .mredq g .. | .mpowq g ..
  | .bfly g .. | .ibfly g .. | .xbfly g .. | .xibfly g .. => g
  | .ld g .. | .st g .. | .stm g .. | .lds g .. | .sts g .. | .stsm g .. | .pref g .. | .atom g .. | .atoms g .. | .redm g ..
  | .fence g .. | .bar g .. | .bara g .. | .barw g .. | .copy g .. | .copym g .. | .feq g .. | .feset g .. | .nred g ..
  | .nbcast g .. | .merge g .. | .ldrop g .. | .lrank g .. => g
  | .mdecl g .. | .moprdy g | .mma g .. | .mwait g .. | .mrel g .. | .mlda g .. | .msta g .. | .mslotAlloc g .. | .mslotCnt g ..
  | .mslotZero g .. => g
  | .srr g .. | .srw g .. | .setw g .. | .spawn g .. | .launch g .. | .round g | .trap g .. | .eret g .. | .swapc g .. | .objw g ..
  | .objq g .. | .icinv g .. | .xlinvRng g .. | .xlinvAll g => g
  | _ => .always

/-- The predicates that an operation's own fields name (R123, R142, R161). -/
def predsOf : Instr → List Nat
  | .sel _ _ _ _ _ _ p => [p.n]
  | .iaddc _ _ _ _ _ pi po | .isubb _ _ _ _ _ pi po => [pi, po]
  | .icmp _ _ _ _ p _ _ => [p]
  | .pand _ d a b | .por _ d a b | .pxor _ d a b => [d, a.n, b.n]
  | .pnot _ d a | .pmov _ d a => [d, a.n]
  | .fcmp _ _ _ _ p _ _ _ => [p]
  | .xvote _ _ d p => [d, p.n]
  | .xballot _ _ p | .xpfx _ _ _ p | .xcmpr _ _ _ _ p | .xexpd _ _ _ _ p => [p.n]
  | .feq _ p _ _ => [p]
  | .merge _ _ _ p _ => [p]
  | _ => []

/-- The predicates that an operation reads as sources. -/
def predReads : Instr → List Nat
  | .sel _ _ _ _ _ _ p => [p.n]
  | .iaddc _ _ _ _ _ pi _ | .isubb _ _ _ _ _ pi _ => [pi]
  | .pand _ _ a b | .por _ _ a b | .pxor _ _ a b => [a.n, b.n]
  | .pnot _ _ a | .pmov _ _ a => [a.n]
  | .xvote _ _ _ p | .xballot _ _ p | .xpfx _ _ _ p | .xcmpr _ _ _ _ p | .xexpd _ _ _ _ p => [p.n]
  | .pget .. => List.range 64
  | _ => []

/-- The predicates that an operation writes (R131 to R143, R158, R161). -/
def predWrites : Instr → List Nat
  | .iaddc _ _ _ _ _ _ po | .isubb _ _ _ _ _ _ po => [po]
  | .icmp _ _ _ _ p _ _ | .fcmp _ _ _ _ p _ _ _ => [p]
  | .pand _ d _ _ | .por _ d _ _ | .pxor _ d _ _ | .pnot _ d _ | .pmov _ d _ | .xvote _ _ d _ => [d]
  | .pset .. => List.range 64
  | .feq _ p _ _ => [p]
  | _ => []

/-- The predicate of a guard (R108). -/
def guardPred : Guard → List Nat
  | .always => []
  | .on p | .off p => [p]

/-- The convergence register that an operation names (R204). -/
def convOf : Instr → List Nat
  | .mdecl _ n _ | .mma _ n _ _ _ _ _ => [n]
  | _ => []

/-- The named barrier that an operation names (R191). -/
def namedOf : Instr → List Nat
  | .bar _ (.nb k) | .bara _ (.nb k) | .barw _ (.nb k) => [k]
  | _ => []

/-- The opcode of an operation (R120). -/
def opcodeOf (i : Instr) : Nat := match fieldsOf i with | some f => f.op | none => 0

/-- The operation takes a literal (R24, R131 to R143). -/
def takesLit : Instr → Bool
  | .sel .. | .iaddc .. | .isubb .. | .icmp .. | .iset .. | .tlog .. => false
  | i => opcodeOf i / 128 == 1

/-- Class 011 words, whose ranges past v767 are illegal operands; elsewhere such a range is an overrun (R168, R178, R223, R240). -/
def pastIllegal (i : Instr) : Bool := opcodeOf i / 128 == 3

/-- The register numbers of an operand at or above the `.regs` count, the lowest of them (R347). -/
def overrun (regs : Nat) (past : Bool) (o : Opnd) : Option Nat :=
  if 768 ≤ o.code then none
  else
    let top := if past then min (o.code + o.n) 768 else o.code + o.n
    if regs < top then some (max o.code regs) else none

/-- Check 2 of R342: the lowest offending number of the first offending kind (R347). A guard that names a predicate at or above .preds is among them
(log 78). -/
def declCheck (k : Kernel) (q : Bool) (i : Instr) : Option Nat :=
  match minOf ((opnds q i).filterMap (overrun k.regs (pastIllegal i))) with
  | some n => some n
  | none =>
    match minOf ((guardPred (guardOfInstr i) ++ predsOf i).filter (fun p => decide (k.preds ≤ p))) with
    | some p => some (p + 2 ^ 12)
    | none =>
      match minOf ((convOf i).filter (fun c => decide (k.conv ≤ c))) with
      | some c => some (c + 2 * 2 ^ 12)
      | none => (minOf ((namedOf i).filter (fun b => decide (k.barriers ≤ b)))).map (· + 3 * 2 ^ 12)

/-- The special register is read and written by SRW (R225). -/
def sregWritable : SReg → Bool
  | .fflags | .hintmiss => true
  | _ => false

/-- The operand rules of one instruction's own entry (R162, R163, R188, R199, R201, R225), as failing field and code. -/
def ownRules : Instr → List (Nat × Nat)
  | .xshf _ mode (some _) _ _ b _ => if mode == .idx || !b.isZero then [(2, b.code)] else []
  | .xballot _ d _ => match d with | .reg n .sp => [(0, n)] | _ => []
  | .nred _ _ d _ => match d with | .reg _ .home => [] | d => [(0, d.code)]
  | .merge _ _ _ _ (.src (.reg n t _)) => if t == .res then [] else [(1, n)]
  | .atom _ m _ _ _ c => if m.op == .cas && c.isZero then [(3, 1023)] else []
  | .atoms _ op _ _ _ _ _ _ c => if op == .cas && c.isZero then [(3, 1023)] else []
  | .srw _ r _ => if sregWritable r then [] else [(4, r.code)]
  | _ => []

/-- An operand breaks check 3 of R342: a literal where none is taken, a start off its alignment, a range past v767 or of several units at
a special operand (R155, R346). -/
def badOpnd (i : Instr) (o : Opnd) : Bool :=
  (o.code == 1022 && !takesLit i) || (decide (o.code < 768) && (o.code % o.al != 0 ||
    (pastIllegal i && decide (768 < o.code + o.n)))) || (o.multi && !o.dst && decide (1019 ≤ o.code ∧ o.code ≤ 1021))

/-- Check 3 of R342: the DETAIL of the illegal operand in the lowest field. -/
def operandCheck (q : Bool) (i : Instr) : Option Nat :=
  let bad := ((opnds q i).filter (badOpnd i)).map (fun o => (o.field, o.code)) ++ ownRules i
  (sortBy Prod.fst bad).head?.map (fun p => p.2 + 2 ^ 12 * p.1)

/-- Checks 2 and 3 of R342 on a word: cause and DETAIL. -/
def staticCheck (k : Kernel) (i : Instr) : Option (Nat × Nat) :=
  match declCheck k false i with
  | some d => some (0x09, d)
  | none => (operandCheck false i).map (fun d => (0x08, d))

/-- The operation reads the source at issue: the lane of XBCAST is read for `.lane` only (R162). -/
def readsOpnd (i : Instr) (o : Opnd) : Bool :=
  !o.dst && (match i with | .xbcast _ sel _ _ _ _ => o.field != 2 || sel == .lane | _ => true)

/-- The registers of an operand. -/
def Opnd.regs (o : Opnd) : List Nat := if 768 ≤ o.code then [] else (List.range o.n).map (o.code + ·)

/-- The first register of an operand that is empty for a thread (R103). -/
def emptyReg (t : Thread) (o : Opnd) : Option Nat := o.regs.find? (fun n => t.marks.any (fun m => m.reg == n))

/-- Some active thread finds a source empty that the word waits for (R61 item 3): its block bit is 1, or the kernel runs still. -/
def waitsOnEmpty (still q : Bool) (i : Instr) (act : List Thread) : Bool :=
  (opnds q i).any (fun o => readsOpnd i o && (o.blk || still) && act.any (fun t => (emptyReg t o).isSome))

/-- The empty registers that a thread reads with block bit 0, with their fields, in ascending register (R341, R348). -/
def emptyReads (q : Bool) (i : Instr) (t : Thread) : List (Nat × Nat) :=
  sortBy Prod.fst ((opnds q i).filterMap (fun o => if readsOpnd i o && !o.blk then (emptyReg t o).map (fun n => (n, o.field)) else none))

/-- Check 5 of R342 (R348): an empty source with block bit 0, in the lowest lane that meets one. -/
def emptyTrap (still q : Bool) (i : Instr) (act : List Thread) : Option Trap :=
  if still then none else
  firstSome (fun t => (emptyReads q i t).head?.map (fun p => ⟨0x0A, p.1 + 2 ^ 12 * p.2, none, t.lane⟩)) act

/-- A word reads a poisoned register (R380), in the lowest lane that does. -/
def poisonTrap (e : Env) (q : Bool) (i : Instr) (act : List Thread) : Option Trap :=
  firstSome (fun t => firstSome (fun o =>
    if readsOpnd i o then
      (o.regs.find? (fun n => readsPoison (some e.pool) e.pond t n o.tag)).map (fun n => ⟨0x81, n, none, t.lane⟩)
    else none) (opnds q i)) act

/-- A 32-bit read of a source (R123). -/
def Env.src (e : Env) (imm : Word) (t : Thread) : Src → Word
  | .reg n tag _ => resolve (some e.pool) e.pond t n tag
  | .zero => 0
  | .lit => imm
  | .lane => BitVec.ofNat 32 t.lane
  | .gw => BitVec.ofNat 32 e.pool.grant
  | .tid => BitVec.ofNat 32 t.tid

/-- A 64-bit read of a source (R123). -/
def Env.src64 (e : Env) (imm : Word) (uns : Bool) (t : Thread) : Src → DWord
  | .reg n tag _ => pairWord (resolve (some e.pool) e.pond t (n + 1) tag) (resolve (some e.pool) e.pond t n tag)
  | .lit => if uns then imm.setWidth 64 else imm.signExtend 64
  | s => (e.src imm t s).setWidth 64

/-- The `i`-th register of a range that starts at a source (R155); a special operand supplies its value and then zeros. -/
def Env.srcAt (e : Env) (t : Thread) (s : Src) (i : Nat) : Word :=
  match s with
  | .reg n tag _ => resolve (some e.pool) e.pond t (n + i) tag
  | s => if i = 0 then e.src 0 t s else 0

/-- A source read at the width of an integer word (R123). -/
def Env.srcW (e : Env) (imm : Word) (w uns : Bool) (t : Thread) (s : Src) : DWord :=
  if w then e.src64 imm uns t s else (e.src imm t s).setWidth 64

/-- `ext` of a value at width w (R123): two's complement under `.sgn`, plain binary under `.uns`. -/
def extInt (w uns : Bool) (v : DWord) : Int :=
  if w then (if uns then (v.toNat : Int) else v.toInt) else (if uns then ((loWord v).toNat : Int) else (loWord v).toInt)

/-- The bits of an operand width. -/
def widthOf (w : Bool) : Nat := if w then 64 else 32

/-- Whether the destination's write of a register is pool-rank for the kernel (R69). -/
def Env.poolRank (e : Env) (n : Nat) (tag : DTag) : Bool := Machine.poolRank e.launch.kernel.homeMap n tag

/-- A word's results written to the registers of its destination in turn, each by its own `lwrite` (R123, R155); 1023 discards them. -/
def writeDst (s : State) (e : Env) (d : Dst) (vals : List (List (TRef × Word))) : State :=
  match d with
  | .none => s
  | .reg n tag =>
    (vals.zip (List.range vals.length)).foldl (fun s p => lwrite s e.pool.id (n + p.2) (e.poolRank (n + p.2) tag) p.1) s

/-- A 64-bit or 32-bit result of every active thread, written low register first (R123). -/
def writeW (s : State) (e : Env) (w : Bool) (d : Dst) (vals : List (TRef × DWord)) : State :=
  let low := vals.map (fun p => (p.1, loWord p.2))
  if w then writeDst s e d [low, vals.map (fun p => (p.1, hiWord p.2))] else writeDst s e d [low]

/-- A predicate written in a thread (R38 pwrite). -/
def Thread.setPred (t : Thread) (k : Nat) (b : Bool) : Thread :=
  { t with preds := if b then t.preds ||| BitVec.twoPow 64 k else t.preds &&& ~~~BitVec.twoPow 64 k }

/-- One predicate written in every thread that has a value. -/
def writePred (s : State) (k : Nat) (vals : List (TRef × Bool)) : State :=
  updThreads s (fun t => (valOf vals t.ref).isSome) (fun t => t.setPred k ((valOf vals t.ref).getD false))

/-- A predicate source of a thread (R38 pread). -/
def predRead (p : PSrc) (t : Thread) : Bool := t.preds.getLsbD p.n != p.neg

end Sys2Proof.Machine
end

