-- ==== Sys2Proof/Machine/Issue.lean ====
section
/-! DEFINITION. The issue of a word: readiness (03 R61, 06 R102, R103), the checks before an instruction's own (22 R342, 09 R170), and the four ways
in which a word ends. -/

namespace Sys2Proof.Machine

/-- The part runs: the driver has set GO (R302), and the host has not put the part into STANDBY or OFF (R309). -/
def atWork (s : State) : Bool := s.host.go && decide (s.host.pstate < 8)

/-- The fragment waits at nothing (R61 item 4), or its parked word is due to replay (R359). -/
def Hold.open_ : Hold → Bool
  | .free => true
  | .parked _ due => due
  | _ => false

/-- Words that the fragments of a pool have issued since a halt broadcast reached the core (R371). -/
def poolSkid (s : State) (p : Nat) : Nat := ((pool s p).map Pool.skid).getD 0

/-- A record of the fragment waits for the fault queue (R338). -/
def Env.recordHeld (e : Env) : Bool := e.ctx.held.any (fun h => h.frag == some e.frag.ref)

/-- The thread's shared atomic waits in the round buffer for the commit: it stays at its round point (R294), also where a trap has stopped its
fragment there (R377). -/
def atRound (s : State) (t : Thread) : Bool := (block s t.blk).any (fun b => b.buffer.any (fun x => x.atom.isSome && x.t == t.ref))

/-- The fragment may go on: the part runs, the context issues, the fragment waits at nothing, and no halt has stopped it (R295, R302, R309,
R339, R371), its own record in the fault queue (R338) and no round point (R294) among it. -/
def mayMove (s : State) (e : Env) : Bool :=
  atWork s && e.ctx.running && !e.ctx.stalled && !s.badCores.contains e.core && e.frag.hold.open_ && !e.frag.stopped &&
    !e.recordHeld && !e.block.halted && (e.handling || e.threads.all (fun t => !atRound s t)) && (!e.reached || (e.frag.hold == .free && decide (poolSkid s e.pool.id < 24)))

/-- Nothing outside the word stops its fragment from issuing: it may go on, and no trap waits for it (R351). -/
def mayIssue (s : State) (e : Env) : Bool := mayMove s e && e.waiting.isNone

/-- The word that the fragment issued `d` words earlier has completed; distance 0 names none (R102). -/
def Frag.awaited (f : Frag) (incomplete : List Nat) (d : Nat) : Bool :=
  d == 0 || (match f.hist[d - 1]? with | some w => !incomplete.contains w | none => true)

/-- The words that a scheduling field names have completed (R102 item 2). -/
def Env.namedDone (s : State) (e : Env) (sch : Sched) : Bool :=
  e.frag.awaited s.incomplete sch.awA && e.frag.awaited s.incomplete sch.awB

/-- Every word that the fragment issued more than `k` words earlier has completed (R130). -/
def Frag.drained (f : Frag) (incomplete : List Nat) (k : Nat) : Bool :=
  (f.hist.drop k).all (fun w => !incomplete.contains w) && f.older.all (fun w => !incomplete.contains w)

/-- DRAIN waits for the fragment's older words (R130). -/
def drainReady (s : State) (e : Env) : Instr → Bool
  | .drain _ k => e.frag.drained s.incomplete k
  | _ => true

/-- The word makes requests of global memory. -/
def requestsMemory : Instr → Bool
  | .ld .. | .st .. | .stm .. | .atom .. | .redm .. => true
  | _ => false

/-- The memory requests of a core in flight, across all its pools: one for each word and thread (R8; log 63). -/
def requestsOf (s : State) (core : Nat) : Nat :=
  (distinct ((s.accs.filter (fun x => x.orig.core == core && x.space == .mem)).map (fun x => (x.wid, x.t)))).length

/-- The core has room for the requests of the word (R8). -/
def roomForRequests (s : State) (e : Env) (i : Instr) (act : List Thread) : Bool :=
  !requestsMemory i || decide (requestsOf s e.core + act.length ≤ Config.requestsPerCore)

/-- The slot that a modular operation computes with (R170). -/
def slotOf : Instr → Option Nat
  | .maddq _ k .. | .msubq _ k .. | .mnegq _ k .. | .mmulq _ k .. | .mmacq _ k .. | .mredq _ k .. | .mpowq _ k ..
  | .bfly _ k .. | .ibfly _ k .. | .xbfly _ k .. | .xibfly _ k .. => some k
  | _ => none

/-- The modulus slot that a thread reads (R170). -/
def Env.slot (e : Env) (k : Nat) (t : Thread) : QSlot := resolveSlot (some e.pool) e.pond t k .res

/-- The word works at slot width 64 (R170): its first active thread's slot says so. -/
def Env.slotWide (e : Env) (i : Instr) (act : List Thread) : Bool :=
  match slotOf i, act with
  | some k, t :: _ => (e.slot k t).wide
  | _, _ => false

/-- The fragment is ready to issue the word (R61). -/
def ready (s : State) (e : Env) (i : Instr) : Bool :=
  let act := e.active (guardOfInstr i)
  mayIssue s e && e.namedDone s e.iss.sch && drainReady s e i && roomForRequests s e i act &&
    !waitsOnEmpty e.still (e.slotWide i act) i act

/-- The lowest lane of some threads. -/
def lowLane (ts : List Thread) : Nat := (minOf (ts.map Thread.lane)).getD 0

/-- Check 4 of R342, which concerns active threads only: ERET outside handler mode, OBJW without the grant, SPAWN in still mode. -/
def permission (e : Env) (i : Instr) (act : List Thread) : Option Trap :=
  match act with
  | [] => none
  | t :: _ =>
    match i with
    | .eret _ a => if e.handling then none else some ⟨0x0B, 2, some (e.src64 0 false t a).toNat, t.lane⟩
    | .objw .. => if e.ctx.rcd.objWr then none else some ⟨0x1E, opcodeOf i, none, lowLane act⟩
    | .spawn .. => if e.still then some ⟨0x1D, opcodeOf i, none, lowLane act⟩ else none
    | _ => none

/-- The checks of R170 that depend on the slot: unset, width divergence, then the resource limit and the even codes at width 64.
Slots that disagree are reported as such in a short operation too (log 13). -/
def slotTrap (e : Env) (i : Instr) (act : List Thread) : Option Trap :=
  match slotOf i with
  | none => none
  | some k =>
    let wide := e.slotWide i act
    match act.find? (fun t => (e.slot k t).q == 0) with
    | some t => some ⟨0x10, k, none, t.lane⟩
    | none =>
      match act.find? (fun t => (e.slot k t).wide != wide) with
      | some t => some ⟨0x11, k, none, t.lane⟩
      | none =>
        if !wide then none
        else if e.iss.part != .single then some ⟨0x11, k + 8, none, lowLane act⟩
        else match declCheck e.launch.kernel true i with
          | some d => some ⟨0x09, d, none, lowLane act⟩
          | none => (operandCheck true i).map (fun d => ⟨0x08, d, none, lowLane act⟩)

/-- The slot whose copy a word reads. -/
def slotRead : Instr → Option Nat
  | .qget _ k .. | .nbcast _ (.slot k) _ | .merge _ _ _ _ (.slot k) => some k
  | i => slotOf i

/-- A word reads a poisoned slot copy (R380). -/
def slotPoison (e : Env) (i : Instr) (act : List Thread) : Option Trap :=
  match slotRead i with
  | none => none
  | some k => (act.find? (fun t => readsPoison (some e.pool) e.pond t (1000 + k) .res)).map (fun t => ⟨0x81, k + 2 ^ 12, none, t.lane⟩)

/-- Checks 2 to 5 of R342, the slot checks of R170 and the poison of R380, in their order. A word without active threads meets checks 2 and
3 only. -/
def checks (e : Env) (i : Instr) : Option Trap :=
  match staticCheck e.launch.kernel i with
  | some (c, d) => some ⟨c, d, none, lowLane e.threads⟩
  | none =>
    let act := e.active (guardOfInstr i)
    let q := e.slotWide i act
    (permission e i act).or ((slotTrap e i act).or ((emptyTrap e.still q i act).or ((poisonTrap e q i act).or (slotPoison e i act))))

/-- The operation is a long-latency producer (R100). -/
def longLatency : Instr → Bool
  | .ld .. | .lds .. | .atom .. | .atoms .. | .mpowq .. | .mma .. | .mlda .. | .mslotAlloc .. | .spawn .. | .launch .. | .objq .. => true
  | _ => false

/-- The operation is a collective of a pond or pool, whose results are written before its fragment goes on (R100). -/
def collective : Instr → Bool
  | .nred .. | .nbcast .. | .merge .. | .setw .. => true
  | _ => false

/-- The fixed latency of an operation, `q` at slot width 64 (R100, R202, R215, R225). The largest of the table stands for those that it does not list
(DESIGN CHOICE, log 7). -/
def latencyOf (q : Bool) (i : Instr) : Nat :=
  match i with
  | .mov .. | .movi .. | .movh .. | .sel .. | .iadd .. | .isub .. | .iaddc .. | .isubb .. | .imin .. | .imax .. | .iabs .. | .ineg ..
  | .idiff .. | .icmp .. | .iset .. | .and .. | .or .. | .xor .. | .not .. | .tlog .. | .shl .. | .shr .. | .sar .. | .fshl .. | .fshr ..
  | .rot .. | .popc .. | .clz .. | .ctz .. | .brev .. | .bfx .. | .bfi .. | .bytep .. | .lea .. | .pand .. | .por .. | .pxor .. | .pnot ..
  | .pmov .. | .pset .. | .pget .. | .qget .. | .srr .. | .lrank .. | .mslotCnt .. => 2
  | .imul .. | .imulh .. | .imad .. | .imadw .. | .maddq .. | .msubq .. | .mnegq .. | .fadd .. | .fsub .. | .fmul .. | .ffma .. | .fmin ..
  | .fmax .. | .fcmp .. | .fclass .. | .fscale .. | .frnd .. | .fcvt .. | .icvt .. | .fcvti .. => 4
  | .feq .. | .kdec .. | .xshf .. | .xbcast .. | .xvote .. | .xballot .. | .xpfx .. | .xslide .. | .xcmpr .. | .xexpd .. | .xtbl .. => 6
  | .frcp .. | .frsq .. | .fexp2 .. | .flog2 .. | .fsin .. | .fcos .. | .ftanh .. | .qset .. => 8
  | .mmulq .. | .mmacq .. | .mredq .. | .bfly .. | .ibfly .. => if q then 16 else 8
  | .xred .. | .xscan .. => 10
  | .fdiv .. | .fsqrt .. => 12
  | .xbfly .. | .xibfly .. => if q then 18 else 10
  | _ => 18

/-- The slot that an operation writes. -/
def slotWrite : Instr → List Nat
  | .qset _ k .. => [k]
  | _ => []

/-- What an operation writes, as the names of `Recent`. -/
def resultNames (q : Bool) (i : Instr) : List Nat :=
  ((opnds q i).filter (fun o => o.dst && o.field == 0)).flatMap Opnd.regs ++ (predWrites i).map (1000 + ·) ++ (slotWrite i).map (2000 + ·)

/-- The registers of some threads that are empty (R103). -/
def pendingNames (ts : List Thread) : List Recent := ts.flatMap (fun t => t.marks.map (fun m => ⟨m.reg, m.wid, 0, true, [t.ref]⟩))

/-- What the next word may still wait for, as a word with its pace issues (R99, R101). -/
def Frag.aged (f : Frag) : List Recent :=
  (f.recent.filterMap (fun r => if r.long || decide (r.left ≤ max f.pace 1) then none else some { r with left := r.left - max f.pace 1 }))

/-- The results of an operation that a later word may wait for (R100, R103). -/
def Env.results (e : Env) (i : Instr) : List Recent :=
  let act := e.active (guardOfInstr i)
  let q := e.slotWide i act
  if act.isEmpty || collective i then []
  else (resultNames q i).map (fun n => ⟨n, e.iss.wid, latencyOf q i, longLatency i, act.map Thread.ref⟩)

/-- The results of fixed-latency words that an operation does not write anew: the next word reads no other (R101). -/
def Env.unwritten (e : Env) (i : Instr) (l : List Recent) : List Recent :=
  let act := (e.active (guardOfInstr i)).map Thread.ref
  let names := resultNames (e.slotWide i (e.active (guardOfInstr i))) i
  (l.map (fun r => if r.long || !names.contains r.name then r else { r with ts := r.ts.filter (fun t => !act.contains t) })).filter
    (fun r => r.long || !r.ts.isEmpty)

/-- The operation may have waited (R106): for a result of a fixed-latency word (R101), or for an empty source with block bit 1, or in still mode
any (R348), whose producer no await distance of its word names. Its threads read their own results, each that of the last word that wrote it. The
words of a translation name none that memory shows (R117, log 7). What a DRAIN covered has completed (R130). -/
def Env.mayHint (e : Env) (i : Instr) (before : List Recent) : Bool :=
  let act := e.active (guardOfInstr i)
  let named := [e.iss.sch.awA, e.iss.sch.awB].filterMap (fun d => if d = 0 then none else e.frag.hist[d - 1]?)
  let reads (r : Recent) (ts : List Thread) (n : Nat) : Bool := r.name == n && r.wid != e.iss.wid && ts.any (fun t => r.ts.contains t.ref)
  let fixed (ts : List Thread) (n : Nat) : Bool := before.any (fun r => !r.long && reads r ts n)
  let late (n : Nat) : Bool := before.any (fun r => r.long && reads r act n && !named.contains r.wid)
  let srcs := (opnds (e.slotWide i act) i).filter (readsOpnd i)
  (guardPred (guardOfInstr i)).any (fun p => fixed e.threads (1000 + p)) || (!act.isEmpty && (
    (predReads i).any (fun p => fixed act (1000 + p)) || (slotRead i).any (fun k => fixed act (2000 + k)) ||
      srcs.any (fun o => o.regs.any (fun n => fixed act n || ((o.blk || e.still) && late n)))))

/-- The mark that operation X of a word has counted for it, which counts once (R106). -/
def Env.counted (e : Env) : Recent := ⟨4000, e.iss.wid, 1, true, []⟩

/-- Whether the issue of an operation counts as one that may have come late (R106). Unscheduled words never count; those that a
translation runs are scheduled ones (R117, log 7). -/
def Env.counts (e : Env) (i : Instr) : Bool :=
  let f := e.frag
  (e.iss.sch.scheduled || e.inTransl) && !(e.iss.part == .pairY && f.recent.contains e.counted) &&
    e.mayHint i (if e.iss.part == .pairY && !f.yOnly then f.recent else f.aged ++ f.recent.filter Recent.long)

/-- What the fragment's next word may wait for once an operation has issued: what the next word of the earlier results would, the operation's
own results, and the registers that are still empty. -/
def Env.recentAfter (e : Env) (i : Instr) (hit : Bool) : List Recent :=
  let f := e.frag
  let before := if e.iss.part == .pairY && !f.yOnly then f.recent.filter (· != e.counted) else f.aged
  match e.iss.part with
  | .pairX => f.recent.filter Recent.long ++ e.unwritten i before ++ e.results i ++ (if hit then [e.counted] else [])
  | _ => (e.unwritten i before).filter (fun r => !r.long || r.wid == e.iss.wid) ++ e.results i ++ pendingNames e.threads

/-- The word issues (R102, R118, R226): its fragment's history, its threads' %retired, and the address of the next word. The
history counts a pair once, with its operation Y, and the word under way ends unless Y follows. A scheduled word that may have waited for
a result may count in %hintmiss (R106, log 7). -/
def finish (s : State) (e : Env) (i : Instr) : State :=
  let s := updThreads s (fun t => t.inFrag e.frag.ref) (fun t => { t with retired := t.retired + 1 })
  let hit := e.counts i
  let s := if hit then countHint s e.ctx.rcd.id e.core else s
  match e.iss.part with
  | .pairX => updFrag s e.frag.ref (fun f => { f with pace := 0, recent := e.recentAfter i hit })
  | _ =>
    let s := { s with cur := none }
    updFrag s e.frag.ref (fun f => { f.push e.iss.wid s.incomplete with
      pc := f.pc + 16, pace := e.iss.sch.pace, hold := f.hold.issued, yOnly := false, count := f.count + 1,
      transl := arrive e.ctx f.transl false (f.pc + 16),
      recent := e.recentAfter i hit,
      skid := if e.reached then f.skid + 1 else f.skid })

/-- The word under way ends without having issued. -/
def endWord (s : State) : State := { s with cur := none }

/-- How a body's result ends the word. -/
def settle (s : State) (e : Env) : Res → Host.Outcome State Fault Refusal
  | .ok s' => .next s'
  | .trap t => .next (takeTrap (endWord s) e t)
  | .park f => .next (park (endWord s) e f)
  | .wait => .fault .notReady

/-- THE ISSUE OF A WORD: readiness, the checks, and the body, which runs on the state in which the word has issued and whose trap or
parking undoes it (R342, R343). -/
def issue (i : Instr) (s : State) (body : Env → State → Res) : Host.Outcome State Fault Refusal :=
  match s.cur.bind (envOf s) with
  | none => .fault .noIssuer
  | some e =>
    if !ready s e i then .fault .notReady
    else match checks e i with
      | some t => .next (takeTrap (endWord s) e t)
      | none => settle s e (body e (finish s e i))

/-- The body of a word that neither traps nor waits, and that has no effect when its active set is empty. -/
def plain (g : Guard) (f : Env → List Thread → State → State) (e : Env) (s : State) : Res :=
  match e.active g with
  | [] => .ok s
  | act => .ok (f e act s)

end Sys2Proof.Machine
end

