-- ==== Sys2Proof/Machine/Flags.lean ====
section
/-! DEFINITION. Every flag, carry, range and condition that the arithmetic of the part computes (05 R85, R86; 07 R132 to R135; 08 R152). -/

namespace Sys2Proof.Machine

/-- The flags of %fflags (R86): bits 4 to 0 are NV, DZ, OF, UF and NX. -/
structure FlagSet where
  nv : Bool := false
  dz : Bool := false
  of : Bool := false
  uf : Bool := false
  nx : Bool := false
  deriving DecidableEq, Repr

/-- No flag. -/
def FlagSet.none : FlagSet := {}

/-- The flags of both sets. -/
def FlagSet.union (a b : FlagSet) : FlagSet := ⟨a.nv || b.nv, a.dz || b.dz, a.of || b.of, a.uf || b.uf, a.nx || b.nx⟩

/-- A set of flags as %fflags holds it (R86). -/
def FlagSet.code (f : FlagSet) : BitVec 5 :=
  BitVec.ofNat 5 (16 * f.nv.toNat + 8 * f.dz.toNat + 4 * f.of.toNat + 2 * f.uf.toNat + f.nx.toNat)

/-- The flags raised in any of several results (R87). -/
def flagsOf (l : List FlagSet) : FlagSet := l.foldl FlagSet.union FlagSet.none

/-- `set_flags(t, F)` of R38 for every thread that raised something. -/
def setFlags (s : State) (vals : List (TRef × FlagSet)) : State :=
  updThreads s (fun t => (valOf vals t.ref).isSome)
    (fun t => { t with fflags := t.fflags ||| ((valOf vals t.ref).getD FlagSet.none).code })

/-- The least value of a signedness at a width (R132). -/
def loBound (w uns : Bool) : Int := if uns then 0 else -(2 ^ (widthOf w - 1))
/-- The greatest value of a signedness at a width (R132). -/
def hiBound (w uns : Bool) : Int := if uns then 2 ^ widthOf w - 1 else 2 ^ (widthOf w - 1) - 1

/-- A value confined to a range. -/
def clampInt (lo hi v : Int) : Int := if v < lo then lo else if hi < v then hi else v

/-- An exact result narrowed to its width, saturated or wrapped (R132); the low 32 bits are the result at width 32. -/
def narrow (w uns sat : Bool) (r : Int) : DWord :=
  BitVec.ofInt 64 (if sat then clampInt (loBound w uns) (hiBound w uns) r else r)

/-- The sum with carry of R133: the exact sum, and whether it leaves the width. -/
def addCarry (w : Bool) (x y : DWord) (k : Bool) : Int × Bool :=
  let s : Int := extInt w true x + extInt w true y + (if k then 1 else 0)
  (s, decide (2 ^ widthOf w ≤ s))

/-- The difference with borrow of R133: the exact difference, and whether it is negative. -/
def subBorrow (w : Bool) (x y : DWord) (k : Bool) : Int × Bool :=
  let s : Int := extInt w true x - extInt w true y - (if k then 1 else 0)
  (s, decide (s < 0))

/-- An integer condition (R135). -/
def condHolds (c : Cond) (x y : Int) : Bool :=
  match c with
  | .eq => decide (x = y)
  | .ne => decide (x ≠ y)
  | .lt => decide (x < y)
  | .le => decide (x ≤ y)
  | .gt => decide (y < x)
  | .ge => decide (y ≤ x)

end Sys2Proof.Machine
end

