-- ==== Sys2Proof/Machine/Integer.lean ====
section
/-! DEFINITION. Moves, integer arithmetic, bit operations, address arithmetic and predicates (07 R131 to R143). -/

namespace Sys2Proof.Machine

/-- A result for every active thread. -/
def forEach {α : Type} (act : List Thread) (f : Thread → α) : List (TRef × α) := act.map (fun t => (t.ref, f t))

/-- A word that writes one result of an operand width for every active thread (R132). -/
def writeBody (g : Guard) (w : Bool) (d : Dst) (f : Env → Thread → DWord) : Env → State → Res :=
  plain g (fun e act s => writeW s e w d (forEach act (f e)))

/-- An exact integer expression of two sources (R132). -/
def intOp2 (g : Guard) (m : IMod) (d : Dst) (a b : Src) (imm : Word) (f : Int → Int → Int) : Env → State → Res :=
  writeBody g m.w d (fun e t =>
    narrow m.w m.uns m.sat (f (extInt m.w m.uns (e.srcW imm m.w m.uns t a)) (extInt m.w m.uns (e.srcW imm m.w m.uns t b))))

/-- A bitwise or shifting expression of the w-bit a and the 32-bit amount b (R137). -/
def shiftOp (g : Guard) (w : Bool) (d : Dst) (a b : Src) (imm : Word) (f : DWord → Nat → DWord) : Env → State → Res :=
  writeBody g w d (fun e t => f (e.srcW imm w false t a) (e.src imm t b).toNat)

/-- The w-bit plain value of a w-bit read (R137). -/
def zextW (w : Bool) (v : DWord) : Nat := if w then v.toNat else (loWord v).toNat

/-- MOV (R131). -/
def execMov (g : Guard) (w uns : Bool) (d : Dst) (a : Src) (imm : Word) (s : State) : Host.Outcome State Fault Refusal :=
  issue (.mov g w uns d a imm) s (writeBody g w d (fun e t => e.srcW imm w uns t a))
/-- MOVI (R131). -/
def execMovi (g : Guard) (w uns : Bool) (d : Dst) (imm : Word) (s : State) : Host.Outcome State Fault Refusal :=
  issue (.movi g w uns d imm) s (writeBody g w d (fun e t => e.srcW imm w uns t .lit))
/-- MOVH (R131). -/
def execMovh (g : Guard) (d : Dst) (a b : Src) (imm : Word) (s : State) : Host.Outcome State Fault Refusal :=
  issue (.movh g d a b imm) s (writeBody g false d (fun e t =>
    BitVec.ofNat 64 ((e.src imm t b).toNat % 2 ^ 16 * 2 ^ 16 + (e.src imm t a).toNat % 2 ^ 16)))
/-- SEL (R131). -/
def execSel (g : Guard) (w uns : Bool) (d : Dst) (a b : Src) (p : PSrc) (s : State) : Host.Outcome State Fault Refusal :=
  issue (.sel g w uns d a b p) s (writeBody g w d (fun e t => if predRead p t then e.srcW 0 w uns t a else e.srcW 0 w uns t b))

/-- IADD (R132). -/
def execIadd (g : Guard) (m : IMod) (d : Dst) (a b : Src) (imm : Word) (s : State) : Host.Outcome State Fault Refusal :=
  issue (.iadd g m d a b imm) s (intOp2 g m d a b imm (fun x y => x + y))
/-- ISUB (R132). -/
def execIsub (g : Guard) (m : IMod) (d : Dst) (a b : Src) (imm : Word) (s : State) : Host.Outcome State Fault Refusal :=
  issue (.isub g m d a b imm) s (intOp2 g m d a b imm (fun x y => x - y))
/-- IMUL (R132). -/
def execImul (g : Guard) (m : IMod) (d : Dst) (a b : Src) (imm : Word) (s : State) : Host.Outcome State Fault Refusal :=
  issue (.imul g m d a b imm) s (intOp2 g m d a b imm (fun x y => x * y))
/-- IMULH (R132): the floor of the product over 2^w. -/
def execImulh (g : Guard) (w uns : Bool) (d : Dst) (a b : Src) (imm : Word) (s : State) : Host.Outcome State Fault Refusal :=
  issue (.imulh g w uns d a b imm) s (intOp2 g ⟨w, uns, false⟩ d a b imm (fun x y => (x * y) >>> widthOf w))
/-- IMAD (R132). -/
def execImad (g : Guard) (m : IMod) (d : Dst) (a b c : Src) (imm : Word) (s : State) : Host.Outcome State Fault Refusal :=
  issue (.imad g m d a b c imm) s (writeBody g m.w d (fun e t =>
    narrow m.w m.uns m.sat (extInt m.w m.uns (e.srcW imm m.w m.uns t a) * extInt m.w m.uns (e.srcW imm m.w m.uns t b)
      + extInt m.w m.uns (e.srcW imm m.w m.uns t c))))
/-- IMADW (R134): 32-bit factors, 64-bit addend and result. -/
def execImadw (g : Guard) (uns sat : Bool) (d : Dst) (a b c : Src) (imm : Word) (s : State) : Host.Outcome State Fault Refusal :=
  issue (.imadw g uns sat d a b c imm) s (writeBody g true d (fun e t =>
    narrow true uns sat (extInt false uns (e.srcW imm false uns t a) * extInt false uns (e.srcW imm false uns t b)
      + extInt true uns (e.srcW imm true uns t c))))
/-- IMIN (R132). -/
def execImin (g : Guard) (w uns : Bool) (d : Dst) (a b : Src) (imm : Word) (s : State) : Host.Outcome State Fault Refusal :=
  issue (.imin g w uns d a b imm) s (intOp2 g ⟨w, uns, false⟩ d a b imm (fun x y => min x y))
/-- IMAX (R132). -/
def execImax (g : Guard) (w uns : Bool) (d : Dst) (a b : Src) (imm : Word) (s : State) : Host.Outcome State Fault Refusal :=
  issue (.imax g w uns d a b imm) s (intOp2 g ⟨w, uns, false⟩ d a b imm (fun x y => max x y))
/-- IABS (R132). -/
def execIabs (g : Guard) (w sat : Bool) (d : Dst) (a : Src) (imm : Word) (s : State) : Host.Outcome State Fault Refusal :=
  issue (.iabs g w sat d a imm) s (writeBody g w d (fun e t => narrow w false sat (extInt w false (e.srcW imm w false t a)).natAbs))
/-- INEG (R132). -/
def execIneg (g : Guard) (m : IMod) (d : Dst) (a : Src) (imm : Word) (s : State) : Host.Outcome State Fault Refusal :=
  issue (.ineg g m d a imm) s (writeBody g m.w d (fun e t => narrow m.w m.uns m.sat (-(extInt m.w m.uns (e.srcW imm m.w m.uns t a)))))
/-- IDIFF (R132). -/
def execIdiff (g : Guard) (w uns : Bool) (d : Dst) (a b : Src) (imm : Word) (s : State) : Host.Outcome State Fault Refusal :=
  issue (.idiff g w uns d a b imm) s (intOp2 g ⟨w, uns, false⟩ d a b imm (fun x y => (x - y).natAbs))

/-- A sum or difference extended by a predicate, and the predicate it writes (R133). -/
def carryBody (g : Guard) (w : Bool) (d : Dst) (a b : Src) (pi po : Fin 64) (f : Bool → DWord → DWord → Bool → Int × Bool) :
    Env → State → Res :=
  plain g (fun e act s =>
    let r (t : Thread) := f w (e.srcW 0 w true t a) (e.srcW 0 w true t b) (t.preds.getLsbD pi)
    writeW (writePred s po (forEach act (fun t => (r t).2))) e w d (forEach act (fun t => BitVec.ofInt 64 (r t).1)))

/-- IADDC (R133). -/
def execIaddc (g : Guard) (w : Bool) (d : Dst) (a b : Src) (pi po : Fin 64) (s : State) : Host.Outcome State Fault Refusal :=
  issue (.iaddc g w d a b pi po) s (carryBody g w d a b pi po addCarry)
/-- ISUBB (R133). -/
def execIsubb (g : Guard) (w : Bool) (d : Dst) (a b : Src) (pi po : Fin 64) (s : State) : Host.Outcome State Fault Refusal :=
  issue (.isubb g w d a b pi po) s (carryBody g w d a b pi po subBorrow)

/-- The truth of an integer condition in a thread (R135). -/
def cmpOf (e : Env) (w uns : Bool) (c : Cond) (a b : Src) (t : Thread) : Bool :=
  condHolds c (extInt w uns (e.srcW 0 w uns t a)) (extInt w uns (e.srcW 0 w uns t b))

/-- ICMP (R135). -/
def execIcmp (g : Guard) (w uns : Bool) (cond : Cond) (p : Fin 64) (a b : Src) (s : State) : Host.Outcome State Fault Refusal :=
  issue (.icmp g w uns cond p a b) s (plain g (fun e act s => writePred s p (forEach act (cmpOf e w uns cond a b))))
/-- ISET (R135). -/
def execIset (g : Guard) (w uns : Bool) (cond : Cond) (d : Dst) (a b : Src) (s : State) : Host.Outcome State Fault Refusal :=
  issue (.iset g w uns cond d a b) s (writeBody g w d (fun e t => if cmpOf e w uns cond a b t then 1 else 0))

/-- A logical operation of two sources (R136). -/
def logicOp (g : Guard) (w : Bool) (d : Dst) (a b : Src) (imm : Word) (f : DWord → DWord → DWord) : Env → State → Res :=
  writeBody g w d (fun e t => f (e.srcW imm w false t a) (e.srcW imm w false t b))

/-- AND (R136). -/
def execAnd (g : Guard) (w : Bool) (d : Dst) (a b : Src) (imm : Word) (s : State) : Host.Outcome State Fault Refusal :=
  issue (.and g w d a b imm) s (logicOp g w d a b imm (fun x y => x &&& y))
/-- OR (R136). -/
def execOr (g : Guard) (w : Bool) (d : Dst) (a b : Src) (imm : Word) (s : State) : Host.Outcome State Fault Refusal :=
  issue (.or g w d a b imm) s (logicOp g w d a b imm (fun x y => x ||| y))
/-- XOR (R136). -/
def execXor (g : Guard) (w : Bool) (d : Dst) (a b : Src) (imm : Word) (s : State) : Host.Outcome State Fault Refusal :=
  issue (.xor g w d a b imm) s (logicOp g w d a b imm (fun x y => x ^^^ y))
/-- NOT (R136). -/
def execNot (g : Guard) (w : Bool) (d : Dst) (a : Src) (imm : Word) (s : State) : Host.Outcome State Fault Refusal :=
  issue (.not g w d a imm) s (writeBody g w d (fun e t => ~~~(e.srcW imm w false t a)))

/-- The three-input logic of R136: bit i is `mask[a_i + 2 b_i + 4 c_i]`. -/
def tlogic (mask : BitVec 8) (x y z : DWord) : DWord :=
  (List.range 8).foldl (fun r k =>
    if mask.getLsbD k then
      r ||| ((if k.testBit 0 then x else ~~~x) &&& (if k.testBit 1 then y else ~~~y) &&& (if k.testBit 2 then z else ~~~z))
    else r) 0

/-- TLOG (R136). -/
def execTlog (g : Guard) (w : Bool) (d : Dst) (a b c : Src) (mask : BitVec 8) (s : State) : Host.Outcome State Fault Refusal :=
  issue (.tlog g w d a b c mask) s (writeBody g w d (fun e t =>
    tlogic mask (e.srcW 0 w false t a) (e.srcW 0 w false t b) (e.srcW 0 w false t c)))

/-- SHL (R137). -/
def execShl (g : Guard) (w : Bool) (d : Dst) (a b : Src) (imm : Word) (s : State) : Host.Outcome State Fault Refusal :=
  issue (.shl g w d a b imm) s (shiftOp g w d a b imm (fun x n => if widthOf w ≤ n then 0 else x <<< n))
/-- SHR (R137). -/
def execShr (g : Guard) (w : Bool) (d : Dst) (a b : Src) (imm : Word) (s : State) : Host.Outcome State Fault Refusal :=
  issue (.shr g w d a b imm) s (shiftOp g w d a b imm (fun x n => if widthOf w ≤ n then 0 else BitVec.ofNat 64 (zextW w x >>> n)))
/-- SAR (R137). -/
def execSar (g : Guard) (w : Bool) (d : Dst) (a b : Src) (imm : Word) (s : State) : Host.Outcome State Fault Refusal :=
  issue (.sar g w d a b imm) s (shiftOp g w d a b imm (fun x n =>
    let v := if w then x else (loWord x).signExtend 64
    v.sshiftRight (min n 63)))
/-- A rotation to the left within a width (R137). -/
def rotW (w : Bool) (x : DWord) (n : Nat) : DWord :=
  if w then x.rotateLeft (n % 64) else ((loWord x).rotateLeft (n % 32)).setWidth 64
/-- ROT (R137). -/
def execRot (g : Guard) (w : Bool) (d : Dst) (a b : Src) (imm : Word) (s : State) : Host.Outcome State Fault Refusal :=
  issue (.rot g w d a b imm) s (shiftOp g w d a b imm (rotW w))
/-- FSHL (R137). -/
def execFshl (g : Guard) (d : Dst) (a b c : Src) (imm : Word) (s : State) : Host.Outcome State Fault Refusal :=
  issue (.fshl g d a b c imm) s (writeBody g false d (fun e t =>
    (hiWord (pairWord (e.src imm t a) (e.src imm t b) <<< ((e.src imm t c).toNat % 32))).setWidth 64))
/-- FSHR (R137). -/
def execFshr (g : Guard) (d : Dst) (a b c : Src) (imm : Word) (s : State) : Host.Outcome State Fault Refusal :=
  issue (.fshr g d a b c imm) s (writeBody g false d (fun e t =>
    pairWord (e.src imm t a) (e.src imm t b) >>> ((e.src imm t c).toNat % 32)))

/-- The number of one bits below bit `n` (R138). -/
def popCount (x : DWord) : Nat → Nat
  | 0 => 0
  | n + 1 => (if x.getLsbD n then 1 else 0) + popCount x n
/-- The number of zero bits above the highest one bit below bit `n` (R138). -/
def leadZeros (x : DWord) : Nat → Nat
  | 0 => 0
  | n + 1 => if x.getLsbD n then 0 else 1 + leadZeros x n
/-- The number of zero bits below the lowest one bit, from bit `i` on, of `n` bits (R138). -/
def trailZeros (x : DWord) : Nat → Nat → Nat
  | 0, _ => 0
  | n + 1, i => if x.getLsbD i then 0 else 1 + trailZeros x n (i + 1)
/-- The low `n` bits in the opposite order (R138). -/
def revBits (x : DWord) (n : Nat) : DWord :=
  (List.range n).foldl (fun r i => if x.getLsbD i then r ||| BitVec.twoPow 64 (n - 1 - i) else r) 0

/-- A count of a w-bit source, written to one 32-bit register (R138). -/
def countOp (g : Guard) (w : Bool) (d : Dst) (a : Src) (imm : Word) (f : DWord → Nat) : Env → State → Res :=
  writeBody g false d (fun e t => BitVec.ofNat 64 (f (e.srcW imm w false t a)))

/-- POPC (R138). -/
def execPopc (g : Guard) (w : Bool) (d : Dst) (a : Src) (imm : Word) (s : State) : Host.Outcome State Fault Refusal :=
  issue (.popc g w d a imm) s (countOp g w d a imm (fun x => popCount x (widthOf w)))
/-- CLZ (R138). -/
def execClz (g : Guard) (w : Bool) (d : Dst) (a : Src) (imm : Word) (s : State) : Host.Outcome State Fault Refusal :=
  issue (.clz g w d a imm) s (countOp g w d a imm (fun x => leadZeros x (widthOf w)))
/-- CTZ (R138). -/
def execCtz (g : Guard) (w : Bool) (d : Dst) (a : Src) (imm : Word) (s : State) : Host.Outcome State Fault Refusal :=
  issue (.ctz g w d a imm) s (countOp g w d a imm (fun x => trailZeros x (widthOf w) 0))
/-- BREV (R138). -/
def execBrev (g : Guard) (w : Bool) (d : Dst) (a : Src) (imm : Word) (s : State) : Host.Outcome State Fault Refusal :=
  issue (.brev g w d a imm) s (writeBody g w d (fun e t => revBits (e.srcW imm w false t a) (widthOf w)))

/-- The field that BFX extracts (R139). -/
def fieldOf (w uns : Bool) (x : DWord) (ctl : Word) : DWord :=
  let pos := bits ctl.toNat 0 8
  let len := bits ctl.toNat 8 8
  if widthOf w ≤ pos ∨ len = 0 then 0
  else
    let n := min len (widthOf w - pos)
    let f := bits x.toNat pos n
    if !uns && f.testBit (n - 1) then BitVec.ofInt 64 ((f : Int) - 2 ^ n) else BitVec.ofNat 64 f
/-- The word with a field replaced that BFI makes (R139). -/
def fieldInto (w : Bool) (x : DWord) (ctl : Word) (c : DWord) : DWord :=
  let pos := bits ctl.toNat 0 8
  let len := bits ctl.toNat 8 8
  if widthOf w ≤ pos ∨ len = 0 then c
  else
    let n := min len (widthOf w - pos)
    let mask := BitVec.ofNat 64 ((2 ^ n - 1) * 2 ^ pos)
    (c &&& ~~~mask) ||| ((x <<< pos) &&& mask)

/-- BFX (R139). -/
def execBfx (g : Guard) (w uns : Bool) (d : Dst) (a b : Src) (imm : Word) (s : State) : Host.Outcome State Fault Refusal :=
  issue (.bfx g w uns d a b imm) s (writeBody g w d (fun e t => fieldOf w uns (e.srcW imm w uns t a) (e.src imm t b)))
/-- BFI (R139). -/
def execBfi (g : Guard) (w : Bool) (d : Dst) (a b c : Src) (imm : Word) (s : State) : Host.Outcome State Fault Refusal :=
  issue (.bfi g w d a b c imm) s (writeBody g w d (fun e t =>
    fieldInto w (e.srcW imm w false t a) (e.src imm t b) (e.srcW imm w false t c)))

/-- A result byte of BYTEP (R140). -/
def byteSel (ab : DWord) (e : Nat) : Nat :=
  if e < 8 then bits ab.toNat (8 * e) 8 else if ab.getLsbD (8 * (e - 8) + 7) then 0xFF else 0
/-- BYTEP (R140). -/
def execBytep (g : Guard) (d : Dst) (a b c : Src) (imm : Word) (s : State) : Host.Outcome State Fault Refusal :=
  issue (.bytep g d a b c imm) s (writeBody g false d (fun e t =>
    let ab := pairWord (e.src imm t b) (e.src imm t a)
    let ctl := (e.src imm t c).toNat
    BitVec.ofNat 64 ((List.range 4).foldl (fun r k => r + byteSel ab (bits ctl (4 * k) 4) * 2 ^ (8 * k)) 0)))

/-- LEA (R141): `b` and `c` by the signedness, `%tid`, `%lane` and `%gw` without a sign. -/
def execLea (g : Guard) (uns : Bool) (d : Dst) (a b c : Src) (imm : Word) (s : State) : Host.Outcome State Fault Refusal :=
  issue (.lea g uns d a b c imm) s (writeBody g true d (fun e t =>
    let ext (x : Src) : Int := match x with
      | .reg .. | .lit | .zero => extInt false uns (e.srcW imm false uns t x)
      | _ => extInt false true (e.srcW imm false uns t x)
    BitVec.ofInt 64 ((e.src64 imm uns t a).toNat + ext b * ext c)))

/-- A predicate of every active thread (R142). -/
def predBody (g : Guard) (d : Fin 64) (f : Thread → Bool) : Env → State → Res :=
  plain g (fun _ act s => writePred s d (forEach act f))

/-- PAND (R142). -/
def execPand (g : Guard) (d : Fin 64) (a b : PSrc) (s : State) : Host.Outcome State Fault Refusal :=
  issue (.pand g d a b) s (predBody g d (fun t => predRead a t && predRead b t))
/-- POR (R142). -/
def execPor (g : Guard) (d : Fin 64) (a b : PSrc) (s : State) : Host.Outcome State Fault Refusal :=
  issue (.por g d a b) s (predBody g d (fun t => predRead a t || predRead b t))
/-- PXOR (R142). -/
def execPxor (g : Guard) (d : Fin 64) (a b : PSrc) (s : State) : Host.Outcome State Fault Refusal :=
  issue (.pxor g d a b) s (predBody g d (fun t => predRead a t != predRead b t))
/-- PNOT (R142). -/
def execPnot (g : Guard) (d : Fin 64) (a : PSrc) (s : State) : Host.Outcome State Fault Refusal :=
  issue (.pnot g d a) s (predBody g d (fun t => !predRead a t))
/-- PMOV (R142). -/
def execPmov (g : Guard) (d : Fin 64) (a : PSrc) (s : State) : Host.Outcome State Fault Refusal :=
  issue (.pmov g d a) s (predBody g d (fun t => predRead a t))

/-- The low 2^n as a mask of predicates. -/
def predMask (n : Nat) : BitVec 64 := BitVec.ofNat 64 (2 ^ n - 1)
/-- The predicates after PSET (R143): half `h`, those of the mask that lie below the `.preds` count. -/
def psetPreds (hi : Bool) (n : Nat) (v m : Word) (p : BitVec 64) : BitVec 64 :=
  let put (x : Word) : BitVec 64 := if hi then x.setWidth 64 <<< 32 else x.setWidth 64
  let mask := put m &&& predMask n
  (p &&& ~~~mask) ||| (put v &&& mask)

/-- PSET (R143). -/
def execPset (g : Guard) (hi : Bool) (a b : Src) (imm : Word) (s : State) : Host.Outcome State Fault Refusal :=
  issue (.pset g hi a b imm) s (plain g (fun e act s =>
    let vals := forEach act (fun t => psetPreds hi e.launch.kernel.preds (e.src imm t a) (e.src imm t b) t.preds)
    updThreads s (fun t => (valOf vals t.ref).isSome) (fun t => { t with preds := (valOf vals t.ref).getD t.preds })))
/-- PGET (R143). -/
def execPget (g : Guard) (hi : Bool) (d : Dst) (s : State) : Host.Outcome State Fault Refusal :=
  issue (.pget g hi d) s (writeBody g false d (fun e t =>
    let p := t.preds &&& predMask e.launch.kernel.preds
    if hi then p >>> 32 else p))

end Sys2Proof.Machine
end

