-- ==== Sys2Proof/Machine/Float.lean ====
section
/-! DEFINITION. The floating formats and their arithmetic (05 R80 to R84, R87, R88; 02 R38, R39): exact values, one rounding, and the special
results of 08 R149, R150. -/

namespace Sys2Proof.Machine

/-- A floating format (R80). -/
structure FloatFmt where
  width : Nat
  fb : Nat
  bias : Nat
  hasInf : Bool
  deriving DecidableEq, Repr

/-- FP32 (R80). -/
def fp32 : FloatFmt := ⟨32, 23, 127, true⟩
/-- FP16 (R80). -/
def fp16 : FloatFmt := ⟨16, 10, 15, true⟩
/-- BF16 (R80). -/
def bf16 : FloatFmt := ⟨16, 7, 127, true⟩
/-- E4M3 (R80). -/
def e4m3 : FloatFmt := ⟨8, 3, 7, false⟩
/-- E5M2 (R80). -/
def e5m2 : FloatFmt := ⟨8, 2, 15, true⟩

/-- The format of a sub-element (R148). -/
def elemFmt : Fmt → FloatFmt
  | .f32 => fp32 | .f16x2 => fp16 | .bf16x2 => bf16 | .e4m3x4 => e4m3 | .e5m2x4 => e5m2

/-- The exponent of the smallest normal (R80). -/
def FloatFmt.emin (f : FloatFmt) : Int := 1 - (f.bias : Int)
/-- The sign bit. -/
def FloatFmt.signBit (f : FloatFmt) : Nat := 2 ^ (f.width - 1)
/-- The code of +∞ (R80), where the format has one. -/
def FloatFmt.infCode (f : FloatFmt) : Nat := 2 ^ (f.width - 1) - 2 ^ f.fb
/-- The code of the largest finite value (R80). -/
def FloatFmt.maxCode (f : FloatFmt) : Nat := if f.hasInf then f.infCode - 1 else 2 ^ (f.width - 1) - 2
/-- The default NaN (R80). -/
def FloatFmt.nanCode (f : FloatFmt) : Nat := if f.hasInf then f.infCode + 2 ^ (f.fb - 1) else 2 ^ (f.width - 1) - 1
/-- A magnitude with a sign. -/
def FloatFmt.signed (f : FloatFmt) (neg : Bool) (mag : Nat) : Nat := if neg then f.signBit + mag else mag

/-- An exact value: NaN, an infinity, or `±m × 2^e`, with `sticky` when the true magnitude lies strictly above it by less than `2^e`. -/
inductive FVal where
  | nan
  | inf (neg : Bool)
  | num (neg : Bool) (m : Nat) (e : Int) (sticky : Bool)
  deriving DecidableEq, Repr

/-- `value(x, fmt)` of R38. -/
def fvalue (f : FloatFmt) (x : Nat) : FVal :=
  let neg := x.testBit (f.width - 1)
  let mag := x % f.signBit
  let ex := mag >>> f.fb
  let fr := mag % 2 ^ f.fb
  if f.hasInf && decide (f.infCode ≤ mag) then (if mag = f.infCode then .inf neg else .nan)
  else if !f.hasInf && mag == f.nanCode then .nan
  else if ex = 0 then .num neg fr (f.emin - f.fb) false
  else .num neg (2 ^ f.fb + fr) (f.emin - f.fb + ((ex : Int) - 1)) false

/-- Bits of a number, 0 for 0. -/
def bitLen (n : Nat) : Nat := if n = 0 then 0 else Nat.log2 n + 1

/-- The magnitude `m × 2^e` rounded to a multiple of `2^q` (R39): the multiple, and whether it is inexact. -/
def roundAt (rm : RM) (neg : Bool) (h m : Nat) (e : Int) (sticky : Bool) (q : Int) : Nat × Bool :=
  if q ≤ e then (m <<< (e - q).toNat, sticky)
  else
    let sh := (q - e).toNat
    let n := m >>> sh
    let rem := m % 2 ^ sh
    let half := 2 ^ (sh - 1)
    let inexact := rem != 0 || sticky
    let up := match rm with
      | .rne => decide (half < rem) || (rem == half && (sticky || n % 2 == 1))
      | .rna => decide (half ≤ rem)
      | .rtz => false
      | .rup => inexact && !neg
      | .rdn => inexact && neg
      | .sr => decide (2 ^ 24 ≤ ((rem <<< 24) >>> sh) + (h >>> 8))
    (if up then n + 1 else n, inexact)

/-- The exponent of the last kept bit of a magnitude (R38). -/
def FloatFmt.lastBit (f : FloatFmt) (m : Nat) (e : Int) : Int := max (e + (bitLen m - 1 : Nat) - f.fb) (f.emin - f.fb)

/-- A magnitude far outside the format replaced by one that rounds alike. -/
def FloatFmt.near (f : FloatFmt) (m : Nat) (e : Int) (sticky : Bool) : Nat × Int × Bool :=
  let top := e + (bitLen m - 1 : Nat)
  if top < f.emin - f.fb - 64 then (1, f.emin - f.fb - 64, true)
  else if (f.bias : Int) + 64 < top then (1, f.bias + 64, sticky)
  else (m, e, sticky)

/-- `discarded(x, fmt)` of R38. -/
def discarded (f : FloatFmt) : FVal → Nat
  | .num _ m e _ =>
    let q := f.lastBit m e
    if m = 0 ∨ q ≤ e ∨ e + (bitLen m : Int) + 24 < q then 0 else ((m % 2 ^ (q - e).toNat) <<< 24) >>> (q - e).toNat
  | _ => 0

/-- `rotl32` of R38. -/
def rotl32 (x k : Nat) : Nat := ((BitVec.ofNat 32 x).rotateLeft (k % 32)).toNat

/-- `sr_hash` of R38. -/
def srHash (dp dn i : Nat) : Nat := ((dp ^^^ rotl32 dn 16 ^^^ (i * 0x2545F491 % 2 ^ 32)) * 0x9E3779B1) % 2 ^ 32

/-- An overflow (R39). -/
def overflowTo (f : FloatFmt) (rm : RM) (sat neg : Bool) : Nat × FlagSet :=
  let fl : FlagSet := { of := true, nx := true }
  if sat then (f.signed neg f.maxCode, fl)
  else if !f.hasInf then (f.nanCode, fl)
  else
    let toMax := match rm with
      | .rtz => true
      | .rup => neg
      | .rdn => !neg
      | _ => false
    (f.signed neg (if toMax then f.maxCode else f.infCode), fl)

/-- `round_to(x, fmt, mode, ftz, sat, h)` of R39: the encoding and the flags. -/
def roundTo (f : FloatFmt) (rm : RM) (ftz sat : Bool) (h : Nat) : FVal → Nat × FlagSet
  | .nan => (f.nanCode, .none)
  | .inf neg => if f.hasInf then (f.signed neg f.infCode, .none) else overflowTo f rm sat neg
  | .num neg m e sticky =>
    if m = 0 then (f.signed neg 0, .none) else
    let (m, e, sticky) := f.near m e sticky
    let top := e + (bitLen m - 1 : Nat)
    let (u, _) := roundAt rm neg h m e sticky (top - f.fb)
    let tiny := decide (top < f.emin) && !(decide (2 ^ (f.fb + 1) ≤ u) && top + 1 == f.emin)
    if ftz && tiny then (f.signed neg 0, { uf := true, nx := true }) else
    let q := f.lastBit m e
    let (n, inexact) := roundAt rm neg h m e sticky q
    let code := (q - (f.emin - f.fb)).toNat * 2 ^ f.fb + n
    if f.maxCode < code then overflowTo f rm sat neg
    else (f.signed neg code, { uf := tiny && inexact, nx := inexact })

/-- A source operand under `.ftz` (R83): a magnitude below the smallest normal reads as zero of its sign. -/
def flushIn (f : FloatFmt) (ftz : Bool) (x : Nat) : Nat := if ftz && decide (x % f.signBit < 2 ^ f.fb) then f.signed (x.testBit (f.width - 1)) 0 else x

/-- Saturation in force (R27, R147): E4M3 saturates by default, bit [4] turns the default over. -/
def satOf (fmt : Fmt) (flip : Bool) : Bool := (fmt == .e4m3x4) != flip

/-- A value with the flags that its operation raised (R81, R150). -/
structure FRes where
  v : FVal
  fl : FlagSet
  deriving DecidableEq, Repr

/-- A result without flags. -/
def FRes.pure (v : FVal) : FRes := ⟨v, .none⟩
/-- The default NaN of an invalid operation (R81). -/
def FRes.invalid : FRes := ⟨.nan, { nv := true }⟩

/-- An exact sum of two finite values, its zero signed by R149. -/
def sumNum (rm : RM) (n1 : Bool) (m1 : Nat) (e1 : Int) (n2 : Bool) (m2 : Nat) (e2 : Int) : FVal :=
  if m1 = 0 ∧ m2 = 0 then .num (if n1 = n2 then n1 else rm == .rdn) 0 0 false
  else if m1 = 0 then .num n2 m2 e2 false
  else if m2 = 0 then .num n1 m1 e1 false
  else
    let e := min e1 e2
    let a : Int := (m1 <<< (e1 - e).toNat : Nat)
    let b : Int := (m2 <<< (e2 - e).toNat : Nat)
    let t := (if n1 then -a else a) + (if n2 then -b else b)
    if t = 0 then .num (rm == .rdn) 0 0 false else .num (decide (t < 0)) t.natAbs e false

/-- The sum of two values (R81, R149). -/
def fSum (rm : RM) : FVal → FVal → FRes
  | .nan, _ | _, .nan => .pure .nan
  | .inf a, .inf b => if a = b then .pure (.inf a) else .invalid
  | .inf a, _ | _, .inf a => .pure (.inf a)
  | .num n1 m1 e1 _, .num n2 m2 e2 _ => .pure (sumNum rm n1 m1 e1 n2 m2 e2)

/-- The value with the opposite sign. -/
def FVal.negate : FVal → FVal
  | .nan => .nan
  | .inf n => .inf (!n)
  | .num n m e s => .num (!n) m e s

/-- The product of two values (R81, R149). -/
def fProd : FVal → FVal → FRes
  | .nan, _ | _, .nan => .pure .nan
  | .inf a, .inf b => .pure (.inf (a != b))
  | .inf a, .num b m _ _ | .num b m _ _, .inf a => if m = 0 then .invalid else .pure (.inf (a != b))
  | .num n1 m1 e1 _, .num n2 m2 e2 _ => .pure (.num (n1 != n2) (m1 * m2) (e1 + e2) false)

/-- The fused product and sum: an invalid product raises NV whatever the addend (R81). -/
def fFma (rm : RM) (a b c : FVal) : FRes :=
  let p := fProd a b
  if p.fl.nv then p else fSum rm p.v c

/-- The quotient of two values, to 96 bits and a sticky (R81, R150). -/
def fQuot : FVal → FVal → FRes
  | .nan, _ | _, .nan => .pure .nan
  | .inf _, .inf _ => .invalid
  | .inf a, .num b _ _ _ => .pure (.inf (a != b))
  | .num a _ _ _, .inf b => .pure (.num (a != b) 0 0 false)
  | .num a m1 e1 _, .num b m2 e2 _ =>
    if m2 = 0 then (if m1 = 0 then .invalid else ⟨.inf (a != b), { dz := true }⟩)
    else if m1 = 0 then .pure (.num (a != b) 0 0 false)
    else
      let k := bitLen m2 + 96
      let t := m1 <<< k
      .pure (.num (a != b) (t / m2) (e1 - e2 - k) (t % m2 != 0))

/-- The floor of a square root by its bits from `n` down. -/
def isqrtGo (x : Nat) : Nat → Nat → Nat
  | 0, r => r
  | n + 1, r => let t := r + 2 ^ n; isqrtGo x n (if t * t ≤ x then t else r)
/-- The floor of a square root. -/
def isqrt (x : Nat) : Nat := isqrtGo x (bitLen x / 2 + 1) 0

/-- The square root (R149, R150). -/
def fRoot : FVal → FRes
  | .nan => .pure .nan
  | .inf n => if n then .invalid else .pure (.inf false)
  | .num n m e _ =>
    if m = 0 then .pure (.num n 0 0 false)
    else if n then .invalid
    else
      let k : Nat := 200 + (if (e - 200) % 2 = 0 then 0 else 1)
      let x := m <<< k
      let r := isqrt x
      .pure (.num false r ((e - k) / 2) (r * r != x))

/-- The reciprocal of the square root (R149, R150). -/
def fRsqrt : FVal → FRes
  | .nan => .pure .nan
  | .inf n => if n then .invalid else .pure (.num false 0 0 false)
  | .num n m e _ =>
    if m = 0 then ⟨.inf n, { dz := true }⟩
    else if n then .invalid
    else
      let m' := if e % 2 = 0 then m else 2 * m
      let e' := if e % 2 = 0 then e else e - 1
      let k := bitLen m' + 100
      let z := 2 ^ (2 * k) / m'
      let r := isqrt z
      .pure (.num false r (-(k : Int) - e' / 2) (r * r * m' != 2 ^ (2 * k)))

/-- A value times a power of two (R149, R150). -/
def fScaled (v : FVal) (n : Int) : FRes :=
  match v with
  | .num s m e k => .pure (.num s m (e + n) k)
  | v => .pure v

/-- A number that orders codes as R151 does, −0 below +0. -/
def orderKey (f : FloatFmt) (x : Nat) : Int := if x.testBit (f.width - 1) then -((x % f.signBit : Nat) : Int) - 1 else (x : Int)
/-- A number that orders codes as R152 does, +0 equal to −0. -/
def compareKey (f : FloatFmt) (x : Nat) : Int := if x.testBit (f.width - 1) then -((x % f.signBit : Nat) : Int) else (x : Int)
/-- The code is a NaN (R80). -/
def isNan (f : FloatFmt) (x : Nat) : Bool := fvalue f x == .nan

/-- The smaller or the larger of two codes (R151). -/
def fExtreme (f : FloatFmt) (larger : Bool) (x y : Nat) : Nat :=
  if isNan f x then (if isNan f y then f.nanCode else y)
  else if isNan f y then x
  else if decide (orderKey f x < orderKey f y) != larger then x else y

/-- A floating condition (R152). -/
def fcondHolds (f : FloatFmt) (c : FCond) (x y : Nat) : Bool :=
  let un := isNan f x || isNan f y
  let kx := compareKey f x
  let ky := compareKey f y
  match c with
  | .eq => !un && decide (kx = ky)
  | .ne => un || decide (kx ≠ ky)
  | .lt => !un && decide (kx < ky)
  | .le => !un && decide (kx ≤ ky)
  | .gt => !un && decide (ky < kx)
  | .ge => !un && decide (ky ≤ kx)
  | .un => un
  | .ord => !un

/-- The class of a code as the bit of R153. -/
def classBit (f : FloatFmt) (x : Nat) : Nat :=
  let neg := x.testBit (f.width - 1)
  let mag := x % f.signBit
  match fvalue f x with
  | .nan => 8
  | .inf n => if n then 0 else 7
  | .num .. =>
    if mag = 0 then (if neg then 3 else 4)
    else if mag < 2 ^ f.fb then (if neg then 2 else 5)
    else (if neg then 1 else 6)

/-- A code rounded to an integral value of its format (R154). -/
def roundIntegral (f : FloatFmt) (rm : RM) (x : Nat) : Nat × FlagSet :=
  match fvalue f x with
  | .num neg m e _ =>
    if m = 0 ∨ 0 ≤ e then (x, .none)
    else
      let (n, inexact) := roundAt rm neg 0 m e false 0
      ((roundTo f .rne false false 0 (.num neg n 0 false)).1, { nx := inexact })
  | .inf _ => (x, .none)
  | .nan => (f.nanCode, .none)

/-- A value converted to an integer of `w` bits (R84): rounded first, then held in range. -/
def toInteger (w : Nat) (uns : Bool) (rm : RM) (v : FVal) : Int × FlagSet :=
  let lo : Int := if uns then 0 else -(2 ^ (w - 1))
  let hi : Int := if uns then 2 ^ w - 1 else 2 ^ (w - 1) - 1
  match v with
  | .nan => (0, { nv := true })
  | .inf neg => (if neg then lo else hi, { nv := true })
  | .num neg m e _ =>
    let (n, inexact) := roundAt rm neg 0 m e false 0
    let r : Int := if neg then -(n : Int) else n
    if hi < r then (hi, { nv := true }) else if r < lo then (lo, { nv := true }) else (r, { nx := inexact })

/-- An integer as an exact value (R84). -/
def ofInteger (n : Int) : FVal := .num (decide (n < 0)) n.natAbs 0 false

/-- The elements of a packed register (R82). -/
def unpackElems (f : FloatFmt) (k : Nat) (x : Word) : List Nat := (List.range k).map (fun i => bits x.toNat (f.width * i) f.width)
/-- A register of packed elements (R82). -/
def packElems (w : Nat) (l : List Nat) : Word := BitVec.ofNat 32 (l.foldr (fun x r => x + 2 ^ w * r) 0)

/-- The elements of one register rounded with the neighbours of R88. -/
def roundElems (f : FloatFmt) (rm : RM) (ftz sat : Bool) (ys : List FVal) : List (Nat × FlagSet) :=
  let ds := ys.map (discarded f)
  (ys.zip (List.range ys.length)).map (fun p =>
    roundTo f rm ftz sat (srHash (if p.2 = 0 then 0 else ds.getD (p.2 - 1) 0) (ds.getD (p.2 + 1) 0) p.2) p.1)

/-- The results of one register: its bits and the flags of its elements (R87, R149). -/
def roundReg (f : FloatFmt) (rm : RM) (ftz sat : Bool) (ys : List FRes) : Word × FlagSet :=
  let rs := roundElems f rm ftz sat (ys.map FRes.v)
  (packElems f.width (rs.map Prod.fst), (flagsOf (ys.map FRes.fl)).union (flagsOf (rs.map Prod.snd)))

end Sys2Proof.Machine
end

