-- ==== Sys2Proof/Machine/Transc.lean ====
section
/-! DEFINITION. The transcendental functions of 08 R149 and R150, correctly rounded: integer bounds at a fixed precision whose floors agree, and
the exact results that are rational. Fixed-point numbers stand for themselves over 2^p. -/

namespace Sys2Proof.Machine

/-- The terms `t`, `t × num / den(1)`, ... summed: `t` shrinks by `ratio k t` from one term to the next, for `n` terms. -/
def sumTerms (next : Nat → Nat → Nat) : Nat → Nat → Nat → Nat
  | 0, _, _ => 0
  | n + 1, k, t => t + sumTerms next n (k + 1) (next k t)

/-- `atanh(x)` for a fixed-point `x` of at most 1/3 (an error of less than 2^12 units). -/
def fxAtanh (p x : Nat) : Nat :=
  let x2 := (x * x) >>> p
  let rec go : Nat → Nat → Nat → Nat
    | 0, _, _ => 0
    | n + 1, k, t => t / k + go n (k + 2) ((t * x2) >>> p)
  go p 1 x

/-- `ln 2` (an error of less than 2^14 units). -/
def fxLn2 (p : Nat) : Nat := 2 * fxAtanh p (2 ^ p / 3)

/-- `exp(x)` for a fixed-point `x` below 1 (an error of less than 2^12 units). -/
def fxExp (p x : Nat) : Nat := sumTerms (fun k t => ((t * x) >>> p) / (k + 1)) (p / 2 + 8) 0 (2 ^ p)

/-- The alternating sum of the terms of an even or odd power series in `x2`, the next term `t × x2 / (k (k + 1))`. -/
def fxAlternate (p x2 : Nat) : Nat → Nat → Nat → Nat
  | 0, _, _ => 0
  | n + 1, k, t => t - fxAlternate p x2 n (k + 2) (((t * x2) >>> p) / (k * (k + 1)))

/-- `sin(x)` for a fixed-point `x` of at most 1. -/
def fxSin (p x : Nat) : Nat := fxAlternate p ((x * x) >>> p) (p / 4 + 8) 2 x
/-- `cos(x)` for a fixed-point `x` of at most 1. -/
def fxCos (p x : Nat) : Nat := fxAlternate p ((x * x) >>> p) (p / 4 + 8) 1 (2 ^ p)

/-- `atan(1/d)`. -/
def fxAtanInv (p d : Nat) : Nat :=
  let rec go : Nat → Nat → Nat → Nat
    | 0, _, _ => 0
    | n + 1, k, t => t / k - go n (k + 2) (t / (d * d))
  go (p / 2 + 4) 1 (2 ^ p / d)
/-- π by Machin's formula. -/
def fxPi (p : Nat) : Nat := 4 * (4 * fxAtanInv p 5 - fxAtanInv p 239)

/-- The units by which a fixed-point result of this file may miss its value. -/
def fxErr : Nat := 2 ^ 20

/-- A positive irrational value from a fixed-point result `v` over `2^p`, scaled by `2^e`: its first 90 bits, where the bounds of `v` agree
on them. -/
def truncated (neg : Bool) (p v : Nat) (e : Int) : Option FVal :=
  let lo := v - fxErr
  let hi := v + fxErr
  let sh := bitLen lo - 90
  if lo >>> sh = hi >>> sh ∧ 90 ≤ bitLen lo then some (.num neg (lo >>> sh) (sh - p + e) true) else none

/-- The first precision whose bounds decide the value. -/
def decideAt (f : Nat → Option FVal) : List Nat → FVal
  | [] => .nan
  | p :: r => match f p with
    | some v => v
    | none => decideAt f r

/-- The precisions tried, in bits. -/
def precisions : List Nat := [384, 640, 1024, 2048]

/-- One minus less than 2^-90, or one plus as little, as an exact value with a sticky. -/
def nearOne (neg below : Bool) : FVal := if below then .num neg (2 ^ 90 - 1) (-90) true else .num neg (2 ^ 90) (-90) true

/-- A dyadic `m × 2^e` over `2^p`, rounded down. -/
def fixed (p m : Nat) (e : Int) : Nat := if 0 ≤ e + p then m <<< (e + p).toNat else m >>> (-(e + p)).toNat

/-- The magnitude `m × 2^e` is below 2^n. -/
def smaller (m : Nat) (e n : Int) : Bool := decide (e + bitLen m ≤ n)

/-- `2^a` for a finite `a` (R149). -/
def exp2Num (neg : Bool) (m : Nat) (e : Int) : FVal :=
  if m = 0 then .num false 1 0 false
  else if !smaller m e 14 then .num false 1 (if neg then -20000 else 20000) true
  else if smaller m e (-100) then nearOne false neg
  else
    let den := 2 ^ (-e).toNat
    let num : Int := if 0 ≤ e then ((m <<< e.toNat : Nat) : Int) else m
    let a : Int := if neg then -num else num
    let whole := a / den
    let frac := (a - whole * den).toNat
    if frac = 0 then .num false 1 whole false
    else decideAt (fun p => truncated false p (fxExp p ((fixed p frac (min e 0) * fxLn2 p) >>> p)) whole) precisions

/-- `log2 a` for a positive `a` (R149). -/
def log2Num (m : Nat) (e : Int) : FVal :=
  let len := bitLen m
  let top : Int := e + (len - 1 : Nat)
  if m = 2 ^ (len - 1) then .num (decide (top < 0)) top.natAbs 0 false
  else
    let at_ (p : Nat) : Option FVal :=
      let t := fixed p m (-((len - 1 : Nat) : Int))
      let z := ((t - 2 ^ p) <<< p) / (t + 2 ^ p)
      let l := ((2 * fxAtanh p z) <<< p) / fxLn2 p
      let v : Int := top * 2 ^ p + l
      truncated (decide (v < 0)) p v.natAbs 0
    decideAt at_ precisions

/-- `sin(π r)` for a dyadic `0 < r < 2` over `2^k` that is no multiple of 1/2 (R149). -/
def sinPart (k r : Nat) : FVal :=
  let one := 2 ^ k
  let neg := decide (one ≤ r)
  let r := if one ≤ r then r - one else r
  let r := if one < 2 * r then one - r else r
  if 4 * r ≤ one then
    decideAt (fun p => truncated neg p (fxSin p ((fxPi p * fixed p r (-(k : Int))) >>> p)) 0) precisions
  else
    let c := one / 2 - r
    if smaller c (-(k : Int)) (-100) then nearOne neg true
    else decideAt (fun p => truncated neg p (fxCos p ((fxPi p * fixed p c (-(k : Int))) >>> p)) 0) precisions

/-- `sin(π (a + half))` of a finite `a`; `half` is 0 for FSIN and 1/2 for FCOS (R149, R150). -/
def sinNum (half : Bool) (neg : Bool) (m : Nat) (e : Int) : FVal :=
  let k := max 1 (-e).toNat
  let mag := m <<< (e + k).toNat
  let two := 2 * 2 ^ k
  let a : Int := (if neg then -(mag : Int) else mag) + (if half then 2 ^ (k - 1) else 0)
  let r := (a % two).toNat
  if r % 2 ^ k = 0 then .num (neg && !half) 0 0 false
  else if 2 * r = 2 ^ k then .num false 1 0 false
  else if 2 * r = 3 * 2 ^ k then .num true 1 0 false
  else sinPart k r

/-- `tanh a` of a finite `a` (R149, R150). -/
def tanhNum (neg : Bool) (m : Nat) (e : Int) : FVal :=
  if m = 0 then .num neg 0 0 false
  else if smaller m e (-100) then .num neg ((m <<< 90) - 1) (e - 90) true
  else if !smaller m e 6 then nearOne neg true
  else decideAt (fun p =>
    let x := 2 * fixed p m e
    let l2 := fxLn2 p
    let n := x / l2
    let y := (fxExp p (x - n * l2)) <<< n
    truncated neg p (((y - 2 ^ p) <<< p) / (y + 2 ^ p)) 0) precisions

/-- FEXP2 (R149, R150). -/
def fExp2 : FVal → FRes
  | .nan => .pure .nan
  | .inf n => .pure (if n then .num false 0 0 false else .inf false)
  | .num n m e _ => .pure (exp2Num n m e)

/-- FLOG2 (R149, R150). -/
def fLog2 : FVal → FRes
  | .nan => .pure .nan
  | .inf n => if n then .invalid else .pure (.inf false)
  | .num n m e _ => if m = 0 then ⟨.inf true, { dz := true }⟩ else if n then .invalid else .pure (log2Num m e)

/-- FSIN (R149, R150): an infinity gives the default NaN without a flag. -/
def fSin : FVal → FRes
  | .nan | .inf _ => .pure .nan
  | .num n m e _ => .pure (sinNum false n m e)

/-- FCOS (R149, R150). -/
def fCos : FVal → FRes
  | .nan | .inf _ => .pure .nan
  | .num n m e _ => .pure (sinNum true n m e)

/-- FTANH (R149, R150). -/
def fTanh : FVal → FRes
  | .nan => .pure .nan
  | .inf n => .pure (.num n 1 0 false)
  | .num n m e _ => .pure (tanhNum n m e)

end Sys2Proof.Machine
end

