-- ==== Sys2Proof/Machine/FloatOps.lean ====
section
/-! DEFINITION. Floating-point arithmetic, comparison and the conversions (08 R149 to R159). -/

namespace Sys2Proof.Machine

/-- The float elements of a source register, flushed by R83 (R149). -/
def Env.elems (e : Env) (fmt : Fmt) (ftz : Bool) (t : Thread) (a : Src) : List Nat :=
  (unpackElems (elemFmt fmt) (fmtElems fmt) (e.src 0 t a)).map (flushIn (elemFmt fmt) ftz)

/-- Results of every active thread with their flags: the flags are set and the register is written (R149). -/
def writeFlagged (s : State) (e : Env) (d : Dst) (vals : List (TRef × Word × FlagSet)) : State :=
  writeDst (setFlags s (vals.map (fun p => (p.1, p.2.2)))) e d [vals.map (fun p => (p.1, p.2.1))]

/-- A word of R149: exact results of each thread's elements, rounded once. -/
def arithBody (g : Guard) (m : FMod) (d : Dst) (f : Env → Thread → List FRes) : Env → State → Res :=
  plain g (fun e act s =>
    writeFlagged s e d (forEach act (fun t => roundReg (elemFmt m.fmt) m.rm m.ftz (satOf m.fmt m.flip) (f e t))))

/-- A word of R149 with one source. -/
def arith1 (g : Guard) (m : FMod) (d : Dst) (a : Src) (f : FVal → FRes) : Env → State → Res :=
  arithBody g m d (fun e t => (e.elems m.fmt m.ftz t a).map (fun x => f (fvalue (elemFmt m.fmt) x)))

/-- A word of R149 with two float sources. -/
def arith2 (g : Guard) (m : FMod) (d : Dst) (a b : Src) (f : FVal → FVal → FRes) : Env → State → Res :=
  arithBody g m d (fun e t => ((e.elems m.fmt m.ftz t a).zip (e.elems m.fmt m.ftz t b)).map (fun p =>
    f (fvalue (elemFmt m.fmt) p.1) (fvalue (elemFmt m.fmt) p.2)))

/-- FADD (R149). -/
def execFadd (g : Guard) (m : FMod) (d : Dst) (a b : Src) (s : State) : Host.Outcome State Fault Refusal :=
  issue (.fadd g m d a b) s (arith2 g m d a b (fSum m.rm))
/-- FSUB (R149). -/
def execFsub (g : Guard) (m : FMod) (d : Dst) (a b : Src) (s : State) : Host.Outcome State Fault Refusal :=
  issue (.fsub g m d a b) s (arith2 g m d a b (fun x y => fSum m.rm x y.negate))
/-- FMUL (R149). -/
def execFmul (g : Guard) (m : FMod) (d : Dst) (a b : Src) (s : State) : Host.Outcome State Fault Refusal :=
  issue (.fmul g m d a b) s (arith2 g m d a b fProd)
/-- FFMA (R149): the exact product and its addend, rounded once. -/
def execFfma (g : Guard) (m : FMod) (d : Dst) (a b c : Src) (s : State) : Host.Outcome State Fault Refusal :=
  issue (.ffma g m d a b c) s (arithBody g m d (fun e t =>
    ((e.elems m.fmt m.ftz t a).zip ((e.elems m.fmt m.ftz t b).zip (e.elems m.fmt m.ftz t c))).map (fun p =>
      fFma m.rm (fvalue (elemFmt m.fmt) p.1) (fvalue (elemFmt m.fmt) p.2.1) (fvalue (elemFmt m.fmt) p.2.2))))
/-- FDIV (R149). -/
def execFdiv (g : Guard) (m : FMod) (d : Dst) (a b : Src) (s : State) : Host.Outcome State Fault Refusal :=
  issue (.fdiv g m d a b) s (arith2 g m d a b fQuot)
/-- FSQRT (R149). -/
def execFsqrt (g : Guard) (m : FMod) (d : Dst) (a : Src) (s : State) : Host.Outcome State Fault Refusal :=
  issue (.fsqrt g m d a) s (arith1 g m d a fRoot)
/-- FRCP (R149). -/
def execFrcp (g : Guard) (m : FMod) (d : Dst) (a : Src) (s : State) : Host.Outcome State Fault Refusal :=
  issue (.frcp g m d a) s (arith1 g m d a (fQuot (.num false 1 0 false)))
/-- FRSQ (R149). -/
def execFrsq (g : Guard) (m : FMod) (d : Dst) (a : Src) (s : State) : Host.Outcome State Fault Refusal :=
  issue (.frsq g m d a) s (arith1 g m d a fRsqrt)
/-- FEXP2 (R149). -/
def execFexp2 (g : Guard) (m : FMod) (d : Dst) (a : Src) (s : State) : Host.Outcome State Fault Refusal :=
  issue (.fexp2 g m d a) s (arith1 g m d a fExp2)
/-- FLOG2 (R149). -/
def execFlog2 (g : Guard) (m : FMod) (d : Dst) (a : Src) (s : State) : Host.Outcome State Fault Refusal :=
  issue (.flog2 g m d a) s (arith1 g m d a fLog2)
/-- FSIN (R149). -/
def execFsin (g : Guard) (m : FMod) (d : Dst) (a : Src) (s : State) : Host.Outcome State Fault Refusal :=
  issue (.fsin g m d a) s (arith1 g m d a fSin)
/-- FCOS (R149). -/
def execFcos (g : Guard) (m : FMod) (d : Dst) (a : Src) (s : State) : Host.Outcome State Fault Refusal :=
  issue (.fcos g m d a) s (arith1 g m d a fCos)
/-- FTANH (R149). -/
def execFtanh (g : Guard) (m : FMod) (d : Dst) (a : Src) (s : State) : Host.Outcome State Fault Refusal :=
  issue (.ftanh g m d a) s (arith1 g m d a fTanh)
/-- FSCALE (R149): one 32-bit integer exponent for all sub-elements. -/
def execFscale (g : Guard) (m : FMod) (d : Dst) (a b : Src) (s : State) : Host.Outcome State Fault Refusal :=
  issue (.fscale g m d a b) s (arithBody g m d (fun e t =>
    (e.elems m.fmt m.ftz t a).map (fun x => fScaled (fvalue (elemFmt m.fmt) x) (e.src 0 t b).toInt)))

/-- A word that writes one code for each pair of elements and raises no flag (R151). -/
def pickBody (g : Guard) (fmt : Fmt) (ftz : Bool) (d : Dst) (a b : Src) (f : FloatFmt → Nat → Nat → Nat) : Env → State → Res :=
  plain g (fun e act s => writeDst s e d [forEach act (fun t =>
    packElems (elemFmt fmt).width (((e.elems fmt ftz t a).zip (e.elems fmt ftz t b)).map (fun p => f (elemFmt fmt) p.1 p.2)))])

/-- FMIN (R151). -/
def execFmin (g : Guard) (fmt : Fmt) (ftz : Bool) (d : Dst) (a b : Src) (s : State) : Host.Outcome State Fault Refusal :=
  issue (.fmin g fmt ftz d a b) s (pickBody g fmt ftz d a b (fun f => fExtreme f false))
/-- FMAX (R151). -/
def execFmax (g : Guard) (fmt : Fmt) (ftz : Bool) (d : Dst) (a b : Src) (s : State) : Host.Outcome State Fault Refusal :=
  issue (.fmax g fmt ftz d a b) s (pickBody g fmt ftz d a b (fun f => fExtreme f true))

/-- A mask of sub-elements: all ones where the condition holds (R152, R153). -/
def maskReg (fmt : Fmt) (cs : List Bool) : Word :=
  packElems (elemFmt fmt).width (cs.map (fun c => if c then 2 ^ (elemFmt fmt).width - 1 else 0))

/-- FCMP (R152): the predicate takes the AND, the register the mask. -/
def execFcmp (g : Guard) (fmt : Fmt) (ftz : Bool) (cond : FCond) (p : Fin 64) (d : Dst) (a b : Src) (s : State) :
    Host.Outcome State Fault Refusal :=
  issue (.fcmp g fmt ftz cond p d a b) s (plain g (fun e act s =>
    let cs (t : Thread) := ((e.elems fmt ftz t a).zip (e.elems fmt ftz t b)).map (fun q => fcondHolds (elemFmt fmt) cond q.1 q.2)
    writeDst (writePred s p (forEach act (fun t => (cs t).all id))) e d [forEach act (fun t => maskReg fmt (cs t))]))

/-- FCLASS (R153). -/
def execFclass (g : Guard) (fmt : Fmt) (ftz : Bool) (mask : BitVec 9) (d : Dst) (a : Src) (s : State) :
    Host.Outcome State Fault Refusal :=
  issue (.fclass g fmt ftz mask d a) s (plain g (fun e act s => writeDst s e d [forEach act (fun t =>
    maskReg fmt ((e.elems fmt ftz t a).map (fun x => mask.getLsbD (classBit (elemFmt fmt) x))))]))

/-- FRND (R154). -/
def execFrnd (g : Guard) (fmt : Fmt) (rm : RM) (ftz : Bool) (d : Dst) (a : Src) (s : State) : Host.Outcome State Fault Refusal :=
  issue (.frnd g fmt rm ftz d a) s (plain g (fun e act s => writeFlagged s e d (forEach act (fun t =>
    let rs := (e.elems fmt ftz t a).map (roundIntegral (elemFmt fmt) rm)
    (packElems (elemFmt fmt).width (rs.map Prod.fst), flagsOf (rs.map Prod.snd))))))

/-- The units of a conversion's source that a thread reads, `per` elements in each, `k` elements in all (R155). -/
def convRead (unit : Nat → List Nat) (per k : Nat) : List Nat := (List.range (k / per)).flatMap unit

/-- A conversion of exact values to floats (R155): the elements of each destination register rounded, one `lwrite` for each register. -/
def convWrite (s : State) (e : Env) (m : FMod) (d : Dst) (k : Nat) (vals : List (TRef × List FVal)) : State :=
  let f := elemFmt m.fmt
  let per := fmtElems m.fmt
  let regs (v : List FVal) := (chunks per k v).map (fun c => roundReg f m.rm m.ftz (satOf m.fmt m.flip) (c.map FRes.pure))
  let done := vals.map (fun p => (p.1, regs p.2))
  let s := setFlags s (done.map (fun p => (p.1, flagsOf (p.2.map Prod.snd))))
  writeDst s e d ((List.range (k / per)).map (fun i => done.map (fun p => (p.1, (p.2.getD i (0, .none)).1))))

/-- The float elements of one register of a conversion's source (R155). -/
def Env.convElems (e : Env) (fmt : Fmt) (ftz : Bool) (t : Thread) (a : Src) (i : Nat) : List Nat :=
  (unpackElems (elemFmt fmt) (fmtElems fmt) (e.srcAt t a i)).map (flushIn (elemFmt fmt) ftz)

/-- The bits of an element of an integer kind (R157). -/
def kindWidth : IKind → Nat
  | .i32 => 32 | .i16x2 => 16 | .i8x4 => 8 | .i64 => 64

/-- The integers of one unit of a conversion's source (R157). -/
def Env.convInts (e : Env) (kind : IKind) (t : Thread) (a : Src) (i : Nat) : List Nat :=
  match kind with
  | .i64 => [(pairWord (e.srcAt t a (2 * i + 1)) (e.srcAt t a (2 * i))).toNat]
  | k => (List.range (kindElems k)).map (fun j => bits (e.srcAt t a i).toNat (kindWidth k * j) (kindWidth k))

/-- A pattern of `w` bits as an integer (R85). -/
def asInt (w : Nat) (uns : Bool) (x : Nat) : Int := if !uns && x.testBit (w - 1) then (x : Int) - 2 ^ w else x

/-- FCVT (R156). -/
def execFcvt (g : Guard) (m : FMod) (sfmt : Fmt) (d : Dst) (a : Src) (s : State) : Host.Outcome State Fault Refusal :=
  issue (.fcvt g m sfmt d a) s (plain g (fun e act s =>
    let k := max (fmtElems sfmt) (fmtElems m.fmt)
    convWrite s e m d k (forEach act (fun t =>
      (convRead (e.convElems sfmt m.ftz t a) (fmtElems sfmt) k).map (fvalue (elemFmt sfmt))))))

/-- ICVT (R157). -/
def execIcvt (g : Guard) (m : FMod) (kind : IKind) (uns : Bool) (d : Dst) (a : Src) (s : State) : Host.Outcome State Fault Refusal :=
  issue (.icvt g m kind uns d a) s (plain g (fun e act s =>
    let k := max (kindElems kind) (fmtElems m.fmt)
    convWrite s e m d k (forEach act (fun t =>
      (convRead (e.convInts kind t a) (kindElems kind) k).map (fun x => ofInteger (asInt (kindWidth kind) uns x))))))

/-- FCVTI (R158): the integers of each destination unit packed, one `lwrite` for each register. -/
def execFcvti (g : Guard) (kind : IKind) (uns : Bool) (sfmt : Fmt) (rm : RM) (ftz : Bool) (d : Dst) (a : Src) (s : State) :
    Host.Outcome State Fault Refusal :=
  issue (.fcvti g kind uns sfmt rm ftz d a) s (plain g (fun e act s =>
    let k := max (fmtElems sfmt) (kindElems kind)
    let w := kindWidth kind
    let done := forEach act (fun t =>
      (convRead (e.convElems sfmt ftz t a) (fmtElems sfmt) k).map (fun x => toInteger w uns rm (fvalue (elemFmt sfmt) x)))
    let s := setFlags s (done.map (fun p => (p.1, flagsOf (p.2.map Prod.snd))))
    let word (l : List Nat) (i : Nat) : Word :=
      if kind == .i64 then BitVec.ofNat 32 (l.getD (i / 2) 0 >>> (32 * (i % 2)))
      else packElems w (l.drop (kindElems kind * i) |>.take (kindElems kind))
    let pats (l : List (Int × FlagSet)) : List Nat := l.map (fun p => (p.1 % 2 ^ w).toNat)
    writeDst s e d ((List.range (k / kindElems kind * kindRegs kind)).map (fun i => done.map (fun p => (p.1, word (pats p.2) i))))))

/-- `kb_decode` (R38, R89): element `x` of `n` bits under the exponents E0 and E1. -/
def kbDecode (n : Nat) (e0 e1 x : Nat) : FVal :=
  if e0 = 255 ∨ e1 = 255 then .nan
  else
    let sel := x.testBit (n - 1)
    let scale : Int := if n = 8 then 5 else 1
    .num (x.testBit (n - 2)) (x % 2 ^ (n - 2)) ((if sel then e1 else e0 : Nat) - 127 - scale) false

/-- KDEC (R159): a `.f32` result is exact, so that `.ftz` flushes results of 16 bits only (DEDUCED, log 62). -/
def execKdec (g : Guard) (m : FMod) (kb4 : Bool) (d : Dst) (a b : Src) (s : State) : Host.Outcome State Fault Refusal :=
  issue (.kdec g m kb4 d a b) s (plain g (fun e act s =>
    let n := if kb4 then 4 else 8
    let k := if kb4 then 8 else 4
    convWrite s e { m with ftz := m.ftz && m.fmt != .f32 } d k (forEach act (fun t =>
      let sc := (e.src 0 t b).toNat
      (List.range k).map (fun i => kbDecode n (bits sc 0 8) (bits sc 8 8) (bits (e.src 0 t a).toNat (n * i) n))))))

end Sys2Proof.Machine
end

