-- ==== Sys2Proof/Machine/Shape.lean ====
section
/-! DEFINITION. Shape records (12 R236, R237; 13 R245): their fields, validity, and element addresses. -/

namespace Sys2Proof.Machine

/-- Half bytes of an element of a memory format (R211, R236): 0 to 6 the formats of R209, 7 to 10 b8, b16, b32 and b64. -/
def halfBytes (fmt : Nat) : Nat := [2, 2, 2, 1, 4, 4, 8, 2, 4, 8, 16].getD fmt 0

/-- The format is a Kilulo format (R89). -/
def isKilulo (fmt : Nat) : Bool := fmt == 2 || fmt == 3

/-- Bytes of an element, 1 for the byte of KB4 (R245). -/
def elemBytes (fmt : Nat) : Nat := (halfBytes fmt + 1) / 2

/-- V of an entry (R236). -/
def shapeV (r : Nat) : Bool := r.testBit 471
/-- RIGHTS of an entry. -/
def shapeRights (r : Nat) : Nat := bits r 464 4
/-- NDIM of an entry, dimensions minus 1. -/
def shapeNdim (r : Nat) : Nat := bits r 460 2
/-- FMT of an entry. -/
def shapeFmt (r : Nat) : Nat := bits r 456 4
/-- STRIDE of a dimension from 1 to 3. -/
def shapeStride (r j : Nat) : Nat := bits r (256 + 64 * (j - 1)) 64
/-- EXTENT of a dimension. -/
def shapeExtent (r j : Nat) : Nat := bits r (128 + 32 * j) 32
/-- SCALE of an entry. -/
def shapeScale (r : Nat) : Nat := bits r 64 64
/-- BASE of an entry. -/
def shapeBase (r : Nat) : Nat := bits r 0 64

/-- An entry is valid (R236). -/
def shapeValid (r : Nat) : Bool :=
  shapeV r && bits r 472 40 == 0 && bits r 468 3 == 0 && bits r 462 2 == 0 && bits r 448 8 == 0 && decide (shapeFmt r < 11) &&
    (List.range (shapeNdim r + 1)).all (fun j => decide (1 ≤ shapeExtent r j)) &&
    (!isKilulo (shapeFmt r) || shapeExtent r 0 % 32 == 0) && shapeBase r % elemBytes (shapeFmt r) == 0

/-- The lowest dimension whose coordinate is out of bounds (R245). -/
def shapeOut (r : Nat) (xs : List Nat) : Option Nat :=
  (List.range 4).find? (fun j =>
    if j ≤ shapeNdim r then decide (shapeExtent r j ≤ xs.getD j 0) else xs.getD j 0 != 0)

/-- The address of an element (R245). -/
def shapeAddr (r : Nat) (xs : List Nat) : Nat :=
  (shapeBase r + (if shapeFmt r = 3 then xs.getD 0 0 / 2 else xs.getD 0 0 * elemBytes (shapeFmt r)) + xs.getD 1 0 * shapeStride r 1 +
    xs.getD 2 0 * shapeStride r 2 + xs.getD 3 0 * shapeStride r 3) % 2 ^ 64

/-- The address of the scale pair of an element (R245). -/
def shapeScaleAddr (r : Nat) (xs : List Nat) : Nat :=
  (shapeScale r + 2 * (xs.getD 0 0 / 32 + shapeExtent r 0 / 32 * (xs.getD 1 0 + shapeExtent r 1 *
    (xs.getD 2 0 + shapeExtent r 2 * xs.getD 3 0)))) % 2 ^ 64

/-- The address of an entry of the table (R237, R245). -/
def entryAddr (c : Ctx) (idx : Nat) : Nat := (c.rcd.objBase + 64 * idx) % 2 ^ 64

end Sys2Proof.Machine
end

