-- ==== Sys2Proof/Machine/Arrays.lean ====
section
/-! DEFINITION. The arithmetic of the matrix arrays (11 R209 to R212, R218; 05 R90 to R92): format words, tiles, the down-converter with the
Kilulo encoder, the multiply chain, and the units of tiles in memory (11 R217, 13 R245). -/

namespace Sys2Proof.Machine

/-- The float format of a format code that is no Kilulo format (R209). -/
def codeFmt (fmt : Nat) : FloatFmt :=
  match fmt with
  | 0 => e4m3 | 1 => e5m2 | 4 => bf16 | 5 => fp16 | _ => fp32

/-- The full K of a format's class (R210). -/
def fullK (fmt : Nat) : Nat := [128, 128, 128, 256, 64, 64, 16].getD fmt 0

/-- AFMT of a format word (R209). -/
def fwA (w : Word) : Nat := bits w.toNat 0 4
/-- BFMT of a format word. -/
def fwB (w : Word) : Nat := bits w.toNat 4 4
/-- RND of a format word. -/
def fwRnd (w : Word) : RM := match bits w.toNat 8 2 with | 0 => .rne | 1 => .rtz | 2 => .sr | _ => .rna
/-- GAP of a format word, 0 meaning 3. -/
def fwGap (w : Word) : Nat := if bits w.toNat 10 3 = 0 then 3 else bits w.toNat 10 3
/-- SAT of a format word. -/
def fwSat (w : Word) : Bool := w.getLsbD 13
/-- TA of a format word. -/
def fwTA (w : Word) : Bool := w.getLsbD 14
/-- TB of a format word. -/
def fwTB (w : Word) : Bool := w.getLsbD 15
/-- CHAIN of a format word. -/
def fwChain (w : Word) : Bool := w.getLsbD 16
/-- FRESH of a format word. -/
def fwFresh (w : Word) : Bool := w.getLsbD 17

/-- The reserved bits of a format word are 0, and AFMT is a format (R210). -/
def fwPlain (w : Word) : Bool := bits w.toNat 18 14 == 0 && decide (fwA w ≤ 6)
/-- BFMT, TB and CHAIN are 0 (R210). -/
def fwOneTile (w : Word) : Bool := fwB w == 0 && !fwTB w && !fwChain w

/-- K of an MMA (R204): the K field, or the full K where the field is 0. -/
def mmaK (w : Word) (k : Nat) : Nat := if k = 0 then fullK (fwA w) else k

/-- The format word and K of an MMA are valid (R208, R210). -/
def mmaFormat (w : Word) (k : Nat) : Bool :=
  fwPlain w && decide (fwB w ≤ 6) && fullK (fwA w) == fullK (fwB w) && decide (1 ≤ mmaK w k ∧ mmaK w k ≤ fullK (fwA w)) &&
    (!fwChain w || decide (mmaK w k ≤ 128)) && (!(isKilulo (fwA w) || isKilulo (fwB w)) || mmaK w k % 32 == 0)
/-- The format word of an MLDA is valid (R210). -/
def mldaFormat (w : Word) : Bool := fwPlain w && fwOneTile w
/-- The format word of an MSTA is valid (R210). -/
def mstaFormat (w : Word) : Bool := fwPlain w && fwOneTile w && !fwFresh w

/-- Bytes of the element plane of a tile (R211). -/
def planeBytes (fmt rows len : Nat) : Nat := rows * len * halfBytes fmt / 2
/-- Bytes of a tile, its scale plane included (R211). -/
def tileBytes (fmt rows len : Nat) : Nat := planeBytes fmt rows len + if isKilulo fmt then rows * (len / 32) * 2 else 0

/-- The value of an element from the bytes that `rd` gives: `i` its number, `block` its block's and `plane` where the scale plane starts. -/
def elemValue (rd : Nat → Byte) (fmt i block plane : Nat) : FVal :=
  let scale (k : Nat) : Nat := (rd (plane + 2 * block + k)).toNat
  if fmt = 2 then kbDecode 8 (scale 0) (scale 1) (rd i).toNat
  else if fmt = 3 then kbDecode 4 (scale 0) (scale 1) (bits (rd (i / 2)).toNat (4 * (i % 2)) 4)
  else
    let n := elemBytes fmt
    fvalue (codeFmt fmt) (leNat ((List.range n).map (fun k => rd (i * n + k))))

/-- The element of a stored tile in a row and column (R89, R90, R211). -/
def tileElem (rd : Nat → Byte) (fmt rows len r c : Nat) : FVal :=
  elemValue rd fmt (r * len + c) (r * (len / 32) + c / 32) (planeBytes fmt rows len)

/-- The element (m, k) of an operand tile of `rows` rows and `len` columns, stored transposed where `t` says so (R211). -/
def operandElem (rd : Nat → Byte) (fmt rows len : Nat) (t : Bool) (m k : Nat) : FVal :=
  if t then tileElem rd fmt len rows k m else tileElem rd fmt rows len m k

/-- The FP32 code of a value that FP32 holds, or the default NaN (R217). -/
def exactCode (v : FVal) : Word := BitVec.ofNat 32 (roundTo fp32 .rne false false 0 v).1

/-- The 24 bits immediately below the binary point of `m × 2^e` (R91). -/
def frac24 (m : Nat) (e : Int) : Nat := if 0 ≤ e then 0 else ((m % 2 ^ (-e).toNat) <<< 24) >>> (-e).toNat

/-- The magnitude of a finite value, as `m` and `e`. -/
def FVal.mag : FVal → Nat × Int
  | .num _ m e _ => (m, e)
  | _ => (0, 0)
/-- The sign of a value. -/
def FVal.neg : FVal → Bool
  | .num n _ _ _ | .inf n => n
  | .nan => false
/-- The value is an infinity. -/
def FVal.isInf : FVal → Bool
  | .inf _ => true
  | _ => false

/-- A block of the Kilulo encoder (R91): its E0, or none where all its elements are NaN, its values with infinities saturated, and the
flags of its specials. -/
structure KbBlock where
  e0 : Option Nat
  xs : List FVal
  fl : FlagSet
  deriving DecidableEq, Repr

/-- The first lines of R91. -/
def kbBlock (gap : Nat) (sat : Bool) (xs : List FVal) : KbBlock :=
  let inf := xs.any FVal.isInf
  if xs.contains .nan || (inf && !sat) then ⟨none, xs, { nv := inf }⟩
  else
    let xs := xs.map (fun x => if x.isInf then .num x.neg (2 ^ 24 - 1) 104 false else x)
    let logs : List Int := xs.filterMap (fun x => if x.mag.1 = 0 then none else some (x.mag.2 + (bitLen x.mag.1 - 1 : Nat) + 127))
    ⟨some (logs.foldl max (gap : Int)).toNat, xs, { of := inf, nx := inf }⟩

/-- The binary exponent that scales a value to an element's units under an exponent byte: KB8 has five fraction bits and KB4 one. -/
def kbShift (kb4 : Bool) (ex : Nat) : Int := (if kb4 then 1 else 5) + 127 - (ex : Int)

/-- Dref of a block's elements (R91). -/
def KbBlock.drefs (kb4 : Bool) (b : KbBlock) : List Nat :=
  match b.e0 with
  | none => b.xs.map (fun _ => 0)
  | some e0 => b.xs.map (fun x => frac24 x.mag.1 (x.mag.2 + kbShift kb4 e0))

/-- One element of a block (R91): its bits and whether it is inexact. -/
def kbElem (kb4 : Bool) (gap : Nat) (rm : RM) (h e0 : Nat) (x : FVal) : Nat × Bool :=
  let mmax := if kb4 then 3 else 63
  let w := if kb4 then 4 else 8
  let sign := if x.neg then 2 ^ (w - 2) else 0
  let r1 := roundAt rm false h x.mag.1 (x.mag.2 + kbShift kb4 (e0 - gap)) false 0
  let r0 := roundAt rm false h x.mag.1 (x.mag.2 + kbShift kb4 e0) false 0
  if r1.1 < mmax then (2 ^ (w - 1) + sign + r1.1, r1.2) else (sign + min r0.1 mmax, r0.2 || decide (mmax < r0.1))

/-- The Kilulo encoding of a line (R91, R218): element bits, exponent bytes of its blocks, and flags. -/
def kbLine (kb4 : Bool) (gap : Nat) (rm : RM) (sat : Bool) (xs : List FVal) : List Nat × List (Nat × Nat) × FlagSet :=
  let bs := (chunks 32 4 xs).map (kbBlock gap sat)
  let ds := bs.flatMap (KbBlock.drefs kb4)
  let elems := (bs.zip (List.range bs.length)).flatMap (fun p => match p.1.e0 with
    | none => p.1.xs.map (fun _ => (0, false))
    | some e0 => (p.1.xs.zip (List.range 32)).map (fun q =>
      let j := 32 * p.2 + q.2
      kbElem kb4 gap rm (srHash (if j = 0 then 0 else ds.getD (j - 1) 0) (ds.getD (j + 1) 0) j) e0 q.1))
  (elems.map Prod.fst, bs.map (fun b => match b.e0 with | none => (255, 255) | some e0 => (e0, e0 - gap)),
    (flagsOf (bs.map KbBlock.fl)).union { nx := elems.any Prod.snd })

/-- THE DOWN-CONVERTER (R218): a line of 128 FP32 codes in AFMT of a format word, as element codes, scale pairs and flags. -/
def convertLine (w : Word) (line : List Word) : List Nat × List (Nat × Nat) × FlagSet :=
  let fmt := fwA w
  let xs := line.map (fun x => fvalue fp32 x.toNat)
  if fmt = 6 then (line.map BitVec.toNat, [], .none)
  else if isKilulo fmt then kbLine (fmt == 3) (fwGap w) (fwRnd w) (fwSat w) xs
  else
    let rs := roundElems (codeFmt fmt) (fwRnd w) false (fwSat w) xs
    (rs.map Prod.fst, [], flagsOf (rs.map Prod.snd))

/-- The values of a converted line (R212, R218). -/
def lineValues (fmt : Nat) (codes : List Nat) (scales : List (Nat × Nat)) : List FVal :=
  (codes.zip (List.range codes.length)).map (fun p =>
    if isKilulo fmt then
      let sc := scales.getD (p.2 / 32) (0, 0)
      kbDecode (if fmt = 3 then 4 else 8) sc.1 sc.2 p.1
    else fvalue (codeFmt fmt) p.1)

/-- The element bytes of a converted line (R90, R211). -/
def lineBytes (fmt : Nat) (codes : List Nat) : List Byte :=
  if fmt = 3 then (chunks 2 codes.length codes).map (fun c => BitVec.ofNat 8 (c.getD 0 0 + 16 * c.getD 1 0))
  else codes.flatMap (leBytes (elemBytes fmt))

/-- The chain of R92 over the products in ascending k, from an accumulator. -/
def fmaChain (acc : Nat) (fl : FlagSet) : List (FVal × FVal) → Nat × FlagSet
  | [] => (acc, fl)
  | (a, b) :: r =>
    let q := fFma .rne a b (fvalue fp32 acc)
    let z := roundTo fp32 .rne false false 0 q.v
    fmaChain z.1 ((fl.union q.fl).union z.2) r

/-- THE MULTIPLY (R212): the cells by rows and the flags, from the old cells, the rows of A and the columns of B. -/
def multiply (old : Nat → Word) (a : Nat → List FVal) (b : Nat → List FVal) : List Word × FlagSet :=
  let cells := (List.range 128).flatMap (fun m => (List.range 128).map (fun n =>
    fmaChain (old (128 * m + n)).toNat .none ((a m).zip (b n))))
  (cells.map (fun c => BitVec.ofNat 32 c.1), flagsOf (cells.map Prod.snd))

/-- A cell of a slot (R212); `i` counts by rows. -/
def SlotData.cell (d : SlotData) (i : Nat) : Word :=
  match d with
  | .zero => 0
  | .undef n => BitVec.ofNat 32 (Config.freeCell n i)
  | .cells c => c.getD i 0

/-- A line of a slot (R218): a row, or a column where `col` says so. -/
def SlotData.line (d : SlotData) (col : Bool) (j : Nat) : List Word :=
  (List.range 128).map (fun i => d.cell (if col then 128 * i + j else 128 * j + i))

/-- The units of one row of a tile in memory (R217, R245): its elements, or the bytes of KB4, and then its scale bytes.
A Kilulo row that begins inside a block of the array is placed as log 59 says. -/
def rowUnits (rec_ : Nat) (w : Word) (xs : List Nat) (r : Nat) : List (Nat × Nat) × List (Nat × Nat) :=
  let fmt := fwA w
  let n := elemBytes fmt
  let at_ (c : Nat) : List Nat := [xs.getD 0 0 + c, xs.getD 1 0 + r, xs.getD 2 0, xs.getD 3 0]
  let base := shapeAddr rec_ (at_ 0)
  ((List.range (128 * halfBytes fmt / 2 / n)).map (fun i => ((base + i * n) % 2 ^ 64, n)),
    if isKilulo fmt then (List.range 4).flatMap (fun j => (List.range 2).map (fun k => ((shapeScaleAddr rec_ (at_ (32 * j)) + k) % 2 ^ 64, 1)))
    else [])

/-- The bytes of a tile row in memory that an MLDA reads, and its scale bytes (R217, R245), as addresses and lengths. -/
def loadUnits (rec_ : Nat) (w : Word) (xs : List Nat) (r : Nat) : List (Nat × Nat) × List (Nat × Nat) :=
  let fmt := fwA w
  let n := elemBytes fmt
  let x0 := xs.getD 0 0
  let at_ (c : Nat) : List Nat := [c, xs.getD 1 0 + r, xs.getD 2 0, xs.getD 3 0]
  let count := if fmt = 3 then (x0 % 2 + 129) / 2 else 128
  ((List.range count).map (fun i => ((shapeAddr rec_ (at_ x0) + i * n) % 2 ^ 64, n)),
    if isKilulo fmt then (List.range ((x0 % 32 + 159) / 32)).flatMap (fun j =>
      (List.range 2).map (fun k => ((shapeScaleAddr rec_ (at_ (x0 / 32 * 32 + 32 * j)) + k) % 2 ^ 64, 1)))
    else [])

/-- The units of memory that an MLDA or MSTA `.obj` reaches, none for another operation (R217). -/
def MOp.memUnits (m : MOp) : List (Nat × Nat) :=
  match m.obj with
  | none => []
  | some (r, xs) => (List.range 128).flatMap (fun i =>
      let u := if m.kind == .msta then rowUnits r m.fmt xs i else loadUnits r m.fmt xs i
      u.1 ++ u.2)

end Sys2Proof.Machine
end

