-- ==== Sys2Proof/Machine/Lanes.lean ====
section
/-! DEFINITION. Lane instructions (08 R160 to R167) and the ordered reductions that they share with the pond collectives (05 R93, R94). -/

namespace Sys2Proof.Machine

/-- `val_x[j]` of R160: the source as the active thread of a lane reads it, none where the lane is absent. -/
def laneVal {α : Type} (act : List Thread) (f : Thread → α) (j : Nat) : Option α := (act.find? (fun t => t.lane == j)).map f

/-- The same of a lane of the pool, none from the grant up (R160, R162). -/
def Env.poolVal {α : Type} (e : Env) (act : List Thread) (f : Thread → α) (j : Nat) : Option α := if j < e.pool.grant then laneVal act f j else none

/-- A lane instruction that writes one 32-bit result for every active thread, by their values (R160). -/
def laneBody (g : Guard) (d : Dst) (f : Env → List Thread → Thread → Word) : Env → State → Res :=
  plain g (fun e act s => writeDst s e d [forEach act (f e act)])

/-- The source lane of XSHF; a lane below 0 is none (R162). -/
def shuffleLane (mode : ShfMode) (g lane off : Nat) : Option Nat :=
  match mode with
  | .idx => some off
  | .up => if off ≤ lane then some (lane - off) else none
  | .down => some (lane + off)
  | .xor => some (lane ^^^ off)
  | .rot => some ((lane + off) % g)

/-- XSHF (R162). -/
def execXshf (g : Guard) (mode : ShfMode) (rel : Option (Fin 8)) (d : Dst) (a b c : Src) (s : State) :
    Host.Outcome State Fault Refusal :=
  issue (.xshf g mode rel d a b c) s (laneBody g d (fun e act t =>
    let off := match rel with
      | some k => e.pool.grant / 2 ^ k.val
      | none => (e.src 0 t b).toNat
    match (shuffleLane mode e.pool.grant t.lane off).bind (e.poolVal act (fun u => e.src 0 u a)) with
    | some v => v
    | none => e.src 0 t c))

/-- XBCAST (R162). -/
def execXbcast (g : Guard) (sel : BcSel) (d : Dst) (a b c : Src) (s : State) : Host.Outcome State Fault Refusal :=
  issue (.xbcast g sel d a b c) s (laneBody g d (fun e act t =>
    let src : Option Nat := match sel with
      | .lane => act.head?.map (fun u => (e.src 0 u b).toNat)
      | .first => act.head?.map Thread.lane
      | .last => act.getLast?.map Thread.lane
    match src.bind (e.poolVal act (fun u => e.src 0 u a)) with
    | some v => v
    | none => e.src 0 t c))

/-- XVOTE (R163). -/
def execXvote (g : Guard) (mode : VoteMode) (d : Fin 64) (p : PSrc) (s : State) : Host.Outcome State Fault Refusal :=
  issue (.xvote g mode d p) s (plain g (fun _ act s =>
    let v := match mode with
      | .any => act.any (predRead p)
      | .all => act.all (predRead p)
      | .eq => act.all (predRead p) || act.all (fun t => !predRead p t)
    writePred s d (forEach act (fun _ => v))))

/-- The mask of the active lanes whose predicate holds (R163). -/
def ballot (act : List Thread) (p : PSrc) : Nat := act.foldl (fun m t => if predRead p t then m ||| 2 ^ t.lane else m) 0

/-- XBALLOT (R163): four pool-rank writes whatever the tag. -/
def execXballot (g : Guard) (d : Dst) (p : PSrc) (s : State) : Host.Outcome State Fault Refusal :=
  issue (.xballot g d p) s (plain g (fun e act s =>
    let m := ballot act p
    let d' : Dst := match d with
      | .reg n _ => .reg n .pl
      | .none => .none
    writeDst s e d' ((List.range 4).map (fun i => forEach act (fun _ => BitVec.ofNat 32 (m >>> (32 * i)))))))

/-- XPFX (R163). -/
def execXpfx (g : Guard) (incl : Bool) (d : Dst) (p : PSrc) (s : State) : Host.Outcome State Fault Refusal :=
  issue (.xpfx g incl d p) s (laneBody g d (fun _ act t =>
    BitVec.ofNat 32 (act.filter (fun u => predRead p u && (decide (u.lane < t.lane) || (incl && u.lane == t.lane)))).length))

/-- XSLIDE (R165). -/
def execXslide (g : Guard) (up : Bool) (d : Dst) (a b c : Src) (s : State) : Host.Outcome State Fault Refusal :=
  issue (.xslide g up d a b c) s (laneBody g d (fun e act t =>
    let k := (e.src 0 t c).toNat
    let w := e.pool.grant
    let va := laneVal act (fun u => e.src 0 u a)
    let vb := laneVal act (fun u => e.src 0 u b)
    let v : Option Word :=
      if up then
        (if k ≤ t.lane then va (t.lane - k) else if k ≤ t.lane + w then vb (t.lane + w - k) else none)
      else (if t.lane + k < w then va (t.lane + k) else if t.lane + k < 2 * w then vb (t.lane + k - w) else none)
    v.getD 0))

/-- The selected lanes in ascending order (R166). -/
def selected (act : List Thread) (p : PSrc) : List Nat := (act.filter (predRead p)).map Thread.lane

/-- XCMPR (R166). -/
def execXcmpr (g : Guard) (d : Dst) (a c : Src) (p : PSrc) (s : State) : Host.Outcome State Fault Refusal :=
  issue (.xcmpr g d a c p) s (laneBody g d (fun e act t =>
    match (selected act p)[t.lane]?.bind (laneVal act (fun u => e.src 0 u a)) with
    | some v => v
    | none => e.src 0 t c))

/-- XEXPD (R166). -/
def execXexpd (g : Guard) (d : Dst) (a c : Src) (p : PSrc) (s : State) : Host.Outcome State Fault Refusal :=
  issue (.xexpd g d a c p) s (laneBody g d (fun e act t =>
    match (indexWhere (· == t.lane) (selected act p)).bind (laneVal act (fun u => e.src 0 u a)) with
    | some v => v
    | none => e.src 0 t c))

/-- XTBL (R167). -/
def execXtbl (g : Guard) (len : Fin 8) (fill : BitVec 8) (d : Dst) (a b : Src) (s : State) : Host.Outcome State Fault Refusal :=
  issue (.xtbl g len fill d a b) s (writeBody g false d (fun e t =>
    let ix (i : Nat) := bits (e.src 0 t b).toNat (8 * i) 8
    let byte (i : Nat) : Nat :=
      if ix i < 4 * (len.val + 1) then bits (e.srcAt t a (ix i / 4)).toNat (8 * (ix i % 4)) 8 else fill.toNat
    BitVec.ofNat 64 ((List.range 4).foldl (fun r i => r + byte i * 2 ^ (8 * i)) 0)))

/-! Reductions. A position holds an element, or none where it holds the identity (R94). -/

/-- The bits of an element of a reduction type (R164). -/
def redWidth : RedTy → Nat
  | .flt fmt => (elemFmt fmt).width
  | .i32 => 32
  | .i64 => 64
/-- The elements of a value of a reduction type (R164). -/
def redElems : RedTy → Nat
  | .flt fmt => fmtElems fmt
  | _ => 1

/-- One step of a reduction on two values: one FADD, FMUL, FMIN or FMAX, or one integer operation modulo 2^w (R164). -/
def redStep (r : RMod) (x y : Nat) : Nat × FlagSet :=
  match r.ty with
  | .flt fmt =>
    let f := elemFmt fmt
    let x := flushIn f r.ftz x
    let y := flushIn f r.ftz y
    let round (z : FRes) : Nat × FlagSet :=
      let q := roundTo f r.rm r.ftz (satOf fmt r.flip) 0 z.v
      (q.1, z.fl.union q.2)
    match r.op with
    | .add => round (fSum r.rm (fvalue f x) (fvalue f y))
    | .mul => round (fProd (fvalue f x) (fvalue f y))
    | .min => (fExtreme f false x y, .none)
    | _ => (fExtreme f true x y, .none)
  | ty =>
    let w := redWidth ty
    let i (v : Nat) := asInt w r.uns v
    let v : Nat := match r.op with
      | .add => (x + y) % 2 ^ w
      | .mul => x * y % 2 ^ w
      | .min => if i x ≤ i y then x else y
      | .max => if i y ≤ i x then x else y
      | .and => x &&& y
      | .or => x ||| y
      | .xor => x ^^^ y
    (v, .none)

/-- A step of which either side may be an identity position, which passes the other unchanged (R94). -/
def redJoin (r : RMod) : Option Nat → Option Nat → Option Nat × FlagSet
  | none, y => (y, .none)
  | x, none => (x, .none)
  | some x, some y => let q := redStep r x y; (some q.1, q.2)

/-- The identity that is written when every position holds it (R94). -/
def redIdentity (r : RMod) : Nat :=
  match r.ty with
  | .flt fmt =>
    let f := elemFmt fmt
    match r.op with
    | .add => f.signBit
    | .mul => (roundTo f .rne false false 0 (.num false 1 0 false)).1
    | .min => if f.hasInf then f.infCode else f.maxCode
    | _ => f.signed true (if f.hasInf then f.infCode else f.maxCode)
  | ty =>
    let w := redWidth ty
    match r.op with
    | .add | .or | .xor => 0
    | .mul => 1
    | .min => if r.uns then 2 ^ w - 1 else 2 ^ (w - 1) - 1
    | .max => if r.uns then 0 else 2 ^ (w - 1)
    | .and => 2 ^ w - 1

/-- The halving fold of R93 over a list of 2^n positions. -/
def redFold (r : RMod) : Nat → List (Option Nat) → Option Nat × FlagSet
  | 0, l => (l.headD none, .none)
  | n + 1, l =>
    let h := 2 ^ n
    let js := ((l.take h).zip (l.drop h)).map (fun p => redJoin r p.1 p.2)
    let q := redFold r n (js.map Prod.fst)
    (q.1, (flagsOf (js.map Prod.snd)).union q.2)

/-- The sequential order of R93. -/
def redSeq (r : RMod) (l : List (Option Nat)) : Option Nat × FlagSet :=
  l.foldl (fun acc x => let q := redJoin r acc.1 x; (q.1, acc.2.union q.2)) (none, .none)

/-- Element `i` of a value of the type. -/
def redElem (r : RMod) (i v : Nat) : Nat := bits v (redWidth r.ty * i) (redWidth r.ty)

/-- A reduction of each sub-element position by an order (R164): the value written and the flags. -/
def reduceWith (r : RMod) (order : List (Option Nat) → Option Nat × FlagSet) (l : List (Option Nat)) : Nat × FlagSet :=
  let cols := (List.range (redElems r.ty)).map (fun i => order (l.map (Option.map (redElem r i))))
  ((cols.map (fun c => c.1.getD (redIdentity r))).foldr (fun x acc => x + 2 ^ redWidth r.ty * acc) 0, flagsOf (cols.map Prod.snd))

/-- The values of the lanes of a pool, none where a lane is absent (R93, R164). -/
def Env.redVals (e : Env) (r : RMod) (act : List Thread) (a : Src) (n : Nat) : List (Option Nat) :=
  (List.range n).map (laneVal act (fun t => if redWide r then (e.src64 0 false t a).toNat else (e.src 0 t a).toNat))

/-- XRED (R164): the pool fold, or the sequential order under `.seq`. -/
def execXred (g : Guard) (r : RMod) (d : Dst) (a : Src) (s : State) : Host.Outcome State Fault Refusal :=
  issue (.xred g r d a) s (plain g (fun e act s =>
    let q := reduceWith r (if r.alt then redSeq r else redFold r (Nat.log2 e.pool.grant)) (e.redVals r act a e.pool.grant)
    writeW (setFlags s (forEach act (fun _ => q.2))) e (redWide r) d (forEach act (fun _ => BitVec.ofNat 64 q.1))))

/-- XSCAN (R164): the sequential order cut at each lane. -/
def execXscan (g : Guard) (r : RMod) (d : Dst) (a : Src) (s : State) : Host.Outcome State Fault Refusal :=
  issue (.xscan g r d a) s (plain g (fun e act s =>
    let upTo (t : Thread) := reduceWith r (redSeq r) (e.redVals r act a (if r.alt then t.lane else t.lane + 1))
    let fl := flagsOf (act.map (fun t => (upTo t).2))
    writeW (setFlags s (forEach act (fun _ => fl))) e (redWide r) d (forEach act (fun t => BitVec.ofNat 64 (upTo t).1))))

end Sys2Proof.Machine
end

