-- ==== Sys2Proof/Machine/Modular.lean ====
section
/-! DEFINITION. Modular arithmetic and butterflies (09; 05 R95, R96). The checks that depend on the slot stand in `Machine/Issue.lean`. -/

namespace Sys2Proof.Machine

/-- `mod_q(x, q)` of R38. -/
def modQ (x : Int) (q : Nat) : Nat := (x % q).toNat
/-- `barrett(q)` of R38. -/
def barrett (q : Nat) : Nat := 2 ^ (2 * bitLen q) / q
/-- A valid modulus of a slot width (R95). -/
def validQ (wide : Bool) (q : Nat) : Bool := q % 2 == 1 && decide (3 ≤ q ∧ q < if wide then 2 ^ 62 else 2 ^ 31)

/-- QSET (R172). -/
def execQset (g : Guard) (k : Fin 8) (wide : Bool) (tag : DTag) (a : Src) (s : State) : Host.Outcome State Fault Refusal :=
  issue (.qset g k wide tag a) s (fun e s =>
    let act := e.active g
    let q (t : Thread) : Nat := zextW wide (e.srcW 0 wide true t a)
    match act.find? (fun t => !validQ wide (q t)) with
    | some t => .trap ⟨0x0F, q t, none, t.lane⟩
    | none =>
      if act.isEmpty then .ok s
      else .ok (lwriteSlot s e.pool.id k tag (forEach act (fun t =>
        ⟨BitVec.ofNat 64 (barrett (q t)), wide, BitVec.ofNat 62 (q t)⟩))))

/-- QGET (R173). -/
def execQget (g : Guard) (k : Fin 8) (sel : QSel) (d : Dst) (s : State) : Host.Outcome State Fault Refusal :=
  issue (.qget g k sel d) s (plain g (fun e act s => writeW s e (sel != .wid) d (forEach act (fun t =>
    let c := e.slot k t
    match sel with
    | .mod => c.q.setWidth 64
    | .mu => c.mu
    | .wid => if c.q = 0 then 0 else if c.wide then 64 else 32))))

/-- The modulus of a thread (R170). -/
def Env.modulus (e : Env) (k : Nat) (t : Thread) : Nat := (e.slot k t).q.toNat
/-- A source at the slot's width, as a plain number (R170). -/
def Env.modSrc (e : Env) (wide : Bool) (t : Thread) (a : Src) : Int := (zextW wide (e.srcW 0 wide true t a) : Int)

/-- A word of R174: the residue of an exact expression at the slot's width. -/
def modBody (g : Guard) (k : Nat) (d : Dst) (f : Env → Bool → Thread → Int) : Env → State → Res :=
  plain g (fun e act s =>
    let wide := (act.head?.map (fun t => (e.slot k t).wide)).getD false
    writeW s e wide d (forEach act (fun t => BitVec.ofNat 64 (modQ (f e wide t) (e.modulus k t)))))

/-- MADDQ (R174). -/
def execMaddq (g : Guard) (k : Fin 8) (d : Dst) (a b : Src) (s : State) : Host.Outcome State Fault Refusal :=
  issue (.maddq g k d a b) s (modBody g k d (fun e w t => e.modSrc w t a + e.modSrc w t b))
/-- MSUBQ (R174). -/
def execMsubq (g : Guard) (k : Fin 8) (d : Dst) (a b : Src) (s : State) : Host.Outcome State Fault Refusal :=
  issue (.msubq g k d a b) s (modBody g k d (fun e w t => e.modSrc w t a - e.modSrc w t b))
/-- MNEGQ (R174). -/
def execMnegq (g : Guard) (k : Fin 8) (d : Dst) (a : Src) (s : State) : Host.Outcome State Fault Refusal :=
  issue (.mnegq g k d a) s (modBody g k d (fun e w t => -(e.modSrc w t a)))
/-- MMULQ (R174). -/
def execMmulq (g : Guard) (k : Fin 8) (d : Dst) (a b : Src) (s : State) : Host.Outcome State Fault Refusal :=
  issue (.mmulq g k d a b) s (modBody g k d (fun e w t => e.modSrc w t a * e.modSrc w t b))
/-- MMACQ (R174). -/
def execMmacq (g : Guard) (k : Fin 8) (d : Dst) (a b c : Src) (s : State) : Host.Outcome State Fault Refusal :=
  issue (.mmacq g k d a b c) s (modBody g k d (fun e w t => e.modSrc w t a * e.modSrc w t b + e.modSrc w t c))

/-- The 2w-bit operand of MREDQ (R174): a pair at width 32, four registers at width 64. A special operand reads as its value. -/
def Env.wideOperand (e : Env) (wide : Bool) (t : Thread) (a : Src) : Int :=
  let n := if wide then 4 else 2
  (((List.range n).foldr (fun i r => (e.srcAt t a i).toNat + 2 ^ 32 * r) 0 : Nat) : Int)

/-- MREDQ (R174). -/
def execMredq (g : Guard) (k : Fin 8) (d : Dst) (a : Src) (s : State) : Host.Outcome State Fault Refusal :=
  issue (.mredq g k d a) s (modBody g k d (fun e w t => e.wideOperand w t a))

/-- `x^n` modulo `q` by the bits of `n` from bit `i` down (R175). -/
def powQ (x n q : Nat) : Nat → Nat → Nat
  | 0, r => r
  | i + 1, r => powQ x n q i (if n.testBit i then r * r % q * x % q else r * r % q)

/-- A long-latency producer of registers begins (R71, R102, R103): its destination is marked empty for the writers, and its word is
incomplete until the last register has been written. A producer without a destination still completes. -/
def startOp (s : State) (e : Env) (d : Dst) (n : Nat) (ext : Option Bool) (lanes : List OpLane) : Nat × State :=
  let (id, s) := takeId s
  let ts := lanes.map OpLane.t
  let (reg, tag) : Option Nat × DTag := match d with
    | .reg r t => (some r.val, t)
    | .none => (none, .home)
  let s := match reg with
    | some r => markEmpty s ts r n e.iss.wid
    | none => s
  (id, begin_ { s with ops := s.ops ++ [⟨id, e.iss.wid, e.pool.id, reg, tag, n, ext, lanes, []⟩] } e)

/-- The bytes of a result that is known at issue. -/
def knownBytes (n v : Nat) : List (Option Byte) := (leBytes n v).map some

/-- MPOWQ (R175): a long-latency producer whose result is fixed at issue. -/
def execMpowq (g : Guard) (k : Fin 8) (d : Dst) (a b : Src) (s : State) : Host.Outcome State Fault Refusal :=
  issue (.mpowq g k d a b) s (plain g (fun e act s =>
    let wide := (act.head?.map (fun t => (e.slot k t).wide)).getD false
    let n := if wide then 2 else 1
    let r (t : Thread) : Nat :=
      let q := e.modulus k t
      powQ ((e.modSrc wide t a).toNat % q) (e.modSrc wide t b).toNat q (32 * n) (1 % q)
    (startOp s e d n none (act.map (fun t => ⟨t.ref, knownBytes (4 * n) (r t)⟩))).2))

/-- A local butterfly (R176): the top result to unit d and the bottom result to the next unit. -/
def butterfly (g : Guard) (k : Nat) (d : Dst) (a b c : Src) (top bot : Int → Int → Int → Int) : Env → State → Res :=
  plain g (fun e act s =>
    let wide := (act.head?.map (fun t => (e.slot k t).wide)).getD false
    let r (f : Int → Int → Int → Int) (t : Thread) : DWord :=
      BitVec.ofNat 64 (modQ (f (e.modSrc wide t a) (e.modSrc wide t b) (e.modSrc wide t c)) (e.modulus k t))
    let unit (f : Int → Int → Int → Int) : List (List (TRef × Word)) :=
      if wide then [forEach act (fun t => loWord (r f t)), forEach act (fun t => hiWord (r f t))]
      else [forEach act (fun t => loWord (r f t))]
    writeDst s e d (unit top ++ unit bot))

/-- BFLY (R176). -/
def execBfly (g : Guard) (k : Fin 8) (d : Dst) (a b c : Src) (s : State) : Host.Outcome State Fault Refusal :=
  issue (.bfly g k d a b c) s (butterfly g k d a b c (fun x y w => x + w * y) (fun x y w => x - w * y))
/-- IBFLY (R176). -/
def execIbfly (g : Guard) (k : Fin 8) (d : Dst) (a b c : Src) (s : State) : Host.Outcome State Fault Refusal :=
  issue (.ibfly g k d a b c) s (butterfly g k d a b c (fun x y _ => x + y) (fun x y w => (x - y) * w))

/-- The distance of a cross-lane butterfly (R177). -/
def flyDistance (rel : Bool) (v g : Nat) : Nat := if rel then g / 2 ^ v else 2 ^ v

/-- A cross-lane butterfly (R177): `f top x y w` for a thread that has a partner. -/
def crossFly (g : Guard) (k : Nat) (rel : Bool) (v : Nat) (d : Dst) (a b : Src) (f : Bool → Int → Int → Int → Int) :
    Env → State → Res :=
  plain g (fun e act s =>
    let wide := (act.head?.map (fun t => (e.slot k t).wide)).getD false
    let gw := e.pool.grant
    let dist := flyDistance rel v gw
    let r (t : Thread) : Int :=
      let own := e.modSrc wide t a
      let isTop := (t.lane / dist) % 2 == 0
      let j := if isTop then t.lane + dist else t.lane - dist
      if dist < 1 ∨ gw ≤ dist ∨ gw ≤ j then own
      else match laneVal act (fun u => e.modSrc wide u a) j with
        | none => own
        | some p => if isTop then f true own p (e.modSrc wide t b) else f false p own (e.modSrc wide t b)
    writeW s e wide d (forEach act (fun t => BitVec.ofNat 64 (modQ (r t) (e.modulus k t)))))

/-- XBFLY (R177). -/
def execXbfly (g : Guard) (k : Fin 8) (rel : Bool) (v : Fin 8) (d : Dst) (a b : Src) (s : State) :
    Host.Outcome State Fault Refusal :=
  issue (.xbfly g k rel v d a b) s (crossFly g k rel v d a b (fun top x y w => if top then x + w * y else x - w * y))
/-- XIBFLY (R177). -/
def execXibfly (g : Guard) (k : Fin 8) (rel : Bool) (v : Fin 8) (d : Dst) (a b : Src) (s : State) :
    Host.Outcome State Fault Refusal :=
  issue (.xibfly g k rel v d a b) s (crossFly g k rel v d a b (fun top x y w => if top then x + y else (x - y) * w))

end Sys2Proof.Machine
end

