-- ==== Sys2Proof/Machine/Still.lean ====
section
/-! DEFINITION. Shared and private memory of a still launch (15 R291 to R293, 14 R277, 24 R378): the ownership table, round buffers, and the
reads and writes of a block inside a round. The commit stands in `Machine/Round.lean`. -/

namespace Sys2Proof.Machine

/-- The address of the state word of the line at a virtual address, where the ownership table has one (R292). -/
def stateWord (l : Launch) (va : Nat) : Option Nat :=
  firstSome (fun (r : Nat × Nat × Nat) =>
    if r.1 ≤ va ∧ va < r.1 + 128 * r.2.1 then some (r.2.2 + 8 * ((va - r.1) / 128)) else none) l.ranges

/-- The state that a state word holds (R292). -/
def lineStateOf (v : Nat) : LineState :=
  match v / 2 ^ 62 with
  | 0 => .free
  | 1 => .priv (v % 2 ^ 62)
  | _ => .shared

/-- The state of a line as the table holds it; lines outside the table are shared (R291), and so is one whose state word cannot be read (log 84). -/
def lineState (s : State) (c : Ctx) (word : Option Nat) : LineState :=
  match word with
  | none => .shared
  | some w => match areaRead s c w 8 with
    | .error _ => .shared
    | .ok bs => lineStateOf (leNat bs)

/-- The line of a physical address as this round has touched it, or as it stands at its first access in the round (R292). -/
def touchedLine (s : State) (l : Launch) (va pa : Nat) : Touched :=
  match l.touched.find? (fun t => t.line == lineOf pa) with
  | some t => t
  | none =>
    let word := stateWord l va
    let st := match ctx s l.ctx with
      | some c => lineState s c word
      | none => .shared
    ⟨lineOf pa, word, st, [], [], none, []⟩

/-- The line is private to the block (R291). -/
def ownLine (s : State) (l : Launch) (b : Block) (va pa : Nat) : Bool := (touchedLine s l va pa).st == .priv b.lin

/-- The record of a line that a block touched (R291). -/
def putTouched (s : State) (lid : Nat) (t : Touched) : State :=
  updLaunch s lid (fun l => { l with touched := t :: l.touched.filter (fun x => x.line != t.line) })

/-- A block accessed a line in the round, and wrote it where `w` says so (R291). -/
def touch (s : State) (lid : Nat) (b : Block) (w : Bool) (va pa : Nat) : State :=
  match launch s lid with
  | none => s
  | some l =>
    let t := touchedLine s l va pa
    putTouched s lid { t with
      by_ := if t.by_.contains b.lin then t.by_ else t.by_ ++ [b.lin]
      wrote := if w && !t.wrote.contains b.lin then t.wrote ++ [b.lin] else t.wrote }

/-- A store of a round buffer writes a byte, which no later write has taken from it. -/
def BufEntry.writes (x : BufEntry) (a : Nat) : Bool :=
  x.atom.isNone && x.launch.isNone && decide (x.pa ≤ a ∧ a < x.pa + x.bytes.length) && !inside x.cut a 1

/-- The bytes of a block's buffered stores over a byte of memory, in program order (R277). -/
def bufferedByte (b : Block) (a : Nat) (old : Byte) : Byte :=
  (sortBy BufEntry.seq b.buffer).foldl (fun v x => if x.writes a then x.bytes.getD (a - x.pa) 0 else v) old

/-- The newest write to a byte that stands at the slice of a block's lake, over the byte given (R254 item 3, R270): that of another launch. -/
def atSlice (s : State) (b : Block) (cached : Bool) (a : Nat) (old : Byte) : Byte :=
  match b.lake with
  | some k => if cached then ((storedAt (s.slices.filter (fun y => y.lake == k)) a).map Prod.snd).getD old else old
  | none => old

/-- A byte as a block of a still launch reads it (R277, R293): of its own line as memory holds it, of any other line as it stood at the
start of the round, with the block's own buffered stores; writes of others that have reached its lake are visible to it (R254). -/
def stillByte (s : State) (l : Launch) (b : Block) (cached : Bool) (va a : Nat) : Byte :=
  let t := touchedLine s l va a
  if t.st == .priv b.lin then atSlice s b cached a (memByte s cached a)
  else bufferedByte b a (atSlice s b cached a (match t.image with | some i => i.getD (a % 128) 0 | none => memByte s cached a))

/-- Bytes as a block of a still launch reads them. -/
def stillBytes (s : State) (l : Launch) (b : Block) (cached : Bool) (va a : Nat) : Nat → List Byte
  | 0 => []
  | n + 1 => stillByte s l b cached va a :: stillBytes s l b cached (va + 1) (a + 1) n

/-- A write of a still launch: its lane, addresses, place in program order, and its bytes or its atomic with the producer that takes
the old value. -/
structure StillWrite where
  lane : Nat
  va : Nat
  pa : Nat
  entry : BufEntry
  deriving DecidableEq, Repr

/-- Entries that the round buffer of a block holds (R378). -/
def bufferUsed (b : Block) : Nat := b.buffer.length + 8 * b.images.length

/-- The lane of the first write that the round buffer has no room for (R378): a unit or an atomic takes one entry, the image of an own
line eight; a unit that an engine's operation writes again has its entry. -/
def bufferFull (s : State) (l : Launch) (b : Block) : Nat → List Nat → List StillWrite → Option Nat
  | _, _, [] => none
  | used, seen, w :: r =>
    let own := ownLine s l b w.va w.pa
    let known := seen.contains (lineOf w.pa) || (!own && b.buffer.any (fun y => y.seq == w.entry.seq && y.pa == w.pa))
    let used' := if known then used else if own then used + 8 else used + 1
    if Config.roundEntries < used' then some w.lane
    else bufferFull s l b used' (if own && !known then lineOf w.pa :: seen else seen) r

/-- The trap of a word whose writes overflow the round buffer (R378). -/
def bufferTrap (s : State) (l : Launch) (b : Block) (ws : List StillWrite) : Option Trap :=
  (bufferFull s l b (bufferUsed b) b.images ws).map (fun lane => ⟨0x66, bufferUsed b, none, lane⟩)

/-- The new value of an atomic operation of `8 n` bits (R189). -/
def atomNew (op : AtomOp) (n : Nat) (uns : Bool) (old b c : Nat) : Nat :=
  let w := 8 * n
  let i (v : Nat) : Int := if uns then (v : Int) else (if v < 2 ^ (w - 1) then (v : Int) else (v : Int) - 2 ^ w)
  match op with
  | .add => (old + b) % 2 ^ w
  | .min => if i b < i old then b else old
  | .max => if i old < i b then b else old
  | .and => old &&& b
  | .or => old ||| b
  | .xor => old ^^^ b
  | .exch => b
  | .cas => if old = b then c else old
  | .fadd =>
    let z := fSum .rne (fvalue fp32 old) (fvalue fp32 b)
    (roundTo fp32 .rne false false 0 z.v).1

/-- Bytes that a producer takes for a thread from position `i` up (R71). -/
def putGot (l : List (Option Byte)) (i : Nat) : List Byte → List (Option Byte)
  | [] => l
  | b :: bs => putGot (l.set i (some b)) (i + 1) bs

/-- The producer `op` takes bytes for a thread. -/
def fillOp (s : State) (op off : Nat) (t : TRef) (bs : List Byte) : State :=
  let lane (x : OpLane) : OpLane := { x with got := putGot x.got off bs }
  { s with ops := updWhere (fun o => o.id == op) (fun o => { o with lanes := updWhere (fun x => x.t == t) lane o.lanes }) s.ops }

/-- The producer named takes the bytes, where one is named. -/
def deliverTo (s : State) (dst : Option (Nat × TRef)) (bs : List Byte) : State :=
  match dst with
  | some (op, t) => fillOp s op 0 t bs
  | none => s

/-- Bytes of an entry written at their home, where no other lake then holds the line (R254 items 2 and 5), or lost with a record that halts the
block where no path reaches their module (R384). -/
def entryWrite (s : State) (ctxId : Nat) (x : BufEntry) (bs : List Byte) : State :=
  if lostTo s x.pa then engineFatal s x.orig 0xA0 (moduleOf x.pa + 2 ^ 16) none
  else homeWrite (if x.cached then ownPeer s (Config.lakeOf x.orig.core) x.pa else s) ctxId x.cached x.pa bs

/-- A write of a round that has been performed at host memory, where its thread has released it at sy scope (R254 item 6, R304). -/
def BufEntry.synced (x : BufEntry) (s : State) : State := if x.sync && x.cached then writeBack s (lineOf x.pa) false else s

/-- An entry of a round buffer takes effect in memory (R277): a store, or an atomic whose old value its producer takes. It comes behind the
writes of other launches to its line that stand at their slices, so that nothing falls between its read and its write (R263, R273). -/
def applyEntry (s : State) (ctxId : Nat) (x : BufEntry) : State :=
  let s := settleLine s (lineOf x.pa)
  match x.atom with
  | none =>
    if lostTo s x.pa then entryWrite s ctxId x x.bytes
    else x.synced ((leftUnits x.cut x.pa [(0, x.bytes.length)]).foldl (fun s u =>
      entryWrite s ctxId { x with pa := x.pa + u.1 } ((x.bytes.drop u.1).take u.2)) s)
  | some (op, wide, uns, b, c) =>
    let n := if wide then 8 else 4
    let old := leNat (memBytes s x.cached x.pa n)
    let s := x.synced (entryWrite s ctxId x (leBytes n (atomNew op n uns old (b.toNat % 2 ^ (8 * n)) (c.toNat % 2 ^ (8 * n)))))
    deliverTo s x.op (leBytes n old)

/-- An entry in its place: a unit that an engine's operation has written before it replayed takes the new bytes (R362). -/
def putEntry (l : List BufEntry) (x : BufEntry) : List BufEntry :=
  if l.any (fun y => y.seq == x.seq && y.pa == x.pa) then updWhere (fun y => y.seq == x.seq && y.pa == x.pa) (fun _ => x) l else l ++ [x]

/-- A write to the block's own line takes effect at once (R291): its image, which its own writes do not reach, is kept from the first one on. -/
def ownLineWrite (s : State) (l : Launch) (bid : Nat) (w : StillWrite) : State :=
  let s := settleLine s (lineOf w.pa)
  let t := touchedLine s l w.va w.pa
  let image := t.image.getD (memBytes s w.entry.cached (lineOf w.pa * 128) 128)
  let s := putTouched s l.id { t with image := some image, log := putEntry t.log { w.entry with op := none } }
  let s := if t.image.isSome then s else updBlock s bid (fun x => { x with images := lineOf w.pa :: x.images })
  let lines := (launch s l.id).elim [] Launch.touched
  updLaunch (applyEntry s l.ctx w.entry) l.id (fun l => { l with touched := lines })

/-- One write of a still launch (R291, R293): to the block's own line at once, with the line's image kept, else into its round
buffer. -/
def stillWrite (s : State) (lid bid : Nat) (w : StillWrite) : State :=
  match launch s lid, block s bid with
  | some l, some b =>
    let own := ownLine s l b w.va w.pa
    let s := touch s lid b true w.va w.pa
    match launch s lid with
    | none => s
    | some l => if own then ownLineWrite s l bid w else updBlock s bid (fun x => { x with buffer := putEntry x.buffer w.entry })
  | _, _ => s

/-- A release or a fence at sy scope performs its threads' own host writes at host memory (R304): those that are performed at once, and those of
the round as the commit performs them. -/
def releaseSync (s : State) (ctxId lid bid : Nat) (ts : List TRef) : State :=
  let mark (x : BufEntry) : BufEntry := if ts.contains x.t then { x with sync := true } else x
  let s := updBlock (flushCtx s ctxId) bid (fun b => { b with buffer := b.buffer.map mark })
  updLaunch s lid (fun l => { l with touched := l.touched.map (fun t => { t with log := t.log.map mark }) })

end Sys2Proof.Machine
end

