-- ==== Sys2Proof/Machine/Access.lean ====
section
/-! DEFINITION. Accesses in flight (10 R182 to R192, 13 R254, 14 R263 to R279): when one may be performed, what it does at its slice, at its home
and in the scratchpad, and when a fence is performed. -/

namespace Sys2Proof.Machine

/-- Two accesses reach a common byte. -/
def Access.overlaps (x y : Access) : Bool := x.space == y.space && decide (x.addr < y.addr + y.n ∧ y.addr < x.addr + x.n)
/-- The access only reads. -/
def Access.isLoad (x : Access) : Bool := match x.kind with | .load _ => true | _ => false
/-- The access is an atomic. -/
def Access.isAtom (x : Access) : Bool := match x.kind with | .atom .. => true | _ => false
/-- The access acquires (R185). -/
def Access.acquires (x : Access) : Bool := (x.order == .acq || x.order == .ar) && !x.isStore
/-- The access releases (R185). -/
def Access.releases (x : Access) : Bool := (x.order == .rel || x.order == .ar) && !x.isLoad
/-- The access is of a thread's own words at the slice; the others there are writes of an engine. -/
def Access.ownWrite (x : Access) : Bool := x.stage == 1

/-- The scope reaches beyond the lake, so that it waits for homes (R254 item 4). -/
def wideScope : Scope → Bool
  | .bn | .ws | .sy => true
  | _ => false

/-- An order and a scope that acquire beyond the lake: what is read then has reached its home (R185, R254 item 4). -/
def wideAcquire (o : Order) (sc : Scope) : Bool := (o == .acq || o == .ar) && wideScope sc

/-- The access was issued to acquire beyond its lake, which an atomic goes on saying at its slice (R185, R254 item 4). -/
def Access.acquiresWide (x : Access) : Bool := wideAcquire x.order x.scope

/-- A write at its slice is visible to a thread of a lake: in its own lake, to its own thread, and where it has been seen (R254 item 3,
R278). -/
def Access.visible (y : Access) (lake : Nat) (t : TRef) : Bool := y.lake == lake || y.t == t || y.seen.contains t

/-- The scratchpad granule of an address (R187). -/
def granOf (a : Nat) : Nat := a / 16
/-- A granule as it is allocated: full, every arrival bit set (R186, R187). -/
def Gran.fresh : Gran := ⟨true, BitVec.allOnes 16⟩
/-- The state of a granule. -/
def Pond.gran (p : Pond) (g : Nat) : Gran := (mapGet p.grans g).getD Gran.fresh
/-- A granule changed. -/
def Pond.setGran (p : Pond) (g : Nat) (x : Gran) : Pond :=
  { p with grans := if x = Gran.fresh then mapErase p.grans g else mapSet p.grans g x }
/-- A granule emptied: every arrival bit cleared (R187). -/
def Pond.emptyGran (p : Pond) (g : Nat) : Pond := p.setGran g ⟨false, 0⟩

/-- The accesses in flight that were issued before one. -/
def earlierAccs (s : State) (x : Access) : List Access := s.accs.takeWhile (fun y => y.id != x.id)

/-- The writes a thread has observed at a slice are at home (R271). -/
def observedHome (s : State) (t : TRef) : Bool :=
  match thread s t with
  | some u => s.slices.all (fun y => !u.observed.contains y.id)
  | none => true

/-- A thread's own stores have left the slice for their homes (R254). -/
def storesHome (s : State) (t : TRef) : Bool := s.slices.all (fun y => !(y.t == t && y.ownWrite))

/-- Every access of the thread among `before`, and every write it has observed, is performed with respect to the group of the scope
(R185, R254 item 4, R271). -/
def performedFor (s : State) (t : TRef) (sc : Scope) (before : List Access) : Bool :=
  before.all (fun y => y.t != t) && (!wideScope sc || (storesHome s t && observedHome s t))

/-- A later access need not wait for an earlier one to the same bytes: a load takes the thread's own store in flight, and loads of several
threads by one word stand side by side. A load that acquires comes behind the thread's own store, which its later accesses carry on (R265), and
beyond its lake takes a write at its home only. -/
def passes (x y : Access) : Bool :=
  x.isLoad && ((y.isStore && y.t == x.t && x.space == .mem && !x.acquires) || (y.isLoad && y.t != x.t))

/-- The MSTA writes that an MWAIT of the thread before its word `wid` covers are at home: they count as performed before the thread's later
accesses (R220, R265, R275). -/
def coveredHome (s : State) (t : TRef) (wid : Nat) : Bool := s.slices.all (fun y => !y.covers.any (fun c => c.1 == t && decide (c.2 < wid)))

/-- Some unit of an engine's operation lies in a device page, as it translates now (R260). -/
def onDevice (s : State) (o : Origin) (us : List (Nat × Nat)) : Bool :=
  (ctx s o.ctx).any (fun c => us.any (fun u => match xlat s (some (Config.lakeOf o.core)) c u.1 with
    | .ok leaf => leaf.dev
    | .error _ => false))

/-- A copy command or a matrix operation that a thread issued before its word `wid` has still to reach a device page (R260). -/
def engineDevice (s : State) (t : TRef) (wid : Nat) : Bool :=
  s.copies.any (fun c => c.t == t && decide (c.wid < wid) && !(c.toScratch && decide (c.n ≤ c.got.length)) &&
      (match c.leaf with | some l => l.dev | none => onDevice s c.orig [(c.va, c.n)])) ||
    s.mops.any (fun m => !m.done && m.obj.isSome && decide (m.wid < wid) && m.signers.any (fun g => g.t == t) && onDevice s m.orig m.memUnits)

/-- Some access of a device page that a thread issued before its word `wid` is still to be performed: accesses of device pages are performed in
the thread's program order, whatever performs them (R260). -/
def deviceBefore (s : State) (t : TRef) (wid : Nat) : Bool :=
  s.accs.any (fun y => y.t == t && y.device && decide (y.wid < wid)) || engineDevice s t wid

/-- A release or fence at sy scope of the word under way performs its threads' host writes at host memory (R254 item 6, R304). -/
def Env.syncHost (e : Env) (s : State) (act : List Thread) : State :=
  if act.isEmpty then s
  else if e.still then releaseSync s e.ctx.rcd.id e.launch.id e.block.id (act.map Thread.ref) else flushCtx s e.ctx.rcd.id

/-- A word that acts at once may act on pages for its threads: their earlier accesses are performed, and those of device pages also where an engine
performs them (R185, R220, R260). -/
def actsReady (s : State) (e : Env) (ls : List (Thread × Leaf)) : Bool :=
  ls.all (fun p => s.accs.all (fun y => y.t != p.1.ref) && coveredHome s p.1.ref e.iss.wid && !(p.2.dev && deviceBefore s p.1.ref e.iss.wid))

/-- The order of R185, R190 and R260 lets an access be performed now; `group` holds the accesses that are performed with it. The write of an
earlier atomic that acquires beyond the lake has reached its home (R185, R254 item 4), and so have the writes that its thread's MWAITs cover
(R220). -/
def orderHolds (s : State) (group : List Nat) (x : Access) : Bool :=
  let before := (earlierAccs s x).filter (fun y => !group.contains y.id)
  let mine := before.filter (fun y => y.t == x.t)
  mine.all (fun y => !y.acquires) && (!x.releases || performedFor s x.t x.scope before) &&
    before.all (fun y => !(y.t == x.t || y.wid == x.wid) || !y.overlaps x || passes x y) &&
    (!x.device || (mine.all (fun y => !y.device) && !engineDevice s x.t x.wid)) && s.slices.all (fun y => !(y.t == x.t && decide (y.id < x.id) && y.acquiresWide)) &&
    (x.space != .mem || coveredHome s x.t x.wid)

/-- No other lake's write of the line is on its way home, so that the lake may own the line (R254 item 2). -/
def mayOwn (s : State) (lake a : Nat) : Bool := s.slices.all (fun y => lineOf y.addr != lineOf a || y.lake == lake)

/-- No write of these bytes is on its way home. -/
def allHome (s : State) (x : Access) : Bool := s.slices.all (fun y => !y.overlaps x)

/-- What an access that acquires beyond its lake reads has reached its home, so that its thread's later accesses carry it on (R265, R271). -/
def acquiresHome (s : State) (x : Access) : Bool :=
  !(x.acquiresWide && !x.isStore) || s.slices.all (fun y => !(y.overlaps x && y.visible x.lake x.t))

/-- The accesses that are performed together with one: the atomics of a word on one location (R190), and the loads of a word on one
granule (R187). -/
def groupOf (s : State) (x : Access) : List Access :=
  if x.isAtom then s.accs.filter (fun y => y.wid == x.wid && y.isAtom && y.overlaps x)
  else if x.isLoad && x.space != .mem then
    s.accs.filter (fun y => y.wid == x.wid && y.isLoad && y.space == x.space && granOf y.addr == granOf x.addr)
  else [x]

/-- The granule that a scratchpad read needs is full (R187). -/
def granuleReady (s : State) (x : Access) : Bool :=
  match x.space with
  | .mem => true
  | .scratch p => x.isStore || (match pond s p with | some d => (d.gran (granOf x.addr)).full | none => true)

/-- An access may take its next step in its place: at its slice or array (stage 0). -/
def mayPerform (s : State) (x : Access) : Bool :=
  let g := groupOf s x
  g.head?.map Access.id == some x.id && granuleReady s x && g.all (orderHolds s (g.map Access.id)) &&
    g.all (acquiresHome s) && (x.space != .mem || (if x.cached then x.isLoad || mayOwn s x.lake x.addr else allHome s x))

/-- Bytes that a word reads as it issues: as its lake holds them, or at their home where their page is not cached. -/
def Env.lakeRead (e : Env) (s : State) (cached : Bool) (a n : Nat) : List Byte := if cached then lakeBytes s e.lake a n else memBytes s false a n

/-- The thread has observed writes that are on their way home (R271). -/
def observe (s : State) (t : TRef) (ids : List Nat) : State :=
  let open_ (i : Nat) : Bool := s.slices.any (fun y => y.id == i) || s.accs.any (fun y => y.id == i)
  updThread s t (fun u => { u with observed := distinct (u.observed.filter open_ ++ ids) })

/-- A byte of a lake as a thread sees it, with the write on its way home that it comes from: the newest write at a slice that is visible to
the thread, or the byte at home (R254 item 3). -/
def seenByte (s : State) (lake : Nat) (t : TRef) (a : Nat) : Option Nat × Byte :=
  match storedAt (s.slices.filter (fun y => y.visible lake t)) a with
  | some (id, b) => (some id, b)
  | none => (none, homeByte s a)

/-- A byte that a load returns, with the write on its way home that it comes from: the thread's own newest store in flight, or the byte as
the thread sees it in its lake (R254 item 3). -/
def viewByte (s : State) (x : Access) (a : Nat) : Option Nat × Byte :=
  match storedAt ((earlierAccs s x).filter (fun y => y.t == x.t)) a with
  | some (id, b) => (some id, b)
  | none => if x.cached then seenByte s x.lake x.t a else (none, memByte s false a)

/-- A byte that a load returns. -/
def loadByte (s : State) (x : Access) (a : Nat) : Byte := (viewByte s x a).2

/-- What an access in flight reads goes to its producer. -/
def Access.deliver (x : Access) (s : State) (bs : List Byte) : State :=
  match x.dst with
  | some (op, off) => fillOp s op off x.t bs
  | none => s

/-- The access leaves the list of those issued. -/
def dropAcc (s : State) (x : Access) : State := { s with accs := s.accs.filter (fun y => y.id != x.id) }

/-- A load is performed (R182, R254). -/
def performLoad (s : State) (x : Access) : State :=
  let s := if x.cached then fillPeer (fillHost s x.addr) x.lake x.addr else s
  let bs := (List.range x.n).map (fun i => loadByte s x (x.addr + i))
  let s := observe s x.t ((List.range x.n).filterMap (fun i => (viewByte s x (x.addr + i)).1))
  dropAcc (x.deliver s bs) x

/-- A write is performed at its home, or lost with a record that halts its block (R384); the write-range log holds it already (R303). -/
def writeHome (s : State) (x : Access) (bs : List Byte) : State :=
  if lostTo s x.addr then engineFatal s x.orig 0xA0 (moduleOf x.addr + 2 ^ 16) none else putHome s x.orig.ctx x.cached x.addr bs

/-- A write arrives: at the slice of its lake when its page is cached, which makes its line dirty there, else at its home at once (R254,
R260, R303). -/
def landWrite (s : State) (x : Access) (bs : List Byte) : State :=
  let s := logWrite s x.orig.ctx x.cached x.addr
  if x.cached then { ownPeer s x.lake x.addr with slices := s.slices ++ [{ x with kind := .store bs, stage := 1 }] }
  else sweepWord (writeHome s x bs) x.wid

/-- A store is performed at its slice. -/
def performStore (s : State) (x : Access) : State := landWrite (dropAcc s x) x x.stored

/-- The new bytes of an atomic over its old ones (R189). -/
def Access.newBytes (x : Access) (old : List Byte) : List Byte :=
  match x.kind with
  | .atom op _ uns b c => leBytes x.n (atomNew op x.n uns (leNat old) (b.toNat % 2 ^ (8 * x.n)) (c.toNat % 2 ^ (8 * x.n)))
  | _ => old

/-- An atomic is performed: it reads and writes as one step (R190). -/
def performAtom (s : State) (x : Access) : State :=
  let s := if x.cached then fillHost s x.addr else s
  let old := if x.cached then lakeBytes s x.lake x.addr x.n else memBytes s false x.addr x.n
  let s := if x.cached then observe s x.t (lakeWrites s x.lake x.addr x.n) else s
  landWrite (dropAcc (x.deliver s old) x) x (x.newBytes old)

/-- Bytes written into a scratchpad. -/
def Pond.putScratch (p : Pond) (a : Nat) (bs : List Byte) : Pond := { p with scratch := putBytes p.scratch a bs }

/-- No producer is the last to have emptied a granule any more. -/
def forgetTaken (s : State) (p g : Nat) : State :=
  { s with ops := s.ops.map (fun o => { o with taken := o.taken.filter (· != (p, g)) }) }

/-- A granule emptied by a read that takes it (R187), which its producer keeps in mind until it completes (R364). -/
def takeGran (s : State) (p g : Nat) (dst : Option (Nat × Nat)) : State :=
  let s := forgetTaken (updPond s p (fun d => d.emptyGran g)) p g
  match dst with
  | some (op, _) => { s with ops := updWhere (fun o => o.id == op) (fun o => { o with taken := o.taken ++ [(p, g)] }) s.ops }
  | none => s

/-- A scratchpad access is performed at the array (R186, R187). -/
def performScratch (s : State) (p : Nat) (x : Access) : State :=
  match pond s p with
  | none => sweepWord (dropAcc s x) x.wid
  | some d =>
    let old := bytesAt d.scratch x.addr x.n
    match x.kind with
    | .load take =>
      let s := x.deliver (dropAcc s x) old
      if take then takeGran s p (granOf x.addr) x.dst else s
    | .store bs => updPond (dropAcc s x) p (fun d => d.putScratch x.addr bs)
    | .atom .. => updPond (x.deliver (dropAcc s x) old) p (fun d => d.putScratch x.addr (x.newBytes old))

/-- One access is performed at its slice or array. -/
def performOne (s : State) (x : Access) : State :=
  let s := if x.releases && x.scope == .sy then flushCtx s x.orig.ctx else s
  match x.space with
  | .scratch p => performScratch s p x
  | .mem => if x.isLoad then performLoad s x else if x.isAtom then performAtom s x else performStore s x

/-- An access is performed, with those that go with it in lane order. -/
def performGroup (s : State) (x : Access) : State :=
  (groupOf s x).foldl (fun s y => match s.accs.find? (fun z => z.id == y.id) with | some z => performOne s z | none => s) s

/-- A write at its slice may be completed at its home: it is the oldest there of its bytes (R254). -/
def mayGoHome (s : State) (x : Access) : Bool := (s.slices.takeWhile (fun y => y.id != x.id)).all (fun y => !y.overlaps x)

/-- A write is completed at its home. -/
def goHome (s : State) (x : Access) : State :=
  let s := { s with slices := s.slices.filter (fun y => y.id != x.id) }
  sweepWord (writeHome s x x.stored) x.wid

/-- A write at its slice may become visible to one more thread, outside its lake, before it is completed at its home: every older write of
its bytes is visible to the thread (R254 item 3, R278). -/
def maySee (s : State) (y : Access) (t : TRef) : Bool :=
  match (thread s t).bind (fun u => (pond s u.pond).bind Pond.core) with
  | none => false
  | some core =>
    let lake := Config.lakeOf core
    !y.visible lake t && (s.slices.takeWhile (fun z => z.id != y.id)).all (fun z => !z.overlaps y || z.visible lake t)

/-- A write at its slice becomes visible to one more thread. -/
def seeWrite (s : State) (id : Nat) (t : TRef) : Option State :=
  match s.slices.find? (fun y => y.id == id) with
  | none => none
  | some y => if maySee s y t then
      some { s with slices := updWhere (fun z => z.id == id) (fun z => { z with seen := z.seen ++ [t] }) s.slices } else none

/-- ACCESS_PERFORMED (R254): an access reaches its slice or array, or a write at its slice its home. -/
def execAccessPerformed (id : Nat) (s : State) : Host.Outcome State Fault Refusal :=
  match s.accs.find? (fun x => x.id == id) with
  | some x => if mayPerform s x then .next (performGroup s x) else .fault .notEnabled
  | none => match s.slices.find? (fun x => x.id == id) with
    | some x => if mayGoHome s x then .next (goHome s x) else .fault .notEnabled
    | none => .fault .notEnabled

/-- The accesses that may be performed. -/
def accessEvents (s : State) : List Instr := (s.accs ++ s.slices).map (fun x => Instr.accessPerformed x.id)

/-- A fence of a kind and scope is performed for a thread (R192, R194). An `.acq` fence waits for the thread's loads and atomics, for its own
stores that they have returned, and at a scope beyond the lake for every write that they have observed (R265, R271). -/
def fenced (s : State) (kind : FenceKind) (sc : Scope) (t : TRef) : Bool :=
  match kind with
  | .acq =>
    let seen := ((thread s t).map Thread.observed).getD []
    s.accs.all (fun y => y.t != t || (y.isStore && !seen.contains y.id)) &&
      (!wideScope sc || observedHome s t)
  | _ => performedFor s t sc s.accs

/-- The copies of a thread are complete, and their writes performed at a scope (R192 `.cpy`). -/
def copiesDone (s : State) (sc : Scope) (t : TRef) : Bool :=
  s.copies.all (fun c => c.t != t) && (!wideScope sc || s.slices.all (fun y => y.t != t))

/-- An access that a word issues: the thread, its place and what it does there. -/
structure Piece where
  t : Thread
  space : Space
  va : Nat
  addr : Nat
  n : Nat
  kind : AccKind
  cached : Bool
  device : Bool
  dst : Option (Nat × Nat)
  deriving DecidableEq, Repr

/-- An access issued by the word under way. -/
def pushAcc (e : Env) (order : Order) (scope : Scope) (s : State) (p : Piece) : State :=
  let (id, s) := takeId s
  { s with accs := s.accs ++ [⟨id, e.iss.wid, p.t.ref, e.origin p.t.lane, p.space, p.va, p.addr, p.n, p.kind, order, scope,
      p.cached, p.device, 0, p.dst, [], []⟩] }

/-- The accesses of a word, issued in ascending lane. -/
def pushAccs (s : State) (e : Env) (order : Order) (scope : Scope) (ps : List Piece) : State := ps.foldl (pushAcc e order scope) s

/-- The single-copy-atomic units of an access of `n` bytes (R182): itself, or two halves of 8 bytes. -/
def units (n : Nat) : List (Nat × Nat) := if n = 16 then [(0, 8), (8, 8)] else [(0, n)]

/-- Scratchpad accesses of a still kernel are performed as soon as they may be, in their order (R63). -/
def settleScratch (s : State) (ids : List Nat) : State :=
  ids.foldl (fun s id => match s.accs.find? (fun x => x.id == id) with
    | some x => if mayPerform s x then performGroup s x else s
    | none => s) s

end Sys2Proof.Machine
end

