-- ==== Sys2Proof/Machine/Fetch.lean ====
section
/-! DEFINITION. Fetching a word (23 R366, 06 R116) and the checks of a pair as a whole (22 R344). -/

namespace Sys2Proof.Machine

/-- The decoded-operation cache's word at an address (R116). -/
def cachedWord (s : State) (e : Env) : Option Nat :=
  (s.icache.find? (fun c => c.core == e.core && c.ctx == e.ctx.rcd.id && c.addr == e.pc)).map Cached.word

/-- An unscheduled word stays in the decoded-operation cache of its core (R116). -/
def cacheWord (s : State) (e : Env) (w : Nat) : State :=
  if w.testBit 127 then s else { s with icache := s.icache ++ [⟨e.core, e.ctx.rcd.id, e.pc, w⟩] }

/-- A word of a kernel of another generation as the loader rewrites it (R119). -/
def portable (w : Nat) : Nat := bits w 0 104 + 2 ^ 126 * bits w 126 1

/-- The loader rewrites the word of code at a physical address (R119). -/
def rewriteAt (s : State) (ctxId : Nat) (cached : Bool) (pa : Nat) : State :=
  let s := settleLine s (lineOf pa)
  deviceWrite s ctxId cached pa (leBytes 16 (portable (leNat (memBytes s cached pa 16))))

/-- The loader rewrites the word at an address of a context (R119), with whatever rights its page has; none where no translation reaches it. -/
def rewriteWord (s : State) (c : Ctx) (va : Nat) : Option State :=
  match xlat s none c va with
  | .error _ => none
  | .ok leaf =>
    let pa := ownAddr s (leaf.phys va)
    if !populated s pa || s.badLines.contains (lineOf pa) || lostTo s pa then none else some (rewriteAt s c.rcd.id leaf.cached pa)

/-- A word of code that the loader could not reach as its launch started is rewritten before its first use (R119). -/
def rewriteFirst (s : State) (e : Env) (cached : Bool) (pa : Nat) : State :=
  if e.launch.unread.contains e.pc then
    updLaunch (rewriteAt s e.ctx.rcd.id cached pa) e.launch.id (fun l => { l with unread := l.unread.filter (· != e.pc) })
  else s

/-- The fetch of the word at a fragment's address (R119, R125, R260, R366): the word, or the trap or parking that it meets. -/
def fetch (s : State) (e : Env) : Except Res (Nat × State) :=
  if !e.valid e.pc then .error (.trap ⟨0x0B, 1, some (e.codeBase + e.extent), lowLane e.threads⟩) else
  match cachedWord s e with
  | some w => .ok (w, s)
  | none =>
    match checkMem s (some e.lake) e.ctx true [⟨lowLane e.threads, e.pc, 16, .fetch, false, false⟩] with
    | .error f => .error f.res
    | .ok [] => .error .wait
    | .ok ((pa, leaf) :: _) =>
      if s.badLines.contains (lineOf pa) then .error (.trap ⟨0x82, 0, some e.pc, lowLane e.threads⟩)
      else
        let s := rewriteFirst s e leaf.cached pa
        let w := leNat (memBytes s leaf.cached pa 16)
        .ok (w, cacheWord (fillTlb s e.lake e.ctx.rcd.id leaf) e w)

/-- Checks 2 and 3 of R342 over a pair as a whole (R344, R347): cause and DETAIL, and whether operation Y failed. -/
def pairCheck (k : Kernel) (x y : Instr) : Option (Nat × Nat × Bool) :=
  match minOf ((declCheck k false x).toList ++ (declCheck k false y).toList) with
  | some d => some (0x09, d, declCheck k false x != some d)
  | none =>
    match operandCheck false x, operandCheck false y with
    | some d, _ => some (0x08, d, false)
    | none, some d => some (0x08, d, true)
    | none, none => none

/-- The surroundings of a fragment before its word is known. -/
def envAt (s : State) (r : FRef) : Option Env := envOf s ⟨r, s.nextId, .single, schedOf 0⟩

/-- The state in which an operation of the fragment's word number `wid` issues. -/
def issuing (s : State) (r : FRef) (wid : Nat) (part : Part) (sch : Sched) : State :=
  { s with cur := some ⟨r, wid, part, sch⟩ }

/-- A trap that the word as a whole meets before any operation of it issues. -/
def trapAt (s : State) (e : Env) (opY : Bool) (cause detail : Nat) : State :=
  takeTrap s { e with iss := { e.iss with part := if opY then .pairY else e.iss.part } } ⟨cause, detail, none, lowLane e.threads⟩

/-- The address of the word that `placed` stores, virtual and physical. -/
def placedAt : Nat := 0x10000

/-- The context record of `placed`. -/
def placedCtx : CtxRec where
  root := 0x20000
  objBase := 0x100000
  locBase := 0x200000
  locSize := 0
  bslots := 1
  handler := 0
  harea := 0
  sched := 0
  schedN := 0
  qbase := 0x300000
  imgBase := 0
  spdBase := 0
  thrBase := 0
  fqBase := 0x400000
  fqLog2 := 4
  wellAge := 256
  park := 0
  objWr := true
  lakes := 1
  id := 1
  step := 0
  hextent := 0

/-- The kernel of `placed`: one page of code with every register, predicate, barrier and convergence register declared. -/
def placedKernel : Kernel where
  code := placedAt
  extent := 0x10000
  entry := 0
  regs := 768
  preds := 64
  scratch := 0
  barriers := 16
  conv := 16
  width := 16
  still := false
  restart := false
  gen := 4
  homeMap := 0
  args := []
  tile := []

/-- A thread as it is launched in lane 0 of pool 0 (R66). -/
def placedThread : Thread where
  blk := 0
  tid := 0
  pond := 0
  entry := 0
  place := .lane 0 0 0
  springs := []
  slots := []
  preds := 0
  fflags := 0
  retired := 0
  stack := []
  spilled := 0
  marks := []
  bars := []
  handler := false
  observed := []
  poison := []
  setw := none
  deferred := []
  uses := []

/-- A pool as it is drawn (R47). -/
def placedPool : Pool where
  id := 0
  num := 0
  recNo := 0
  pond := 0
  grant := 16
  copies := []
  slots := []
  poison := []
  opY := none
  skid := 0

/-- The one fragment of a pool as it is drawn (R47). -/
def placedFrag : Frag where
  pool := 0
  id := 0
  parent := 0
  sibs := 1
  pc := placedAt
  hist := []
  older := []
  pace := 0
  hold := .free
  yOnly := false
  transl := false
  count := 0
  skid := 0
  stopped := false
  deferred := none
  recent := []

/-- A pond as its block is admitted (R66). -/
def placedPond : Pond where
  id := 0
  blk := 0
  idx := 0
  core := some 0
  base := 0
  size := 0
  grant := 16
  bank := []
  qbank := []
  poison := []
  conv := []
  scratch := []
  grans := []
  badGrans := []
  held := []
  gens := []
  expired := []
  draining := []
  struck := none
  rots := []

/-- The block of `placed`. -/
def placedBlock : Block where
  id := 0
  launch := 0
  lin := 0
  bx := 0
  byy := 0
  bz := 0
  lake := some 0
  slot := 0
  halt := none
  reached := []
  halted := false
  killed := false
  restarts := 0
  buffer := []
  images := []
  ended := false
  stuckAt := []

/-- The launch of `placed`. -/
def placedLaunch : Launch where
  id := 0
  ctx := 1
  queue := 0
  seq := 0
  prio := 0
  gx := 1
  gy := 1
  gz := 1
  bsize := 1
  coop := false
  tile := []
  argWords := []
  kernel := placedKernel
  lakes := [0]
  resident := 1
  next := 1
  waiting := []
  again := []
  started := true
  killed := []
  round := 0
  newlyEnded := 0
  ranges := []
  areas := []
  unread := []
  icinvs := []
  touched := []

/-- The context of `placed`. -/
def placedContext : Ctx where
  rcd := placedCtx
  running := true
  stalled := false
  seq := 0
  held := []
  pages := []
  priv := []
  hdrs := []
  privGaps := []
  hdrGaps := []
  fqErr := 0
  transl := []
  met := []
  gwn := []
  switchAsked := false

/-- The page of `placed`, readable, writable and executable. -/
def placedLeaf : Leaf where
  page := 1
  size := 0x10000
  pa := placedAt
  r := true
  w := true
  x := true
  cacheable := true
  dev := false
  glob := false
  level := 4

/-- A kernel of one thread about to issue the word of the given bytes (log 5). -/
def placed (s : State) (word : List Byte) : State :=
  { s with
    host := { s.host with go := true, stage := 3 }
    mem := putBytes s.mem placedAt word
    hostLines := []
    badLines := []
    badCores := []
    ctxs := [placedContext]
    launches := [placedLaunch]
    blocks := [placedBlock]
    ponds := [placedPond]
    pools := [placedPool]
    frags := [placedFrag]
    threads := [placedThread]
    tlb := [⟨0, 1, placedLeaf⟩]
    icache := []
    choices := []
    inbox := []
    cur := none }

end Sys2Proof.Machine
end

