-- ==== Sys2Proof/Machine/Control.lean ====
section
/-! DEFINITION. Control flow (07 R124 to R130): branches, calls and returns with the per-thread return stack (13 R244), and the
words that act on the fragment. REFORM and EXIT stand in `Leave.lean`. -/

namespace Sys2Proof.Machine

/-- The target of BRA and CALL (R125): `pc + 16 + sext(imm32) × 16`, a 64-bit address. -/
def relTarget (pc : Nat) (off : Word) : Nat := (BitVec.ofNat 64 (pc + 16) + off.signExtend 64 * 16).toNat

/-- The target of BRX and CALLX (R125): the code base in force plus a 32-bit offset. -/
def Env.absTarget (e : Env) (t : Thread) (a : Src) : Nat := e.codeBase + (e.src 0 t a).toNat

/-- The trap of the lowest active lane whose target is invalid (R125). -/
def targetTrap (e : Env) (target : Thread → Nat) (act : List Thread) : Option Trap :=
  (act.find? (fun t => !e.valid (target t))).map (fun t => ⟨0x0B, 0, some (target t), t.lane⟩)

/-- The addresses that a branch names for the threads of its fragment: the active threads' targets, and none for the others (R126). -/
def Env.dests (e : Env) (act : List Thread) (target : Thread → Nat) : List (TRef × Option Nat) :=
  e.threads.map (fun t => (t.ref, if act.any (fun u => u.ref == t.ref) then some (target t) else none))

/-- The active threads go to their targets and the others on (R49, R126). `apart` is set for BRA and CALL, whose two sets are two fragments
wherever they go; `safe` says which targets are safe points (R117). -/
def branch (e : Env) (apart : Bool) (act : List Thread) (target : Thread → Nat) (safe : Nat → Bool) (s : State) : State :=
  splitTo s e.frag.ref e.pc apart (fun named a => arrive e.ctx e.frag.transl (named && safe a) a) (e.dests act target)

/-- The threads of a branch that a split leaves on its word (R49). -/
def Env.staying (_e : Env) (act : List Thread) (target : Thread → Nat) : List TRef := leftOver (act.map (fun t => (t.ref, target t)))

/-- A backward branch enters a safe point (R117). -/
def Env.backward (e : Env) (a : Nat) : Bool := decide (a ≤ e.pc)

/-- A branch word without a stack (R125, R126). -/
def branchBody (apart : Bool) (g : Guard) (target : Env → Thread → Nat) (e : Env) (s : State) : Res :=
  let act := e.active g
  match targetTrap e (target e) act with
  | some t => .trap t
  | none => .ok (branch e apart act (target e) e.backward s)

/-- The depth of a thread's return stack (R127). -/
def Thread.depth (t : Thread) : Nat := t.stack.length + t.spilled

/-- Entries of the return stack that stay on the core (R127). -/
def stackOnCore : Nat := 16

/-- The local window of a thread (R243). -/
def Env.window (e : Env) (t : Thread) : Nat := e.ctx.rcd.locBase + (e.block.slot * 8192 + t.tid) * e.ctx.rcd.locSize

/-- The address of entry `n` of a thread's return stack (R244). -/
def Env.stackAddr (e : Env) (t : Thread) (n : Nat) : Nat := (e.window t + e.ctx.rcd.locSize - 8192 + 8 * n) % 2 ^ 64

/-- The spill or fill of a thread's return stack as a request of memory (R127, R354). -/
def Env.stackReq (e : Env) (acc : Acc) (t : Thread) (n : Nat) : MemReq := ⟨t.lane, e.stackAddr t n, 8, acc, false, false⟩

/-- A thread after a push; `spill` says that its oldest entry on the core has gone to memory (R127). -/
def Thread.push (t : Thread) (a : Nat) (spill : Bool) : Thread :=
  { t with
    stack := BitVec.ofNat 64 a :: (if spill then t.stack.dropLast else t.stack)
    spilled := if spill then t.spilled + 1 else t.spilled }

/-- A spill or fill waits for what its thread has still to perform (R185, R220, R260): an access of the same bytes, a write that an MWAIT covers, and
on a device page every earlier access of one. -/
def stackWaits (s : State) (e : Env) (l : List (Thread × Nat × Leaf)) : Bool :=
  l.any (fun p => s.accs.any (fun y => y.t == p.1.ref && y.space == .mem && decide (p.2.1 < y.addr + y.n ∧ y.addr < p.2.1 + 8)) ||
    !coveredHome s p.1.ref e.iss.wid || (p.2.2.dev && deviceBefore s p.1.ref e.iss.wid))

/-- The push of one thread, its spill written to its window (R127, R244). -/
def pushOne (e : Env) (pas : List (TRef × Nat × Leaf)) (s : State) (t : Thread) : State :=
  match pas.find? (fun p => p.1 == t.ref) with
  | some (_, pa, leaf) =>
    let old := t.stack.getLastD 0
    updThread (e.deviceStore s t leaf.cached pa (leBytes 8 old.toNat)) t.ref (fun u => u.push (e.pc + 16) true)
  | none => updThread s t.ref (fun u => u.push (e.pc + 16) false)

/-- CALL and CALLX (R128): targets, depths, spills, then the pushes and the branch. -/
def callBody (apart : Bool) (g : Guard) (target : Env → Thread → Nat) (e : Env) (s : State) : Res :=
  let act := e.active g
  match targetTrap e (target e) act with
  | some t => .trap t
  | none =>
    match act.find? (fun t => t.depth == 1024) with
    | some t => .trap ⟨0x0C, 1024, none, t.lane⟩
    | none =>
      let left := e.staying act (target e)
      let go := act.filter (fun t => !left.contains t.ref)
      let full := go.filter (fun t => t.stack.length == stackOnCore)
      match checkMem s (some e.lake) e.ctx false (full.map (fun t => e.stackReq .spill t t.spilled)) with
      | .error f => f.res
      | .ok pas =>
        if stackWaits s e (full.zip pas) then .wait else
        let pas' := (full.map Thread.ref).zip pas
        let s := fillAll s e.lake e.ctx.rcd.id pas
        let s := go.foldl (pushOne e (pas'.map (fun p => (p.1, p.2.1, p.2.2)))) s
        .ok (branch e apart act (target e) (fun _ => true) s)

/-- The return address on top of a thread's stack (R128). -/
def Thread.top (t : Thread) : Nat := (t.stack.headD 0).toNat

/-- A thread after a pop; `fill` is the entry that comes back to the core (R127). -/
def Thread.pop (t : Thread) (fill : Option DWord) : Thread :=
  match fill with
  | some v => { t with stack := t.stack.drop 1 ++ [v], spilled := t.spilled - 1 }
  | none => { t with stack := t.stack.drop 1 }

/-- A fill from a poisoned line (R380). -/
def poisonedFill (s : State) (ts : List Thread) (rs : List MemReq) (pas : List (Nat × Leaf)) : Option Trap :=
  firstSome (fun (p : Thread × MemReq × Nat × Leaf) =>
    if s.badLines.contains (lineOf p.2.2.1) then some ⟨0x82, 0, some p.2.1.va, p.1.lane⟩ else none) (ts.zip (rs.zip pas))

/-- RET (R128): depths, targets, fills, then the pops and the branch. -/
def retBody (g : Guard) (e : Env) (s : State) : Res :=
  let act := e.active g
  match act.find? (fun t => t.depth == 0) with
  | some t => .trap ⟨0x0D, 0, none, t.lane⟩
  | none =>
    match targetTrap e Thread.top act with
    | some t => .trap t
    | none =>
      let left := e.staying act Thread.top
      let go := act.filter (fun t => !left.contains t.ref)
      let low := go.filter (fun t => decide (0 < t.spilled))
      let rs := low.map (fun t => e.stackReq .fill t (t.spilled - 1))
      match checkMem s (some e.lake) e.ctx false rs with
      | .error f => f.res
      | .ok pas =>
        match poisonedFill s low rs pas with
        | some t => .trap t
        | none =>
          if stackWaits s e (low.zip pas) then .wait else
          let fill (t : Thread) : Option DWord :=
            ((low.zip pas).find? (fun p => p.1.ref == t.ref)).map (fun p => BitVec.ofNat 64 (leNat (e.lakeRead s p.2.2.cached p.2.1 8)))
          let s := fillAll s e.lake e.ctx.rcd.id pas
          let s := updThreads s (fun t => go.any (fun u => u.ref == t.ref)) (fun t => t.pop (fill t))
          .ok (branch e false act Thread.top (fun _ => true) s)

/-- BRA (R126). -/
def execBra (g : Guard) (off : Word) (s : State) : Host.Outcome State Fault Refusal :=
  issue (.bra g off) s (branchBody true g (fun e _ => relTarget e.pc off))
/-- BRX (R126). -/
def execBrx (g : Guard) (a : Src) (s : State) : Host.Outcome State Fault Refusal :=
  issue (.brx g a) s (branchBody false g (fun e t => e.absTarget t a))
/-- CALL (R128). -/
def execCall (g : Guard) (off : Word) (s : State) : Host.Outcome State Fault Refusal :=
  issue (.call g off) s (callBody true g (fun e _ => relTarget e.pc off))
/-- CALLX (R128). -/
def execCallx (g : Guard) (a : Src) (s : State) : Host.Outcome State Fault Refusal :=
  issue (.callx g a) s (callBody false g (fun e t => e.absTarget t a))
/-- RET (R128). -/
def execRet (g : Guard) (s : State) : Host.Outcome State Fault Refusal := issue (.ret g) s (retBody g)
/-- NOP (R130): nothing beyond the issue. -/
def execNop (g : Guard) (s : State) : Host.Outcome State Fault Refusal := issue (.nop g) s (fun _ s => .ok s)
/-- YIELD (R130): a NOP that gives way on its slot, which is timing. -/
def execYield (g : Guard) (s : State) : Host.Outcome State Fault Refusal := issue (.yield g) s (fun _ s => .ok s)
/-- DRAIN (R130): its wait is part of the readiness of `issue`. -/
def execDrain (g : Guard) (k : Fin 64) (s : State) : Host.Outcome State Fault Refusal := issue (.drain g k) s (fun _ s => .ok s)

end Sys2Proof.Machine
end

