-- ==== Sys2Proof/Machine/Memory.lean ====
section
/-! DEFINITION. Loads, stores and atomics on global and local memory (10 R179 to R185, R188 to R190; 23 R356). -/

namespace Sys2Proof.Machine

/-- The effective address of R180: the address operand and the displacement, modulo 2^64. -/
def Env.ea (e : Env) (t : Thread) (a : Src) (disp : BitVec 16) : Nat := (e.src64 0 false t a + disp.signExtend 64).toNat

/-- The address of the lowest lane that is off its alignment (R180, step 1 of R356). -/
def misaligned (n : Nat) (eas : List (Thread × Nat)) : Option Trap :=
  (eas.find? (fun p => p.2 % n != 0)).map (fun p => ⟨0x20, n, some p.2, p.1.lane⟩)

/-- The offset of the lowest lane that leaves the local data (R243, step 2 of R356); `on` says which lanes access anything. -/
def localBounds (e : Env) (n : Nat) (on : Thread → Bool) (eas : List (Thread × Nat)) : Option Trap :=
  (eas.find? (fun p => on p.1 && decide (e.ctx.rcd.locSize < p.2 + n + 8192))).map
    (fun p => ⟨0x22, n + 2 ^ 32 * e.ctx.rcd.locSize, some p.2, p.1.lane⟩)

/-- A translated piece of an access: its thread, addresses, bytes, offset in the datum and leaf. -/
structure Hit where
  t : Thread
  va : Nat
  pa : Nat
  n : Nat
  off : Nat
  leaf : Leaf
  deriving DecidableEq, Repr

/-- The virtual address of an effective address (R243). -/
def Env.virtual (e : Env) (loc : Bool) (t : Thread) (ea : Nat) : Nat := if loc then (e.window t + ea) % 2 ^ 64 else ea

/-- Whole accesses: one piece of the size. -/
def whole (n : Nat) (_ : Thread) : List (Nat × Nat) := [(0, n)]

/-- The enabled bytes of a masked store (R183). -/
def enabledBytes (n mask : Nat) : List (Nat × Nat) := ((List.range n).filter (fun i => mask.testBit i)).map (fun i => (i, 1))

/-- A read of a poisoned line (R380), in the lowest lane. -/
def poisonedRead (s : State) (hs : List Hit) : Option Trap :=
  (hs.find? (fun h => s.badLines.contains (lineOf h.pa))).map (fun h => ⟨0x82, 0, some h.va, h.t.lane⟩)

/-- The access reads memory. -/
def Acc.reads : Acc → Bool
  | .load | .atomic | .fill | .fetch => true
  | _ => false

/-- The checks of an access of memory in the order of R356, and its translated pieces. `pieces` gives those of a lane. -/
def gaccess (s : State) (e : Env) (acc : Acc) (loc masked : Bool) (n : Nat) (pieces : Thread → List (Nat × Nat))
    (eas : List (Thread × Nat)) : Except Res (List Hit) :=
  match (if masked then none else misaligned n eas).or
      (if loc then localBounds e n (fun t => !(pieces t).isEmpty) eas else none) with
  | some t => .error (.trap t)
  | none =>
    let ps := eas.flatMap (fun p => (pieces p.1).map (fun q => (p.1, (e.virtual loc p.1 p.2 + q.1) % 2 ^ 64, q)))
    match checkMem s (some e.lake) e.ctx true
        (ps.map (fun p => ⟨p.1.lane, p.2.1, p.2.2.2, acc, loc, acc == .load⟩)) with
    | .error f => .error f.res
    | .ok ls =>
      let hs := (ps.zip ls).map (fun q => (⟨q.1.1, q.1.2.1, q.2.1, q.1.2.2.2, q.1.2.2.1, q.2.2⟩ : Hit))
      match if acc.reads then poisonedRead s hs else none with
      | some t => .error (.trap t)
      | none => .ok hs

/-- The lake's cache after the translations of a word (R261). -/
def fillHits (s : State) (e : Env) (hs : List Hit) : State := hs.foldl (fun s h => fillTlb s e.lake e.ctx.rcd.id h.leaf) s

/-- The page of a piece is cached: cacheable and no device page (R260). -/
def Hit.cached (h : Hit) : Bool := h.leaf.cached

/-- A single-copy-atomic unit of a piece as an access: `i` its offset in the piece. -/
def Hit.piece (h : Hit) (i n : Nat) (kind : AccKind) (dst : Option (Nat × Nat)) : Piece :=
  ⟨h.t, .mem, h.va + i, h.pa + i, n, kind, h.cached, h.leaf.dev, dst⟩

/-- A result of `n` bytes that has not arrived. -/
def noBytes (n : Nat) : List (Option Byte) := List.replicate n none

/-- Every active thread of a still kernel has no access in flight, as its release and its round point need. -/
def quietThreads (s : State) (act : List Thread) : Bool := act.all (fun t => s.accs.all (fun y => y.t != t.ref))

/-- The lines that a still word read (R291). -/
def touchHits (s : State) (e : Env) (hs : List Hit) : State :=
  hs.foldl (fun s h => touch s e.launch.id e.block false h.va h.pa) s

/-- The writes of other launches, on their way home from its lake, that a load of a still kernel returns (R254 item 3). -/
def Env.stillSees (e : Env) (s : State) (h : Hit) (n : Nat) : List Nat := if h.cached then lakeWrites s e.lake h.pa n else []

/-- The threads of a still load have observed such writes (R271). -/
def observeHits (s : State) (e : Env) (hs : List Hit) (n : Nat) : State := hs.foldl (fun s h => observe s h.t.ref (e.stillSees s h n)) s

/-- The threads of a still word that releases have performed what comes before it, as far as no commit performs it (R185). -/
def stillReady (s : State) (act : List Thread) (o : Order) (sc : Scope) : Bool :=
  act.all (fun t => performedFor s t.ref (if o == .rel || o == .ar then sc else .pl) s.accs)

/-- LD (R182): a long-latency producer of what its accesses read. -/
def ldBody (g : Guard) (m : MemMod) (uns : Bool) (d : Dst) (a : Src) (e : Env) (s : State) : Res :=
  match e.active g with
  | [] => .ok s
  | act =>
    let n := m.size.bytes
    match gaccess s e .load m.loc false n (whole n) (act.map (fun t => (t, e.ea t a m.disp))) with
    | .error r => r
    | .ok hs =>
      let s := fillHits s e hs
      let ext := if n < 4 then some uns else none
      if e.still then
        if wideAcquire m.order m.scope && hs.any (fun h => !(e.stillSees s h n).isEmpty) then .wait else
        let s := observeHits (touchHits s e hs) e hs n
        .ok (startOp s e d m.size.regs ext (hs.map (fun h =>
          ⟨h.t.ref, (stillBytes s e.launch e.block h.cached h.va h.pa n).map some⟩))).2
      else
        let (op, s) := startOp s e d m.size.regs ext (hs.map (fun h => ⟨h.t.ref, noBytes n⟩))
        .ok (pushAccs s e m.order m.scope
          (hs.flatMap (fun h => (units n).map (fun u => h.piece u.1 u.2 (.load false) (some (op, u.1))))))

/-- The bytes of a stored datum: the low bytes of its registers, low register first (R182). -/
def Env.datum (e : Env) (t : Thread) (b : Src) (n : Nat) : List Byte :=
  ((List.range ((n + 3) / 4)).flatMap (fun i => word32Bytes (e.srcAt t b i))).take n

/-- The writes of a still word, each with its place in program order (R293): lane, addresses and entry. -/
def numbered (s : State) : List (Nat × Hit × (Nat → BufEntry)) → State × List StillWrite
  | [] => (s, [])
  | (va, h, f) :: r =>
    let (id, s) := takeId s
    let (s, ws) := numbered s r
    (s, ⟨h.t.lane, va, (f id).pa, f id⟩ :: ws)

/-- The writes of a still word performed or buffered, unless its round buffer has no room (R293, R378). -/
def stillWrites (s : State) (e : Env) (ws : List (Nat × Hit × (Nat → BufEntry))) : Except Res (List StillWrite × State) :=
  let (s, ws) := numbered s ws
  match bufferTrap s e.launch e.block ws with
  | some t => .error (.trap t)
  | none => .ok (ws, ws.foldl (fun s w => stillWrite s e.launch.id e.block.id w) s)

/-- A unit of a stored datum as a round-buffer entry. -/
def storeEntry (e : Env) (h : Hit) (i n : Nat) (data : List Byte) : Nat × Hit × (Nat → BufEntry) :=
  (h.va + i, h, fun seq => ⟨seq, h.va + i, h.pa + i, h.cached, (data.drop (h.off + i)).take n, none, none, none, h.t.ref, e.iss.wid,
    e.origin h.t.lane, false, []⟩)

/-- ST and STM (R182, R183): the data are read at issue, and the word completes when it issues. -/
def stBody (g : Guard) (m : MemMod) (mask : Env → Thread → Option Nat) (a b : Src) (e : Env) (s : State) : Res :=
  match e.active g with
  | [] => .ok s
  | act =>
    let n := m.size.bytes
    let masked := act.any (fun t => (mask e t).isSome)
    let pieces (t : Thread) := match mask e t with | some k => enabledBytes n k | none => whole n t
    match gaccess s e .store m.loc masked n pieces (act.map (fun t => (t, e.ea t a m.disp))) with
    | .error r => r
    | .ok hs =>
      let s := fillHits s e hs
      if e.still then
        if m.order == .rel && !stillReady s act m.order m.scope then .wait
        else match stillWrites (if m.order == .rel && m.scope == .sy then e.syncHost s act else s) e (hs.flatMap (fun h => (units h.n).map (fun u => storeEntry e h u.1 u.2 (e.datum h.t b n)))) with
          | .error r => r
          | .ok (_, s) => .ok s
      else .ok (pushAccs s e m.order m.scope (hs.flatMap (fun h =>
        (units h.n).map (fun u => h.piece u.1 u.2 (.store (((e.datum h.t b n).drop (h.off + u.1)).take u.2)) none))))

/-- An atomic operand at its size (R188). -/
def Env.atomSrc (e : Env) (wide : Bool) (t : Thread) (b : Src) : DWord :=
  if wide then e.src64 0 false t b else (e.src 0 t b).setWidth 64

/-- The threads of the writes that went into the round buffer (R294). -/
def sharedOf (s : State) (e : Env) (hs : List Hit) : List TRef :=
  (hs.filter (fun h => !ownLine s e.launch e.block h.va h.pa)).map (fun h => h.t.ref)

/-- The fragment holds at a round point for some threads (R294). -/
def holdRound (s : State) (e : Env) (ts : List TRef) : State :=
  if ts.isEmpty then s else updFrag s e.frag.ref (fun f => { f with hold := .round ts e.waiter })

/-- ATOM and REDM (R188 to R190); `start` begins the producer of ATOM or the incomplete word of REDM. In still mode a shared atomic is
a round point (R294). -/
def atomBody (g : Guard) (m : AtomMod) (a b c : Src) (start : State → Env → List TRef → Option Nat × State) (e : Env) (s : State) : Res :=
  match e.active g with
  | [] => .ok s
  | act =>
    let n := if m.wide then 8 else 4
    match gaccess s e .atomic false false n (whole n) (act.map (fun t => (t, e.ea t a m.disp))) with
    | .error r => r
    | .ok hs =>
      let s := fillHits s e hs
      let (op, s) := start s e (act.map Thread.ref)
      if e.still then
        if !stillReady s act m.order m.scope then .wait
        else
          let s := if (m.order == .rel || m.order == .ar) && m.scope == .sy then e.syncHost s act else s
          let entry (h : Hit) : Nat × Hit × (Nat → BufEntry) := (h.va, h, fun seq =>
            ⟨seq, h.va, h.pa, h.cached, leBytes n 0, some (m.op, m.wide, m.uns, e.atomSrc m.wide h.t b, e.atomSrc m.wide h.t c),
              op.map (fun o => (o, h.t.ref)), none, h.t.ref, e.iss.wid, e.origin h.t.lane, false, []⟩)
          match stillWrites s e (hs.map entry) with
          | .error r => r
          | .ok (_, s) =>
            let ts := sharedOf s e hs
            .ok (if ts.isEmpty then sweepWord s e.iss.wid else holdRound s e ts)
      else .ok (pushAccs s e m.order m.scope (hs.map (fun h => h.piece 0 n
        (.atom m.op m.wide m.uns (e.atomSrc m.wide h.t b) (e.atomSrc m.wide h.t c)) (op.map (fun o => (o, 0))))))

/-- LD (R182). -/
def execLd (g : Guard) (m : MemMod) (uns : Bool) (d : Dst) (a : Src) (s : State) : Host.Outcome State Fault Refusal :=
  issue (.ld g m uns d a) s (ldBody g m uns d a)
/-- ST (R182). -/
def execSt (g : Guard) (m : MemMod) (a b : Src) (s : State) : Host.Outcome State Fault Refusal :=
  issue (.st g m a b) s (stBody g m (fun _ _ => none) a b)
/-- STM (R183). -/
def execStm (g : Guard) (m : MemMod) (a b c : Src) (s : State) : Host.Outcome State Fault Refusal :=
  issue (.stm g m a b c) s (stBody g m (fun e t => some (e.src 0 t c).toNat) a b)

/-- The line of a prefetch comes into the caches where it may (R184); of the caches host lines are state (R254 item 6), and the peer lines of a
lake (R384), which `.l2` does not reach. -/
def prefetch (l2 : Bool) (a : Src) (disp : BitVec 16) (e : Env) (s : State) (t : Thread) : State :=
  match xlat s (some e.lake) e.ctx (e.ea t a disp) with
  | .error _ => s
  | .ok leaf =>
    let pa := ownAddr s (leaf.phys (e.ea t a disp))
    if !leaf.cached || !populated s pa || privileged s e.ctx pa 1 || s.badLines.contains (lineOf pa) ||
        s.host.lostModules.contains (moduleOf pa) && isPeer pa then s
    else if l2 then fillHost s pa else fillPeer (fillHost s pa) e.lake pa

/-- PREF (R184). -/
def execPref (g : Guard) (l2 : Bool) (disp : BitVec 16) (a : Src) (s : State) : Host.Outcome State Fault Refusal :=
  issue (.pref g l2 disp a) s (plain g (fun e act s => act.foldl (prefetch l2 a disp e) s))

/-- ATOM (R190): a long-latency producer of the old value. -/
def execAtom (g : Guard) (m : AtomMod) (d : Dst) (a b c : Src) (s : State) : Host.Outcome State Fault Refusal :=
  issue (.atom g m d a b c) s (atomBody g m a b c (fun s e ts =>
    let n := if m.wide then 2 else 1
    let (op, s) := startOp s e d n none (ts.map (fun t => ⟨t, noBytes (4 * n)⟩))
    (some op, s)))
/-- REDM (R190): the word is complete once it has been performed at memory. -/
def execRedm (g : Guard) (m : AtomMod) (a b : Src) (s : State) : Host.Outcome State Fault Refusal :=
  issue (.redm g m a b) s (atomBody g m a b .zero (fun s e _ => (none, begin_ s e)))

end Sys2Proof.Machine
end

