-- ==== Sys2Proof/Machine/Tiles.lean ====
section
/-! DEFINITION. Reservoir slots and handles (11 R214 to R216), the tiles of matrix operations (11 R211, R217), what spoils an operation
(11 R221), the reading of the object table (12 R237), and the writes of the copy and matrix engines (10 R198, 11 R217). -/

namespace Sys2Proof.Machine

/-- The handle of a slot (R214). -/
def handleOf (idx gen : Nat) : Word := BitVec.ofNat 32 (2 ^ 31 + 2 ^ 8 * (gen % 256) + idx)

/-- The slots that a pond holds (R214, R216); a released one is held no more, though it is freed later. -/
def Pond.holds (d : Pond) : List RSlot := d.held.filter (fun r => !r.stale)

/-- The slot of a valid handle (R214). -/
def Pond.slotOfHandle (d : Pond) (h : Word) : Option RSlot := d.holds.find? (fun r => handleOf r.idx r.gen == h)

/-- A slot of a pond by index and generation. -/
def Pond.rslot (d : Pond) (idx gen : Nat) : Option RSlot := d.held.find? (fun r => r.idx == idx && r.gen == gen)

/-- A slot changed. -/
def updSlot (s : State) (pd idx gen : Nat) (f : RSlot → RSlot) : State :=
  updPond s pd (fun d => { d with held := updWhere (fun r => r.idx == idx && r.gen == gen) f d.held })

/-- An index taken (R214, R215): the lowest that the pond does not hold, under its next generation; its flags start at 0. -/
def takeIndex (s : State) (pd : Nat) : Nat × Nat × State :=
  match pond s pd with
  | none => (0, 0, s)
  | some d =>
    let idx := (lowestFree (d.holds.map RSlot.idx) Config.slotsPerCore 0).getD 0
    let gen := (mapGet d.gens idx).getD 0 % 256
    (idx, gen, updPond s pd (fun d => { d with
      held := d.held ++ [⟨idx, gen, false, 0, .undef 0, false, false⟩]
      gens := mapUpd d.gens idx 0 (· + 1) }))

/-- The operation works on the slot: it is its own, or its chained source (R213). -/
def MOp.onSlot (m : MOp) (idx gen : Nat) : Bool := (m.idx == idx && m.gen == gen) || m.src == some (idx, gen)

/-- The operations of a pond that have not completed. -/
def pending (s : State) (pd : Nat) : List MOp := s.mops.filter (fun m => m.pond == pd && !m.done)

/-- A fragment of the pond waits at an MWAIT for the slot (R220). -/
def waitedFor (s : State) (pd : Nat) (r : RSlot) : Bool :=
  s.frags.any (fun f => match f.hold with
    | .mwait _ slots _ => (pool s f.pool).any (fun p => p.pond == pd) && slots.any (fun x => x.2 == (r.idx, r.gen))
    | _ => false)

/-- Released slots are freed once no operation queued on them remains (R216). The flags of one for which an MWAIT waits stay until it
completes (R220). -/
def sweepSlots (s : State) (pd : Nat) : State :=
  let busy := pending s pd
  updPond s pd (fun d => { d with held := d.held.filterMap (fun r =>
    if !r.stale || busy.any (fun m => m.onSlot r.idx r.gen) then some r
    else if waitedFor s pd r then some { r with phys := false, poisoned := false } else none) })

/-- Bytes of a scratchpad tile of an MLDA or MSTA (R211). -/
def squareBytes (w : Word) : Nat := tileBytes (fwA w) 128 128

/-- The operand tiles of an MMA by its format word, K and tile addresses (R211): start and length. -/
def mmaTiles (w : Word) (k a b : Nat) : List (Nat × Nat) :=
  let n := mmaK w k
  (if fwChain w then [] else [(a, if fwTA w then tileBytes (fwA w) n 128 else tileBytes (fwA w) 128 n)]) ++
    [(b, if fwTB w then tileBytes (fwB w) 128 n else tileBytes (fwB w) n 128)]

/-- The scratchpad tiles that an operation reads (R219). -/
def MOp.reads (m : MOp) : List (Nat × Nat) :=
  match m.kind with
  | .mma => mmaTiles m.fmt m.k m.a m.b
  | .mlda => if m.obj.isSome then [] else [(m.a, squareBytes m.fmt)]
  | _ => []

/-- The scratchpad tile that an MSTA writes. -/
def MOp.writes (m : MOp) : List (Nat × Nat) :=
  match m.kind with
  | .msta => if m.obj.isSome then [] else [(m.a, squareBytes m.fmt)]
  | _ => []

/-- Bytes that are free values (log 6). -/
def freeBytes (n len : Nat) : List Byte := (List.range len).map (fun i => BitVec.ofNat 8 (Config.freeCell n i))

/-- The granules of a range of a scratchpad. -/
def granules (a n : Nat) : List Nat := (List.range ((a % 16 + n + 15) / 16)).map (· + a / 16)

/-- A copy-engine write of scratchpad bytes (R187, R198): each byte sets its arrival bit, and a granule whose bits are all set is full. -/
def Pond.arrive (p : Pond) (a : Nat) (bs : List Byte) : Pond :=
  let one (p : Pond) (x : Nat) : Pond :=
    let g := p.gran (granOf x)
    let arrived := g.arrived ||| BitVec.twoPow 16 (x % 16)
    p.setGran (granOf x) ⟨g.full || arrived == BitVec.allOnes 16, arrived⟩
  (List.range bs.length).foldl (fun p i => one p (a + i)) { p with scratch := putBytes p.scratch a bs }

/-- The 128 lines that an MSTA stores (R217): each converted line as its element bytes and scale bytes, with the flags raised. -/
def storedLines (w : Word) (d : SlotData) : List (List Byte × List Byte) × FlagSet :=
  let ls := (List.range 128).map (fun j => convertLine w (d.line (fwTA w) j))
  (ls.map (fun l => (lineBytes (fwA w) l.1, l.2.1.flatMap (fun p => [BitVec.ofNat 8 p.1, BitVec.ofNat 8 p.2]))),
    flagsOf (ls.map (fun l => l.2.2)))

/-- A stored tile of undefined values (R221). -/
def freeLines (w : Word) (n : Nat) : List (List Byte × List Byte) :=
  let len := 128 * halfBytes (fwA w) / 2
  let sc := if isKilulo (fwA w) then 8 else 0
  (List.range 128).map (fun j =>
    (((freeBytes n (128 * (len + sc))).drop (j * (len + sc))).take len, ((freeBytes n (128 * (len + sc))).drop (j * (len + sc) + len)).take sc))

/-- The bytes of a tile in a scratchpad: the element plane, then the scale plane (R211). -/
def tileOf (ls : List (List Byte × List Byte)) : List Byte := ls.flatMap Prod.fst ++ ls.flatMap Prod.snd

/-- A unit of memory that an engine reaches: virtual and physical address, bytes, and the leaf. -/
structure EUnit where
  va : Nat
  pa : Nat
  n : Nat
  leaf : Leaf
  deriving DecidableEq, Repr

/-- An entry of the table as its home or the lake holds it (R237): read whole, as a load that the privileged ranges do not refuse. -/
def readEntry (s : State) (e : Env) (lane idx : Nat) : Except MemFault Nat :=
  let va := entryAddr e.ctx idx
  match checkMem s (some e.lake) e.ctx false [⟨lane, va, 64, .load, false, false⟩] with
  | .error f => .error f
  | .ok [] => .ok 0
  | .ok ((pa, leaf) :: _) =>
    if s.badLines.contains (lineOf pa) then .error ⟨0x82, 0, va, 0, lane, false⟩
    else .ok (leNat (e.lakeRead s leaf.cached pa 64))

/-- A read of an entry waits for the thread's earlier accesses of device pages, where the table lies in one (R260). -/
def entryWaits (s : State) (e : Env) (t : Thread) (idx : Nat) : Bool :=
  deviceBefore s t.ref e.iss.wid && (match xlat s (some e.lake) e.ctx (entryAddr e.ctx idx) with
    | .ok leaf => leaf.dev
    | .error _ => false)

/-- The translations of an engine's accesses (R360, R362). -/
def engineXlat (s : State) (o : Origin) (acc : Acc) (us : List (Nat × Nat)) : Except MemFault (List EUnit) :=
  match ctx s o.ctx with
  | none => .ok []
  | some c =>
    match checkMem s (some (Config.lakeOf o.core)) c true (us.map (fun u => ⟨o.lane, u.1, u.2, acc, false, false⟩)) with
    | .error f => .error f
    | .ok ps => match (us.zip ps).find? (fun p => acc == .load && lostTo s p.2.1) with
      | some p => .error ⟨0xA0, moduleOf p.2.1 + 2 ^ 16 * acc.code, p.1.1, p.2.2.level, o.lane, false⟩
      | none => .ok ((us.zip ps).map (fun p => ⟨p.1.1, p.2.1, p.1.2, p.2.2⟩))

/-- What an engine has parked, if anything, is due to replay, and no halt of its block keeps it parked (R359, R373). -/
def replays (s : State) (o : Origin) (p : Option (Nat × Bool)) : Bool := p.all (fun p => p.2 && (block s o.blk).all (fun b => b.halt.isNone))

/-- The launch and block of an engine's operation, where its kernel runs still. -/
def stillOf (s : State) (o : Origin) : Option (Launch × Block) :=
  match block s o.blk with
  | none => none
  | some b => match launch s b.launch with
    | some l => if l.kernel.still then some (l, b) else none
    | none => none

/-- Bytes that an engine reads at a unit for a thread (R198, R293). -/
def engineBytes (s : State) (o : Origin) (t : TRef) (u : EUnit) : List Byte :=
  match stillOf s o with
  | some (l, b) => stillBytes s l b u.leaf.cached u.va u.pa u.n
  | none =>
    if u.leaf.cached then (List.range u.n).map (fun i => (seenByte s (Config.lakeOf o.core) t (u.pa + i)).2) else memBytes s false u.pa u.n

/-- An engine's write of one unit (R198, R217, R293): in still mode at its place `seq` in program order, else at the slice of its lake, or
at its home when its page is not cached, behind the writes on their way there (R263). The lake then holds the only copy of a peer line (R254 items 2
and 5). -/
def engineWrite (s : State) (o : Origin) (t : TRef) (wid seq : Nat) (u : EUnit) (bs : List Byte) : State :=
  match stillOf s o with
  | some (l, b) => stillWrite s l.id b.id ⟨o.lane, u.va, u.pa, ⟨seq, u.va, u.pa, u.leaf.cached, bs, none, none, none, t, wid, o, false, []⟩⟩
  | none =>
    let (id, s) := takeId s
    let x : Access := ⟨id, wid, t, o, .mem, u.va, u.pa, bs.length, .store bs, .wk, .sy, u.leaf.cached, u.leaf.dev, 2, none, [], []⟩
    if u.leaf.cached then { ownPeer (logWrite s o.ctx true u.pa) x.lake u.pa with slices := s.slices ++ [x] } else writeHome (settleLine s (lineOf u.pa)) x bs

/-- Why an engine's operation stops: a fault of its translation, or a round buffer without room (R378). -/
inductive EFault where
  | mem (f : MemFault)
  | buffer (used va : Nat)
  deriving DecidableEq, Repr

/-- The stores of some units, unless the round buffer of a still launch has no room for them (R378). -/
def engineStore (s : State) (o : Origin) (t : TRef) (wid seq : Nat) (us : List EUnit) (bs : List (List Byte)) : Except EFault State :=
  let full : Option Nat := match stillOf s o with
    | some (l, b) => if (bufferFull s l b (bufferUsed b) b.images (us.map (fun u =>
        ⟨o.lane, u.va, u.pa, ⟨seq, u.va, u.pa, false, [], none, none, none, t, wid, o, false, []⟩⟩))).isSome then some (bufferUsed b) else none
    | none => none
  match full with
  | some n => .error (.buffer n ((us.head?.map EUnit.va).getD 0))
  | none => .ok ((us.zip bs).foldl (fun s p => engineWrite s o t wid seq p.1 p.2) s)

/-- The thread that an operation's writes in memory belong to. -/
def MOp.owner (m : MOp) : TRef := (m.signers.head?.map Signer.t).getD ⟨m.orig.blk, 0⟩

/-- The units in which an MSTA `.obj` writes some lines, in their order (R217). -/
def lineUnits (w : Word) (ls : List (List Byte × List Byte)) : List (List Byte) :=
  ls.flatMap (fun l => chunks (elemBytes (fwA w)) l.1.length l.1 ++ chunks 1 l.2.length l.2)

/-- An operation keeps in mind the units of memory that it has written (R221). -/
def noteWrote (s : State) (m : MOp) (us : List EUnit) : State :=
  let units := us.map (fun u => (u.pa, u.n, u.leaf.cached))
  { s with mops := updWhere (fun x => x.id == m.id) (fun x => { x with wrote := x.wrote ++ units }) s.mops }

/-- The rows of an MSTA `.obj` written in turn (R217, R362): the state with the rows before a fault, and the fault. -/
def storeRows (m : MOp) (rec_ : Nat) (xs : List Nat) (t : TRef) : Nat → List (List Byte × List Byte) → State → State × Option EFault
  | _, [], s => (s, none)
  | r, l :: rest, s =>
    let (ue, us) := rowUnits rec_ m.fmt xs r
    match engineXlat s m.orig .store (ue ++ us) with
    | .error f => (s, some (.mem f))
    | .ok hs =>
      match engineStore s m.orig t m.wid m.id hs (lineUnits m.fmt [l]) with
      | .error f => (s, some f)
      | .ok s => storeRows m rec_ xs t (r + 1) rest (noteWrote s m hs)

/-- Bytes put in their place without a write: in a host line that the device holds, or at their home, where they do not change what is dirty and
enter no record (R5). -/
def putInPlace (s : State) (cached : Bool) (pa : Nat) (bs : List Byte) : State :=
  if lostTo s pa then s
  else match (hostLine s (lineOf pa)).filter (fun _ => isHost pa && cached) with
    | none => { s with mem := putBytes s.mem pa bs }
    | some h =>
      let s := { s with hostLines := updWhere (fun x => x.line == h.line) (fun x => { x with bytes := overlay x.bytes (pa % 128) bs }) s.hostLines }
      if h.dirty then s else { s with mem := putBytes s.mem pa bs }

/-- A unit that an operation has written in memory takes other bytes where it stands (R221): at its slice, in its round buffer, or at its home. -/
def remakeUnit (m : MOp) (s : State) (p : (Nat × Nat × Bool) × List Byte) : State :=
  let ((pa, _, cached), bs) := p
  let slice (y : Access) : Bool := y.stage == 2 && y.wid == m.wid && y.addr == pa
  let entry (x : BufEntry) : Bool := x.seq == m.id && x.pa == pa
  let take (x : BufEntry) : BufEntry := { x with bytes := bs }
  if s.slices.any slice then { s with slices := updWhere slice (fun y => { y with kind := .store bs }) s.slices }
  else match stillOf s m.orig with
    | none => putInPlace (mirror s pa bs) cached pa bs
    | some (l, b) =>
      if b.buffer.any entry then updBlock s b.id (fun b => { b with buffer := updWhere entry take b.buffer })
      else if l.touched.any (fun t => t.log.any entry) then
        putInPlace (updLaunch s l.id (fun l => { l with touched := l.touched.map (fun t => { t with log := updWhere entry take t.log }) })) cached pa bs
      else putInPlace (mirror s pa bs) cached pa bs

/-- A slot or a tile of a scratchpad that an operation wrote takes undefined values (R221). -/
def ruinHere (s : State) (m : MOp) : State :=
  let n := s.free
  let s := { s with free := s.free + 1 }
  match m.kind with
  | .msta => updPond s m.pond (fun d => { d with scratch := putBytes d.scratch m.a (tileOf (freeLines m.fmt n)) })
  | _ => updSlot s m.pond m.idx m.gen (fun r => { r with data := .undef n })

/-- The slot or tile that an operation wrote takes undefined values (R221), which change no other state (R5): a tile in memory takes them unit by unit
where its bytes stand. -/
def ruin (s : State) (m : MOp) : State :=
  if m.obj.isSome && m.kind == .msta then
    (m.wrote.zip (lineUnits m.fmt (freeLines m.fmt s.free))).foldl (remakeUnit m) { s with free := s.free + 1 }
  else ruinHere s m

/-- The operation's result is undefined (R221). -/
def markBad (s : State) (m : MOp) : State := { s with mops := updWhere (fun x => x.id == m.id) (fun x => { x with bad := true }) s.mops }

/-- The bytes of a tile of an operation are written (R221): its result is undefined now, or will be once it completes. -/
def spoilTile (s : State) (m : MOp) : State := if m.done then ruinHere (markBad s m) m else markBad s m

/-- An operand register of an operation is written (R221). -/
def spoil (s : State) (m : MOp) : State := if m.done then ruin (markBad s m) m else markBad s m

/-- Two ranges meet. -/
def meets (a n : Nat) (r : Nat × Nat) : Bool := decide (a < r.1 + r.2 ∧ r.1 < a + n)

/-- The tiles of an untriggered phase, by the operands of its first signer (R208). -/
def Conv.tiles (c : Conv) : List (Nat × Nat) :=
  match c.first with
  | some f => mmaTiles f.b f.k f.c0.toNat f.c1.toNat
  | none => []

/-- A word of a thread writes bytes of a scratchpad: the uncovered operations of its pond whose tiles it reaches are spoiled (R221), and of the
phases that have not triggered those which the thread itself has signed: one that has still to sign may write them first (R219). -/
def spoilTiles (s : State) (pd : Nat) (t : TRef) (a n : Nat) : State :=
  let s := updPond s pd (fun d => { d with conv := d.conv.map (fun c =>
    (c.1, if c.2.signers.any (fun x => x.t == t) && c.2.tiles.any (meets a n) then { c.2 with bad := true } else c.2)) })
  (s.mops.filter (fun m => m.pond == pd && !m.covered && (m.reads ++ m.writes).any (meets a n))).foldl spoilTile s

/-- An operation that no thread has still to cover is kept no longer once it is done (R220, R221). -/
def dropCovered (s : State) : State :=
  { s with mops := s.mops.filter (fun m => !m.done || s.threads.any (fun t => t.uses.any (fun u => u.op == m.id))) }

/-- A signer has written an operand register of an operation that it has still to cover (R221). -/
def regSpoiled (s : State) (op : Nat) : Bool := s.threads.any (fun t => t.uses.any (fun u => u.op == op && u.spoiled))

/-- What the signers of some operations have written is taken into account. -/
def clearSpoils (s : State) (ops : List Nat) : State :=
  updThreads s (fun t => t.uses.any (fun u => ops.contains u.op))
    (fun t => { t with uses := t.uses.map (fun u => if ops.contains u.op then { u with spoiled := false } else u) })

/-- The writes of operand registers by their signers take effect on operations that are done and that no signer has covered (R221). -/
def settleSpoils (s : State) : State :=
  let ms := s.mops.filter (fun m => m.done && !m.covered && regSpoiled s m.id)
  if ms.isEmpty then s else clearSpoils (ms.foldl spoil s) (ms.map MOp.id)

end Sys2Proof.Machine
end

