-- ==== Sys2Proof/Machine/Scratch.lean ====
section
/-! DEFINITION. The scratchpad and its granules (10 R186, R187), with the scratchpad atomics (10 R188 to R190). -/

namespace Sys2Proof.Machine

/-- The scratchpad address of R180, an exact integer. -/
def Env.spAddr (e : Env) (t : Thread) (a : Src) (disp : BitVec 16) : Int := ((e.src 0 t a).toNat : Int) + disp.toInt

/-- The address as a record holds it: two's complement (R354). -/
def addr64 (a : Int) : Nat := (BitVec.ofInt 64 a).toNat

/-- The alignment and bounds of a scratchpad word (R180, R186, R354): its trap, or the addresses of its lanes. -/
def spCheck (e : Env) (align : Bool) (n : Nat) (as : List (Thread × Int)) : Except Res (List (Thread × Nat)) :=
  match if align then as.find? (fun p => p.2 % (n : Int) != 0) else none with
  | some p => .error (.trap ⟨0x20, n + 32, some (addr64 p.2), p.1.lane⟩)
  | none => match as.find? (fun p => decide (p.2 < 0 ∨ (e.pond.size : Int) < p.2 + n)) with
    | some p => .error (.trap ⟨0x21, n + 2 ^ 32 * e.pond.size, some (addr64 p.2), p.1.lane⟩)
    | none => .ok (as.map (fun p => (p.1, p.2.toNat)))

/-- A read of a poisoned granule (R380), in the lowest lane. -/
def poisonedGran (e : Env) (as : List (Thread × Nat)) : Option Trap :=
  (as.find? (fun p => e.pond.badGrans.contains (granOf p.2))).map (fun p => ⟨0x82, 1, some p.2, p.1.lane⟩)

/-- The checks of a scratchpad word, and the addresses of its lanes; `reads` for a word that reads. -/
def spaccess (e : Env) (align reads : Bool) (n : Nat) (act : List Thread) (a : Src) (disp : BitVec 16) :
    Except Res (List (Thread × Nat)) :=
  match spCheck e align n (act.map (fun t => (t, e.spAddr t a disp))) with
  | .error r => .error r
  | .ok as => match if reads then poisonedGran e as else none with
    | some t => .error (.trap t)
    | none => .ok as

/-- An access of the scratchpad of the issuing pond. -/
def Env.spPiece (e : Env) (t : Thread) (addr n : Nat) (kind : AccKind) (dst : Option (Nat × Nat)) : Piece :=
  ⟨t, .scratch e.pond.id, 0, addr, n, kind, false, false, dst⟩

/-- The scratchpad accesses of a word issued, its writes spoiling uncovered matrix operations (R221); those of a still kernel are performed at once where they may be. -/
def pushScratch (s : State) (e : Env) (ps : List Piece) : State :=
  let s := ps.foldl (fun s p => match p.kind with | .load _ => s | _ => spoilTiles s e.pond.id p.t.ref p.addr p.n) s
  let s' := pushAccs s e .wk .sy ps
  if e.still then settleScratch s' ((s'.accs.drop s.accs.length).map Access.id) else s'

/-- LDS (R186, R187): a long-latency producer; each access waits for its granule. -/
def execLds (g : Guard) (size : Size) (take uns : Bool) (disp : BitVec 16) (d : Dst) (a : Src) (s : State) :
    Host.Outcome State Fault Refusal :=
  issue (.lds g size take uns disp d a) s (fun e s => match e.active g with
    | [] => .ok s
    | act =>
      let n := size.bytes
      match spaccess e true true n act a disp with
      | .error r => r
      | .ok as =>
        let (op, s) := startOp s e d size.regs (if n < 4 then some uns else none) (act.map (fun t => ⟨t.ref, noBytes n⟩))
        .ok (pushScratch s e (as.map (fun p => e.spPiece p.1 p.2 n (.load take) (some (op, 0))))))

/-- The bytes that a scratchpad store accesses, as offset and length: its units, or its enabled bytes (R183, R186). -/
def stsUnits (n : Nat) : Option Nat → List (Nat × Nat)
  | some k => enabledBytes n k
  | none => units n

/-- The accesses of a scratchpad store. -/
def stsPieces (e : Env) (b : Src) (n : Nat) (mask : Thread → Option Nat) (p : Thread × Nat) : List Piece :=
  (stsUnits n (mask p.1)).map (fun u => e.spPiece p.1 (p.2 + u.1) u.2 (.store (((e.datum p.1 b n).drop u.1).take u.2)) none)

/-- STS and STSM (R186, R187): they write bytes, leave the granules as they are, and complete when they issue. A lane whose mask is 0 stores
nothing and is not checked (R183, R203; log 56). -/
def stsBody (g : Guard) (size : Size) (disp : BitVec 16) (align : Bool) (mask : Env → Thread → Option Nat) (a b : Src) (e : Env)
    (s : State) : Res :=
  match e.active g with
  | [] => .ok s
  | act => match spaccess e align false size.bytes (act.filter (fun t => !(stsUnits size.bytes (mask e t)).isEmpty)) a disp with
    | .error r => r
    | .ok as => .ok (pushScratch s e (as.flatMap (stsPieces e b size.bytes (mask e))))

/-- STS (R186). -/
def execSts (g : Guard) (size : Size) (disp : BitVec 16) (a b : Src) (s : State) : Host.Outcome State Fault Refusal :=
  issue (.sts g size disp a b) s (stsBody g size disp true (fun _ _ => none) a b)
/-- STSM (R186). -/
def execStsm (g : Guard) (size : Size) (disp : BitVec 16) (a b c : Src) (s : State) : Host.Outcome State Fault Refusal :=
  issue (.stsm g size disp a b c) s (stsBody g size disp false (fun e t => some (e.src 0 t c).toNat) a b)

/-- ATOMS (R190): a long-latency producer of the old value; it waits for its granule and leaves its state unchanged. -/
def execAtoms (g : Guard) (op : AtomOp) (wide uns : Bool) (disp : BitVec 16) (d : Dst) (a b c : Src) (s : State) :
    Host.Outcome State Fault Refusal :=
  issue (.atoms g op wide uns disp d a b c) s (fun e s => match e.active g with
    | [] => .ok s
    | act =>
      let n := if wide then 8 else 4
      match spaccess e true true n act a disp with
      | .error r => r
      | .ok as =>
        let (id, s) := startOp s e d (n / 4) none (act.map (fun t => ⟨t.ref, noBytes n⟩))
        .ok (pushScratch s e (as.map (fun p => e.spPiece p.1 p.2 n
          (.atom op wide uns (e.atomSrc wide p.1 b) (e.atomSrc wide p.1 c)) (some (id, 0))))))

/-- FEQ (R187): whether the granule that holds the address is full. -/
def execFeq (g : Guard) (p : Fin 64) (disp : BitVec 16) (a : Src) (s : State) : Host.Outcome State Fault Refusal :=
  issue (.feq g p disp a) s (fun e s => match e.active g with
    | [] => .ok s
    | act => match spaccess e false false 1 act a disp with
      | .error r => r
      | .ok as =>
        let full (x : Nat) : Bool := match pond s e.pond.id with | some d => (d.gran (granOf x)).full | none => false
        .ok (writePred s p (as.map (fun x => (x.1.ref, full x.2)))))

/-- A granule set full or empty by FESET (R187); it loses its poison (R380). -/
def Pond.feset (p : Pond) (g : Nat) (full : Bool) : Pond :=
  { (if full then p.setGran g Gran.fresh else p.emptyGran g) with badGrans := p.badGrans.filter (· != g) }

/-- A granule of a pond set full or empty by FESET. -/
def setGranule (s : State) (p g : Nat) (full : Bool) : State := forgetTaken (updPond s p (fun d => d.feset g full)) p g

/-- A thread's own access to a granule that may be performed still stands before a FESET of it (R185). -/
def granuleBusy (s : State) (e : Env) (p : Thread × Nat) : Bool :=
  s.accs.any (fun y => y.t == p.1.ref && y.space == .scratch e.pond.id && granOf y.addr == granOf p.2 && mayPerform s y)

/-- FESET (R187). -/
def execFeset (g : Guard) (full : Bool) (disp : BitVec 16) (a : Src) (s : State) : Host.Outcome State Fault Refusal :=
  issue (.feset g full disp a) s (fun e s => match e.active g with
    | [] => .ok s
    | act => match spaccess e false false 1 act a disp with
      | .error r => r
      | .ok as =>
        if as.any (granuleBusy s e) then .wait
        else .ok (as.foldl (fun s p => setGranule s e.pond.id (granOf p.2) full) s))

end Sys2Proof.Machine
end

