-- ==== Sys2Proof/Machine/Wells.lean ====
section
/-! DEFINITION. Wells and the draw of pools (03 R44 to R48, R53, R54; 12 R228). -/

namespace Sys2Proof.Machine

/-- The largest native width of an operating point (R309). -/
def largestGwn (pstate : Nat) : Nat := if pstate = 0 then 16 else if pstate ≤ 2 then 32 else if pstate ≤ 4 then 64 else 128

/-- The native width that a core offers a context (R54). -/
def gwnOf (s : State) (c : Ctx) (core : Nat) : Nat := (mapGet c.gwn core).getD (largestGwn s.host.pstate)

/-- The native width of a core drawn anew: 128 at the top operating point, which lowers none (R11, R332), and below it 16, 32, 64 or 128, at most
the largest of the operating point (R54, R309, log 8). -/
def drawWidth (n core pstate : Nat) : Nat := if pstate = 7 then 128 else min (largestGwn pstate) (16 * 2 ^ (Config.freeCell n core % 4))

/-- The native widths that the cores offer a context change (R54): as it resumes, and with the operating point. -/
def newWidths (s : State) (c : Nat) : State :=
  updCtx { s with free := s.free + 1 } c (fun x => { x with
    gwn := (List.range Config.cores).map (fun k => (k, drawWidth s.free k s.host.pstate)) })

/-- The threads of a well in ascending block-linear thread index (R44). -/
def wellThreads (s : State) (pd : Nat) (kind : WellKind) (key : Nat) : List Thread :=
  sortBy Thread.tid (s.threads.filter (fun t => t.pond == pd && t.place == .well kind key))

/-- The threads of a well that no draw has been set for yet. -/
def Pond.unset (d : Pond) (s : State) (kind : WellKind) (key : Nat) : List Thread :=
  (wellThreads s d.id kind key).filter (fun t => !d.draining.any (fun w => w.kind == kind && w.key == key && w.tids.contains t.tid))

/-- The order of wells with one key (R45). -/
def wellOrder : WellKind → Nat
  | .launch => 0 | .spawn => 1 | .reform => 2

/-- The wells of a pond that hold a thread, in the order in which a quiescent pond draws them (R45). -/
def wellsOf (s : State) (pd : Nat) : List (WellKind × Nat) :=
  sortBy Prod.snd (sortBy (fun w => wellOrder w.1) (distinct ((s.threads.filter (fun t => t.pond == pd)).filterMap (fun t =>
    match t.place with | .well k a => some (k, a) | .lane .. => none))))

/-- The fragment waits at something that a quiescent pond may wait at (R45): a barrier, a collective, a round point, or an MWAIT that
covers an MMA whose phase has not triggered. -/
def Hold.quiet (d : Pond) : Hold → Bool
  | .bar .. | .coll .. | .round .. => true
  | .mwait ops .. => d.conv.any (fun c => !c.2.signers.isEmpty && ops.contains c.2.op)
  | _ => false

/-- The fragment stays at the round point of a shared atomic whose word holds it no more (R294): a trap has stopped it behind the word. -/
def behindRound (s : State) (f : Frag) : Bool :=
  f.hold == .free && (fragThreads s f.ref).any (atRound s) && (fragThreads s f.ref).all (fun t => !t.handler)

/-- Every live thread of the pond is in a well or waits (R45). -/
def quiescent (s : State) (pd : Nat) : Bool :=
  (pondThreads s pd).all (fun t => match t.place with
    | .well .. => true
    | .lane p i _ => match frag s ⟨p, i⟩, pond s pd with
      | some f, some d => f.hold.quiet d || behindRound s f
      | _, _ => false)

/-- The pool numbers in use on a core (R47). -/
def usedPools (s : State) (core : Nat) : List Nat :=
  (s.pools.filter (fun p => (pond s p.pond).any (fun d => d.core == some core))).map Pool.num

/-- The pool records in use in a pond (R247). -/
def usedRecords (s : State) (pd : Nat) : List Nat := (s.pools.filter (fun p => p.pond == pd)).map Pool.recNo

/-- The drawn threads in their lanes, in ascending block-linear thread index (R47). -/
def seat (s : State) (p : Nat) : List Thread → Nat → State
  | [], _ => s
  | t :: r, i => seat (updThread s t.ref (fun t => { t with place := .lane p 0 i })) p r (i + 1)

/-- The grant that SETW promised the threads of a new pool, written by one layered write (R228). -/
def payGrant (s : State) (hm g : Nat) (ts : List Thread) : State :=
  match firstSome Thread.setw ts with
  | none => s
  | some d =>
    let s := completeWrite s d.reg d.wid (poolRank hm d.reg d.tag)
      ((ts.filter (fun t => t.setw == some d)).map (fun t => (t.ref, BitVec.ofNat 32 g)))
    updThreads s (fun t => ts.any (fun u => u.ref == t.ref)) (fun t => { t with setw := none })

/-- How many draws one occasion gives a well of `n` threads at the grant `g` (R45, R47): all of them for a launch well. Another well is drawn
again as long as it holds more than `g` threads, and outside still mode as long as it holds `g`. -/
def drawCount (still : Bool) (kind : WellKind) (g n : Nat) : Nat :=
  match kind with
  | .launch => n
  | _ => max 1 ((if still then n - 1 else n) / g)

/-- The draws of a well on one occasion, each with the threads it takes in ascending block-linear thread index (R45, R47). -/
def Pond.drawsOf (d : Pond) (s : State) (still : Bool) (w : WellKind × Nat) : List Draw :=
  let ts := (d.unset s w.1 w.2).map Thread.tid
  (chunks d.grant (drawCount still w.1 d.grant ts.length) ts).map (fun l => ⟨w.1, w.2, l⟩)

/-- Every well of a pond set for drawing, in their order (R45). -/
def setAllDraws (s : State) (pd : Nat) (still : Bool) : State :=
  updPond s pd (fun d => { d with draining := d.draining ++ (wellsOf s pd).flatMap (d.drawsOf s still) })

/-- One draw (R47): its threads form a pool of one fragment at the well's key. -/
def drawPool (s : State) (d : Pond) (num : Nat) (c : Ctx) (hm : Nat) (w : Draw) : State :=
  let ts := (wellThreads s d.id w.kind w.key).filter (fun t => w.tids.contains t.tid)
  let (id, s) := takeId s
  let recNo := (lowestFree (usedRecords s d.id) 64 0).getD 0
  let p : Pool := ⟨id, num, recNo, d.id, d.grant, [], [], [], none, 0⟩
  let f : Frag := ⟨id, 0, 0, 1, w.key, [], [], 0, .free, false, arrive c false false w.key, 0, 0, false, none,
    pendingNames (ts.map (fun t => { t with marks := t.marks.filter (fun m => t.setw.all (fun x => x.wid != m.wid)) }))⟩
  let s := seat { s with pools := s.pools ++ [p], frags := s.frags ++ [f] } id ts 0
  let s := updPond s d.id (fun d => { d with expired := d.expired.filter (· != (w.kind, w.key)) })
  payGrant s hm d.grant ts

/-- What a draw of a pond needs: its core, launch and context, and a free pool number (R47, R371). -/
structure DrawAt where
  d : Pond
  core : Nat
  num : Nat
  l : Launch
  c : Ctx
  deriving DecidableEq, Repr

/-- A pond that may draw a pool now: the part runs, its context issues, no halt holds its block, and a pool number is free (R47, R302, R309,
R339, R371). -/
def drawAt (s : State) (pd : Nat) : Option DrawAt := do
  let d ← pond s pd
  let core ← d.core
  let b ← block s d.blk
  let l ← launch s b.launch
  let c ← ctx s l.ctx
  let num ← lowestFree (usedPools s core) Config.poolsPerCore 0
  if atWork s && c.running && !c.stalled && !s.badCores.contains core && b.halt.isNone && !b.halted then some ⟨d, core, num, l, c⟩ else none

/-- A draw made. -/
def DrawAt.draw (a : DrawAt) (s : State) (w : Draw) : State :=
  drawPool s a.d a.num a.c a.l.kernel.homeMap w

/-- The draws that stand before a pond (R45, R46): those set already, and then those of every well while it is quiescent, or outside still
mode those of a well that is full or aged. -/
def drawsDue (s : State) (a : DrawAt) : List Draw :=
  let still := a.l.kernel.still
  let full (w : WellKind × Nat) : Bool := decide (a.d.grant ≤ (a.d.unset s w.1 w.2).length) || a.d.expired.contains w
  a.d.draining ++ ((wellsOf s a.d.id).filter (fun w => !(a.d.unset s w.1 w.2).isEmpty && (quiescent s a.d.id || (!still && full w)))).flatMap
    (a.d.drawsOf s still)

/-- The first draw of a list made, the others left set. -/
def DrawAt.first (a : DrawAt) (s : State) (ds : List Draw) : State :=
  match ds with
  | [] => s
  | w :: r => a.draw (updPond s a.d.id (fun d => { d with draining := r })) w

/-- The draws set for a pond made at once, as far as pool numbers are free (R45). -/
def drainNow (pd : Nat) : Nat → State → State
  | 0, s => s
  | fuel + 1, s =>
    match drawAt s pd with
    | none => s
    | some a => if a.d.draining.isEmpty then s else drainNow pd fuel (a.first s a.d.draining)

/-- A pond has a draw that it makes before anything of its block goes on (R45 to R47). -/
def drawPending (s : State) (pd : Nat) : Bool :=
  match drawAt s pd with
  | none => false
  | some a => !(drawsDue s a).isEmpty

/-- POOL_DRAW (R45 to R47): the draw that comes first in the pond. Those behind it are set with it, so that what they take does not depend on
what runs before them. -/
def execPoolDraw (pd : Nat) (kind : WellKind) (key : Nat) (s : State) : Host.Outcome State Fault Refusal :=
  match drawAt s pd with
  | none => .fault .notEnabled
  | some a =>
    let ds := drawsDue s a
    if ds.head?.any (fun w => w.kind == kind && w.key == key) then .next (a.first s ds) else .fault .notEnabled

/-- WELL_AGE_EXPIRY (R45): the well age has passed since the oldest thread of the well was filed. -/
def execWellAgeExpiry (pd : Nat) (kind : WellKind) (key : Nat) (s : State) : Host.Outcome State Fault Refusal :=
  match pond s pd with
  | none => .fault .notEnabled
  | some d =>
    let still := ((block s d.blk).bind (fun b => launch s b.launch)).any (fun l => l.kernel.still)
    if d.core.isNone || still || d.expired.contains (kind, key) || (d.unset s kind key).isEmpty then .fault .notEnabled
    else .next (updPond s pd (fun d => { d with expired := d.expired ++ [(kind, key)] }))

/-- The draws and expiries that may take place. -/
def wellEvents (s : State) : List Instr :=
  s.ponds.flatMap (fun d => (wellsOf s d.id).flatMap (fun w => [.poolDraw d.id w.1 w.2, .wellAgeExpiry d.id w.1 w.2]))

end Sys2Proof.Machine
end

