-- ==== Sys2Proof/Machine/Sync.lean ====
section
/-! DEFINITION. Fences and barriers (10 R191 to R194; 03 R58). -/

namespace Sys2Proof.Machine

/-- FENCE (R192): it holds its fragment, before it issues, until it is performed; at sy scope it also performs host lines at host
memory (R254 item 6). -/
def execFence (g : Guard) (kind : FenceKind) (scope : Scope) (cpy : Bool) (s : State) : Host.Outcome State Fault Refusal :=
  issue (.fence g kind scope cpy) s (fun e s =>
    let act := e.active g
    if act.all (fun t => fenced s kind scope t.ref && (!cpy || copiesDone s scope t.ref)) then
      .ok (if scope == .sy then e.syncHost s act else s)
    else .wait)

/-- The barrier that a word names (R191, R193). -/
def Env.barKey (e : Env) : BarScope → BarKey
  | .blk => .blk e.block.id
  | .pd => .pond e.pond.id
  | .pl => .pool e.pool.id
  | .nb k => .named e.block.id k

/-- The code of a barrier scope, and its number (R191). -/
def barCode : BarScope → Nat × Nat
  | .blk => (0, 0)
  | .pd => (1, 0)
  | .pl => (2, 0)
  | .nb k => (3, k)

/-- The scope of the fences that a barrier implies (R194). -/
def barFence : BarScope → Scope
  | .pl => .pl
  | .pd => .pd
  | _ => .lk

/-- The threads that a barrier counts (R58). -/
def counted (s : State) : BarKey → List Thread
  | .pool p => poolThreads s p
  | .pond p => pondThreads s p
  | .blk b | .named b _ => blockThreads s b

/-- The phase and arrivals of a barrier (R193). -/
def barrier (s : State) (k : BarKey) : Barrier := (s.bars.find? (fun b => b.key == k)).getD ⟨k, 0, []⟩
/-- A barrier changed. -/
def putBarrier (s : State) (b : Barrier) : State := { s with bars := b :: s.bars.filter (fun x => x.key != b.key) }

/-- The phase that a thread recorded at a barrier (R193). -/
def Thread.barRecord (t : Thread) (k : BarKey) : Option Nat := (t.bars.find? (fun b => b.1 == k)).map Prod.snd
/-- The thread without a record of a barrier. -/
def Thread.dropBar (t : Thread) (k : BarKey) : Thread := { t with bars := t.bars.filter (fun b => b.1 != k) }

/-- The recorded phase of every one of some threads has completed (R193). -/
def phasesDone (s : State) (k : BarKey) (ts : List TRef) : Bool :=
  ts.all (fun r => match thread s r with
    | some t => (match t.barRecord k with | some n => decide (n < (barrier s k).phase) | none => true)
    | none => true)

/-- The wait of some threads at a barrier completes: their records clear (R193). -/
def clearBars (s : State) (k : BarKey) (ts : List TRef) : State := updThreads s (fun t => ts.contains t.ref) (fun t => t.dropBar k)

/-- The fragments that wait at a barrier whose phases have completed go on (R193). -/
def releaseBar (k : BarKey) (s : State) (f : Frag) : State :=
  match f.hold with
  | .bar k' ts _ w =>
    if k' == k && phasesDone s k ts then completeWord (clearBars (release s f.ref) k ts) w.wid else s
  | _ => s

/-- The phase of a barrier completes once every thread that it counts has arrived (R193). -/
def settleBar (s : State) (k : BarKey) : State :=
  let b := barrier s k
  let ts := counted s k
  if b.arrived.isEmpty || ts.isEmpty || !ts.all (fun t => b.arrived.contains t.ref) then s
  else
    let s := putBarrier s { b with phase := b.phase + 1, arrived := [] }
    s.frags.foldl (releaseBar k) s

/-- Threads arrive at a barrier and record its phase (R193). -/
def arriveBar (s : State) (k : BarKey) (ts : List TRef) : State :=
  let b := barrier s k
  let s := putBarrier s { b with arrived := b.arrived ++ ts }
  updThreads s (fun t => ts.contains t.ref) (fun t => { t with bars := t.bars ++ [(k, b.phase)] })

/-- Threads that have arrived in the current phase of a barrier have not arrived, and hold no record of it (R377). -/
def withdraw (s : State) (k : BarKey) (ts : List TRef) : State :=
  let b := barrier s k
  clearBars (putBarrier s { b with arrived := b.arrived.filter (fun t => !ts.contains t) }) k ts

/-- The fragment waits at a barrier until the phases that its threads recorded have completed (R193); `arrive` says that they arrived with it. -/
def waitBar (s : State) (e : Env) (k : BarKey) (arrive : Bool) (ts : List TRef) : State :=
  if phasesDone s k ts then clearBars s k ts
  else begin_ (updFrag s e.frag.ref (fun f => { f with hold := .bar k ts arrive e.waiter })) e

/-- The misuse trap of a barrier word (R193, R341), in the lowest lane: an arrival with a record held, a wait without one. -/
def barMisuse (e : Env) (sc : BarScope) (wait : Bool) (act : List Thread) : Option Trap :=
  let k := e.barKey sc
  (act.find? (fun t => (t.barRecord k).isNone == wait)).map
    (fun t => ⟨0x14, wait.toNat + 16 * (barCode sc).2 + 256 * (barCode sc).1, none, t.lane⟩)

/-- A barrier word (R193, R194): `arrive` for BARA, `wait` for BARW, both for BAR. -/
def barBody (g : Guard) (sc : BarScope) (arrive wait : Bool) (e : Env) (s : State) : Res :=
  match e.active g with
  | [] => .ok s
  | act =>
    let k := e.barKey sc
    let ts := act.map Thread.ref
    match barMisuse e sc (!arrive) act with
    | some t => .trap t
    | none =>
      if !act.all (fun t => fenced s (if arrive then .rel else .acq) (barFence sc) t.ref) then .wait
      else
        let s := if arrive then arriveBar s k ts else s
        let s := if wait then waitBar s e k arrive ts else s
        .ok (settleBar s k)

/-- BAR (R193). -/
def execBar (g : Guard) (sc : BarScope) (s : State) : Host.Outcome State Fault Refusal := issue (.bar g sc) s (barBody g sc true true)
/-- BARA (R193). -/
def execBara (g : Guard) (sc : BarScope) (s : State) : Host.Outcome State Fault Refusal := issue (.bara g sc) s (barBody g sc true false)
/-- BARW (R193). -/
def execBarw (g : Guard) (sc : BarScope) (s : State) : Host.Outcome State Fault Refusal := issue (.barw g sc) s (barBody g sc false true)

/-- The barriers of a pool, of its pond and of its block, which the leaving of a thread may complete (R129, R193). -/
def settleBars (s : State) (p pd b : Nat) : State :=
  let keys := (s.bars.map Barrier.key).filter (fun k => k == .pool p || k == .pond pd || k == .blk b ||
    (match k with | .named b' _ => b' == b | _ => false))
  keys.foldl settleBar s

end Sys2Proof.Machine
end

