-- ==== Sys2Proof/Machine/Collect.lean ====
section
/-! DEFINITION. Pond collectives and merges (04 R72 to R76, 10 R199 to R202, 22 R350), SETW (12 R228), LDROP and LRANK (04 R74). -/

namespace Sys2Proof.Machine

/-- The members of a collective (R73, R200): the live threads of the pond, or of the pool. -/
def members (s : State) (pd : Nat) : Option Nat → List Thread
  | none => pondThreads s pd
  | some p => poolThreads s p

/-- The least `n` with `2^n` at least a length, within `fuel`. -/
def log2Up (len : Nat) : Nat → Nat → Nat
  | 0, n => n
  | fuel + 1, n => if len ≤ 2 ^ n then n else log2Up len fuel (n + 1)

/-- The pond fold of R93 over values in ascending block-linear thread index, padded with identities. -/
def pondFold (r : RMod) (vals : List Nat) : Nat × FlagSet :=
  let n := log2Up vals.length 14 0
  reduceWith r (redFold r n) (vals.map some ++ List.replicate (2 ^ n - vals.length) none)

/-- The value an arrival brings. -/
def Arrival.value (a : Arrival) : Nat := (a.val.headD 0).toNat + 2 ^ 32 * ((a.val.drop 1).headD 0).toNat

/-- The reduction that a merge policy names (R201): its steps saturate by the default of the type. -/
def redOfPolicy : Policy → Option RMod
  | .red op fmt uns rm ftz => some ⟨op, (match fmt with | some f => .flt f | none => .i32), uns, false, rm, ftz, false⟩
  | _ => none

/-- Flags of a collective ORed into every member (R199, R352). -/
def memberFlags (s : State) (as : List Arrival) (fl : FlagSet) : State := setFlags s (as.map (fun a => (a.t, fl)))

/-- A pond copy set in a destination register, where there is one. -/
def setPondDst (s : State) (pd : Nat) (d : Dst) (i : Nat) (v : Nat) : State :=
  match d with
  | .none => s
  | .reg n _ => setPondCopy s pd (n + i) (BitVec.ofNat 32 v)

/-- NRED completes (R199): the pond fold into the pond copy. -/
def completeNred (s : State) (pd : Nat) (r : RMod) (d : Dst) (as : List Arrival) : State :=
  let q := pondFold r (as.map Arrival.value)
  let s := setPondDst s pd d 0 q.1
  memberFlags (if redWide r then setPondDst s pd d 1 (q.1 / 2 ^ 32) else s) as q.2

/-- NBCAST completes (R199): the value of the member whose index is the broadcast index, or zero. -/
def completeNbcast (s : State) (pd : Nat) (form : BForm) (as : List Arrival) : State :=
  let u := ((as.head?.map Arrival.key).getD 0).toNat
  let src := as.find? (fun a => a.t.tid == u)
  let v := (src.map Arrival.value).getD 0
  match form with
  | .one d _ => setPondDst s pd d 0 v
  | .pair d _ => setPondDst (setPondDst s pd d 0 v) pd d 1 (v / 2 ^ 32)
  | .slot k => setPondSlot s pd k ((src.bind Arrival.q).getD QSlot.unset)

/-- A merge stores a register value at its rank and drops narrower copies (R73). -/
def storeMerge (s : State) (pd : Nat) (p : Option Nat) (n : Nat) (v : Word) (as : List Arrival) : State :=
  match p with
  | none => setPondCopy s pd n v
  | some p => lwrite s p n true (as.map (fun a => (a.t, v)))

/-- A merge stores a slot at its rank and drops narrower copies (R73). -/
def storeMergeSlot (s : State) (pd : Nat) (p : Option Nat) (k : Nat) (v : QSlot) (as : List Arrival) : State :=
  match p with
  | none => setPondSlot s pd k v
  | some p => lwriteSlot s p k .pl (as.map (fun a => (a.t, v)))

/-- A member with the value of its register or slot as it stands (R73). -/
def Arrival.reread (s : State) (pd : Nat) (name : LName) (a : Arrival) : Arrival :=
  match thread s a.t, pond s pd with
  | some t, some d =>
    let p := t.pool.bind (pool s)
    match name with
    | .src (.reg n _ _) => { a with val := [resolve p d t n .res] }
    | .src _ => a
    | .slot k => { a with q := some (resolveSlot p d t k .res) }
  | _, _ => a

/-- MERGE completes (R73, R201): its members' values are those of that moment. -/
def completeMerge (s : State) (pd : Nat) (p : Option Nat) (policy : Policy) (pr : Nat) (name : LName) (members : List Arrival) : State :=
  let as := members.map (Arrival.reread s pd name)
  let first := as.head?
  let agree := as.all (fun a => some a.val == first.map Arrival.val && some a.q == first.map Arrival.q)
  let red := (redOfPolicy policy).map (fun r => pondFold r (as.map Arrival.value))
  let store := agree || policy != .chk
  let v : Word := match red with
    | some q => BitVec.ofNat 32 q.1
    | none => BitVec.ofNat 32 ((first.map Arrival.value).getD 0)
  let s := if !store then s else match name with
    | .src (.reg n _ _) => storeMerge s pd p n v as
    | .src _ => s
    | .slot k => storeMergeSlot s pd p k ((first.bind Arrival.q).getD QSlot.unset) as
  let s := match red with | some q => memberFlags s as q.2 | none => s
  writePred s pr (as.map (fun a => (a.t, agree)))

/-- The grant that SETW gives a pond (R53, R228). -/
def grantOf (s : State) (pd : Nat) (request : Nat) : Nat :=
  match (do
    let d ← pond s pd
    let b ← block s d.blk
    let l ← launch s b.launch
    let c ← ctx s l.ctx
    some (d, l, c) : Option (Pond × Launch × Ctx)) with
  | none => request
  | some (d, l, c) =>
    if l.kernel.width != 0 then l.kernel.width
    else if request != 0 then request
    else if l.kernel.still then d.grant
    else gwnOf s c (d.core.getD 0)

/-- The pools of a pond end with all their fragments and pool barriers (R48). -/
def endPools (s : State) (pd : Nat) : State :=
  let gone := (s.pools.filter (fun p => p.pond == pd)).map Pool.id
  { s with
    pools := s.pools.filter (fun p => p.pond != pd)
    frags := s.frags.filter (fun f => !gone.contains f.pool)
    bars := s.bars.filter (fun b => match b.key with | .pool p => !gone.contains p | _ => true) }

/-- SETW completes (R228): every member's d is marked empty, and the pond is drawn again at the grant, each thread at its next word. Handler mode ends
with the filing (log 83). -/
def completeSetw (s : State) (pd : Nat) (d : Dst) (as : List Arrival) : State :=
  let g := grantOf s pd ((as.head?.map Arrival.key).getD 0).toNat
  let (wid, s) := takeId s
  let dst : Option SetwDst := match d with
    | .none => none
    | .reg n tag => some ⟨n, tag, wid⟩
  let file (t : Thread) : Thread := match as.find? (fun a => a.t == t.ref), t.pool.bind (pool s) with
    | some a, some p => { fileThread p .launch (a.pc + 16) t with setw := dst }
    | _, _ => t
  let s := endPools { s with threads := s.threads.map file } pd
  let s := match dst with
    | none => s
    | some x => markEmpty s (as.map Arrival.t) x.reg 1 wid
  let s := updPond s pd (fun d => { d with grant := g, expired := [], draining := [] })
  drainNow pd Config.poolsPerCore (setAllDraws s pd true)

/-- What a collective does when its members agree. -/
def completeColl (s : State) (pd : Nat) (p : Option Nat) (as : List Arrival) : State :=
  match as with
  | [] => s
  | a :: _ => match a.instr with
    | .nred _ r d _ => completeNred s pd r d as
    | .nbcast _ form _ => completeNbcast s pd form as
    | .merge _ _ policy pr name => completeMerge s pd p policy pr name as
    | .setw _ d _ => completeSetw s pd d as
    | _ => s

/-- A legal request of SETW (R228). -/
def legalWidth (n : Nat) : Bool := n = 0 || n = 16 || n = 32 || n = 64 || n = 128

/-- A member of a SETW asks for a width that is none (R228). -/
def Arrival.badWidth (a : Arrival) : Bool := (match a.instr with | .setw .. => true | _ => false) && !legalWidth a.key.toNat

/-- A member's word or operand differs from another's (R200). -/
def Arrival.unlike (f a : Arrival) : Bool := a.instr != f.instr || a.key != f.key

/-- Why members do not agree (R200, R228, R341): cause and DETAIL. The arrivals stand in ascending block-linear thread index. -/
def disagreement (as : List Arrival) : Option (Nat × Nat) :=
  match as.find? Arrival.badWidth with
  | some a => some (0x15, a.key.toNat)
  | none => match as with
    | [] => none
    | f :: r => (r.find? f.unlike).map (fun a => (0x12, a.t.tid + 2 ^ 16 * a.opcode))

/-- The fragment stands before its collective word again, with a trap that waits for it (R343, R350). -/
def undoColl (s : State) (r : FRef) (d : Waiter → Defer) : State :=
  match (frag s r).map Frag.hold with
  | some (.coll w) => updFrag (takeBack s r w) r (fun x => { x with deferred := some (d w) })
  | _ => s

/-- The trap that waits for a fragment is delivered now. -/
def deliverWaiting (s : State) (r : FRef) : State :=
  match envOfFrag s r with
  | none => s
  | some e => match e.waiting with
    | some d => takeDeferred s e d
    | none => s

/-- The order of records of one moment (R340): core, pool, fragment. -/
def recordKey (s : State) (r : FRef) : Nat :=
  match envOfFrag s r with
  | some e => e.core * 2 ^ 16 + e.pool.num * 2 ^ 8 + e.frag.id
  | none => 0

/-- The lane that the record of a member fragment names (R337): the lowest in which the check failed, or where it failed in none of its lanes the
lowest that arrived. -/
def failLane (cause : Nat) (as : List Arrival) (r : FRef) : Nat :=
  let mine := as.filter (fun a => a.frag == r)
  let failed := mine.filter (fun a => if cause = 0x15 then a.badWidth else as.head?.any (fun f => f.unlike a))
  (minOf ((if failed.isEmpty then mine else failed).map Arrival.lane)).getD 0

/-- The members' fragments of a failed collective trap, each at its own word and in the order of R340 (R350). -/
def failColl (s : State) (cause detail : Nat) (as : List Arrival) : State :=
  let fs := sortBy (recordKey s) (distinct (as.map Arrival.frag))
  fs.foldl (fun s r => deliverWaiting (undoColl s r (fun w => ⟨false, cause, detail, none, w.pc, 0, failLane cause as r, w.transl, w.core⟩)) r) s

/-- The member fragments of a complete collective go on (R72). -/
def releaseColl (s : State) (as : List Arrival) : State :=
  let s := (distinct (as.map Arrival.frag)).foldl release s
  (as.map Arrival.wid).foldl completeWord s

/-- A collective completes, or fails, once every member has arrived; exited members are dropped (R72, R73, R129, R350). -/
def settleColl (s : State) (pd : Nat) (p : Option Nat) : State :=
  match s.colls.find? (fun c => c.pond == pd && c.pool == p) with
  | none => s
  | some c =>
    let ms := members s pd p
    if !ms.all (fun t => c.arrivals.any (fun a => a.t == t.ref)) then s
    else
      let s := { s with colls := s.colls.filter (fun c => !(c.pond == pd && c.pool == p)) }
      let as := sortBy (fun a => a.t.tid) (c.arrivals.filter (fun a => ms.any (fun t => t.ref == a.t)))
      match disagreement as with
      | some (cause, detail) => failColl s cause detail as
      | none => completeColl (releaseColl s as) pd p as

/-- Members arrive at a collective and their fragment holds (R73, R199, R200). -/
def arriveColl (s : State) (e : Env) (p : Option Nat) (as : List Arrival) : State :=
  let pd := e.pond.id
  let old := ((s.colls.find? (fun c => c.pond == pd && c.pool == p)).map Coll.arrivals).getD []
  let s := { s with colls := ⟨pd, p, old ++ as⟩ :: s.colls.filter (fun c => !(c.pond == pd && c.pool == p)) }
  let s := updFrag s e.frag.ref (fun f => { f with hold := .coll e.waiter })
  settleColl (begin_ s e) pd p

/-- The arrival of a thread with its word, guard aside (R200). -/
def Env.arrival (e : Env) (i : Instr) (t : Thread) (key : Word) (val : List Word) (q : Option QSlot) : Arrival :=
  ⟨t.ref, e.frag.ref, i, opcodeOf i, key, val, q, t.lane, e.pc, e.iss.wid⟩

/-- A value of one or two registers. -/
def Env.words (e : Env) (wide : Bool) (t : Thread) (a : Src) : List Word :=
  if wide then [loWord (e.src64 0 false t a), hiWord (e.src64 0 false t a)] else [e.src 0 t a]

/-- The body of a collective word: its active threads arrive (R200). -/
def collBody (g : Guard) (p : Env → Option Nat) (mk : Env → Thread → Arrival) : Env → State → Res :=
  plain g (fun e act s => arriveColl s e (p e) (act.map (mk e)))

/-- NRED (R199). -/
def execNred (g : Guard) (r : RMod) (d : Dst) (a : Src) (s : State) : Host.Outcome State Fault Refusal :=
  issue (.nred g r d a) s (collBody g (fun _ => none) (fun e t => e.arrival (.nred .always r d a) t 0 (e.words (redWide r) t a) none))

/-- NBCAST (R199). -/
def execNbcast (g : Guard) (form : BForm) (b : Src) (s : State) : Host.Outcome State Fault Refusal :=
  issue (.nbcast g form b) s (collBody g (fun _ => none) (fun e t =>
    let (val, q) : List Word × Option QSlot := match form with
      | .one _ a => (e.words false t a, none)
      | .pair _ a => (e.words true t a, none)
      | .slot k => ([], some (e.slot k t))
    e.arrival (.nbcast .always form b) t (e.src 0 t b) val q))

/-- MERGE (R73, R201). -/
def execMerge (g : Guard) (pd : Bool) (policy : Policy) (p : Fin 64) (a : LName) (s : State) : Host.Outcome State Fault Refusal :=
  issue (.merge g pd policy p a) s (collBody g (fun e => if pd then none else some e.pool.id) (fun e t =>
    let (val, q) : List Word × Option QSlot := match a with
      | .src x => (e.words false t x, none)
      | .slot k => ([], some (e.slot k t))
    e.arrival (.merge .always pd policy p a) t 0 val q))

/-- SETW (R228). -/
def execSetw (g : Guard) (d : Dst) (a : Src) (s : State) : Host.Outcome State Fault Refusal :=
  issue (.setw g d a) s (collBody g (fun _ => none) (fun e t => e.arrival (.setw .always d a) t (e.src 0 t a) [] none))

/-- A caller of LDROP `.pd` whose pool keeps its pool copy takes a spring copy of the pond copy, its poison with it (R74, R380). -/
def Thread.takePond (t : Thread) (d : Pond) (n : Nat) : Thread :=
  let u := t.setSpring n (d.copy n)
  if d.poison.contains n then { u with poison := u.poison ++ [n] } else u

/-- The same on a modulus slot (R74, R380). -/
def Thread.takePondSlot (t : Thread) (d : Pond) (k : Nat) : Thread :=
  let u := t.setSlot k (d.slotCopy k)
  if d.poison.contains (1000 + k) then { u with poison := u.poison ++ [1000 + k] } else u

/-- LDROP on a register (R74). -/
def dropReg (s : State) (e : Env) (pd : Bool) (n : Nat) (act : List Thread) : State :=
  let mine (t : Thread) : Bool := act.any (fun u => u.ref == t.ref)
  let s := updThreads s mine (fun t => t.dropSpring n)
  if !pd || (mapGet e.pool.copies n).isNone then s
  else if (poolThreads s e.pool.id).all mine then updPool s e.pool.id (fun p => p.dropCopy n)
  else updThreads s mine (fun t => t.takePond e.pond n)

/-- LDROP on a modulus slot (R74, R202). -/
def dropSlot (s : State) (e : Env) (pd : Bool) (k : Nat) (act : List Thread) : State :=
  let mine (t : Thread) : Bool := act.any (fun u => u.ref == t.ref)
  let s := updThreads s mine (fun t => t.dropSlot k)
  if !pd || (mapGet e.pool.slots k).isNone then s
  else if (poolThreads s e.pool.id).all mine then updPool s e.pool.id (fun p => p.dropSlot k)
  else updThreads s mine (fun t => t.takePondSlot e.pond k)

/-- LDROP (R74, R202). -/
def execLdrop (g : Guard) (pd : Bool) (a : LName) (s : State) : Host.Outcome State Fault Refusal :=
  issue (.ldrop g pd a) s (plain g (fun e act s => match a with
    | .src (.reg n _ _) => dropReg s e pd n act
    | .src _ => s
    | .slot k => dropSlot s e pd k act))

/-- The rank that LRANK writes (R74); an operand that is no register has no copy below the pond. -/
def Env.rankOf (e : Env) (a : LName) (t : Thread) : Nat :=
  match a with
  | .src (.reg n _ _) => copyRank (mapGet t.springs n) (mapGet e.pool.copies n)
  | .src _ => 2
  | .slot k => copyRank (mapGet t.slots k) (mapGet e.pool.slots k)

/-- LRANK (R74, R202). -/
def execLrank (g : Guard) (d : Dst) (a : LName) (s : State) : Host.Outcome State Fault Refusal :=
  issue (.lrank g d a) s (plain g (fun e act s => writeDst s e d [forEach act (fun t => BitVec.ofNat 32 (e.rankOf a t))]))

end Sys2Proof.Machine
end

