-- ==== Sys2Proof/Machine/Matrix.lean ====
section
/-! DEFINITION. The matrix words and the matrix queue (11 R205 to R222; 22 R351; 23 R362): signatures and triggers of MMA, slots, the engine's
operations, and MWAIT. -/

namespace Sys2Proof.Machine

/-- A convergence register after reset (R205). -/
def Conv.reset : Conv := ⟨0, 0, 0, none, [], none, false⟩
/-- The convergence register N of a pond. -/
def Pond.convN (d : Pond) (n : Nat) : Conv := (mapGet d.conv n).getD Conv.reset
/-- A convergence register changed. -/
def putConv (s : State) (pd n : Nat) (c : Conv) : State := updPond s pd (fun d => { d with conv := mapSet d.conv n c })
/-- A phase cleared (R207, R208): COUNT and PHASE stay. -/
def Conv.clear (c : Conv) : Conv := { c with
  first := none
  signers := []
  differ := none
  bad := false }
/-- A phase triggered (R207). -/
def Conv.trigger (c : Conv) : Conv := { c.clear with phase := (c.phase + 1) % 2 ^ 32 }

/-- MDECL (R206): it acts once, whatever its active set, and not at all where that is empty (R223). -/
def execMdecl (g : Guard) (n : Fin 16) (count : BitVec 13) (s : State) : Host.Outcome State Fault Refusal :=
  issue (.mdecl g n count) s (fun e s =>
    let c := e.pond.convN n
    if (e.active g).isEmpty then .ok s
    else if c.signers.isEmpty then .ok (putConv s e.pond.id n { c with count := count.toNat })
    else if c.count = count.toNat then .ok s
    else .trap ⟨0x16, n + 16 * count.toNat, none, lowLane (e.active g)⟩)

/-- MOPRDY (R219): it holds its fragment, before it issues, until its threads' scratchpad writes are performed. -/
def execMoprdy (g : Guard) (s : State) : Host.Outcome State Fault Refusal :=
  issue (.moprdy g) s (fun e s =>
    if (e.active g).all (fun t => s.accs.all (fun y => y.t != t.ref || y.space == .mem || y.isLoad)) then .ok s else .wait)

/-- The threads' trap of a phase or an operation that is decided after their word (R351): each live signer's fragment stops at its next
word boundary. A signer that has changed its pool counts no words since. -/
def deferTo (s : State) (sg : List Signer) (cause detail : Nat) (addr : Option Nat) : State :=
  updThreads s (fun t => sg.any (fun x => x.t == t.ref)) (fun t => match sg.find? (fun x => x.t == t.ref) with
    | some x => { t with deferred :=
        t.deferred ++ [⟨true, cause, detail, addr, x.pc, if t.inPool x.frag.pool then x.count else 0, x.lane, x.transl, x.core⟩] }
    | none => t)

/-- The marks and uses that an abandoned operation left in its signers go (R351). -/
def forgetOp (s : State) (op : Nat) (wids : List Nat) : State :=
  wids.foldl completeWord (updThreads s (fun _ => true) (fun t => { t with
    marks := t.marks.filter (fun m => !wids.contains m.wid)
    uses := t.uses.filter (fun u => u.op != op) }))

/-- The words of some signers. -/
def wordsOf (sg : List Signer) : List Nat := distinct (sg.map Signer.wid)

/-- A phase fails (R207, R208, R351): every signer traps, the empty marks of its d clear, and the phase is cleared. -/
def phaseFail (s : State) (c : Conv) (cause detail : Nat) (addr : Option Nat) : State :=
  deferTo (forgetOp s c.op (wordsOf c.signers)) c.signers cause detail addr

/-- The operations that an MWAIT still waits for: those queued, and those of phases that have not triggered (R220). -/
def unfinished (s : State) : List Nat :=
  (s.mops.filter (fun m => !m.done)).map MOp.id ++
    s.ponds.flatMap (fun d => (d.conv.filter (fun c => !c.2.signers.isEmpty)).map (fun c => c.2.op))

/-- The wait of a thread at an MWAIT completes (R220): the slot's flags go to its %fflags, its uses of the slot end, what R221 forbids ends for
their operations, and the engine's writes that they covered count as observed by it and stand before its accesses behind the MWAIT's word `wid`
(R265, R275). -/
def coverSlot (pd wid : Nat) (s : State) (c : TRef × Nat × Nat) : State :=
  let h := handleOf c.2.1 c.2.2
  let fl := ((pond s pd).bind (fun d => d.rslot c.2.1 c.2.2)).elim 0 RSlot.flags
  let ops : List Nat := match thread s c.1 with
    | some t => (t.uses.filter (fun (u : Use) => u.handles.contains h)).map Use.op
    | none => []
  let wids := (s.mops.filter (fun m => ops.contains m.id && m.kind == .msta)).map MOp.wid
  let mine (y : Access) : Bool := y.stage == 2 && wids.contains y.wid
  let s := observe s c.1 ((s.slices.filter mine).map Access.id)
  let s := { s with slices := updWhere mine (fun y => { y with covers := y.covers ++ [(c.1, wid)] }) s.slices }
  let s := { s with mops := updWhere (fun m => m.done && ops.contains m.id) (fun m => { m with covered := true }) s.mops }
  updThread s c.1 (fun t => { t with
    fflags := t.fflags ||| fl
    uses := t.uses.filter (fun (u : Use) => !u.handles.contains h) })

/-- An MWAIT completes for its threads (R220). -/
def finishMwait (s : State) (pd wid : Nat) (slots : List (TRef × Nat × Nat)) : State :=
  dropCovered (slots.foldl (coverSlot pd wid) (settleSpoils s))

/-- A fragment at an MWAIT whose operations have completed goes on (R220). -/
def releaseMwait (s : State) (f : Frag) : State :=
  match f.hold with
  | .mwait ops slots w =>
    if ops.any (fun o => (unfinished s).contains o) then s
    else match pool s f.pool with
      | some p => sweepSlots (completeWord (finishMwait (release s f.ref) p.pond w.wid slots) w.wid) p.pond
      | none => s
  | _ => s

/-- The fragments at MWAITs whose operations have completed go on. -/
def releaseMwaits (s : State) : State := s.frags.foldl releaseMwait s

/-- The phases of a pond that can never trigger fail (R207). -/
def checkShortfalls (s : State) (pd : Nat) : State :=
  match pond s pd with
  | none => s
  | some d => releaseMwaits (d.conv.foldl (fun s p =>
      let c := p.2
      let free := (pondThreads s pd).filter (fun t => !c.signers.any (fun x => x.t == t.ref))
      if c.signers.isEmpty || decide (c.count - c.signers.length ≤ free.length) then s
      else phaseFail (putConv s pd p.1 c.clear) c 0x18 (p.1 + 16 * c.signers.length) none) s)

/-- The operations in the matrix queue of a core (R213). -/
def queued (s : State) (core : Nat) : List MOp :=
  s.mops.filter (fun m => !m.done && (pond s m.pond).any (fun d => d.core == some core))

/-- The matrix queue has room for `n` operations (R213). -/
def queueRoom (s : State) (core n : Nat) : Bool := decide ((queued s core).length + n ≤ Config.matrixQueue)

/-- The threads of a word as signers of an operation (R207, R337). -/
def Env.issuers (e : Env) (act : List Thread) : List Signer :=
  act.map (fun t => ⟨t.ref, e.frag.ref, t.lane, e.pc, e.frag.count + 1, e.iss.wid, e.inTransl, e.core⟩)

/-- What a signer gives (R208). -/
def Env.signOps (e : Env) (d : Dst) (a b c : Src) (k : Nat) (t : Thread) : SignOps where
  dcode := d.code
  dtag := match d with
    | .reg _ tag => tag
    | .none => .home
  a := e.src 0 t a
  b := e.src 0 t b
  c0 := loWord (e.src64 0 false t c)
  c1 := hiWord (e.src64 0 false t c)
  k := k

/-- The first item in which a signer differs from the first one (R208, R341). -/
def SignOps.differs (f x : SignOps) : Option Nat :=
  if x.dcode ≠ f.dcode ∨ x.dtag ≠ f.dtag then some 0
  else if x.a ≠ f.a ∧ !fwFresh f.b then some 1
  else if x.b ≠ f.b then some 2
  else if x.c0 ≠ f.c0 then some 3
  else if x.c1 ≠ f.c1 then some 4
  else if x.k ≠ f.k then some 5
  else none

/-- The registers that an operation reads (R221). -/
def sourceRegs (i : Instr) : List Nat := ((opnds false i).filter (fun o => !o.dst)).flatMap Opnd.regs

/-- The first tile off its alignment or the allocation (R211). -/
def badTile (size : Nat) (ts : List (Nat × Nat)) : Option Nat :=
  (ts.find? (fun t => t.1 % 16 != 0 || decide (size < t.1 + t.2))).map Prod.fst

/-- The checks of a trigger (R208), in their order: cause, DETAIL and address. -/
def triggerCheck (d : Pond) (n : Nat) (c : Conv) (f : SignOps) : Option (Nat × Nat × Option Nat) :=
  let dest := if fwFresh f.b then none else d.slotOfHandle f.a
  let src := d.slotOfHandle f.c0
  match c.differ with
  | some (item, tid) => some (0x19, n + 16 * item + 2 ^ 16 * tid, none)
  | none =>
    if !mmaFormat f.b f.k then some (0x1A, f.b.toNat + 2 ^ 32 * f.k, none)
    else if !fwFresh f.b && dest.isNone then some (0x1B, f.a.toNat, none)
    else if fwChain f.b && (src.isNone || src == dest) then some (0x1B, f.c0.toNat, none)
    else if fwFresh f.b && decide (Config.slotsPerCore ≤ d.holds.length) then some (0x1C, n, none)
    else (badTile d.size (mmaTiles f.b f.k f.c0.toNat f.c1.toNat)).map (fun a => (0x21, 2 ^ 8 + 2 ^ 32 * d.size, some a))

/-- An operation as it enters the queue, with what the words of its kind share. -/
def Env.newOp (e : Env) (id : Nat) (kind : MKind) (lane idx gen : Nat) : MOp where
  id := id
  kind := kind
  wid := e.iss.wid
  orig := e.origin lane
  pond := e.pond.id
  idx := idx
  gen := gen
  src := none
  fresh := false
  fmt := 0
  k := 0
  a := 0
  b := 0
  obj := none
  conv := 0
  dreg := none
  dtag := .home
  signers := []
  words := []
  started := false
  array := none
  delivered := false
  parked := none
  bad := false
  done := false
  covered := false
  wrote := []

/-- An operation enters the queue (R213). -/
def enqueue (s : State) (m : MOp) : State := { s with mops := s.mops ++ [m] }

/-- The uses of an operation name one more slot. -/
def nameSlot (s : State) (op : Nat) (h : Word) : State :=
  updThreads s (fun t => t.uses.any (fun u => u.op == op)) (fun t =>
    { t with uses := t.uses.map (fun u => if u.op == op then { u with handles := h :: u.handles } else u) })

/-- A phase triggers (R207, R208): its MMA enters the queue, or every signer traps. -/
def triggerPhase (s : State) (e : Env) (n : Nat) (c : Conv) (f : SignOps) (lane : Nat) : State :=
  let pd := e.pond.id
  let s := putConv s pd n c.trigger
  match pond s pd with
  | none => s
  | some d => match triggerCheck d n c f with
    | some (cause, detail, addr) => releaseMwaits (phaseFail s c cause detail addr)
    | none =>
      let fresh := fwFresh f.b
      let (idx, gen, s) := match if fresh then none else d.slotOfHandle f.a with
        | some r => (r.idx, r.gen, s)
        | none => takeIndex s pd
      let src := if fwChain f.b then (d.slotOfHandle f.c0).map (fun r => (r.idx, r.gen)) else none
      let m : MOp := { e.newOp c.op .mma lane idx gen with
        src := src
        fresh := fresh
        fmt := f.b
        k := f.k
        a := f.c0.toNat
        b := f.c1.toNat
        conv := n
        dreg := if fresh && decide (f.dcode < 768) then some f.dcode else none
        dtag := f.dtag
        signers := c.signers
        words := if fresh then wordsOf c.signers else []
        bad := c.bad }
      enqueue (if fresh then nameSlot s c.op (handleOf idx gen) else s) m

/-- The threads of an MMA word sign (R207, R208, R215): the vote, the empty marks of a fresh MMA, and what R221 watches. -/
def signPhase (s : State) (e : Env) (i : Instr) (n : Nat) (d : Dst) (ops : Thread → SignOps) (f : SignOps) (act : List Thread) : Conv × State :=
  let c := e.pond.convN n
  let (op, s) := if c.signers.isEmpty then takeId s else (c.op, s)
  let ts := act.map Thread.ref
  let differ := c.differ.or (firstSome (fun t => (f.differs (ops t)).map (fun item => (item, t.tid))) act)
  let c : Conv := { c with
    op := op
    first := some f
    differ := differ
    signers := c.signers ++ e.issuers act }
  let use : Use := ⟨op, (if fwFresh f.b then [] else [f.a]) ++ (if fwChain f.b then [f.c0] else []), sourceRegs i, false⟩
  let s := updThreads s (fun t => ts.contains t.ref) (fun t => { t with uses := t.uses ++ [use] })
  let s := if !fwFresh f.b then s else
    begin_ (match d with | .reg r _ => markEmpty s ts r 1 e.iss.wid | .none => s) e
  (c, s)

/-- MMA (R207, R208). -/
def execMma (g : Guard) (n : Fin 16) (k : BitVec 9) (d : Dst) (a b c : Src) (s : State) : Host.Outcome State Fault Refusal :=
  issue (.mma g n k d a b c) s (fun e s => match e.active g with
    | [] => .ok s
    | t0 :: r =>
      let act := t0 :: r
      let cv := e.pond.convN n
      let ops := e.signOps d a b c k.toNat
      let f := cv.first.getD (ops t0)
      if cv.count = 0 then .trap ⟨0x16, n, none, lowLane act⟩
      else if cv.count - cv.signers.length < act.length then .trap ⟨0x17, n, none, lowLane act⟩
      else match act.find? (fun t => cv.signers.any (fun x => x.t == t.ref)) with
        | some t => .trap ⟨0x17, n + 16, none, t.lane⟩
        | none =>
          let full := decide (cv.signers.length + act.length = cv.count)
          if full && !queueRoom s e.core 1 then .wait
          else
            let (cv, s) := signPhase s e (.mma g n k d a b c) n d ops f act
            if full then .ok (triggerPhase s e n cv f (lowLane act))
            else .ok (checkShortfalls (putConv s e.pond.id n cv) e.pond.id))

/-- MWAIT (R220). -/
def execMwait (g : Guard) (a : Src) (s : State) : Host.Outcome State Fault Refusal :=
  issue (.mwait g a) s (fun e s =>
    let act := e.active g
    match act.find? (fun t => (e.pond.slotOfHandle (e.src 0 t a)).isNone) with
    | some t => .trap ⟨0x1B, (e.src 0 t a).toNat, none, t.lane⟩
    | none =>
      let slots := act.filterMap (fun t => (e.pond.slotOfHandle (e.src 0 t a)).map (fun r => (t.ref, r.idx, r.gen)))
      let mine := act.flatMap (fun t => (t.uses.filter (fun u => u.handles.contains (e.src 0 t a))).map Use.op)
      let ops := (distinct mine).filter (fun o => (unfinished s).contains o)
      if ops.isEmpty then .ok (finishMwait s e.pond.id e.iss.wid slots)
      else .ok (begin_ (updFrag s e.frag.ref (fun f => { f with hold := .mwait ops slots e.waiter })) e))

/-- MREL (R216): a valid handle is stale from now on; its slot is freed once nothing is queued on it. -/
def execMrel (g : Guard) (a : Src) (s : State) : Host.Outcome State Fault Refusal :=
  issue (.mrel g a) s (fun e s =>
    let rs := (e.active g).filterMap (fun t => e.pond.slotOfHandle (e.src 0 t a))
    .ok (sweepSlots (rs.foldl (fun s r => updSlot s e.pond.id r.idx r.gen (fun x => { x with stale := true })) s) e.pond.id))

/-- The threads that issued an operation use a slot until they cover it (R220, R221). -/
def addUse (s : State) (act : List Thread) (op : Nat) (h : Word) (regs : List Nat) : State :=
  updThreads s (fun t => act.any (fun u => u.ref == t.ref)) (fun t => { t with uses := t.uses ++ [⟨op, [h], regs, false⟩] })

/-- MSLOT `.alloc` (R215): a long-latency producer of the handle, or 0 at once. -/
def execMslotAlloc (g : Guard) (d : Dst) (s : State) : Host.Outcome State Fault Refusal :=
  issue (.mslotAlloc g d) s (fun e s => match e.active g with
    | [] => .ok s
    | act =>
      if Config.slotsPerCore ≤ e.pond.holds.length then .ok (writeDst s e d [act.map (fun t => (t.ref, 0))])
      else if !queueRoom s e.core 1 then .wait
      else
        let (id, s) := takeId s
        let (idx, gen, s) := takeIndex s e.pond.id
        let s := addUse s act id (handleOf idx gen) []
        let s := match d with
          | .reg r _ => markEmpty s (act.map Thread.ref) r 1 e.iss.wid
          | .none => s
        .ok (begin_ (enqueue s { e.newOp id .alloc (lowLane act) idx gen with
          fresh := true
          dreg := match d with
            | .reg r _ => some r
            | .none => none
          dtag := match d with
            | .reg _ t => t
            | .none => .home
          signers := e.issuers act
          words := [e.iss.wid] }) e))

/-- MSLOT `.cnt` (R215). -/
def execMslotCnt (g : Guard) (d : Dst) (s : State) : Host.Outcome State Fault Refusal :=
  issue (.mslotCnt g d) s (plain g (fun e act s =>
    writeDst s e d [act.map (fun t => (t.ref, BitVec.ofNat 32 (Config.slotsPerCore - e.pond.holds.length)))]))

/-- One zeroing of MSLOT `.zero` queued. -/
def queueZero (e : Env) (act : List Thread) (regs : List Nat) (s : State) (r : RSlot) : State :=
  let (id, s) := takeId s
  let s := addUse s act id (handleOf r.idx r.gen) regs
  enqueue s { e.newOp id .zero (lowLane act) r.idx r.gen with signers := e.issuers act }

/-- MSLOT `.zero` (R216): one operation for each distinct slot. -/
def execMslotZero (g : Guard) (a : Src) (s : State) : Host.Outcome State Fault Refusal :=
  issue (.mslotZero g a) s (fun e s =>
    let act := e.active g
    match act.find? (fun t => (e.pond.slotOfHandle (e.src 0 t a)).isNone) with
    | some t => .trap ⟨0x1B, (e.src 0 t a).toNat, none, t.lane⟩
    | none =>
      let rs := distinct (act.filterMap (fun t => e.pond.slotOfHandle (e.src 0 t a)))
      if !queueRoom s e.core rs.length then .wait
      else .ok (rs.foldl (queueZero e act (sourceRegs (.mslotZero g a))) s))

/-- A trap of a shape record (R341, R354). -/
def shapeTrap (idx why dim lane : Nat) : Trap := ⟨0x29, idx + 2 ^ 16 * why + 2 ^ 20 * dim, none, lane⟩

/-- The shape record of MLDA or MSTA `.obj` and its checks (R217). -/
def squareRecord (s : State) (e : Env) (lane : Nat) (w : Word) (store : Bool) (c : List Nat) : Except Res Nat :=
  let idx := c.getD 0 0 % 2 ^ 16
  match readEntry s e lane idx with
  | .error f => .error f.res
  | .ok r =>
    let need := 8 + if store then 2 else 1
    if !shapeValid r then .error (.trap (shapeTrap idx 0 0 lane))
    else if !covers (shapeRights r) need then .error (.trap (shapeTrap idx 1 0 lane))
    else if shapeNdim r = 0 then .error (.trap (shapeTrap idx 4 0 lane))
    else if shapeFmt r ≠ fwA w then .error (.trap (shapeTrap idx 3 0 lane))
    else match shapeOut r [c.getD 1 0 + 127, c.getD 2 0 + 127, c.getD 3 0, c.getD 4 0] with
      | some j => .error (.trap (shapeTrap idx 2 j lane))
      | none => .ok r

/-- The first thread and item in which the threads of an MLDA or MSTA disagree (R217, R341). -/
def squareVote (a b : Thread → Word) (c : Thread → List Nat) (act : List Thread) : Option Trap :=
  match act with
  | [] => none
  | f :: _ => firstSome (fun t =>
      let item := if a t ≠ a f then some 1 else if b t ≠ b f then some 2
        else if (c t).head? ≠ (c f).head? then some 3 else if c t ≠ c f then some 6 else none
      item.map (fun i => ⟨0x19, 15 + 16 * i + 2 ^ 16 * t.tid, none, t.lane⟩)) act

/-- An MLDA or MSTA past its checks enters the queue (R213, R215, R217). -/
def queueSquare (s : State) (e : Env) (i : Instr) (store : Bool) (d : Dst) (w : Word) (c : List Nat) (rec_ : Option Nat)
    (slot : Option RSlot) (act : List Thread) : State :=
  let pd := e.pond.id
  let (id, s) := takeId s
  let (idx, gen, s) := match slot with
    | some r => (r.idx, r.gen, s)
    | none => takeIndex s pd
  let fresh := slot.isNone
  let addr := c.getD 0 0
  let s := if store && rec_.isNone then spoilTiles s pd ((act.head?.map Thread.ref).getD ⟨e.block.id, 0⟩) addr (squareBytes w) else s
  let s := addUse s act id (handleOf idx gen) (sourceRegs i)
  let s := match d with
    | .reg r _ => if fresh then markEmpty s (act.map Thread.ref) r 1 e.iss.wid else s
    | .none => s
  begin_ (enqueue s { e.newOp id (if store then .msta else .mlda) (lowLane act) idx gen with
    fresh := fresh
    fmt := w
    a := addr
    obj := rec_.map (fun r => (r, c.drop 1))
    conv := 15
    dreg := match d with
      | .reg r _ => if fresh then some r.val else none
      | .none => none
    dtag := match d with
      | .reg _ t => t
      | .none => .home
    signers := e.issuers act
    words := [e.iss.wid] }) e

/-- MLDA and MSTA (R217): the vote, the format word, the handle, the tile, and then the queue. -/
def squareBody (g : Guard) (i : Instr) (store obj : Bool) (d : Dst) (a b c : Src) (e : Env) (s : State) : Res :=
  match e.active g with
  | [] => .ok s
  | t0 :: r =>
    let act := t0 :: r
    let lane := lowLane act
    let regs (t : Thread) : List Nat := (List.range (if obj then 5 else 1)).map (fun i => (e.srcAt t c i).toNat)
    let w := e.src 0 t0 b
    let fresh := !store && fwFresh w
    let slot := if fresh then none else e.pond.slotOfHandle (e.src 0 t0 a)
    let addr := (regs t0).getD 0 0
    match squareVote (fun t => e.src 0 t a) (fun t => e.src 0 t b) regs act with
    | some t => .trap t
    | none =>
      if !(if store then mstaFormat w else mldaFormat w) then .trap ⟨0x1A, w.toNat, none, lane⟩
      else if !fresh && slot.isNone then .trap ⟨0x1B, (e.src 0 t0 a).toNat, none, lane⟩
      else if fresh && decide (Config.slotsPerCore ≤ e.pond.holds.length) then .trap ⟨0x1C, 15, none, lane⟩
      else match if obj then (squareRecord s e lane w store (regs t0)).map some else .ok none with
        | .error res => res
        | .ok rec_ =>
          if !obj && (badTile e.pond.size [(addr, squareBytes w)]).isSome then
            .trap ⟨0x21, 2 ^ 9 + 2 ^ 32 * e.pond.size, some addr, lane⟩
          else if store && slot.any RSlot.poisoned then .trap ⟨0x82, 2, some (e.src 0 t0 a).toNat, lane⟩
          else if !queueRoom s e.core 1 || (obj && act.any (fun t => entryWaits s e t (addr % 2 ^ 16))) then .wait
          else .ok (queueSquare s e i store d w (regs t0) rec_ slot act)

/-- MLDA (R217). -/
def execMlda (g : Guard) (obj : Bool) (d : Dst) (a b c : Src) (s : State) : Host.Outcome State Fault Refusal :=
  issue (.mlda g obj d a b c) s (squareBody g (.mlda g obj d a b c) false obj d a b c)
/-- MSTA (R217). -/
def execMsta (g : Guard) (obj : Bool) (a b c : Src) (s : State) : Host.Outcome State Fault Refusal :=
  issue (.msta g obj a b c) s (squareBody g (.msta g obj a b c) true obj .none a b c)

/-- The operation of an identifier that has not completed. -/
def mop (s : State) (id : Nat) : Option MOp := s.mops.find? (fun m => m.id == id && !m.done)
/-- An operation changed. -/
def updMop (s : State) (id : Nat) (f : MOp → MOp) : State := { s with mops := updWhere (fun m => m.id == id) f s.mops }

/-- The core on which an operation may run: that of its pond, while its context runs (R222). -/
def mopCore (s : State) (m : MOp) : Option Nat :=
  if (ctx s m.orig.ctx).any Ctx.running then (pond s m.pond).bind Pond.core else none

/-- Physical slots in use on a core (R214). -/
def physUsed (s : State) (core : Nat) : Nat :=
  (s.ponds.filter (fun d => d.core == some core)).foldl (fun n d => n + (d.held.filter RSlot.phys).length) 0

/-- The lowest-numbered idle array of a core (R213). -/
def idleArray (s : State) (core : Nat) : Option Nat :=
  lowestFree ((queued s core).filterMap MOp.array) Config.arraysPerCore 0

/-- The operations of the pond before one in the queue. -/
def opsBefore (s : State) (m : MOp) : List MOp := (pending s m.pond).takeWhile (fun x => x.id != m.id)

/-- The operation's slots are free of earlier operations (R213). -/
def slotsClear (s : State) (m : MOp) : Bool :=
  (opsBefore s m).all (fun x => !x.onSlot m.idx m.gen && !(m.src.any (fun p => x.onSlot p.1 p.2)))

/-- A fresh operation has no physical slot yet (R215). -/
def needsSlot (s : State) (m : MOp) : Bool := m.fresh && !((pond s m.pond).bind (fun d => d.rslot m.idx m.gen)).any RSlot.phys

/-- An operation may start on a core (R213, R215). -/
def mayStart (s : State) (core : Nat) (m : MOp) : Bool :=
  !m.started && mopCore s m == some core && slotsClear s m && (m.kind != .mma || (idleArray s core).isSome) &&
    (!needsSlot s m || decide (physUsed s core < Config.slotsPerCore))

/-- The destination's write of an operation's handle is pool-rank (R69). -/
def mopRank (s : State) (m : MOp) (r : Nat) : Bool :=
  match (block s m.orig.blk).bind (fun b => launch s b.launch) with
  | some l => poolRank l.kernel.homeMap r m.dtag
  | none => false

/-- The handle of a fresh MMA over live signers that share no pool (R215): the pond copy takes it, and narrower copies go. A signer that has
written the register since it signed keeps that younger value, and a pool of such signers alone its pool copy (R71 item 3), also where it is the
state that a pond collective left (R76); where one has set the register since every signer signed, that state stands for the whole pond. -/
def deliverPond (s : State) (d : Pond) (r : Nat) (sg : List Signer) (h : Word) : State :=
  let wid (t : Thread) : Option Nat := (sg.find? (fun x => x.t == t.ref)).map Signer.wid
  let clear (t : Thread) : Thread := (wid t).elim t (fun w => t.clearMark r w)
  let live := s.threads.filter (fun t => (wid t).isSome)
  if live.all (fun t => t.marks.any (fun m => m.reg == r && some m.wid == wid t && m.swept)) then updThreads s (fun _ => true) clear
  else
    let late (t : Thread) : Bool := (wid t).any (fun w => t.overtaken r w)
    let keeps (p : Pool) : Bool := (mapGet p.copies r).isSome && (poolThreads s p.id).all late
    let one (t : Thread) : Thread :=
      let p := t.pool.bind (pool s)
      if !late t then (wid t).elim (t.dropSpring r) (fun w => (t.dropSpring r).overtake r (some w))
      else if p.any keeps then t
      else t.holdCopy p d r
    let s := updThreads s (fun t => t.pond == d.id) (fun t => clear (one t))
    let s := { s with pools := updWhere (fun p => p.pond == d.id && !keeps p) (fun p => p.dropCopy r) s.pools }
    updPond s d.id (fun p => { p with bank := mapSet p.bank r h, poison := p.poison.filter (· != r) })

/-- The write of a handle heeds the pools of its delivery (R215), so that a re-slice of its signers meanwhile does not count
(log 60). -/
def forgetMoves (s : State) (r : Nat) (sg : List Signer) : State :=
  updThreads s (fun t => sg.any (fun x => x.t == t.ref)) (fun t => { t with
    marks := t.marks.map (fun m => if m.reg == r && sg.any (fun x => x.t == t.ref && x.wid == m.wid) then { m with moved := false } else m) })

/-- The handle of a fresh operation is delivered (R215): by one layered write over the signers that still live, or in the pond copy when
an MMA's live signers share no pool. -/
def giveHandle (s : State) (m : MOp) : State :=
  let h := handleOf m.idx m.gen
  let sg := m.signers.filter (fun x => (thread s x.t).isSome)
  let s := match m.dreg with
    | none => s
    | some r =>
      let vals := sg.map (fun x => (x.t, x.wid, h))
      if sg.isEmpty then s
      else if m.kind != .mma then completeWrites s r (mopRank s m r) vals
      else if (commonPool (sg.filterMap (fun x => thread s x.t))).isNone then (pond s m.pond).elim s (fun d => deliverPond s d r sg h)
      else completeWrites (forgetMoves s r sg) r (mopRank s m r) vals
  m.words.foldl completeWord s

/-- An operation has completed or been abandoned (R213, R216, R220, R221). -/
def endOp (s : State) (m : MOp) : State :=
  let s := m.words.foldl completeWord (updMop s m.id (fun x => { x with done := true, array := none, parked := none, words := [] }))
  sweepSlots (dropCovered (releaseMwaits s)) m.pond

/-- The operation writes its whole slot whatever stood there: what R221 forbids for the earlier operations on it has no result left to reach. -/
def MOp.replaces (m x : MOp) : Bool :=
  (m.kind == .mlda || m.kind == .zero) && x.done && x.id != m.id && x.kind != .msta && x.pond == m.pond && x.idx == m.idx && x.gen == m.gen

/-- An operation has produced its result, which is undefined where it was spoiled (R221). -/
def completeOp (s : State) (m : MOp) : State :=
  let s := { s with mops := updWhere m.replaces (fun x => { x with covered := true }) s.mops }
  endOp (settleSpoils (if m.bad then ruin s m else updMop s m.id (fun x => { x with done := true }))) m

/-- An operation starts (R213, R215): an array for an MMA, and for a fresh one its physical slot and the delivery of its handle. -/
def startMop (s : State) (core : Nat) (m : MOp) : State :=
  let s := updMop s m.id (fun x => { x with
    started := true
    array := if m.kind == .mma then idleArray s core else none })
  if !m.fresh || m.delivered then s
  else
    let s := giveHandle s m
    let s := updMop s m.id (fun x => { x with delivered := true, words := [] })
    let s := updSlot { s with free := s.free + 1 } m.pond m.idx m.gen (fun r => { r with
      phys := true
      poisoned := false
      data := .undef s.free })
    if m.kind == .alloc then endOp s { m with words := [] } else s

/-- MATRIX_OP_START (R213): the oldest operation of a core that may start. -/
def execMatrixOpStart (id : Nat) (s : State) : Host.Outcome State Fault Refusal :=
  match (mop s id).bind (fun m => (mopCore s m).map (fun c => (m, c))) with
  | some (m, core) =>
    if ((queued s core).find? (mayStart s core)).map MOp.id == some id then .next (startMop s core m) else .fault .notEnabled
  | none => .fault .notEnabled

/-- The first empty granule of an operation's operand tiles (R187, R364). -/
def emptyOperand (s : State) (m : MOp) : Option Nat :=
  match pond s m.pond with
  | none => none
  | some d => (m.reads.flatMap (fun r => granules r.1 r.2)).find? (fun g => !(d.gran g).full)

/-- The poisoned unit that an operation reads (R380): space and address. -/
def poisonedOperand (s : State) (m : MOp) : Option (Nat × Nat) :=
  match pond s m.pond with
  | none => none
  | some d =>
    let bad (p : Nat × Nat) : Bool := (d.rslot p.1 p.2).any RSlot.poisoned
    let own := (m.kind == .msta || (m.kind == .mma && !m.fresh)) && bad (m.idx, m.gen)
    if own then some (2, (handleOf m.idx m.gen).toNat)
    else match m.src with
      | some p => if bad p then some (2, (handleOf p.1 p.2).toNat) else
        ((m.reads.flatMap (fun r => granules r.1 r.2)).find? (fun g => d.badGrans.contains g)).map (fun g => (1, 16 * g))
      | none => ((m.reads.flatMap (fun r => granules r.1 r.2)).find? (fun g => d.badGrans.contains g)).map (fun g => (1, 16 * g))

/-- The contents of a slot. -/
def slotData (d : Pond) (idx gen : Nat) : SlotData := ((d.rslot idx gen).map RSlot.data).getD .zero

/-- The result of an operation into its slot, with the flags ORed (R212). -/
def putSlot (s : State) (m : MOp) (cells : List Word) (fl : FlagSet) : State :=
  updSlot s m.pond m.idx m.gen (fun r => { r with data := .cells cells, flags := r.flags ||| fl.code })

/-- An MMA's result (R212). -/
def computeMma (s : State) (d : Pond) (m : MOp) : State :=
  let w := m.fmt
  let k := mmaK w m.k
  let old : SlotData := if m.fresh then .zero else slotData d m.idx m.gen
  let at_ (a : Nat) (i : Nat) : Byte := byteAt d.scratch (a + i)
  let lines := match m.src with
    | some p => (List.range 128).map (fun i => convertLine w ((slotData d p.1 p.2).line false i))
    | none => []
  let row (i : Nat) : List FVal := match m.src with
    | some _ => (match lines[i]? with | some l => (lineValues (fwA w) l.1 l.2.1).take k | none => [])
    | none => (List.range k).map (operandElem (at_ m.a) (fwA w) 128 k (fwTA w) i)
  let col (n : Nat) : List FVal := (List.range k).map (fun j => operandElem (at_ m.b) (fwB w) k 128 (fwTB w) j n)
  let z := multiply old.cell row col
  putSlot s m z.1 (z.2.union (flagsOf (lines.map (fun l => l.2.2))))

/-- The values of one loaded row from its bytes and scale bytes. -/
def loadedRow (w : Word) (x0 : Nat) (es sc : List Byte) : List FVal :=
  let rd (i : Nat) : Byte := (es ++ sc).getD i 0
  (List.range 128).map (fun c =>
    elemValue rd (fwA w) (if fwA w = 3 then x0 % 2 + c else c) ((x0 % 32 + c) / 32) es.length)

/-- The rows of an MLDA `.obj` read in turn (R217, R362): their values, or the fault or the poisoned line that one meets. -/
def loadRows (m : MOp) (rec_ : Nat) (xs : List Nat) (s : State) : Nat → Nat → Except (MemFault ⊕ Nat) (List (List FVal))
  | 0, _ => .ok []
  | k + 1, r =>
    let (ue, us) := loadUnits rec_ m.fmt xs r
    match engineXlat s m.orig .load (ue ++ us) with
    | .error f => .error (.inl f)
    | .ok hs =>
      match hs.find? (fun u => s.badLines.contains (lineOf u.pa)) with
      | some u => .error (.inr u.va)
      | none =>
        let bs := hs.map (engineBytes s m.orig m.owner)
        match loadRows m rec_ xs s k (r + 1) with
        | .error f => .error f
        | .ok rows => .ok (loadedRow m.fmt (xs.getD 0 0) (bs.take ue.length).flatten (bs.drop ue.length).flatten :: rows)

/-- The lines of memory that an MLDA `.obj` of a still launch read (R291). -/
def touchRows (m : MOp) (rec_ : Nat) (xs : List Nat) (s : State) : State :=
  match stillOf s m.orig with
  | none => s
  | some (l, b) => (List.range 128).foldl (fun s r =>
      let (ue, us) := loadUnits rec_ m.fmt xs r
      match engineXlat s m.orig .load (ue ++ us) with
      | .error _ => s
      | .ok hs => hs.foldl (fun s u => touch s l.id b false u.va u.pa) s) s

/-- The cells of a slot from the stored rows of a tile, transposed where TA says so (R211, R217). -/
def squareCells (w : Word) (rows : List (List FVal)) : List Word :=
  (List.range 128).flatMap (fun m => (List.range 128).map (fun n =>
    exactCode (if fwTA w then (rows.getD n []).getD m .nan else (rows.getD m []).getD n .nan)))

/-- DETAIL of an engine record of a matrix operation's memory fault (R354). -/
def mopDetail (m : MOp) (cause level : Nat) (parked : Bool) : Nat :=
  cause + 2 ^ 8 * level + 2 ^ 11 * parked.toNat + 2 ^ 12 * (m.kind == .msta).toNat + 2 ^ 32 * (handleOf m.idx m.gen).toNat

/-- A matrix operation that reads a poisoned unit is abandoned (R380). -/
def mopPoison (s : State) (m : MOp) (space addr : Nat) : State := endOp (engineFatal s m.orig 0x82 (space + 4) (some addr)) m

/-- A matrix operation meets a fault of memory (R362): it parks, or it is abandoned, an MLDA's slot taking undefined values. A poisoned line of
the page table is a poisoned unit that it reads (R380). A round buffer without room for its writes has a record of its own cause (R378, log 76). -/
def mopFault (s : State) (m : MOp) (f : EFault) : State :=
  match f with
  | .mem f =>
    if f.cause = 0x82 then mopPoison s m 0 f.addr
    else if f.recover then
      let page := pageOf f.addr
      let again := m.parked.any (fun p => p.1 == page)
      let s := reportParked s m.orig.ctx page (engineRec s m.orig 0x45 (mopDetail m f.cause f.level true) (some f.addr)) again
      updMop s m.id (fun x => { x with parked := some (page, false) })
    else
      let s := engineFatal s m.orig 0x45 (mopDetail m f.cause f.level false) (some f.addr)
      endOp (if m.kind == .mlda then ruinHere s m else s) m
  | .buffer used va => endOp (engineFatal s m.orig 0x66 used (some va)) m

/-- An MLDA's result (R217). -/
def computeMlda (s : State) (d : Pond) (m : MOp) : State :=
  match m.obj with
  | none =>
    let rd (i : Nat) : Byte := byteAt d.scratch (m.a + i)
    let rows := (List.range 128).map (fun r => (List.range 128).map (tileElem rd (fwA m.fmt) 128 128 r))
    completeOp (putSlot s m (squareCells m.fmt rows) .none) m
  | some (r, xs) =>
    match loadRows m r xs s 128 0 with
    | .error (.inl f) => mopFault s m (.mem f)
    | .error (.inr va) => mopPoison s m 0 va
    | .ok rows => completeOp (putSlot (touchRows m r xs s) m (squareCells m.fmt rows) .none) m

/-- An MSTA's result (R217, R218). A tile in memory that is undefined already is written so, and once (R5, R221). -/
def computeMsta (s : State) (d : Pond) (m : MOp) : State :=
  let z := storedLines m.fmt (slotData d m.idx m.gen)
  let flag (s : State) : State := updSlot s m.pond m.idx m.gen (fun r => { r with flags := r.flags ||| z.2.code })
  match m.obj with
  | none => completeOp (flag (updPond s m.pond (fun d => d.arrive m.a (tileOf z.1)))) m
  | some (r, xs) =>
    let bad := m.bad || regSpoiled s m.id
    let lines := if bad then freeLines m.fmt s.free else z.1
    let s := if bad then clearSpoils { s with free := s.free + 1 } [m.id] else s
    match storeRows m r xs m.owner 0 lines (updMop s m.id (fun x => { x with wrote := [] })) with
    | (s, none) => completeOp (flag s) { m with bad := false }
    | (s, some f) => mopFault (if bad then markBad s m else s) m f

/-- MATRIX_OP_COMPLETE (R212, R216 to R218, R362): a running operation takes effect, once its operand granules are full. -/
def execMatrixOpComplete (id : Nat) (s : State) : Host.Outcome State Fault Refusal :=
  match (mop s id).bind (fun m => (pond s m.pond).map (fun d => (m, d))) with
  | none => .fault .notEnabled
  | some (m, d) =>
    if !m.started || (mopCore s m).isNone || !replays s m.orig m.parked || (emptyOperand s m).isSome ||
        (m.signers.any (fun g => deviceBefore s g.t m.wid) && onDevice s m.orig m.memUnits) then .fault .notEnabled
    else match poisonedOperand s m with
      | some (space, addr) => .next (mopPoison s m space addr)
      | none => match m.kind with
        | .mma => .next (completeOp (computeMma (settleSpoils s) ((pond (settleSpoils s) m.pond).getD d) m) m)
        | .mlda => .next (computeMlda s d m)
        | .msta => .next (computeMsta (settleSpoils s) ((pond (settleSpoils s) m.pond).getD d) m)
        | .zero => .next (completeOp (updSlot s m.pond m.idx m.gen (fun r => { r with
            data := .zero
            flags := 0
            poisoned := false })) m)
        | .alloc => .fault .notEnabled

/-- The matrix operations that may start or complete. -/
def matrixEvents (s : State) : List Instr :=
  (s.mops.filter (fun m => !m.done)).map (fun m => if m.started then .matrixOpComplete m.id else .matrixOpStart m.id)

end Sys2Proof.Machine
end

