-- ==== Sys2Proof/Machine/Leave.lean ====
section
/-! DEFINITION. Threads that leave their fragment (07 R129): REFORM, EXIT, and what their leaving completes in barriers, collectives and
phases. -/

namespace Sys2Proof.Machine

/-- What the leaving of threads from a pool completes (R58, R129, R193): barriers and collectives of the pool, its pond and its block;
and an emptied pool ends (R48). -/
def afterLeave (s : State) (p pd b : Nat) : State :=
  let s := settleColl (settleColl (settleBars s p pd b) pd (some p)) pd none
  freeFrame (sweepPool s p) p

/-- REFORM (R52, R129): the active threads leave for the reform well of the next address. -/
def reformBody (g : Guard) (e : Env) (s : State) : Res :=
  let act := e.active g
  let pl := (pool s e.pool.id).getD e.pool
  let s := updThreads s (fun t => act.any (fun u => u.ref == t.ref)) (fileThread pl .reform (e.pc + 16))
  .ok (afterLeave s e.pool.id e.pond.id e.block.id)

/-- The name under which what an ended thread left behind goes on: no thread has it. -/
def ghostOf (r : TRef) (id : Nat) : TRef := ⟨r.blk, r.tid + 8192 * (id + 1)⟩

/-- What an ended thread left behind takes another name (R129): its stores, atomics and copies complete, its signatures and arrivals
count, and its pending results are discarded. -/
def renameThread (s : State) (r g : TRef) : State :=
  let ren (t : TRef) : TRef := if t == r then g else t
  let sg (x : Signer) : Signer := { x with t := ren x.t }
  { s with
    accs := s.accs.map (fun y => { y with t := ren y.t })
    slices := s.slices.map (fun y => { y with t := ren y.t })
    copies := s.copies.map (fun c => { c with t := ren c.t })
    mops := s.mops.map (fun m => { m with signers := m.signers.map sg })
    ponds := s.ponds.map (fun d => { d with conv := d.conv.map (fun c => (c.1, { c.2 with signers := c.2.signers.map sg })) })
    bars := s.bars.map (fun b => { b with arrived := b.arrived.map ren })
    blocks := s.blocks.map (fun b => { b with buffer := b.buffer.map (fun x => { x with t := ren x.t }) })
    ops := s.ops.map (fun o => { o with lanes := o.lanes.filter (fun x => x.t != r) }) }

/-- The operations whose operand registers a thread wrote before it covered them (R221). -/
def spoiledBy (s : State) (t : Thread) : List MOp := s.mops.filter (fun m => !m.covered && t.uses.any (fun u => u.op == m.id && u.spoiled))

/-- The same of the phases that a thread signed and that have not triggered: the operation that they will queue has an undefined result. -/
def spoilPhases (s : State) (t : Thread) : State :=
  updPond s t.pond (fun d => { d with conv := d.conv.map (fun c =>
    (c.1, if !c.2.signers.isEmpty && t.uses.any (fun u => u.op == c.2.op && u.spoiled) then { c.2 with bad := true } else c.2)) })

/-- A thread ends (R67, R129). -/
def endThread (s : State) (t : Thread) : State :=
  let s := spoilPhases ((spoiledBy s t).foldl spoil s) t
  let (id, s) := takeId s
  let s := renameThread s t.ref (ghostOf t.ref id)
  { s with threads := s.threads.filter (fun u => u.ref != t.ref) }

/-- The phases whose signer or last possible signer has ended are checked, and operations that nobody will cover are dropped (R207, R220). -/
def afterEnd (s : State) (pd : Nat) : State := dropCovered (checkShortfalls s pd)

/-- EXIT (R129): the active threads end. -/
def exitBody (g : Guard) (e : Env) (s : State) : Res :=
  let act := e.active g
  let s := act.foldl endThread s
  .ok (if act.isEmpty then s else afterEnd (afterLeave s e.pool.id e.pond.id e.block.id) e.pond.id)

/-- REFORM (R52, R129). -/
def execReform (g : Guard) (s : State) : Host.Outcome State Fault Refusal := issue (.reform g) s (reformBody g)
/-- EXIT (R129). -/
def execExit (g : Guard) (s : State) : Host.Outcome State Fault Refusal := issue (.exit g) s (exitBody g)

end Sys2Proof.Machine
end

