-- ==== Sys2Proof/Machine/Copy.lean ====
section
/-! DEFINITION. The copy engine (10 R195 to R198; 23 R356, R360, R361). -/

namespace Sys2Proof.Machine

/-- The code of a direction (R195). -/
def dirCode : CopyDir → Nat
  | .g2s => 0 | .s2g => 1 | .o2s => 2 | .s2o => 3
/-- The direction writes the scratchpad. -/
def dirIn : CopyDir → Bool
  | .g2s | .o2s => true
  | _ => false
/-- The direction names a shape record. -/
def dirObj : CopyDir → Bool
  | .o2s | .s2o => true
  | _ => false

/-- Why the element address of a thread's command is not given: a trap of the record, or a fault of the table. -/
inductive ShapeStop where
  | trap (t : Trap)
  | table (f : MemFault)
  deriving DecidableEq, Repr

/-- The shape-record checks of a thread's command of `n` bytes (R196, R356): the element address. -/
def copyShape (s : State) (e : Env) (t : Thread) (into : Bool) (n handle : Nat) (xs : List Nat) : Except ShapeStop Nat :=
  let idx := handle % 2 ^ 16
  match readEntry s e t.lane idx with
  | .error f => .error (.table f)
  | .ok r =>
    let at_ (x : Nat) : Nat := if shapeFmt r = 3 then x / 2 else x * elemBytes (shapeFmt r)
    if !shapeValid r then .error (.trap (shapeTrap idx 0 0 t.lane))
    else if !covers (shapeRights r) (4 + if into then 1 else 2) then .error (.trap (shapeTrap idx 1 0 t.lane))
    else match shapeOut r xs with
      | some j => .error (.trap (shapeTrap idx 2 j t.lane))
      | none =>
        if at_ (shapeExtent r 0) < at_ (xs.getD 0 0) + n then .error (.trap (shapeTrap idx 5 0 t.lane)) else .ok (shapeAddr r xs)

/-- A thread's command: its scratchpad and global addresses. -/
structure Cmd where
  t : Thread
  sa : Nat
  va : Nat
  deriving DecidableEq, Repr

/-- The trap of a global address off its alignment (R196, R354). -/
def offAlign (n : Nat) (c : Cmd) : Option Trap := if c.va % n ≠ 0 then some ⟨0x20, n, some c.va, c.t.lane⟩ else none

/-- The traps of R356's first steps on the addresses of the commands: alignment, then scratchpad bounds. -/
def copyTrap (size n : Nat) (obj : Bool) (cs : List Cmd) : Option Trap :=
  (firstSome (fun c => if c.sa % n ≠ 0 then some ⟨0x20, n + 32, some c.sa, c.t.lane⟩ else if obj then none else offAlign n c) cs).or
    ((cs.find? (fun c => decide (size < c.sa + n))).map (fun c => ⟨0x21, n + 3 * 2 ^ 8 + 2 ^ 32 * size, some c.sa, c.t.lane⟩))

/-- The commands of a shape-record word (R356): the reading of the entries, the records and the alignment are checked in this order over all
its threads, and only without a fatal cause does a recoverable one park it. -/
def shapeCmds (n : Nat) (rs : List (Cmd × Except ShapeStop Nat)) : Except Res (List Cmd) :=
  let done := rs.filterMap (fun r => match r.2 with | .ok va => some { r.1 with va := va } | .error _ => none)
  let fault := firstFault (rs.filterMap (fun r => match r.2 with | .error (.table f) => some f | _ => none))
  let trap := (firstSome (fun r => match r.2 with | .error (.trap t) => some t | _ => none) rs).or (firstSome (offAlign n) done)
  match fault.filter (fun f => !f.recover), trap, fault with
  | some f, _, _ => .error f.res
  | none, some t, _ => .error (.trap t)
  | none, none, some f => .error f.res
  | none, none, none => .ok done

/-- A command stands in the journal of a core (R196): that of its pond, or where its pond has been released the one at which it acts. -/
def inJournal (s : State) (core : Nat) (c : Copy) : Bool :=
  match pond s c.pond with
  | some d => d.core == some core
  | none => (ctx s c.orig.ctx).any Ctx.running && c.orig.core == core

/-- The entries of a core's journal in use (R196). -/
def journal (s : State) (core : Nat) : List Nat := distinct ((s.copies.filter (inJournal s core)).map Copy.entry)

/-- The ponds that a command writes (R196, R197). -/
def copyDests (s : State) (e : Env) (into : Bool) (mask : Option Nat) : List Nat :=
  if !into then [] else
  match mask with
  | none => [e.pond.id]
  | some m => (s.ponds.filter (fun d => d.blk == e.block.id && d.core.any (fun c => m.testBit (Config.posOf c)))).map Pond.id

/-- A command of a word enters the journal; its destination spoils uncovered matrix operations (R221). -/
def pushCopy (e : Env) (dir : CopyDir) (n : Nat) (multi : Bool) (dests : List Nat) (entry : Nat) (s : State) (c : Cmd) : State :=
  let s := dests.foldl (fun s d => spoilTiles s d c.t.ref c.sa n) s
  let (id, s) := takeId s
  { s with copies := s.copies ++ [⟨id, e.iss.wid, c.t.ref, e.origin c.t.lane, e.pond.id, dirIn dir, multi, dirCode dir, n, c.va, c.sa,
      dests, none, none, [], none, entry, [], false⟩] }

/-- COPY and COPYM (R196, R197): the checks, and then every thread's command enters the journal. -/
def copyBody (g : Guard) (size : Size) (dir : CopyDir) (mask : Option Nat) (a b c : Src) (e : Env) (s : State) : Res :=
  match e.active g with
  | [] => .ok s
  | act =>
    let n := size.bytes
    let obj := dirObj dir
    let cmd (t : Thread) : Cmd := ⟨t, (e.src 0 t b).toNat, if obj then 0 else (e.src64 0 false t a).toNat⟩
    match copyTrap e.pond.size n obj (act.map cmd) with
    | some t => .trap t
    | none =>
      let xs (t : Thread) : List Nat := (List.range 4).map (fun i => (e.srcAt t c i).toNat)
      match if obj then shapeCmds n (act.map (fun t => (cmd t, copyShape s e t (dirIn dir) n (e.src 0 t a).toNat (xs t))))
          else .ok (act.map cmd) with
      | .error r => r
      | .ok cs =>
        if obj && act.any (fun t => entryWaits s e t ((e.src 0 t a).toNat % 2 ^ 16)) then .wait else
        let dests := copyDests s e (dirIn dir) mask
        if dirIn dir && dests.isEmpty then .ok s
        else match lowestFree (journal s e.core) Config.journalWords 0 with
          | none => .wait
          | some entry => .ok (begin_ (cs.foldl (pushCopy e dir n mask.isSome dests entry) s) e)

/-- COPY (R195, R196). -/
def execCopy (g : Guard) (size : Size) (dir : CopyDir) (hint : Hint) (a b c : Src) (s : State) : Host.Outcome State Fault Refusal :=
  issue (.copy g size dir hint a b c) s (copyBody g size dir none a b c)
/-- COPYM (R197). -/
def execCopym (g : Guard) (size : Size) (obj : Bool) (hint : Hint) (mask : BitVec 4) (a b c : Src) (s : State) :
    Host.Outcome State Fault Refusal :=
  issue (.copym g size obj hint mask a b c) s (copyBody g size (if obj then .o2s else .g2s) (some mask.toNat) a b c)

/-- The command of an identifier. -/
def copyOf (s : State) (id : Nat) : Option Copy := s.copies.find? (fun c => c.id == id)
/-- A command changed. -/
def updCopy (s : State) (id : Nat) (f : Copy → Copy) : State := { s with copies := updWhere (fun c => c.id == id) f s.copies }

/-- A command leaves the journal, and its word completes with its last one (R196). -/
def retireCopy (s : State) (c : Copy) : State := sweepWord { s with copies := s.copies.filter (fun x => x.id != c.id) } c.wid

/-- Commands of the thread before one in the journal. -/
def copiesBefore (s : State) (c : Copy) : List Copy := (s.copies.takeWhile (fun x => x.id != c.id)).filter (fun x => x.t == c.t)

/-- Two commands write a common byte (R198 item 3), or may once the earlier one `x` is translated: one that is parked holds no translation
and lets those of other addresses go before it (R360), whose bytes it then leaves alone (`Copy.passed`, log 64). -/
def Copy.clash (c x : Copy) : Bool :=
  let meetAt (a b : Nat) : Bool := decide (a < b + x.n ∧ b < a + c.n)
  if c.toScratch then x.toScratch && meetAt c.sa x.sa && c.dests.any (fun d => x.dests.contains d)
  else !x.toScratch && (meetAt c.va x.va || (match c.pa, x.pa with
    | some p, some q => meetAt p q
    | _, _ => x.pa.isNone && x.parked.isNone))

/-- The global side of a command that has started, as it was translated then (R360). -/
def Copy.side (c : Copy) : Option EUnit :=
  match c.pa, c.leaf with
  | some pa, some leaf => some ⟨c.va, pa, c.n, leaf⟩
  | _, _ => none

/-- The next unit of a command's source (R196): offset and bytes. -/
def Copy.nextUnit (c : Copy) : Option (Nat × Nat) := (units c.n).find? (fun u => u.1 == c.got.length)

/-- The command has read its source. -/
def Copy.full (c : Copy) : Bool := c.got.length == c.n

/-- The command has read its source and is translated, so that it may write. -/
def Copy.begun (c : Copy) : Bool := c.full && c.side.isSome

/-- The command with the translation of its global side (R360). -/
def Copy.translated (c : Copy) (u : EUnit) : Copy := { c with
  pa := some u.pa
  leaf := some u.leaf
  parked := none
  again := false }
/-- The command has not begun (R295): it has read nothing. -/
def Copy.unread (c : Copy) : Bool := c.got.isEmpty
/-- A command that has read nothing without its translation. -/
def Copy.fresh (c : Copy) : Copy := { c with pa := none, leaf := none }
/-- A command that a pre-emption has discarded (R295 step 4, R297): it keeps neither bytes nor translation, but for the bytes of a pond that has
been released since. -/
def Copy.discarded (c : Copy) (gone : Bool) : Copy := { (if gone && !c.toScratch then c else { c.fresh with got := [] }) with again := true }

/-- An earlier access of the thread to the source bytes has not been performed (R198 item 1). -/
def sourceBusy (s : State) (c : Copy) (sp : Space) (a n : Nat) : Bool :=
  s.accs.any (fun y => y.t == c.t && y.space == sp && decide (y.wid < c.wid ∧ y.addr < a + n ∧ a < y.addr + y.n))

/-- DETAIL of an engine record of a command's memory fault (R354). -/
def copyDetail (c : Copy) (cause level : Nat) (parked : Bool) : Nat :=
  cause + 2 ^ 8 * level + 2 ^ 11 * parked.toNat + 2 ^ 12 * (!c.toScratch).toNat + 2 ^ 13 * c.multi.toNat + 2 ^ 14 * c.dir +
    2 ^ 16 * (c.orig.lane % 128) + 2 ^ 24 * (c.entry % 256)

/-- A command that reads a poisoned unit is abandoned (R380). -/
def copyPoison (s : State) (c : Copy) (space addr : Nat) : State := retireCopy (engineFatal s c.orig 0x82 (space + 4) (some addr)) c

/-- A command meets a fault of memory (R360, R384): it parks in the journal, or it is abandoned and its block halts. A poisoned line of the page
table is a poisoned unit that it reads (R380). One that parks has read nothing (R360), but for the bytes that a released pond left it. -/
def copyFault (s : State) (c : Copy) (f : MemFault) : State :=
  if f.recover then
    let page := pageOf f.addr
    let again := c.parked.any (fun p => p.1 == page)
    let s := reportParked s c.orig.ctx page (engineRec s c.orig 0x40 (copyDetail c f.cause f.level true) (some f.addr)) again
    updCopy s c.id (fun x => { x with
      parked := some (page, false)
      got := if !x.toScratch && (pond s x.pond).isNone then x.got else []
      again := false })
  else if f.cause = 0xA0 then retireCopy (engineFatal s c.orig 0xA0 f.detail (some f.addr)) c
  else if f.cause = 0x82 then copyPoison s c 0 f.addr
  else retireCopy (engineFatal s c.orig 0x40 (copyDetail c f.cause f.level false) (some f.addr)) c

/-- The pond of a command stands on a core, or has been released (R249). -/
def copyPlaced (s : State) (c : Copy) : Bool :=
  match pond s c.pond with
  | some d => d.core.isSome
  | none => true

/-- The command may run: its context runs on its core, it is not parked or is due to replay (R295, R359, R360). -/
def copyRuns (s : State) (c : Copy) : Bool := (ctx s c.orig.ctx).any Ctx.running && copyPlaced s c && replays s c.orig c.parked

/-- A unit of a command read from global memory (R196, R198, R260): nothing when an earlier access of the thread is still to be performed. -/
def readGlobal (s : State) (c : Copy) (u : EUnit) (off n : Nat) : Option State :=
  if sourceBusy s c .mem (u.pa + off) n || (u.leaf.dev && deviceBefore s c.t c.wid) then none
  else if s.badLines.contains (lineOf u.pa) then some (copyPoison s c 0 u.va)
  else
    let bs := engineBytes s c.orig c.t { u with va := u.va + off, pa := u.pa + off, n := n }
    let s := match stillOf s c.orig with
      | some (l, b) => touch s l.id b false u.va u.pa
      | none => s
    some (updCopy s c.id (fun x => { x with got := x.got ++ bs }))

/-- A unit of a command read from its scratchpad (R196): nothing while a granule is empty. -/
def readScratch (s : State) (c : Copy) (d : Pond) (off n : Nat) : Option State :=
  let g := granOf (c.sa + off)
  if sourceBusy s c (.scratch d.id) (c.sa + off) n || !(d.gran g).full then none
  else if d.badGrans.contains g then some (copyPoison s c 1 (c.sa + off))
  else some (updCopy s c.id (fun x => { x with got := x.got ++ bytesAt d.scratch (c.sa + off) n }))

/-- A command that has started reads the next unit of its source (R196): of memory, or of the scratchpad of its pond, which is not released
before that. -/
def readUnit (s : State) (c : Copy) (u : EUnit) : Option State :=
  match c.nextUnit with
  | none => none
  | some (off, n) => if c.toScratch then readGlobal s c u off n else (pond s c.pond).bind (fun d => readScratch s c d off n)

/-- A command starts, which translates its global side, source or destination (R360), and reads the next unit of its source. -/
def startCopy (s : State) (c : Copy) : Option State :=
  match c.side with
  | some u => readUnit s c u
  | none =>
    match engineXlat s c.orig (if c.toScratch then .load else .store) [(c.va, c.n)] with
    | .error f => some (copyFault s c f)
    | .ok us => us.head?.map (fun u =>
        let s := updCopy s c.id (fun x => x.translated u)
        (readUnit s (c.translated u) u).getD s)

/-- A command that a pre-emption discarded starts behind the earlier ones of its journal (R297): they replay in journal order, and read and write as
any command does (log 77). One that a halt of its block keeps parked replays later (R373). -/
def inOrder (s : State) (c : Copy) : Bool :=
  let core : Option Nat := match pond s c.pond with
    | some d => d.core
    | none => some c.orig.core
  !c.again || (s.copies.takeWhile (fun x => x.id != c.id)).all (fun x => !(x.again && copyRuns s x && core.any (fun k => inJournal s k x)))

/-- COPY_COMMAND_START (R196). -/
def execCopyCommandStart (id : Nat) (s : State) : Host.Outcome State Fault Refusal :=
  match copyOf s id with
  | none => .fault .notEnabled
  | some c => if !copyRuns s c || !inOrder s c then .fault .notEnabled else match startCopy s c with
    | some s => .next s
    | none => .fault .notEnabled

/-- A command's bytes go to every destination pond (R187, R197). -/
def fillPonds (s : State) (c : Copy) : State := c.dests.foldl (fun s d => updPond s d (fun p => p.arrive c.sa c.got)) s

/-- The units in which a command writes global memory (R198, R269), as offsets and lengths: of 8 bytes at most, less the bytes that later commands
of its thread have written. -/
def Copy.writeUnits (c : Copy) (u : EUnit) : List (Nat × Nat) := leftUnits c.passed u.pa (units c.n)

/-- The parked commands of the thread before one that has written leave its bytes alone (R198 item 3). -/
def shadow (s : State) (c : Copy) (u : EUnit) : State :=
  let ids := ((copiesBefore s c).filter (fun x => !x.toScratch && x.pa.isNone)).map Copy.id
  { s with copies := updWhere (fun x => ids.contains x.id) (fun x => { x with passed := x.passed ++ [(u.pa, u.pa + c.n)] }) s.copies }

/-- A command's bytes go to global memory (R198), under the translation with which it started (R360). A round buffer without room for them has a
record of its own cause (R378, log 76). -/
def putGlobal (s : State) (c : Copy) : State :=
  match c.side with
  | none => s
  | some u =>
    if lostTo s u.pa then retireCopy (engineFatal s c.orig 0xA0 (moduleOf u.pa + 2 ^ 16) (some c.va)) c else
    let ps := c.writeUnits u
    let parts := ps.map (fun p => ({ u with va := u.va + p.1, pa := u.pa + p.1, n := p.2 } : EUnit))
    match engineStore s c.orig c.t c.wid c.id parts (ps.map (fun p => (c.got.drop p.1).take p.2)) with
    | .error (.mem f) => copyFault s c f
    | .error (.buffer used _) => retireCopy (engineFatal s c.orig 0x66 used (some c.va)) c
    | .ok s => retireCopy (shadow s c u) c

/-- COPY_COMMAND_COMPLETE (R196, R197): a command that has read its source writes it, behind the thread's earlier commands to the same
bytes (R198 item 3). -/
def execCopyCommandComplete (id : Nat) (s : State) : Host.Outcome State Fault Refusal :=
  match copyOf s id with
  | none => .fault .notEnabled
  | some c =>
    if !copyRuns s c || !c.begun || (copiesBefore s c).any c.clash ||
        (!c.toScratch && c.side.any (fun u => u.leaf.dev) && deviceBefore s c.t c.wid) then .fault .notEnabled
    else if c.toScratch then .next (retireCopy (fillPonds s c) c) else .next (putGlobal s c)

/-- The commands that may start or complete. -/
def copyEvents (s : State) : List Instr := s.copies.map (fun c => if c.begun then .copyCommandComplete c.id else .copyCommandStart c.id)

end Sys2Proof.Machine
end

