-- ==== Sys2Proof/Machine/Queues.lean ====
section
/-! DEFINITION. Launch queues (15 R282, R283): their headers, the append of a record by LAUNCH (12 R230), and the privileged ranges of a context (13 R246). -/

namespace Sys2Proof.Machine

/-- The address of a queue header (R282). -/
def hdrAddr (c : Ctx) (q : Nat) : Nat := (c.rcd.qbase + 64 * q) % 2 ^ 64
/-- RING of a header. -/
def hdrRing (h : Nat) : Nat := bits h 0 64
/-- LOG2 of a header. -/
def hdrLog2 (h : Nat) : Nat := bits h 64 5
/-- PRIO of a header. -/
def hdrPrio (h : Nat) : Nat := bits h 80 2
/-- OWNER of a header: the queue is appended by LAUNCH. -/
def hdrOwner (h : Nat) : Bool := h.testBit 82
/-- EN of a header. -/
def hdrEn (h : Nat) : Bool := h.testBit 83
/-- TAIL of a header. -/
def hdrTail (h : Nat) : Nat := bits h 128 32
/-- HEAD of a header. -/
def hdrHead (h : Nat) : Nat := bits h 160 32
/-- DONE of a header. -/
def hdrDone (h : Nat) : Nat := bits h 192 32

/-- The difference of two counters modulo 2^32 (R282). -/
def diff32 (x y : Nat) : Nat := (x + 2 ^ 32 - y % 2 ^ 32) % 2 ^ 32
/-- Records of a ring. -/
def hdrSize (h : Nat) : Nat := 2 ^ hdrLog2 h
/-- The queue is full (R282). -/
def hdrFull (h : Nat) : Bool := decide (hdrSize h ≤ diff32 (hdrTail h) (hdrDone h))
/-- The address of record `n` of a queue (R282). -/
def recAddr (h n : Nat) : Nat := (hdrRing h + 64 * (n % hdrSize h)) % 2 ^ 64

/-- A counter of a header written: 0 TAIL, 1 HEAD, 2 DONE. -/
def putCounter (s : State) (c : Ctx) (q k v : Nat) : State := areaPut s c (hdrAddr c q + 16 + 4 * k) 4 (v % 2 ^ 32)

/-- EN of a queue cleared (R285). -/
def clearEn (s : State) (c : Ctx) (q h : Nat) : State := areaPut s c (hdrAddr c q + 8) 8 (bits h 64 64 - if hdrEn h then 2 ^ 19 else 0)

/-- The answer of an append that appends nothing (R230, R283). -/
def notAppended : Nat := 0xFFFFFFFF

/-- A record appended to a device-owned queue as one step (R230, R283): the sequence number, or 0xFFFF_FFFF. -/
def appendRecord (s : State) (c : Ctx) (q : Nat) (rec_ : List Byte) : Nat × State :=
  match areaRead s c (hdrAddr c q) 64 with
  | .error _ => (notAppended, s)
  | .ok bs =>
    let h := leNat bs
    if !hdrEn h || !hdrOwner h || hdrFull h then (notAppended, s)
    else match areaWrite s c false (recAddr h (hdrTail h)) rec_ with
      | .error _ => (notAppended, s)
      | .ok s => (hdrTail h, putCounter s c q 0 (hdrTail h + 1))

/-- A header of the context's launch queues, 0 where it cannot be read (R282). -/
def header (s : State) (c : Ctx) (q : Nat) : Nat := areaNat s c (hdrAddr c q) 64

/-- The privileged ranges of a context, as addresses and extents (R246). -/
def privAreas (s : State) (c : Ctx) : List (Nat × Nat) :=
  let r := c.rcd
  let rings := (List.range 16).filterMap (fun q =>
    let h := header s c q
    if hdrEn h then some (hdrRing h, 64 * hdrSize h) else none)
  [(r.imgBase, r.bslots * 4 * 27267072), (r.spdBase, r.bslots * 4 * 655360), (r.thrBase, r.bslots * 4 * 532480),
    (r.objBase, 4194304), (r.sched, r.schedN * 16), (r.qbase, 2048)] ++ rings ++
    (s.launches.filter (fun l => l.ctx == r.id)).flatMap Launch.areas

/-- The privileged ranges in force for a context taken anew (R246). -/
def refreshPriv (s : State) (ctxId : Nat) : State :=
  match ctx s ctxId with
  | none => s
  | some c =>
    let as := privAreas s c
    let hs := [(c.rcd.qbase, 1024)]
    updCtx s ctxId (fun x => { x with priv := physOf s c as, hdrs := physOf s c hs, privGaps := gapsOf s c as, hdrGaps := gapsOf s c hs })

end Sys2Proof.Machine
end

