-- ==== Sys2Proof/Machine/System.lean ====
section
/-! DEFINITION. The system words (12 R225 to R239): special registers, thread and kernel creation, rounds, traps and their return, code
replacement, the shape-record table, and invalidations. SETW stands with the collectives. -/

namespace Sys2Proof.Machine

/-- The block whose kill makes %round read FP = 1 for a block (R227, R294). -/
def killedBelow (e : Env) : Bool := e.launch.killed.any (fun k => decide (k < e.block.lin))

/-- %round (R227). -/
def Env.roundReg (e : Env) : Nat := if e.still then e.launch.round % 2 ^ 31 + 2 ^ 31 * (killedBelow e).toNat else 0

/-- What a core's clock is known to have counted when a word reads it (R226, log 7). -/
def tick (s : State) (core : Nat) : Nat × State :=
  let v := (mapGet s.clock core).getD 0 + Config.clocks s.free
  (v, { s with
    free := s.free + 1
    clock := mapSet s.clock core v })

/-- %hintmiss of a context on a core (R106). -/
def hintsOf (s : State) (ctxId core : Nat) : Nat := (mapGet s.hints (hintKey ctxId core)).getD 0

/-- The value of a special register that only its thread and surroundings give (R225 to R227). -/
def Env.sreg (e : Env) (s : State) (r : SReg) (t : Thread) : Nat :=
  match r with
  | .tid => t.tid
  | .lane => t.lane
  | .gw => e.pool.grant
  | .gwn => gwnOf s e.ctx e.core
  | .gwstale => (e.pool.grant != gwnOf s e.ctx e.core).toNat
  | .pool => e.pool.num
  | .frag => e.frag.id
  | .blkx => e.block.bx
  | .blky => e.block.byy
  | .blkz => e.block.bz
  | .core => e.core
  | .lake => e.lake
  | .basin => Config.basinOf e.core
  | .clock | .retired => t.retired.toNat
  | .fflags => t.fflags.toNat
  | .hintmiss => if e.still then 0 else hintsOf s e.ctx.rcd.id e.core
  | .round => e.roundReg
  | .ctx => e.ctx.rcd.id
  | .cbase => e.launch.kernel.code

/-- SRR (R225). -/
def srrBody (r : SReg) (d : Dst) (e : Env) (act : List Thread) (s : State) : State :=
  let put (s : State) (f : Thread → Nat) : State :=
    writeW s e (r == .clock || r == .retired || r == .cbase) d (act.map (fun t => (t.ref, BitVec.ofNat 64 (f t))))
  match r with
  | .clock => if e.still then put s (e.sreg s r) else put (tick s e.core).2 (fun _ => (tick s e.core).1)
  | _ => put s (e.sreg s r)

/-- SRR (R225). -/
def execSrr (g : Guard) (r : SReg) (d : Dst) (s : State) : Host.Outcome State Fault Refusal :=
  issue (.srr g r d) s (plain g (srrBody r d))

/-- SRW (R106, R225). Of values that its threads write to the one %hintmiss of their core, that of the highest lane stays (log 80). -/
def execSrw (g : Guard) (r : SReg) (a : Src) (s : State) : Host.Outcome State Fault Refusal :=
  issue (.srw g r a) s (plain g (fun e act s => match r with
    | .fflags => updThreads s (fun t => act.any (fun u => u.ref == t.ref)) (fun t =>
        { t with fflags := ((valOf (act.map (fun u => (u.ref, e.src 0 u a))) t.ref).getD 0).setWidth 5 })
    | .hintmiss => act.foldl (fun s t => { s with hints := mapSet s.hints (hintKey e.ctx.rcd.id e.core) (e.src 0 t a).toNat }) s
    | _ => s))

/-- A thread that SPAWN creates (R229). -/
def newChild (e : Env) (tid entry record : Nat) (v0 : Word) : Thread where
  blk := e.block.id
  tid := tid
  pond := e.pond.id
  entry := record
  place := .well .spawn entry
  springs := [(0, v0)]
  slots := []
  preds := 0
  fflags := 0
  retired := 0
  stack := []
  spilled := 0
  marks := []
  bars := []
  handler := false
  observed := []
  poison := []
  setw := none
  deferred := []
  uses := []

/-- Live threads on a core (R8). -/
def residents (s : State) (core : Nat) : Nat :=
  (s.threads.filter (fun t => (pond s t.pond).any (fun d => d.core == some core))).length

/-- The children of SPAWN, in ascending lane (R229): each spawner's answer. -/
def spawnAll (e : Env) : List (Thread × Nat × Word) → State → List (TRef × Nat) × State
  | [], s => ([], s)
  | (t, entry, v0) :: r, s =>
    match lowestFree ((blockThreads s e.block.id).map Thread.tid) 8192 0 with
    | none => let (l, s) := spawnAll e r s; ((t.ref, notAppended) :: l, s)
    | some tid =>
      if Config.threadsPerCore ≤ residents s e.core then let (l, s) := spawnAll e r s; ((t.ref, notAppended) :: l, s)
      else
        let record := (lowestFree ((pondThreads s e.pond.id).map Thread.entry) 4096 0).getD 0
        let (l, s) := spawnAll e r { s with threads := s.threads ++ [newChild e tid entry record v0] }
        ((t.ref, tid) :: l, s)

/-- SPAWN (R229): the entries are checked for every active thread before any child exists; it waits, before it issues, for its threads'
accesses to be performed at pd scope. -/
def execSpawn (g : Guard) (d : Dst) (a b : Src) (s : State) : Host.Outcome State Fault Refusal :=
  issue (.spawn g d a b) s (fun e s => match e.active g with
    | [] => .ok s
    | act =>
      let entry (t : Thread) : Nat := (e.codeBase + (e.src 0 t a).toNat) % 2 ^ 64
      match act.find? (fun t => !e.valid (entry t)) with
      | some t => .trap ⟨0x0B, 4, some (entry t), t.lane⟩
      | none =>
        if !act.all (fun t => fenced s .rel .pd t.ref) then .wait
        else
          let (vals, s) := spawnAll e (act.map (fun t => (t, entry t, e.src 0 t b))) s
          .ok (startOp s e d 1 none (vals.map (fun v => ⟨v.1, knownBytes 4 v.2⟩))).2)

/-- The illegal operands of LAUNCH (R230, R240): a queue of 16 or above, a record address off 64. The trap names the lowest lane that breaks a rule,
and its address before its queue (log 82). -/
def launchTrap (e : Env) (a b : Src) (act : List Thread) : Option Trap :=
  firstSome (fun t =>
    if (e.src64 0 false t a).toNat % 64 ≠ 0 then some ⟨0x08, a.code + 2 ^ 12, none, t.lane⟩
    else if 16 ≤ (e.src 0 t b).toNat then some ⟨0x08, b.code + 2 * 2 ^ 12, none, t.lane⟩ else none) act

/-- The appends of a LAUNCH word, in ascending lane (R230). -/
def launchAll (ctxId : Nat) : List (TRef × Nat × List Byte) → State → List (TRef × Nat) × State
  | [], s => ([], s)
  | (t, q, bs) :: r, s =>
    let (n, s) := match ctx s ctxId with
      | some c => appendRecord s c q bs
      | none => (notAppended, s)
    let (l, s) := launchAll ctxId r s
    ((t, n) :: l, s)

/-- A LAUNCH of a still kernel buffered (R230, R293, R378): its records and where their sequence numbers go. -/
def launchStill (s : State) (e : Env) (d : Dst) (rs : List (Thread × Nat × List Byte)) : Res :=
  if Config.roundEntries < bufferUsed e.block + rs.length then
    .trap ⟨0x66, bufferUsed e.block, none, (((rs.drop (Config.roundEntries - bufferUsed e.block)).head?.map (fun r => r.1.lane)).getD 0)⟩
  else
    let (op, s) := startOp s e d 1 none (rs.map (fun r => ⟨r.1.ref, noBytes 4⟩))
    .ok (rs.foldl (fun s r =>
      let (id, s) := takeId s
      updBlock s e.block.id (fun b => { b with
        buffer := b.buffer ++ [⟨id, 0, 0, false, r.2.2, none, some (op, r.1.ref), some r.2.1, r.1.ref, e.iss.wid,
          e.origin r.1.lane, false, []⟩] })) s)

/-- The reads of the records of a LAUNCH in a still kernel (R291, R293): each touches its line, and returns what the block reads there. -/
def launchReads (s : State) (e : Env) (rs : List (Thread × Nat × Nat × Leaf)) : State × List (Thread × List Byte) :=
  (rs.foldl (fun s r => touch s e.launch.id e.block false r.2.1 r.2.2.1) s,
    rs.map (fun r => (r.1, stillBytes s e.launch e.block r.2.2.2.cached r.2.1 r.2.2.1 64)))

/-- Bytes of a line that a word reads as it issues (R230, R233): as the lake holds them, or in a still kernel with the block's own buffered
stores (R277). -/
def Env.ownBytes (e : Env) (s : State) (va pa : Nat) (leaf : Leaf) (n : Nat) : List Byte :=
  if e.still then stillBytes s e.launch e.block leaf.cached va pa n
  else e.lakeRead s leaf.cached pa n

/-- LAUNCH (R230): it waits, before it issues, for its threads' accesses to be performed at sy scope, and then appends the records. -/
def execLaunch (g : Guard) (d : Dst) (a b : Src) (s : State) : Host.Outcome State Fault Refusal :=
  issue (.launch g d a b) s (fun e s => match e.active g with
    | [] => .ok s
    | act =>
      match launchTrap e a b act with
      | some t => .trap t
      | none =>
        let va (t : Thread) : Nat := (e.src64 0 false t a).toNat
        match checkFatal s (some e.lake) e.ctx true (act.map (fun t => ⟨t.lane, va t, 64, .load, false, false⟩)) with
        | .error f => f.res
        | .ok hs =>
          let rs := (act.zip hs).map (fun r => (r.1, va r.1, r.2.1, r.2.2))
          match rs.find? (fun r => s.badLines.contains (lineOf r.2.2.1)) with
          | some r => .trap ⟨0x82, 0, some r.2.1, r.1.lane⟩
          | none =>
            let q (t : Thread) : Nat := (e.src 0 t b).toNat
            if !act.all (fun t => fenced s .rel .sy t.ref) || !actsReady s e (act.zip (hs.map Prod.snd)) then .wait
            else if e.still then
              let (s, bs) := launchReads (e.syncHost s act) e rs
              launchStill s e d (bs.map (fun r => (r.1, q r.1, r.2)))
            else
              let s := e.syncHost s act
              let (vals, s) := launchAll e.ctx.rcd.id (rs.map (fun r => (r.1.ref, q r.1, e.ownBytes s r.2.1 r.2.2.1 r.2.2.2 64))) s
              .ok (startOp s e d 1 none (vals.map (fun v => ⟨v.1, knownBytes 4 v.2⟩))).2)

/-- ROUND (R231, R294): a round point in still mode, nothing outside it. -/
def execRound (g : Guard) (s : State) : Host.Outcome State Fault Refusal :=
  issue (.round g) s (fun e s =>
    let ts := (e.active g).map Thread.ref
    if !e.still || ts.isEmpty then .ok s else .ok (holdRound (begin_ s e) e ts))

/-- TRAP (R232, R341): the software trap; its frame resumes behind it. -/
def execTrap (g : Guard) (code : BitVec 8) (s : State) : Host.Outcome State Fault Refusal :=
  issue (.trap g code) s (fun e s => match e.active g with
    | [] => .ok s
    | act => .trap ⟨0x0E, code.toNat, none, lowLane act⟩)

/-- The bytes of the fragment's trap frame (R233), or the fault or the poisoned line that reading it meets, which traps (R355, R380). -/
def frameBytes (s : State) (e : Env) : Except MemFault (List Byte) :=
  let vas := (List.range 272).map (fun i => (e.frame + 8 * i) % 2 ^ 64)
  match checkFatal s (some e.lake) e.ctx false (vas.map (fun va => ⟨lowLane e.threads, va, 8, .load, false, false⟩)) with
  | .error f => .error f
  | .ok ps =>
    match (vas.zip ps).find? (fun p => s.badLines.contains (lineOf p.2.1)) with
    | some p => .error ⟨0x82, 0, p.1, 0, lowLane e.threads, false⟩
    | none => .ok ((vas.zip ps).flatMap (fun p => e.ownBytes s p.1 p.2.1 p.2.2 8))

/-- The reading of a frame waits for its threads' earlier accesses of device pages, where the frame lies in one (R260). -/
def frameWaits (s : State) (e : Env) : Bool :=
  e.threads.any (fun t => deviceBefore s t.ref e.iss.wid) && (match xlat s (some e.lake) e.ctx e.frame with
    | .ok leaf => leaf.dev
    | .error _ => false)

/-- What the frame gives each thread of the fragment (R233). -/
def frameLanes (e : Env) (bs : List Byte) : List FrameLane :=
  let num (i n : Nat) : Nat := leNat ((bs.drop i).take n)
  e.threads.map (fun t => ⟨t.ref, BitVec.ofNat 64 (num (1120 + 8 * t.lane) 8), num (96 + 8 * t.lane) 8, (num 64 16).testBit t.lane⟩)

/-- ERET (R234, R344): the frame's address, the frame and its resume addresses are checked, and then the fragment returns. It waits,
before it issues, for its threads' own accesses. -/
def execEret (g : Guard) (a : Src) (s : State) : Host.Outcome State Fault Refusal :=
  issue (.eret g a) s (fun e s => match e.active g with
    | [] => .ok s
    | act =>
      match act.find? (fun t => (e.src64 0 false t a).toNat != e.frame) with
      | some t => .trap ⟨0x0B, 3, some (e.src64 0 false t a).toNat, t.lane⟩
      | none =>
        if !quietThreads s e.threads || frameWaits s e then .wait
        else match frameBytes s e with
          | .error f => f.res
          | .ok bs =>
            let lanes := frameLanes e bs
            match (e.threads.zip lanes).find? (fun p => !validIn e.launch.kernel.code e.launch.kernel.extent p.2.pc) with
            | some p => .trap ⟨0x0B, 5, some p.2.pc, p.1.lane⟩
            | none => .ok (afterLeave (returnFromTrap s e lanes) e.pool.id e.pond.id e.block.id))

/-- The words of a code range leave the decoded-operation caches of every core (R116, R238). -/
def dropDecoded (s : State) (ctxId lo n : Nat) : State :=
  { s with icache := s.icache.filter (fun c => !(c.ctx == ctxId && decide (c.addr < lo + n ∧ lo < c.addr + 16))) }

/-- The translations that contain words of a code range are dropped (R117, R235, R238). -/
def dropTransl (s : State) (ctxId lo n : Nat) : State :=
  updCtx s ctxId (fun c => { c with transl := c.transl.filter (fun t => !decide (t.lo < lo + n ∧ lo < t.hi)) })

/-- One replacement of SWAPC (R235). -/
def swapOne (e : Env) (b : Src) (s : State) (r : Thread × Nat × Nat × Leaf) : State :=
  let (t, va, pa, leaf) := r
  let s := e.deviceStore s t leaf.cached pa (e.datum t b 16)
  dropTransl (dropDecoded s e.ctx.rcd.id va 16) e.ctx.rcd.id va 16

/-- SWAPC (R235): it replaces the words in ascending lane and completes when it issues. -/
def execSwapc (g : Guard) (a b : Src) (s : State) : Host.Outcome State Fault Refusal :=
  issue (.swapc g a b) s (fun e s =>
    let act := e.active g
    let va (t : Thread) : Nat := (e.src64 0 false t a).toNat
    match act.find? (fun t => !e.valid (va t)) with
    | some t => .trap ⟨0x08, a.code + 2 ^ 12, none, t.lane⟩
    | none => match checkFatal s (some e.lake) e.ctx true (act.map (fun t => ⟨t.lane, va t, 16, .store, false, false⟩)) with
      | .error f => f.res
      | .ok hs => if !actsReady s e (act.zip (hs.map Prod.snd)) then .wait
        else .ok ((act.zip hs).foldl (fun s p => swapOne e b s (p.1, va p.1, p.2.1, p.2.2)) s))

/-- The sixteen registers of a shape record (R237). -/
def Env.recordOf (e : Env) (t : Thread) (b : Src) : Nat :=
  (List.range 16).foldr (fun i r => (e.srcAt t b i).toNat * 2 ^ (32 * i) + r) 0

/-- The index that a thread gives (R237). -/
def Env.objIndex (e : Env) (t : Thread) (a : Src) : Nat := (e.src 0 t a).toNat % 2 ^ 16

/-- OBJW (R237): an entry with V = 1 must be valid; the highest lane's value of one index stays. -/
def execObjw (g : Guard) (a b : Src) (s : State) : Host.Outcome State Fault Refusal :=
  issue (.objw g a b) s (fun e s =>
    let act := e.active g
    match act.find? (fun t => shapeV (e.recordOf t b) && !shapeValid (e.recordOf t b)) with
    | some t => .trap ⟨0x1F, e.objIndex t a, none, t.lane⟩
    | none =>
      match checkMem s (some e.lake) e.ctx false (act.map (fun t => ⟨t.lane, entryAddr e.ctx (e.objIndex t a), 64, .store, false, false⟩)) with
      | .error f => f.res
      | .ok hs => if !actsReady s e (act.zip (hs.map Prod.snd)) then .wait
        else .ok ((act.zip hs).foldl (fun s p =>
          e.deviceStore s p.1 p.2.2.cached p.2.1 (leBytes 64 (e.recordOf p.1 b))) s))

/-- The entries that the threads of OBJQ read (R237), in ascending lane. -/
def readEntries (s : State) (e : Env) (a : Src) (act : List Thread) : Except MemFault (List (TRef × Nat)) :=
  let rs := act.map (fun t => (t.ref, readEntry s e t.lane (e.objIndex t a)))
  match firstFault (rs.filterMap (fun r => match r.2 with | .error f => some f | .ok _ => none)) with
  | some f => .error f
  | none => .ok (rs.filterMap (fun r => match r.2 with | .ok v => some (r.1, v) | .error _ => none))

/-- OBJQ (R237): a long-latency producer of sixteen registers. -/
def execObjq (g : Guard) (d : Dst) (a : Src) (s : State) : Host.Outcome State Fault Refusal :=
  issue (.objq g d a) s (fun e s => match e.active g with
    | [] => .ok s
    | act => match readEntries s e a act with
      | .error f => f.res
      | .ok vs => if act.any (fun t => entryWaits s e t (e.objIndex t a)) then .wait
        else .ok (startOp s e d 16 none (vs.map (fun v => ⟨v.1, knownBytes 64 v.2⟩))).2)

/-- The ranges that the threads of ICINV or XLINV name (R238, R239): a length of 0 names none. -/
def Env.rangesOf (e : Env) (a b : Src) (act : List Thread) : List (Nat × Nat) :=
  (act.map (fun t => ((e.src64 0 false t a).toNat, (e.src 0 t b).toNat))).filter (fun r => r.2 != 0)

/-- The decoded words and translations of a code range are dropped (R238). -/
def dropCode (ctxId : Nat) (s : State) (r : Nat × Nat) : State := dropTransl (dropDecoded s ctxId r.1 r.2) ctxId r.1 r.2

/-- The ranges of an ICINV of a still kernel are dropped once more at the commit that performs the thread's stores of the round (R238, R294, log
72). -/
def icinvRound (s : State) (e : Env) (rs : List (Nat × Nat)) : State :=
  if e.still then updLaunch s e.launch.id (fun l => { l with icinvs := l.icinvs ++ rs }) else s

/-- ICINV (R238): it waits, before it issues, for its threads' accesses to be performed at sy scope. -/
def execIcinv (g : Guard) (a b : Src) (s : State) : Host.Outcome State Fault Refusal :=
  issue (.icinv g a b) s (fun e s =>
    let act := e.active g
    if !act.all (fun t => fenced s .rel .sy t.ref) then .wait
    else .ok ((e.rangesOf a b act).foldl (dropCode e.ctx.rcd.id)
      (icinvRound (e.syncHost s act) e (e.rangesOf a b act))))

/-- The first and the last page of a range, as an interval of addresses (R239). -/
def pagesOf (r : Nat × Nat) : Nat × Nat := (r.1 / 65536 * 65536, (r.1 + r.2 + 65535) / 65536 * 65536)

/-- The interval of addresses that a leaf translates. -/
def Leaf.span (l : Leaf) : Nat × Nat := (l.page * l.size, l.page * l.size + l.size)

/-- An address lies in one of some intervals. -/
def inSpans (l : List (Nat × Nat)) (a : Nat) : Bool := l.any (fun i => decide (i.1 ≤ a ∧ a < i.2))

/-- An invalidation drops a cached translation (R239, R261): of its context or global, and in its ranges. -/
def dropsTlb (ctxId : Nat) (ranges : List (Nat × Nat)) (all : Bool) (t : Tlb) : Bool :=
  (t.ctx == ctxId || t.leaf.glob) && (all || ranges.any (fun r => decide (t.leaf.span.1 < r.1 + r.2 ∧ r.1 < t.leaf.span.2)))

/-- The writes of still launches that wait in round buffers for the commit, each with its context (R293). -/
def commitWrites (s : State) : List (Nat × BufEntry) :=
  s.blocks.flatMap (fun b => match launch s b.launch with
    | some l => (b.buffer.filter (fun x => x.launch.isNone)).map (fun x => (l.ctx, x))
    | none => [])

/-- An invalidation begins (R239, R262): the translations are dropped, those of copy commands that have read nothing among them, and it waits
for the accesses that were translated under them. -/
def beginInval (s : State) (ctxId : Nat) (ranges : List (Nat × Nat)) (all host : Bool) : Nat × State :=
  let (id, s) := takeId s
  let gone := s.tlb.filter (dropsTlb ctxId ranges all)
  let spans := ranges.map pagesOf ++ gone.map (fun t => t.leaf.span)
  let hit (c va : Nat) : Bool := (all && c == ctxId) || inSpans spans va
  let waits := ((s.accs ++ s.slices).filter (fun y => y.space == .mem && hit y.orig.ctx y.va)).map Access.id ++
    ((commitWrites s).filter (fun x => hit x.1 x.2.va)).map (fun x => x.2.seq)
  let begun := s.copies.filter (fun c => !c.unread && hit c.orig.ctx c.va)
  (id, { s with
    tlb := s.tlb.filter (fun t => !dropsTlb ctxId ranges all t)
    copies := updWhere (fun c => c.unread && hit c.orig.ctx c.va) Copy.fresh s.copies
    invals := s.invals ++ [⟨id, ctxId, ranges, all, waits, begun.map Copy.id, begun.map Copy.wid, host, false, []⟩] })

/-- The fragment waits for its invalidation (R239). -/
def holdInval (s : State) (e : Env) (ranges : List (Nat × Nat)) (all : Bool) : State :=
  let (id, s) := beginInval s e.ctx.rcd.id ranges all false
  begin_ (updFrag s e.frag.ref (fun f => { f with hold := .inval id e.waiter })) e

/-- XLINV `.rng` (R239). -/
def execXlinvRng (g : Guard) (a b : Src) (s : State) : Host.Outcome State Fault Refusal :=
  issue (.xlinvRng g a b) s (fun e s =>
    let rs := e.rangesOf a b (e.active g)
    if rs.isEmpty then .ok s else .ok (holdInval s e rs false))
/-- XLINV `.all` (R239). -/
def execXlinvAll (g : Guard) (s : State) : Host.Outcome State Fault Refusal :=
  issue (.xlinvAll g) s (fun e s => if (e.active g).isEmpty then .ok s else .ok (holdInval s e [] true))

end Sys2Proof.Machine
end

