-- ==== Sys2Proof/Machine/Engine.lean ====
section
/-! DEFINITION. What the core and the device complete on their own: long-latency producers (04 R71), replays and invalidations (23 R358, R359;
13 R262), waits that cannot end (23 R363 to R365), held records (22 R338) and halt broadcasts (24 R371, R372). -/

namespace Sys2Proof.Machine

/-- Every byte of a producer's results has arrived. -/
def Op.ready (o : Op) : Bool := o.lanes.all (fun l => l.got.all Option.isSome)

/-- The registers that a producer's bytes make, those of fewer than four bytes extended (R182). -/
def Op.value (o : Op) (l : OpLane) : Nat :=
  let bs := l.got.map (fun b => b.getD 0)
  let v := leNat bs
  match o.ext with
  | some false => if bs.length < 4 then ((BitVec.ofNat (8 * bs.length) v).signExtend 32).toNat else v
  | _ => v

/-- A write of the producer is pool-rank (R69). -/
def opRank (s : State) (o : Op) (r : Nat) : Bool :=
  match o.lanes.head?.bind (fun l => (block s l.t.blk).bind (fun b => launch s b.launch)) with
  | some l => poolRank l.kernel.homeMap r o.tag
  | none => false

/-- A producer completes: its layered writes, register by register (R71). -/
def completeOpWrites (s : State) (o : Op) : State :=
  match o.reg with
  | none => s
  | some r => (List.range o.n).foldl (fun s i => completeWrite s (r + i) o.wid (opRank s o (r + i))
      (o.lanes.map (fun l => (l.t, BitVec.ofNat 32 (o.value l / 2 ^ (32 * i)))))) s

/-- A producer done: it leaves, and its word completes with it. -/
def retireOp (s : State) (o : Op) : State :=
  let s := completeOpWrites s o
  sweepWord { s with ops := s.ops.filter (fun x => x.id != o.id) } o.wid

/-- PRODUCER_COMPLETION (R71). -/
def execProducerCompletion (id : Nat) (s : State) : Host.Outcome State Fault Refusal :=
  match s.ops.find? (fun o => o.id == id) with
  | some o => if o.ready then .next (retireOp s o) else .fault .notEnabled
  | none => .fault .notEnabled

/-- The context, page and due bit of what is parked (R357, R360, R362). -/
def parkedAt (s : State) : ParkRef → Option (Nat × Nat × Bool)
  | .frag p i => (envAt s ⟨p, i⟩).bind (fun e => match e.frag.hold with | .parked page due => some (e.ctx.rcd.id, page, due) | _ => none)
  | .copy i => (copyOf s i).bind (fun c => c.parked.map (fun p => (c.orig.ctx, p.1, p.2)))
  | .mop i => (mop s i).bind (fun m => m.parked.map (fun p => (m.orig.ctx, p.1, p.2)))

/-- A parked word is to replay. -/
def Hold.due : Hold → Hold
  | .parked page _ => .parked page true
  | h => h

/-- What is parked is to replay (R359). -/
def setDue (s : State) : ParkRef → State
  | .frag p i => updFrag s ⟨p, i⟩ (fun f => { f with hold := f.hold.due })
  | .copy i => updCopy s i (fun c => { c with parked := c.parked.map (fun p => (p.1, true)) })
  | .mop i => updMop s i (fun m => { m with parked := m.parked.map (fun p => (p.1, true)) })

/-- Everything that may be parked. -/
def parkRefs (s : State) : List ParkRef :=
  s.frags.map (fun f => .frag f.pool f.id) ++ s.copies.map (fun c => .copy c.id) ++ s.mops.map (fun m => .mop m.id)

/-- What is parked and not yet to replay, in a context that runs. -/
def parkedIn (s : State) (ctxId : Nat) : List (ParkRef × Nat) :=
  (parkRefs s).filterMap (fun r => match parkedAt s r with
    | some (c, page, false) => if c == ctxId && (ctx s c).any Ctx.running then some (r, page) else none
    | _ => none)

/-- The invalidation covers a 64 KiB page (R358, R359). -/
def Inval.covers (v : Inval) (page : Nat) : Bool := v.all || inSpans (v.ranges.map pagesOf) (page * 65536)

/-- PARKED_REPLAY (R359): a parked word that an acknowledged invalidation covers is to issue afresh. -/
def execParkedReplay (what : ParkRef) (s : State) : Host.Outcome State Fault Refusal :=
  match s.invals.find? (fun v => v.acked && v.replays.contains what) with
  | none => .fault .notEnabled
  | some v =>
    let less (x : Inval) : Inval := if x.id == v.id then { x with replays := x.replays.filter (· != what) } else x
    let s := { s with invals := (s.invals.map less).filter (fun x => !x.acked || !x.replays.isEmpty) }
    .next (setDue s what)

/-- PARKED_REPLAY_TIMER (R359). -/
def execParkedReplayTimer (what : ParkRef) (s : State) : Host.Outcome State Fault Refusal :=
  match parkedAt s what with
  | some (c, _, false) => if (ctx s c).any Ctx.running then .next (setDue s what) else .fault .notEnabled
  | _ => .fault .notEnabled

/-- Every access under a dropped translation is performed (R262): those of threads, buffered ones among them, and what the copy commands that
had begun have written. -/
def Inval.settled (s : State) (v : Inval) : Bool :=
  v.waits.all (fun i => (s.accs ++ s.slices).all (fun y => y.id != i)) && v.copies.all (fun i => s.copies.all (fun c => c.id != i)) &&
    s.blocks.all (fun b => b.buffer.all (fun x => !v.waits.contains x.seq && !v.copies.contains x.seq)) &&
    s.slices.all (fun y => !v.writers.contains y.wid)

/-- Every dirty host line written back, so that what stands there is performed at host memory (R254 item 6, R262). -/
def flushAll (s : State) : State := (s.hostLines.filter HostLine.dirty).foldl (fun s h => writeBack s h.line false) s

/-- An invalidation is acknowledged (R239, R262, R301, R358, R359): outstanding pages leave their table, the privileged ranges follow their
virtual bytes (R246), and its fragment or the host goes on. -/
def ackInval (s : State) (v : Inval) : State :=
  let s := updCtx (flushAll s) v.ctx (fun c => { c with pages := c.pages.filter (fun p => !v.covers p) })
  let rs := ((parkedIn s v.ctx).filter (fun p => v.covers p.2)).map Prod.fst
  let done (x : Inval) : Inval := if x.id == v.id then { x with acked := true, replays := rs } else x
  let s := { refreshPriv s v.ctx with
    invals := (s.invals.map done).filter (fun x => x.id != v.id || !rs.isEmpty)
    host := if v.host then { s.host with shooting := false } else s.host }
  let free (s : State) (f : Frag) : State := match f.hold with
    | .inval i w => if i = v.id then completeWord (release s f.ref) w.wid else s
    | _ => s
  s.frags.foldl free s

/-- INVALIDATION_ACK (R262). -/
def execInvalidationAck (id : Nat) (s : State) : Host.Outcome State Fault Refusal :=
  match s.invals.find? (fun v => v.id == id && !v.acked) with
  | some v => if v.settled s then .next (ackInval s v) else .fault .notEnabled
  | none => .fault .notEnabled

/-- An LDS or ATOMS waits on an empty granule. -/
def blockedAcc (s : State) (x : Access) : Bool := x.space != .mem && !granuleReady s x

/-- The accesses of some threads that wait on empty granules. -/
def blockedOf (s : State) (ts : List Thread) : List Access := s.accs.filter (fun x => ts.any (fun t => t.ref == x.t) && blockedAcc s x)

/-- The fragment's next word: its scheduling field, and its operations where it has a form. -/
def nextWord (s : State) (e : Env) : Option (Sched × List Instr) :=
  match fetch s e with
  | .error _ => none
  | .ok (w, _) => match decodeWord w with
    | .error _ => some (schedOf w, [])
    | .ok (.one sch i) => some (sch, [i])
    | .ok (.two sch x y) => some (sch, [x, y])

/-- The words that an await distance names (R102). -/
def Frag.named (f : Frag) (d : Nat) : List Nat := if d = 0 then [] else (f.hist[d - 1]?).toList

/-- The words whose completion an operation waits for: by DRAIN, by an empty source, or by the accesses of its threads (R61, R130, R277). -/
def heldByWords (e : Env) (bs : List Access) (i : Instr) : List Nat :=
  let act := e.active (guardOfInstr i)
  let old := match i with | .drain _ k => e.frag.hist.drop k ++ e.frag.older | _ => []
  let empty := act.flatMap (fun t => (opnds (e.slotWide i act) i).flatMap (fun o =>
    if readsOpnd i o && (o.blk || e.still) then (t.marks.filter (fun m => o.regs.contains m.reg)).map Mark.wid else []))
  let own := match i with
    | .fence .. | .bar .. | .bara .. | .barw .. | .spawn .. | .launch .. | .icinv .. | .eret .. | .swapc .. | .objw .. => bs.map Access.wid
    | .atom .. | .redm .. => if e.still then bs.map Access.wid else []
    | .st _ m .. | .stm _ m .. => if e.still && m.order == .rel then bs.map Access.wid else []
    | .moprdy _ => (bs.filter (fun x => !x.isLoad)).map Access.wid
    | _ => []
  old ++ empty ++ own

/-- The LDS and ATOMS words that wait on an empty granule in some thread. -/
def blockedWords (s : State) : List Nat := (s.accs.filter (blockedAcc s)).map Access.wid

/-- The LDS or ATOMS word that holds up the fragment's next word (R363). Its registers stay empty as long as any thread of it waits on an empty
granule (R187), also one that a split has taken to another fragment. -/
def ldsHeld (s : State) (e : Env) : Option Nat :=
  let ws := blockedWords s
  if ws.isEmpty || !mayMove s e || e.waiting.isSome then none
  else match nextWord s e with
    | none => none
    | some (sch, is) => minOf ((e.frag.named sch.awA ++ e.frag.named sch.awB ++ is.flatMap (heldByWords e (blockedOf s e.threads))).filter
        ws.contains)

/-- The fragment waits in one of the ways of a stuck block (R363). -/
def stuckWait (s : State) (e : Env) : Bool :=
  match e.frag.hold with
  | .bar .. | .coll .. | .round .. | .mwait .. => true
  | .free => (ldsHeld s e).isSome || e.threads.any (atRound s)
  | _ => false

/-- The operations of a pond that wait on an empty operand granule, or behind one that does on a slot of theirs (R213, R363 item 4). -/
def stuckOps (s : State) (pd : Nat) : List MOp :=
  (pending s pd).foldl (fun l m =>
    if (emptyOperand s m).isSome || l.any (fun x => x.onSlot m.idx m.gen || m.src.any (fun p => x.onSlot p.1 p.2)) then l ++ [m] else l) []

/-- An MSTA that may still fill granules of the block (R363 item 4). -/
def mayFill (s : State) (b : Nat) (m : MOp) : Bool :=
  m.kind == .msta && m.obj.isNone && !m.done && (pond s m.pond).any (fun d => d.blk == b) && !(stuckOps s m.pond).any (fun x => x.id == m.id)

/-- The fragments of a block. -/
def blockFrags (s : State) (b : Nat) : List FRef :=
  (s.frags.filter (fun f => (pool s f.pool).any (fun p => (pond s p.pond).any (fun d => d.blk == b)))).map Frag.ref

/-- The block is stuck (R363). -/
def isStuck (s : State) (b : Block) : Bool :=
  let ts := blockThreads s b.id
  !ts.isEmpty && b.halt.isNone && !b.halted && ts.all (fun t => t.pool.isSome) &&
    (blockFrags s b.id).all (fun f => (envAt s f).any (stuckWait s)) &&
    s.copies.all (fun c => !c.toScratch || c.dests.all (fun p => (pond s p).all (fun d => d.blk != b.id))) && !s.mops.any (mayFill s b.id)

/-- The operations of a block that wait on an empty operand granule, with the granule (R364). -/
def starvedMops (s : State) (b : Nat) : List (MOp × Nat) :=
  (s.mops.filter (fun m => !m.done && m.started && (pond s m.pond).any (fun d => d.blk == b))).filterMap
    (fun m => (emptyOperand s m).map (fun g => (m, g)))

/-- The commands of a block that wait on an empty source granule, with the granule (R364). -/
def starvedCopies (s : State) (b : Nat) : List (Copy × Nat) :=
  (s.copies.filter (fun c => !c.toScratch && c.parked.isNone && c.t.blk == b)).filterMap (fun c => match c.nextUnit, pond s c.pond with
    | some (off, _), some d => if (d.gran (granOf (c.sa + off))).full then none else some (c, granOf (c.sa + off))
    | _, _ => none)

/-- A fragment that waits in an LDS or ATOMS word, with the access and the lane that its record names: its own lowest lane that waits on an
empty granule, or where all of its lanes have read, its lowest lane of the word and the lowest lane of another fragment that waits (log 66). -/
structure Starved where
  frag : FRef
  wid : Nat
  acc : Access
  lane : Nat
  deriving DecidableEq, Repr

/-- The fragment as one that waits in a word. -/
def starvedIn (s : State) (e : Env) (wid : Nat) : Option Starved :=
  let all := sortBy (fun x => (x : Access).orig.lane) ((s.accs.filter (blockedAcc s)).filter (fun x => x.wid == wid))
  let own := all.find? (fun x => e.threads.any (fun t => t.ref == x.t))
  let lane := match own with
    | some x => (thread s x.t).map Thread.lane
    | none => minOf ((e.threads.filter (fun (t : Thread) => t.marks.any (fun m => m.wid == wid))).map Thread.lane)
  (own.or all.head?).map (fun x => ⟨e.frag.ref, wid, x, lane.getD 0⟩)

/-- The fragments of a block that wait in an LDS or ATOMS, or on its destination, in the order of R340 (R364). -/
def starvedFrags (s : State) (b : Nat) : List Starved :=
  (sortBy (recordKey s) (blockFrags s b)).filterMap (fun f => (envAt s f).bind (fun e => match e.frag.hold with
    | .free => (ldsHeld s e).bind (starvedIn s e)
    | _ => none))

/-- A granule that a given-up `.take` emptied is full again as before (R364), poisoned if it was (R380). -/
def refill (s : State) (p g : Nat) : State := forgetTaken (updPond s p (fun d => d.setGran g Gran.fresh)) p g

/-- An LDS or ATOMS word that waits on empty granules is given up, in all its threads (R364): its destinations keep their values, their marks
clear, and the granules that it has taken are full as before. -/
def giveUp (s : State) (wid : Nat) : State :=
  let s := ((s.ops.filter (fun o => o.wid == wid)).flatMap Op.taken).foldl (fun s g => refill s g.1 g.2) s
  let s := { s with
    accs := s.accs.filter (fun x => x.wid != wid)
    ops := s.ops.filter (fun o => o.wid != wid) }
  sweepWord (updThreads s (fun (t : Thread) => t.marks.any (fun m => m.wid == wid)) (fun t => { t with marks := t.marks.filter (fun m => m.wid != wid) })) wid

/-- A fragment that waits in an LDS or ATOMS stops at its next word boundary (R364). -/
def stopInLds (s : State) (p : Starved) : State :=
  match frag s p.frag with
  | none => s
  | some _ =>
    let x := p.acc
    let g := 16 * granOf x.addr
    let d : Defer := ⟨true, 0x41, g + 2 ^ 20 * x.isAtom.toNat, some g, x.orig.pc, if x.orig.frag.pool == p.frag.pool then x.orig.count else 0,
      p.lane, x.orig.transl, x.orig.issued⟩
    updFrag (giveUp s p.wid) p.frag (fun f => { f with deferred := some d })

/-- A fragment at an MWAIT that covers an abandoned operation stops there (R364): it has not issued the MWAIT. -/
def stopAtMwait (detail : Nat) (s : State) (r : FRef) : State :=
  match frag s r with
  | none => s
  | some f => match f.hold with
    | .mwait _ slots w =>
      let lane := (minOf (slots.filterMap (fun x => (thread s x.1).map Thread.lane))).getD 0
      updFrag (takeBack s r w) r (fun x => { x with deferred := some ⟨true, 0x42, detail, none, w.pc, f.count - 1, lane, w.transl, w.core⟩ })
    | _ => s

/-- The fragments at an MWAIT that covers an operation. -/
def mwaitsOn (s : State) (m : MOp) : List FRef :=
  (s.frags.filter (fun f => match f.hold with | .mwait ops .. => ops.contains m.id | _ => false)).map Frag.ref

/-- An operation that waits on an empty operand granule is abandoned (R364). `fs` holds the fragments that waited at an MWAIT covering it when
the fates began; without one, an engine record is written and the block halts. -/
def starveMop (s : State) (p : MOp × Nat × List FRef) : State :=
  let (m, g, fs) := p
  let detail := (handleOf m.idx m.gen).toNat + 2 ^ 32 * (16 * g)
  let s := endOp (fs.foldl (stopAtMwait detail) (ruinHere s m)) m
  if fs.isEmpty then engineFatal s m.orig 0x42 detail none else s

/-- A command that waits on an empty source granule is abandoned (R364). -/
def starveCopy (s : State) (p : Copy × Nat) : State :=
  retireCopy (engineFatal s p.1.orig 0x43 (2 ^ 16 * (p.1.orig.lane % 128) + 2 ^ 24 * p.1.entry + 2 ^ 32 * (16 * p.2)) none) p.1

/-- The words that the threads of a block have issued, as it stands when the fates of R364 are applied. -/
def stuckMark (s : State) (b : Nat) : List DWord := (blockThreads s b).map Thread.retired

/-- STUCK_BLOCK (R363, R364): the fates are applied once until the block leaves its stuck state. -/
def execStuckBlock (b : Nat) (s : State) : Host.Outcome State Fault Refusal :=
  match block s b with
  | none => .fault .notEnabled
  | some blk =>
    let fs := starvedFrags s b
    let ms := (starvedMops s b).map (fun p => (p.1, p.2, mwaitsOn s p.1))
    let cs := starvedCopies s b
    if !isStuck s blk || blk.stuckAt == stuckMark s b || (fs.isEmpty && ms.isEmpty && cs.isEmpty) then .fault .notEnabled
    else
      let s := cs.foldl starveCopy (ms.foldl starveMop (fs.foldl stopInLds s))
      .next (updBlock s b (fun x => { x with stuckAt := stuckMark s b }))

/-- The fresh operations of a core that wait for a physical slot, in queue order (R215). -/
def slotWaiters (s : State) (core : Nat) : List MOp := (queued s core).filter (fun m => !m.started && needsSlot s m)

/-- The core is in reservoir deadlock for a context (R365). -/
def deadlocked (s : State) (core ctxId : Nat) : Bool :=
  let holders := s.ponds.filter (fun d => d.core == some core && d.held.any RSlot.phys)
  Config.slotsPerCore ≤ physUsed s core && holders.all (fun d =>
    (block s d.blk).any (fun b => (launch s b.launch).any (fun l => l.ctx == ctxId) &&
      ((slotWaiters s core).any (fun m => m.pond == d.id) || isStuck s b)))

/-- A fresh operation without its slot is abandoned (R365): its index is free again. -/
def abandonFresh (s : State) (m : MOp) : State :=
  let s := updPond s m.pond (fun d => { d with held := d.held.filter (fun r => !(r.idx == m.idx && r.gen == m.gen)) })
  match m.kind with
  | .alloc =>
    let s := match m.dreg with
      | some r => completeWrites s r (mopRank s m r) (m.signers.map (fun x => (x.t, x.wid, 0)))
      | none => s
    endOp s m
  | _ => endOp (deferTo (forgetOp s m.id m.words) m.signers 0x44 (if m.kind == .mma then m.conv else 15) none) m

/-- The waiting operation that a reservoir deadlock of a core abandons (R365): the youngest one of the context whose ponds hold the slots. -/
def deadlockVictim (s : State) (core : Nat) : Option MOp :=
  (slotWaiters s core).reverse.find? (fun m => (ctx s m.orig.ctx).any Ctx.running && deadlocked s core m.orig.ctx)

/-- RESERVOIR_DEADLOCK (R365): the youngest waiting operation is abandoned. -/
def execReservoirDeadlock (core : Nat) (s : State) : Host.Outcome State Fault Refusal :=
  match deadlockVictim s core with
  | some m => .next (abandonFresh s m)
  | none => .fault .notEnabled

/-- FAULT_QUEUE_RETRY (R338, R339): the held records of a context go to its queue as far as it takes them. -/
def execFaultQueueRetry (c : Nat) (s : State) : Host.Outcome State Fault Refusal :=
  match ctx s c with
  | none => .fault .notEnabled
  | some x =>
    let s' := flushHeld c (x.held.length + 1) s
    if x.running && (ctx s' c).any (fun y => decide (y.held.length < x.held.length) || (y.stalled && !x.stalled)) then .next s'
    else .fault .notEnabled

/-- The cores on which a block has a pond. -/
def blockCores (s : State) (b : Nat) : List Nat := (s.ponds.filter (fun d => d.blk == b)).filterMap Pond.core

/-- Every fragment of a halting block has stopped, and the broadcast has reached every core of it (R371). -/
def allStopped (s : State) (b : Block) : Bool :=
  (blockCores s b.id).all (fun c => b.reached.contains c) &&
    (blockFrags s b.id).all (fun r => (frag s r).any (fun f => f.stopped || f.hold == .faulted))

/-- The HALT record of a fragment that the broadcast has stopped (R372), which names no lane (R337: no check failed); one that stopped at its own trap writes none (R375). -/
def haltRecord (seq : Nat) (s : State) (r : FRef) : State :=
  match envAt s r with
  | none => s
  | some e => if e.frag.hold == .faulted then s
    else queueRecord s e.ctx.rcd.id (e.rcd 0x60 seq none e.frag.pc e.frag.skid 0 false true false) (some r)

/-- The HALT records of a block, in ascending core, pool and fragment (R372); the block is halted. -/
def writeHalts (s : State) (b : Block) : State :=
  let s := (sortBy (recordKey s) (blockFrags s b.id)).foldl (haltRecord (b.halt.getD 0)) s
  updBlock s b.id (fun x => { x with halted := true })

/-- A halt broadcast reaches a core (R371), from where the words that its pools and fragments issue count. -/
def reachCore (s : State) (b core : Nat) : State :=
  let here (p : Nat) : Bool := (pool s p).any (fun p => (pond s p.pond).any (fun d => d.blk == b && d.core == some core))
  updBlock { s with
    pools := updWhere (fun p => here p.id) (fun p => { p with skid := 0 }) s.pools
    frags := updWhere (fun f => here f.pool) (fun f => { f with skid := 0 }) s.frags } b
    (fun x => { x with reached := x.reached ++ [core] })

/-- HALT_BROADCAST_ARRIVAL (R371, R372): the broadcast reaches a core of the block; or, once it has reached them all and every fragment has
stopped, they write their records. -/
def execHaltBroadcastArrival (b core : Nat) (s : State) : Host.Outcome State Fault Refusal :=
  match block s b with
  | none => .fault .notEnabled
  | some x =>
    if x.halt.isNone || x.halted || !(blockCores s b).contains core then .fault .notEnabled
    else if !x.reached.contains core then .next (reachCore s b core)
    else if allStopped s x then .next (writeHalts s x) else .fault .notEnabled

/-- The events of this file that may take place. -/
def engineEvents (s : State) : List Instr :=
  s.ops.map (fun o => .producerCompletion o.id) ++ s.invals.map (fun v => .invalidationAck v.id) ++
    s.invals.flatMap (fun v => v.replays.map Instr.parkedReplay) ++ (parkRefs s).map Instr.parkedReplayTimer ++
    s.blocks.map (fun b => .stuckBlock b.id) ++ (List.range Config.cores).map Instr.reservoirDeadlock ++
    s.ctxs.map (fun c => .faultQueueRetry c.rcd.id) ++
    s.blocks.flatMap (fun b => (blockCores s b.id).map (fun c => .haltBroadcastArrival b.id c))

end Sys2Proof.Machine
end

