-- ==== Sys2Proof/Machine/Launch.lean ====
section
/-! DEFINITION. Launches (15 R282 to R292, 03 R40 to R43, 13 R243, R246, R249): doorbells, starts with their checks, placement and admission of
blocks, the release of ponds, and completion. -/

namespace Sys2Proof.Machine

/-- A range of a context's area can be read (R285). -/
def readable (s : State) (c : Ctx) (va n : Nat) : Bool :=
  (spansOf s c va n).all (fun p => match p.2.2 with
    | some (a, leaf) => leaf.r && s.badLines.all (fun l => !(decide (l * 128 < a + (p.2.1 - p.1) ∧ a < (l + 1) * 128)))
    | none => false)

/-- DOORBELL (R283): the host's new TAIL of a host-owned queue; other values are ignored. -/
def execDoorbell (c q : Nat) (tail : Word) (s : State) : Host.Outcome State Fault Refusal :=
  match ctx s c with
  | none => .next s
  | some x =>
    let h := header s x q
    if !s.host.go || 16 ≤ q || hdrOwner h || decide (diff32 tail.toNat (hdrDone h) < diff32 (hdrTail h) (hdrDone h)) ||
      decide (hdrSize h < diff32 tail.toNat (hdrDone h)) then .next s
    else .next (refreshPriv (putCounter s x q 0 tail.toNat) c)

/-- A record that belongs to no fragment (R369). -/
def deviceRecord (s : State) (ctxId : Nat) (r : Rec) : State := queueRecord s ctxId { r with ctx := ctxId }

/-- A launch fault (R285, R368, R369): EN clears and HEAD stays; the conditions of the record that takes its place are read anew. -/
def launchFault (s : State) (c : Ctx) (q h cause field under extra : Nat) : State :=
  let s := clearEn s c q h
  let detail := hdrHead h + 2 ^ 32 * q + 2 ^ 40 * field + 2 ^ 48 * extra + 2 ^ 56 * under
  let s := updCtx s c.rcd.id (fun x => { x with met := x.met.filter (fun m => m.1 != q) })
  refreshPriv (deviceRecord s c.rcd.id { cause := cause, detail := detail, addr := some (recAddr h (hdrHead h)), core := 0xFF }) c.rcd.id

/-- COMP, LO and SPAN of a tile field (R284). -/
def tileField (f : Nat) : Nat × Nat × Nat := (bits f 9 2, bits f 4 5, bits f 0 4)

/-- A tile field that breaks the rules of R284. -/
def tileBad (f : Nat) : Bool :=
  let (comp, lo, span) := tileField f
  if comp = 0 then lo != 0 || span != 0 else decide ((if comp = 1 then 30 else 15) < lo + span)

/-- The lowest bit of the first field of some checks that fails (R368). -/
def lowestBad (cs : List (Nat × Bool)) : Option Nat := minOf ((cs.filter Prod.snd).map Prod.fst)

/-- The failing field of a launch record (R284); ARGS matters when the descriptor places arguments. -/
def recordBad (r argc : Nat) : Option Nat :=
  let tile (lo : Nat) : Nat × Bool := (lo, r.testBit 207 && tileBad (bits r lo 11))
  lowestBad [(0, bits r 0 64 % 128 != 0), (64, argc != 0 && bits r 64 64 % 16 != 0), (128, bits r 128 31 == 0), (159, r.testBit 159),
    (160, bits r 160 16 == 0), (176, bits r 176 16 == 0), (192, bits r 192 14 == 0 || decide (8192 < bits r 192 14)), tile 208, tile 219,
    tile 230, (256, bits r 256 64 % 8 != 0), (384, bits r 384 64 % 8 != 0)]

/-- The reserved fields of a descriptor: lowest bit and width (R287). -/
def descReserved : List (Nat × Nat) :=
  [(202, 6), (215, 1), (236, 4), (245, 3), (253, 3), (259, 5), (281, 1), (315, 5), (384, 640)]

/-- ARGCOUNT of a descriptor. -/
def descArgs (d : Nat) : Nat := bits d 274 7

/-- The failing field of a kernel descriptor with its argument map (R287); a rule that joins ARGMAP with REGS or with ARGCOUNT names the lower field (R368). -/
def descBad (d : Nat) (args : List Nat) : Option Nat :=
  let regs := bits d 192 10
  let am := bits d 320 64
  lowestBad ([(0, bits d 0 64 % 16 != 0 || decide (2 ^ 57 ≤ bits d 0 64)), (64, bits d 64 32 == 0 || bits d 64 32 % 16 != 0),
    (96, bits d 96 32 % 16 != 0 || decide (bits d 64 32 ≤ bits d 96 32)), (128, bits d 128 64 % 8 != 0),
    (192, regs == 0 || decide (768 < regs) || args.any (fun r => decide (regs ≤ r))), (208, bits d 208 7 == 0 || decide (64 < bits d 208 7)),
    (216, decide (Config.scratchBytes < bits d 216 20) || bits d 216 20 % 16 != 0), (240, decide (16 < bits d 240 5)),
    (248, decide (16 < bits d 248 5)), (256, decide (4 < bits d 256 3)), (272, bits d 272 2 == 3), (274, decide (64 < descArgs d) || (descArgs d == 0) != (am == 0)),
    (282, tileBad (bits d 282 11)), (293, tileBad (bits d 293 11)), (304, tileBad (bits d 304 11)),
    (320, am % 8 != 0 || decide ((distinct args).length < args.length))] ++ descReserved.map (fun p => (p.1, bits d p.1 p.2 != 0)))

/-- The kernel that a descriptor with its maps describes (R287). -/
def kernelOf (d : Nat) (args : List Nat) (homeMap : Nat) : Kernel where
  code := bits d 0 64
  extent := bits d 64 32
  entry := bits d 96 32
  regs := bits d 192 10
  preds := bits d 208 7
  scratch := bits d 216 20
  barriers := bits d 240 5
  conv := bits d 248 5
  width := if bits d 256 3 = 0 then 0 else 8 * 2 ^ bits d 256 3
  still := d.testBit 272
  restart := d.testBit 273
  gen := bits d 264 8
  homeMap := homeMap
  args := args
  tile := [bits d 282 11, bits d 293 11, bits d 304 11]

/-- The lakes of a context that a launch may use (R41). -/
def usableLakes (s : State) (c : Ctx) : List Nat :=
  (List.range Config.lakes).filter (fun l => c.rcd.lakes.testBit l && s.badCores.all (fun k => Config.lakeOf k != l))

/-- Blocks of a launch (R40). -/
def Launch.blocks (l : Launch) : Nat := l.gx * l.gy * l.gz
/-- The index of a block (R40). -/
def Launch.index (l : Launch) (lin : Nat) : Nat × Nat × Nat := (lin % l.gx, lin / l.gx % l.gy, lin / (l.gx * l.gy))

/-- A tile field of a block (R41). -/
def tileOfBlock (l : Launch) (lin k : Nat) : Nat :=
  let (comp, lo, span) := tileField (l.tile.getD k 0)
  let (x, y, z) := l.index lin
  let v := if comp = 1 then x else if comp = 2 then y else z
  if comp = 0 then 0 else (v >>> lo) % 2 ^ (span + 1)

/-- The lake of a block (R41). -/
def Launch.lakeOf (l : Launch) (lin : Nat) : Nat :=
  let none_ := l.tile.all (fun f => (tileField f).1 == 0)
  let tx := if none_ then lin % 2 ^ 16 else tileOfBlock l lin 0
  let h := (tx * 40503 + tileOfBlock l lin 1 * 19793 + tileOfBlock l lin 2 * 11) % 65536
  l.lakes.getD (h % l.lakes.length) 0

/-- What placement counts on a core (R42): its threads and the allocations of its scratchpad. -/
structure Room where
  core : Nat
  threads : Nat
  runs : List (Nat × Nat)
  deriving DecidableEq, Repr

/-- A core as it stands. -/
def roomOf (s : State) (core : Nat) : Room :=
  ⟨core, residents s core, (s.ponds.filter (fun d => d.core == some core && d.size != 0)).map (fun d => (d.base, d.size))⟩

/-- The cores of a lake that take ponds, as they stand (R382). -/
def roomsOf (s : State) (lake : Nat) : List Room := (((List.range 4).map (4 * lake + ·)).filter (fun c => !s.badCores.contains c)).map (roomOf s)
/-- The cores of a lake of the empty partition. -/
def emptyRooms (lake : Nat) : List Room := (List.range 4).map (fun i => ⟨4 * lake + i, 0, []⟩)

/-- The lowest-addressed free run of a scratchpad (R249). -/
def Room.freeRun (r : Room) (size : Nat) : Option Nat :=
  if size = 0 then some 0
  else minOf ((0 :: r.runs.map (fun x => x.1 + x.2)).filter (fun a => decide (a + size ≤ Config.scratchBytes) && !r.runs.any (meets a size)))

/-- A pond of a plan: its core, threads and base. -/
structure Seat where
  core : Nat
  count : Nat
  base : Nat
  deriving DecidableEq, Repr

/-- `n` threads over some cores in their order (R42): every pond but the last a multiple of 128, and each core takes as many as it has free (log 51). -/
def seatOn (size : Nat) : List Room → Nat → Option (List Seat)
  | [], n => if n = 0 then some [] else none
  | r :: rest, n =>
    if n = 0 then some [] else
    let free := Config.threadsPerCore - r.threads
    let take := if rest.isEmpty then n else min n (free / 128 * 128)
    if free < take then none
    else if take = 0 then seatOn size rest n
    else match r.freeRun size, seatOn size rest (n - take) with
      | some base, some l => some (⟨r.core, take, base⟩ :: l)
      | _, _ => none

/-- A block of `n` threads on the fewest cores of its lake (R42). -/
def planBlock (rooms : List Room) (n size : Nat) : Option (List Seat) :=
  let ok := rooms.filter (fun r => decide (r.threads < Config.threadsPerCore) && (r.freeRun size).isSome)
  let order := sortBy (fun r => (r : Room).threads) (sortBy Room.core ok)
  firstSome (fun k => seatOn size (order.take (k + 1)) n) (List.range order.length)

/-- A core once a plan is made. -/
def Room.take (size : Nat) (plan : List Seat) (r : Room) : Room :=
  match plan.find? (fun p => p.core == r.core) with
  | some p => { r with threads := r.threads + p.count, runs := if size = 0 then r.runs else (p.base, size) :: r.runs }
  | none => r

/-- Plans for blocks `lin` up, each in its lake, all at once (R289, R290). -/
def planAll (l : Launch) : Nat → Nat → List Room → Option (List (Nat × Nat × List Seat))
  | 0, _, _ => some []
  | k + 1, lin, rooms =>
    let lake := l.lakeOf lin
    match planBlock (rooms.filter (fun r => Config.lakeOf r.core == lake)) l.bsize l.kernel.scratch with
    | none => none
    | some plan => (planAll l k (lin + 1) (rooms.map (Room.take l.kernel.scratch plan))).map (fun r => (lin, lake, plan) :: r)

/-- Block slots of a context that are held (R243). -/
def slotsHeld (s : State) (ctxId : Nat) : List Nat :=
  (s.blocks.filter (fun b => (launch s b.launch).any (fun l => l.ctx == ctxId))).map Block.slot ++
    (s.launches.filter (fun l => l.ctx == ctxId)).flatMap (fun l => l.again.map Again.slot)

/-- The pond copies of a launch (R66): its arguments, and the index components in the lowest registers that hold none. -/
def launchBank (l : Launch) (lin : Nat) : Map Word :=
  let (x, y, z) := l.index lin
  let free := ((List.range l.kernel.regs).filter (fun r => !l.kernel.args.contains r)).take 3
  let put (m : Map Word) (p : Nat × Word) : Map Word := mapSet m p.1 p.2
  (l.kernel.args.zip l.argWords ++ free.zip [BitVec.ofNat 32 x, BitVec.ofNat 32 y, BitVec.ofNat 32 z]).foldl put []

/-- A pond as its block is admitted (R53, R66, R186). -/
def newPond (l : Launch) (id blk idx : Nat) (p : Seat) (grant : Nat) (bank : Map Word) : Pond where
  id := id
  blk := blk
  idx := idx
  core := some p.core
  base := p.base
  size := l.kernel.scratch
  grant := grant
  bank := bank
  qbank := []
  poison := []
  conv := []
  scratch := []
  grans := []
  badGrans := []
  held := []
  gens := []
  expired := []
  draining := []
  struck := none
  rots := []

/-- A launched thread, filed in its launch well (R44, R66). -/
def newThread (l : Launch) (blk tid pond entry : Nat) : Thread where
  blk := blk
  tid := tid
  pond := pond
  entry := entry
  place := .well .launch (l.kernel.code + l.kernel.entry)
  springs := []
  slots := []
  preds := 0
  fflags := 0
  retired := 0
  stack := []
  spilled := 0
  marks := []
  bars := []
  handler := false
  observed := []
  poison := []
  setw := none
  deferred := []
  uses := []

/-- The grant of a pond as it is dispatched (R53). -/
def firstGrant (s : State) (c : Ctx) (l : Launch) (core : Nat) : Nat :=
  if l.kernel.width ≠ 0 then l.kernel.width else if l.kernel.still then 128 else gwnOf s c core

/-- The ponds of a plan, from pond `idx` and thread `tid` up, and their numbers. -/
def addPonds (c : Ctx) (l : Launch) (blk lin : Nat) : Nat → Nat → List Seat → State → List Nat × State
  | _, _, [], s => ([], s)
  | idx, tid, p :: r, s =>
    let (id, s) := takeId s
    let s := { s with
      ponds := s.ponds ++ [newPond l id blk idx p (firstGrant s c l p.core) (launchBank l lin)]
      threads := s.threads ++ (List.range p.count).map (fun i => newThread l blk (tid + i) id i) }
    let (ids, s) := addPonds c l blk lin (idx + 1) (tid + p.count) r s
    (id :: ids, s)

/-- A block admitted by a plan (R40, R43): its slot, its ponds and its threads. -/
def takeIn (s : State) (c : Ctx) (l : Launch) (lin lake slot restarts : Nat) (plan : List Seat) : List Nat × State :=
  let (id, s) := takeId s
  let (x, y, z) := l.index lin
  let b : Block := ⟨id, l.id, lin, x, y, z, some lake, slot, none, [], false, false, restarts, [], [], false, []⟩
  addPonds c l id lin 0 0 plan { s with blocks := s.blocks ++ [b] }

/-- The launch wells of admitted ponds are drained at once (R45). -/
def drainAll (s : State) (still : Bool) (ps : List Nat) : State := ps.foldl (fun s p => drainNow p Config.poolsPerCore (setAllDraws s p still)) s

/-- Blocks admitted together, each in the lowest free slot, before any of them starts (R43, R289, R290). -/
def takeInAll (c : Ctx) (l : Launch) : List (Nat × Nat × List Seat) → State → List Nat × State
  | [], s => ([], s)
  | (lin, lake, plan) :: r, s =>
    let slot := (lowestFree (slotsHeld s c.rcd.id) c.rcd.bslots 0).getD 0
    let (ps, s) := takeIn s c l lin lake slot 0 plan
    let (qs, s) := takeInAll c l r s
    (ps ++ qs, s)

/-- The blocks that are admitted together before any starts, none for an ordinary launch. -/
def Launch.together (l : Launch) : Bool := l.coop || l.kernel.still

/-- The round-buffer header of a queue (R292). -/
def roundHeader (c : Ctx) (q : Nat) : Nat := (c.rcd.qbase + 1024 + 64 * q) % 2 ^ 64

/-- The entries of an ownership table (R292): BASE, LINES and STATES, with whether the rules of the table hold from the address `lo` up. -/
def ownEntries (s : State) (c : Ctx) : Nat → Nat → Nat → List (Nat × Nat × Nat) × Bool
  | 0, _, _ => ([], true)
  | k + 1, va, lo =>
    match areaRead s c va 32 with
    | .error _ => ([], false)
    | .ok bs =>
      let e := leNat bs
      let base := bits e 0 57
      let lines := bits e 128 32
      let sts := bits e 192 64
      let ok := base % 128 == 0 && sts % 8 == 0 && lines != 0 && decide (lo ≤ base) && readable s c sts (8 * lines)
      let (r, ok') := ownEntries s c k (va + 32) (base + 128 * lines)
      ((base, lines, sts) :: r, ok && ok')

/-- What a still launch takes from its round-buffer header (R246, R292): the ranges of a table that holds its rules, and its areas. -/
def stillAreas (s : State) (c : Ctx) (h : Nat) : List (Nat × Nat × Nat) × List (Nat × Nat) :=
  let own := bits h 0 64
  let n := bits h 64 32
  let (es, ok) := ownEntries s c n own 0
  (if ok && own % 32 == 0 then es else [],
    [(bits h 128 64, c.rcd.bslots * 262144), (own, 32 * n)] ++ es.map (fun e => (e.2.2, 8 * e.2.1)))

/-- A check of the start that fails: the cause, the field and the underlying cause (R285, R368). -/
structure StartFault where
  cause : Nat
  field : Nat := 0
  under : Nat := 0
  extra : Nat := 0
  deriving DecidableEq, Repr

/-- An area that the start reads, or the fault of not reading it. -/
def startRead (s : State) (c : Ctx) (va n cause field : Nat) : Except StartFault Nat :=
  match areaRead s c va n with
  | .ok bs => .ok (leNat bs)
  | .error u => .error ⟨cause, field, u, 0⟩

/-- The descriptor's maps and the field that reading them fails at (R285, R287): argument registers, home ranks, and the failures. -/
def readMaps (s : State) (c : Ctx) (d : Nat) : List Nat × Nat × List (Nat × Nat) :=
  let am := bits d 320 64
  let hm := bits d 128 64
  let n := descArgs d
  let a : List Nat × List (Nat × Nat) :=
    if n = 0 ∨ am = 0 ∨ am % 8 ≠ 0 ∨ 64 < n then ([], [])
    else match areaRead s c am (2 * n) with
      | .ok bs => ((chunks 2 n bs).map leNat, [])
      | .error u => ([], [(320, u)])
  let h : Nat × List (Nat × Nat) :=
    if hm = 0 ∨ hm % 8 ≠ 0 then (0, [])
    else match areaRead s c hm 96 with
      | .ok bs => (leNat bs, [])
      | .error u => (0, [(128, u)])
  (a.1, h.1, a.2 ++ h.2)

/-- The failing field of a descriptor and its maps, with the underlying cause where an area was unreadable. -/
def descFault (d : Nat) (args : List Nat) (unread : List (Nat × Nat)) : Option StartFault :=
  let all := ((descBad d args).map (fun lo => (lo, 0))).toList ++ unread
  (sortBy Prod.fst all).head?.map (fun p => ⟨0x62, p.1 / 64, p.2, 0⟩)

/-- The launch that a record and its descriptor describe, before it is placed. -/
def openLaunch (id q : Nat) (c : Ctx) (h r : Nat) (k : Kernel) (args lakes : List Nat) (still : List (Nat × Nat × Nat) × List (Nat × Nat)) : Launch :=
  let n := bits r 128 31 * bits r 160 16 * bits r 176 16
  let res := bits r 241 15
  let coop := r.testBit 206
  let m := if coop ∨ res = 0 ∨ n < res then n else res
  { id := id, ctx := c.rcd.id, queue := q, seq := hdrHead h, prio := hdrPrio h
    gx := bits r 128 31, gy := bits r 160 16, gz := bits r 176 16, bsize := bits r 192 14, coop := coop
    tile := if r.testBit 207 then [bits r 208 11, bits r 219 11, bits r 230 11] else k.tile
    argWords := args.map (BitVec.ofNat 32), kernel := k, lakes := lakes
    resident := if k.still then m else n
    next := 0, waiting := [], again := [], started := !(coop || k.still), killed := [], round := 0, newlyEnded := 0
    ranges := still.1, areas := still.2, unread := [], icinvs := [], touched := [] }

/-- The start of record HEAD of a queue past its conditions (R285 to R290): its reads and checks in their order. -/
def startChecks (s : State) (c : Ctx) (q h r : Nat) : Except StartFault Launch :=
  let desc := startRead s c (bits r 0 64) 128 0x62 0xFF
  let argc := match desc with | .ok d => descArgs d | .error _ => 0
  match recordBad r argc with
  | some lo => .error ⟨0x61, lo / 64, 0, 0⟩
  | none =>
    match desc with
    | .error f => .error f
    | .ok d =>
      let (args, hm, unread) := readMaps s c d
      match descFault d args unread with
      | some f => .error f
      | none =>
        let k := kernelOf d args hm
        match if argc = 0 then .ok 0 else startRead s c (bits r 64 64) (4 * argc) 0x61 1 with
        | .error f => .error f
        | .ok av =>
          match if k.still then startRead s c (roundHeader c q) 64 0x61 0xFE else .ok 0 with
          | .error f => .error f
          | .ok rh =>
            if k.still && !feature s 4 then .error ⟨0x65, 0, 0, 4⟩
            else
              let words := (List.range argc).map (fun i => bits av (32 * i) 32)
              let l := openLaunch s.nextId q c h r k words (usableLakes s c) (if k.still then stillAreas s c rh else ([], []))
              let rooms := l.lakes.flatMap emptyRooms
              if l.lakes.isEmpty then .error ⟨0x63, 0, 0, 0⟩
              else if l.together && (decide (c.rcd.bslots < l.resident) || (planAll l l.resident 0 rooms).isNone) then
                .error ⟨if k.still then 0x64 else 0x63, 0, 0, 0⟩
              else .ok l

/-- The loader rewrites a code extent (R119): the words that no translation reaches as yet, and the state. -/
def rewriteCode (c : Ctx) : Nat → Nat → State → List Nat × State
  | 0, _, s => ([], s)
  | k + 1, va, s => match rewriteWord s c va with
    | some s => rewriteCode c k (va + 16) s
    | none =>
      let r := rewriteCode c k (va + 16) s
      (va :: r.1, r.2)

/-- The kernel's code before its first use (R119). What decoded-operation caches hold of a code extent that the loader rewrites goes (log 81). -/
def loadCode (s : State) (c : Ctx) (k : Kernel) : List Nat × State :=
  if k.gen = 0 ∨ k.gen = 4 then ([], s)
  else
    let r := rewriteCode c (k.extent / 16) k.code s
    (r.1, dropDecoded r.2 c.rcd.id k.code k.extent)

/-- The record that a queue would start next (R285 items 1 and 2): the header. -/
def startable (s : State) (c q : Nat) : Option (Ctx × Nat) :=
  match ctx s c with
  | none => none
  | some x =>
    let h := header s x q
    if atWork s && x.running && q < 16 && hdrEn h && hdrTail h != hdrHead h && hdrDone h == hdrHead h &&
      !s.launches.any (fun l => l.ctx == c && l.queue == q) then some (x, h) else none

/-- The wait conditions of a record (R284): each with its number, address and value. -/
def conditions (r : Nat) : List (Nat × Nat × Nat) :=
  ([(0, bits r 256 64, bits r 320 64), (1, bits r 384 64, bits r 448 64)]).filter (fun w => w.2.1 != 0)

/-- A wait condition as it is read now: met, not met, or unreadable with its cause (R285). -/
def condition (s : State) (c : Ctx) (q : Nat) (w : Nat × Nat × Nat) : Except (Nat × Nat) Bool :=
  if c.met.contains (q, w.1) then .ok true
  else match areaRead s c w.2.1 8 with
    | .ok bs => .ok (decide (w.2.2 ≤ leNat bs))
    | .error u => .error (if w.1 = 0 then 4 else 6, u)

/-- The first unreadable condition: the field that names it and the cause. -/
def unreadCond (s : State) (c : Ctx) (q r : Nat) : Option (Nat × Nat) :=
  firstSome (fun w => match condition s c q w with | .error e => some e | .ok _ => none) (conditions r)

/-- A condition that holds now. -/
def condMet (s : State) (c : Ctx) (q : Nat) (w : Nat × Nat × Nat) : Bool := match condition s c q w with | .ok b => b | .error _ => false

/-- ROUND of the round-buffer header of a queue written (R292). -/
def putRound (s : State) (c : Ctx) (q n : Nat) : State := areaPut s c (roundHeader c q + 28) 4 (n % 2 ^ 32)

/-- A launch started (R285): HEAD rises, dispatch begins, and a still launch is in round 0 (R292). -/
def startLaunch (s : State) (c : Ctx) (q h : Nat) (l : Launch) : State :=
  let (unread, s) := loadCode (putCounter s c q 1 (hdrHead h + 1)) c l.kernel
  let s := updCtx { s with launches := s.launches ++ [{ l with unread := unread }], nextId := s.nextId + 1 } c.rcd.id (fun x => { x with met := x.met.filter (fun m => m.1 != q) })
  refreshPriv (if l.kernel.still then putRound s c q 0 else s) c.rcd.id

/-- LAUNCH_START (R285): record HEAD of a queue starts once its conditions hold, or fails with a launch fault. -/
def execLaunchStart (c q : Nat) (s : State) : Host.Outcome State Fault Refusal :=
  match startable s c q with
  | none => .fault .notEnabled
  | some (x, h) =>
    match areaRead s x (recAddr h (hdrHead h)) 64 with
    | .error u => .next (launchFault s x q h 0x61 0xFF u 0)
    | .ok bs =>
      let r := leNat bs
      match unreadCond s x q r with
      | some (f, u) => .next (launchFault s x q h 0x61 f u 0)
      | none =>
        if !(conditions r).all (condMet s x q) then .fault .notEnabled
        else match startChecks s x q h r with
          | .error f => .next (launchFault s x q h f.cause f.field f.under f.extra)
          | .ok l => .next (startLaunch s x q h l)

/-- WAIT_CONDITION_REREAD (R285): a condition that holds is not read again; an unreadable one fails the start. -/
def execWaitConditionReread (c q : Nat) (s : State) : Host.Outcome State Fault Refusal :=
  match startable s c q with
  | none => .fault .notEnabled
  | some (x, h) =>
    match areaRead s x (recAddr h (hdrHead h)) 64 with
    | .error _ => .fault .notEnabled
    | .ok bs =>
      let r := leNat bs
      match unreadCond s x q r with
      | some (f, u) => .next (launchFault s x q h 0x61 f u 0)
      | none =>
        let held := ((conditions r).filter (fun w => condMet s x q w && !x.met.contains (q, w.1))).map (fun w => (q, w.1))
        if held.isEmpty then .fault .notEnabled else .next (updCtx s c (fun y => { y with met := y.met ++ held }))

/-- A block that the dispatcher places next: its index, lake, slot, restarts and plan; and the blocks passed over on the way. -/
structure Pick where
  lin : Nat
  lake : Nat
  slot : Nat
  restarts : Nat
  plan : List Seat
  passed : List Nat
  deriving DecidableEq, Repr

/-- The plan of a block in a lake as it stands. -/
def planIn (s : State) (l : Launch) (lake : Nat) : Option (List Seat) := planBlock (roomsOf s lake) l.bsize l.kernel.scratch

/-- The first block from `lin` up whose lake has room; `full` holds the lakes found without room (R43). -/
def scanBlocks (s : State) (l : Launch) (slot : Nat) : Nat → Nat → List Nat → List Nat → Option Pick
  | 0, _, _, _ => none
  | k + 1, lin, full, passed =>
    let lake := l.lakeOf lin
    if l.lakes.all full.contains then none
    else if full.contains lake then scanBlocks s l slot k (lin + 1) full (passed ++ [lin])
    else match planIn s l lake with
      | some plan => some ⟨lin, lake, slot, 0, plan, passed⟩
      | none => if l.kernel.still then none else scanBlocks s l slot k (lin + 1) (lake :: full) (passed ++ [lin])

/-- The blocks of a launch below `next` that wait, in block-linear order (R43, R288, R299): one that is to start again has its slot, lake and
count, another takes the lowest free slot. -/
def waitingBlocks (l : Launch) (slot : Option Nat) : List Again :=
  sortBy Again.lin (l.again ++ (match slot with
    | some k => l.waiting.map (fun n => ⟨n, k, l.lakeOf n, 0⟩)
    | none => []))

/-- The next block of a started launch that finds room (R43, R288, R290, R299). -/
def pickBlock (s : State) (c : Ctx) (l : Launch) : Option Pick :=
  let slot := lowestFree (slotsHeld s c.rcd.id) c.rcd.bslots 0
  let old := firstSome (fun a => (planIn s l (a : Again).lake).map (fun p => (⟨a.lin, a.lake, a.slot, a.restarts, p, []⟩ : Pick)))
    (waitingBlocks l slot)
  match old, slot with
  | some p, _ => some p
  | none, none => none
  | none, some slot =>
    if l.kernel.still && l.newlyEnded = 0 then none
    else scanBlocks s l slot (l.blocks - l.next) l.next (l.waiting.map l.lakeOf) []

/-- The blocks of a launch that is admitted together, where they fit (R289, R290). -/
def pickGroup (s : State) (c : Ctx) (l : Launch) : Option (List (Nat × Nat × List Seat)) :=
  if c.rcd.bslots < (slotsHeld s c.rcd.id).length + l.resident then none
  else planAll l l.resident 0 (l.lakes.flatMap (roomsOf s))

/-- The slots that a pond holds, from their trigger or issue until nothing is queued on a released one (R214 to R216). -/
def heldSlots (s : State) (d : Pond) : List RSlot := d.held.filter (fun r => !r.stale || (pending s d.id).any (fun m => m.onSlot r.idx r.gen))

/-- The room of a core for a pond that is placed again (R297): its threads, its allocation, a physical slot for each that it holds, and its pool
numbers. -/
def resumeSeat (s : State) (d : Pond) (slots : Nat) (nums : List Nat) (r : Room) : Option Seat :=
  let n := (pondThreads s d.id).length
  let mine := (s.pools.filter (fun p => p.pond == d.id)).map Pool.num
  if Config.threadsPerCore < r.threads + n || Config.slotsPerCore < slots + (heldSlots s d).length || mine.any nums.contains then none
  else (r.freeRun d.size).map (fun base => ⟨r.core, n, base⟩)

/-- The ways to seat the ponds of a switched-out block on some cores, each on one of its own, in ascending core (R297). -/
def seatings (s : State) (used : Nat → List Pond) : List Room → List Pond → List (List (Pond × Seat))
  | _, [] => [[]]
  | rooms, d :: ds => rooms.flatMap (fun r =>
    let here := used r.core
    let slots := here.foldl (fun n x => n + ((x : Pond).held.filter RSlot.phys).length) 0
    let nums := (s.pools.filter (fun p => here.any (fun x => x.id == p.pond))).map Pool.num
    match resumeSeat s d slots nums r with
    | some seat => (seatings s used (rooms.filter (fun x => x.core != r.core)) ds).map ((d, seat) :: ·)
    | none => [])

/-- The ponds of a block that still stand. -/
def blockPonds (s : State) (b : Nat) : List Pond := sortBy Pond.idx (s.ponds.filter (fun d => d.blk == b))

/-- What a switched-out block has left to its engines acts from now on at the core of the pond that it comes from, or at one of its lake if that
pond has gone (R297). -/
def rehome (s : State) (b : Nat) (lake : Nat) : State :=
  let core (o : Origin) : Nat := ((pond s o.pond).bind Pond.core).getD (4 * lake)
  let at_ (o : Origin) : Origin := if o.blk == b then { o with core := core o } else o
  { s with
    accs := s.accs.map (fun x => { x with orig := at_ x.orig })
    copies := s.copies.map (fun x => { x with orig := at_ x.orig })
    mops := s.mops.map (fun x => { x with orig := at_ x.orig }) }

/-- The rotations of a pond's launch go on at the core on which it is placed (R63, R297); where another pond of the launch stands there already, its
rotation of the slot stands (log 45). -/
def seatRots (lid : Nat) (s : State) (d : Pond) (core : Nat) : State :=
  let shared := s.ponds.any (fun x => x.id != d.id && x.core == some core && (block s x.blk).any (fun b => b.launch == lid))
  let rest := s.rot.filter (fun r => shared || !(r.1 == core && r.2.2.1 == lid))
  let mine := (d.rots.map (fun r => (core, r.1, lid, r.2))).filter (fun r => !rest.any (fun x => x.1 == core && x.2.1 == r.2.1 && x.2.2.1 == lid))
  { s with rot := mine ++ rest }

/-- A switched-out block on its cores in a lake: its engines follow it, and traps that wait for a frame that has become free are delivered
(R297, R353). -/
def seatBlock (s : State) (b : Block) (lake : Nat) (l : List (Pond × Seat)) : State :=
  let seat (s : State) (p : Pond × Seat) : State := updPond (seatRots b.launch s p.1 p.2.core) p.1.id (fun d => { d with
    core := some p.2.core
    base := p.2.base
    rots := [] })
  let s := rehome (updBlock (l.foldl seat s) b.id (fun x => { x with lake := some lake })) b.id lake
  ((s.pools.filter (fun p => l.any (fun x => x.1.id == p.pond))).map Pool.id).foldl freeFrame s

/-- The placements of a switched-out block, lake by lake in ascending number (R297). -/
def placements (s : State) (c : Ctx) (b : Block) : List State :=
  let used (core : Nat) : List Pond := s.ponds.filter (fun d => d.core == some core)
  (usableLakes s c).flatMap (fun lake => (seatings s used (roomsOf s lake) (blockPonds s b.id)).map (seatBlock s b lake))

/-- A switched-out block placed where it finds room: of the placements that R297 allows, the first (log 52). -/
def placeBlock (s : State) (c : Ctx) (b : Block) : Option State := (placements s c b).head?

/-- Blocks placed together, all of them or none, wherever their lakes and cores have room for all (R297, log 52). -/
def placeAll (c : Ctx) : List Block → State → Option State
  | [], s => some s
  | b :: r, s => firstSome (placeAll c r) (placements s c b)

/-- The switched-out blocks of a launch. -/
def outBlocks (s : State) (l : Launch) : List Block := sortBy Block.lin (s.blocks.filter (fun b => b.launch == l.id && b.lake.isNone))

/-- The switched-out blocks of a launch that find room are placed again: all of them together, or the first that does (R297). -/
def placeLaunch (s : State) (c : Ctx) (l : Launch) : Option State :=
  let out := outBlocks s l
  if out.isEmpty then none
  else if l.together then placeAll c out s
  else firstSome (placeBlock s c) out

/-- What the dispatcher can do for a launch now: place switched-out blocks, or take blocks in (R288, R297). -/
def offer (s : State) (c : Ctx) (l : Launch) : Option State :=
  match placeLaunch s c l with
  | some s => some s
  | none =>
    if l.started then
      (pickBlock s c l).map (fun p =>
        let (ps, s) := takeIn s c l p.lin p.lake p.slot p.restarts p.plan
        let s := updLaunch s l.id (fun x => { x with
          next := max x.next (p.lin + 1)
          waiting := (x.waiting ++ p.passed).filter (· != p.lin)
          again := x.again.filter (fun a => a.lin != p.lin)
          newlyEnded := x.newlyEnded - 1 })
        drainAll s l.kernel.still ps)
    else
      (pickGroup s c l).map (fun g =>
        let (ps, s) := takeInAll c l g s
        drainAll (updLaunch s l.id (fun x => { x with
          next := l.resident
          started := true })) l.kernel.still ps)

/-- The order in which room is offered to the launches of a context (R288). -/
def offerKey (s : State) (l : Launch) : Nat :=
  let last := match mapGet s.lastQueue l.ctx with | some q => q + 1 | none => 0
  (3 - l.prio) * 16 + (l.queue + 16 - last % 16) % 16

/-- A launch takes room that no launch before it in the order can use, and its queue is the last one offered (R288). -/
def offerNext (s : State) (c : Ctx) (l : Launch) : Option State :=
  if s.launches.any (fun x => x.ctx == l.ctx && decide (offerKey s x < offerKey s l) && (offer s c x).isSome) then none
  else (offer s c l).map (fun s => { s with lastQueue := mapSet s.lastQueue l.ctx l.queue })

/-- BLOCK_ADMIT (R288): a launch takes room that no launch before it in the order can use. -/
def execBlockAdmit (id : Nat) (s : State) : Host.Outcome State Fault Refusal :=
  match (launch s id).bind (fun l => (ctx s l.ctx).map (fun c => (l, c))) with
  | none => .fault .notEnabled
  | some (l, c) =>
    if !atWork s || !c.running || c.stalled then .fault .notEnabled
    else match offerNext s c l with
      | some s => .next s
      | none => .fault .notEnabled

/-- The block of a pond runs still. -/
def stillBlock (s : State) (b : Block) : Bool := (launch s b.launch).any (fun l => l.kernel.still)

/-- A block without ponds goes; one of a still launch once the round in which it ended has committed (R243, R286, R294). -/
def sweepBlock (s : State) (b : Nat) : State :=
  match block s b with
  | none => s
  | some x =>
    if s.ponds.any (fun d => d.blk == b) || (stillBlock s x && !x.ended) then s
    else { s with
      blocks := s.blocks.filter (fun y => y.id != b)
      bars := s.bars.filter (fun y => match y.key with | .blk k | .named k _ => k != b | _ => true) }

/-- A command that reads a released allocation and has not done so reads the zeros of R249. -/
def Copy.readZeros (pd : Nat) (c : Copy) : Copy :=
  if c.pond == pd && !c.toScratch then { c with got := c.got ++ List.replicate (c.n - c.got.length) 0 } else c

/-- The pond may be released (R249): its threads have exited, and what writes or reads its allocation is complete. A command that waits on
an empty granule of it does not count. -/
def releasable (s : State) (d : Pond) : Bool :=
  (pondThreads s d.id).isEmpty && s.copies.all (fun c => !c.dests.contains d.id) && (pending s d.id).isEmpty &&
    s.copies.all (fun c => c.pond != d.id || c.toScratch || c.full || (starvedCopies s d.blk).any (fun p => p.1.id == c.id))

/-- A pond released (R67, R216, R249). -/
def releasePond (s : State) (d : Pond) : State :=
  let wids := d.conv.flatMap (fun c => wordsOf c.2.signers)
  let s := { s with
    ponds := s.ponds.filter (fun x => x.id != d.id)
    mops := s.mops.filter (fun m => m.pond != d.id)
    colls := s.colls.filter (fun c => c.pond != d.id)
    bars := s.bars.filter (fun b => b.key != .pond d.id)
    copies := s.copies.map (Copy.readZeros d.id) }
  sweepBlock (wids.foldl completeWord s) d.blk

/-- POND_RELEASE (R249). -/
def execPondRelease (pd : Nat) (s : State) : Host.Outcome State Fault Refusal :=
  match pond s pd with
  | some d => if releasable s d then .next (releasePond s d) else .fault .notEnabled
  | none => .fault .notEnabled

/-- Every block of a launch has ended and gone, and its writes are performed (R286). -/
def launchDone (s : State) (l : Launch) : Bool :=
  l.started && l.next == l.blocks && l.waiting.isEmpty && l.again.isEmpty && s.blocks.all (fun b => b.launch != l.id) &&
    (s.accs ++ s.slices).all (fun y => y.orig.ctx != l.ctx || (block s y.orig.blk).isSome) &&
    s.copies.all (fun c => c.orig.ctx != l.ctx || (block s c.orig.blk).isSome)

/-- A launch completes (R286): writes at sy scope, STEP, and then DONE. -/
def completeLaunch (s : State) (c : Ctx) (l : Launch) : State :=
  let s := flushCtx s l.ctx
  let s := updCtx s l.ctx (fun x => { x with rcd := { x.rcd with step := (x.rcd.step + 1) % 2 ^ 32 } })
  let s := putCounter s c l.queue 2 (hdrDone (header s c l.queue) + 1)
  refreshPriv { s with
    launches := s.launches.filter (fun x => x.id != l.id)
    rot := s.rot.filter (fun r => r.2.2.1 != l.id) } l.ctx

/-- LAUNCH_COMPLETE (R286). -/
def execLaunchComplete (id : Nat) (s : State) : Host.Outcome State Fault Refusal :=
  match (launch s id).bind (fun l => (ctx s l.ctx).map (fun c => (l, c))) with
  | some (l, c) => if atWork s && launchDone s l then .next (completeLaunch s c l) else .fault .notEnabled
  | none => .fault .notEnabled

/-- The events of launches that may take place. -/
def launchEvents (s : State) : List Instr :=
  s.ctxs.flatMap (fun c => (List.range 16).flatMap (fun q => [.launchStart c.rcd.id q, .waitConditionReread c.rcd.id q])) ++
    s.launches.flatMap (fun l => [.blockAdmit l.id, .launchComplete l.id]) ++ s.ponds.map (fun d => .pondRelease d.id)

end Sys2Proof.Machine
end

