-- ==== Sys2Proof/Machine/Round.lean ====
section
/-! DEFINITION. The commit of a round of a still launch (15 R290, R291, R293, R294; 14 R277; 24 R378). -/

namespace Sys2Proof.Machine

/-- The blocks of a still launch that take part in its round, the killed ones among them. -/
def roundBlocks (s : State) (l : Launch) : List Block := s.blocks.filter (fun b => b.launch == l.id && !b.ended)

/-- A live thread has arrived at the round point (R294): its fragment waits there, or a trap has stopped it behind a shared atomic, whose
handler it has left. -/
def arrived (s : State) (t : Thread) : Bool :=
  match t.place with
  | .lane p i _ => (frag s ⟨p, i⟩).any (fun f => match f.hold with
    | .round ts _ => ts.contains t.ref
    | .free => atRound s t && !t.handler
    | _ => false)
  | .well .. => false

/-- The block has reached its round point (R294); a halted block holds the round up (R378). -/
def reachedRound (s : State) (b : Block) : Bool :=
  b.killed || (b.lake.isSome && b.halt.isNone && !b.halted && (blockThreads s b.id).all (arrived s))

/-- The round of a still launch may commit: the blocks that replace ended ones take part, and every live block has reached its round point
(R290, R294). -/
def mayCommit (s : State) (l : Launch) : Bool :=
  l.kernel.still && l.started && !(roundBlocks s l).isEmpty && (roundBlocks s l).all (reachedRound s) &&
    (l.newlyEnded == 0 || (l.next == l.blocks && l.waiting.isEmpty))

/-- The owner of a private line that becomes shared at the commit, because another block accessed it or it has been killed (R291, R378). -/
def Touched.losing (killed : List Nat) (t : Touched) : Option Nat :=
  match t.st with
  | .priv a => if t.by_.any (· != a) || killed.contains a then some a else none
  | _ => none

/-- The page of an owner's write is still where the write was translated to; the writes of one that has moved since are performed there and
stay, so that no access goes by the old translation after its invalidation (R262). -/
def standsAt (s : State) (l : Launch) (x : BufEntry) : Bool :=
  (ctx s l.ctx).any (fun c => match xlat s (some (Config.lakeOf x.orig.core)) c x.va with
    | .ok leaf => ownAddr s (leaf.phys x.va) == x.pa
    | .error _ => false)

/-- The bytes that an entry writes. -/
def BufEntry.size (x : BufEntry) : Nat := match x.atom with
  | some (_, wide, _) => if wide then 8 else 4
  | none => x.bytes.length

/-- The entry writes none of the bytes of some ranges. -/
def BufEntry.without (gone : List (Nat × Nat)) (x : BufEntry) : BufEntry := { x with cut := x.cut ++ gone }

/-- The owner's writes of the round to a line that are to commit with the others: those that were performed at an old translation or that no path
reaches (R384) stay, and an atomic over whose result another agent has written stays, with every atomic of the line then (log 79). -/
def againOf (s : State) (l : Launch) (log : List BufEntry) : List BufEntry :=
  let stands (x : BufEntry) : Bool := standsAt s l x && !lostTo s x.pa
  let goes (x : BufEntry) : Bool := stands x && (x.atom.isNone || !inside x.cut x.pa x.size)
  if log.all goes then log else log.filter (fun x => stands x && x.atom.isNone)

/-- The bytes that an entry has written go back to the round-start image of their line. -/
def takeBytes (ctxId : Nat) (img : List Byte) (s : State) (x : BufEntry) : State :=
  (leftUnits x.cut x.pa [(0, x.size)]).foldl (fun s u => deviceWrite s ctxId x.cached (x.pa + u.1) ((img.drop ((x.pa + u.1) % 128)).take u.2)) s

/-- The owner's writes of the round to a line that becomes shared join its buffer, and the bytes that they wrote go back to the line's image, which
holds what others have written there since (R263, R293); those of a killed block stay (R378). -/
def giveBack (lid : Nat) (killed : List Nat) (s : State) (line : Nat) : State :=
  let s := settleLine s line
  match (launch s lid).bind (fun l => (l.touched.find? (fun t => t.line == line)).map (fun t => (l, t))) with
  | none => s
  | some (l, t) => match t.losing killed, t.image with
    | some a, some img =>
      if killed.contains a then s
      else
        let again := againOf s l t.log
        let stays := (t.log.filter (fun x => !again.contains x)).map (fun x => (x.pa, x.pa + x.size))
        let again := again.map (BufEntry.without stays)
        let s := again.foldl (takeBytes l.ctx img) s
        { s with blocks := updWhere (fun b => b.launch == l.id && b.lin == a) (fun b => { b with buffer := b.buffer ++ again }) s.blocks }
    | _, _ => s

/-- An entry of a round buffer takes effect (R277, R293): a store, an atomic, or a record appended by LAUNCH. -/
def commitEntry (ctxId : Nat) (s : State) (x : BufEntry) : State :=
  match x.launch with
  | none => applyEntry s ctxId x
  | some q =>
    let (n, s) := match ctx s ctxId with
      | some c => appendRecord s c q x.bytes
      | none => (notAppended, s)
    deliverTo s x.op (leBytes 4 n)

/-- The place of a block in the round order (R277). -/
def roundPlace (l : Launch) (lin : Nat) : Nat := (lin + l.blocks - l.round % l.blocks) % l.blocks

/-- The buffered writes of every block that is not killed, in round order and in each block's program order (R277). -/
def commitBuffers (s : State) (l : Launch) : State :=
  let bs := sortBy (fun b => roundPlace l (b : Block).lin) ((roundBlocks s l).filter (fun b => !b.killed))
  bs.foldl (fun s b => (sortBy BufEntry.seq b.buffer).foldl (commitEntry l.ctx) s) s

/-- The state of a touched line after the round (R291). -/
def Touched.after (killed : List Nat) (t : Touched) : LineState :=
  match t.st with
  | .free => match t.wrote with
    | [] => .free
    | [a] => if t.by_.all (· == a) then .priv a else .free
    | _ => .shared
  | .priv a => if (t.losing killed).isSome then .shared else .priv a
  | .shared => .shared

/-- The state word of a line state (R292). -/
def LineState.word : LineState → Nat
  | .free => 0
  | .priv a => 2 ^ 62 + a % 2 ^ 62
  | .shared => 2 * 2 ^ 62

/-- The table changes of the touched lines (R291, R292). -/
def writeTable (c : Ctx) (killed : List Nat) (s : State) (t : Touched) : State :=
  match t.word with
  | some w => if t.after killed == t.st then s else areaPut s c w 8 (t.after killed).word
  | none => s

/-- Lines of a state array that are private to a killed block become shared (R378). -/
def shareKilled (c : Ctx) (killed : List Nat) : Nat → Nat → State → State
  | 0, _, s => s
  | k + 1, w, s =>
    let s := match areaRead s c w 8 with
      | .ok bs => match lineStateOf (leNat bs) with
        | .priv a => if killed.contains a then areaPut s c w 8 LineState.shared.word else s
        | _ => s
      | .error _ => s
    shareKilled c killed k (w + 8) s

/-- The fragment goes on from its round point, and its word is complete but for what it still waits for. -/
def releaseRound (l : Launch) (s : State) (f : Frag) : State :=
  match f.hold with
  | .round _ w =>
    if (envAt s f.ref).any (fun e => e.launch.id == l.id) then sweepWord (release s f.ref) w.wid else s
  | _ => s

/-- The next blocks admitted, as far as there is room that no launch before this one can use (R288, R290). -/
def takeInNext (id : Nat) : Nat → State → State
  | 0, s => s
  | k + 1, s =>
    match (launch s id).bind (fun l => (ctx s l.ctx).map (fun c => (l, c))) with
    | some (l, c) => if l.newlyEnded = 0 then s else match offerNext s c l with
      | some s => takeInNext id k s
      | none => s
    | none => s

/-- The round's bookkeeping: ended blocks, buffers, images, touched lines and ICINV ranges, and the number of the round (R290, R292, R294). -/
def closeRound (s : State) (c : Ctx) (l : Launch) : State :=
  let closing (b : Block) : Bool := b.launch == l.id && !b.ended && (blockThreads s b.id).isEmpty
  let gone := (s.blocks.filter closing).map Block.id
  let blocks := (updWhere closing (fun b => { b with ended := true }) s.blocks).map (fun b =>
    if b.launch == l.id then { b with buffer := [], images := [] } else b)
  let s := updLaunch { s with blocks := blocks } l.id (fun x => { x with
    round := x.round + 1
    newlyEnded := min (x.newlyEnded + gone.length) (x.blocks - x.next + x.waiting.length)
    icinvs := []
    touched := [] })
  gone.foldl sweepBlock (putRound s c l.queue (l.round + 1))

/-- A round committed as one step (R294). The ICINV words of the round drop their code again behind the stores that the commit performs (R238, log 72). -/
def commitRound (s : State) (c : Ctx) (l : Launch) : State :=
  let dead := ((roundBlocks s l).filter Block.killed).map Block.lin
  let words := distinct ((roundBlocks s l).flatMap (fun b => b.buffer.map BufEntry.wid))
  let s := commitBuffers ((l.touched.map Touched.line).foldl (giveBack l.id dead) s) l
  let s := l.icinvs.foldl (dropCode l.ctx) s
  let s := l.touched.foldl (writeTable c dead) s
  let s := if dead.isEmpty then s else l.ranges.foldl (fun s r => shareKilled c dead r.2.1 r.2.2 s) s
  let s := takeInNext l.id l.blocks (closeRound s c l)
  words.foldl sweepWord (s.frags.foldl (releaseRound l) s)

/-- ROUND_COMMIT (R294). -/
def execRoundCommit (id : Nat) (s : State) : Host.Outcome State Fault Refusal :=
  match (launch s id).bind (fun l => (ctx s l.ctx).map (fun c => (l, c))) with
  | some (l, c) => if atWork s && c.running && !c.stalled && mayCommit s l then .next (commitRound s c l) else .fault .notEnabled
  | none => .fault .notEnabled

end Sys2Proof.Machine
end

