-- ==== Sys2Proof/Machine/Preempt.lean ====
section
/-! DEFINITION. Pre-emption and resumption (15 R295 to R298; 13 R247, R250; 24 R374, R377, R382), the kill of a block (24 R374) and its restart
(15 R299, 24 R383), and the installation of a translation (06 R117). -/

namespace Sys2Proof.Machine

/-- A list of bytes made up to a length with zeros. -/
def padTo (n : Nat) (l : List Byte) : List Byte := l ++ List.replicate (n - l.length) 0

/-- Bytes written into a context's area, where they can be written. -/
def areaStore (s : State) (c : Ctx) (va : Nat) (bs : List Byte) : State :=
  match areaWrite s c false va bs with
  | .ok s => s
  | .error _ => s

/-- The block belongs to a launch of the context. -/
def ofCtx (s : State) (ctxId : Nat) (b : Block) : Bool := (launch s b.launch).any (fun l => l.ctx == ctxId)
/-- The blocks of a context. -/
def ctxBlocks (s : State) (ctxId : Nat) : List Block := s.blocks.filter (ofCtx s ctxId)
/-- The ponds of a context. -/
def ctxPonds (s : State) (ctxId : Nat) : List Pond := s.ponds.filter (fun d => (block s d.blk).any (ofCtx s ctxId))
/-- The fragments of a context. -/
def ctxFrags (s : State) (ctxId : Nat) : List FRef := (ctxBlocks s ctxId).flatMap (fun b => blockFrags s b.id)

/-- Every thread of a block is treated as having executed EXIT (R129, R374). -/
def exitAll (s : State) (b : Nat) : State :=
  let ps := (blockPonds s b).flatMap (fun d => (s.pools.filter (fun p => p.pond == d.id)).map (fun p => (p.id, d.id)))
  let s := (blockThreads s b).foldl endThread s
  let s := ps.foldl (fun s p => afterLeave s p.1 p.2 b) s
  (blockPonds s b).foldl (fun s d => afterEnd s d.id) s

/-- A block killed (R374, R378): its journal commands and the buffered writes of its round are discarded, and its threads exit. -/
def killBlock (s : State) (b : Block) : State :=
  let s := { s with copies := s.copies.filter (fun c => c.orig.blk != b.id) }
  let s := (distinct ((blockFrags s b.id).flatMap (fun r => ((frag s r).map Frag.hist).getD []))).foldl sweepWord s
  let s := updBlock s b.id (fun x => { x with
    killed := true
    halted := false
    halt := none
    reached := []
    buffer := []
    images := [] })
  let s := updLaunch s b.launch (fun l => { l with killed := l.killed ++ [b.lin] })
  exitAll s b.id

/-- A moment in which what can be performed is performed (R295 step 2): the writes at slices, then the first access that may be. -/
def settleOnce (s : State) (ctxId : Nat) : State :=
  let s := s.slices.foldl goHome s
  match s.accs.find? (fun x => x.orig.ctx == ctxId && mayPerform s x) with
  | some x => performGroup s x
  | none => s

/-- The accesses of a context performed as far as they can be (R295 steps 2 and 3). -/
def settleAccs (ctxId : Nat) : Nat → State → State
  | 0, s => s
  | k + 1, s => settleAccs ctxId k (settleOnce s ctxId)

/-- The producers that have their results write them (R295 step 2). -/
def settleOps (s : State) : State := (s.ops.filter Op.ready).foldl retireOp s

/-- The matrix operations of a context that run and wait on nothing complete (R222). -/
def settleMops (s : State) (ctxId : Nat) : State :=
  (s.mops.filter (fun m => m.orig.ctx == ctxId && !m.done && m.started)).foldl (fun s m => match execMatrixOpComplete m.id s with
    | .next s => s
    | _ => s) s

/-- A command whose source read has begun reads on and writes (R295 step 4). -/
def finishCopy : Nat → State → Nat → State
  | 0, s, _ => s
  | k + 1, s, id =>
    match copyOf s id with
    | none => s
    | some c =>
      if c.begun then (match execCopyCommandComplete id s with | .next s => s | _ => s)
      else match execCopyCommandStart id s with
        | .next s => finishCopy k s id
        | _ => s

/-- The commands of a context whose source read has begun finish, and the others count as not begun (R295 step 4) and have to replay (R297). -/
def settleCopies (s : State) (ctxId : Nat) : State :=
  let mine := s.copies.filter (fun c => c.orig.ctx == ctxId && !c.unread)
  let s := mine.foldl (fun s c => finishCopy 4 s c.id) s
  { s with copies := updWhere (fun c => c.orig.ctx == ctxId && !(c.begun && (pond s c.pond).isNone)) (fun c => c.discarded (pond s c.pond).isNone) s.copies }

/-- The arrivals of a fragment at a collective are taken back. -/
def dropArrivals (s : State) (r : FRef) : State :=
  let left := s.colls.map (fun c => { c with arrivals := c.arrivals.filter (fun a => a.frag != r) })
  { s with colls := left.filter (fun c => !c.arrivals.isEmpty) }

/-- A fragment leaves the word that holds it (log 53): it stands before that word again, arrived nowhere, or behind a shared atomic, which it
has issued, at its round point. -/
def leaveWord (s : State) (f : Frag) : State :=
  match f.hold with
  | .bar k ts arrive w => takeBack (if arrive then withdraw s k ts else s) f.ref w
  | .coll w => takeBack (dropArrivals s f.ref) f.ref w
  | .mwait _ _ w | .inval _ w => takeBack s f.ref w
  | .round _ w =>
    if (fragThreads s f.ref).any (atRound s) then updFrag s f.ref (fun x => { x with hold := .free }) else takeBack s f.ref w
  | .free | .frame .. | .parked .. | .faulted => s

/-- The fragments of a context stop at the traps that wait for them (R351, R377), in the order of R340; one that a word holds leaves it for
that. -/
def settleTraps (s : State) (ctxId : Nat) : State :=
  let due (e : Env) : Bool := !e.frag.stopped && e.waiting.isSome && (match e.frag.hold with | .frame .. | .faulted => false | _ => true)
  (sortBy (recordKey s) (ctxFrags s ctxId)).foldl (fun s r => match envAt s r with
    | some e => if due e then deliverWaiting (leaveWord s e.frag) r else s
    | none => s) s

/-- A halt broadcast in progress completes (R377). -/
def settleHalt (s : State) (b : Block) : State :=
  if b.halt.isNone || b.halted then s
  else
    let s := ((blockCores s b.id).filter (fun c => !b.reached.contains c)).foldl (fun s c => reachCore s b.id c) s
    let mine := blockFrags s b.id
    writeHalts { s with frags := updWhere (fun f => mine.contains f.ref) (fun f => { f with stopped := true }) s.frags } b

/-- The invalidations that a context waits for are acknowledged once the accesses are performed. -/
def settleInvals (s : State) : State := (s.invals.filter (fun v => !v.acked)).foldl (fun s v => if v.settled s then ackInval s v else s) s

/-- The bytes of a copy of a modulus slot (R169). -/
def slotBytes (q : QSlot) : List Byte := leBytes 16 (q.q.toNat + 2 ^ 63 * q.wide.toNat + 2 ^ 64 * q.mu.toNat)

/-- The code of a tag in an image (log 54). -/
def tagImage : DTag → Nat
  | .home => 0 | .sp => 1 | .pl => 2 | .pd => 3

/-- The bytes of a convergence register (R205, R222, R247): its state, and the first signer's operands in the places of log 54. -/
def convBytes (c : Conv) : List Byte :=
  let state := c.count + 2 ^ 13 * c.signers.length + 2 ^ 26 * c.differ.isSome.toNat + 2 ^ 32 * c.phase
  let ops := match c.first with
    | some f => f.a.toNat + 2 ^ 32 * f.b.toNat + 2 ^ 64 * f.c0.toNat + 2 ^ 96 * f.c1.toNat + 2 ^ 128 * f.dcode + 2 ^ 144 * f.k +
        2 ^ 176 * tagImage f.dtag
    | none => 0
  leBytes 8 state ++ leBytes 24 ops

/-- A number with the bits of the given positions set. -/
def bitSet (l : List Nat) : Nat := (distinct l).foldl (fun n i => n + 2 ^ i) 0

/-- A record of the register image (R247), as offsets and bytes: pool copies, and the spring copies of threads by lane. -/
def recordImage (copies : Map Word) (slots : Map QSlot) (ts : List (Nat × Thread)) : List (Nat × List Byte) :=
  let lanes (f : Thread → Bool) : Nat := bitSet ((ts.filter (fun t => f t.2)).map Prod.fst)
  let head := leBytes 128 (bitSet (copies.map Prod.fst ++ slots.map (fun q => 768 + q.1))) ++
    (List.range 768).flatMap (fun n => word32Bytes ((mapGet copies n).getD 0)) ++
    (List.range 8).flatMap (fun k => slotBytes ((mapGet slots k).getD QSlot.unset)) ++
    (List.range 8).flatMap (fun k => leBytes 16 (lanes (fun t => (mapGet t.slots k).isSome))) ++ leBytes 640 0
  let regs := distinct (ts.flatMap (fun t => t.2.springs.map Prod.fst))
  let spring (n : Nat) : Nat × List Byte := (4096 + 512 * n, (List.range 128).flatMap (fun l =>
    word32Bytes (((mapGet ts l).bind (fun t => mapGet t.springs n)).getD 0)))
  let slot (k : Nat) : Nat × List Byte := (397312 + 2048 * k, (List.range 128).flatMap (fun l =>
    slotBytes (((mapGet ts l).bind (fun t => mapGet t.slots k)).getD QSlot.unset)))
  (0, head) :: regs.map spring ++ (List.range 8).map slot ++
    [(413696, (List.range 768).flatMap (fun n => leBytes 16 (lanes (fun t => (mapGet t.springs n).isSome))))]

/-- The lanes of the pool records of a pond that no live thread of a pool takes: those of the free records, then those of the others. -/
def freeLanes (s : State) (d : Pond) : List (Nat × Nat) :=
  let used := sortBy Pool.recNo (s.pools.filter (fun p => p.pond == d.id))
  ((List.range 64).filter (fun r => used.all (fun p => p.recNo != r))).flatMap (fun r => (List.range 128).map (fun l => (r, l))) ++
    used.flatMap (fun p => ((List.range 128).filter (fun l => (poolThreads s p.id).all (fun t => t.lane != l))).map (fun l => (p.recNo, l)))

/-- The threads of a pond that wait in wells, by the pool record and the lane that hold their spring copies (log 54): 64 records have more lanes
than a pond has threads. -/
def wellSeats (s : State) (d : Pond) : List (Nat × Nat × Thread) :=
  ((freeLanes s d).zip (sortBy Thread.entry ((pondThreads s d.id).filter (fun t => t.pool.isNone)))).map (fun p => (p.1.1, p.1.2, p.2))

/-- The pool records of a pond's register image (R247), as offsets and bytes. -/
def recordImages (s : State) (d : Pond) : List (Nat × List Byte) :=
  let seats := wellSeats s d
  let ps := s.pools.filter (fun p => p.pond == d.id)
  (distinct (ps.map Pool.recNo ++ seats.map Prod.fst)).flatMap (fun r =>
    let p := ps.find? (fun p => p.recNo == r)
    let ts := match p with | some p => (poolThreads s p.id).map (fun t => (t.lane, t)) | none => []
    (recordImage ((p.map Pool.copies).getD []) ((p.map Pool.slots).getD []) (ts ++ (seats.filter (fun x => x.1 == r)).map Prod.snd)).map
      (fun x => (4096 + 425984 * r + x.1, x.2)))

/-- The handles of the slots that a pond holds, by index, 0 for one that it does not hold (R247, log 54). -/
def handleBytes (d : Pond) : List Byte :=
  (List.range 32).flatMap (fun i => leBytes 4 (match d.holds.find? (fun r => r.idx == i) with
    | some r => (handleOf r.idx r.gen).toNat
    | none => 0))

/-- A pond's register image (R247), as offsets and bytes, with %hintmiss of its core behind the handles (R106, log 54). -/
def pondImage (s : State) (c : Ctx) (d : Pond) : List (Nat × List Byte) :=
  (0, (List.range 768).flatMap (fun n => word32Bytes (d.copy n)) ++ (List.range 8).flatMap (fun k => slotBytes (d.slotCopy k)) ++
    (List.range 16).flatMap (fun n => convBytes (d.convN n)) ++ handleBytes d ++
    leBytes 4 (match d.core with | some k => hintsOf s c.rcd.id k | none => 0)) :: recordImages s d

/-- A pond's scratchpad save area (R250). -/
def scratchImage (d : Pond) : List Byte :=
  bytesAt d.scratch 0 d.size ++ (List.range (d.size / 16)).flatMap (fun g => leBytes 4 ((d.gran g).arrived.toNat + 2 ^ 16 * (d.gran g).full.toNat))

/-- The place field of a thread record (R374), with what its pool is numbered. -/
def placeField (s : State) (halted : Bool) (t : Thread) : Nat :=
  1 + 2 * halted.toNat + 2 ^ 24 * (t.tid % 8192) + (match t.place with
    | .lane p f l => 2 ^ 2 * (((pool s p).map Pool.num).getD 0 % 64) + 2 ^ 8 * (l % 128) + 2 ^ 15 * (f % 128)
    | .well k _ => 2 ^ 22 * (match k with | .launch => 1 | .spawn => 2 | .reform => 3))

/-- The place of a barrier record in the set of a thread's records (log 54). -/
def BarKey.place : BarKey → Nat
  | .pool _ => 0 | .pond _ => 1 | .blk _ => 2 | .named _ k => 3 + k

/-- The code of a destination in an image: 1023 without one. -/
def dstImage : Dst → Nat
  | .reg r _ => r.val
  | .none => 1023

/-- The access that an operation asks for in a thread, with its destination: of memory, the return stack or the object table. -/
def accessOf (e : Env) (t : Thread) : Instr → Option (Nat × Nat)
  | .ld _ m _ d a => some (e.virtual m.loc t (e.ea t a m.disp), dstImage d)
  | .st _ m a _ | .stm _ m a _ _ => some (e.virtual m.loc t (e.ea t a m.disp), 1023)
  | .atom _ m d a _ _ => some (e.ea t a m.disp, dstImage d)
  | .redm _ m a _ => some (e.ea t a m.disp, 1023)
  | .call .. | .callx .. => some (e.stackAddr t t.spilled, 1023)
  | .ret _ => some (e.stackAddr t (t.spilled - 1), 1023)
  | .objq _ d a => some (entryAddr e.ctx (e.objIndex t a), dstImage d)
  | .objw _ a _ => some (entryAddr e.ctx (e.objIndex t a), 1023)
  | .copy _ _ _ _ a _ _ | .copym _ _ _ _ _ a _ _ => some (entryAddr e.ctx (e.objIndex t a), 1023)
  | .mlda _ _ d _ _ c => some (entryAddr e.ctx (e.objIndex t c), dstImage d)
  | .msta _ _ _ _ c => some (entryAddr e.ctx (e.objIndex t c), 1023)
  | _ => none

/-- The access of a thread whose fragment's word has parked, with its destination: the fetch of the word where that is what parked. -/
def parkedAccess (s : State) (e : Env) (t : Thread) : Nat × Nat :=
  match nextWord s e with
  | none => (e.pc, 1023)
  | some (_, is) => (firstSome (fun i => if (e.active (guardOfInstr i)).any (fun u => u.ref == t.ref) then accessOf e t i else none)
      (if e.frag.yOnly then is.drop 1 else is)).getD (e.pc, 1023)

/-- What of a thread waits for a handle (R222), in the places of log 54: the convergence registers whose phase it has signed for a fresh slot, the
slots of such operations not yet delivered, and SETW's destination. -/
def awaitBits (s : State) (t : Thread) : Nat :=
  let signed (l : List Signer) : Bool := l.any (fun x => x.t == t.ref)
  let convs := ((pond s t.pond).map (fun d => (d.conv.filter (fun c => signed c.2.signers && c.2.first.any (fun f => fwFresh f.b))).map Prod.fst)).getD []
  let slots := ((pending s t.pond).filter (fun m => m.fresh && !m.delivered && signed m.signers)).map MOp.idx
  let setw := match t.setw with
    | some x => 1 + 2 * x.reg + 2 ^ 11 * tagImage x.tag
    | none => 0
  bitSet convs + 2 ^ 16 * bitSet slots + 2 ^ 40 * setw

/-- The first registers of the results that a thread still waits for (R71, R78). -/
def emptyDests (s : State) (t : Thread) : List Nat := (s.ops.filter (fun o => o.lanes.any (fun l => l.t == t.ref))).filterMap Op.reg

/-- The replay entry of a thread (R295 step 3, R296) in the places of log 54: the address, destination and kind of the access parked on a page, which
has been reported (R358), or else of its oldest LDS or ATOMS that waits on an empty granule; one more destination that is still empty (R78); and
what waits for a handle. -/
def replayEntry (s : State) (t : Thread) : List Byte :=
  let e? : Option Env := match t.place with
    | .lane p i _ => envAt s ⟨p, i⟩
    | .well .. => none
  let parked : Option (Nat × Nat × Nat) := e?.bind (fun e => match e.frag.hold with
    | .parked page _ => some (page, parkedAccess s e t)
    | _ => none)
  let entry (addr dst kind page : Nat) : List Byte :=
    let more := ((emptyDests s t).filter (· != dst)).head?.getD 1023
    leBytes 8 (addr % 2 ^ 57 + 2 ^ 60 * kind) ++ leBytes 8 (dst + page + 2 ^ 52 * more) ++ leBytes 8 (awaitBits s t)
  match parked, (blockedOf s [t]).head? with
  | some (page, addr, dst), _ => entry addr dst 4 (2 ^ 10 + 2 ^ 11 * page)
  | none, some x =>
    let dst := ((s.ops.find? (fun o => x.dst.any (fun d => d.1 == o.id))).bind Op.reg).getD 1023
    entry x.addr dst (match x.kind with | .load true => 2 | .load false => 1 | _ => 3) 0
  | none, none => entry 0 ((emptyDests s t).head?.getD 1023) 0 0

/-- A thread record (R296). -/
def threadRecord (s : State) (halted : Bool) (t : Thread) : List Byte :=
  leBytes 8 t.preds.toNat ++ leBytes 8 t.retired.toNat ++ leBytes 8 (placeField s halted t) ++
    leBytes 8 (match t.place with | .well _ k => k | .lane .. => 0) ++ leBytes 4 t.fflags.toNat ++
    leBytes 4 (t.handler.toNat + 2 * t.depth + 2 ^ 12 * bitSet (t.bars.map (fun b => b.1.place))) ++ replayEntry s t

/-- The fragments of a pond in the order of their records (R296). -/
def pondFrags (s : State) (pd : Nat) : List Frag :=
  let ps := sortBy Pool.num (s.pools.filter (fun p => p.pond == pd))
  ps.flatMap (fun p => sortBy Frag.id (s.frags.filter (fun f => f.pool == p.id)))

/-- A fragment record (R50, R296): its address, and the rest in the places of log 54. The history has a bit for each of its words that is
incomplete. -/
def fragRecord (s : State) (f : Frag) : List Byte :=
  let open_ (w : Nat) : Bool := s.incomplete.contains w
  let hist := bitSet ((List.range f.hist.length).filter (fun i => open_ (f.hist.getD i 0)))
  leBytes 8 f.pc ++ leBytes 8 (f.id + 2 ^ 8 * f.parent + 2 ^ 16 * f.sibs + 2 ^ 32 * (((pool s f.pool).map Pool.num).getD 0)) ++
    leBytes 16 (bitSet ((fragThreads s f.ref).map Thread.lane)) ++ leBytes 8 hist ++ leBytes 8 (f.older.filter open_).length ++ leBytes 16 0

/-- A barrier in the image (R296), in the places of log 54: what it is, its phase, and the threads that have arrived. -/
def barImage (s : State) (b : Barrier) : List Byte :=
  let no := match b.key with | .pool p => ((pool s p).map Pool.recNo).getD 0 | _ => 0
  leBytes 8 (1 + b.key.place + 2 ^ 8 * no + 2 ^ 16 * b.arrived.length + 2 ^ 32 * b.phase) ++ b.arrived.flatMap (fun t => leBytes 2 t.tid)

/-- A pending collective in the image (R296), in the places of log 54: its scope, and its members with the operands that they bring. -/
def collImage (s : State) (c : Coll) : List Byte :=
  leBytes 8 (255 + 2 ^ 8 * ((c.pool.bind (pool s)).map Pool.recNo).getD 64 + 2 ^ 16 * c.arrivals.length) ++
    c.arrivals.flatMap (fun a => leBytes 2 a.t.tid ++ leBytes 2 a.opcode ++ word32Bytes a.key ++ a.val.flatMap word32Bytes ++
      (match a.q with | some q => slotBytes q | none => []))

/-- The barriers and the pending collectives of a pond and its block in the image (R296). -/
def syncImage (s : State) (d : Pond) : List Byte :=
  let ours (k : BarKey) : Bool := match k with
    | .pool p => (pool s p).any (fun x => x.pond == d.id)
    | .pond p => p == d.id
    | .blk b | .named b _ => b == d.blk
  ((s.bars.filter (fun b => ours b.key)).flatMap (barImage s) ++ (s.colls.filter (fun c => c.pond == d.id)).flatMap (collImage s)).take 4096

/-- The code of a matrix operation in an image (log 54). -/
def MKind.imageCode : MKind → Nat
  | .mma => 1 | .mlda => 2 | .msta => 3 | .alloc => 4 | .zero => 5

/-- A saved matrix operation in the image (R222, R296), in the places of log 54. -/
def mopBytes (m : MOp) : List Byte :=
  let src := match m.src with | some (i, g) => (handleOf i g).toNat | none => 0
  let xs : List Nat := match m.obj with | some (_, xs) => xs | none => []
  leBytes 8 (m.kind.imageCode + 2 ^ 8 * m.conv + 2 ^ 16 * m.dreg.getD 1023 + 2 ^ 28 * tagImage m.dtag + 2 ^ 30 * m.fresh.toNat +
      2 ^ 31 * m.delivered.toNat + 2 ^ 32 * m.k) ++
    word32Bytes m.fmt ++ word32Bytes (handleOf m.idx m.gen) ++ leBytes 4 src ++ leBytes 4 m.a ++ leBytes 4 m.b ++
    (List.range 4).flatMap (fun i => leBytes 4 (xs.getD i 0)) ++ leBytes 20 0

/-- The saved matrix operations of a pond in the image, in queue order (R296). -/
def mopImage (s : State) (d : Pond) : List Byte := ((pending s d.id).take 64).flatMap mopBytes

/-- The base of a save area of a pond (R281). -/
def saveBase (base size : Nat) (b : Block) (d : Pond) : Nat := (base + (4 * b.slot + d.idx) * size) % 2 ^ 64
/-- The pond state area (R281, R296). -/
def stateArea (c : Ctx) (b : Block) (d : Pond) : Nat := saveBase c.rcd.thrBase 532480 b d

/-- The entry of a return stack in the thread's window (R244). -/
def stackSlot (c : Ctx) (b : Block) (t : Thread) (n : Nat) : Nat :=
  (c.rcd.locBase + (b.slot * 8192 + t.tid) * c.rcd.locSize + c.rcd.locSize - 8192 + 8 * n) % 2 ^ 64

/-- The on-core entries of a thread's return stack go to its window (R244, R295 step 6). -/
def spillStack (c : Ctx) (b : Block) (s : State) (t : Thread) : State :=
  ((List.range t.stack.length).zip t.stack).foldl (fun s p => areaStore s c (stackSlot c b t (t.depth - 1 - p.1)) (leBytes 8 p.2.toNat)) s

/-- The on-core entries of a thread's return stack come back from its window (R244). -/
def fillStack (s : State) (c : Ctx) (b : Block) (t : Thread) : Thread :=
  { t with stack := ((List.range t.stack.length).zip t.stack).map (fun p => match areaRead s c (stackSlot c b t (t.depth - 1 - p.1)) 8 with
    | .ok bs => BitVec.ofNat 64 (leNat bs)
    | .error _ => p.2) }

/-- A pond saved (R247, R250, R295 step 6, R296): images, thread records and fragment records. Of the empty marks the image holds those of the replay
entries (log 54); `Thread.marks` keeps them all (R78). -/
def savePond (c : Ctx) (b : Block) (s : State) (d : Pond) : State :=
  let ts := pondThreads s d.id
  let s := ts.foldl (spillStack c b) s
  let s := (pondImage s c d).foldl (fun s x => areaStore s c (saveBase c.rcd.imgBase 27267072 b d + x.1) x.2) s
  let s := areaStore s c (saveBase c.rcd.spdBase 655360 b d) (scratchImage d)
  let dead := (List.range 4096).filter (fun n => !ts.any (fun t => t.entry == n))
  let s := dead.foldl (fun s n => areaStore s c (stateArea c b d + 64 * n + 16) (leBytes 8 0)) s
  let s := ts.foldl (fun s t => areaStore s c (stateArea c b d + 64 * t.entry) (threadRecord s b.halted t)) s
  let fs := pondFrags s d.id
  let s := ((List.range fs.length).zip fs).foldl (fun s p => areaStore s c (stateArea c b d + 262144 + 64 * p.1) (fragRecord s p.2)) s
  areaStore s c (stateArea c b d + 524288) (padTo 4096 (syncImage s d) ++ padTo 4096 (mopImage s d))

/-- The round buffer of a block of a still launch goes to its place in memory (R292, R330), in entries whose bytes the spec does not lay
out (log 54). -/
def saveBuffer (c : Ctx) (s : State) (b : Block) : State :=
  match launch s b.launch with
  | none => s
  | some l =>
    if !l.kernel.still || bufferUsed b = 0 then s
    else
      let base := bits (areaNat s c (roundHeader c l.queue) 64) 128 64
      areaStore { s with free := s.free + 1 } c ((base + 262144 * b.slot) % 2 ^ 64) (freeBytes s.free (16 * bufferUsed b))

/-- The saved operations of a context start afresh when it resumes (R222). -/
def resetMop (m : MOp) : MOp := if m.done then m else { m with started := false, array := none }

/-- The words that stay incomplete when a context is saved (R295): those of step 3, and the fresh matrix words whose handles are still to be
delivered or whose phase has not triggered. -/
def openWords (s : State) (ctxId : Nat) : List Nat :=
  (s.accs.filter (fun x => x.orig.ctx == ctxId)).map Access.wid ++
    (s.mops.filter (fun m => m.orig.ctx == ctxId && m.fresh && !m.delivered)).flatMap MOp.words ++
    (ctxPonds s ctxId).flatMap (fun d => (d.conv.filter (fun c => c.2.first.any (fun f => fwFresh f.b))).flatMap (fun c => wordsOf c.2.signers))

/-- Every other word of a context counts as complete in the saved histories (R107, R295). -/
def closeHistories (s : State) (ctxId : Nat) : State :=
  let frags := (ctxFrags s ctxId).filterMap (frag s)
  let words := frags.flatMap (fun f => f.hist ++ f.older) ++ (s.copies.filter (fun c => c.orig.ctx == ctxId)).map Copy.wid ++
    (s.mops.filter (fun m => m.orig.ctx == ctxId)).flatMap MOp.words
  let keep := openWords s ctxId
  { s with incomplete := s.incomplete.filter (fun w => keep.contains w || !words.contains w) }

/-- The rotations of a pond's launch at the slots of its core (R63), as slot and last pool number. -/
def rotsOf (s : State) (d : Pond) : List (Nat × Nat) :=
  (s.rot.filter (fun r => d.core == some r.1 && (block s d.blk).any (fun b => b.launch == r.2.2.1))).map (fun r => (r.2.1, r.2.2.2))

/-- A context switched out (R295, R298, R338): its held records carry PEND, and no pond of it stands on a core. -/
def switchOut (s : State) (c : Ctx) : State :=
  let s := closeHistories s c.rcd.id
  let bs := ctxBlocks s c.rcd.id
  let s := bs.foldl (fun s b => ((block s b.id).map (fun b => saveBuffer c ((blockPonds s b.id).foldl (savePond c b) s) b)).getD s) s
  let mine (b : Nat) : Bool := bs.any (fun x => x.id == b)
  let s := { s with
    leaving := (ctxPonds s c.rcd.id).filterMap (fun d => d.core.map (fun k => (d.id, k)))
    ponds := updWhere (fun d => mine d.blk) (fun d => { d with core := none, rots := rotsOf s d }) s.ponds
    rot := s.rot.filter (fun r => !(ctxPonds s c.rcd.id).any (fun d => d.core == some r.1 && (block s d.blk).any (fun b => b.launch == r.2.2.1)))
    blocks := updWhere (fun b => mine b.id) (fun b => { b with lake := none, stuckAt := [] }) s.blocks
    mops := updWhere (fun m => m.orig.ctx == c.rcd.id) resetMop s.mops }
  updCtx s c.rcd.id (fun x => { x with
    running := false
    switchAsked := false
    held := x.held.map (fun r => { r with raw := r.raw ||| BitVec.twoPow 512 9 }) })

/-- The traps and halts of a context that stand before its image is saved (R377). -/
def settleStops (s : State) (ctxId : Nat) : State :=
  let s := settleTraps s ctxId
  (ctxBlocks s ctxId).foldl settleHalt s

/-- The pre-emption of a running context, step by step (R295, R377): the halts that its engines still start complete too. -/
def preempt (s : State) (c : Ctx) : State :=
  let id := c.rcd.id
  let s := settleStops s id
  let s := settleOps (settleAccs id (s.accs.length + 1) s)
  let s := settleCopies (settleMops s id) id
  let s := settleInvals (settleOps (settleAccs id (s.accs.length + 1) s))
  let s := s.slices.foldl goHome (settleStops s id)
  switchOut s ((ctx s id).getD c)

/-- CONTEXT_PREEMPT (R295): the runtime pre-empts a context on all its cores; one that is switched out already stays so. -/
def execContextPreempt (c : Nat) (s : State) : Host.Outcome State Fault Refusal :=
  match ctx s c with
  | some x => .next (if x.running then preempt s x else s)
  | none => .next s

/-- The fields of a context record (R280). -/
def ctxRecOf (v : BitVec 2048) : CtxRec :=
  let r := v.toNat
  { root := bits r 0 64, objBase := bits r 64 64, locBase := bits r 128 64, locSize := bits r 192 32, bslots := bits r 224 32
    handler := bits r 256 64, harea := bits r 320 64, sched := bits r 384 64, schedN := bits r 448 32, qbase := bits r 480 64
    imgBase := bits r 544 64, spdBase := bits r 608 64, thrBase := bits r 672 64, fqBase := bits r 736 64, fqLog2 := bits r 800 16
    wellAge := bits r 816 16, park := bits r 832 7, objWr := r.testBit 839, lakes := bits r 840 24, id := bits r 864 16
    step := bits r 880 32, hextent := bits r 912 32 }

/-- A context as it first resumes. -/
def newCtx (r : CtxRec) : Ctx where
  rcd := r
  running := true
  stalled := false
  seq := 0
  held := []
  pages := []
  priv := []
  hdrs := []
  privGaps := []
  hdrGaps := []
  fqErr := 0
  transl := []
  met := []
  gwn := []
  switchAsked := false

/-- A context takes its record as the runtime gives it (R280); at a switch-out the device has left STEP in its own copy (log 34). -/
def takeRecord (s : State) (r : CtxRec) : State :=
  match ctx s r.id with
  | none => { s with ctxs := s.ctxs ++ [newCtx r] }
  | some _ => updCtx s r.id (fun x => { x with
      rcd := r
      running := true
      stalled := x.fqErr.getLsbD 8 })

/-- The place fields of a pond's live threads as the runtime has left them (R374); one that cannot be read stands. -/
def placeFields (s : State) (c : Ctx) (b : Block) (d : Pond) : List Nat :=
  (pondThreads s d.id).map (fun t => match areaRead s c (stateArea c b d + 64 * t.entry + 16) 8 with
    | .ok bs => leNat bs
    | .error _ => placeField s b.halted t)

/-- The addresses of a pond's fragment records go to its fragments (R374). -/
def takeAddresses (c : Ctx) (b : Block) (s : State) (d : Pond) : State :=
  let fs := pondFrags s d.id
  ((List.range fs.length).zip fs).foldl (fun s p => match areaRead s c (stateArea c b d + 262144 + 64 * p.1) 8 with
    | .ok bs => if leNat bs = p.2.pc then s else updFrag s p.2.ref (fun f => { f with pc := leNat bs, yOnly := false })
    | .error _ => s) s

/-- The fragments of a halted block that the runtime resumes go on, each at the address of its record (R374): also one that waited for a trap
frame, whose trap it meets anew if its word is still there. -/
def unhalt (s : State) (b : Block) : State :=
  let mine := blockFrags s b.id
  let hold (f : Frag) : Hold := match f.hold with
    | .faulted | .frame .. => .free
    | h => h
  let s := { s with frags := updWhere (fun f => mine.contains f.ref) (fun f => { f with
    stopped := false
    skid := 0
    hold := hold f }) s.frags }
  updBlock s b.id (fun x => { x with
    halted := false
    halt := none
    reached := [] })

/-- What the runtime has done with a block while its context was switched out (R374): killed it, resumed it, or left it. -/
def takeAction (c : Ctx) (s : State) (b : Block) : State :=
  let ps := (blockPonds s b.id).flatMap (placeFields s c b)
  if !ps.isEmpty && ps.all (fun p => !p.testBit 0) then killBlock s b
  else
    let s := (blockPonds s b.id).foldl (takeAddresses c b) s
    if b.halted && ps.all (fun p => !p.testBit 1) then unhalt s b else s

/-- The state of a context's blocks restored (R244, R297 item 1). -/
def restoreBlock (c : Ctx) (s : State) (b : Block) : State :=
  let mine := blockFrags s b.id
  let s := { s with frags := updWhere (fun f => mine.contains f.ref) (fun f => { f with pace := 0, transl := false, recent := f.recent.filter Recent.long }) s.frags }
  updThreads s (fun t => t.blk == b.id) (fillStack s c b)

/-- Every switched-out block of a context that finds room is placed (R297). -/
def placeCtx (s : State) (c : Ctx) : State :=
  (s.launches.filter (fun l => l.ctx == c.rcd.id)).foldl (fun s l =>
    (List.range (outBlocks s l).length).foldl (fun s _ => (placeLaunch s c l).getD s) s) s

/-- The record of a core error for a block (R368, R369). -/
def coreRecord (b : Block) (cause detail core : Nat) : Rec := { cause := cause, detail := detail, bx := b.bx, byy := b.byy, bz := b.bz, core := core }

/-- The words that the fragments, engines and phases of a block have not completed. -/
def blockWords (s : State) (b : Block) : List Nat :=
  let mine (p : Nat) : Bool := (pond s p).any (fun d => d.blk == b.id)
  ((blockFrags s b.id).filterMap (frag s)).flatMap (fun f => f.hist ++ f.older) ++
    ((s.accs.filter (fun x => x.orig.blk == b.id)).map Access.wid) ++
    ((s.copies.filter (fun c => c.orig.blk == b.id)).map Copy.wid) ++
    ((s.ops.filter (fun o => (pool s o.pool).any (fun p => mine p.pond))).map Op.wid) ++
    ((s.mops.filter (fun m => mine m.pond)).flatMap MOp.words) ++
    ((blockPonds s b.id).flatMap (fun d => d.conv.flatMap (fun c => wordsOf c.2.signers)))

/-- A block goes without being saved (R299): its ponds and everything in them, its copies and its round state; what its words have
performed stays. -/
def dropBlock (s : State) (b : Block) : State :=
  let words := blockWords s b
  let ps := (blockPonds s b.id).map Pond.id
  let mine (p : Nat) : Bool := ps.contains p
  let pools := (s.pools.filter (fun p => mine p.pond)).map Pool.id
  let ofBlock (k : BarKey) : Bool := match k with
    | .pool p => pools.contains p
    | .pond p => mine p
    | .blk x | .named x _ => x == b.id
  { s with
    blocks := s.blocks.filter (fun x => x.id != b.id)
    ponds := s.ponds.filter (fun d => !mine d.id)
    pools := s.pools.filter (fun p => !pools.contains p.id)
    frags := s.frags.filter (fun f => !pools.contains f.pool)
    threads := s.threads.filter (fun t => t.blk != b.id)
    bars := s.bars.filter (fun x => !ofBlock x.key)
    colls := s.colls.filter (fun c => !mine c.pond)
    ops := s.ops.filter (fun o => !pools.contains o.pool)
    accs := s.accs.filter (fun x => x.orig.blk != b.id)
    copies := s.copies.filter (fun c => c.orig.blk != b.id)
    mops := s.mops.filter (fun m => !mine m.pond)
    incomplete := s.incomplete.filter (fun w => !words.contains w) }

/-- A restartable block is to run again (R299, R383): in its slot and in the lake of R41, from its start. -/
def restartBlock (s : State) (b : Block) : State :=
  updLaunch (dropBlock s b) b.launch (fun l => { l with again := l.again ++ [⟨b.lin, b.slot, l.lakeOf b.lin, b.restarts + 1⟩] })

/-- What a core error does to a block (R382, R383). -/
def strike (core part : Nat) (s : State) (b : Block) : State :=
  match launch s b.launch with
  | none => s
  | some l =>
    if !l.kernel.restart then killBlock (deviceRecord s l.ctx (coreRecord b 0x80 (core + 2 ^ 8 * part) core)) b
    else if b.restarts < 3 then restartBlock (deviceRecord s l.ctx (coreRecord b 0x84 (core + 2 ^ 8 * (b.restarts + 1)) core)) b
    else killBlock (deviceRecord s l.ctx (coreRecord b 0x85 (core + 2 ^ 8 * 3) core)) b

/-- A core error that met a block while it was switched out is applied as its context resumes (R382). -/
def strikeLate (s : State) (b : Block) : State :=
  match firstSome Pond.struck (blockPonds s b.id) with
  | none => s
  | some v =>
    let s := { s with ponds := updWhere (fun d => d.blk == b.id) (fun d => { d with struck := none }) s.ponds }
    if (blockThreads s b.id).isEmpty then s else strike (v % 256) (v / 256) s b

/-- CONTEXT_RESUME (R280, R297, R359, R374, R382): the device reads the context record, acts on what the runtime did and on a core error that
awaits, places the blocks and makes everything parked replay. A running context keeps its record; in STANDBY nothing is placed (R309). -/
def execContextResume (record : BitVec 2048) (s : State) : Host.Outcome State Fault Refusal :=
  let r := ctxRecOf record
  if !s.host.go || (ctx s r.id).any Ctx.running then .next s
  else
    let s := newWidths (takeRecord s r) r.id
    match ctx s r.id with
    | none => .next s
    | some c =>
      let s := (ctxBlocks s r.id).foldl (restoreBlock c) s
      let s := (ctxBlocks s r.id).foldl (takeAction c) s
      let s := (ctxBlocks s r.id).foldl strikeLate s
      let s := refreshPriv s r.id
      let s := if atWork s then placeCtx s c else s
      .next (((parkedIn s r.id).map Prod.fst).foldl setDue s)

/-- The safe points that the word at an address makes (R117): the target of a branch to the same or an earlier address, the entry that a CALL
names, and the address behind a call. -/
def safeOf (s : State) (c : Ctx) (a : Nat) : List Nat :=
  let one (i : Instr) : List Nat := match i with
    | .bra _ off => if relTarget a off ≤ a then [relTarget a off] else []
    | .call _ off => [relTarget a off, a + 16]
    | .callx .. => [a + 16]
    | _ => []
  match areaRead s c a 16 with
  | .error _ => []
  | .ok bs => match decodeWord (leNat bs) with
    | .ok (.one _ i) => one i
    | _ => []

/-- The code that may lead into a range of addresses: the kernels that meet it, and the range itself. -/
def codeAround (s : State) (ctxId lo hi : Nat) : List Nat :=
  let words (base n : Nat) : List Nat := (List.range (n / 16)).map (fun i => base + 16 * i)
  let ks := (s.launches.filter (fun l => l.ctx == ctxId && meets lo (hi - lo) (l.kernel.code, l.kernel.extent))).map Launch.kernel
  distinct (ks.flatMap (fun k => words k.code k.extent) ++ words ((lo + 15) / 16 * 16) (hi - lo))

/-- TRANSLATION_INSTALL (R117): translated code for a range of a context's code is in place; fragments enter it at the safe points of the code
as it stands. -/
def execTranslationInstall (c lo hi : Nat) (s : State) : Host.Outcome State Fault Refusal :=
  match ctx s c with
  | none => .next s
  | some x =>
    let safe := distinct (((codeAround s c lo hi).flatMap (safeOf s x)).filter (fun a => decide (lo ≤ a ∧ a < hi)))
    .next (updCtx s c (fun x => { x with transl := x.transl ++ [⟨lo, hi, safe⟩] }))

end Sys2Proof.Machine
end

