-- ==== Sys2Proof/Machine/HostLink.lean ====
section
/-! DEFINITION. The host link (16 R300 to R304, R309, R311): GO, PSTATE, shootdowns, flushes, the BAR2 window and host memory, the mode of an L2
partition (13 R255), and what BAR0 reads as. -/

namespace Sys2Proof.Machine

/-- The registers of BAR0 replaced. -/
def setHost (s : State) (f : HostRegs → HostRegs) : State := { s with host := f s.host }

/-- An action on a part that has power; without it the action finds nothing (R309). -/
def withPower (s : State) (f : State → State) : Host.Outcome State Fault Refusal := .next (if s.host.powered then f s else s)

/-- GO (R302, R307): honoured at STAGE 3, once; FEATDRV becomes FEATDEV and FEATDRV. -/
def setGo (s : State) : State :=
  if s.host.stage = 3 ∧ s.host.go = false then setHost s (fun h => { h with go := true, featdrv := h.featdrv &&& Config.featDev }) else s

/-- GO (R302). -/
def execGo (s : State) : Host.Outcome State Fault Refusal := withPower s setGo

/-- Some pond of a context is placed on a core (R309). -/
def resident (s : State) : Bool := s.ponds.any (fun d => d.core.isSome)

/-- What the part holds without power: nothing of its own. Host memory and the peers' are not its own (R309). -/
def withoutPower (s : State) : State :=
  { State.reset with
    host := { HostRegs.reset with powered := false }
    mem := s.mem.filter (fun c => decide (Config.deviceTop ≤ c.1))
    nextId := s.nextId
    free := s.free
    choices := s.choices
    inbox := s.inbox }

/-- PSTATE takes a code (R54, R309): the register, and with a new operating point the native widths. -/
def takePstate (s : State) (code : Nat) : State :=
  let t := setHost s (fun h => { h with pstate := code, refused := false })
  if s.host.pstate = code then t else (s.ctxs.map (fun c => c.rcd.id)).foldl newWidths t

/-- A PSTATE write (R309): codes 10 to 15 are ignored; STANDBY and OFF are refused while a context is resident; OFF retains nothing. -/
def writePstate (s : State) (v : DWord) : State :=
  let code := bits v.toNat 0 4
  if 10 ≤ code then s
  else if 8 ≤ code ∧ resident s = true then setHost s (fun h => { h with refused := true })
  else if code = 9 then withoutPower s
  else takePstate s code

/-- PSTATE_WRITE (R309). -/
def execPstateWrite (value : DWord) (s : State) : Host.Outcome State Fault Refusal := withPower s (fun s => writePstate s value)

/-- SHOOTGO (R301): as XLINV of context SHOOTCTX, over the range of SHOOTVA and SHOOTLEN or over everything; ignored while one is pending. -/
def shoot (s : State) (all : Bool) : State :=
  if s.host.shooting then s
  else
    let h := s.host
    let ranges := if all || h.shootLen = 0 then [] else [(h.shootVa.toNat, h.shootLen.toNat)]
    setHost (beginInval s (h.shootCtx.toNat % 2 ^ 16) ranges all true).2 (fun h => { h with shooting := true, shootAll := all })

/-- SHOOTDOWN_RANGE (R301). -/
def execShootdownRange (s : State) : Host.Outcome State Fault Refusal := withPower s (fun s => shoot s false)
/-- SHOOTDOWN_ALL (R301). -/
def execShootdownAll (s : State) : Host.Outcome State Fault Refusal := withPower s (fun s => shoot s true)

/-- FLUSHGO (R304): ignored while one is pending. -/
def startFlush (s : State) (inv : Bool) : State :=
  if s.host.flushing then s
  else setHost s (fun h => { h with
    flushing := true
    flushFrom := h.flushPa.toNat
    flushTo := h.flushPa.toNat + h.flushLen.toNat
    flushInv := inv })

/-- FLUSH_WRITEBACK (R304). -/
def execFlushWriteback (s : State) : Host.Outcome State Fault Refusal := withPower s (fun s => startFlush s false)
/-- FLUSH_INVALIDATE (R304). -/
def execFlushInvalidate (s : State) : Host.Outcome State Fault Refusal := withPower s (fun s => startFlush s true)

/-- The flush covers a host line (R304). -/
def HostRegs.flushes (h : HostRegs) (line : Nat) : Bool :=
  decide (h.flushFrom < (line + 1) * 128 ∧ line * 128 < h.flushTo)

/-- The host lines that the flush covers and of which the device holds a copy, in a slice or in the caches. -/
def flushLines (s : State) : List Nat :=
  distinct (((s.slices.map (fun y => lineOf y.addr)).filter (fun l => isHost (l * 128)) ++ s.hostLines.map HostLine.line).filter s.host.flushes)

/-- Every line of the flush is performed at host memory, and FLUSHGO reads 0 (R304). -/
def completeFlush (s : State) : State :=
  let inv := s.host.flushInv
  setHost ((flushLines s).foldl (fun s l => writeBack (settleLine s l) l inv) s) (fun h => { h with flushing := false })

/-- FLUSH_COMPLETE (R304). -/
def execFlushComplete (s : State) : Host.Outcome State Fault Refusal :=
  if s.host.flushing then .next (completeFlush s) else .fault .notEnabled

/-- The device address of a byte of the window (R300). -/
def windowByte (s : State) (a : Nat) : Nat := bits s.host.winoff.toNat 36 16 * 2 ^ 36 + a

/-- The address of a host agent's byte: through the window, none beyond the device range, or in host memory (R251, R300). -/
def hostByte (s : State) (target : HostTarget) (a : Nat) : Option Nat :=
  match target with
  | .window => if windowByte s a < Config.deviceTop ∧ a < 2 ^ 36 then some (windowByte s a) else none
  | .hostMem => if Config.hostBase + a < Config.physTop then some (Config.hostBase + a) else none

/-- A byte of memory written by an agent outside this module, behind the writes at slices to its line: images of the line take it too, no lake
holds the line of a peer any more (R254 item 5), and no context has written it then (R381). -/
def landByte (s : State) (pa : Nat) (b : Byte) : State :=
  let s := mirror (settleLine s (lineOf pa)) pa [b]
  { s with
    mem := putByte s.mem pa b
    lineTag := mapErase s.lineTag (lineOf pa)
    peerLines := s.peerLines.filter (fun p => p.2 != lineOf pa) }

/-- A byte of this module's own memory written by an agent outside it. -/
def agentPut (s : State) (pa : Nat) (b : Byte) : State := if Config.deviceTop ≤ pa then s else landByte s pa b

/-- Bytes of this module's own memory written by an agent outside it. -/
def agentPuts : Nat → List Byte → State → State
  | _, [], s => s
  | a, b :: r, s => agentPuts (a + 1) r (agentPut s a b)

/-- A byte of this module's own memory that an agent outside it reads: an open value in a poisoned line (log 6). -/
def agentByte (s : State) (pa : Nat) : Byte :=
  if s.badLines.contains (lineOf pa) then BitVec.ofNat 8 (Config.freeCell s.free pa) else byteAt s.mem pa

/-- A byte that a host agent reads (R254 item 6, R300): ones beyond the device range, and an open value in a poisoned line (log 6). -/
def hostReads (s : State) (target : HostTarget) (a : Nat) : Byte :=
  match hostByte s target a with
  | none => 0xFF
  | some pa => agentByte s pa

/-- A byte that a host agent writes (R300); host memory takes it at once, and stale copies in the device stay (R254 item 6): the round-start image of
a line whose copy the device holds is one. -/
def hostPut (s : State) (target : HostTarget) (a : Nat) (b : Byte) : State :=
  match hostByte s target a with
  | none => s
  | some pa => if target = .window then agentPut s pa b
    else
      let s := if (hostLine s (lineOf pa)).isSome then s else mirror s pa [b]
      { s with mem := putByte s.mem pa b }

/-- Bytes that a host agent writes. -/
def hostPuts (target : HostTarget) : Nat → List Byte → State → State
  | _, [], s => s
  | a, b :: r, s => hostPuts target (a + 1) r (hostPut s target a b)

/-- The whole aligned lines of a transfer through the window lose their poison (R380); bytes beyond the device range are dropped (R300). -/
def cleanLines (s : State) (target : HostTarget) (a n : Nat) : State :=
  if target = .window then
    let lo := windowByte s a
    let n := min n (2 ^ 36 - a)
    { s with badLines := s.badLines.filter (fun l => !(decide (lo ≤ l * 128 ∧ (l + 1) * 128 ≤ lo + n ∧ (l + 1) * 128 ≤ Config.deviceTop))) }
  else s

/-- A host agent's access (R300): a read gives its bytes, and a write lands; the headers that it may have changed are taken anew (R246). -/
def hostAccess (s : State) (target : HostTarget) (a n : Nat) (data : Option (List Byte)) : State :=
  match data with
  | none => setHost { s with free := s.free + 1 } (fun h => { h with readData := (List.range n).map (fun i => hostReads s target (a + i)) })
  | some bs =>
    let s := cleanLines (hostPuts target a (bs.take n) s) target a (bs.take n).length
    ((s.ctxs.filter Ctx.running).map (fun c => c.rcd.id)).foldl refreshPriv s

/-- HOST_WINDOW_ACCESS (R300). -/
def execHostWindowAccess (target : HostTarget) (addr n : Nat) (data : Option (List Byte)) (s : State) : Host.Outcome State Fault Refusal :=
  withPower s (fun s => hostAccess s target addr n data)

/-- A context runs on a core of the basin (R255). -/
def basinBusy (s : State) (basin : Nat) : Bool :=
  s.ponds.any (fun d => d.core.any (fun c => Config.basinOf c == basin) &&
    (block s d.blk).any (fun b => (launch s b.launch).any (fun l => (ctx s l.ctx).any Ctx.running)))

/-- The host lines of a partition: those homed in its basin (R252, R255). -/
def partitionLines (s : State) (basin : Nat) : List Nat := (s.hostLines.map HostLine.line).filter (fun l => homeOf (l * 128) == basin)

/-- The mode of a partition changes (R255): its lines are written back and dropped first. -/
def changeMode (s : State) (basin : Fin 8) (priv : Bool) : State :=
  if !(feature s 2) || basinBusy s basin then s
  else
    let s := (partitionLines s basin).foldl (fun s l => writeBack (settleLine s l) l true) s
    { s with l2priv := s.l2priv.filter (· != basin) ++ (if priv then [basin] else []) }

/-- L2_MODE_CHANGE (R255): only while no context runs on the basin's cores, and private mode only as a negotiated feature (R302). -/
def execL2ModeChange (basin : Fin 8) (priv : Bool) (s : State) : Host.Outcome State Fault Refusal :=
  withPower s (fun s => changeMode s basin priv)

/-- AGE_UPDATE (R311). -/
def execAgeUpdate (die : Fin 8) (hours : Word) (s : State) : Host.Outcome State Fault Refusal :=
  withPower s (fun s => setHost s (fun h => { h with age := h.age.set die.val hours }))

/-- A feature has been refused at negotiation (R302). -/
def refusedFeature (s : State) (i : Nat) : Bool := s.host.go && !s.host.featdrv.getLsbD i

/-- BOOTSTAT (R307). -/
def HostRegs.bootstat (h : HostRegs) : Nat := h.stage + 2 ^ 4 * h.bootSrc + 2 ^ 8 * h.bootCause

/-- MBXSTAT (R308). -/
def HostRegs.mbxstat (h : HostRegs) : Nat :=
  h.mbxBusy.toNat + 2 * h.mbxDone.toNat + 4 * h.mbxNeed.toNat + 2 ^ 8 * h.mbxResult + 2 ^ 16 * (h.mbxRlen % 4096)

/-- FQERR of a context (R301, R339). -/
def fqErrOf (s : State) (off : Nat) : DWord := match ctx s ((off - 0xA00000) / 8) with | some c => c.fqErr | none => 0

/-- What a register of BAR0 reads as (R301 to R311); offsets that the table does not list read 0. -/
def regRead (s : State) (off : Nat) : DWord :=
  let h := s.host
  let live (i : Nat) (v : DWord) : DWord := if refusedFeature s i then 0 else v
  if off % 8 ≠ 0 then 0
  else if off = 0x00 then Config.featDev
  else if off = 0x08 then h.featdrv
  else if off = 0x10 then BitVec.ofNat 64 h.go.toNat
  else if off = 0x18 then h.winoff
  else if off = 0x20 then BitVec.ofNat 64 (h.pstate + 16 * h.refused.toNat)
  else if off = 0x28 then BitVec.ofNat 64 h.bootstat
  else if 0x30 ≤ off ∧ off < 0x70 then (h.age.getD ((off - 0x30) / 8) 0).setWidth 64
  else if off = 0x80 then live 1 h.logBase
  else if off = 0x88 then live 1 h.logCtl
  else if off = 0x90 then live 1 h.logProd
  else if off = 0x98 then live 1 h.logCons
  else if off = 0xC0 then h.shootCtx
  else if off = 0xC8 then h.shootVa
  else if off = 0xD0 then h.shootLen
  else if off = 0xD8 then BitVec.ofNat 64 h.shooting.toNat
  else if off = 0xE0 then h.flushPa
  else if off = 0xE8 then h.flushLen
  else if off = 0xF0 then BitVec.ofNat 64 h.flushing.toNat
  else if off = 0x100 then live 3 h.collBase
  else if off = 0x108 then live 3 h.collLog2
  else if off = 0x110 then live 3 h.collTail
  else if off = 0x200 then h.mbxCtl
  else if off = 0x208 then BitVec.ofNat 64 h.mbxstat
  else if off = 0x210 then BitVec.ofNat 64 (h.mbxOffset % 2 ^ 32)
  else if 0x1000 ≤ off ∧ off < 0x2000 then BitVec.ofNat 64 (valueAt h.mbxBuf (off - 0x1000) 8)
  else if 0xA00000 ≤ off ∧ off < 0xA80000 then fqErrOf s off
  else 0

end Sys2Proof.Machine
end

