-- ==== Sys2Proof/Machine/Ras.lean ====
section
/-! DEFINITION. Damaged hardware (24 R379 to R384): uncorrectable errors, core errors, and links that fail. -/

namespace Sys2Proof.Machine

/-- A memory line is poisoned (R380). -/
def poisonLine (s : State) (line : Nat) : State := if s.badLines.contains line then s else { s with badLines := line :: s.badLines }

/-- The context that last wrote a dirty line (R381): that of the newest write at a slice, of the device's copy of a host line, or of the line at
its home. -/
def tagOf (s : State) (line : Nat) : Option Nat :=
  match (s.slices.filter (fun y => lineOf y.addr == line)).getLast?, hostLine s line with
  | some y, _ => some y.orig.ctx
  | none, some h => if h.dirty then h.ctxs.head? else none
  | none, none => mapGet s.lineTag line

/-- The eviction of a dirty line reveals an error (R381): the line is written back poisoned, and its context is charged. -/
def evictPoisoned (s : State) (pa by_ : Nat) : State :=
  let line := lineOf pa
  match tagOf s line with
  | none => s
  | some c =>
    let s := poisonLine (writeBack (settleLine s line) line true) line
    let s := { s with lineTag := mapErase s.lineTag line }
    deviceRecord s c { cause := 0x83, detail := by_ % 2 ^ 16, addr := some (line * 128), core := 0xFF }

/-- The name of a register or slot among poisoned copies (R380): slots follow at 1,000. -/
def withPoison (l : List Nat) (r : Nat) : List Nat := if l.contains r then l else r :: l

/-- A unit takes damage (R380); one that does not exist takes none. -/
def damage (s : State) : PoisonUnit → State
  | .line pa => if populated s pa then poisonLine s (lineOf pa) else s
  | .evicted pa by_ => evictPoisoned s pa by_
  | .granule p addr => updPond s p (fun d => if addr < d.size then { d with badGrans := withPoison d.badGrans (granOf addr) } else d)
  | .spring blk tid r => updThread s ⟨blk, tid⟩ (fun t =>
      if (mapGet t.springs r).isSome || (decide (1000 ≤ r) && (mapGet t.slots (r - 1000)).isSome) then { t with poison := withPoison t.poison r } else t)
  | .poolCopy p r => updPool s p (fun x =>
      if (mapGet x.copies r).isSome || (decide (1000 ≤ r) && (mapGet x.slots (r - 1000)).isSome) then { x with poison := withPoison x.poison r } else x)
  | .pondCopy p r => updPond s p (fun d => if r < 768 ∨ (1000 ≤ r ∧ r < 1008) then { d with poison := withPoison d.poison r } else d)
  | .slot p idx => updPond s p (fun d => { d with
      held := updWhere (fun r => r.idx == idx && r.phys) (fun r => { r with poisoned := true }) d.held })

/-- UNCORRECTABLE_ERROR (R380, R381). -/
def execUncorrectableError (what : PoisonUnit) (s : State) : Host.Outcome State Fault Refusal := withPower s (fun s => damage s what)

/-- The blocks that a core error ends: those with a pond on the core and a thread left. -/
def struck (s : State) (core : Nat) : List Block :=
  s.blocks.filter (fun b => (blockCores s b.id).contains core && !(blockThreads s b.id).isEmpty)

/-- A core fails (R382): it takes no new pond, and its blocks end; for the ponds that are just being switched out, the error awaits their
resumption. -/
def coreError (s : State) (core part : Nat) : State :=
  if Config.cores ≤ core then s
  else
    let bs := struck s core
    let s := { s with
      badCores := if s.badCores.contains core then s.badCores else s.badCores ++ [core]
      ponds := updWhere (fun d => s.leaving.contains (d.id, core)) (fun d => { d with struck := some (core + 2 ^ 8 * part) }) s.ponds }
    bs.foldl (strike core part) s

/-- CORE_ERROR (R382). -/
def execCoreError (core : Nat) (part : Fin 6) (s : State) : Host.Outcome State Fault Refusal := withPower s (fun s => coreError s core part.val)

/-- A link is dropped from routing, and with it the modules that no path reaches any more (R305, R384). -/
def dropLink (s : State) (link : Fin 24) (lost : List Nat) : State :=
  setHost s (fun h => { h with
    lostLinks := if h.lostLinks.contains link then h.lostLinks else h.lostLinks ++ [link]
    lostModules := distinct (h.lostModules ++ lost.filter (fun m => m < Config.modules && m != h.moduleNo)) })

/-- LINK_FAILURE (R305, R384). -/
def execLinkFailure (link : Fin 24) (lost : List Nat) (s : State) : Host.Outcome State Fault Refusal := withPower s (fun s => dropLink s link lost)

end Sys2Proof.Machine
end

