-- ==== Sys2Proof/Machine/Boot.lean ====
section
/-! DEFINITION. Power, boot, reset and attestation (16 R302, R307 to R309; 24 R386, R387). -/

namespace Sys2Proof.Machine

/-- The boot halts at STAGE 15 with the last failure's cause (R386). -/
def bootFails (s : State) (src cause : Nat) : State :=
  setHost s (fun h => { h with stage := 15, bootSrc := src, bootCause := cause, mbxNeed := false, image := [] })

/-- The firmware runs: STAGE 3 (R307), and the fabric manager gives the module its number (R305). -/
def bootDone (s : State) (src : Nat) (image : List Byte) : State :=
  setHost { s with free := s.free + 1 } (fun h => { h with
    stage := 3
    bootSrc := src
    bootCause := 0
    mbxNeed := false
    image := image
    moduleNo := Config.moduleNumber s.free % Config.modules })

/-- The failure that the checks of an image find (R386): its form, its key against the fuses, its signature. -/
def imageFault (image : List Byte) : Option Nat :=
  if !Config.imageWellFormed image then some 0xA5
  else if !Config.imageKeyMatches image then some 0xA7
  else if !Config.imageVerifies image then some 0xA6
  else none

/-- The ROM waits for a chunk of the image from the host (R308). -/
def wantChunk (s : State) (image : List Byte) : State :=
  setHost s (fun h => { h with stage := 1, bootSrc := 2, mbxNeed := true, mbxOffset := image.length, image := image })

/-- The source behind a failed one: the host where the strap selects it, none otherwise (R307, R386). -/
def nextSource (s : State) (host : Bool) (cause : Nat) : State := if host then wantChunk s [] else bootFails s 1 cause

/-- The ROM runs (R307): its self-check, the identity key, then the sources in their order. -/
def boot (s : State) : State :=
  let n := s.free
  let s := { s with free := n + 1 }
  if !Config.romCheck n then bootFails s 0 0xA8
  else if !Config.identityKey n then bootFails s 0 0xA9
  else match Config.fabricImage n with
    | none => nextSource s (Config.hostStrap n) 0xA4
    | some image => match imageFault image with
      | none => bootDone s 1 image
      | some cause => nextSource s (Config.hostStrap n) cause

/-- POWER_ON (R307): power comes, or the ROM of a part that has just been reset runs; a part that has booted takes no notice. -/
def execPowerOn (s : State) : Host.Outcome State Fault Refusal :=
  .next (if s.host.powered = false ∨ (s.host.stage = 0 ∧ s.host.mbxNeed = false) then boot (setHost (withoutPower s) (fun h => { h with powered := true })) else s)

/-- POWER_REMOVE (R309). -/
def execPowerRemove (s : State) : Host.Outcome State Fault Refusal := .next (withoutPower s)

/-- The registers after a module reset (R302): the boot, the firmware, the module's number, the age and the state of the links stand. -/
def HostRegs.resetModule (h : HostRegs) : HostRegs :=
  { HostRegs.reset with
    stage := h.stage
    bootSrc := h.bootSrc
    bootCause := h.bootCause
    image := h.image
    mbxNeed := h.mbxNeed
    mbxOffset := h.mbxOffset
    moduleNo := h.moduleNo
    age := h.age
    lostLinks := h.lostLinks
    lostModules := h.lostModules
    powered := h.powered }

/-- The part after a module reset (R302, R382): memory and its poison stand, and everything that ran is gone. -/
def resetModule (s : State) : State :=
  { State.reset with
    host := s.host.resetModule
    mem := s.mem
    badLines := s.badLines
    nextId := s.nextId
    free := s.free
    choices := s.choices
    inbox := s.inbox }

/-- MODULE_RESET (R302). -/
def execModuleReset (s : State) : Host.Outcome State Fault Refusal := withPower s resetModule

/-- The mailbox's last command has finished (R308). -/
def mailboxDone (s : State) (result rlen : Nat) : State :=
  setHost s (fun h => { h with mbxDone := true, mbxResult := result, mbxRlen := rlen })

/-- LEN of MBXCTL (R308). -/
def mbxLen (v : DWord) : Nat := if bits v.toNat 16 12 = 0 then 4096 else bits v.toNat 16 12

/-- The first bytes of the mailbox buffer. -/
def HostRegs.mailbox (h : HostRegs) (n : Nat) : List Byte := bytesAt h.mbxBuf 0 n

/-- The ROM takes a chunk (R307, R308): it asks for the next one until the length of the header has arrived, and then verifies the image. -/
def takeChunk (s : State) (v : DWord) : State :=
  let image := s.host.image ++ s.host.mailbox (mbxLen v)
  let s := mailboxDone s 0 0
  match Config.imageLength image with
  | none => wantChunk s image
  | some n =>
    if image.length < n then wantChunk s image
    else match imageFault image with
      | none => bootDone s 2 image
      | some cause => bootFails s 2 cause

/-- Whether a request for a report is answered, and the report (R307, R387). -/
def reportFor (s : State) (nonce : List Byte) : Option (List Byte) :=
  if nonce.length = 32 ∧ s.host.stage = 3 then some (Config.attestReport nonce s.host.image (if s.host.go then s.host.featdrv else 0)) else none

/-- A request in the mailbox (R308, R387). -/
def takeRequest (s : State) (v : DWord) : State :=
  if mbxLen v ≠ 32 then mailboxDone s 2 0
  else match reportFor s (s.host.mailbox 32) with
    | none => mailboxDone s 1 0
    | some r => mailboxDone (setHost s (fun h => { h with mbxBuf := putBytes h.mbxBuf 0 (r.take 4096) })) 0 (r.take 4096).length

/-- A write of MBXCTL (R308): a command, unless one is in progress. -/
def writeMailbox (s : State) (v : DWord) : State :=
  if s.host.mbxBusy then s
  else
    let s := setHost s (fun h => { h with mbxCtl := v &&& 0x0FFF00FF, mbxDone := false })
    if bits v.toNat 0 8 = 1 ∧ s.host.mbxNeed = true then takeChunk s v
    else if bits v.toNat 0 8 = 2 then takeRequest s v
    else mailboxDone s 1 0

/-- MBXCTL with another command code. -/
def withCmd (v : DWord) (cmd : Nat) : DWord := BitVec.ofNat 64 (v.toNat / 256 * 256 + cmd)

/-- MAILBOX_IMAGE_CHUNK (R308). -/
def execMailboxImageChunk (value : DWord) (s : State) : Host.Outcome State Fault Refusal := withPower s (fun s => writeMailbox s (withCmd value 1))
/-- MAILBOX_ATTESTATION (R308, R387). -/
def execMailboxAttestation (value : DWord) (s : State) : Host.Outcome State Fault Refusal := withPower s (fun s => writeMailbox s (withCmd value 2))

/-- MANAGEMENT_PORT_ATTESTATION (R307, R387). -/
def execManagementPortAttestation (nonce : List Byte) (s : State) : Host.Outcome State Fault Refusal :=
  withPower s (fun s => match reportFor s nonce with
    | some r => setHost s (fun h => { h with report := r })
    | none => s)

end Sys2Proof.Machine
end

