-- ==== Sys2Proof/Machine/Fabric.lean ====
section
/-! DEFINITION. The Voxide fabric (16 R305, R306; 24 R385): watershed collectives and accesses of peer modules; and the host's writes of BAR0
registers (16 R301). -/

namespace Sys2Proof.Machine

/-- Records of the collective ring (R306). -/
def collSize (h : HostRegs) : Nat := 2 ^ min 12 (max 4 h.collLog2.toNat)
/-- The address of a record of the collective ring (R306). -/
def collAddr (h : HostRegs) (n : Nat) : Nat := h.collBase.toNat + 64 * (n % collSize h)

/-- COLLTAIL written (R301, R306): the records up to the new tail are posted. Before GO the register holds what is written and posts nothing
(log 41); where negotiation refused the feature the write is ignored (R302). -/
def postTail (s : State) (tail : DWord) : State :=
  if refusedFeature s 3 then s
  else
    let n := if s.host.go then min (collSize s.host) (tail - s.host.collTail).toNat else 0
    setHost s (fun h => { h with
      collTail := tail
      posted := h.posted ++ (List.range n).map (fun i => (h.collTail + BitVec.ofNat 64 i).toNat) })

/-- COLLECTIVE_POST (R306). -/
def execCollectivePost (tail : DWord) (s : State) : Host.Outcome State Fault Refusal := withPower s (fun s => postTail s tail)

/-- SRC of a collective record (R306). -/
def collSrc (r : Nat) : Nat := bits r 0 64
/-- DST of a record. -/
def collDst (r : Nat) : Nat := bits r 64 64
/-- COUNT of a record. -/
def collCount (r : Nat) : Nat := bits r 128 40
/-- TYPE of a record. -/
def collType (r : Nat) : Nat := bits r 168 4
/-- OP of a record. -/
def collOp (r : Nat) : Nat := bits r 172 4
/-- RANKS of a record. -/
def collRanks (r : Nat) : Nat := bits r 176 16
/-- RANK of a record. -/
def collRank (r : Nat) : Nat := bits r 192 16
/-- GROUP of a record. -/
def collGroup (r : Nat) : Nat := bits r 208 32
/-- DONEADDR of a record. -/
def collDone (r : Nat) : Nat := bits r 256 64
/-- SEQ of a record. -/
def collSeq (r : Nat) : Nat := bits r 320 64

/-- Bytes of an element by TYPE (R306). -/
def collBytes (ty : Nat) : Nat := if ty = 3 then 8 else if ty = 1 then 2 else 4

/-- One step of a reduction (R306): `op(acc, x)` of two elements. -/
def collStep (op ty acc x : Nat) : Nat :=
  if ty = 0 ∨ ty = 1 then
    let f := if ty = 0 then fp32 else bf16
    if op = 0 then (roundTo f .rne false false 0 (fSum .rne (fvalue f acc) (fvalue f x)).v).1 else fExtreme f (op == 2) acc x
  else
    let o := if op = 0 then AtomOp.add else if op = 1 then .min else .max
    atomNew o (collBytes ty) (ty == 3) acc x 0

/-- The reduction of the members' elements, in rank order (R306). -/
def collReduce (op ty : Nat) : List Nat → Nat
  | [] => 0
  | x :: r => r.foldl (collStep op ty) x

/-- The element of a member's source bytes (R306). -/
def elemAt (ty : Nat) (bs : List Byte) (i : Nat) : Nat := leNat ((bs.drop (i * collBytes ty)).take (collBytes ty))

/-- The bytes of a collective's result (R306): `srcs` by rank. -/
def collResult (r : Nat) (srcs : List (List Byte)) : List Byte :=
  (List.range (collCount r)).flatMap (fun i => leBytes (collBytes (collType r)) (collReduce (collOp r) (collType r) (srcs.map (fun b => elemAt (collType r) b i))))

/-- The members agree (R385). -/
def agrees (r x : Nat) : Bool :=
  collRanks r == collRanks x && collOp r == collOp x && collType r == collType x && collCount r == collCount x

/-- The source bytes of a record. -/
def collSource (s : State) (r : Nat) : List Byte := homeBytes s (collSrc r) (collCount r * collBytes (collType r))

/-- A source line of the record is poisoned (R385). -/
def sourcePoisoned (s : State) (r : Nat) : Bool :=
  s.badLines.any (fun l => decide (l * 128 < collSrc r + collCount r * collBytes (collType r) ∧ collSrc r < (l + 1) * 128))

/-- A record that cannot be reduced on any terms (R385): OP or TYPE invalid, or a poisoned source. -/
def collBroken (s : State) (r : Nat) : Bool := decide (3 ≤ collOp r ∨ 4 ≤ collType r) || sourcePoisoned s r

/-- A member of a peer module whose source did not come whole: a line of it was poisoned (R385, log 40). -/
def sourceShort (r : Nat) (src : List Byte) : Bool := decide (src.length < collCount r * collBytes (collType r))

/-- The members that have posted, this module among them, in rank order. -/
def collMembers (s : State) (r : Nat) (peers : List (BitVec 512 × List Byte)) : List (Nat × List Byte) :=
  sortBy (fun m => collRank (m : Nat × List Byte).1) ((r, collSource s r) ::
    (peers.filter (fun p => collGroup p.1.toNat == collGroup r)).map (fun p => (p.1.toNat, p.2)))

/-- A member of the record's group is unreachable (R385). -/
def memberLost (s : State) (r : Nat) : Bool := s.host.lostModules.any (Config.groupHas (collGroup r))

/-- STATUS of a collective that ends with these members (R385), none while some have not posted. RANKS counts as it stands (log 40). -/
def collStatus (s : State) (r : Nat) (ms : List (Nat × List Byte)) (abandoned : Bool) : Option Nat :=
  if collBroken s r || ms.any (fun m => !agrees r m.1 || sourceShort r m.2) || (distinct (ms.map (fun m => collRank m.1))).length != ms.length then some 3
  else if ms.length < collRanks r then (if memberLost s r then some 3 else if abandoned then some 2 else none)
  else if ms.map (fun m => collRank m.1) != List.range (collRanks r) then some 3
  else if abandoned then some 2
  else some 1

/-- A collective ends (R306, R385): DST where it is complete, then STATUS, then SEQ at DONEADDR. -/
def endCollective (s : State) (n r status : Nat) (result : List Byte) : State :=
  let s := if status = 1 then agentPuts (collDst r) result s else s
  let s := agentPut s (collAddr s.host n + 30) (BitVec.ofNat 8 status)
  let s := agentPuts (collDone r) (leBytes 8 (collSeq r)) s
  setHost s (fun h => { h with posted := h.posted.filter (· != n) })

/-- The posted record of a number. -/
def collRecord (s : State) (n : Nat) : Option Nat :=
  if s.host.posted.contains n then some (homeValue s (collAddr s.host n) 64) else none

/-- A collective whose members, or whose failure, the fabric has gathered (R306, R385). -/
def gather (s : State) (n : Nat) (peers : List (BitVec 512 × List Byte)) (abandoned : Bool) : State :=
  match collRecord s n with
  | none => s
  | some r =>
    let ms := collMembers s r peers
    match collStatus s r ms abandoned with
    | none => s
    | some st => endCollective s n r st (collResult r (ms.map Prod.snd))

/-- COLLECTIVE_COMPLETE (R385). -/
def execCollectiveComplete (record : Nat) (peers : List (BitVec 512 × List Byte)) (abandoned : Bool) (s : State) : Host.Outcome State Fault Refusal :=
  withPower s (fun s => gather s record peers abandoned)

/-- STATUS of a collective whose time is over (R385): a member that no path reaches any more is the reason that the table names first (log 40). -/
def lateStatus (s : State) (r : Nat) : Nat := if collBroken s r || memberLost s r then 3 else 2

/-- COLLECTIVE_TIMEOUT (R385): a member has not posted in time. -/
def execCollectiveTimeout (record : Nat) (s : State) : Host.Outcome State Fault Refusal :=
  match collRecord s record with
  | none => .fault .notEnabled
  | some r => .next (endCollective s record r (lateStatus s r) [])

/-- The bytes that an access of another module reaches (R251, R305): this module's device memory, or memory of another module to which a path leads,
which is that module's own or the one that it accesses (log 48). -/
def linkBytes (s : State) (pa n : Nat) : Option Nat :=
  let a := ownAddr s pa
  let peer := isPeer a && decide ((a - Config.peerBase) % 2 ^ 40 + n ≤ Config.deviceTop) && !lostTo s a
  if feature s 0 && (decide (a + n ≤ Config.deviceTop) || peer) then some a else none

/-- The bytes that a peer reads. -/
def peerBytes (s : State) (a n : Nat) : List Byte := (List.range n).map (fun i => agentByte s (a + i))

/-- Bytes that a peer writes, in this module's memory or in a peer's. -/
def peerPuts : Nat → List Byte → State → State
  | _, [], s => s
  | a, b :: r, s => peerPuts (a + 1) r (landByte s a b)

/-- What an access of another module does (R305): a load and an atomic answer the bytes that they read. -/
def peerDoes (s : State) (pa : Nat) : PeerOp → State
  | .load n => match linkBytes s pa n with
    | some a => setHost { s with free := s.free + 1 } (fun h => { h with peerReply := peerBytes s a n })
    | none => s
  | .store bs => match linkBytes s pa bs.length with
    | some a => peerPuts a bs s
    | none => s
  | .atomic op wide uns b c =>
    let n := if wide then 8 else 4
    match linkBytes s pa n with
    | some a =>
      let s := settleLine s (lineOf a)
      let old := peerBytes s a n
      let new := leBytes n (atomNew op n uns (leNat old) (b.toNat % 2 ^ (8 * n)) (c.toNat % 2 ^ (8 * n)))
      peerPuts a new (setHost { s with free := s.free + 1 } (fun h => { h with peerReply := old }))
    | none => s

/-- PEER_ACCESS (R305). -/
def execPeerAccess (pa : Nat) (op : PeerOp) (s : State) : Host.Outcome State Fault Refusal := withPower s (fun s => peerDoes s pa op)

/-- A register of a feature written, unless negotiation refused the feature (R302). -/
def writeLive (s : State) (i : Nat) (f : HostRegs → HostRegs) : State := if refusedFeature s i then s else setHost s f

/-- A block of the context halts or has halted. -/
def haltsIn (s : State) (ctxId : Nat) : Bool :=
  s.blocks.any (fun b => (launch s b.launch).any (fun l => l.ctx == ctxId) && (b.halt.isSome || b.halted))

/-- FQERR of a context written (R339): a 1 in ERR clears it, and the context issues again where the runtime has resumed or killed its blocks
already. -/
def writeFqErr (s : State) (off : Nat) (v : DWord) : State :=
  let id := (off - 0xA00000) / 8
  if v.getLsbD 8 then updCtx s id (fun c => { c with
    fqErr := c.fqErr &&& ~~~256
    stalled := c.stalled && !(c.running && !haltsIn s id) })
  else s

/-- A doorbell of BAR0 (R283, R301): the context and queue that an offset names. -/
def ringDoorbell (s : State) (off : Nat) (v : DWord) : State :=
  match execDoorbell ((off - 0x100000) / 128) ((off - 0x100000) % 128 / 8) (v.setWidth 32) s with
  | .next s => s
  | _ => s

/-- A host write of a BAR0 register (R301): each does what its rule says, and other offsets ignore it. -/
def writeReg (s : State) (off : Nat) (v : DWord) : State :=
  if off % 8 ≠ 0 then s
  else if off = 0x08 then (if s.host.go then s else setHost s (fun h => { h with featdrv := v &&& 0x1F }))
  else if off = 0x10 then (if v.getLsbD 0 then setGo s else s)
  else if off = 0x18 then setHost s (fun h => { h with winoff := v &&& 0xFFFF000000000 })
  else if off = 0x20 then writePstate s v
  else if off = 0x80 then writeLive s 1 (fun h => { h with logBase := v })
  else if off = 0x88 then writeLive s 1 (fun h => { h with logCtl := v &&& 0x31F })
  else if off = 0x98 then writeLive s 1 (fun h => { h with logCons := v })
  else if off = 0xC0 then setHost s (fun h => { h with shootCtx := v })
  else if off = 0xC8 then setHost s (fun h => { h with shootVa := v })
  else if off = 0xD0 then setHost s (fun h => { h with shootLen := v })
  else if off = 0xD8 then shoot s (v.getLsbD 0)
  else if off = 0xE0 then setHost s (fun h => { h with flushPa := v })
  else if off = 0xE8 then setHost s (fun h => { h with flushLen := v })
  else if off = 0xF0 then startFlush s (v.getLsbD 1)
  else if off = 0x100 then writeLive s 3 (fun h => { h with collBase := v })
  else if off = 0x108 then writeLive s 3 (fun h => { h with collLog2 := v })
  else if off = 0x110 then postTail s v
  else if off = 0x200 then writeMailbox s v
  else if off = 0x208 then (if v.getLsbD 1 then setHost s (fun h => { h with mbxDone := false }) else s)
  else if 0x1000 ≤ off ∧ off < 0x2000 then setHost s (fun h => { h with mbxBuf := putBytes h.mbxBuf (off - 0x1000) (leBytes 8 v.toNat) })
  else if 0x100000 ≤ off ∧ off < 0x900000 then ringDoorbell s off v
  else if 0xA00000 ≤ off ∧ off < 0xA80000 then writeFqErr s off v
  else s

/-- REGISTER_WRITE (R301). -/
def execRegisterWrite (off : Nat) (value : DWord) (s : State) : Host.Outcome State Fault Refusal := withPower s (fun s => writeReg s off value)

/-- The events of the device that this file and the host link leave pending. -/
def fabricEvents (s : State) : List Instr :=
  (if s.host.flushing then [Instr.flushComplete] else []) ++ s.host.posted.map Instr.collectiveTimeout

end Sys2Proof.Machine
end

