-- ==== Sys2Proof/Machine/Dispatch.lean ====
section
/-! DEFINITION. The meaning of every row of the opcode table: one arm for each constructor. -/

namespace Sys2Proof.Machine

def exec (i : Instr) (s : State) : Host.Outcome State Fault Refusal :=
  match i with
  | .bra g off => Sys2Proof.Machine.execBra g off s
  | .brx g a => Sys2Proof.Machine.execBrx g a s
  | .call g off => Sys2Proof.Machine.execCall g off s
  | .callx g a => Sys2Proof.Machine.execCallx g a s
  | .ret g => Sys2Proof.Machine.execRet g s
  | .reform g => Sys2Proof.Machine.execReform g s
  | .exit g => Sys2Proof.Machine.execExit g s
  | .nop g => Sys2Proof.Machine.execNop g s
  | .yield g => Sys2Proof.Machine.execYield g s
  | .drain g k => Sys2Proof.Machine.execDrain g k s
  | .mov g w uns d a imm => Sys2Proof.Machine.execMov g w uns d a imm s
  | .movi g w uns d imm => Sys2Proof.Machine.execMovi g w uns d imm s
  | .movh g d a b imm => Sys2Proof.Machine.execMovh g d a b imm s
  | .sel g w uns d a b p => Sys2Proof.Machine.execSel g w uns d a b p s
  | .iadd g m d a b imm => Sys2Proof.Machine.execIadd g m d a b imm s
  | .isub g m d a b imm => Sys2Proof.Machine.execIsub g m d a b imm s
  | .iaddc g w d a b pi po => Sys2Proof.Machine.execIaddc g w d a b pi po s
  | .isubb g w d a b pi po => Sys2Proof.Machine.execIsubb g w d a b pi po s
  | .imul g m d a b imm => Sys2Proof.Machine.execImul g m d a b imm s
  | .imulh g w uns d a b imm => Sys2Proof.Machine.execImulh g w uns d a b imm s
  | .imad g m d a b c imm => Sys2Proof.Machine.execImad g m d a b c imm s
  | .imadw g uns sat d a b c imm => Sys2Proof.Machine.execImadw g uns sat d a b c imm s
  | .imin g w uns d a b imm => Sys2Proof.Machine.execImin g w uns d a b imm s
  | .imax g w uns d a b imm => Sys2Proof.Machine.execImax g w uns d a b imm s
  | .iabs g w sat d a imm => Sys2Proof.Machine.execIabs g w sat d a imm s
  | .ineg g m d a imm => Sys2Proof.Machine.execIneg g m d a imm s
  | .idiff g w uns d a b imm => Sys2Proof.Machine.execIdiff g w uns d a b imm s
  | .icmp g w uns cond p a b => Sys2Proof.Machine.execIcmp g w uns cond p a b s
  | .iset g w uns cond d a b => Sys2Proof.Machine.execIset g w uns cond d a b s
  | .and g w d a b imm => Sys2Proof.Machine.execAnd g w d a b imm s
  | .or g w d a b imm => Sys2Proof.Machine.execOr g w d a b imm s
  | .xor g w d a b imm => Sys2Proof.Machine.execXor g w d a b imm s
  | .not g w d a imm => Sys2Proof.Machine.execNot g w d a imm s
  | .tlog g w d a b c mask => Sys2Proof.Machine.execTlog g w d a b c mask s
  | .shl g w d a b imm => Sys2Proof.Machine.execShl g w d a b imm s
  | .shr g w d a b imm => Sys2Proof.Machine.execShr g w d a b imm s
  | .sar g w d a b imm => Sys2Proof.Machine.execSar g w d a b imm s
  | .fshl g d a b c imm => Sys2Proof.Machine.execFshl g d a b c imm s
  | .fshr g d a b c imm => Sys2Proof.Machine.execFshr g d a b c imm s
  | .rot g w d a b imm => Sys2Proof.Machine.execRot g w d a b imm s
  | .popc g w d a imm => Sys2Proof.Machine.execPopc g w d a imm s
  | .clz g w d a imm => Sys2Proof.Machine.execClz g w d a imm s
  | .ctz g w d a imm => Sys2Proof.Machine.execCtz g w d a imm s
  | .brev g w d a imm => Sys2Proof.Machine.execBrev g w d a imm s
  | .bfx g w uns d a b imm => Sys2Proof.Machine.execBfx g w uns d a b imm s
  | .bfi g w d a b c imm => Sys2Proof.Machine.execBfi g w d a b c imm s
  | .bytep g d a b c imm => Sys2Proof.Machine.execBytep g d a b c imm s
  | .lea g uns d a b c imm => Sys2Proof.Machine.execLea g uns d a b c imm s
  | .pand g d a b => Sys2Proof.Machine.execPand g d a b s
  | .por g d a b => Sys2Proof.Machine.execPor g d a b s
  | .pxor g d a b => Sys2Proof.Machine.execPxor g d a b s
  | .pnot g d a => Sys2Proof.Machine.execPnot g d a s
  | .pmov g d a => Sys2Proof.Machine.execPmov g d a s
  | .pset g hi a b imm => Sys2Proof.Machine.execPset g hi a b imm s
  | .pget g hi d => Sys2Proof.Machine.execPget g hi d s
  | .fadd g m d a b => Sys2Proof.Machine.execFadd g m d a b s
  | .fsub g m d a b => Sys2Proof.Machine.execFsub g m d a b s
  | .fmul g m d a b => Sys2Proof.Machine.execFmul g m d a b s
  | .ffma g m d a b c => Sys2Proof.Machine.execFfma g m d a b c s
  | .fmin g fmt ftz d a b => Sys2Proof.Machine.execFmin g fmt ftz d a b s
  | .fmax g fmt ftz d a b => Sys2Proof.Machine.execFmax g fmt ftz d a b s
  | .fcmp g fmt ftz cond p d a b => Sys2Proof.Machine.execFcmp g fmt ftz cond p d a b s
  | .fclass g fmt ftz mask d a => Sys2Proof.Machine.execFclass g fmt ftz mask d a s
  | .fdiv g m d a b => Sys2Proof.Machine.execFdiv g m d a b s
  | .fsqrt g m d a => Sys2Proof.Machine.execFsqrt g m d a s
  | .frcp g m d a => Sys2Proof.Machine.execFrcp g m d a s
  | .frsq g m d a => Sys2Proof.Machine.execFrsq g m d a s
  | .fexp2 g m d a => Sys2Proof.Machine.execFexp2 g m d a s
  | .flog2 g m d a => Sys2Proof.Machine.execFlog2 g m d a s
  | .fsin g m d a => Sys2Proof.Machine.execFsin g m d a s
  | .fcos g m d a => Sys2Proof.Machine.execFcos g m d a s
  | .ftanh g m d a => Sys2Proof.Machine.execFtanh g m d a s
  | .fscale g m d a b => Sys2Proof.Machine.execFscale g m d a b s
  | .frnd g fmt rm ftz d a => Sys2Proof.Machine.execFrnd g fmt rm ftz d a s
  | .fcvt g m sfmt d a => Sys2Proof.Machine.execFcvt g m sfmt d a s
  | .icvt g m kind uns d a => Sys2Proof.Machine.execIcvt g m kind uns d a s
  | .fcvti g kind uns sfmt rm ftz d a => Sys2Proof.Machine.execFcvti g kind uns sfmt rm ftz d a s
  | .kdec g m kb4 d a b => Sys2Proof.Machine.execKdec g m kb4 d a b s
  | .xshf g mode rel d a b c => Sys2Proof.Machine.execXshf g mode rel d a b c s
  | .xbcast g sel d a b c => Sys2Proof.Machine.execXbcast g sel d a b c s
  | .xvote g mode d p => Sys2Proof.Machine.execXvote g mode d p s
  | .xballot g d p => Sys2Proof.Machine.execXballot g d p s
  | .xpfx g incl d p => Sys2Proof.Machine.execXpfx g incl d p s
  | .xred g r d a => Sys2Proof.Machine.execXred g r d a s
  | .xscan g r d a => Sys2Proof.Machine.execXscan g r d a s
  | .xslide g up d a b c => Sys2Proof.Machine.execXslide g up d a b c s
  | .xcmpr g d a c p => Sys2Proof.Machine.execXcmpr g d a c p s
  | .xexpd g d a c p => Sys2Proof.Machine.execXexpd g d a c p s
  | .xtbl g len fill d a b => Sys2Proof.Machine.execXtbl g len fill d a b s
  | .qset g k wide tag a => Sys2Proof.Machine.execQset g k wide tag a s
  | .qget g k sel d => Sys2Proof.Machine.execQget g k sel d s
  | .maddq g k d a b => Sys2Proof.Machine.execMaddq g k d a b s
  | .msubq g k d a b => Sys2Proof.Machine.execMsubq g k d a b s
  | .mnegq g k d a => Sys2Proof.Machine.execMnegq g k d a s
  | .mmulq g k d a b => Sys2Proof.Machine.execMmulq g k d a b s
  | .mmacq g k d a b c => Sys2Proof.Machine.execMmacq g k d a b c s
  | .mredq g k d a => Sys2Proof.Machine.execMredq g k d a s
  | .mpowq g k d a b => Sys2Proof.Machine.execMpowq g k d a b s
  | .bfly g k d a b c => Sys2Proof.Machine.execBfly g k d a b c s
  | .ibfly g k d a b c => Sys2Proof.Machine.execIbfly g k d a b c s
  | .xbfly g k rel v d a b => Sys2Proof.Machine.execXbfly g k rel v d a b s
  | .xibfly g k rel v d a b => Sys2Proof.Machine.execXibfly g k rel v d a b s
  | .ld g m uns d a => Sys2Proof.Machine.execLd g m uns d a s
  | .st g m a b => Sys2Proof.Machine.execSt g m a b s
  | .stm g m a b c => Sys2Proof.Machine.execStm g m a b c s
  | .lds g size take uns disp d a => Sys2Proof.Machine.execLds g size take uns disp d a s
  | .sts g size disp a b => Sys2Proof.Machine.execSts g size disp a b s
  | .stsm g size disp a b c => Sys2Proof.Machine.execStsm g size disp a b c s
  | .pref g l2 disp a => Sys2Proof.Machine.execPref g l2 disp a s
  | .atom g m d a b c => Sys2Proof.Machine.execAtom g m d a b c s
  | .atoms g op wide uns disp d a b c => Sys2Proof.Machine.execAtoms g op wide uns disp d a b c s
  | .redm g m a b => Sys2Proof.Machine.execRedm g m a b s
  | .fence g kind scope cpy => Sys2Proof.Machine.execFence g kind scope cpy s
  | .bar g scope => Sys2Proof.Machine.execBar g scope s
  | .bara g scope => Sys2Proof.Machine.execBara g scope s
  | .barw g scope => Sys2Proof.Machine.execBarw g scope s
  | .copy g size dir hint a b c => Sys2Proof.Machine.execCopy g size dir hint a b c s
  | .copym g size obj hint mask a b c => Sys2Proof.Machine.execCopym g size obj hint mask a b c s
  | .feq g p disp a => Sys2Proof.Machine.execFeq g p disp a s
  | .feset g full disp a => Sys2Proof.Machine.execFeset g full disp a s
  | .nred g r d a => Sys2Proof.Machine.execNred g r d a s
  | .nbcast g form b => Sys2Proof.Machine.execNbcast g form b s
  | .merge g pd policy p a => Sys2Proof.Machine.execMerge g pd policy p a s
  | .ldrop g pd a => Sys2Proof.Machine.execLdrop g pd a s
  | .lrank g d a => Sys2Proof.Machine.execLrank g d a s
  | .mdecl g n count => Sys2Proof.Machine.execMdecl g n count s
  | .moprdy g => Sys2Proof.Machine.execMoprdy g s
  | .mma g n k d a b c => Sys2Proof.Machine.execMma g n k d a b c s
  | .mwait g a => Sys2Proof.Machine.execMwait g a s
  | .mrel g a => Sys2Proof.Machine.execMrel g a s
  | .mlda g obj d a b c => Sys2Proof.Machine.execMlda g obj d a b c s
  | .msta g obj a b c => Sys2Proof.Machine.execMsta g obj a b c s
  | .mslotAlloc g d => Sys2Proof.Machine.execMslotAlloc g d s
  | .mslotCnt g d => Sys2Proof.Machine.execMslotCnt g d s
  | .mslotZero g a => Sys2Proof.Machine.execMslotZero g a s
  | .srr g r d => Sys2Proof.Machine.execSrr g r d s
  | .srw g r a => Sys2Proof.Machine.execSrw g r a s
  | .setw g d a => Sys2Proof.Machine.execSetw g d a s
  | .spawn g d a b => Sys2Proof.Machine.execSpawn g d a b s
  | .launch g d a b => Sys2Proof.Machine.execLaunch g d a b s
  | .round g => Sys2Proof.Machine.execRound g s
  | .trap g code => Sys2Proof.Machine.execTrap g code s
  | .eret g a => Sys2Proof.Machine.execEret g a s
  | .swapc g a b => Sys2Proof.Machine.execSwapc g a b s
  | .objw g a b => Sys2Proof.Machine.execObjw g a b s
  | .objq g d a => Sys2Proof.Machine.execObjq g d a s
  | .icinv g a b => Sys2Proof.Machine.execIcinv g a b s
  | .xlinvRng g a b => Sys2Proof.Machine.execXlinvRng g a b s
  | .xlinvAll g => Sys2Proof.Machine.execXlinvAll g s
  | .producerCompletion op => Sys2Proof.Machine.execProducerCompletion op s
  | .poolDraw pond kind key => Sys2Proof.Machine.execPoolDraw pond kind key s
  | .wellAgeExpiry pond kind key => Sys2Proof.Machine.execWellAgeExpiry pond kind key s
  | .translationInstall ctx lo hi => Sys2Proof.Machine.execTranslationInstall ctx lo hi s
  | .copyCommandStart id => Sys2Proof.Machine.execCopyCommandStart id s
  | .copyCommandComplete id => Sys2Proof.Machine.execCopyCommandComplete id s
  | .matrixOpStart id => Sys2Proof.Machine.execMatrixOpStart id s
  | .matrixOpComplete id => Sys2Proof.Machine.execMatrixOpComplete id s
  | .doorbell ctx q tail => Sys2Proof.Machine.execDoorbell ctx q tail s
  | .launchStart ctx q => Sys2Proof.Machine.execLaunchStart ctx q s
  | .waitConditionReread ctx q => Sys2Proof.Machine.execWaitConditionReread ctx q s
  | .blockAdmit launch => Sys2Proof.Machine.execBlockAdmit launch s
  | .pondRelease pond => Sys2Proof.Machine.execPondRelease pond s
  | .launchComplete launch => Sys2Proof.Machine.execLaunchComplete launch s
  | .roundCommit launch => Sys2Proof.Machine.execRoundCommit launch s
  | .contextPreempt ctx => Sys2Proof.Machine.execContextPreempt ctx s
  | .contextResume record => Sys2Proof.Machine.execContextResume record s
  | .parkedReplay what => Sys2Proof.Machine.execParkedReplay what s
  | .parkedReplayTimer what => Sys2Proof.Machine.execParkedReplayTimer what s
  | .invalidationAck id => Sys2Proof.Machine.execInvalidationAck id s
  | .stuckBlock blk => Sys2Proof.Machine.execStuckBlock blk s
  | .reservoirDeadlock core => Sys2Proof.Machine.execReservoirDeadlock core s
  | .faultQueueRetry ctx => Sys2Proof.Machine.execFaultQueueRetry ctx s
  | .haltBroadcastArrival blk core => Sys2Proof.Machine.execHaltBroadcastArrival blk core s
  | .uncorrectableError what => Sys2Proof.Machine.execUncorrectableError what s
  | .coreError core part => Sys2Proof.Machine.execCoreError core part s
  | .linkFailure link lost => Sys2Proof.Machine.execLinkFailure link lost s
  | .collectivePost tail => Sys2Proof.Machine.execCollectivePost tail s
  | .collectiveComplete record peers abandoned => Sys2Proof.Machine.execCollectiveComplete record peers abandoned s
  | .collectiveTimeout record => Sys2Proof.Machine.execCollectiveTimeout record s
  | .go => Sys2Proof.Machine.execGo s
  | .pstateWrite value => Sys2Proof.Machine.execPstateWrite value s
  | .shootdownRange => Sys2Proof.Machine.execShootdownRange s
  | .shootdownAll => Sys2Proof.Machine.execShootdownAll s
  | .flushWriteback => Sys2Proof.Machine.execFlushWriteback s
  | .flushInvalidate => Sys2Proof.Machine.execFlushInvalidate s
  | .flushComplete => Sys2Proof.Machine.execFlushComplete s
  | .mailboxImageChunk value => Sys2Proof.Machine.execMailboxImageChunk value s
  | .mailboxAttestation value => Sys2Proof.Machine.execMailboxAttestation value s
  | .hostWindowAccess target addr n data => Sys2Proof.Machine.execHostWindowAccess target addr n data s
  | .registerWrite off value => Sys2Proof.Machine.execRegisterWrite off value s
  | .powerOn => Sys2Proof.Machine.execPowerOn s
  | .moduleReset => Sys2Proof.Machine.execModuleReset s
  | .powerRemove => Sys2Proof.Machine.execPowerRemove s
  | .peerAccess pa op => Sys2Proof.Machine.execPeerAccess pa op s
  | .accessPerformed id => Sys2Proof.Machine.execAccessPerformed id s
  | .l2ModeChange basin priv => Sys2Proof.Machine.execL2ModeChange basin priv s
  | .managementPortAttestation nonce => Sys2Proof.Machine.execManagementPortAttestation nonce s
  | .ageUpdate die hours => Sys2Proof.Machine.execAgeUpdate die hours s

end Sys2Proof.Machine
end

