-- ==== Sys2Proof/Machine/Schedule.lean ====
section
/-! DEFINITION. What the part may do next (log 1): a fragment issues its word, an event of the device or an input takes place, or the
part makes a move that no row of the opcode table names. -/

namespace Sys2Proof.Machine

/-- One move of the part. -/
inductive Move where
  | word (f : FRef)
  | event (i : Instr)
  | stop (f : FRef)
  | evictTlb (n : Nat)
  | evictHost (line : Nat)
  | evictPeer (n : Nat)
  | see (id : Nat) (t : TRef)
  deriving DecidableEq, Repr

/-- How a move ends. -/
abbrev Result := Host.Outcome State Fault Refusal

/-- The first operation of a pair, and then the second one unless the first trapped (R114, R344). -/
def runPair (s : State) (r : FRef) (wid : Nat) (sch : Sched) (x y : Instr) : Result :=
  match exec x (issuing s r wid .pairX sch) with
  | .next s' => if s'.cur.isSome then exec y (issuing s' r wid .pairY sch) else .next s'
  | o => o

/-- A decoded word of a fragment issues as word number `wid` (R111, R114, R344). -/
def runDecoded (s : State) (e : Env) (wid : Nat) (d : Decoded) : Result :=
  let r := e.frag.ref
  match d with
  | .one sch i => exec i (issuing s r wid .single sch)
  | .two sch x y =>
    let ex := { e with iss := ⟨r, wid, .pairX, sch⟩ }
    if !ready s ex x || !ready s ex y then .fault .notReady
    else match pairCheck e.launch.kernel x y with
      | some (c, dt, opY) => .next (trapAt s e opY c dt)
      | none => if e.frag.yOnly then exec y (issuing s r wid .pairY sch) else runPair s r wid sch x y

/-- A fragment issues the word at its address: a deferred trap first, then the fetch, then the word's form, then the word. A word without a legal
form, too, waits for the words that it names (R102, R121, R342). -/
def runWord (s : State) (r : FRef) : Result :=
  match envAt s r with
  | none => .fault .noIssuer
  | some e =>
    if !mayMove s e then .fault .notReady
    else match e.waiting with
      | some d => .next (takeDeferred s e d)
      | none =>
        match fetch s e with
        | .error res => settle s e res
        | .ok (w, s) =>
          match decodeWord w with
          | .error il =>
            if e.namedDone s (schedOf w) then .next (trapAt s e il.opY il.cause il.detail) else .fault .notReady
          | .ok d =>
            let (wid, s) := takeId s
            runDecoded s e wid d

/-- The events of the device that may take place; `exec` answers for each whether it does. -/
def events (s : State) : List Instr :=
  accessEvents s ++ wellEvents s ++ matrixEvents s ++ copyEvents s ++ engineEvents s ++ launchEvents s ++
    s.launches.map (fun l => .roundCommit l.id) ++ fabricEvents s

/-- The moves that no row of the opcode table names. -/
def ownMoves (s : State) : List Move :=
  (s.frags.map (fun f => Move.stop f.ref)) ++ ((List.range s.tlb.length).map Move.evictTlb) ++
    (s.hostLines.map (fun h => Move.evictHost h.line)) ++ ((List.range s.peerLines.length).map Move.evictPeer) ++
    s.slices.flatMap (fun y => s.threads.map (fun t => Move.see y.id t.ref))

/-- A fragment stops at a word boundary in the skid window of a halt (R371). -/
def stopFrag (s : State) (r : FRef) : Result :=
  match envAt s r with
  | none => .fault .noIssuer
  | some e => if e.reached && !e.frag.stopped && e.frag.hold != .faulted then .next (updFrag s r (fun f => { f with stopped := true })) else .fault .notReady

/-- A move made. -/
def run (s : State) : Move → Result
  | .word f => runWord s f
  | .event i => exec i s
  | .stop f => stopFrag s f
  | .evictTlb n => .next { s with tlb := s.tlb.eraseIdx n }
  | .evictHost line => .next (writeBack s line true)
  | .evictPeer n => .next { s with peerLines := s.peerLines.eraseIdx n }
  | .see id t => match seeWrite s id t with
    | some s => .next s
    | none => .fault .notEnabled

/-- The move takes place in this state: a fault says that the state does not offer it. -/
def enabled (s : State) (m : Move) : Bool :=
  match run s m with
  | .next _ => true
  | _ => false

/-- The issue slot of a pool (R60). -/
def Env.slotNo (e : Env) : Nat := e.pool.num % 4

/-- The last pool that a slot issued for a still launch (R63); pool 63 before the first one. It is kept by core, and
with the ponds of a context that is switched out (log 45). -/
def lastPool (s : State) (e : Env) : Nat :=
  ((s.rot.find? (fun r => r.1 == e.core && r.2.1 == e.slotNo && r.2.2.1 == e.launch.id)).map (fun r => r.2.2.2)).getD 63

/-- The place of a fragment in its launch's rotation (R63): pools in ascending number behind the last one, then fragment identifiers. -/
def rotKey (last : Nat) (e : Env) : Nat := ((e.pool.num + 63 - last) % 64) * 128 + e.frag.id

/-- The fragments of a still launch that are ready on the slot of one of them (R63). -/
def slotMates (s : State) (e : Env) : List Env :=
  (s.frags.filterMap (fun f => envAt s f.ref)).filter (fun x =>
    x.core == e.core && x.slotNo == e.slotNo && x.launch.id == e.launch.id && enabled s (.word x.frag.ref))

/-- A ready fragment may issue now (R45 to R47, R62, R63): in still mode only as its launch's candidate, and once the ponds of its block have made
the draws that stand before them. -/
def inTurn (s : State) (r : FRef) : Bool :=
  match envAt s r with
  | none => true
  | some e =>
    (s.ponds.filter (fun d => d.blk == e.block.id)).all (fun d => !drawPending s d.id) &&
      (!e.still || (slotMates s e).all (fun x => decide (rotKey (lastPool s e) e ≤ rotKey (lastPool s e) x)))

/-- The word of a fragment has issued: the fragment has gone, or its history has a new word. One that parks, traps or finds a trap waiting
for it does not issue (R343, R357). -/
def hasIssued (s t : State) (r : FRef) : Bool :=
  match frag s r, frag t r with
  | some f, some g => g.hist.head? != f.hist.head?
  | some _, none => true
  | none, _ => false

/-- What is counted once a word has issued, from the state `s` before it: the rotation of a still launch advances (R63), and a pool that a halt
broadcast has reached has one word less left (R371). -/
def tally (s t : State) (r : FRef) : State :=
  match envAt s r with
  | none => t
  | some e =>
    if !hasIssued s t r then t
    else
      let t := if e.reached then updPool t e.pool.id (fun p => { p with skid := p.skid + 1 }) else t
      if e.still then
        { t with rot := (e.core, e.slotNo, e.launch.id, e.pool.num) ::
            t.rot.filter (fun x => !(x.1 == e.core && x.2.1 == e.slotNo && x.2.2.1 == e.launch.id)) }
      else t

/-- The inputs that have not landed, in their order (log 1). -/
def inputs (s : State) : List Instr := s.inbox.filter Instr.isExternal

/-- The input that lands next (log 1). -/
def landing (s : State) : List Move := ((inputs s).take 1).map Move.event

/-- The moves that the part may make next. -/
def moves (s : State) : List Move :=
  (landing s).filter (enabled s) ++
    (s.frags.filter (fun f => enabled s (.word f.ref) && inTurn s f.ref)).map (fun f => Move.word f.ref) ++
    ((events s).map Move.event ++ ownMoves s).filter (enabled s)

/-- The move that the choices of the state select, and the choices left. -/
def choose (s : State) (ms : List Move) : Option Move × List Nat :=
  match s.choices with
  | [] => (ms.head?, [])
  | c :: r => (ms[c % ms.length]?, r)

/-- The inbox once a move has been made. -/
def restInbox (s : State) (m : Move) : List Instr := if landing s = [m] then (inputs s).drop 1 else s.inbox

/-- The move may bring or meet a core error during a pre-emption (R382). -/
def Move.leaves : Move → Bool
  | .event (.contextPreempt _) | .event (.coreError ..) => true
  | _ => false

/-- What the part records once a move has led from `s` to `t`: the choices and the inbox that are left, what the writes of operand registers have
spoiled (R221), for a word what `tally` counts, and the end of a pre-emption with the first move that is none of it (R382, log 55). -/
def after (s : State) (m : Move) (rest : List Nat) (t : State) : State :=
  let t := settleSpoils { t with
    choices := rest
    inbox := restInbox s m
    leaving := if m.leaves then t.leaving else [] }
  match m with
  | .word r => tally s t r
  | _ => t

/-- One step of the part: the chosen move. A part in which nothing moves stays as it is. -/
def stepPart (s : State) : Result :=
  match choose s (moves s) with
  | (none, _) => .next s
  | (some m, rest) => match run s m with
    | .next t => .next (after s m rest t)
    | o => o

end Sys2Proof.Machine
end

