-- ==== Sys2Proof/Machine/Step.lean ====
section
/-! DEFINITION. One step of the part, and a state that fetches a given word next. -/

namespace Sys2Proof.Machine

/-- One step: one move of one agent (log 1). -/
def step (s : State) : Host.Outcome State Fault Refusal := stepPart s

/-- A state that runs a kernel of one thread whose next word is the given one (log 5): the part serves its host, a context and a
launch are in place, and the code page is translated. -/
def State.withFetchWord (s : State) (nbits w : Nat) : State := placed s (leBytes 16 (w % 2 ^ nbits))

end Sys2Proof.Machine
end

