-- ==== Sys2Proof/Safety.lean ====
section
/-! DEFINITION. The terms in which statements are made: safe runs, a word that issues without a trap, and what a word leaves as it was. -/

namespace Sys2Proof.Machine

/-- Memory stands in its canonical form. -/
def State.memWf (s : State) : Prop := Memory.wf s.mem = true

/-- What the signers of the operations that are done have written is taken into account (R221). -/
def State.settled (s : State) : Prop := ∀ m ∈ s.mops, m.done = true → m.covered = false → regSpoiled s m.id = false

/-- A step of the part leads to another state. -/
def Runs (s : State) : Prop := ∃ t, step s = .next t

/-- The word under way in `s` is `i` in the surroundings `e`; its fragment is ready (R61) and checks 2 to 5 of R342, with those of R170 and
R380, find nothing. -/
structure Issues (s : State) (e : Env) (i : Instr) : Prop where
  env : s.cur.bind (envOf s) = some e
  ready : ready s e i = true
  clear : checks e i = none

/-- The names of the threads for which a word with this guard acts (R37). -/
def Env.acting (e : Env) (g : Guard) : List TRef := (e.active g).map Thread.ref

/-- The registers that a word names as its destination, at the width at which it works (R123, R170, R341). -/
def Env.dstRegs (e : Env) (i : Instr) : List Nat :=
  ((opnds (e.slotWide i (e.active (guardOfInstr i))) i).filter Opnd.dst).flatMap Opnd.regs

/-- What a word that writes registers, predicates and flags leaves in a thread `u` that it turns into `u'`: `regs` and `preds` are those
that it may write, `flags` says that it may raise flags, and `ws` names the threads for which it acts. -/
structure Thread.Keeps (regs preds : List Nat) (flags : Bool) (ws : List TRef) (u u' : Thread) : Prop where
  rest : u' = { u with
    springs := u'.springs
    poison := u'.poison
    preds := u'.preds
    fflags := u'.fflags
    retired := u'.retired
    marks := u'.marks
    uses := u'.uses }
  others : u.ref ∉ ws → u' = { u with retired := u'.retired }
  springs : ∀ n, n ∉ regs → mapGet u'.springs n = mapGet u.springs n
  poison : ∀ n, n ∉ regs → u'.poison.contains n = u.poison.contains n
  preds : ∀ k, k ∉ preds → u'.preds.getLsbD k = u.preds.getLsbD k
  fflags : flags = false → u'.fflags = u.fflags
  empty : u'.marks.map (fun m => (m.reg, m.wid)) = u.marks.map (fun m => (m.reg, m.wid))

/-- What such a word leaves in a pool `p` that it turns into `p'`: `mine` is the pool of its fragment. -/
structure Pool.Keeps (regs : List Nat) (mine : Nat) (p p' : Pool) : Prop where
  rest : p' = { p with
    copies := p'.copies
    poison := p'.poison }
  others : p.id ≠ mine → p' = p
  copies : ∀ n, n ∉ regs → mapGet p'.copies n = mapGet p.copies n
  poison : ∀ n, n ∉ regs → p'.poison.contains n = p.poison.contains n

/-- What a word that writes registers, predicates and flags leaves of the whole state: everything but the threads, the pool copies of its
pool, its own fragment, and the bookkeeping of the issue. -/
structure State.Keeps (e : Env) (regs preds : List Nat) (flags : Bool) (ws : List TRef) (s t : State) : Prop where
  rest : t = { s with
    threads := t.threads
    pools := t.pools
    frags := t.frags
    cur := t.cur
    free := t.free
    hints := t.hints }
  memory : ∀ a, homeByte t a = homeByte s a
  threads : List.Forall₂ (Thread.Keeps regs preds flags ws) s.threads t.threads
  pools : List.Forall₂ (Pool.Keeps regs e.pool.id) s.pools t.pools
  frags : List.Forall₂ (fun f f' => f.ref ≠ e.frag.ref → f' = f) s.frags t.frags

/-- The operation computes registers, predicates and flags from registers, predicates and the word, and completes when it issues (07, 08, 09). -/
def isRegisterWord : Instr → Bool
  | .mov .. | .movi .. | .movh .. | .sel .. | .iadd .. | .isub .. | .iaddc .. | .isubb .. | .imul .. | .imulh .. | .imad .. | .imadw ..
  | .imin .. | .imax .. | .iabs .. | .ineg .. | .idiff .. | .icmp .. | .iset .. | .and .. | .or .. | .xor .. | .not .. | .tlog ..
  | .shl .. | .shr .. | .sar .. | .fshl .. | .fshr .. | .rot .. | .popc .. | .clz .. | .ctz .. | .brev .. | .bfx .. | .bfi .. | .bytep ..
  | .lea .. | .pand .. | .por .. | .pxor .. | .pnot .. | .pmov .. | .pset .. | .pget .. => true
  | .fadd .. | .fsub .. | .fmul .. | .ffma .. | .fmin .. | .fmax .. | .fcmp .. | .fclass .. | .fdiv .. | .fsqrt .. | .frcp .. | .frsq ..
  | .fexp2 .. | .flog2 .. | .fsin .. | .fcos .. | .ftanh .. | .fscale .. | .frnd .. | .fcvt .. | .icvt .. | .fcvti .. | .kdec .. => true
  | .xshf .. | .xbcast .. | .xvote .. | .xballot .. | .xpfx .. | .xred .. | .xscan .. | .xslide .. | .xcmpr .. | .xexpd .. | .xtbl .. => true
  | .qget .. | .maddq .. | .msubq .. | .mnegq .. | .mmulq .. | .mmacq .. | .mredq .. | .bfly .. | .ibfly .. | .xbfly .. | .xibfly ..
  | .lrank .. | .mslotCnt .. => true
  | _ => false

/-- The predicates that a register word writes (R133, R135, R142, R143, R152, R163). -/
def dstPreds : Instr → List Nat
  | .iaddc _ _ _ _ _ _ po | .isubb _ _ _ _ _ _ po => [po]
  | .icmp _ _ _ _ p _ _ | .fcmp _ _ _ _ p _ _ _ => [p]
  | .pand _ d _ _ | .por _ d _ _ | .pxor _ d _ _ | .pnot _ d _ | .pmov _ d _ | .xvote _ _ d _ => [d]
  | .pset _ hi _ _ _ => (List.range 32).map (fun i => if hi then 32 + i else i)
  | _ => []

/-- The register word may raise flags of %fflags (R86, R149, R154, R155, R164). -/
def mayRaise : Instr → Bool
  | .fadd .. | .fsub .. | .fmul .. | .ffma .. | .fdiv .. | .fsqrt .. | .frcp .. | .frsq .. | .fexp2 .. | .flog2 .. | .fsin .. | .fcos ..
  | .ftanh .. | .fscale .. | .frnd .. | .fcvt .. | .icvt .. | .fcvti .. | .kdec .. | .xred .. | .xscan .. => true
  | _ => false

/-- The thread of a name reads a value from a register of its pool in state `t` (R68, tag `.res`). -/
def Reads (t : State) (e : Env) (r : TRef) (n : Nat) (v : Word) : Prop :=
  ∀ u ∈ t.threads, u.ref = r → u.inPool e.pool.id = true → resolve (pool t e.pool.id) e.pond u n .res = v

/-- The threads for which a word acts, the first one of each name. -/
def Env.actors (e : Env) (g : Guard) : List Thread := (e.active g).filter (fun u => (e.active g).find? (fun x => x.ref == u.ref) == some u)

/-- After the word every thread for which it acts reads its result from the destination: 32 bits, or 64 bits from two registers (R123). -/
def Results (t : State) (e : Env) (g : Guard) (w : Bool) (d : Dst) (val : Thread → DWord) : Prop :=
  ∀ n tag, d = .reg n tag → ∀ u ∈ e.actors g, Reads t e u.ref n (loWord (val u)) ∧ (w = true → Reads t e u.ref (n + 1) (hiWord (val u)))

/-- A predicate of a thread in state `t`. -/
def PredIs (t : State) (r : TRef) (k : Nat) (b : Bool) : Prop := ∀ u ∈ t.threads, u.ref = r → u.preds.getLsbD k = b


/-- The word completes whenever it issues, and every thread for which it acts then reads from its destination a value that `p` holds of. -/
def Writes (i : Instr) (w : Bool) (d : Dst) (p : Env → Thread → DWord → Prop) : Prop :=
  ∀ s e, Issues s e i → ∃ t v, exec i s = .next t ∧ Results t e (guardOfInstr i) w d v ∧ ∀ u ∈ e.actors (guardOfInstr i), p e u (v u)

/-- The same of a predicate: every thread for which the word acts holds the truth of `p` in it. -/
def Sets (i : Instr) (k : Nat) (p : Env → Thread → Prop) : Prop :=
  ∀ s e, Issues s e i → ∃ t, exec i s = .next t ∧ ∀ u ∈ e.actors (guardOfInstr i), ∃ b, PredIs t u.ref k b ∧ (b = true ↔ p e u)

/-- Two values agree in the registers of an operand width. -/
def Same (w : Bool) (x y : DWord) : Prop := loWord x = loWord y ∧ (w = true → hiWord x = hiWord y)

/-- `v` holds the exact result `r` at width w (R132): the nearest value of the range of its signedness under `.sat`, else `r` modulo 2^w. -/
def HoldsInt (w uns sat : Bool) (r : Int) (v : DWord) : Prop :=
  let n := if w then 64 else 32
  if sat then extInt w uns v = max (if uns then 0 else -2 ^ (n - 1)) (min (if uns then 2 ^ n - 1 else 2 ^ (n - 1) - 1) r)
  else extInt w true v = r % 2 ^ n

/-- `ext(src(t, x))` of R132. -/
def Env.int (e : Env) (imm : Word) (w uns : Bool) (u : Thread) (a : Src) : Int := extInt w uns (e.srcW imm w uns u a)

/-- The rows of R132, with IMADW of R134: the opcode; the operand width, signedness and saturation of the result; its destination; and the
exact result. -/
def exactRow : Instr → Option (Nat × Bool × Bool × Bool × Dst × (Env → Thread → Int))
  | .iadd _ m d a b imm => some (0x088, m.w, m.uns, m.sat, d, fun e u => e.int imm m.w m.uns u a + e.int imm m.w m.uns u b)
  | .isub _ m d a b imm => some (0x089, m.w, m.uns, m.sat, d, fun e u => e.int imm m.w m.uns u a - e.int imm m.w m.uns u b)
  | .imul _ m d a b imm => some (0x08C, m.w, m.uns, m.sat, d, fun e u => e.int imm m.w m.uns u a * e.int imm m.w m.uns u b)
  | .imulh _ w uns d a b imm =>
    some (0x08D, w, uns, false, d, fun e u => (e.int imm w uns u a * e.int imm w uns u b) / (if w then 2 ^ 64 else 2 ^ 32))
  | .imad _ m d a b c imm =>
    some (0x08E, m.w, m.uns, m.sat, d, fun e u => e.int imm m.w m.uns u a * e.int imm m.w m.uns u b + e.int imm m.w m.uns u c)
  | .imadw _ uns sat d a b c imm =>
    some (0x08F, true, uns, sat, d, fun e u => e.int imm false uns u a * e.int imm false uns u b + e.int imm true uns u c)
  | .imin _ w uns d a b imm =>
    some (0x090, w, uns, false, d, fun e u => if e.int imm w uns u a ≤ e.int imm w uns u b then e.int imm w uns u a else e.int imm w uns u b)
  | .imax _ w uns d a b imm =>
    some (0x091, w, uns, false, d, fun e u => if e.int imm w uns u a ≤ e.int imm w uns u b then e.int imm w uns u b else e.int imm w uns u a)
  | .iabs _ w sat d a imm => some (0x092, w, false, sat, d, fun e u => |e.int imm w false u a|)
  | .ineg _ m d a imm => some (0x093, m.w, m.uns, m.sat, d, fun e u => 0 - e.int imm m.w m.uns u a)
  | .idiff _ w uns d a b imm => some (0x094, w, uns, false, d, fun e u => |e.int imm w uns u a - e.int imm w uns u b|)
  | _ => none

/-- An integer condition of R135 as a relation. -/
def condRel : Cond → Int → Int → Prop
  | .eq, x, y => x = y
  | .ne, x, y => x ≠ y
  | .lt, x, y => x < y
  | .le, x, y => x ≤ y
  | .gt, x, y => y < x
  | .ge, x, y => y ≤ x

/-- Bit `i` of a source at the operand width of a word without a signedness (R123). -/
def Env.bit (e : Env) (imm : Word) (w : Bool) (u : Thread) (a : Src) (i : Nat) : Bool := (e.srcW imm w false u a).getLsbD i

/-- The rows of R136: the opcode, the operand width, the destination and bit `i` of the result. -/
def logicRow : Instr → Option (Nat × Bool × Dst × (Env → Thread → Nat → Bool))
  | .and _ w d a b imm => some (0x0A0, w, d, fun e u i => e.bit imm w u a i && e.bit imm w u b i)
  | .or _ w d a b imm => some (0x0A1, w, d, fun e u i => e.bit imm w u a i || e.bit imm w u b i)
  | .xor _ w d a b imm => some (0x0A2, w, d, fun e u i => xor (e.bit imm w u a i) (e.bit imm w u b i))
  | .not _ w d a imm => some (0x0A3, w, d, fun e u i => !e.bit imm w u a i)
  | .tlog _ w d a b c mask =>
    some (0x0A4, w, d, fun e u i => mask.getLsbD ((e.bit 0 w u a i).toNat + 2 * (e.bit 0 w u b i).toNat + 4 * (e.bit 0 w u c i).toNat))
  | _ => none

/-- The rows of R137: the opcode, the operand width, the destination and bit `i` of the result. -/
def shiftRow : Instr → Option (Nat × Bool × Dst × (Env → Thread → Nat → Bool))
  | .shl _ w d a b imm => some (0x0A5, w, d, fun e u i => decide ((e.src imm u b).toNat ≤ i) && e.bit imm w u a (i - (e.src imm u b).toNat))
  | .shr _ w d a b imm =>
    some (0x0A6, w, d, fun e u i => decide (i + (e.src imm u b).toNat < widthOf w) && e.bit imm w u a (i + (e.src imm u b).toNat))
  | .sar _ w d a b imm => some (0x0A7, w, d, fun e u i => e.bit imm w u a (min (i + (e.src imm u b).toNat) (widthOf w - 1)))
  | .rot _ w d a b imm =>
    some (0x0AA, w, d, fun e u i => e.bit imm w u a ((i + widthOf w - (e.src imm u b).toNat % widthOf w) % widthOf w))
  | .fshl _ d a b c imm => some (0x0A8, false, d, fun e u i =>
      (pairWord (e.src imm u a) (e.src imm u b)).getLsbD (32 + i - (e.src imm u c).toNat % 32))
  | .fshr _ d a b c imm => some (0x0A9, false, d, fun e u i =>
      (pairWord (e.src imm u a) (e.src imm u b)).getLsbD (i + (e.src imm u c).toNat % 32))
  | _ => none

/-- The bits of `x` below bit `n` that are 1. -/
def onesBelow (x : DWord) (n : Nat) : List Nat := (List.range n).filter (fun i => x.getLsbD i)

/-- What the counts of R138 write, with their opcodes. -/
def countRow : Instr → Option (Nat × Dst × (Env → Thread → Nat → Prop))
  | .popc _ w d a imm => some (0x0AB, d, fun e u n => n = (onesBelow (e.srcW imm w false u a) (widthOf w)).length)
  | .clz _ w d a imm => some (0x0AC, d, fun e u n => n ≤ widthOf w ∧ (∀ i < n, e.bit imm w u a (widthOf w - 1 - i) = false) ∧
      (n < widthOf w → e.bit imm w u a (widthOf w - 1 - n) = true))
  | .ctz _ w d a imm => some (0x0AD, d, fun e u n => n ≤ widthOf w ∧ (∀ i < n, e.bit imm w u a i = false) ∧
      (n < widthOf w → e.bit imm w u a n = true))
  | _ => none

/-- The position and the length of a field, as far as it lies in the operand (R139). -/
def fieldAt (w : Bool) (ctl : Word) : Nat × Nat :=
  let pos := ctl.toNat % 256
  let len := ctl.toNat / 256 % 256
  if widthOf w ≤ pos then (0, 0) else (pos, min len (widthOf w - pos))

/-- What BREV, BFX and BFI write (R138, R139): the opcode, the operand width, the destination and bit `i` of the result. -/
def fieldRow : Instr → Option (Nat × Bool × Dst × (Env → Thread → Nat → Bool))
  | .brev _ w d a imm => some (0x0AE, w, d, fun e u i => e.bit imm w u a (widthOf w - 1 - i))
  | .bfx _ w uns d a b imm => some (0x0AF, w, d, fun e u i =>
      let (pos, n) := fieldAt w (e.src imm u b)
      let x := e.srcW imm w uns u a
      if n = 0 then false else if i < n then x.getLsbD (pos + i) else !uns && x.getLsbD (pos + n - 1))
  | .bfi _ w d a b c imm => some (0x0B0, w, d, fun e u i =>
      let (pos, n) := fieldAt w (e.src imm u b)
      if decide (pos ≤ i ∧ i < pos + n) then e.bit imm w u a (i - pos) else e.bit imm w u c i)
  | _ => none

/-- Byte `i` of a word. -/
def wordByte (x : Word) (i : Nat) : Nat := x.toNat / 2 ^ (8 * i) % 256

/-- The byte that a nibble of BYTEP selects from the bytes of `a` and `b` (R140). -/
def bytepByte (a b : Word) (n : Nat) : Nat :=
  let at_ (k : Nat) : Nat := if k < 4 then wordByte a k else wordByte b (k - 4)
  if n < 8 then at_ n else if 128 ≤ at_ (n - 8) then 255 else 0

/-- A factor of LEA (R141): a register or a literal by the signedness, a special operand without a sign. -/
def Env.scale (e : Env) (imm : Word) (uns : Bool) (u : Thread) (a : Src) : Int :=
  match a with
  | .lane | .gw | .tid => ((e.src imm u a).toNat : Int)
  | _ => if uns then ((e.src imm u a).toNat : Int) else (e.src imm u a).toInt

/-- `pread(t, S) xor neg` of R38. -/
def holdsIn (p : PSrc) (u : Thread) : Prop := xor (u.preds.getLsbD p.n) p.neg = true

/-- The rows of R142: the opcode, the predicate written and its truth. -/
def predRow : Instr → Option (Nat × Nat × (Thread → Prop))
  | .pand _ d a b => some (0x0C0, d, fun u => holdsIn a u ∧ holdsIn b u)
  | .por _ d a b => some (0x0C1, d, fun u => holdsIn a u ∨ holdsIn b u)
  | .pxor _ d a b => some (0x0C2, d, fun u => ¬(holdsIn a u ↔ holdsIn b u))
  | .pnot _ d a => some (0x0C3, d, fun u => ¬holdsIn a u)
  | .pmov _ d a => some (0x0C4, d, fun u => holdsIn a u)
  | _ => none

/-! Floating-point words (08). -/

/-- The thread of a name gains the flags of `f` from state `s` to state `t` (R86, R87). -/
def Gains (s t : State) (r : TRef) (f : BitVec 5) : Prop := List.Forall₂ (fun u u' => u.ref = r → u'.fflags = u.fflags ||| f) s.threads t.threads

/-- After the word every thread for which it acts reads `n` registers from the destination up (R155). -/
def ResultRange (t : State) (e : Env) (g : Guard) (d : Dst) (n : Nat) (val : Thread → Nat → Word) : Prop :=
  ∀ m tag, d = .reg m tag → ∀ u ∈ e.actors g, ∀ i < n, Reads t e u.ref (m + i) (val u i)

/-- Sub-element `k` of a packed register (R82). -/
def subElem (fmt : Fmt) (x : Word) (k : Nat) : Nat := x.toNat / 2 ^ ((elemFmt fmt).width * k) % 2 ^ (elemFmt fmt).width

/-- Sub-element `k` of a float source, flushed under `.ftz` (R83). -/
def Env.felem (e : Env) (fmt : Fmt) (ftz : Bool) (u : Thread) (a : Src) (k : Nat) : Nat :=
  let x := subElem fmt (e.src 0 u a) k
  if ftz = true ∧ x % 2 ^ ((elemFmt fmt).width - 1) < 2 ^ (elemFmt fmt).fb then x / 2 ^ ((elemFmt fmt).width - 1) * 2 ^ ((elemFmt fmt).width - 1)
  else x

/-- The value of sub-element `k` of a float source of a word. -/
def Env.fval (e : Env) (m : FMod) (u : Thread) (a : Src) (k : Nat) : FVal := fvalue (elemFmt m.fmt) (e.felem m.fmt m.ftz u a k)

/-- The rows of R149: the opcode, the modifiers, the destination, and the exact value of sub-element `k` with the flags of R81 and R150. -/
def floatRow : Instr → Option (Nat × FMod × Dst × (Env → Thread → Nat → FRes))
  | .fadd _ m d a b => some (0x100, m, d, fun e u k => fSum m.rm (e.fval m u a k) (e.fval m u b k))
  | .fsub _ m d a b => some (0x101, m, d, fun e u k => fSum m.rm (e.fval m u a k) (e.fval m u b k).negate)
  | .fmul _ m d a b => some (0x102, m, d, fun e u k => fProd (e.fval m u a k) (e.fval m u b k))
  | .ffma _ m d a b c => some (0x103, m, d, fun e u k => fFma m.rm (e.fval m u a k) (e.fval m u b k) (e.fval m u c k))
  | .fdiv _ m d a b => some (0x110, m, d, fun e u k => fQuot (e.fval m u a k) (e.fval m u b k))
  | .fsqrt _ m d a => some (0x111, m, d, fun e u k => fRoot (e.fval m u a k))
  | .frcp _ m d a => some (0x112, m, d, fun e u k => fQuot (.num false 1 0 false) (e.fval m u a k))
  | .frsq _ m d a => some (0x113, m, d, fun e u k => fRsqrt (e.fval m u a k))
  | .fexp2 _ m d a => some (0x114, m, d, fun e u k => fExp2 (e.fval m u a k))
  | .flog2 _ m d a => some (0x115, m, d, fun e u k => fLog2 (e.fval m u a k))
  | .fsin _ m d a => some (0x116, m, d, fun e u k => fSin (e.fval m u a k))
  | .fcos _ m d a => some (0x117, m, d, fun e u k => fCos (e.fval m u a k))
  | .ftanh _ m d a => some (0x118, m, d, fun e u k => fTanh (e.fval m u a k))
  | .fscale _ m d a b => some (0x120, m, d, fun e u k => fScaled (e.fval m u a k) (e.src 0 u b).toInt)
  | _ => none

/-- Sub-element `k` of `n` exact values after its one rounding, with the neighbours of R88 (R149). -/
def roundedElem (m : FMod) (n : Nat) (y : Nat → FRes) (k : Nat) : Nat × FlagSet :=
  let f := elemFmt m.fmt
  let before := if k = 0 then 0 else discarded f (y (k - 1)).v
  let after := if k + 1 < n then discarded f (y (k + 1)).v else 0
  roundTo f m.rm m.ftz (satOf m.fmt m.flip) (srHash before after k) (y k).v

/-- The flags of `n` results together (R87). -/
def allFlags (n : Nat) (fl : Nat → FlagSet) : BitVec 5 := (List.range n).foldl (fun acc k => acc ||| (fl k).code) 0

/-- The rational value of an exact finite value; 0 for the others. -/
def FVal.rat : FVal → ℚ
  | .num neg m e _ => (if neg then -1 else 1) * m * (2 : ℚ) ^ e
  | _ => 0

/-- The value is finite and stands exactly for its rational. -/
def FVal.exact : FVal → Prop
  | .num _ _ _ sticky => sticky = false
  | _ => False

/-- The sign of a number or an infinity. -/
def FVal.minus : FVal → Bool
  | .nan => false
  | .inf neg => neg
  | .num neg _ _ _ => neg

/-- The value is the zero of a sign. -/
def FVal.zeroOf (neg : Bool) (v : FVal) : Prop := v.exact ∧ v.rat = 0 ∧ v.minus = neg

/-- The result is the zero of a sign, without a flag. -/
def FRes.isZero (neg : Bool) (r : FRes) : Prop := r.v.zeroOf neg ∧ r.fl = .none

/-- A finite value whose magnitude, rounded by a mode with the exponent range unbounded, lies beyond the format's largest finite value (R39). -/
def Overflows (f : FloatFmt) (rm : RM) (h : Nat) (v : FVal) : Prop :=
  let top : ℚ := (fvalue f f.maxCode).rat
  let ulp : ℚ := top - (fvalue f (f.maxCode - 1)).rat
  match rm with
  | .rne => top + ulp / 2 < |v.rat| ∨ (|v.rat| = top + ulp / 2 ∧ f.maxCode % 2 = 1)
  | .rna => top + ulp / 2 ≤ |v.rat|
  | .rtz => top + ulp ≤ |v.rat|
  | .rup => if v.rat < 0 then top + ulp ≤ |v.rat| else top < |v.rat|
  | .rdn => if v.rat < 0 then top < |v.rat| else top + ulp ≤ |v.rat|
  | .sr => top + ulp ≤ |v.rat| ∨ (top ≤ |v.rat| ∧ 2 ^ 24 ≤ discarded f v + h / 2 ^ 8)

/-- The code of an overflow (R39): the largest finite value under `.sat`, the default NaN in E4M3 without it, and in the other formats an infinity,
or under a directed mode that leads away from it the largest finite value. -/
def overflowCode (f : FloatFmt) (rm : RM) (sat neg : Bool) : Nat :=
  let signed (mag : Nat) : Nat := if neg then 2 ^ (f.width - 1) + mag else mag
  if sat = true then signed f.maxCode
  else if f.hasInf = false then f.nanCode
  else match rm with
    | .rtz => signed f.maxCode
    | .rup => signed (if neg then f.maxCode else f.infCode)
    | .rdn => signed (if neg then f.infCode else f.maxCode)
    | _ => signed f.infCode

/-- An order of values (R80, R152): −∞ below every number below +∞; NaN is ordered with nothing. -/
def FVal.below : FVal → FVal → Prop
  | .nan, _ | _, .nan => False
  | .inf a, .inf b => a = true ∧ b = false
  | .inf a, .num .. => a = true
  | .num .., .inf b => b = false
  | x, y => x.rat < y.rat

/-- The truth of a floating condition (R152). -/
def fcondTruth (c : FCond) (x y : FVal) : Prop :=
  let ordered := x ≠ .nan ∧ y ≠ .nan
  match c with
  | .eq => ordered ∧ ¬x.below y ∧ ¬y.below x
  | .ne => ¬ordered ∨ x.below y ∨ y.below x
  | .lt => ordered ∧ x.below y
  | .le => ordered ∧ ¬y.below x
  | .gt => ordered ∧ y.below x
  | .ge => ordered ∧ ¬x.below y
  | .un => ¬ordered
  | .ord => ordered

/-- The class of a code by its value, as the mask bit of R153. -/
def classOf (f : FloatFmt) (x : Nat) : Nat :=
  let neg := decide (2 ^ (f.width - 1) ≤ x)
  match fvalue f x with
  | .nan => 8
  | .inf n => if n then 0 else 7
  | v => if v.rat = 0 then (if neg then 3 else 4) else if |v.rat| < (2 : ℚ) ^ f.emin then (if neg then 2 else 5) else (if neg then 1 else 6)

/-- The code that FMIN, or FMAX with `larger`, writes for two codes (R151): the operand that no other is below or above, −0 below +0, and the
number beside a NaN. -/
def Extreme (f : FloatFmt) (larger : Bool) (x y r : Nat) : Prop :=
  let nan (z : Nat) : Prop := fvalue f z = .nan
  (nan x → nan y → r = f.nanCode) ∧ (nan x → ¬nan y → r = y) ∧ (¬nan x → nan y → r = x) ∧
    (¬nan x → ¬nan y → (r = x ∨ r = y) ∧
      (∀ z, (z = x ∨ z = y) → if larger then ¬(fvalue f r).below (fvalue f z) else ¬(fvalue f z).below (fvalue f r)) ∧
      (x % 2 ^ (f.width - 1) = 0 → y % 2 ^ (f.width - 1) = 0 → r = if larger then min x y else max x y))

/-- A rational rounded to an integer by a mode other than SR (R83, R39). -/
def roundInt (rm : RM) (x : ℚ) : ℤ :=
  match rm with
  | .rtz => if x < 0 then ⌈x⌉ else ⌊x⌋
  | .rup => ⌈x⌉
  | .rdn => ⌊x⌋
  | .rna => if x < 0 then ⌈x - 1 / 2⌉ else ⌊x + 1 / 2⌋
  | _ => if x - ⌊x⌋ < 1 / 2 then ⌊x⌋ else if 1 / 2 < x - ⌊x⌋ then ⌊x⌋ + 1 else if ⌊x⌋ % 2 = 0 then ⌊x⌋ else ⌊x⌋ + 1

/-- Element `j` of a conversion's float source (R155): register `j / per` of its range, flushed by R83. -/
def Env.convFloat (e : Env) (fmt : Fmt) (ftz : Bool) (u : Thread) (a : Src) (j : Nat) : FVal :=
  let x := subElem fmt (e.srcAt u a (j / fmtElems fmt)) (j % fmtElems fmt)
  fvalue (elemFmt fmt) (if ftz = true ∧ x % 2 ^ ((elemFmt fmt).width - 1) < 2 ^ (elemFmt fmt).fb
    then x / 2 ^ ((elemFmt fmt).width - 1) * 2 ^ ((elemFmt fmt).width - 1) else x)

/-- Element `j` of a conversion's integer source (R157). -/
def Env.convInt (e : Env) (kind : IKind) (uns : Bool) (u : Thread) (a : Src) (j : Nat) : Int :=
  let w := kindWidth kind
  let x : Nat := match kind with
    | .i64 => (e.srcAt u a (2 * j)).toNat + 2 ^ 32 * (e.srcAt u a (2 * j + 1)).toNat
    | k => (e.srcAt u a (j / kindElems k)).toNat / 2 ^ (w * (j % kindElems k)) % 2 ^ w
  if uns = false ∧ 2 ^ (w - 1) ≤ x then (x : Int) - 2 ^ w else x

/-- An element of a Kilulo block (R89), of 8 or 4 bits. -/
def Env.kilulo (e : Env) (kb4 : Bool) (u : Thread) (a b : Src) (j : Nat) : Option (Bool × ℚ) :=
  let n := if kb4 then 4 else 8
  let x := (e.src 0 u a).toNat / 2 ^ (n * j) % 2 ^ n
  let e0 := (e.src 0 u b).toNat % 256
  let e1 := (e.src 0 u b).toNat / 256 % 256
  if e0 = 255 ∨ e1 = 255 then none
  else
    let mag := x % 2 ^ (n - 2)
    let neg := decide (x / 2 ^ (n - 2) % 2 = 1)
    let es : Int := if x / 2 ^ (n - 1) = 1 then e1 else e0
    some (neg, (if neg then -1 else 1) * ((mag : ℚ) / (if kb4 then 2 else 32)) * (2 : ℚ) ^ (es - 127))

/-- A conversion to floats (R155 to R159): the elements it writes, its modifiers, its destination, and whether an exact value may stand for
element `j`. -/
def convRow : Instr → Option (Nat × Nat × FMod × Dst × (Env → Thread → Nat → FVal → Prop))
  | .fcvt _ m sfmt d a => some (0x180, max (fmtElems sfmt) (fmtElems m.fmt), m, d, fun e u j v => v = e.convFloat sfmt m.ftz u a j)
  | .icvt _ m kind uns d a => some (0x181, max (kindElems kind) (fmtElems m.fmt), m, d, fun e u j v =>
      v = .num (decide (e.convInt kind uns u a j < 0)) (e.convInt kind uns u a j).natAbs 0 false)
  | .kdec _ m kb4 d a b => some (0x183, if kb4 then 8 else 4, (if m.fmt = .f32 then { m with ftz := false } else m), d, fun e u j v =>
      match e.kilulo kb4 u a b j with
      | none => v = .nan
      | some (neg, r) => v.exact ∧ v.rat = r ∧ ∃ k x, v = .num neg k x false)
  | _ => none

/-- What R84 makes of a value: the integer and the flags. -/
def IntegerOf (w : Nat) (uns : Bool) (rm : RM) (v : FVal) (n : Int) (fl : FlagSet) : Prop :=
  let lo : Int := if uns then 0 else -2 ^ (w - 1)
  let hi : Int := if uns then 2 ^ w - 1 else 2 ^ (w - 1) - 1
  match v with
  | .nan => n = 0 ∧ fl = { nv := true }
  | .inf neg => n = (if neg then lo else hi) ∧ fl = { nv := true }
  | v =>
    let r := roundInt rm v.rat
    n = max lo (min hi r) ∧ fl = (if lo ≤ r ∧ r ≤ hi then { nx := decide ((r : ℚ) ≠ v.rat) } else { nv := true })

/-- Bits of a register range from bit `lo`, `n` of them, read low register first. -/
def rangeBits (val : Nat → Word) (regs lo n : Nat) : Nat :=
  ((List.range regs).foldr (fun i r => (val i).toNat + 2 ^ 32 * r) 0) / 2 ^ lo % 2 ^ n

/-! Lane words (08 R160 to R167). -/

/-- The thread of a lane among the active ones, for a lane of the pool (R160). -/
def Env.laneThread (e : Env) (g : Guard) (lane : Int) : Option Thread :=
  if 0 ≤ lane ∧ lane < e.pool.grant then (e.active g).find? (fun x => decide ((x.lane : Int) = lane)) else none

/-- The source lane of XSHF (R162). -/
def Env.shuffle (e : Env) (mode : ShfMode) (rel : Option (Fin 8)) (u : Thread) (b : Src) : Int :=
  let off : Int := match rel with
    | some k => (e.pool.grant / 2 ^ k.val : Nat)
    | none => (e.src 0 u b).toNat
  match mode with
  | .idx => off
  | .up => u.lane - off
  | .down => u.lane + off
  | .xor => (u.lane ^^^ off.toNat : Nat)
  | .rot => (u.lane + off) % e.pool.grant

/-- The source lane of XBCAST (R162): a lane of the lowest thread, or the lowest or the highest lane. -/
def Env.broadcast (e : Env) (g : Guard) (sel : BcSel) (b : Src) : Option Int :=
  match sel with
  | .lane => (e.active g).head?.map (fun u => ((e.src 0 u b).toNat : Int))
  | .first => (e.active g).head?.map (fun u => (u.lane : Int))
  | .last => (e.active g).getLast?.map (fun u => (u.lane : Int))

/-- An entry of the two vectors that XSLIDE slides: `a` for the pool's own lanes, `b` before them under `.up` and behind them otherwise; an
absent one is 0 (R165). -/
def Env.slideEntry (e : Env) (g : Guard) (up : Bool) (a b : Src) (lane : Int) : Word :=
  let val (x : Src) (l : Int) : Word := match (e.active g).find? (fun u => decide ((u.lane : Int) = l)) with
    | some u => e.src 0 u x
    | none => 0
  let w : Int := e.pool.grant
  if up then (if 0 ≤ lane then val a lane else if -w ≤ lane then val b (lane + w) else 0)
  else (if lane < w then val a lane else if lane < 2 * w then val b (lane - w) else 0)

/-- The operand of a reduction that lane `j` gives, and none for an absent lane (R164). -/
def Env.redVal (e : Env) (g : Guard) (r : RMod) (a : Src) (j : Nat) : Option Nat :=
  ((e.active g).find? (fun u => u.lane == j)).map (fun u => if r.ty = .i64 then (e.src64 0 false u a).toNat else (e.src 0 u a).toNat)

/-- Sub-element `i` of a reduction's value. -/
def redPart (r : RMod) (v i : Nat) : Nat := v / 2 ^ (redWidth r.ty * i) % 2 ^ redWidth r.ty

/-- The halving fold of R93 on positions: `v[i] := op(v[i], v[i + 2^s])` for `s` from `n − 1` down. -/
def foldHalves (r : RMod) : Nat → (Nat → Option Nat) → Option Nat
  | 0, v => v 0
  | n + 1, v => foldHalves r n (fun i => (redJoin r (v i) (v (i + 2 ^ n))).1)

/-- The values present, combined in ascending order (R93 sequential, R94). -/
def foldAscending (r : RMod) (l : List Nat) : Option Nat :=
  match l with
  | [] => none
  | x :: xs => some (xs.foldl (fun acc y => (redStep r acc y).1) x)

/-- Flag `b` is raised by a step of the halving fold of R93. -/
def foldRaises (r : RMod) (b : Nat) : Nat → (Nat → Option Nat) → Prop
  | 0, _ => False
  | n + 1, v => (∃ i < 2 ^ n, (redJoin r (v i) (v (i + 2 ^ n))).2.code.getLsbD b = true) ∨
      foldRaises r b n (fun i => (redJoin r (v i) (v (i + 2 ^ n))).1)

/-- Flag `b` is raised by a step that combines the values present in ascending order (R93 sequential). -/
def ascendRaises (r : RMod) (b : Nat) (l : List Nat) : Prop :=
  ∃ pre y post acc, l = pre ++ y :: post ∧ foldAscending r pre = some acc ∧ (redStep r acc y).2.code.getLsbD b = true

/-- A sub-element of a reduction step under the word's flush (R83, R164). -/
def redSource (r : RMod) (f : FloatFmt) (x : Nat) : Nat :=
  if r.ftz = true ∧ x % 2 ^ (f.width - 1) < 2 ^ f.fb then x / 2 ^ (f.width - 1) * 2 ^ (f.width - 1) else x

/-- The number that a value of `n` bits stands for under a signedness (R164). -/
def signedBits (n : Nat) (uns : Bool) (x : Nat) : Int := if uns = true ∨ x < 2 ^ (n - 1) then x else (x : Int) - 2 ^ n

/-! Modular words (09). -/

/-- The slot's width that a modular word works at (R170). -/
def Env.modWide (e : Env) (g : Guard) (k : Nat) : Bool := ((e.active g).head?.map (fun u => (e.slot k u).wide)).getD false

/-- A source of a modular word as an unsigned number of the slot's width (R174). -/
def Env.residueSrc (e : Env) (g : Guard) (k : Nat) (u : Thread) (a : Src) : Int :=
  if e.modWide g k then ((e.src64 0 true u a).toNat : Int) else ((e.src 0 u a).toNat : Int)

/-- The rows of R174, R176 and R177 in units of the slot's width: the opcode, the slot, the destination, and for each unit written the
exact integer whose residue it holds. -/
def modRowOf : Instr → Option (Nat × Nat × Dst × List (Env → Thread → Int))
  | .maddq g k d a b => some (0x208, k, d, [fun e u => e.residueSrc g k u a + e.residueSrc g k u b])
  | .msubq g k d a b => some (0x209, k, d, [fun e u => e.residueSrc g k u a - e.residueSrc g k u b])
  | .mnegq g k d a => some (0x20A, k, d, [fun e u => 0 - e.residueSrc g k u a])
  | .mmulq g k d a b => some (0x20B, k, d, [fun e u => e.residueSrc g k u a * e.residueSrc g k u b])
  | .mmacq g k d a b c => some (0x20C, k, d, [fun e u => e.residueSrc g k u a * e.residueSrc g k u b + e.residueSrc g k u c])
  | .mredq g k d a => some (0x20D, k, d, [fun e u =>
      ((e.srcAt u a 0).toNat + 2 ^ 32 * (e.srcAt u a 1).toNat : Int) +
        (if e.modWide g k then 2 ^ 64 * ((e.srcAt u a 2).toNat + 2 ^ 32 * (e.srcAt u a 3).toNat : Int) else 0)])
  | .bfly g k d a b c => some (0x210, k, d, [fun e u => e.residueSrc g k u a + e.residueSrc g k u c * e.residueSrc g k u b,
      fun e u => e.residueSrc g k u a - e.residueSrc g k u c * e.residueSrc g k u b])
  | .ibfly g k d a b c => some (0x211, k, d, [fun e u => e.residueSrc g k u a + e.residueSrc g k u b,
      fun e u => (e.residueSrc g k u a - e.residueSrc g k u b) * e.residueSrc g k u c])
  | .xbfly g k rel v d a b => some (0x212, k, d, [fun e u => partnered e g k rel v u a b
      (fun x p w => x + w * p) (fun x p w => p - w * x)])
  | .xibfly g k rel v d a b => some (0x213, k, d, [fun e u => partnered e g k rel v u a b
      (fun x p _ => x + p) (fun x p w => (p - x) * w)])
  | _ => none
where
  /-- The own value, the partner's and the twiddle of a thread that has a partner, combined for the top or the bottom of its pair (R177). -/
  partnered (e : Env) (g : Guard) (k : Nat) (rel : Bool) (v : Fin 8) (u : Thread) (a b : Src) (top bottom : Int → Int → Int → Int) : Int :=
    let dist : Nat := if rel then e.pool.grant / 2 ^ v.val else 2 ^ v.val
    let isTop := decide (u.lane / dist % 2 = 0)
    let own := e.residueSrc g k u a
    if dist = 0 ∨ e.pool.grant ≤ dist then own
    else match e.laneThread g (if isTop then u.lane + dist else u.lane - dist) with
      | none => own
      | some p => (if isTop then top else bottom) own (e.residueSrc g k p a) (e.residueSrc g k u b)

/-! Threads, fragments and memory across a word. -/

/-- The thread is the only one of its name. -/
def Sole (s : State) (u : Thread) : Prop := s.threads.filter (fun x => x.ref == u.ref) = [u]

/-- The thread stands in a fragment whose next address is `a`. -/
def At (t : State) (r : TRef) (a : Nat) : Prop := ∃ x ∈ t.threads, x.ref = r ∧ ∃ f ∈ t.frags, x.inFrag f.ref = true ∧ f.pc = a

/-- Every byte outside `out` keeps its value; the records of the host's write-range log are left aside (R303). -/
def Untouched (s t : State) (out : Nat → Prop) : Prop :=
  ∀ a, (a < Config.hostBase ∨ feature s 1 = false) → ¬out a → homeByte t a = homeByte s a

/-- An entry of a round buffer has at most left bytes to later writes that are performed at once (R185, R263). -/
def BufEntry.CutSince (x x' : BufEntry) : Prop := ∃ more, x' = { x with cut := x.cut ++ more }

/-- The round buffer of the block `blk` has at most left bytes of the entries of some threads to such writes. -/
def BuffersCut (blk : Nat) (who : TRef → Prop) (bs bs' : List Block) : Prop :=
  List.Forall₂ (fun b b' => (b.id ≠ blk → b' = b) ∧ b' = { b with buffer := b'.buffer } ∧
    List.Forall₂ (fun x x' => x.CutSince x' ∧ (¬who x.t → x' = x)) b.buffer b'.buffer) bs bs'

/-- A line that a still launch touched has at most taken bytes in `out` into its image, which the owner's own writes of the round then leave
(R263, R293). -/
structure Touched.Mirrored (out : Nat → Prop) (y y' : Touched) : Prop where
  rest : y' = { y with
    image := y'.image
    log := y'.log }
  log : List.Forall₂ BufEntry.CutSince y.log y'.log
  none : y.image = none → y' = y
  image : ∀ i, y.image = some i → ∃ i', y'.image = some i' ∧ i'.length = i.length ∧ ∀ k < 128, ¬out (128 * y.line + k) → i'[k]? = i[k]?

/-- The still launches have at most taken bytes in `out` into the images of their lines. -/
def Mirrored (out : Nat → Prop) (ls ls' : List Launch) : Prop :=
  List.Forall₂ (fun l l' => l' = { l with touched := l'.touched } ∧ List.Forall₂ (Touched.Mirrored out) l.touched l'.touched) ls ls'

/-- An entry of a round buffer once some threads have released at sy scope (R304). -/
def BufEntry.released (ts : List TRef) (x : BufEntry) : BufEntry := if x.t ∈ ts then { x with sync := true } else x

/-- A still word that releases at sy scope for the threads `ts` marks their writes of the round, so that the commit performs them at host memory
(R254 item 6, R304), and changes nothing else of the blocks and launches. -/
structure RoundReleased (e : Env) (ts : List TRef) (s t : State) : Prop where
  blocks : List.Forall₂ (fun b b' => b' = if b.id = e.block.id then { b with buffer := b.buffer.map (BufEntry.released ts) } else b) s.blocks t.blocks
  launches : List.Forall₂ (fun l l' => (l.id ≠ e.launch.id → l' = l) ∧ (l.id = e.launch.id → l' = { l with touched := l'.touched } ∧
    List.Forall₂ (fun y y' => y' = { y with log := y.log.map (BufEntry.released ts) }) l.touched l'.touched)) s.launches t.launches

/-- The peer lines that the lakes hold have changed at most in some lines, which `lake` may hold now (R254 items 2 and 5). -/
def PeersOwned (lake : Nat) (lines : Nat → Prop) (ps ps' : List (Nat × Nat)) : Prop :=
  (∀ p ∈ ps', p ∈ ps ∨ (p.1 = lake ∧ lines p.2)) ∧ ∀ p ∈ ps, p ∈ ps' ∨ lines p.2

/-- The address lies in one of some intervals of `n` bytes. -/
def among (l : List Nat) (n a : Nat) : Prop := ∃ p ∈ l, p ≤ a ∧ a < p + n

/-- A branch target that R125 calls valid for the fragment, in the code range in force for it (R232). -/
def Env.targetOk (e : Env) (a : Nat) : Prop := a % 16 = 0 ∧ e.codeBase ≤ a ∧ a < e.codeBase + e.extent

/-- The target of a relative branch (R125). -/
def relative (pc : Nat) (off : Word) : Nat := ((pc + 16 + off.toInt * 16 : Int) % 2 ^ 64).toNat

/-- The branch words and CALLs with their targets (R125). -/
def targetOf : Instr → Option (Env → Thread → Nat)
  | .bra _ off | .call _ off => some (fun e _ => relative e.pc off)
  | .brx _ a | .callx _ a => some (fun e u => e.codeBase + (e.src 0 u a).toNat)
  | .ret _ => some (fun _ u => (u.stack.headD 0).toNat)
  | _ => none

/-- Where a thread stands after a branch: at its target, at the next word, or, where more than sixteen addresses are named, still on the word
(R49, R126). -/
def Env.goes (e : Env) (g : Guard) (target : Thread → Nat) (u : Thread) : Nat :=
  let left := e.staying (e.active g) target
  if u.ref ∈ left ∨ (left ≠ [] ∧ guardPasses g u = false) then e.pc else if guardPasses g u then target u else e.pc + 16

/-- The threads of two names stand in different fragments. -/
def Apart (t : State) (r q : TRef) : Prop := ∀ x ∈ t.threads, x.ref = r → ∀ y ∈ t.threads, y.ref = q → ∀ f ∈ t.frags,
  ¬(x.inFrag f.ref = true ∧ y.inFrag f.ref = true)

/-- The threads of two names stand in one fragment. -/
def Together (t : State) (r q : TRef) : Prop := ∃ x ∈ t.threads, x.ref = r ∧ ∃ y ∈ t.threads, y.ref = q ∧ ∃ f ∈ t.frags,
  x.inFrag f.ref = true ∧ y.inFrag f.ref = true

/-- What a word that only moves its fragment's threads leaves in a thread: `st` says that its return stack may change. -/
structure Thread.Stays (names : List TRef) (st : Bool) (u u' : Thread) : Prop where
  rest : u' = { u with
    place := u'.place
    retired := u'.retired
    stack := u'.stack
    spilled := u'.spilled }
  stack : st = false → u'.stack = u.stack ∧ u'.spilled = u.spilled
  others : u.ref ∉ names → u' = { u with retired := u'.retired }

/-- What such a word leaves in the state: everything but its fragment, the places of its threads and the bookkeeping of the issue. -/
structure State.Stays (e : Env) (st : Bool) (s t : State) : Prop where
  rest : t = { s with
    threads := t.threads
    frags := t.frags
    cur := t.cur
    free := t.free
    hints := t.hints
    mem := t.mem
    lineTag := t.lineTag
    hostLines := t.hostLines
    peerLines := t.peerLines
    slices := t.slices
    incomplete := t.incomplete
    tlb := t.tlb
    launches := t.launches
    blocks := t.blocks
    host := t.host }
  threads : List.Forall₂ (Thread.Stays (e.threads.map Thread.ref) st) s.threads t.threads
  frags : ∀ f ∈ s.frags, f.ref ≠ e.frag.ref → f ∈ t.frags

/-- Nothing waits for the threads of a word's pond: no collective of it and no barrier holds an arrival (R193, R200), and no trap waits for a
frame (R353). -/
def Quiet (s : State) (e : Env) : Prop := (∀ c ∈ s.colls, c.pond ≠ e.pond.id) ∧ (∀ b ∈ s.bars, b.arrived = []) ∧
  ∀ f ∈ s.frags, ∀ r a, f.hold ≠ .frame r a

/-! Words that start accesses, producers and commands. -/

/-- What the issue of a word leaves beside its own effect, which stands in `s` already: its threads count in %retired and find the registers
`marks` empty where `ws` names them (R71, R103, R226), and its fragment moves on (R102). -/
structure State.Issued (e : Env) (marks : List Nat) (ws : List TRef) (s t : State) : Prop where
  rest : t = { s with
    threads := t.threads
    frags := t.frags
    cur := t.cur
    free := t.free
    hints := t.hints }
  threads : List.Forall₂ (fun u u' => u' = { u with
    retired := if u.inFrag e.frag.ref then u.retired + 1 else u.retired
    marks := if u.ref ∈ ws then u.marks ++ marks.map (fun r => ⟨r, e.iss.wid, false, false, false⟩) else u.marks }) s.threads t.threads
  frags : List.Forall₂ (fun f f' => (f.ref ≠ e.frag.ref → f' = f) ∧
    (f.ref = e.frag.ref → f'.ref = f.ref ∧ f'.pc = if e.iss.part = .pairX then f.pc else f.pc + 16)) s.frags t.frags

/-- The registers of a destination of `n` registers. -/
def dstRange (d : Dst) (n : Nat) : List Nat :=
  match d with
  | .reg r _ => (List.range n).map (r.val + ·)
  | .none => []

/-- The producer that a word starts for `n` registers of `d` (R71). -/
def Env.producer (e : Env) (id : Nat) (d : Dst) (n : Nat) (ext : Option Bool) (lanes : List OpLane) : Op where
  id := id
  wid := e.iss.wid
  pool := e.pool.id
  reg := match d with
    | .reg r _ => some r.val
    | .none => none
  tag := match d with
    | .reg _ t => t
    | .none => .home
  n := n
  ext := ext
  lanes := lanes
  taken := []

/-- The destination that a long-latency word writes: its registers, and whether fewer than 4 bytes are zero-extended (R182). -/
structure LongDst where
  d : Dst
  n : Nat
  ext : Option Bool

/-- What a word does at memory: the access and its checks, its address operand, the bytes of a lane's datum that it reaches, what each of its
single-copy-atomic units does (R182, R183, R190), what a piece then holds, and where what it reads goes. -/
structure MemRow where
  acc : Acc
  loc : Bool
  masked : Bool
  n : Nat
  disp : BitVec 16
  a : Src
  order : Order
  scope : Scope
  pieces : Env → Thread → List (Nat × Nat)
  kind : Env → Hit → Nat × Nat → AccKind
  result : Env → Hit → List Byte → List Byte
  dst : Option LongDst
  waits : Bool

/-- The bytes of a stored datum that a piece writes (R182, R183). -/
def Env.stored (e : Env) (b : Src) (n : Nat) (h : Hit) : List Byte := ((e.datum h.t b n).drop h.off).take h.n

/-- The rows of R182, R183 and R190. -/
def memRow : Instr → Option MemRow
  | .ld _ m uns d a => some {
      acc := .load, loc := m.loc, masked := false, n := m.size.bytes, disp := m.disp, a := a, order := m.order, scope := m.scope
      pieces := fun _ _ => [(0, m.size.bytes)]
      kind := fun _ _ _ => .load false
      result := fun _ _ old => old
      dst := some ⟨d, m.size.regs, if m.size.bytes < 4 then some uns else none⟩
      waits := true }
  | .st _ m a b => some {
      acc := .store, loc := m.loc, masked := false, n := m.size.bytes, disp := m.disp, a := a, order := m.order, scope := m.scope
      pieces := fun _ _ => [(0, m.size.bytes)]
      kind := fun e h u => .store (((e.datum h.t b m.size.bytes).drop (h.off + u.1)).take u.2)
      result := fun e h _ => e.stored b m.size.bytes h
      dst := none
      waits := false }
  | .stm _ m a b c => some {
      acc := .store, loc := m.loc, masked := true, n := m.size.bytes, disp := m.disp, a := a, order := m.order, scope := m.scope
      pieces := fun e u => ((List.range m.size.bytes).filter (fun i => (e.src 0 u c).toNat.testBit i)).map (fun i => (i, 1))
      kind := fun e h u => .store (((e.datum h.t b m.size.bytes).drop (h.off + u.1)).take u.2)
      result := fun e h _ => e.stored b m.size.bytes h
      dst := none
      waits := false }
  | .atom _ m d a b c => some (atomRow m a b c (some ⟨d, if m.wide then 2 else 1, none⟩))
  | .redm _ m a b => some (atomRow m a b .zero none)
  | _ => none
where
  /-- ATOM and REDM (R188 to R190). -/
  atomRow (m : AtomMod) (a b c : Src) (dst : Option LongDst) : MemRow :=
    { acc := .atomic, loc := false, masked := false, n := if m.wide then 8 else 4, disp := m.disp, a := a, order := m.order, scope := m.scope
      pieces := fun _ _ => [(0, if m.wide then 8 else 4)]
      kind := fun e h _ => .atom m.op m.wide m.uns (e.atomSrc m.wide h.t b) (e.atomSrc m.wide h.t c)
      result := fun e h old => leBytes h.n (atomNew m.op h.n m.uns (leNat old) ((e.atomSrc m.wide h.t b).toNat % 2 ^ (8 * h.n))
        ((e.atomSrc m.wide h.t c).toNat % 2 ^ (8 * h.n)))
      dst := dst
      waits := true }

/-- The translated pieces of a word, where its checks of memory find nothing (R356). -/
def MemRow.hits (r : MemRow) (s : State) (e : Env) (g : Guard) : Except Res (List Hit) :=
  gaccess s e r.acc r.loc r.masked r.n (r.pieces e) ((e.active g).map (fun u => (u, e.ea u r.a r.disp)))

/-- The units of a word's pieces: the piece, and the place and length of the unit in it. -/
def unitsOf (hs : List Hit) : List (Hit × Nat × Nat) := hs.flatMap (fun h => (units h.n).map (fun u => (h, u)))

/-- The entry of a round buffer for what an access does (R293). -/
def AccKind.entry (n : Nat) : AccKind → List Byte × Option (AtomOp × Bool × Bool × DWord × DWord)
  | .store bs => (bs, none)
  | .atom op w u b c => (leBytes n 0, some (op, w, u, b, c))
  | .load _ => ([], none)

/-- What an access in flight is, beside its number and the word it comes from. -/
def Access.what (x : Access) : TRef × Space × Nat × Nat × AccKind × Option (Nat × Nat) := (x.t, x.space, x.addr, x.n, x.kind, x.dst)

/-- Every host line in the caches is a whole line of host memory (R254 item 6). -/
def State.hostLinesOk (s : State) : Prop := ∀ h ∈ s.hostLines, Config.hostBase ≤ 128 * h.line ∧ h.bytes.length = 128

/-- What a scratchpad word does: its checks, what a lane's access is, and where what it reads goes (R186, R187, R190). -/
structure SpRow where
  align : Bool
  reads : Bool
  n : Nat
  a : Src
  disp : BitVec 16
  pieces : Env → Thread → List (Nat × Nat × AccKind)
  dst : Option LongDst

/-- The rows of R186, R187 and R190. -/
def spRow : Instr → Option SpRow
  | .lds _ size take uns disp d a => some {
      align := true, reads := true, n := size.bytes, a := a, disp := disp
      pieces := fun _ _ => [(0, size.bytes, .load take)]
      dst := some ⟨d, size.regs, if size.bytes < 4 then some uns else none⟩ }
  | .sts _ size disp a b => some {
      align := true, reads := false, n := size.bytes, a := a, disp := disp
      pieces := fun e u => (units size.bytes).map (fun p => (p.1, p.2, .store (((e.datum u b size.bytes).drop p.1).take p.2)))
      dst := none }
  | .stsm _ size disp a b c => some {
      align := false, reads := false, n := size.bytes, a := a, disp := disp
      pieces := fun e u => ((List.range size.bytes).filter (fun i => (e.src 0 u c).toNat.testBit i)).map (fun i =>
        (i, 1, .store (((e.datum u b size.bytes).drop i).take 1)))
      dst := none }
  | .atoms _ op wide uns disp d a b c => some {
      align := true, reads := true, n := if wide then 8 else 4, a := a, disp := disp
      pieces := fun e u => [(0, if wide then 8 else 4, .atom op wide uns (e.atomSrc wide u b) (e.atomSrc wide u c))]
      dst := some ⟨d, if wide then 2 else 1, none⟩ }
  | _ => none

/-- The bytes of a scratchpad after some pieces of a word have acted on them one after the other (R186, R189): each piece has its lane's address, its
offset, its length and what it does. -/
def afterPieces (ps : List ((Thread × Nat) × Nat × Nat × AccKind)) (m : List Host.Cell) : List Host.Cell :=
  ps.foldl (fun m q =>
    let a := q.1.2 + q.2.1
    let n := q.2.2.1
    match q.2.2.2 with
    | .load _ => m
    | .store bs => putBytes m a bs
    | .atom op _ uns b c => putBytes m a (leBytes n (atomNew op n uns (leNat (bytesAt m a n)) (b.toNat % 2 ^ (8 * n)) (c.toNat % 2 ^ (8 * n))))) m

/-- A pond but for its matrix registers, and for its slots and their tiles that R221 leaves open. -/
def Pond.sameScratch (d d' : Pond) : Prop := d' = { d with conv := d'.conv, held := d'.held, scratch := d'.scratch }

/-! Collectives and copies. -/

/-- The words in which threads of a pond or pool act together (R73, R199, R228). -/
def isCollective : Instr → Bool
  | .nred .. | .nbcast .. | .merge .. | .setw .. => true
  | _ => false

/-- The pool whose members a collective gathers; none for the pond's (R73, R200). -/
def collPool (e : Env) : Instr → Option Nat
  | .merge _ false .. => some e.pool.id
  | _ => none

/-- One word brings every member of a collective that nothing has arrived at; `l` holds them in ascending block-linear thread index. -/
structure Alone (s : State) (e : Env) (g : Guard) (p : Option Nat) (l : List Thread) : Prop where
  some_ : l ≠ []
  acting : l.Perm (e.active g)
  order : l.Pairwise (fun u v => u.tid < v.tid)
  fresh : ∀ c ∈ s.colls, ¬(c.pond = e.pond.id ∧ c.pool = p)
  members : ∀ u, u ∈ members s e.pond.id p ↔ u ∈ l
  sole : ∀ u ∈ l, Sole s u

/-- Sub-element `i` of the fold of the values of a pond's members, whose block-linear thread indices rise, padded to a power of two (R93). -/
def pondFoldPart (r : RMod) (vals : List Nat) (i : Nat) : Nat :=
  (foldHalves r (Nat.clog 2 vals.length) (fun j => vals[j]?.map (redPart r · i))).getD (redIdentity r)

/-- Flag `b` is raised by a step of that fold. -/
def pondFoldRaises (r : RMod) (b : Nat) (vals : List Nat) (i : Nat) : Prop :=
  foldRaises r b (Nat.clog 2 vals.length) (fun j => vals[j]?.map (redPart r · i))

/-- The commands of a copy word where its checks find nothing (R196, R356). -/
def Env.commands (e : Env) (s : State) (act : List Thread) (n : Nat) (dir : CopyDir) (a b c : Src) : Except Res (List Cmd) :=
  let obj := dirObj dir
  let cmd (t : Thread) : Cmd := ⟨t, (e.src 0 t b).toNat, if obj then 0 else (e.src64 0 false t a).toNat⟩
  match copyTrap e.pond.size n obj (act.map cmd) with
  | some t => .error (.trap t)
  | none => if obj then shapeCmds n (act.map (fun t => (cmd t, copyShape s e t (dirIn dir) n (e.src 0 t a).toNat
      ((List.range 4).map (fun i => (e.srcAt t c i).toNat))))) else .ok (act.map cmd)

/-! Matrix operations. -/

/-- The running operation `m` of the pond `d` may take effect, and nothing has spoiled it or poisons it (R187, R213, R221, R380). -/
structure Finishes (s : State) (id : Nat) (m : MOp) (d : Pond) : Prop where
  op : mop s id = some m
  pond : pond s m.pond = some d
  started : m.started = true
  runs : (mopCore s m).isSome = true
  due : replays s m.orig m.parked = true
  full : emptyOperand s m = none
  clean : poisonedOperand s m = none
  good : m.bad = false
  device : (∀ g ∈ m.signers, deviceBefore s g.t m.wid = false) ∨ onDevice s m.orig m.memUnits = false
  unspoiled : ∀ u ∈ s.threads, ∀ x ∈ u.uses, x.spoiled = false

/-- The slots of an operation in the pond afterwards hold what `p` says; `p` takes the slot before and the slot after. -/
def MOp.leaves (m : MOp) (d d' : Pond) (p : RSlot → RSlot → Prop) : Prop :=
  ∀ r ∈ d'.held, r.idx = m.idx → r.gen = m.gen → ∃ r0 ∈ d.held, r0.idx = m.idx ∧ r0.gen = m.gen ∧ p r0 r

/-- A line after the down-converter (R218). -/
def MOp.line (m : MOp) (d : Pond) (j : Nat) : List Nat × List (Nat × Nat) × FlagSet :=
  convertLine m.fmt ((slotData d m.idx m.gen).line (fwTA m.fmt) j)

/-- The bytes of a stored tile from its converted lines (R211): the element plane and then the scale plane. -/
def tileBytesOf (fmt : Nat) (line : Nat → List Nat × List (Nat × Nat) × FlagSet) : List Byte :=
  (List.range 128).flatMap (fun j => lineBytes fmt (line j).1) ++
    (List.range 128).flatMap (fun j => (line j).2.1.flatMap (fun p => [BitVec.ofNat 8 p.1, BitVec.ofNat 8 p.2]))

/-- The Kilulo encoding `r` of a line of 128 finite values `x` (R91): the exponent bytes of its four blocks, its elements, and NX where one of
them differs from its value. -/
def KiluloLine (w : Word) (x : Nat → FVal) (r : List Nat × List (Nat × Nat) × FlagSet) : Prop :=
  let kb4 := decide (fwA w = 3)
  let n := if kb4 then 4 else 8
  let units : ℚ := if kb4 then 2 else 32
  let mmax : ℤ := if kb4 then 3 else 63
  ∃ e0 : Nat → Nat,
    (∀ b < 4, r.2.1[b]? = some (e0 b, e0 b - fwGap w) ∧ fwGap w ≤ e0 b ∧ (∀ j, j / 32 = b → |(x j).rat| < (2 : ℚ) ^ ((e0 b : ℤ) - 126)) ∧
      (e0 b = fwGap w ∨ ∃ j, j / 32 = b ∧ (2 : ℚ) ^ ((e0 b : ℤ) - 127) ≤ |(x j).rat|)) ∧
    let y0 (j : Nat) : ℚ := |(x j).rat| * units * (2 : ℚ) ^ (127 - (e0 (j / 32) : ℤ))
    let below (y : ℚ) : Nat := ⌊Int.fract y * 2 ^ 24⌋.toNat
    let hash (j : Nat) : Nat := srHash (if j = 0 then 0 else below (y0 (j - 1))) (if j + 1 < 128 then below (y0 (j + 1)) else 0) j
    let rnd (y : ℚ) (j : Nat) : ℤ :=
      if fwRnd w = .sr then ⌊y⌋ + (if 2 ^ 24 ≤ below y + hash j / 2 ^ 8 then 1 else 0) else roundInt (fwRnd w) y
    (∀ j < 128, let m1 := rnd (y0 j * 2 ^ fwGap w) j
      r.1[j]? = some ((if (x j).neg then 2 ^ (n - 2) else 0) +
        if m1 < mmax then 2 ^ (n - 1) + m1.toNat else (min (rnd (y0 j) j) mmax).toNat)) ∧
    (r.2.2.nx = true ↔ ∃ j < 128, (kbDecode n (e0 (j / 32)) (e0 (j / 32) - fwGap w) (r.1.getD j 0)).rat ≠ (x j).rat) ∧
    r.2.2 = { nx := r.2.2.nx }

/-! Traps. -/

/-- The record of a trap of a word (R336, R337). -/
def Env.trapRec (e : Env) (tr : Trap) : Rec :=
  e.rcd tr.cause tr.detail tr.addr e.pc (if e.reached then e.frag.skid else 0) tr.lane (decide (e.iss.part = .pairY)) false false

/-- Where a trap resumes its fragment (R232, R343): at the word, but behind a software trap. -/
def Env.resumeAt (e : Env) (tr : Trap) : Nat := if tr.cause = 0x0E then e.pc + 16 else e.pc

/-- The fragment's trap frame lies at the physical addresses from `base` up in device memory that is free of damage (R232, R233): every piece of
it translates so, whatever the frame itself holds. -/
structure FrameAt (s : State) (e : Env) (base : Nat) : Prop where
  xlat : ∀ x : State, x = { s with
      mem := x.mem
      lineTag := x.lineTag
      launches := x.launches
      blocks := x.blocks
      cur := x.cur } → (∀ a, ¬(base ≤ a ∧ a < base + 2176) → byteAt x.mem a = byteAt s.mem a) →
    ∀ i < 272, ∃ leaf, checkXlat x none e.ctx true ⟨0, e.frame + 8 * i, 8, .store, false, false⟩ = .ok (base + 8 * i, leaf)
  device : base + 2176 ≤ Config.deviceTop
  clean : ∀ i < 2176, lineOf (base + i) ∉ s.badLines
  home : s.slices = []
  hosts : s.hostLinesOk
  lanes : ∀ u ∈ e.threads, u.lane < 128
  distinct : (e.threads.map Thread.lane).Nodup

/-- The fragment is in the handler (R232, R233): its threads hold the frame's address in w0, the frame holds the record with its sequence number, the mask of
the lanes, where each of them resumes and the w0 that it had, behind whatever the round buffer of its block holds of an earlier frame; nothing else
changes. -/
structure InHandler (s : State) (e : Env) (tr : Trap) (base : Nat) (t : State) : Prop where
  rest : t = { s with
    threads := t.threads
    pools := t.pools
    frags := t.frags
    ctxs := t.ctxs
    mem := t.mem
    lineTag := t.lineTag
    launches := t.launches
    blocks := t.blocks
    cur := none }
  images : Mirrored (fun a => base ≤ a ∧ a < base + 2176) s.launches t.launches
  buffers : BuffersCut e.block.id (fun _ => True) s.blocks t.blocks
  frag : ∃ f ∈ t.frags, f.ref = e.frag.ref ∧ f.pc = e.ctx.rcd.handler ∧ f.hold = .free
  frags : ∀ f ∈ s.frags, f.ref ≠ e.frag.ref → f ∈ t.frags
  threads : List.Forall₂ (fun u u' => (u.inFrag e.frag.ref = false → u' = u) ∧ (u.inFrag e.frag.ref = true →
    u' = { u with
      springs := u'.springs
      poison := u'.poison
      marks := u'.marks
      uses := u'.uses
      handler := true } ∧ mapGet u'.springs 0 = some (BitVec.ofNat 32 e.frame) ∧
      mapGet u'.springs 1 = some (BitVec.ofNat 32 (e.frame / 2 ^ 32)) ∧ ∀ n, n ≠ 0 → n ≠ 1 → mapGet u'.springs n = mapGet u.springs n)) s.threads t.threads
  pools : List.Forall₂ (fun p p' => p' = { p with opY := p'.opY }) s.pools t.pools
  ctx : ∃ c, ctx t e.ctx.rcd.id = some c ∧ c = { e.ctx with seq := e.ctx.seq + 1 }
  record : homeBytes t base 64 = leBytes 64 ((e.trapRec tr).raw + 2 ^ 64 * (e.ctx.seq % 2 ^ 64))
  mask : ∀ l < 128, (homeValue t (base + 64) 16).testBit l = true ↔ ∃ u ∈ e.threads, u.lane = l
  lanes : ∀ u ∈ e.threads, homeValue t (base + 96 + 8 * u.lane) 8 = e.resumeAt tr % 2 ^ 64 ∧ homeValue t (base + 1120 + 8 * u.lane) 8 =
    (pairWord (resolve (some e.pool) e.pond u 1 .res) (resolve (some e.pool) e.pond u 0 .res)).toNat
  memory : ∀ a, ¬(base ≤ a ∧ a < base + 2176) → homeByte t a = homeByte s a

/-- The fragment has stopped at a trap that no handler takes (R336, R338, R343, R370): the record stands in the fault queue of its context, or waits for it, and its
block halts; its registers stay as they are. -/
structure Stopped (s : State) (e : Env) (tr : Trap) (t : State) : Prop where
  threads : t.threads = s.threads
  pools : t.pools = s.pools
  ponds : t.ponds = s.ponds
  frag : ∃ f ∈ t.frags, f.ref = e.frag.ref ∧ f.hold = .faulted ∧ f.pc = e.resumeAt tr
  frags : ∀ f ∈ s.frags, f.ref ≠ e.frag.ref → f ∈ t.frags
  halts : ∀ b ∈ t.blocks, b.id = e.block.id → b.halt.isSome = true
  queue : ∃ c, ctx t e.ctx.rcd.id = some c ∧ ((c.held = e.ctx.held ++ [⟨BitVec.ofNat 512 (e.trapRec tr).raw, some e.frag.ref⟩] ∧ c.seq = e.ctx.seq) ∨
    (c.held = e.ctx.held ∧ c.seq = e.ctx.seq + 1))

/-- What taking a trap does (R232, R336, R343, R353, R375): without a handler, in handler mode or in a halt the fragment stops; with its pool's frame
in use it waits for it with its record and stays on its word; else it enters the handler. -/
def Taken (s : State) (e : Env) (tr : Trap) (t : State) : Prop :=
  (e.ctx.hasHandler = false ∨ e.handling = true ∨ e.reached = true → Stopped s e tr t) ∧
  (e.ctx.hasHandler = true → e.handling = false → e.reached = false → frameBusy s e.pool.id = true →
    t = { s with cur := none, frags := t.frags } ∧ List.Forall₂ (fun f f' => f' = if f.ref = e.frag.ref then { f with hold := .frame (e.trapRec tr) (e.resumeAt tr), deferred := none } else f) s.frags t.frags) ∧
  (e.ctx.hasHandler = true → e.handling = false → e.reached = false → frameBusy s e.pool.id = false →
    ∀ base, FrameAt s e base → InHandler s e tr base t)

/-- The fragment has parked on its word (R357): nothing of the word is performed, and a record goes to the fault queue of its context, or is held for it, unless
the page stands in the outstanding-page table or the fragment parked on it before (R358). -/
structure Parked (s : State) (e : Env) (f : MemFault) (t : State) : Prop where
  threads : t.threads = s.threads
  pools : t.pools = s.pools
  ponds : t.ponds = s.ponds
  accs : t.accs = s.accs
  ops : t.ops = s.ops
  launches : t.launches.map Launch.id = s.launches.map Launch.id
  frag : ∃ x ∈ t.frags, x.ref = e.frag.ref ∧ x.pc = e.frag.pc ∧ x.hold = .parked (f.addr / 65536) false
  frags : ∀ x ∈ s.frags, x.ref ≠ e.frag.ref → x ∈ t.frags
  known : f.addr / 65536 ∈ e.ctx.pages ∨ (∃ b, e.frag.hold = .parked (f.addr / 65536) b) →
    ∃ c, ctx t e.ctx.rcd.id = some c ∧ c.held = e.ctx.held ∧ c.seq = e.ctx.seq ∧ c.pages = e.ctx.pages
  new : f.addr / 65536 ∉ e.ctx.pages → (∀ b, e.frag.hold ≠ .parked (f.addr / 65536) b) → ∃ c, ctx t e.ctx.rcd.id = some c ∧
    (f.addr / 65536 ∈ c.pages ∨ 64 ≤ e.ctx.pages.length) ∧
    ((c.held = e.ctx.held ++ [⟨BitVec.ofNat 512 (e.rcd f.cause f.detail (some f.addr) e.pc 0 f.lane (decide (e.iss.part = .pairY)) false false).raw,
      some e.frag.ref⟩] ∧ c.seq = e.ctx.seq) ∨ (c.held = e.ctx.held ∧ c.seq = e.ctx.seq + 1))

/-- The word traps wherever it issues in `s` (R342, R343). -/
def Traps (i : Instr) (s : State) (e : Env) (tr : Trap) : Prop := ∃ t, exec i s = .next t ∧ Taken s e tr t

/-! System words. -/

/-- The special registers that only a word's surroundings and its thread give, as R225 to R227 say; `t` is the state after the word, whose count of late
words %hintmiss reads. -/
def Env.special (e : Env) (s t : State) (u : Thread) : SReg → Nat
  | .tid => u.tid
  | .lane => u.lane
  | .gw => e.pool.grant
  | .gwn => gwnOf s e.ctx e.core
  | .gwstale => if e.pool.grant = gwnOf s e.ctx e.core then 0 else 1
  | .pool => e.pool.num
  | .frag => e.frag.id
  | .blkx => e.block.bx
  | .blky => e.block.byy
  | .blkz => e.block.bz
  | .core => e.core
  | .lake => Config.lakeOf e.core
  | .basin => Config.basinOf e.core
  | .clock | .retired => u.retired.toNat
  | .fflags => u.fflags.toNat
  | .hintmiss => if e.still then 0 else hintsOf t e.ctx.rcd.id e.core
  | .round => if e.still then e.launch.round % 2 ^ 31 + (if ∃ k ∈ e.launch.killed, k < e.block.lin then 2 ^ 31 else 0) else 0
  | .ctx => e.ctx.rcd.id
  | .cbase => e.launch.kernel.code

/-- The special register holds 64 bits (R225). -/
def wideSpecial : SReg → Bool
  | .clock | .retired | .cbase => true
  | _ => false

/-- A range of code, or a translated range, of a context that meets `[lo, lo + n)` (R116, R117). -/
def meetsCode (lo n a b : Nat) : Prop := a < lo + n ∧ lo < b

/-- No decoded word and no translation of the context covers code of the ranges (R116, R117, R235, R238); the rest of both stands. -/
def CodeDropped (s t : State) (c : Nat) (ranges : List (Nat × Nat)) : Prop :=
  (∀ x, x ∈ t.icache ↔ x ∈ s.icache ∧ (x.ctx = c → ∀ r ∈ ranges, ¬meetsCode r.1 r.2 x.addr (x.addr + 16))) ∧
  List.Forall₂ (fun y y' => y' = { y with transl := y'.transl } ∧ (y.rcd.id ≠ c → y' = y) ∧
    (y.rcd.id = c → ∀ x, x ∈ y'.transl ↔ x ∈ y.transl ∧ ∀ r ∈ ranges, ¬meetsCode r.1 r.2 x.lo x.hi)) s.ctxs t.ctxs

/-! The device's and the host's events. -/

/-- The `n` bytes of a context's area from `va` up lie in device memory from `base` up, free of damage, and the device may write them (R339). -/
structure AreaAt (s : State) (c : Ctx) (priv : Bool) (va n base : Nat) : Prop where
  xlat : ∀ i < (n + 7) / 8, ∃ leaf, checkXlat s none c priv ⟨0, va + 8 * i, 8, .store, false, false⟩ = .ok (base + 8 * i, leaf)
  clean : ∀ i < n, lineOf (base + i) ∉ s.badLines
  aligned : base % 4 = 0
  device : base + n ≤ Config.deviceTop
  home : s.slices = []
  hosts : s.hostLinesOk

/-- Record HEAD of queue `q` of context `c` may start next (R282, R285): the device works and the context runs, the queue is enabled and not
empty, and no launch of it runs; `h` is its header and `r` the record. -/
structure StartsAt (s : State) (c q : Nat) (x : Ctx) (h r : Nat) : Prop where
  ctx : ctx s c = some x
  running : x.running = true
  works : s.host.go = true ∧ s.host.pstate < 8
  queue : q < 16
  header : header s x q = h
  enabled : h.testBit 83 = true
  waiting : h / 2 ^ 128 % 2 ^ 32 ≠ h / 2 ^ 160 % 2 ^ 32 ∧ h / 2 ^ 192 % 2 ^ 32 = h / 2 ^ 160 % 2 ^ 32
  first : ∀ l ∈ s.launches, ¬(l.ctx = c ∧ l.queue = q)
  record : ∃ bs, areaRead s x ((h % 2 ^ 64 + 64 * (h / 2 ^ 160 % 2 ^ 32 % 2 ^ (h / 2 ^ 64 % 2 ^ 5))) % 2 ^ 64) 64 = .ok bs ∧ r = leNat bs

/-- A word at `a` of a context's code whose execution may lead a fragment to a safe point at `p` (R117): the target of a branch to the same
or an earlier address, the entry of a CALL, or the return address after a CALL or CALLX. -/
def leadsTo (s : State) (c : Ctx) (a p : Nat) : Prop :=
  ∃ bs sch i, areaRead s c a 16 = .ok bs ∧ decodeWord (leNat bs) = .ok (.one sch i) ∧
    ((∃ g off, i = .bra g off ∧ p = relative a off ∧ p ≤ a) ∨ (∃ g off, i = .call g off ∧ (p = relative a off ∨ p = a + 16)) ∨
      ∃ g x, i = .callx g x ∧ p = a + 16)

/-- The buffered writes of a still launch in the order of its round (R277): its blocks from the one that the round number names, each one's
writes in program order. -/
def roundWrites (s : State) (l : Launch) : List BufEntry :=
  let place (b : Block) : Nat := (b.lin + l.blocks - l.round % l.blocks) % l.blocks
  (sortBy place (s.blocks.filter (fun b => b.launch == l.id && !b.ended))).flatMap (fun b => sortBy BufEntry.seq b.buffer)

/-- The entry of a round buffer writes a byte. -/
def BufEntry.hits (x : BufEntry) (a : Nat) : Prop := x.pa ≤ a ∧ a < x.pa + x.bytes.length

/-- The entry writes a byte: an atomic all of its own, and a store those that no later write has taken from it (R263, R277). -/
def BufEntry.alters (x : BufEntry) (a : Nat) : Prop := x.hits a ∧ (x.atom = none → ∀ c ∈ x.cut, ¬(c.1 ≤ a ∧ a < c.2))

/-- The round of a still launch commits nothing but writes of device memory to shared lines, and the number of the next round, which goes to the
address `base` whatever the writes leave there (R277, R291, R292). -/
structure PlainRound (s : State) (l : Launch) (c : Ctx) (base : Nat) : Prop where
  inside : ∀ b ∈ s.blocks, b.launch = l.id → b.lake.isSome = true ∧ b.killed = false
  shared : ∀ y ∈ l.touched, y.word = none ∧ y.st = .shared
  writes : ∀ x ∈ roundWrites s l, x.launch = none ∧ x.pa + x.bytes.length ≤ Config.hostBase ∧ lostTo s x.pa = false ∧
    ∀ op wide uns b k, x.atom = some (op, wide, uns, b, k) → x.bytes.length = if wide then 8 else 4
  number : ∀ x : State, x = { s with
      mem := x.mem
      lineTag := x.lineTag
      peerLines := x.peerLines
      icache := x.icache
      ctxs := x.ctxs
      launches := x.launches
      blocks := x.blocks
      ops := x.ops } → (∀ a, (∀ y ∈ roundWrites s l, ¬y.alters a) → byteAt x.mem a = byteAt s.mem a) →
    AreaAt x c false (roundHeader c l.queue + 28) 4 base

/-- The dispatcher may serve this launch of a running context (R288): no launch before it in the order can use room, and it has no block switched
out. -/
structure Serves (s : State) (l : Launch) (c : Ctx) : Prop where
  launch : launch s l.id = some l
  ctx : ctx s l.ctx = some c
  works : s.host.go = true ∧ s.host.pstate < 8
  running : c.running = true ∧ c.stalled = false
  first : ∀ y ∈ s.launches, y.ctx = l.ctx → offerKey s y < offerKey s l → offer s c y = none
  inside : ∀ b ∈ s.blocks, b.launch = l.id → b.lake.isSome = true

/-- The bytes that a host agent's transfer of `n` bytes at `a` reaches in memory, from `base` up (R251, R300). -/
def reaches (s : State) (target : HostTarget) (a n base : Nat) : Prop :=
  match target with
  | .window => base = s.host.winoff.toNat / 2 ^ 36 % 2 ^ 16 * 2 ^ 36 + a ∧ a + n ≤ 2 ^ 36 ∧ base + n ≤ Config.deviceTop
  | .hostMem => base = Config.hostBase + a ∧ base + n ≤ Config.physTop

/-- The registers of BAR0 that the host reads back as it wrote them, with the bits that they hold (R300, R301, R303, R304, R306); those of a feature
only where negotiation has not refused it (R302). -/
def plainRegs (s : State) : List (Nat × DWord) :=
  (if s.host.go then [] else [(0x08, 0x1F)]) ++ [(0x18, 0xFFFF000000000), (0xC0, -1), (0xC8, -1), (0xD0, -1), (0xE0, -1), (0xE8, -1)] ++
    (if refusedFeature s 1 then [] else [(0x80, -1), (0x88, 0x31F), (0x98, -1)]) ++
    (if refusedFeature s 3 then [] else [(0x100, -1), (0x108, -1), (0x110, -1)])

/-- The values of `n` bytes that a peer's atomic leaves (R189, R305). -/
def peerNew (op : AtomOp) (uns : Bool) (n : Nat) (old : List Byte) (b c : DWord) : List Byte :=
  leBytes n (atomNew op n uns (leNat old) (b.toNat % 2 ^ (8 * n)) (c.toNat % 2 ^ (8 * n)))

end Sys2Proof.Machine
end

