-- ==== Sys2Proof/Certificates/Slice0/Obligations.lean ====
section
/-! DEFINITION. The statements for the provers. -/

open Sys2Proof Sys2Proof.Machine

/-! ## Registers: what every register word leaves, and what it writes -/

/-- Every register word whose checks find nothing completes, and leaves alone every register, predicate and flag but those that it names, every
thread for which it does not act, the special registers but %retired, all memory and the rest of the part (R37, R123, R342). -/
def Obligations.RegisterWordsComplete : Prop :=
  ∀ (s : State) (e : Env) (i : Instr), isRegisterWord i = true → Issues s e i →
    ∃ t, exec i s = .next t ∧ s.Keeps e (e.dstRegs i) (dstPreds i) (mayRaise i) (e.acting (guardOfInstr i)) t

/-- R131, R135, R140, R141: MOV, MOVI, MOVH and SEL write the source, the literal, two halves, or one of two sources; ICMP writes the truth of its
condition to a predicate, and ISET writes 1 or 0 to a register; BYTEP selects bytes by nibbles, and LEA adds a scaled index modulo 2^64. -/
def Obligations.MovesComparesAndBytes : Prop :=
  (((∀ g w uns d a imm, Writes (.mov g w uns d a imm) w d (fun e u v => Same w v (e.srcW imm w uns u a))) ∧
  (∀ g w uns d imm, Writes (.movi g w uns d imm) w d (fun _ _ v => Same w v (if uns then imm.setWidth 64 else imm.signExtend 64))) ∧
  (∀ g d a b imm, Writes (.movh g d a b imm) false d (fun e u v =>
    loWord v = (e.src imm u b).extractLsb' 0 16 ++ (e.src imm u a).extractLsb' 0 16)) ∧
  (∀ g w uns d a b p, Writes (.sel g w uns d a b p) w d (fun e u v =>
    (holdsIn p u → Same w v (e.srcW 0 w uns u a)) ∧ (¬holdsIn p u → Same w v (e.srcW 0 w uns u b))))) ∧
  ((∀ g w uns c p a b, Sets (.icmp g w uns c p a b) p (fun e u => condRel c (e.int 0 w uns u a) (e.int 0 w uns u b))) ∧
  (∀ g w uns c d a b, Writes (.iset g w uns c d a b) w d (fun e u v =>
    (condRel c (e.int 0 w uns u a) (e.int 0 w uns u b) → Same w v 1) ∧
    (¬condRel c (e.int 0 w uns u a) (e.int 0 w uns u b) → Same w v 0))))) ∧
  ((∀ g d a b c imm, Writes (.bytep g d a b c imm) false d (fun e u v =>
    ∀ k < 4, wordByte (loWord v) k = bytepByte (e.src imm u a) (e.src imm u b) ((e.src imm u c).toNat / 16 ^ k % 16))) ∧
  (∀ g uns d a b c imm, Writes (.lea g uns d a b c imm) true d (fun e u v =>
    v = e.src64 imm uns u a + BitVec.ofInt 64 (e.scale imm uns u b * e.scale imm uns u c))))

/-- R132 and R134: the integer words compute an exact integer and write it clamped or modulo 2^w. -/
def Obligations.IntegerWordsWriteExactResults : Prop :=
  ∀ i op w uns sat d r, exactRow i = some (op, w, uns, sat, d, r) →
    opcodeOf i = op ∧ Writes i w d (fun e u v => HoldsInt w uns sat (r e u) v)

/-- R133: IADDC and ISUBB write the sum or difference modulo 2^w, and the carry or borrow predicate; every source is read first. The word names pI in bits [5:0]
and pO in bits [13:8]. -/
def Obligations.CarryWordsExtend : Prop :=
  ∀ g w d a b pI pO, ∀ s e,
    let x (u : Thread) : Int := e.int 0 w true u a
    let y (u : Thread) : Int := e.int 0 w true u b
    let k (u : Thread) : Int := if u.preds.getLsbD pI.val then 1 else 0
    (Issues s e (.iaddc g w d a b pI pO) → ∃ t v, exec (.iaddc g w d a b pI pO) s = .next t ∧ Results t e g w d v ∧
      ∀ u ∈ e.actors g, HoldsInt w true false (x u + y u + k u) (v u) ∧
        PredIs t u.ref pO (decide (2 ^ widthOf w ≤ x u + y u + k u))) ∧
    (Issues s e (.isubb g w d a b pI pO) → ∃ t v, exec (.isubb g w d a b pI pO) s = .next t ∧ Results t e g w d v ∧
      ∀ u ∈ e.actors g, HoldsInt w true false (x u - y u - k u) (v u) ∧
        PredIs t u.ref pO (decide (x u - y u - k u < 0))) ∧
    (∀ (word : Nat) (sub : Bool), encode (if sub then .isubb g w d a b pI pO else .iaddc g w d a b pI pO) = some word →
      word % 2 ^ 6 = pI ∧ word / 2 ^ 6 % 4 = 0 ∧ word / 2 ^ 8 % 2 ^ 6 = pO ∧ word / 2 ^ 14 % 2 ^ 18 = 0)

/-- R136 to R139: the logical words, the shifts and the bit fields write their result bit by bit; the counts count. -/
def Obligations.BitsCountsAndFields : Prop :=
  (∀ i op w d r, (logicRow i = some (op, w, d, r) ∨ shiftRow i = some (op, w, d, r)) →
    opcodeOf i = op ∧ Writes i w d (fun e u v => ∀ k < widthOf w, v.getLsbD k = r e u k)) ∧
  ((∀ i op d r, countRow i = some (op, d, r) → opcodeOf i = op ∧ Writes i false d (fun e u v => ∃ n, r e u n ∧ loWord v = BitVec.ofNat 32 n)) ∧
  (∀ i op w d r, fieldRow i = some (op, w, d, r) → opcodeOf i = op ∧ Writes i w d (fun e u v => ∀ k < widthOf w, v.getLsbD k = r e u k)))

/-- R142 and R143: the predicate words, PSET and PGET; predicates at or above the `.preds` count are left and read as 0. -/
def Obligations.PredicateWords : Prop :=
  (∀ i op d r, predRow i = some (op, d, r) → opcodeOf i = op ∧ Sets i d (fun _ u => r u)) ∧
  (∀ g hi a b imm s e, Issues s e (.pset g hi a b imm) → ∃ t, exec (.pset g hi a b imm) s = .next t ∧
    ∀ u ∈ e.actors g, ∀ k < 32, PredIs t u.ref (k + if hi then 32 else 0)
      (if decide (k + (if hi then 32 else 0) < e.launch.kernel.preds) && (e.src imm u b).getLsbD k then (e.src imm u a).getLsbD k
       else u.preds.getLsbD (k + if hi then 32 else 0))) ∧
  (∀ g hi d, Writes (.pget g hi d) false d (fun e u v =>
    ∀ k < 32, v.getLsbD k = (decide (k + (if hi then 32 else 0) < e.launch.kernel.preds) && u.preds.getLsbD (k + if hi then 32 else 0))))


/-! ## Floating point, lanes and residues -/

/-- R149, R87, R88: each sub-element of an arithmetic word is its value, rounded once under its neighbours' hash; %fflags gains the flags of the
operation and of every rounding. The value is the exact one of O8 but for FEXP2, FLOG2, FSIN, FCOS and FTANH, whose values before rounding are the
model's own evaluation, with bounds that decide their first bits (log 16, UNVERIFIED). -/
def Obligations.FloatWordsRoundOnce : Prop :=
  ∀ i op m d y, floatRow i = some (op, m, d, y) → opcodeOf i = op ∧ ∀ s e, Issues s e i →
    ∃ t v, exec i s = .next t ∧ Results t e (guardOfInstr i) false d v ∧ ∀ u ∈ e.actors (guardOfInstr i),
      let n := fmtElems m.fmt
      (∀ k < n, subElem m.fmt (loWord (v u)) k = (roundedElem m n (y e u) k).1) ∧
      Gains s t u.ref (allFlags n (fun k => (y e u k).fl.union (roundedElem m n (y e u) k).2))

/-- R149, R81, R150: the sums, products and scalings of finite values are exact, with the sign of a zero sum by R149, and a quotient or a root keeps at
least 60 bits of its magnitude and says whether more follow. NaN gives NaN; infinities and zeros give the special results of R150 and raise NV
where an operation is invalid and DZ where a finite number is divided by zero or a logarithm taken of it. FEXP2 of a whole number is exactly its power
of two, FLOG2 of a power of two exactly its exponent, and FSIN and FCOS of a multiple of one half exactly 0, 1 or -1; every other finite value of
FEXP2, FLOG2, FSIN, FCOS and FTANH is the model's own evaluation (log 16, UNVERIFIED), of which nothing is said here. -/
def Obligations.FloatValuesAreExact : Prop :=
  ((∀ rm x y, x.exact → y.exact → (fSum rm x y).v.exact ∧ (fSum rm x y).v.rat = x.rat + y.rat ∧ (fSum rm x y).fl = .none ∧
    (x.rat + y.rat = 0 → (fSum rm x y).v.minus = if x.rat = 0 ∧ y.rat = 0 ∧ x.minus = y.minus then x.minus else rm == .rdn)) ∧
  (∀ x y, x.exact → y.exact → (fProd x y).v.exact ∧ (fProd x y).v.rat = x.rat * y.rat ∧ (fProd x y).v.minus = (x.minus != y.minus) ∧
    (fProd x y).fl = .none) ∧
  (∀ rm x y z, fFma rm x y z = if (fProd x y).fl.nv = true then fProd x y else fSum rm (fProd x y).v z) ∧
  (∀ x n, x.exact → (fScaled x n).v.exact ∧ (fScaled x n).v.rat = x.rat * (2 : ℚ) ^ n ∧ (fScaled x n).v.minus = x.minus ∧ (fScaled x n).fl = .none) ∧
  (∀ x y, x.exact → y.exact → y.rat ≠ 0 → (fQuot x y).fl = .none ∧ ∃ m e sticky, (fQuot x y).v = .num (x.minus != y.minus) m e sticky ∧
    (x.rat ≠ 0 → 2 ^ 60 ≤ m) ∧ (m : ℚ) * 2 ^ e ≤ |x.rat / y.rat| ∧ |x.rat / y.rat| < (m + 1 : ℚ) * 2 ^ e ∧
    (sticky = true ↔ (m : ℚ) * 2 ^ e ≠ |x.rat / y.rat|)) ∧
  (∀ x, x.exact → 0 < x.rat → (fRoot x).fl = .none ∧ ∃ m e sticky, (fRoot x).v = .num false m e sticky ∧ 2 ^ 60 ≤ m ∧
    ((m : ℚ) * 2 ^ e) ^ 2 ≤ x.rat ∧ x.rat < ((m + 1 : ℚ) * 2 ^ e) ^ 2 ∧ (sticky = true ↔ ((m : ℚ) * 2 ^ e) ^ 2 ≠ x.rat)) ∧
  (∀ x, x.exact → 0 < x.rat → (fRsqrt x).fl = .none ∧ ∃ m e sticky, (fRsqrt x).v = .num false m e sticky ∧ 2 ^ 60 ≤ m ∧
    ((m : ℚ) * 2 ^ e) ^ 2 * x.rat ≤ 1 ∧ 1 < ((m + 1 : ℚ) * 2 ^ e) ^ 2 * x.rat ∧ (sticky = true ↔ ((m : ℚ) * 2 ^ e) ^ 2 * x.rat ≠ 1))) ∧
  -- NaN
  ((∀ rm x n, fSum rm .nan x = ⟨.nan, .none⟩ ∧ fSum rm x .nan = ⟨.nan, .none⟩ ∧ fProd .nan x = ⟨.nan, .none⟩ ∧ fProd x .nan = ⟨.nan, .none⟩ ∧
    fQuot .nan x = ⟨.nan, .none⟩ ∧ fQuot x .nan = ⟨.nan, .none⟩ ∧ fScaled .nan n = ⟨.nan, .none⟩) ∧
  (∀ op ∈ [fRoot, fRsqrt, fExp2, fLog2, fSin, fCos, fTanh], op .nan = ⟨.nan, .none⟩)) ∧
  -- sums, products and quotients of infinities and zeros
  ((∀ rm a x, x.exact → fSum rm (.inf a) x = ⟨.inf a, .none⟩ ∧ fSum rm x (.inf a) = ⟨.inf a, .none⟩ ∧
    (x.rat = 0 → fProd (.inf a) x = ⟨.nan, { nv := true }⟩ ∧ fProd x (.inf a) = ⟨.nan, { nv := true }⟩) ∧
    (x.rat ≠ 0 → fProd (.inf a) x = ⟨.inf (a != x.minus), .none⟩ ∧ fProd x (.inf a) = ⟨.inf (a != x.minus), .none⟩) ∧
    fQuot (.inf a) x = ⟨.inf (a != x.minus), .none⟩ ∧ (fQuot x (.inf a)).isZero (a != x.minus)) ∧
  (∀ rm a b, fSum rm (.inf a) (.inf b) = (if a = b then ⟨.inf a, .none⟩ else ⟨.nan, { nv := true }⟩) ∧
    fProd (.inf a) (.inf b) = ⟨.inf (a != b), .none⟩ ∧ fQuot (.inf a) (.inf b) = ⟨.nan, { nv := true }⟩) ∧
  (∀ x y, x.exact → y.exact → y.rat = 0 →
    fQuot x y = if x.rat = 0 then ⟨.nan, { nv := true }⟩ else ⟨.inf (x.minus != y.minus), { dz := true }⟩)) ∧
  -- one operand
  ((∀ x, x.exact → (x.rat = 0 → (fRoot x).isZero x.minus ∧ fRsqrt x = ⟨.inf x.minus, { dz := true }⟩ ∧ fLog2 x = ⟨.inf true, { dz := true }⟩ ∧
      (fTanh x).isZero x.minus) ∧
    (x.rat < 0 → fRoot x = ⟨.nan, { nv := true }⟩ ∧ fRsqrt x = ⟨.nan, { nv := true }⟩ ∧ fLog2 x = ⟨.nan, { nv := true }⟩) ∧
    (x.rat = 1 → (fLog2 x).isZero false) ∧
    ∀ n : ℤ, let is (r : FRes) (q : ℚ) : Prop := r.v.exact ∧ r.v.rat = q ∧ r.fl = .none
      (x.rat = n → (fSin x).isZero x.minus ∧ is (fCos x) ((-1) ^ n) ∧ (|n| < 2 ^ 14 → is (fExp2 x) (2 ^ n))) ∧
      (x.rat = n + 1 / 2 → (fCos x).isZero false ∧ is (fSin x) ((-1) ^ n)) ∧ (x.rat = 2 ^ n → is (fLog2 x) n)) ∧
  (∀ a n, fRoot (.inf a) = (if a then ⟨.nan, { nv := true }⟩ else ⟨.inf false, .none⟩) ∧
    (if a = true then fRsqrt (.inf a) = ⟨.nan, { nv := true }⟩ else (fRsqrt (.inf a)).isZero false) ∧
    (if a = true then (fExp2 (.inf a)).isZero false else fExp2 (.inf a) = ⟨.inf false, .none⟩) ∧
    fLog2 (.inf a) = (if a then ⟨.nan, { nv := true }⟩ else ⟨.inf false, .none⟩) ∧
    fSin (.inf a) = ⟨.nan, .none⟩ ∧ fCos (.inf a) = ⟨.nan, .none⟩ ∧
    ((fTanh (.inf a)).v.exact ∧ (fTanh (.inf a)).v.rat = (if a then -1 else 1) ∧ (fTanh (.inf a)).fl = .none) ∧ fScaled (.inf a) n = ⟨.inf a, .none⟩))

/-- R39, R80, R83, R87, R88: rounding a value that a format holds gives its own code without a flag; the directed modes enclose the exact value, every mode
gives one of the two, and NX says that it is not exact; the nearest modes give the closer, of a tie the even one or the one further from zero; RTZ
gives the one nearer to zero; SR goes away from zero where the discarded bits and the hash carry. NaN gives the default NaN, and an infinity itself or in
E4M3 an overflow; a value whose rounded magnitude lies beyond the largest finite one overflows with OF and NX, to the largest finite value, the default
NaN or an infinity, and any other raises no OF. A tiny result that is inexact raises UF; under `.ftz` it becomes a zero of its sign with UF and NX, and
any other is as without it. -/
def Obligations.RoundingIsCorrect : Prop :=
  (∀ fmt rm sat h x, h < 2 ^ 32 → x < 2 ^ (elemFmt fmt).width → fvalue (elemFmt fmt) x ≠ .nan →
    roundTo (elemFmt fmt) rm false sat h (fvalue (elemFmt fmt) x) = (x, .none)) ∧
  (∀ fmt sat h v, h < 2 ^ 32 → v.exact →
    let f := elemFmt fmt
    let r (rm : RM) := roundTo f rm false sat h v
    let val (rm : RM) : ℚ := (fvalue f (r rm).1).rat
    let near (rm : RM) : Prop := |val rm - v.rat| ≤ |val .rdn - v.rat| ∧ |val rm - v.rat| ≤ |val .rup - v.rat|
    let away : RM := if v.rat < 0 then .rdn else .rup
    let toward : RM := if v.rat < 0 then .rup else .rdn
    (r .rdn).2.of = false → (r .rup).2.of = false → val .rdn ≤ v.rat ∧ v.rat ≤ val .rup ∧ near .rne ∧ near .rna ∧
      (∀ rm, ((r rm).1 = (r .rdn).1 ∨ (r rm).1 = (r .rup).1) ∧ ((r rm).2.nx = true ↔ val rm ≠ v.rat)) ∧
      (val .rdn ≠ val .rup → v.rat - val .rdn = val .rup - v.rat → (r .rne).1 % 2 = 0 ∧ (r .rna).1 = (r away).1) ∧
      (r .rtz).1 = (r toward).1 ∧
      (r .sr).1 = if 2 ^ 24 ≤ discarded f v + h / 2 ^ 8 then (r away).1 else (r toward).1) ∧
  (∀ fmt rm sat h neg m e,
    let f := elemFmt fmt
    let v : FVal := .num neg m e false
    let least : ℚ := (2 : ℚ) ^ f.emin
    let r := roundTo f rm false sat h v
    let tiny : Prop := roundTo f rm true sat h v = (if neg then 2 ^ (f.width - 1) else 0, { uf := true, nx := true }) ∧ r.2.uf = r.2.nx
    let kept : Prop := roundTo f rm true sat h v = r ∧ r.2.uf = false
    (least ≤ |v.rat| → kept) ∧
    (v.rat ≠ 0 → |v.rat| ≤ least * (1 - 1 / 2 ^ (f.fb + 1)) → tiny) ∧
    (v.rat ≠ 0 → |v.rat| < least → (rm = .rtz ∨ (rm = .rne ∨ rm = .rna) ∧ |v.rat| < least * (1 - 1 / 2 ^ (f.fb + 2))) → tiny) ∧
    ((rm = .rne ∨ rm = .rna) → least * (1 - 1 / 2 ^ (f.fb + 2)) ≤ |v.rat| → kept)) ∧
  (∀ fmt rm ftz sat h,
    let f := elemFmt fmt
    roundTo f rm ftz sat h .nan = (f.nanCode, .none) ∧
    (∀ neg, roundTo f rm ftz sat h (.inf neg) = if fmt = .e4m3x4 then (overflowCode f rm sat neg, { of := true, nx := true })
      else (f.infCode + (if neg then 2 ^ (f.width - 1) else 0), .none)) ∧
    ∀ v, h < 2 ^ 32 → v.exact →
      (Overflows f rm h v → roundTo f rm ftz sat h v = (overflowCode f rm sat (decide (v.rat < 0)), { of := true, nx := true })) ∧
      (¬Overflows f rm h v → (roundTo f rm ftz sat h v).2.of = false ∧ ((fvalue f f.maxCode).rat ≤ |v.rat| → roundTo f rm ftz sat h v =
        (f.maxCode + (if v.rat < 0 then 2 ^ (f.width - 1) else 0), { nx := decide (|v.rat| ≠ (fvalue f f.maxCode).rat) })))) ∧
  ([fp32, fp16, bf16, e4m3, e5m2].map (fun f => (f.maxCode, f.nanCode)) =
    [(0x7F7FFFFF, 0x7FC00000), (0x7BFF, 0x7E00), (0x7F7F, 0x7FC0), (0x7E, 0x7F), (0x7B, 0x7E)]) ∧
  ([fp32, fp16, bf16, e5m2].map (fun f => f.infCode) = [0x7F800000, 0x7C00, 0x7F80, 0x7C])

/-- R151 to R153: FMIN and FMAX write, per sub-element, the operand that no other is below or above, −0 below +0, and the number beside a NaN;
FCMP sets its predicate when the condition holds of every sub-element and writes a mask of them; FCLASS writes a mask of the sub-elements
whose class its mask names. -/
def Obligations.FloatExtremesAndCompares : Prop :=
  (∀ g fmt ftz d a b (larger : Bool),
    Writes (if larger then .fmax g fmt ftz d a b else .fmin g fmt ftz d a b) false d (fun e u v => ∀ k < fmtElems fmt,
      Extreme (elemFmt fmt) larger (e.felem fmt ftz u a k) (e.felem fmt ftz u b k) (subElem fmt (loWord v) k))) ∧
  ((∀ g fmt ftz c p d a b s e, Issues s e (.fcmp g fmt ftz c p d a b) → ∃ t v, exec (.fcmp g fmt ftz c p d a b) s = .next t ∧
    Results t e g false d v ∧ ∀ u ∈ e.actors g,
      let holds (k : Nat) : Prop :=
        fcondTruth c (fvalue (elemFmt fmt) (e.felem fmt ftz u a k)) (fvalue (elemFmt fmt) (e.felem fmt ftz u b k))
      (∃ x, PredIs t u.ref p x ∧ (x = true ↔ ∀ k < fmtElems fmt, holds k)) ∧
      ∀ k < fmtElems fmt, (holds k → subElem fmt (loWord (v u)) k = 2 ^ (elemFmt fmt).width - 1) ∧
        (¬holds k → subElem fmt (loWord (v u)) k = 0)) ∧
  (∀ g fmt ftz mask d a, Writes (.fclass g fmt ftz mask d a) false d (fun e u v => ∀ k < fmtElems fmt,
    subElem fmt (loWord v) k = if mask.getLsbD (classOf (elemFmt fmt) (e.felem fmt ftz u a k)) then 2 ^ (elemFmt fmt).width - 1 else 0)))

/-- R154: FRND writes each sub-element rounded to an integral value of its format, with its sign; NX says that one has changed. -/
def Obligations.RoundToIntegralWords : Prop :=
  ∀ g fmt rm ftz d a s e, rm ≠ .sr → Issues s e (.frnd g fmt rm ftz d a) → ∃ t v, exec (.frnd g fmt rm ftz d a) s = .next t ∧
    Results t e g false d v ∧ ∀ u ∈ e.actors g,
      let f := elemFmt fmt
      let x (k : Nat) := e.felem fmt ftz u a k
      (∀ k < fmtElems fmt, let r := subElem fmt (loWord (v u)) k
        (fvalue f (x k) = .nan → r = f.nanCode) ∧ (∀ neg, fvalue f (x k) = .inf neg → r = x k) ∧
        ((fvalue f (x k)).exact → (fvalue f r).exact ∧ (fvalue f r).rat = roundInt rm (fvalue f (x k)).rat ∧
          (r < 2 ^ (f.width - 1) ↔ x k < 2 ^ (f.width - 1)))) ∧
      Gains s t u.ref (allFlags (fmtElems fmt) (fun k =>
        { nx := decide ((fvalue f (x k)).rat ≠ (fvalue f (subElem fmt (loWord (v u)) k)).rat) }))

/-- R155 to R159, R84: a conversion to floats rounds the exact value of each element once, and FCVTI rounds each element to an integer held in the
range of its kind; both pack their elements from the destination register up. That FCVTI rounds before it compares with the range is the
model's reading (log 15), and so is the exact .f32 result of KDEC under `.ftz` (log 62). -/
def Obligations.Conversions : Prop :=
  (∀ i op n m d y, convRow i = some (op, n, m, d, y) → opcodeOf i = op ∧ ∀ s e, Issues s e i →
    ∃ (t : State) (v : Thread → Nat → Word) (w : Thread → Nat → FVal), exec i s = .next t ∧
      ResultRange t e (guardOfInstr i) d (n / fmtElems m.fmt) v ∧ ∀ u ∈ e.actors (guardOfInstr i),
      let per := fmtElems m.fmt
      (∀ j < n, y e u j (w u j)) ∧
      (∀ r < n / per, ∀ k < per, subElem m.fmt (v u r) k = (roundedElem m per (fun j => .pure (w u (r * per + j))) k).1) ∧
      Gains s t u.ref (allFlags n (fun j => (roundedElem m per (fun k => .pure (w u (j / per * per + k))) (j % per)).2))) ∧
  (∀ g kind uns sfmt rm ftz d a s e, rm ≠ .sr → Issues s e (.fcvti g kind uns sfmt rm ftz d a) →
    ∃ t v, exec (.fcvti g kind uns sfmt rm ftz d a) s = .next t ∧
      let n := max (fmtElems sfmt) (kindElems kind)
      let regs := n / kindElems kind * kindRegs kind
      let w := kindWidth kind
      ResultRange t e g d regs v ∧ ∀ u ∈ e.actors g, ∃ (x : Nat → Int) (fl : Nat → FlagSet),
        (∀ j < n, IntegerOf w uns rm (e.convFloat sfmt ftz u a j) (x j) (fl j) ∧
          (rangeBits (v u) regs (w * j) w : Int) = x j % 2 ^ w) ∧
        Gains s t u.ref (allFlags n fl))

/-- R162, R163, R165: XSHF, XBCAST and XSLIDE give each active thread the value of another lane of its fragment, or the fill; XVOTE writes one truth
to every active thread, XBALLOT the mask of the lanes whose predicate holds, XPFX how many lie below. -/
def Obligations.LaneExchangesAndVotes : Prop :=
  ((∀ g mode rel d a b c, Writes (.xshf g mode rel d a b c) false d (fun e u v =>
    loWord v = match e.laneThread g (e.shuffle mode rel u b) with | some x => e.src 0 x a | none => e.src 0 u c)) ∧
  (∀ g sel d a b c, Writes (.xbcast g sel d a b c) false d (fun e u v =>
    loWord v = match (e.broadcast g sel b).bind (e.laneThread g) with | some x => e.src 0 x a | none => e.src 0 u c)) ∧
  (∀ g up d a b c, Writes (.xslide g up d a b c) false d (fun e u v =>
    loWord v = e.slideEntry g up a b (if up then u.lane - (e.src 0 u c).toNat else u.lane + (e.src 0 u c).toNat)))) ∧
  ((∀ g mode d p, Sets (.xvote g mode d p) d (fun e _ =>
    match mode with
    | .any => ∃ x ∈ e.active g, holdsIn p x
    | .all => ∀ x ∈ e.active g, holdsIn p x
    | .eq => ∀ x ∈ e.active g, ∀ y ∈ e.active g, (holdsIn p x ↔ holdsIn p y))) ∧
  (∀ g d p s e, Issues s e (.xballot g d p) → ∃ t v, exec (.xballot g d p) s = .next t ∧ ResultRange t e g d 4 (fun _ => v) ∧
    ∀ i < 4, ∀ k < 32, ((v i).getLsbD k = true ↔ ∃ x ∈ e.active g, x.lane = 32 * i + k ∧ holdsIn p x)) ∧
  (∀ g incl d p, Writes (.xpfx g incl d p) false d (fun e u v => ∀ q : Thread → Bool,
    (∀ x, q x = true ↔ holdsIn p x ∧ (x.lane < u.lane ∨ (incl = true ∧ x.lane = u.lane))) →
      loWord v = BitVec.ofNat 32 ((e.active g).countP q))))

/-- R164, R93, R94: XRED combines the lanes present by halving the pool, or in ascending order under `.seq`, and XSCAN in ascending order up to
its own lane; the identity stands where no lane is present, and no step touches it. A step is one FADD, FMUL, FMIN or FMAX, or one integer operation
modulo 2^w, and every active thread gains the flags of every step. -/
def Obligations.LaneReductions : Prop :=
  (∀ g r d a s e n, Issues s e (.xred g r d a) → (r.alt = false → e.pool.grant = 2 ^ n) →
    ∃ t v fl, exec (.xred g r d a) s = .next t ∧ Results t e g (redWide r) d (fun _ => v) ∧
      let col (i j : Nat) : Option Nat := (e.redVal g r a j).map (redPart r · i)
      let present (i : Nat) : List Nat := (List.range e.pool.grant).filterMap (col i)
      (∀ i < redElems r.ty, redPart r v.toNat i = (if r.alt then foldAscending r (present i) else foldHalves r n (col i)).getD (redIdentity r)) ∧
      (∀ u ∈ e.actors g, Gains s t u.ref fl) ∧
      ∀ b < 5, (fl.getLsbD b = true ↔ ∃ i < redElems r.ty, if r.alt then ascendRaises r b (present i) else foldRaises r b n (col i))) ∧
  (∀ g r d a s e, Issues s e (.xscan g r d a) → ∃ t v fl, exec (.xscan g r d a) s = .next t ∧ Results t e g (redWide r) d v ∧
      let below (u : Thread) (i : Nat) : List Nat := (List.range (if r.alt then u.lane else u.lane + 1)).filterMap
        (fun j => (e.redVal g r a j).map (redPart r · i))
      (∀ u ∈ e.actors g, (∀ i < redElems r.ty, redPart r (v u).toNat i = (foldAscending r (below u i)).getD (redIdentity r)) ∧
        Gains s t u.ref fl) ∧
      ∀ b < 5, (fl.getLsbD b = true ↔ ∃ u ∈ e.active g, ∃ i < redElems r.ty, ascendRaises r b (below u i))) ∧
  (∀ (r : RMod) x y, redJoin r none y = (y, .none) ∧ redJoin r x none = (x, .none) ∧
    ∀ p q, redJoin r (some p) (some q) = (some (redStep r p q).1, (redStep r p q).2)) ∧
  (∀ (r : RMod) fmt x y, r.ty = .flt fmt →
    let f := elemFmt fmt
    let val (z : Nat) : FVal := fvalue f (redSource r f z)
    let once (z : FRes) : Nat × FlagSet :=
      let q := roundTo f r.rm r.ftz (satOf fmt r.flip) 0 z.v
      (q.1, z.fl.union q.2)
    (r.op = .add → redStep r x y = once (fSum r.rm (val x) (val y))) ∧ (r.op = .mul → redStep r x y = once (fProd (val x) (val y))) ∧
    (r.op = .min ∨ r.op = .max → (redStep r x y).2 = .none ∧ (x < 2 ^ f.width → y < 2 ^ f.width →
      Extreme f (r.op == .max) (redSource r f x) (redSource r f y) (redStep r x y).1)) ∧
    (r.op = .add → (fvalue f (redIdentity r)).zeroOf true) ∧
    (r.op = .mul → (fvalue f (redIdentity r)).exact ∧ (fvalue f (redIdentity r)).rat = 1) ∧
    (∀ neg : Bool, r.op = (if neg then .max else .min) → if fmt = .e4m3x4 then redIdentity r = (if neg then 0xFE else 0x7E)
      else fvalue f (redIdentity r) = .inf neg)) ∧
  (∀ (r : RMod) x y, (r.ty = .i32 ∨ r.ty = .i64) →
    let n := if r.ty = .i64 then 64 else 32
    x < 2 ^ n → y < 2 ^ n →
    let z := (redStep r x y).1
    let num := signedBits n r.uns
    (redStep r x y).2 = .none ∧ (r.op = .add → z = (x + y) % 2 ^ n ∧ redIdentity r = 0) ∧ (r.op = .mul → z = x * y % 2 ^ n ∧ redIdentity r = 1) ∧
    (r.op = .min → (z = x ∨ z = y) ∧ num z ≤ num x ∧ num z ≤ num y ∧ redIdentity r = if r.uns then 2 ^ n - 1 else 2 ^ (n - 1) - 1) ∧
    (r.op = .max → (z = x ∨ z = y) ∧ num x ≤ num z ∧ num y ≤ num z ∧ redIdentity r = if r.uns then 0 else 2 ^ (n - 1)) ∧
    (r.op = .and → (∀ i, z.testBit i = (x.testBit i && y.testBit i)) ∧ redIdentity r = 2 ^ n - 1) ∧
    (r.op = .or → (∀ i, z.testBit i = (x.testBit i || y.testBit i)) ∧ redIdentity r = 0) ∧
    (r.op = .xor → (∀ i, z.testBit i = xor (x.testBit i) (y.testBit i)) ∧ redIdentity r = 0))

/-- R166 and R167: XCMPR packs the selected lanes, XEXPD spreads them out again, and XTBL looks bytes up in the thread's own registers. -/
def Obligations.CompressExpandAndTable : Prop :=
  (∀ g d a c p, Writes (.xcmpr g d a c p) false d (fun e u v => ∀ q : Thread → Bool, (∀ x, q x = true ↔ holdsIn p x) →
    (∀ x, ((e.active g).filter q)[u.lane]? = some x →
      ∃ y, (e.active g).find? (fun z => z.lane == x.lane) = some y ∧ loWord v = e.src 0 y a) ∧
    (((e.active g).filter q).length ≤ u.lane → loWord v = e.src 0 u c))) ∧
  (∀ g d a c p, Writes (.xexpd g d a c p) false d (fun e u v => ∀ q : Thread → Bool, (∀ x, q x = true ↔ holdsIn p x) →
    let sel := ((e.active g).filter q).map Thread.lane
    (u.lane ∉ sel → loWord v = e.src 0 u c) ∧
    (u.lane ∈ sel → loWord v = match (e.active g).find? (fun z => z.lane == sel.idxOf u.lane) with
      | some y => e.src 0 y a | none => e.src 0 u c))) ∧
  (∀ g len fill d a b, Writes (.xtbl g len fill d a b) false d (fun e u v => ∀ i < 4,
    let k := wordByte (e.src 0 u b) i
    wordByte (loWord v) i = if k < 4 * (len.val + 1) then wordByte (e.srcAt u a (k / 4)) (k % 4) else fill.toNat))

/-- R170, R172 to R174, R176, R177: QSET writes the modulus and its Barrett constant to the slot of each writer when every modulus is valid, and traps else;
QGET reads a slot; the modular words and the butterflies write the residues of their exact integers at the slot's width, and trap before any effect where
an active thread's slot is unset, where the slots disagree in their width, and at width 64 in a pair. -/
def Obligations.SlotsAndResidues : Prop :=
  ((∀ g (k : Fin 8) wide tag a s e u, Issues s e (.qset g k wide tag a) →
    let q (x : Thread) : Nat := if wide then (e.src64 0 true x a).toNat else (e.src 0 x a).toNat
    (e.active g).find? (fun x => decide ¬(q x % 2 = 1 ∧ 3 ≤ q x ∧ q x < if wide then 2 ^ 62 else 2 ^ 31)) = some u →
      Traps (.qset g k wide tag a) s e ⟨0x0F, q u, none, u.lane⟩) ∧
  (∀ s e i k u us, slotOf i = some k → i.isEvent = false → s.cur.bind (envOf s) = some e → ready s e i = true →
    staticCheck e.launch.kernel i = none → e.active (guardOfInstr i) = u :: us →
    (∀ x, (u :: us).find? (fun y => (e.slot k y).q == 0) = some x → Traps i s e ⟨0x10, k, none, x.lane⟩) ∧
    ((∀ y ∈ u :: us, (e.slot k y).q ≠ 0) →
      (∀ x, us.find? (fun y => (e.slot k y).wide != (e.slot k u).wide) = some x → Traps i s e ⟨0x11, k, none, x.lane⟩) ∧
      ((∀ y ∈ u :: us, (e.slot k y).wide = true) → e.iss.part ≠ .single → Traps i s e ⟨0x11, k + 8, none, lowLane (u :: us)⟩)))) ∧
  ((∀ g (k : Fin 8) wide tag a s e, Issues s e (.qset g k wide tag a) →
    let q (u : Thread) : Nat := if wide then (e.src64 0 true u a).toNat else (e.src 0 u a).toNat
    (∀ u ∈ e.active g, q u % 2 = 1 ∧ 3 ≤ q u ∧ q u < if wide then 2 ^ 62 else 2 ^ 31) →
    ∃ t, exec (.qset g k wide tag a) s = .next t ∧ ∀ u ∈ e.actors g, ∀ x ∈ t.threads, x.ref = u.ref → x.inPool e.pool.id = true →
      let c := resolveSlot (pool t e.pool.id) e.pond x k .res
      c.q.toNat = q u ∧ c.wide = wide ∧ (∀ L, 2 ^ (L - 1) ≤ q u → q u < 2 ^ L → c.mu.toNat = 2 ^ (2 * L) / q u)) ∧
  (∀ g k sel d, Writes (.qget g k sel d) (sel != .wid) d (fun e u v =>
    match sel with
    | .mod => v.toNat = (e.slot k u).q.toNat
    | .mu => v = (e.slot k u).mu
    | .wid => loWord v = if (e.slot k u).q = 0 then 0 else if (e.slot k u).wide then 64 else 32))) ∧
  (∀ i op k d f, modRowOf i = some (op, k, d, f) → opcodeOf i = op ∧ ∀ s e, Issues s e i →
    let w := e.modWide (guardOfInstr i) k
    let per := if w then 2 else 1
    ∃ t v, exec i s = .next t ∧ ResultRange t e (guardOfInstr i) d (per * f.length) v ∧ ∀ u ∈ e.actors (guardOfInstr i),
      ∀ n r, f[n]? = some r → (rangeBits (v u) (per * f.length) (32 * per * n) (32 * per) : Int) = r e u % (e.slot k u).q.toNat % 2 ^ (32 * per))


/-! ## Words and steps -/

/-- R97, R108 to R110, R115: every well-formed operation has a portable word of 128 bits, and the decoder reads exactly that operation from it. -/
def Obligations.EncodeThenDecode : Prop :=
  ∀ i : Instr, i.wf = true → i.isEvent = false →
    ∃ w, encode i = some w ∧ w < 2 ^ 104 ∧ decodeWord w = .ok (.one (schedOf 0) i) ∧ decodeTableWord 128 w = some i

/-- R97, R121: whatever word decodes to an operation is that operation's own encoding in its bits [103:0], and the operation is well-formed. -/
def Obligations.DecodeThenEncode : Prop :=
  ∀ w sch i, w < 2 ^ 128 → decodeWord w = .ok (.one sch i) → i.wf = true ∧ sch = schedOf w ∧ encode i = some (w % 2 ^ 104)

/-- R97: the words that the manual prints decode to the operations that it prints them for. -/
def Obligations.PrintedWordsDecode : Prop :=
  decodeTableWord 128 0x00000022000070060053FF1000000000 =
    some (.iadd .always ⟨false, false, false⟩ (.reg 7 .home) (.reg 6 .res false) (.reg 5 .res true) 0) ∧
  decodeTableWord 128 0x00000025403FF00C00D3FF3000000702 =
    some (.icmp .always false false .lt 7 (.reg 12 .res true) (.reg 13 .res true)) ∧
  decodeTableWord 128 0x00000060000080003FF3FF2300000000 =
    some (.fcvt .always ⟨.e4m3x4, .rne, false, false⟩ .f32 (.reg 8 .home) (.reg 0 .res true)) ∧
  decodeTableWord 128 0x00000084800170150163FF3300000009 =
    some (.xbfly .always 3 true 1 (.reg 23 .home) (.reg 21 .res true) (.reg 22 .res true)) ∧
  decodeTableWord 128 0x000000A0000060043FF3FF2000000000 =
    some (.ld .always ⟨.b32, 0, false, .ca, .wk, .sy⟩ false (.reg 6 .home) (.reg 4 .res true)) ∧
  decodeTableWord 128 0x000000C08001E3FF0140161800000000 =
    some (.mma .always 0 0 (.reg 30 .home) .zero (.reg 20 .res true) (.reg 22 .res true)) ∧
  decodeTableWord 128 0x000000E0000283FF3FF3FF0000000010 = some (.srr .always .clock (.reg 40 .home))

/-- R97, R98, R120, R121: a word without S that has a scheduling bit set, a word with bit 104 or 105 set, and an operation, in a portable word or a
scheduled one, whose opcode no row assigns are refused under causes 0x06, 0x02 and 0x01; every refusal is one of the causes of check 1. -/
def Obligations.IllegalWordsAreRefused : Prop :=
  (∀ w il, decodeWord w = .error il → 1 ≤ il.cause ∧ il.cause ≤ 7) ∧
  (∀ w, w.testBit 127 = false → w / 2 ^ 104 % 2 ^ 22 ≠ 0 → decodeWord w = .error ⟨0x06, 0, false⟩) ∧
  (∀ w, w.testBit 127 = true → w / 2 ^ 104 % 4 ≠ 0 → decodeWord w = .error ⟨0x02, 1, false⟩) ∧
  (∀ w, w < 2 ^ 128 → w / 2 ^ 104 % 4 = 0 → w.testBit 126 = false → (w.testBit 127 = true ∨ w / 2 ^ 104 % 2 ^ 22 = 0) →
    (∀ i : Instr, i.isEvent = false → opcodeOf i ≠ w / 2 ^ 94 % 2 ^ 10) → decodeWord w = .error ⟨0x01, w / 2 ^ 94 % 2 ^ 10, false⟩)

/-- R113: the two operations of a legal pair write different registers, Y reads no register that X writes, their register sources share no
bank, not both are transcendental or MMULQ, and both are operations that have a short opcode; that one of them writes a register is the
model's reading of its item 1 (log 10). -/
def Obligations.PairsAreLegal : Prop :=
  ∀ w sch x y, decodeWord w = .ok (.two sch x y) →
    let writes (i : Instr) : List Nat := ((opnds false i).filter Opnd.dst).flatMap Opnd.regs
    let reads (i : Instr) : List Nat := ((opnds false i).filter (fun o => !o.dst)).flatMap Opnd.regs
    let slow (i : Instr) : Prop := opcodeOf i ∈ [0x112, 0x113, 0x114, 0x115, 0x116, 0x117, 0x118, 0x20B]
    x.wf = true ∧ y.wf = true ∧ (writes x ≠ [] ∨ writes y ≠ []) ∧ (∀ n ∈ writes x, n ∉ writes y ∧ n ∉ reads y) ∧
      (∀ n ∈ reads x, ∀ m ∈ reads y, n % 4 ≠ m % 4) ∧ ¬(slow x ∧ slow y) ∧
      ∀ i ∈ [x, y], opcodeOf i ∈ [0x080, 0x088, 0x089, 0x08C, 0x090, 0x091, 0x094, 0x0A0, 0x0A1, 0x0A2, 0x0A3, 0x0A5, 0x0A6, 0x0A7, 0x0AA,
        0x100, 0x101, 0x102, 0x104, 0x105, 0x112, 0x113, 0x114, 0x115, 0x116, 0x117, 0x118, 0x208, 0x209, 0x20A, 0x20B]

/-- R97, R102, R111, R114: a step whose chosen move (the model's own choice, log 1) is the word of a fragment runs the operation that the fetched
bytes decode to, under the next word number, and then records the move; a pair runs X and then Y. -/
def Obligations.StepRunsTheDecodedWord : Prop :=
  ∀ s r rest e w s', choose s (moves s) = (some (.word r), rest) → envAt s r = some e → e.waiting = none → fetch s e = .ok (w, s') →
    let wid := s'.nextId
    let at_ (u : State) (part : Part) (sch : Sched) : State := { u with nextId := wid + 1, cur := some ⟨r, wid, part, sch⟩ }
    (∀ sch i t, decodeWord w = .ok (.one sch i) → exec i (at_ s' .single sch) = .next t → step s = .next (after s (.word r) rest t)) ∧
    (∀ sch x y t t', decodeWord w = .ok (.two sch x y) → e.frag.yOnly = false → pairCheck e.launch.kernel x y = none →
      exec x (at_ s' .pairX sch) = .next t → t.cur.isSome = true → exec y { t with cur := some ⟨r, wid, .pairY, sch⟩ } = .next t' →
        step s = .next (after s (.word r) rest t'))

/-- R97: the bytes of a word stored where the part fetches next are the word that the next step runs, for every operation and whatever state the
part was in (withFetchWord is the model's own, log 5). -/
def Obligations.PlacedWordRunsFirst : Prop :=
  ∀ (s : State) i w t, encode i = some w → i.wf = true → i.isEvent = false →
    let p := s.withFetchWord 128 w
    let c : Cached := ⟨0, 1, placedAt, w⟩
    exec i { p with icache := [c], nextId := p.nextId + 1, cur := some ⟨⟨0, 0⟩, p.nextId, .single, schedOf 0⟩ } = .next t →
      ∃ rest, step p = .next (after p (.word ⟨0, 0⟩) rest t) ∧ (t.settled → let t' := after p (.word ⟨0, 0⟩) rest t
        t'.threads = t.threads ∧ t'.pools = t.pools ∧ t'.ponds = t.ponds ∧ t'.frags = t.frags ∧ t'.mem = t.mem)

/-- Every step of the part leads to a state: neither a fault nor a refusal ends a run (one step is one enabled move, log 1). -/
def Obligations.EveryStepLeadsOn : Prop := ∀ s, Runs s

/-- Every step keeps memory in its canonical form, and the device's copies of host lines whole lines of host memory (R254 item 6); none leaves an operation
that is done with a spoiled operand register that is not taken into account (R221). -/
def Obligations.StepsKeepMemoryForm : Prop :=
  ∀ s t, step s = .next t → (s.memWf → t.memWf) ∧ (s.hostLinesOk → t.hostLinesOk) ∧ (s.settled → t.settled)

/-- R302, R309, R301 and the reset table: right after reset the host has not set GO, no feature has been negotiated, the operating point and the boot
status are 0, and no context, launch or thread exists; memory lists nothing, and an unlisted byte reads as zero by the model's own choice (log 3). -/
def Obligations.ResetState : Prop :=
  State.reset.memWf ∧ State.reset.hostLinesOk ∧ State.reset.settled ∧ State.reset.host.go = false ∧ State.reset.host.featdrv = 0 ∧ State.reset.host.winoff = 0 ∧ State.reset.host.pstate = 0 ∧
    State.reset.host.stage = 0 ∧ State.reset.host.mbxCtl = 0 ∧ State.reset.threads = [] ∧ State.reset.launches = [] ∧ State.reset.ctxs = [] ∧
    State.reset.accs = [] ∧ (∀ a, homeByte State.reset a = 0) ∧ Runs State.reset

/-! ## Layered registers and control flow -/

/-- R68: a read, a function of the state that changes nothing, takes the copy that its tag selects, each half of a pair by itself. -/
def Obligations.ReadsSelectByTag : Prop :=
  [STag.res, .sp, .pl, .pd].map STag.code = [0, 1, 2, 3] ∧ ∀ (pl : Option Pool) (d : Pond) (u : Thread) (n : Nat),
    let own := mapGet u.springs n
    let wide := pl.bind (fun p => mapGet p.copies n)
    (∀ tag, (tag = .res ∨ tag = .sp) → (∀ v, own = some v → resolve pl d u n tag = v) ∧
      (∀ v, own = none → wide = some v → resolve pl d u n tag = v) ∧ (own = none → wide = none → resolve pl d u n tag = d.copy n)) ∧
    (∀ v, wide = some v → resolve pl d u n .pl = v) ∧ (wide = none → resolve pl d u n .pl = d.copy n) ∧ resolve pl d u n .pd = d.copy n ∧
    ∀ (e : Env) imm uns (m : Fin 768) tag blk, e.src64 imm uns u (.reg m tag blk) =
      pairWord (resolve (some e.pool) e.pond u (m + 1) tag) (resolve (some e.pool) e.pond u m tag)

/-- R70: a layered write is a full pool write exactly when it is pool-rank, its writers are the live threads of their pool and their values
agree; otherwise it writes the spring copy of each writer and leaves the pool copy. -/
def Obligations.LayeredWriteIsFullOrSplit : Prop :=
  ∀ (s : State) (p n : Nat) (pl : Bool) (ws : List TRef) (val : TRef → Word),
    let t := lwrite s p n pl (ws.map (fun r => (r, val r)))
    let full := pl = true ∧ ws ≠ [] ∧ (∀ r, r ∈ ws ↔ ∃ u ∈ s.threads, u.inPool p = true ∧ u.ref = r) ∧ ∀ r ∈ ws, ∀ q ∈ ws, val r = val q
    (full → (∀ r ∈ ws, ∀ q ∈ t.pools, q.id = p → mapGet q.copies n = some (val r)) ∧
      List.Forall₂ (fun u u' => mapGet u'.springs n = if u.inPool p then none else mapGet u.springs n) s.threads t.threads) ∧
    (¬full → t.pools = s.pools ∧
      List.Forall₂ (fun u u' => mapGet u'.springs n = if u.ref ∈ ws then some (val u.ref) else mapGet u.springs n) s.threads t.threads)

/-- R72: when a pond collective sets a register, every thread of the pond then reads the new value under every tag, and a thread of another pond
reads what it read before. -/
def Obligations.PondCopyReachesEveryThread : Prop :=
  ∀ (s : State) (pd n : Nat) (v : Word) (d : Pond), pond s pd = some d →
    let t := setPondCopy s pd n v
    ∃ d', pond t pd = some d' ∧ d'.copy n = v ∧ (∀ m, m ≠ n → d'.copy m = d.copy m) ∧
      (∀ u ∈ t.threads, u.pond = pd → ∀ p ∈ t.pools, p.pond = pd → ∀ tag, resolve (some p) d' u n tag = v) ∧
      (∀ u ∈ s.threads, u.pond ≠ pd → u ∈ t.threads) ∧ (∀ p ∈ s.pools, p.pond ≠ pd → p ∈ t.pools)

/-- R74, R77: after LDROP each caller reads the copy of the named rank and every other thread, in whatever pool, reads what it read under every tag; LRANK writes the rank of the copy that an
untagged read returns; an untagged read of a register or a slot gives the same before and after a thread has left its pool at a re-slice point. -/
def Obligations.DropsRanksAndMaterialisation : Prop :=
  ((∀ g pd n tag blk s e, Issues s e (.ldrop g pd (.src (.reg n tag blk))) → ∃ t, exec (.ldrop g pd (.src (.reg n tag blk))) s = .next t ∧
    s.Keeps e [n.val] [] false (e.acting g) t ∧
    (∀ u ∈ e.actors g, Reads t e u.ref n (if pd then e.pond.copy n else (mapGet e.pool.copies n).getD (e.pond.copy n))) ∧
    (∀ u ∈ s.threads, Sole s u → u.ref ∉ e.acting g → ∃ x ∈ t.threads, x.ref = u.ref ∧ x.place = u.place ∧
      ∀ d m tag, resolve (u.pool.bind (pool t)) d x m tag = resolve (u.pool.bind (pool s)) d u m tag)) ∧
  (∀ g pd k s e, Issues s e (.ldrop g pd (.slot k)) → ∃ t, exec (.ldrop g pd (.slot k)) s = .next t ∧
    t.ponds = s.ponds ∧ (∀ u ∈ e.actors g, ∀ x ∈ t.threads, x.ref = u.ref → x.inPool e.pool.id = true →
      resolveSlot (pool t e.pool.id) e.pond x k .res = if pd then e.pond.slotCopy k else (mapGet e.pool.slots k).getD (e.pond.slotCopy k)) ∧
    (∀ u ∈ s.threads, Sole s u → u.ref ∉ e.acting g → ∃ x ∈ t.threads, x.ref = u.ref ∧ x.place = u.place ∧
      ∀ d m tag, resolveSlot (u.pool.bind (pool t)) d x m tag = resolveSlot (u.pool.bind (pool s)) d u m tag)) ∧
  (∀ g d n tag blk, Writes (.lrank g d (.src (.reg n tag blk))) false d (fun e u v =>
    loWord v = if (mapGet u.springs n).isSome then 0 else if (mapGet e.pool.copies n).isSome then 1 else 2)) ∧
  (∀ g d k, Writes (.lrank g d (.slot k)) false d (fun e u v =>
    loWord v = if (mapGet u.slots k).isSome then 0 else if (mapGet e.pool.slots k).isSome then 1 else 2))) ∧
  (∀ (p : Pool) (d : Pond) (u : Thread) (n : Nat), resolve none d (u.materialise p) n .res = resolve (some p) d u n .res ∧
    resolveSlot none d (u.materialise p) n .res = resolveSlot (some p) d u n .res ∧
    (mapGet p.copies n = none → mapGet (u.materialise p).springs n = mapGet u.springs n))

/-- R71, R182: a producer that has all its bytes completes: each live writer whose write no younger one has overtaken reads its value wherever it now
is, one whose write has been overtaken reads what it read, and their marks clear. The value is the bytes in ascending order, and fewer than four of
them are extended by their sign or by zeros as the word says. -/
def Obligations.ProducersComplete : Prop :=
  (∀ (s : State) (id : Nat) (o : Op), s.ops.find? (fun x => x.id == id) = some o → (∀ l ∈ o.lanes, ∀ b ∈ l.got, b ≠ none) →
    (o.lanes.map OpLane.t).Nodup → ∃ t, exec (.producerCompletion id) s = .next t ∧ (∀ x ∈ t.ops, x.id ≠ id) ∧
      ∀ r, o.reg = some r → ∀ i < o.n, ∀ l ∈ o.lanes, ∀ u ∈ s.threads, u.ref = l.t → Sole s u →
        (∀ p, u.pool = some p → (pool s p).isSome) → (∀ m ∈ u.marks, m.reg = r + i → m.wid = o.wid → m.dead = false) →
        ∃ u' ∈ t.threads, u'.ref = u.ref ∧ u'.place = u.place ∧ (∀ m ∈ u'.marks, ¬(m.reg = r + i ∧ m.wid = o.wid)) ∧
          ∀ d, resolve (u.pool.bind (pool t)) d u' (r + i) .res = BitVec.ofNat 32 (o.value l / 2 ^ (32 * i))) ∧
  (∀ (s : State) (id : Nat) (o : Op), s.ops.find? (fun x => x.id == id) = some o → (∀ l ∈ o.lanes, ∀ b ∈ l.got, b ≠ none) →
    (o.lanes.map OpLane.t).Nodup → ∃ t, exec (.producerCompletion id) s = .next t ∧ t.ponds = s.ponds ∧
      ∀ r, o.reg = some r → ∀ i < o.n, ∀ l ∈ o.lanes, ∀ u ∈ s.threads, u.ref = l.t → Sole s u → (∃ m ∈ u.marks, m.reg = r + i ∧ m.wid = o.wid ∧ m.dead = true) →
        ∃ u' ∈ t.threads, u'.ref = u.ref ∧ u'.place = u.place ∧ (∀ m ∈ u'.marks, ¬(m.reg = r + i ∧ m.wid = o.wid)) ∧
          ∀ d, pond s u.pond = some d → resolve (u.pool.bind (pool t)) d u' (r + i) .res = resolve (u.pool.bind (pool s)) d u (r + i) .res) ∧
  (∀ (o : Op) (l : OpLane) (bs : List Byte), l.got = bs.map some →
    ((o.ext ≠ some false ∨ 4 ≤ bs.length) → o.value l = leNat bs) ∧
    (o.ext = some false → bs ≠ [] → bs.length < 4 → (o.value l : ℤ) =
      if leNat bs < 2 ^ (8 * bs.length - 1) then (leNat bs : ℤ) else leNat bs + 2 ^ 32 - 2 ^ (8 * bs.length)))

/-- R102, R226, R130: a register word, NOP, YIELD or DRAIN moves its fragment on to the next word and counts once in %retired of each of its
threads, whether the guard passes or not; NOP, YIELD and DRAIN change nothing else. -/
def Obligations.WordsAdvanceAndCount : Prop :=
  ∀ s e i, (isRegisterWord i = true ∨ (∃ g, i = .nop g) ∨ (∃ g, i = .yield g) ∨ ∃ g k, i = .drain g k) → Issues s e i →
    ∃ t, exec i s = .next t ∧
      List.Forall₂ (fun u u' => u'.retired = if u.inFrag e.frag.ref then u.retired + 1 else u.retired) s.threads t.threads ∧
      List.Forall₂ (fun f f' => f'.pc = if f.ref = e.frag.ref ∧ e.iss.part ≠ .pairX then f.pc + 16 else f.pc) s.frags t.frags ∧
      (isRegisterWord i = false → s.Keeps e [] [] false [] t)

/-- R126, R49: BRA and BRX move each active thread to its target and every other thread to the next word, and change nothing else; the two sets of
a BRA stand in two fragments wherever they go, and the threads of one target address of a BRX in one. A branch leaves threads on its word only when
it names more than sixteen addresses: then those of the first fifteen go and all others stay (log 50), and BRA and CALL never do. -/
def Obligations.BranchesSplit : Prop :=
  (∀ s e i target, ((∃ g off, i = .bra g off) ∨ ∃ g a, i = .brx g a) → targetOf i = some target → Issues s e i →
    (∀ u ∈ e.active (guardOfInstr i), e.targetOk (target e u)) → ∃ t, exec i s = .next t ∧
      (∀ u ∈ e.threads, Sole s u → At t u.ref (e.goes (guardOfInstr i) (target e) u)) ∧
      ((∃ g off, i = .bra g off) → (s.frags.filter (fun f => f.pool == e.frag.pool)).length ≤ 128 → ∀ u ∈ e.threads, ∀ v ∈ e.threads, Sole s u →
        Sole s v → guardPasses (guardOfInstr i) u = true → guardPasses (guardOfInstr i) v = false → Apart t u.ref v.ref) ∧
      (∀ u ∈ e.active (guardOfInstr i), ∀ v ∈ e.active (guardOfInstr i), Sole s u → Sole s v → target e u = target e v → Together t u.ref v.ref) ∧
      s.Stays e false t ∧ t.mem = s.mem ∧ t.tlb = s.tlb ∧ t.launches = s.launches ∧ t.blocks = s.blocks ∧ t.peerLines = s.peerLines ∧
      t.host = s.host ∧ t.hostLines = s.hostLines ∧ t.lineTag = s.lineTag ∧ t.slices = s.slices ∧ t.incomplete = s.incomplete) ∧
  ((∀ (e : Env) act (a : Nat), e.staying act (fun _ => a) = []) ∧
  (∀ (l : List (TRef × Nat)), (l.map Prod.snd).dedup.length ≤ 16 → leftOver l = []) ∧
  (∀ (l : List (TRef × Nat)), ((l.filter (fun p => p.1 ∉ leftOver l)).map Prod.snd).dedup.length ≤ 16))

/-- R127, R128, R49: CALL and CALLX push the address of the next word on the return stack of each thread that goes, the oldest of sixteen entries leaving
for memory, and branch, a CALL's two sets into two fragments wherever they go; RET pops it, an entry in memory coming back to the core as its lake
holds it, and branches to it; other threads keep their stacks. That a CALLX or RET of more than sixteen addresses leaves all other threads on its
word, those whose guard fails among them, is the model's reading (log 50), and so is that a spill acts on memory at once in a still kernel too, behind
the buffered stores of its thread and of no other (log 74). -/
def Obligations.CallsAndReturns : Prop :=
  (∀ s e i target (pas : List (Nat × Leaf)), ((∃ g off, i = .call g off) ∨ ∃ g a, i = .callx g a) → targetOf i = some target → Issues s e i →
    let act := e.active (guardOfInstr i)
    let going (u : Thread) : Prop := u ∈ act ∧ u.ref ∉ e.staying act (target e)
    let full := (act.filter (fun u => decide (u.ref ∉ e.staying act (target e)))).filter (fun u => u.stack.length == 16)
    (∀ u ∈ act, e.targetOk (target e u)) → (∀ u ∈ act, u.stack.length + u.spilled ≠ 1024) →
    checkMem s (some e.lake) e.ctx false (full.map (fun u => e.stackReq .spill u u.spilled)) = .ok pas →
    stackWaits s e (full.zip pas) = false → (∀ p ∈ pas, lostTo s p.1 = false) →
    let out (a : Nat) : Prop := among (pas.map Prod.fst) 8 a ∨
      ∃ y ∈ s.slices, (∃ p ∈ pas, lineOf y.addr = lineOf p.1) ∧ y.addr ≤ a ∧ a < y.addr + y.stored.length
    ∃ t, exec i s = .next t ∧ s.Stays e true t ∧ Untouched s t out ∧ Mirrored out s.launches t.launches ∧
      BuffersCut e.block.id (· ∈ full.map Thread.ref) s.blocks t.blocks ∧ PeersOwned e.lake (fun k => ∃ p ∈ pas, k = lineOf p.1) s.peerLines t.peerLines ∧
      ((∃ g off, i = .call g off) → (s.frags.filter (fun f => f.pool == e.frag.pool)).length ≤ 128 → ∀ u ∈ e.threads, ∀ v ∈ e.threads, Sole s u →
        Sole s v → guardPasses (guardOfInstr i) u = true → guardPasses (guardOfInstr i) v = false → Apart t u.ref v.ref) ∧
      (∀ u ∈ e.threads, Sole s u → At t u.ref (e.goes (guardOfInstr i) (target e) u)) ∧
      (∀ u ∈ e.threads, Sole s u → ∀ x ∈ t.threads, x.ref = u.ref →
        (going u → x.stack.length + x.spilled = u.stack.length + u.spilled + 1 ∧ x.stack.head? = some (BitVec.ofNat 64 (e.pc + 16)) ∧
          (∀ k, k + 1 < 16 → u.stack.length ≤ 16 → x.stack[k + 1]? = u.stack[k]?)) ∧
        (¬going u → x.stack = u.stack ∧ x.spilled = u.spilled)) ∧
      (∀ u, full = [u] → ∀ p ∈ pas, p.1 + 8 ≤ Config.hostBase → (hostLine s (lineOf p.1)).isNone → (hostLine s (lineOf (p.1 + 7))).isNone →
        homeValue t p.1 8 = (u.stack.getLastD 0).toNat)) ∧
  (∀ s e g (pas : List (Nat × Leaf)), Issues s e (.ret g) →
    let act := e.active g
    let top (u : Thread) : Nat := (u.stack.headD 0).toNat
    let going (u : Thread) : Prop := u ∈ act ∧ u.ref ∉ e.staying act top
    let low := (act.filter (fun u => decide (u.ref ∉ e.staying act top))).filter (fun u => decide (0 < u.spilled))
    (∀ u ∈ act, u.stack.length + u.spilled ≠ 0) → (∀ u ∈ act, e.targetOk (top u)) →
    checkMem s (some e.lake) e.ctx false (low.map (fun u => e.stackReq .fill u (u.spilled - 1))) = .ok pas →
    (∀ p ∈ pas, lineOf p.1 ∉ s.badLines) → stackWaits s e (low.zip pas) = false →
    ∃ t, exec (.ret g) s = .next t ∧ s.Stays e true t ∧ t.mem = s.mem ∧ t.hostLines = s.hostLines ∧ t.slices = s.slices ∧
      t.launches = s.launches ∧ t.blocks = s.blocks ∧ t.peerLines = s.peerLines ∧
      (∀ u ∈ e.threads, Sole s u → At t u.ref (e.goes g top u)) ∧
      (∀ u ∈ e.threads, Sole s u → ∀ x ∈ t.threads, x.ref = u.ref →
        (going u → u.spilled = 0 → x.stack = u.stack.drop 1 ∧ x.spilled = 0) ∧
        (∀ (n : Nat) (p : Nat × Leaf), low[n]? = some u → pas[n]? = some p → x.stack = u.stack.drop 1 ++ [BitVec.ofNat 64 (leNat (e.lakeRead s p.2.cached p.1 8))] ∧
          x.spilled + 1 = u.spilled) ∧
        (¬going u → x.stack = u.stack ∧ x.spilled = u.spilled)))

/-- R52, R67, R77, R129: REFORM files each active thread in the reform well of the next address with the pool copies that it had in view; EXIT ends each
active thread; the other threads of the fragment go on. -/
def Obligations.ReformAndExit : Prop :=
  (∀ s e g, Issues s e (.reform g) → ∃ t, exec (.reform g) s = .next t ∧ (Quiet s e →
    (∀ u ∈ e.active g, Sole s u → ∃ x ∈ t.threads, x.ref = u.ref ∧ x.place = .well .reform (e.pc + 16) ∧ x.preds = u.preds ∧
      ∀ n, mapGet x.springs n = (mapGet u.springs n).or (mapGet e.pool.copies n)) ∧
    (∀ u ∈ s.threads, u.ref ∉ e.acting g → { u with retired := if u.inFrag e.frag.ref then u.retired + 1 else u.retired } ∈ t.threads) ∧
    t.mem = s.mem ∧ t.ponds = s.ponds)) ∧
  (∀ s e g, Issues s e (.exit g) → ∃ t, exec (.exit g) s = .next t ∧ (Quiet s e → s.mops = [] → (∀ d ∈ s.ponds, d.conv = []) →
    (∀ f ∈ s.frags, ∀ o l w, f.hold ≠ .mwait o l w) →
    (∀ u ∈ e.active g, ∀ x ∈ t.threads, x.ref ≠ u.ref) ∧
    (∀ u ∈ s.threads, u.ref ∉ e.acting g → { u with retired := if u.inFrag e.frag.ref then u.retired + 1 else u.retired } ∈ t.threads) ∧
    t.mem = s.mem ∧ t.accs.map (fun y => (y.id, y.addr, y.n, y.kind)) = s.accs.map (fun y => (y.id, y.addr, y.n, y.kind)) ∧
    t.copies.map Copy.id = s.copies.map Copy.id))

/-! ## Memory -/

/-- R180, R182 to R184, R190, R260, R354, R355, R357, R358: a load, store or atomic outside still mode adds its accesses in ascending lane, in units that are single-copy atomic; a
load or an atomic with a result starts the producer that takes what they read, and a store completes at once. PREF brings lines into the
caches and changes no byte of memory, no register and no translation. Nothing else changes. Where the translation of an access is absent or lacks a right,
and no access meets a fatal cause, the word parks on cause 0x24 or 0x26, in either mode, and performs nothing. -/
def Obligations.MemoryWordsIssueAccesses : Prop :=
  (∀ i r s e, memRow i = some r → Issues s e i →
    let act := e.active (guardOfInstr i)
    let reqs : List MemReq := act.flatMap (fun u => (r.pieces e u).map (fun q =>
      ⟨u.lane, (e.virtual r.loc u (e.ea u r.a r.disp) + q.1) % 2 ^ 64, q.2, r.acc, r.loc, r.acc == .load⟩))
    (r.masked = false → ∀ u ∈ act, e.ea u r.a r.disp % r.n = 0) →
    (r.loc = true → ∀ u ∈ act, r.pieces e u ≠ [] → e.ea u r.a r.disp + r.n + 8192 ≤ e.ctx.rcd.locSize) → (∀ q ∈ reqs, q.va < 2 ^ 57) →
    (∀ q ∈ reqs, ∀ f, checkXlat s (some e.lake) e.ctx true q = .error f → f.recover = true) →
    (∃ q ∈ reqs, ∃ f, checkXlat s (some e.lake) e.ctx true q = .error f) →
    ∃ t f, exec i s = .next t ∧ (∃ q ∈ reqs, checkXlat s (some e.lake) e.ctx true q = .error f) ∧ (f.cause = 0x24 ∨ f.cause = 0x26) ∧ Parked s e f t) ∧
  (∀ s lake (c : Ctx) prog (q : MemReq),
    let fields (parked : Bool) (lvl grants : Nat) : Nat :=
      q.acc.code + 8 * q.loc.toNat + 16 * lvl + 128 * parked.toNat + 256 * q.acc.need + 4096 * grants
    (∀ lvl, xlat s lake c q.va = .error (0x24, lvl, 0) → checkXlat s lake c prog q = .error ⟨0x24, fields true lvl 0, q.va, lvl, q.lane, true⟩) ∧
    (∀ leaf, xlat s lake c q.va = .ok leaf →
      let pa := ownAddr s (leaf.pa + q.va % leaf.size)
      populated s pa = true → isPeer pa = false → (prog = true → privileged s c pa q.n = false) →
      let granted : Prop := (q.acc.need.testBit 0 → leaf.r = true) ∧ (q.acc.need.testBit 1 → leaf.w = true) ∧ (q.acc.need.testBit 2 → leaf.x = true)
      (granted → checkXlat s lake c prog q = .ok (pa, leaf)) ∧ (¬granted → checkXlat s lake c prog q =
        .error ⟨0x26, fields true leaf.level (leaf.r.toNat + 2 * leaf.w.toNat + 4 * leaf.x.toNat), q.va, leaf.level, q.lane, true⟩)) ∧
    (∀ va lvl idx rest tab, populated s (ownAddr s (tab + 8 * idx)) = true → lineOf (ownAddr s (tab + 8 * idx)) ∉ s.badLines →
      (homeValue s (ownAddr s (tab + 8 * idx)) 8).testBit 0 = false → walkFrom s va ((lvl, idx) :: rest) tab = .error (0x24, lvl, 0))) ∧
  (∀ i r, memRow i = some r → ∀ s e hs, Issues s e i → e.still = false → r.hits s e (guardOfInstr i) = .ok hs →
    let act := e.active (guardOfInstr i)
    let ws := act.map Thread.ref
    ∃ t new id, exec i s = .next t ∧
      State.Issued e ((r.dst.map (fun d => dstRange d.d d.n)).getD []) ws { s with
        accs := s.accs ++ new
        ops := s.ops ++ (match r.dst with
          | some d => if act = [] then [] else [e.producer id d.d d.n d.ext (ws.map (fun u => ⟨u, List.replicate r.n none⟩))]
          | none => [])
        incomplete := s.incomplete ++ (if r.waits = true ∧ act ≠ [] then [e.iss.wid] else [])
        tlb := (fillHits s e hs).tlb
        nextId := t.nextId } t ∧
      new.map Access.what = (unitsOf hs).map (fun p => (p.1.t.ref, .mem, p.1.pa + p.2.1, p.2.2, r.kind e p.1 p.2,
        r.dst.map (fun _ => (id, p.2.1)))) ∧
      ∀ x ∈ new, x.wid = e.iss.wid ∧ x.order = r.order ∧ x.scope = r.scope ∧ x.stage = 0) ∧
  (∀ g l2 disp a s e, Issues s e (.pref g l2 disp a) → ∃ t, exec (.pref g l2 disp a) s = .next t ∧
    State.Issued e [] [] { s with
      hostLines := t.hostLines
      peerLines := t.peerLines } t ∧ ∀ x, homeByte t x = homeByte s x)

/-- R277, R291 to R293: in still mode a load reads at once what its block sees, a store or atomic to lines of other states goes into the round
buffer and leaves memory, and one to the block's own line is performed at once; no byte changes but those that are written, and those of writes that
stood at a slice of the line (R263); one that releases at sy scope first performs its threads' host writes (R304). A block sees its own line as memory
holds it, and any other as it stood at the start of the round with its own buffered stores over it, the newest one first; a write of another launch that
stands at the slice of its lake is seen before memory (R254 item 3). A line that no access of the round has touched has the state of its word in the
table. -/
def Obligations.StillMemoryWords : Prop :=
  (∀ i r, memRow i = some r → ∀ s e hs, Issues s e i → e.still = true → r.hits s e (guardOfInstr i) = .ok hs →
    let act := e.active (guardOfInstr i)
    let us := unitsOf hs
    let gives : Bool := (r.acc == .atomic || r.acc == .store) && (r.order == .rel || (r.acc == .atomic && r.order == .ar))
    let s1 : State := if gives = true ∧ r.scope = .sy then e.syncHost s act else s
    let own (p : Hit × Nat × Nat) : Bool := ownLine s1 e.launch e.block (p.1.va + p.2.1) (p.1.pa + p.2.1)
    s.hostLinesOk → (r.acc ≠ .load → ∀ ws : List StillWrite,
      ws.map (fun w => (w.lane, w.va, w.pa)) = us.map (fun p => (p.1.t.lane, p.1.va + p.2.1, p.1.pa + p.2.1)) →
        bufferTrap s1 e.launch e.block ws = none) →
    (r.acc = .atomic ∨ gives = true → stillReady s act r.order r.scope = true) →
    (r.acc = .load → wideAcquire r.order r.scope = true → ∀ h ∈ hs, e.stillSees s h r.n = []) →
    (r.acc ≠ .load → ∀ p ∈ us, lostTo s (p.1.pa + p.2.1) = false) →
    ∃ t, exec i s = .next t ∧
      State.Issued e ((r.dst.map (fun d => dstRange d.d d.n)).getD []) (act.map Thread.ref) { s with
        threads := if r.acc = .load then (observeHits s e hs r.n).threads else s.threads
        ops := t.ops
        incomplete := t.incomplete
        tlb := t.tlb
        nextId := t.nextId
        launches := t.launches
        blocks := t.blocks
        mem := t.mem
        lineTag := t.lineTag
        hostLines := t.hostLines
        peerLines := t.peerLines
        slices := t.slices
        host := t.host } t ∧
      (r.acc = .load → t.slices = s.slices ∧ t.peerLines = s.peerLines ∧ t.mem = s.mem ∧ t.hostLines = s.hostLines ∧ t.blocks = s.blocks) ∧
      Untouched s t (fun a => r.acc ≠ .load ∧ ∃ p ∈ us, (p.1.pa + p.2.1 ≤ a ∧ a < p.1.pa + p.2.1 + p.2.2) ∨
        ∃ y ∈ s.slices, lineOf y.addr = lineOf (p.1.pa + p.2.1) ∧ y.addr ≤ a ∧ a < y.addr + y.stored.length) ∧
      (∀ d, r.dst = some d → r.acc = .load → act ≠ [] → ∃ id, t.ops = s.ops ++ [e.producer id d.d d.n d.ext
        (hs.map (fun h => ⟨h.t.ref, (stillBytes s e.launch e.block h.cached h.va h.pa r.n).map some⟩))]) ∧
      (r.acc ≠ .load → (∀ p ∈ us, own p = false) → (∀ x ∈ e.block.buffer, x.seq < s.nextId) → t.mem = s1.mem ∧ ∃ b, block t e.block.id = some b ∧
        b.buffer.map (fun x => (x.pa, x.bytes, x.atom)) = e.block.buffer.map (fun x => (x.pa, x.bytes, x.atom)) ++
          us.map (fun p => (p.1.pa + p.2.1, (r.kind e p.1 p.2).entry p.2.2))) ∧
      (r.acc ≠ .load → ∀ h, us = [(h, 0, h.n)] → own (h, 0, h.n) = true → h.pa + h.n ≤ Config.hostBase →
        (∀ y ∈ s.slices, lineOf y.addr ≠ lineOf h.pa) → homeBytes t h.pa h.n = r.result e h (homeBytes s h.pa h.n))) ∧
  (∀ (s : State) (l : Launch) (b : Block) cached va a,
    let y := touchedLine s l va a
    let plain (x : BufEntry) : Prop := x.atom = none ∧ x.launch = none ∧ x.alters a
    let atHome : Prop := ∀ z ∈ s.slices, cached = true → b.lake = some z.lake → z.isStore = true → z.holds .mem a = false
    (y.st = .priv b.lin → atHome → stillByte s l b cached va a = memByte s cached a) ∧
    (y.st ≠ .priv b.lin → atHome → (∀ x ∈ b.buffer, ¬plain x) → stillByte s l b cached va a = match y.image with
      | some i => i.getD (a % 128) 0
      | none => memByte s cached a) ∧
    ((y.st = .priv b.lin ∨ ∀ x ∈ b.buffer, ¬plain x) → cached = true → ∀ z k r, s.slices = k ++ z :: r → b.lake = some z.lake → z.isStore = true →
      z.holds .mem a = true → (∀ w ∈ r, b.lake = some w.lake → w.isStore = true → w.holds .mem a = false) →
      stillByte s l b cached va a = z.stored.getD (a - z.addr) 0) ∧
    (y.st ≠ .priv b.lin → ∀ x ∈ b.buffer, plain x → (∀ z ∈ b.buffer, plain z → z = x ∨ z.seq < x.seq) →
      stillByte s l b cached va a = x.bytes.getD (a - x.pa) 0) ∧
    (∀ n, (stillBytes s l b cached va a n).length = n ∧
      ∀ i < n, (stillBytes s l b cached va a n)[i]? = some (stillByte s l b cached (va + i) (a + i))) ∧
    ((∀ z ∈ l.touched, z.line ≠ a / 128) → y.image = none ∧ (stateWord l va = none → y.st = .shared) ∧
      ∀ w c bs, stateWord l va = some w → ctx s l.ctx = some c → areaRead s c w 8 = .ok bs →
        y.st = if leNat bs / 2 ^ 62 = 0 then .free else if leNat bs / 2 ^ 62 = 1 then .priv (leNat bs % 2 ^ 62) else .shared) ∧
    (∀ w r, stateWord l va = some w → l.ranges = [r] → r.1 ≤ va ∧ va < r.1 + 128 * r.2.1 ∧ w = r.2.2 + 8 * ((va - r.1) / 128)))

/-- R186, R187, R189, R190: a scratchpad word outside still mode adds its accesses to the pond's scratchpad in ascending lane; in still mode, with
nothing in flight, they act at once, one lane after the other: a store writes, and where the granules are full LDS reads, emptying them under
`.take`, and ATOMS reads and writes, their producer having its bytes. A lane of STSM whose mask is 0 is not checked, by the model's reading (log 56). FEQ reads whether a
granule is full, and FESET sets one full with every arrival bit, or empty with none. -/
def Obligations.ScratchpadWords : Prop :=
  (∀ i r, spRow i = some r → ∀ s e as, Issues s e i →
    let act := e.active (guardOfInstr i)
    let ws := act.map Thread.ref
    let ps := as.flatMap (fun p => (r.pieces e p.1).map (fun q => (p, q)))
    spaccess e r.align r.reads r.n (act.filter (fun x => !(r.pieces e x).isEmpty)) r.a r.disp = .ok as → ∃ t, exec i s = .next t ∧
      (e.still = false → ∃ new id, List.Forall₂ Pond.sameScratch s.ponds t.ponds ∧
        State.Issued e ((r.dst.map (fun d => dstRange d.d d.n)).getD []) ws { s with
          accs := s.accs ++ new
          ops := s.ops ++ (match r.dst with
            | some d => if act = [] then [] else [e.producer id d.d d.n d.ext (ws.map (fun u => ⟨u, List.replicate r.n none⟩))]
            | none => [])
          incomplete := s.incomplete ++ (if r.dst.isSome ∧ act ≠ [] then [e.iss.wid] else [])
          mops := t.mops
          ponds := t.ponds
          nextId := t.nextId } t ∧
        new.map Access.what = ps.map (fun p => (p.1.1.ref, .scratch e.pond.id, p.1.2 + p.2.1, p.2.2.1, p.2.2.2, r.dst.map (fun _ => (id, 0))))) ∧
      (e.still = true → s.accs = [] → s.mops = [] → (∀ y ∈ s.slices, ∀ u ∈ act, y.t ≠ u.ref) →
        (r.dst = none → t.accs = [] ∧ t.mem = s.mem ∧
          List.Forall₂ (fun d d' => Pond.sameScratch d d' ∧ d'.held = d.held ∧ (d.id ≠ e.pond.id → d'.scratch = d.scratch) ∧
            (d.id = e.pond.id → d'.scratch = afterPieces ps d.scratch)) s.ponds t.ponds) ∧
        (∀ d, r.dst = some d → act ≠ [] → ws.Nodup → (∀ p ∈ as, (e.pond.gran (p.2 / 16)).full = true) → t.accs = [] ∧ t.mem = s.mem ∧
          ∃ id taken d', pond t e.pond.id = some d' ∧
            t.ops.getLast? = some { e.producer id d.d d.n d.ext (as.zipIdx.map (fun p =>
              ⟨p.1.1.ref, (bytesAt (afterPieces (ps.take p.2) e.pond.scratch) p.1.2 r.n).map some⟩)) with taken := taken } ∧
            (∀ x, byteAt d'.scratch x = byteAt (afterPieces ps e.pond.scratch) x) ∧
            ∀ n, ((∃ p ∈ ps, p.1.2 / 16 = n ∧ p.2.2.2 = .load true) → d'.gran n = ⟨false, 0⟩) ∧
              ((∀ p ∈ ps, p.2.2.2 = .load true → p.1.2 / 16 ≠ n) → d'.gran n = e.pond.gran n)))) ∧
  (∀ g k disp a s e as, Issues s e (.feq g k disp a) → spaccess e false false 1 (e.active g) a disp = .ok as →
    ∃ t, exec (.feq g k disp a) s = .next t ∧ s.Keeps e [] [k.val] false (e.acting g) t ∧
      ∀ u ∈ e.actors g, ∀ x, (u, x) ∈ as → PredIs t u.ref k (e.pond.gran (x / 16)).full) ∧
  (∀ g full disp a s e as, Issues s e (.feset g full disp a) → spaccess e false false 1 (e.active g) a disp = .ok as →
    (∀ p ∈ as, granuleBusy s e p = false) → ∃ t, exec (.feset g full disp a) s = .next t ∧
      State.Issued e [] [] { s with
        ponds := t.ponds
        ops := t.ops } t ∧ List.Forall₂ (fun o o' => o' = { o with taken := o'.taken }) s.ops t.ops ∧
      List.Forall₂ (fun d d' => (d.id ≠ e.pond.id → d' = d) ∧
        (d.id = e.pond.id → d' = { d with grans := d'.grans, badGrans := d'.badGrans } ∧ ∀ n,
          ((∃ p ∈ as, p.2 / 16 = n) → d'.gran n = if full then ⟨true, BitVec.allOnes 16⟩ else ⟨false, 0⟩) ∧
          ((∀ p ∈ as, p.2 / 16 ≠ n) → d'.gran n = d.gran n))) s.ponds t.ponds)

/-- R182, R185, R189, R190, R254: an access that may be performed is. A load takes each byte from its thread's newest store in flight, else from the newest
write at a slice that its thread sees, else from its home, and changes no memory; a cached store or atomic goes to its slice, and an uncached
one to its home; an atomic gives its producer the old value and leaves the sum, the lesser or greater under its signedness, the bitwise result, its
operand, or its second operand where the first is the old value. A write at a slice that nothing older overlaps goes to its home. A lake holds a byte as
the newest write at a slice of its own leaves it, else as its home does. -/
def Obligations.AccessesArePerformed : Prop :=
  (∀ s id x, s.accs.find? (fun y => y.id == id) = some x → x.space = .mem → mayPerform s x = true → (x.releases = true → x.scope ≠ .sy) →
    (∀ y ∈ s.accs, ∀ z ∈ s.accs, y.id = z.id → y = z) → groupOf s x = [x] → lostTo s x.addr = false → s.hostLinesOk →
    ∃ t, exec (.accessPerformed id) s = .next t ∧ t.accs = s.accs.filter (fun y => y.id != id) ∧
      t = { s with
        accs := t.accs
        ops := t.ops
        threads := t.threads
        slices := t.slices
        mem := t.mem
        lineTag := t.lineTag
        hostLines := t.hostLines
        peerLines := t.peerLines
        launches := t.launches
        host := t.host
        incomplete := t.incomplete } ∧
      List.Forall₂ (fun u u' => u' = { u with observed := u'.observed }) s.threads t.threads ∧
      (∀ op off, x.dst = some (op, off) → ∀ o ∈ t.ops, o.id = op → ∀ l ∈ o.lanes, l.t = x.t → ∀ k < x.n, off + k < l.got.length →
        (x.isLoad = true → l.got[off + k]? = some (some (loadByte s x (x.addr + k)))) ∧
        (x.isAtom = true → l.got[off + k]? = some (some (if x.cached then (lakeByte s x.lake (x.addr + k)).2 else byteAt s.mem (x.addr + k))))) ∧
      (x.isLoad = true ∨ x.cached = true → t.launches = s.launches) ∧
      (x.isLoad = true → t.mem = s.mem ∧ t.slices = s.slices ∧ ∀ a, homeByte t a = homeByte s a) ∧
      (x.isLoad = false → x.cached = true → t.slices = s.slices ++ [{ x with
          kind := .store (if x.isStore then x.stored else x.newBytes (lakeBytes s x.lake x.addr x.n)), stage := 1 }] ∧
        (x.addr < Config.hostBase ∨ feature s 1 = false → t.mem = s.mem ∧ ∀ a, homeByte t a = homeByte s a)) ∧
      (x.isLoad = false → x.cached = false → (x.isStore = true → x.stored.length = x.n) →
        bytesAt t.mem x.addr x.n = (if x.isStore then x.stored else x.newBytes (bytesAt s.mem x.addr x.n)) ∧ t.slices = s.slices ∧
        t.hostLines = s.hostLines ∧ Mirrored (fun a => x.addr ≤ a ∧ a < x.addr + x.n) s.launches t.launches ∧
        ∀ a, ¬(x.addr ≤ a ∧ a < x.addr + x.n) → byteAt t.mem a = byteAt s.mem a)) ∧
  (∀ s (x : Access) a, (∀ y ∈ earlierAccs s x, y.t = x.t → y.isStore = true → y.holds .mem a = false) →
    ((x.cached = true → ∀ y ∈ s.slices, y.visible x.lake x.t = true → y.isStore = true → y.holds .mem a = false) →
      loadByte s x a = if x.cached then homeByte s a else byteAt s.mem a) ∧
    (∀ (y : Access) l r, x.cached = true → s.slices = l ++ y :: r → y.visible x.lake x.t = true → y.isStore = true → y.holds .mem a = true →
      (∀ z ∈ r, z.visible x.lake x.t = true → z.isStore = true → z.holds .mem a = false) → loadByte s x a = y.stored.getD (a - y.addr) 0)) ∧
  (∀ s (x y : Access) l r a, earlierAccs s x = l ++ y :: r → y.t = x.t → y.isStore = true → y.holds .mem a = true →
    (∀ z ∈ r, z.t = x.t → z.isStore = true → z.holds .mem a = false) → loadByte s x a = y.stored.getD (a - y.addr) 0) ∧
  (∀ s id x, (∀ y ∈ s.accs, y.id ≠ id) → s.slices.find? (fun y => y.id == id) = some x → mayGoHome s x = true → lostTo s x.addr = false →
    s.hostLinesOk → ∃ t, exec (.accessPerformed id) s = .next t ∧ t.slices = s.slices.filter (fun y => y.id != id) ∧
      t = { s with
        slices := t.slices
        mem := t.mem
        lineTag := t.lineTag
        hostLines := t.hostLines
        launches := t.launches
        host := t.host
        incomplete := t.incomplete } ∧
      Mirrored (fun a => x.addr ≤ a ∧ a < x.addr + x.stored.length) s.launches t.launches ∧
      Untouched s t (fun a => x.addr ≤ a ∧ a < x.addr + x.stored.length) ∧
      (x.addr + x.stored.length ≤ Config.hostBase → homeBytes t x.addr x.stored.length = x.stored)) ∧
  (∀ s lake a, ((∀ y ∈ s.slices, y.lake = lake → y.isStore = true → y.holds .mem a = false) → (lakeByte s lake a).2 = homeByte s a) ∧
    (∀ (y : Access) l r, s.slices = l ++ y :: r → y.lake = lake → y.isStore = true → y.holds .mem a = true →
      (∀ z ∈ r, z.lake = lake → z.isStore = true → z.holds .mem a = false) → (lakeByte s lake a).2 = y.stored.getD (a - y.addr) 0) ∧
    ∀ (e : Env) cached n, (e.lakeRead s cached a n).length = n ∧ ∀ i < n, (e.lakeRead s cached a n)[i]? =
      some (if cached then (lakeByte s e.lake (a + i)).2 else byteAt s.mem (a + i))) ∧
  (∀ (x : Access) op wide uns b c old, x.kind = .atom op wide uns b c →
    x.newBytes old = leBytes x.n (atomNew op x.n uns (leNat old) (b.toNat % 2 ^ (8 * x.n)) (c.toNat % 2 ^ (8 * x.n)))) ∧
  (∀ n uns old b c, (n = 4 ∨ n = 8) → old < 2 ^ (8 * n) → b < 2 ^ (8 * n) → c < 2 ^ (8 * n) →
    let new (op : AtomOp) : Nat := atomNew op n uns old b c
    let num := signedBits (8 * n) uns
    new .add = (old + b) % 2 ^ (8 * n) ∧ new .exch = b ∧ new .cas = (if old = b then c else old) ∧
    ((new .min = old ∨ new .min = b) ∧ num (new .min) ≤ num old ∧ num (new .min) ≤ num b) ∧
    ((new .max = old ∨ new .max = b) ∧ num old ≤ num (new .max) ∧ num b ≤ num (new .max)) ∧
    (∀ i, (new .and).testBit i = (old.testBit i && b.testBit i) ∧ (new .or).testBit i = (old.testBit i || b.testBit i) ∧
      (new .xor).testBit i = xor (old.testBit i) (b.testBit i)) ∧
    (n = 4 → new .fadd = (roundTo fp32 .rne false false 0 (fSum .rne (fvalue fp32 old) (fvalue fp32 b)).v).1))

/-- R192, R193, R194: a FENCE whose accesses are performed completes and changes nothing, but that at sy scope it leaves no dirty host line of its
context, and in a still kernel marks its threads' writes of the round, which the commit then performs at host memory (R254 item 6, R304). Threads arrive at a barrier, wait at it, or both; its phase completes when every thread that it counts has arrived. -/
def Obligations.FencesAndBarriers : Prop :=
  (∀ g kind sc cpy s e, Issues s e (.fence g kind sc cpy) →
    (∀ u ∈ e.active g, fenced s kind sc u.ref = true ∧ (cpy = true → copiesDone s sc u.ref = true)) →
    ∃ t, exec (.fence g kind sc cpy) s = .next t ∧
      (sc ≠ .sy ∨ e.active g = [] → State.Issued e [] [] s t) ∧
      State.Issued e [] [] { s with
        mem := t.mem
        hostLines := t.hostLines
        blocks := t.blocks
        launches := t.launches } t ∧
      (s.hostLinesOk → ∀ a, homeByte t a = homeByte s a) ∧ (e.still = false → t.blocks = s.blocks ∧ t.launches = s.launches) ∧
      (sc = .sy → e.active g ≠ [] → (∀ h ∈ t.hostLines, e.ctx.rcd.id ∈ h.ctxs → h.dirty = false) ∧
        (e.still = true → RoundReleased e (e.acting g) s t))) ∧
  (∀ i g sc arrive wait, ((i = .bar g sc ∧ arrive = true ∧ wait = true) ∨ (i = .bara g sc ∧ arrive = true ∧ wait = false) ∨
      (i = .barw g sc ∧ arrive = false ∧ wait = true)) → ∀ s e, Issues s e i →
    let k := e.barKey sc
    let act := e.active g
    let b := barrier s k
    let all : Prop := act ≠ [] ∧ counted s k ≠ [] ∧ ∀ u ∈ counted s k, u.ref ∈ b.arrived ∨ (arrive = true ∧ u.ref ∈ e.acting g)
    (∀ u ∈ act, (u.barRecord k).isNone = arrive) →
    (∀ u ∈ act, fenced s (if arrive then .rel else .acq) (barFence sc) u.ref = true) →
    ∃ t, exec i s = .next t ∧
      t = { s with threads := t.threads, frags := t.frags, bars := t.bars, cur := t.cur, free := t.free, hints := t.hints, incomplete := t.incomplete } ∧
      List.Forall₂ (fun u u' => u' = { u with retired := u'.retired, bars := u'.bars }) s.threads t.threads ∧
      (arrive = true → all → (barrier t k).phase = b.phase + 1 ∧ (barrier t k).arrived = []) ∧
      (arrive = true → ¬all → (barrier t k).phase = b.phase ∧ (barrier t k).arrived = b.arrived ++ e.acting g) ∧
      (arrive = true → wait = false → ¬all → ∀ u ∈ act, Sole s u → ∀ x ∈ t.threads, x.ref = u.ref → x.barRecord k = some b.phase) ∧
      (wait = true → (arrive = true → all) → (arrive = false → ∀ u ∈ act, ∃ n, u.barRecord k = some n ∧ n < b.phase) →
        (∀ u ∈ act, Sole s u) → ∀ u ∈ act, ∀ x ∈ t.threads, x.ref = u.ref → x.barRecord k = none) ∧
      (wait = true → ¬all → (∃ u ∈ act, Sole s u ∧ (arrive = true ∨ ∃ n, u.barRecord k = some n ∧ b.phase ≤ n)) →
        e.iss.wid ∈ t.incomplete ∧ ∃ f ∈ t.frags, f.ref = e.frag.ref ∧ f.hold = .bar k (e.acting g) arrive e.waiter))

/-- R72, R73, R93, R164, R199 to R201, R228: the members of a collective arrive and wait, with nothing changed, until the last has arrived. Where one word brings
them all, NRED sets the pond copy to the padded fold and gives every member the flags of its steps, NBCAST to the value of the member that it names or to zero, MERGE stores an agreed or
chosen value, or under `.red` the fold with its flags, and tells whether the members agreed, and SETW gives the pond its new grant and files its threads at their next word. -/
def Obligations.PondCollectives : Prop :=
  (∀ i s e, isCollective i = true → Issues s e i →
    let act := e.active (guardOfInstr i)
    let p := collPool e i
    ∃ t, exec i s = .next t ∧ (act = [] → State.Issued e [] [] s t) ∧
      (act ≠ [] → (∃ u ∈ members s e.pond.id p, u.ref ∉ e.acting (guardOfInstr i) ∧
          ∀ c ∈ s.colls, c.pond = e.pond.id → c.pool = p → ∀ a ∈ c.arrivals, a.t ≠ u.ref) →
        State.Issued e [] [] { s with colls := t.colls, incomplete := s.incomplete ++ [e.iss.wid] } t ∧
        (∃ f ∈ t.frags, f.ref = e.frag.ref ∧ f.hold = .coll e.waiter) ∧
        ∃ c ∈ t.colls, c.pond = e.pond.id ∧ c.pool = p ∧ ∀ r ∈ e.acting (guardOfInstr i), ∃ a ∈ c.arrivals, a.t = r)) ∧
  (∀ g r d a s e l, Issues s e (.nred g r d a) → Alone s e g none l → l.length ≤ 2 ^ 14 → ∃ t fl, exec (.nred g r d a) s = .next t ∧
    let vals := l.map (fun u => if redWide r then (e.src64 0 false u a).toNat else (e.src 0 u a).toNat)
    (∀ n tag, d = .reg n tag → ∃ d', pond t e.pond.id = some d' ∧ ∀ i < redElems r.ty,
      redPart r ((d'.copy n).toNat + if redWide r then 2 ^ 32 * (d'.copy (n + 1)).toNat else 0) i = pondFoldPart r vals i) ∧
    (∀ u ∈ l, Gains s t u.ref fl) ∧ ∀ b < 5, (fl.getLsbD b = true ↔ ∃ i < redElems r.ty, pondFoldRaises r b vals i)) ∧
  (∀ g form b s e l k, Issues s e (.nbcast g form b) → Alone s e g none l → (∀ u ∈ l, e.src 0 u b = k) →
    ∃ t d', exec (.nbcast g form b) s = .next t ∧ pond t e.pond.id = some d' ∧
      let src := l.find? (fun u => u.tid == k.toNat)
      match form with
      | .one d a => ∀ n tag, d = .reg n tag → d'.copy n = (src.map (fun u => e.src 0 u a)).getD 0
      | .pair d a => ∀ n tag, d = .reg n tag → pairWord (d'.copy (n + 1)) (d'.copy n) = (src.map (fun u => e.src64 0 false u a)).getD 0
      | .slot q => d'.slotCopy q = (src.map (e.slot q)).getD QSlot.unset) ∧
  (∀ g pd policy p n tag blk s e l, Issues s e (.merge g pd policy p (.src (.reg n tag blk))) →
    Alone s e g (if pd then none else some e.pool.id) l → l.length ≤ 2 ^ 14 →
    let val (u : Thread) : Word := e.src 0 u (.reg n .res blk)
    let agree : Prop := ∀ u ∈ l, ∀ v ∈ l, val u = val v
    ∃ t fl, exec (.merge g pd policy p (.src (.reg n tag blk))) s = .next t ∧
      (∀ u ∈ l, Gains s t u.ref fl) ∧ (redOfPolicy policy = none → fl = 0) ∧
      (∀ r, redOfPolicy policy = some r → ∀ b < 5, (fl.getLsbD b = true ↔
        ∃ i < redElems r.ty, pondFoldRaises r b (l.map (fun u => (val u).toNat)) i)) ∧
      (∃ b, (b = true ↔ agree) ∧ ∀ u ∈ l, PredIs t u.ref p b) ∧
      (policy = .chk → ¬agree → t.pools = s.pools ∧ t.ponds = s.ponds ∧ List.Forall₂ (fun u u' => u'.springs = u.springs) s.threads t.threads) ∧
      ∀ u ∈ l, ∀ x ∈ t.threads, x.ref = u.ref → ∀ d', pond t e.pond.id = some d' →
        let v := resolve (pool t e.pool.id) d' x n .res
        ((policy = .low ∨ (policy = .chk ∧ agree)) → l.head?.map val = some v) ∧
        (∀ r, redOfPolicy policy = some r → ∀ i < redElems r.ty, redPart r v.toNat i = pondFoldPart r (l.map (fun u => (val u).toNat)) i)) ∧
  (∀ g pd policy p k s e l, Issues s e (.merge g pd policy p (.slot k)) → Alone s e g (if pd then none else some e.pool.id) l →
    (∀ u ∈ l, ∀ v ∈ l, e.slot k u = e.slot k v) → ∃ t, exec (.merge g pd policy p (.slot k)) s = .next t ∧
      ∀ u ∈ l, PredIs t u.ref p true ∧ ∀ x ∈ t.threads, x.ref = u.ref → ∀ d', pond t e.pond.id = some d' →
        resolveSlot (pool t e.pool.id) d' x k .res = e.slot k u) ∧
  (∀ g d a s e l k, Issues s e (.setw g d a) → Alone s e g none l → (∀ u ∈ l, e.src 0 u a = k) →
    (k = 0 ∨ k = 16 ∨ k = 32 ∨ k = 64 ∨ k = 128) → ∃ t d', exec (.setw g d a) s = .next t ∧ pond t e.pond.id = some d' ∧
      d'.grant = (if e.launch.kernel.width ≠ 0 then e.launch.kernel.width else if k ≠ 0 then k.toNat
        else if e.still then e.pond.grant else gwnOf s e.ctx e.core) ∧
      ∀ u ∈ l, ∃ x ∈ t.threads, x.ref = u.ref ∧ x.preds = u.preds ∧
        (x.place = .well .launch (e.pc + 16) ∨ ∃ q i, x.place = .lane q 0 i))

/-- R195 to R198, R360: COPY and COPYM put one command for each active thread in the journal, and wait where it is full. A command translates its side in
memory when it starts, reads its source, a scratchpad's once its granule is full, and then fills its destinations: a scratchpad byte
that has arrived sets its arrival bit, and a write of global memory goes to its slice or its home, but for the bytes that later commands of
its thread wrote while it was parked; those that stand parked before it leave its bytes alone (log 64). The commands that a pre-emption discarded
start again in the order of their journal, by the model's reading of R297 (log 77). -/
def Obligations.CopyCommands : Prop :=
  (∀ i g size dir mask a b c, ((∃ hint, i = .copy g size dir hint a b c ∧ mask = none) ∨
      (∃ hint obj, ∃ m : BitVec 4, i = .copym g size obj hint m a b c ∧ dir = (if obj then .o2s else .g2s) ∧ mask = some m.toNat)) →
    ∀ s e cs, Issues s e i → e.commands s (e.active g) size.bytes dir a b c = .ok cs →
      (dirObj dir = true → ∀ u ∈ e.active g, entryWaits s e u ((e.src 0 u a).toNat % 2 ^ 16) = false) →
      let dests := copyDests s e (dirIn dir) mask
      ((dirIn dir = true ∧ dests = []) ∨ ∃ k < Config.journalWords, k ∉ journal s e.core) →
      ∃ t, exec i s = .next t ∧ (e.active g = [] ∨ (dirIn dir = true ∧ dests = []) → State.Issued e [] [] s t) ∧
        (e.active g ≠ [] → ¬(dirIn dir = true ∧ dests = []) → ∃ new entry, entry < Config.journalWords ∧ entry ∉ journal s e.core ∧
          State.Issued e [] [] { s with
            copies := s.copies ++ new
            incomplete := s.incomplete ++ [e.iss.wid]
            ponds := t.ponds
            mops := t.mops
            nextId := t.nextId } t ∧
          (s.mops = [] → List.Forall₂ (fun d d' => d' = { d with conv := d'.conv }) s.ponds t.ponds) ∧
          new.map (fun x => (x.t, x.va, x.sa)) = cs.map (fun x => (x.t.ref, x.va, x.sa)) ∧
          ∀ x ∈ new, x.wid = e.iss.wid ∧ x.pond = e.pond.id ∧ x.toScratch = dirIn dir ∧ x.n = size.bytes ∧ x.dests = dests ∧
            x.entry = entry ∧ x.got = [] ∧ x.parked = none ∧ x.passed = [] ∧ x.again = false)) ∧
  (∀ s id c, copyOf s id = some c → inOrder s c = false → exec (.copyCommandStart id) s = .fault .notEnabled) ∧
  (∀ s id c off n u, copyOf s id = some c → copyRuns s c = true → inOrder s c = true → c.nextUnit = some (off, n) →
    (c.side = some u ∨ (c.side = none ∧ ∃ us, engineXlat s c.orig (if c.toScratch then .load else .store) [(c.va, c.n)] = .ok (u :: us))) →
    let running : Copy := if c.side.isSome then c else c.translated u
    (∀ d, c.toScratch = false → pond s c.pond = some d → sourceBusy s c (.scratch d.id) (c.sa + off) n = false →
      (d.gran ((c.sa + off) / 16)).full = true → (c.sa + off) / 16 ∉ d.badGrans → ∃ t, exec (.copyCommandStart id) s = .next t ∧
        t = { s with copies := t.copies } ∧ copyOf t id = some { running with got := c.got ++ bytesAt d.scratch (c.sa + off) n } ∧
        ∀ x ∈ s.copies, x.id ≠ id → x ∈ t.copies) ∧
    (c.toScratch = true → sourceBusy s c .mem (u.pa + off) n = false → lineOf u.pa ∉ s.badLines → (s.copies.map Copy.id).Nodup →
      (u.leaf.dev = false ∨ deviceBefore s c.t c.wid = false) →
      ∃ t, exec (.copyCommandStart id) s = .next t ∧ t = { s with copies := t.copies, launches := t.launches } ∧
        copyOf t id = some { running with got := c.got ++ engineBytes s c.orig c.t { u with va := u.va + off, pa := u.pa + off, n := n } } ∧
        ∀ x ∈ s.copies, x.id ≠ id → x ∈ t.copies)) ∧
  (∀ s id c, copyOf s id = some c → copyRuns s c = true → c.begun = true → (∀ x ∈ copiesBefore s c, c.clash x = false) →
    (c.toScratch = true → ∃ t, exec (.copyCommandComplete id) s = .next t ∧ t.copies = s.copies.filter (fun x => x.id != id) ∧
      t = { s with copies := t.copies, ponds := t.ponds, incomplete := t.incomplete } ∧ (c.dests.Nodup →
      List.Forall₂ (fun d d' => (d.id ∉ c.dests → d' = d) ∧ (d.id ∈ c.dests → d' = { d with scratch := d'.scratch, grans := d'.grans } ∧
        ∀ x, (c.sa ≤ x ∧ x < c.sa + c.n → byteAt d'.scratch x = c.got.getD (x - c.sa) 0 ∧ (d'.gran (x / 16)).arrived.getLsbD (x % 16) = true) ∧
          (¬(c.sa ≤ x ∧ x < c.sa + c.n) → byteAt d'.scratch x = byteAt d.scratch x ∧
            (d'.gran (x / 16)).arrived.getLsbD (x % 16) = (d.gran (x / 16)).arrived.getLsbD (x % 16)) ∧
          ((d.gran x).full = true → (d'.gran x).full = true) ∧
          ((d'.gran x).full = true → (d.gran x).full = true ∨ (d'.gran x).arrived = BitVec.allOnes 16))) s.ponds t.ponds)) ∧
    (∀ u, c.toScratch = false → (c.n ≤ 8 ∨ c.n = 16) → c.side = some u → lostTo s u.pa = false → stillOf s c.orig = none →
      s.hostLinesOk → (s.copies.map Copy.id).Nodup → (u.leaf.dev = false ∨ deviceBefore s c.t c.wid = false) →
      ∃ t, exec (.copyCommandComplete id) s = .next t ∧
        List.Forall₂ (fun x y => y = { x with
            passed := if x ∈ copiesBefore s c ∧ x.toScratch = false ∧ x.pa = none then x.passed ++ [(u.pa, u.pa + c.n)] else x.passed })
          (s.copies.filter (fun x => x.id != id)) t.copies ∧
        (u.leaf.cached = true → (∃ new, t.slices = s.slices ++ new ∧
          (inside c.passed u.pa c.n = false → (new.map Access.stored).flatten = c.got) ∧
          (∀ y ∈ new, y.t = c.t ∧ u.pa ≤ y.addr ∧ y.addr + y.n ≤ u.pa + c.n) ∧
          (∀ p ∈ units c.n, inside c.passed (u.pa + p.1) p.2 = false → ∃ y ∈ new, y.addr = u.pa + p.1 ∧ y.n = p.2) ∧
          ∀ k < c.n, ((∃ y ∈ new, y.addr ≤ u.pa + k ∧ u.pa + k < y.addr + y.n) ↔ inside c.passed (u.pa + k) 1 = false) ∧
            ∀ y ∈ new, y.addr ≤ u.pa + k → u.pa + k < y.addr + y.n → y.stored[u.pa + k - y.addr]? = c.got[k]?) ∧
          (u.pa + c.n ≤ Config.hostBase ∨ feature s 1 = false → t.mem = s.mem)) ∧
        (u.leaf.cached = false → u.pa + c.n ≤ Config.peerBase → (∀ y ∈ s.slices, ∀ k < c.n, lineOf y.addr ≠ lineOf (u.pa + k)) →
          (∀ k < c.n, homeByte t (u.pa + k) = if inside c.passed (u.pa + k) 1 then homeByte s (u.pa + k) else c.got.getD k 0) ∧
          t.slices = s.slices ∧ Untouched s t (fun x => u.pa ≤ x ∧ x < u.pa + c.n))))

/-! ## The matrix unit -/

/-- R206 to R208, R215, R216, R219, R220, R223: MDECL sets a COUNT while no thread has signed, and does nothing without an active thread; MOPRDY waits for its threads' scratchpad writes; MMA signs, and
the last signature of a phase puts one operation in the queue, a fresh one under the lowest index that the pond does not hold; MWAIT waits for a slot's operations and takes its flags; MREL makes handles
stale. That an MWAIT on a valid handle with nothing pending takes the slot's flags too, where R223 gives it no effect, is the model's choice (log 69). -/
def Obligations.ConvergenceWords : Prop :=
  (∀ g n count s e, Issues s e (.mdecl g n count) →
    (e.active g = [] ∨ (e.pond.convN n).signers = [] ∨ (e.pond.convN n).count = count.toNat) → ∃ t, exec (.mdecl g n count) s = .next t ∧
      (e.active g = [] → State.Issued e [] [] s t) ∧
      (e.active g ≠ [] → State.Issued e [] [] { s with ponds := t.ponds } t ∧ ∃ d, pond t e.pond.id = some d ∧
        d.convN n = { e.pond.convN n with count := count.toNat } ∧ ∀ k, k ≠ n.val → d.convN k = e.pond.convN k)) ∧
  (∀ g s e, Issues s e (.moprdy g) → (∀ u ∈ e.active g, ∀ y ∈ s.accs, y.t = u.ref → y.space = .mem ∨ y.isLoad = true) →
    ∃ t, exec (.moprdy g) s = .next t ∧ State.Issued e [] [] s t) ∧
  (∀ g n k d a b c s e u0 us, Issues s e (.mma g n k d a b c) → e.active g = u0 :: us →
    let act := u0 :: us
    let cv := e.pond.convN n
    let ops := e.signOps d a b c k.toNat
    let f := cv.first.getD (ops u0)
    cv.signers.length + act.length ≤ cv.count → (∀ u ∈ act, ∀ x ∈ cv.signers, x.t ≠ u.ref) →
    (cv.signers.length + act.length < cv.count → ∃ t, exec (.mma g n k d a b c) s = .next t ∧
      let others (l : List TRef) : Nat := ((pondThreads s e.pond.id).filter (fun u => u.ref ∉ l)).length
      (List.Pairwise (· < ·) (e.pond.conv.map Prod.fst) →
        (∀ p ∈ e.pond.conv, p.1 ≠ n.val → p.2.signers = [] ∨ p.2.count - p.2.signers.length ≤ others (p.2.signers.map Signer.t)) →
        cv.count - (cv.signers.length + act.length) ≤ others (cv.signers.map Signer.t ++ act.map Thread.ref) →
        ∃ d', pond t e.pond.id = some d' ∧ (d'.convN n).signers.map Signer.t = cv.signers.map Signer.t ++ act.map Thread.ref ∧
          (d'.convN n).count = cv.count ∧ (d'.convN n).phase = cv.phase ∧ (d'.convN n).first = some f ∧
          ∀ k, k ≠ n.val → d'.convN k = e.pond.convN k)) ∧
    (cv.signers.length + act.length = cv.count → queueRoom s e.core 1 = true → ∃ t, exec (.mma g n k d a b c) s = .next t ∧
      (cv.differ = none → (∀ u ∈ act, f.differs (ops u) = none) → triggerCheck e.pond n Conv.reset f = none →
        (∃ d', pond t e.pond.id = some d' ∧ (d'.convN n).signers = [] ∧ (d'.convN n).phase = (cv.phase + 1) % 2 ^ 32 ∧
          (d'.convN n).count = cv.count) ∧
        ∃ m, t.mops = s.mops ++ [m] ∧ m.kind = .mma ∧ m.pond = e.pond.id ∧ m.started = false ∧ m.done = false ∧ m.fmt = f.b ∧ m.k = f.k ∧
          m.a = f.c0.toNat ∧ m.b = f.c1.toNat ∧ m.fresh = fwFresh f.b ∧ m.signers.map Signer.t = cv.signers.map Signer.t ++ act.map Thread.ref ∧
          (fwFresh f.b = false → (e.pond.slotOfHandle f.a).map (fun r => (r.idx, r.gen)) = some (m.idx, m.gen)) ∧
          (fwFresh f.b = true → e.iss.wid ∈ t.incomplete ∧ (∀ r ∈ e.pond.holds, r.idx ≠ m.idx) ∧ ∀ j < m.idx, ∃ r ∈ e.pond.holds, r.idx = j)))) ∧
  (∀ g a s e, Issues s e (.mwait g a) → (∀ u ∈ e.active g, (e.pond.slotOfHandle (e.src 0 u a)).isSome) →
    let waits : Prop := ∃ u ∈ e.active g, ∃ x ∈ u.uses, x.handles.contains (e.src 0 u a) = true ∧ x.op ∈ unfinished s
    ∃ t, exec (.mwait g a) s = .next t ∧
      (waits → e.iss.wid ∈ t.incomplete ∧ ∃ f ∈ t.frags, f.ref = e.frag.ref ∧ ∃ o l, f.hold = .mwait o l e.waiter) ∧
      (¬waits → ∀ u ∈ e.active g, Sole s u → ∀ r, e.pond.slotOfHandle (e.src 0 u a) = some r → ∀ x ∈ t.threads, x.ref = u.ref →
        x.fflags = u.fflags ||| ((e.pond.rslot r.idx r.gen).map RSlot.flags).getD 0 ∧
        ∀ y ∈ x.uses, y.handles.contains (handleOf r.idx r.gen) = false)) ∧
  (∀ g a s e, Issues s e (.mrel g a) → ∃ t, exec (.mrel g a) s = .next t ∧ ∃ d, pond t e.pond.id = some d ∧
    let named (r : RSlot) : Prop := ∃ u ∈ e.active g, ∃ x, e.pond.slotOfHandle (e.src 0 u a) = some x ∧ x.idx = r.idx ∧ x.gen = r.gen
    (∀ r ∈ d.held, named r → r.stale = true) ∧ (∀ r ∈ e.pond.held, ¬named r → r.stale = false → r ∈ d.held) ∧ t.mops = s.mops)

/-- R213, R215 to R217: MSLOT, MLDA and MSTA past their checks put their operation in the matrix queue, a fresh one under the lowest index that
the pond does not hold; a pond that holds every slot answers MSLOT .alloc with 0; MSLOT .cnt writes 24 less the indices that the pond holds. When an
MLDA or an MSTA completes as a word, until when it is incomplete here, is the model's choice: R102 gives the moment for words that read their sources as
they issue (log 70). -/
def Obligations.MatrixQueueWords : Prop :=
  (∀ g d s e, Issues s e (.mslotAlloc g d) →
    (e.active g = [] ∨ Config.slotsPerCore ≤ e.pond.holds.length ∨ queueRoom s e.core 1 = true) →
    ∃ t, exec (.mslotAlloc g d) s = .next t ∧ (e.active g = [] → State.Issued e [] [] s t) ∧
      (Config.slotsPerCore ≤ e.pond.holds.length → Results t e g false d (fun _ => 0) ∧ t.mops = s.mops) ∧
      (e.active g ≠ [] → e.pond.holds.length < Config.slotsPerCore → e.iss.wid ∈ t.incomplete ∧ ∃ m, t.mops = s.mops ++ [m] ∧
        m.kind = .alloc ∧ m.pond = e.pond.id ∧ m.fresh = true ∧ m.started = false ∧ m.words = [e.iss.wid] ∧ m.dreg = (dstRange d 1).head? ∧
        (∀ r ∈ e.pond.holds, r.idx ≠ m.idx) ∧ ∀ j < m.idx, ∃ r ∈ e.pond.holds, r.idx = j)) ∧
  (∀ g d, Writes (.mslotCnt g d) false d (fun e _ v => loWord v = BitVec.ofNat 32 (24 - e.pond.holds.length))) ∧
  (∀ g a s e, Issues s e (.mslotZero g a) → (∀ u ∈ e.active g, (e.pond.slotOfHandle (e.src 0 u a)).isSome) →
    queueRoom s e.core (distinct ((e.active g).filterMap (fun u => e.pond.slotOfHandle (e.src 0 u a)))).length = true →
    ∃ t new, exec (.mslotZero g a) s = .next t ∧ t.mops = s.mops ++ new ∧
      (∀ m ∈ new, m.kind = .zero ∧ m.pond = e.pond.id ∧ m.started = false ∧ m.done = false) ∧
      ∀ u ∈ e.active g, ∀ r, e.pond.slotOfHandle (e.src 0 u a) = some r → ∃ m ∈ new, m.idx = r.idx ∧ m.gen = r.gen) ∧
  (∀ g obj d a b c (store : Bool) s e u0 us,
    let i : Instr := if store then .msta g obj a b c else .mlda g obj d a b c
    Issues s e i → e.active g = u0 :: us →
    let w := e.src 0 u0 b
    let regs (u : Thread) : List Nat := (List.range (if obj then 5 else 1)).map (fun k => (e.srcAt u c k).toNat)
    let addr := (regs u0).headD 0
    let slot := if store = false ∧ fwFresh w = true then none else e.pond.slotOfHandle (e.src 0 u0 a)
    (∀ u ∈ us, e.src 0 u a = e.src 0 u0 a ∧ e.src 0 u b = w ∧ regs u = regs u0) →
    (if store then mstaFormat w else mldaFormat w) = true →
    (store = false ∧ fwFresh w = true ∧ e.pond.holds.length < Config.slotsPerCore ∨
      (store = true ∨ fwFresh w = false) ∧ ∃ r, slot = some r ∧ (store = true → r.poisoned = false)) →
    (obj = false → addr % 16 = 0 ∧ addr + squareBytes w ≤ e.pond.size) →
    (obj = true → (∃ rec_, squareRecord s e (lowLane (u0 :: us)) w store (regs u0) = .ok rec_) ∧
      ∀ u ∈ e.active g, entryWaits s e u (addr % 2 ^ 16) = false) →
    queueRoom s e.core 1 = true →
    ∃ t m, exec i s = .next t ∧ t.mops.getLast? = some m ∧ t.mops.length = s.mops.length + 1 ∧ m.kind = (if store then .msta else .mlda) ∧
      m.pond = e.pond.id ∧ m.started = false ∧ m.done = false ∧ m.bad = false ∧ m.fmt = w ∧ m.wid = e.iss.wid ∧ m.words = [e.iss.wid] ∧
      e.iss.wid ∈ t.incomplete ∧ (obj = false → m.a = addr ∧ m.obj = none) ∧ (obj = true → m.obj.map Prod.snd = some ((regs u0).drop 1)) ∧
      (∀ r, slot = some r → m.idx = r.idx ∧ m.gen = r.gen) ∧ (slot = none → m.fresh = true ∧ (∀ r ∈ e.pond.holds, r.idx ≠ m.idx) ∧
        ∀ j < m.idx, ∃ r ∈ e.pond.holds, r.idx = j))

/-- R91, R211 to R213, R215 to R218: the first operation of a queue that may start does, an MMA on the lowest idle array and a fresh one with a slot of
its own. A running MMA gives each cell the chain of fused products in ascending k, rounded to nearest even at each step, its A operand a tile
or the converted rows of a slot; MSLOT .zero clears its slot; an MLDA takes the values of its tile; an MSTA stores the converted lines
of its slot; and a slot's flags gain those of the steps and the conversions. The down-converter rounds each element of a line under
its neighbours' hash, or encodes its blocks of 32 in a Kilulo format, and leaves FP32 alone. Two points are the model's choice: where an `.obj` square of a
Kilulo format at a coordinate inside a block stands (log 59), and that a word waits for its handle only until its operation starts or delivers (log 70). -/
def Obligations.MatrixOperations : Prop :=
  ((∀ s id m core, mop s id = some m → mopCore s m = some core → ((queued s core).find? (mayStart s core)).map MOp.id = some id →
    ∃ t, exec (.matrixOpStart id) s = .next t ∧
      (m.kind ≠ .alloc → t.mem = s.mem ∧ mop t id = some { m with
        started := true
        array := if m.kind = .mma then idleArray s core else none
        delivered := m.delivered || m.fresh
        words := if m.fresh = true ∧ m.delivered = false then [] else m.words }) ∧
      (m.fresh = true → m.delivered = false → ∀ d, pond t m.pond = some d → ∀ r ∈ d.held, r.idx = m.idx → r.gen = m.gen → r.phys = true)) ∧
  (∀ s id m d, Finishes s id m d → m.kind = .zero → ∃ t, exec (.matrixOpComplete id) s = .next t ∧ ∀ d', pond t m.pond = some d' →
    d'.scratch = d.scratch ∧ m.leaves d d' (fun _ r => r.data = .zero ∧ r.flags = 0))) ∧
  (∀ s id m d, Finishes s id m d → m.kind = .mma →
    let K := mmaK m.fmt m.k
    let chained (p : Nat × Nat) (i : Nat) := convertLine m.fmt ((slotData d p.1 p.2).line false i)
    let A (i k : Nat) : FVal := match m.src with
      | none => operandElem (fun x => byteAt d.scratch (m.a + x)) (fwA m.fmt) 128 K (fwTA m.fmt) i k
      | some p => (lineValues (fwA m.fmt) (chained p i).1 (chained p i).2.1).getD k .nan
    let B (k j : Nat) : FVal := operandElem (fun x => byteAt d.scratch (m.b + x)) (fwB m.fmt) K 128 (fwTB m.fmt) k j
    let start (i j : Nat) : Nat := if m.fresh then 0 else ((slotData d m.idx m.gen).cell (128 * i + j)).toNat
    let product (i j k acc : Nat) : FRes := fFma .rne (A i k) (B k j) (fvalue fp32 acc)
    let rounded (i j k acc : Nat) : Nat × FlagSet := roundTo fp32 .rne false false 0 (product i j k acc).v
    let after (i j n : Nat) : Nat := (List.range n).foldl (fun acc k => (rounded i j k acc).1) (start i j)
    (m.src.isSome = true → K ≤ 128) → ∃ t, exec (.matrixOpComplete id) s = .next t ∧ t.mem = s.mem ∧ mop t id = none ∧
      ∀ d', pond t m.pond = some d' → d'.scratch = d.scratch ∧ m.leaves d d' (fun r0 r =>
        (∀ i < 128, ∀ j < 128, (r.data.cell (128 * i + j)).toNat % 2 ^ 32 = after i j K % 2 ^ 32) ∧
        ∀ b, r.flags.getLsbD b = true ↔ r0.flags.getLsbD b = true ∨
          (∃ i < 128, ∃ j < 128, ∃ k < K, ((product i j k (after i j k)).fl.union (rounded i j k (after i j k)).2).code.getLsbD b = true) ∨
          ∃ p, m.src = some p ∧ ∃ i < 128, (chained p i).2.2.code.getLsbD b = true)) ∧
  (∀ s id m d, Finishes s id m d → m.kind = .mlda →
    (m.obj = none → ∃ t, exec (.matrixOpComplete id) s = .next t ∧ mop t id = none ∧ ∀ d', pond t m.pond = some d' → d'.scratch = d.scratch ∧
      m.leaves d d' (fun r0 r => r.flags = r0.flags ∧ ∀ i < 128, ∀ j < 128,
        let v (x y : Nat) : FVal := tileElem (fun k => byteAt d.scratch (m.a + k)) (fwA m.fmt) 128 128 x y
        r.data.cell (128 * i + j) = exactCode (if fwTA m.fmt then v j i else v i j))) ∧
    (∀ rec_ xs (hs : Nat → List EUnit), m.obj = some (rec_, xs) → (∀ r < 128, engineXlat s m.orig .load
        ((loadUnits rec_ m.fmt xs r).1 ++ (loadUnits rec_ m.fmt xs r).2) = .ok (hs r) ∧ ∀ u ∈ hs r, lineOf u.pa ∉ s.badLines) →
      let n (r : Nat) : Nat := (loadUnits rec_ m.fmt xs r).1.length
      let bs (r : Nat) : List (List Byte) := (hs r).map (engineBytes s m.orig m.owner)
      let v (r c : Nat) : FVal := (loadedRow m.fmt (xs.getD 0 0) ((bs r).take (n r)).flatten ((bs r).drop (n r)).flatten).getD c .nan
      ∃ t, exec (.matrixOpComplete id) s = .next t ∧ mop t id = none ∧ t.mem = s.mem ∧ ∀ d', pond t m.pond = some d' → d'.scratch = d.scratch ∧
        m.leaves d d' (fun r0 r => r.flags = r0.flags ∧ ∀ i < 128, ∀ j < 128,
          r.data.cell (128 * i + j) = exactCode (if fwTA m.fmt then v j i else v i j)))) ∧
  (∀ s id m d, Finishes s id m d → m.kind = .msta →
    let flags (r0 r : RSlot) : Prop := r.data = r0.data ∧
      ∀ b, r.flags.getLsbD b = true ↔ r0.flags.getLsbD b = true ∨ ∃ j < 128, (m.line d j).2.2.code.getLsbD b = true
    (m.obj = none → ∃ t, exec (.matrixOpComplete id) s = .next t ∧ mop t id = none ∧ t.mem = s.mem ∧ ∀ d', pond t m.pond = some d' →
      let tile := tileBytesOf (fwA m.fmt) (m.line d)
      tile.length = squareBytes m.fmt ∧ (∀ i < tile.length, byteAt d'.scratch (m.a + i) = tile.getD i 0 ∧
        (d'.gran ((m.a + i) / 16)).arrived.getLsbD ((m.a + i) % 16) = true) ∧
      (∀ x, ¬(m.a ≤ x ∧ x < m.a + tile.length) → byteAt d'.scratch x = byteAt d.scratch x) ∧ m.leaves d d' flags) ∧
    (∀ rec_ xs (hs : Nat → List EUnit), m.obj = some (rec_, xs) → stillOf s m.orig = none → (∀ r < 128, engineXlat s m.orig .store
        ((rowUnits rec_ m.fmt xs r).1 ++ (rowUnits rec_ m.fmt xs r).2) = .ok (hs r) ∧
        ∀ u ∈ hs r, u.leaf.cached = true ∧ (u.pa < Config.hostBase ∨ feature s 1 = false)) →
      let es (r : Nat) : List Byte := lineBytes (fwA m.fmt) (m.line d r).1
      let scales (r : Nat) : List Byte := (m.line d r).2.1.flatMap (fun p => [BitVec.ofNat 8 p.1, BitVec.ofNat 8 p.2])
      ∃ t, exec (.matrixOpComplete id) s = .next t ∧ mop t id = none ∧ t.mem = s.mem ∧
        t.slices.map (fun y => (y.addr, y.stored)) = s.slices.map (fun y => (y.addr, y.stored)) ++ (List.range 128).flatMap (fun r =>
          ((hs r).map EUnit.pa).zip (chunks (elemBytes (fwA m.fmt)) (es r).length (es r) ++ (scales r).map (fun b => [b]))) ∧
        ∀ d', pond t m.pond = some d' → d'.scratch = d.scratch ∧ m.leaves d d' flags)) ∧
  (∀ (w : Word) (line : List Word), line.length = 128 →
    let x (j : Nat) : FVal := fvalue fp32 (line.getD j 0).toNat
    let f := codeFmt (fwA w)
    let hash (j : Nat) : Nat := srHash (if j = 0 then 0 else discarded f (x (j - 1))) (if j + 1 < 128 then discarded f (x (j + 1)) else 0) j
    let one (j : Nat) : Nat × FlagSet := roundTo f (fwRnd w) false (fwSat w) (hash j) (x j)
    (fwA w = 6 → convertLine w line = (line.map BitVec.toNat, [], .none)) ∧
    (fwA w ≠ 6 → isKilulo (fwA w) = false → (convertLine w line).1.length = 128 ∧ (convertLine w line).2.1 = [] ∧
      (∀ j < 128, (convertLine w line).1[j]? = some (one j).1) ∧
      ∀ b, (convertLine w line).2.2.code.getLsbD b = true ↔ ∃ j < 128, (one j).2.code.getLsbD b = true) ∧
    (isKilulo (fwA w) = true → (∀ j < 128, (x j).exact) → KiluloLine w x (convertLine w line)) ∧
    (isKilulo (fwA w) = true → ∀ b < 4, (∃ j, j / 32 = b ∧ (x j = .nan ∨ fwSat w = false ∧ (x j).isInf = true)) →
      (convertLine w line).2.1[b]? = some (255, 255) ∧ ∀ j, j / 32 = b → (convertLine w line).1[j]? = some 0))

/-! ## Traps and the system words -/

/-- R232, R233, R336, R342, R343: a word that fails a check before its own traps and has no other effect; TRAP traps behind itself with its code, and its
threads find the frame's address in w0 in the handler. -/
def Obligations.TrapsAreTaken : Prop :=
  (∀ s e i tr, i.isEvent = false → s.cur.bind (envOf s) = some e → ready s e i = true → checks e i = some tr → Traps i s e tr) ∧
  (∀ g code s e, Issues s e (.trap g code) →
    (e.active g ≠ [] → Traps (.trap g code) s e ⟨0x0E, code.toNat, none, lowLane (e.active g)⟩) ∧
    (e.active g = [] → ∃ t, exec (.trap g code) s = .next t ∧ State.Issued e [] [] s t))

/-- R234, R344: ERET leaves handler mode: each thread takes its w0 and its address back from the frame, and a thread whose mask bit is clear goes to the
reform well of its address. -/
def Obligations.ReturnFromTrap : Prop :=
  ∀ s e g a bs, Issues s e (.eret g a) → e.active g ≠ [] → (∀ u ∈ e.active g, (e.src64 0 false u a).toNat = e.frame) →
    quietThreads s e.threads = true → frameWaits s e = false → frameBytes s e = .ok bs →
    let num (i n : Nat) : Nat := leNat ((bs.drop i).take n)
    let back (u : Thread) : Nat := num (96 + 8 * u.lane) 8
    let named (u : Thread) : Bool := (num 64 16).testBit u.lane
    (∀ u ∈ e.threads, back u % 16 = 0 ∧ e.launch.kernel.code ≤ back u ∧ back u < e.launch.kernel.code + e.launch.kernel.extent) →
    ∃ t, exec (.eret g a) s = .next t ∧ (Quiet s e → (((e.threads.filter named).map back).dedup.length ≤ 16) →
      t.mem = s.mem ∧ t.ponds = s.ponds ∧ ∀ u ∈ e.threads, Sole s u → ∃ x ∈ t.threads, x.ref = u.ref ∧ x.handler = false ∧ x.preds = u.preds ∧
        mapGet x.springs 0 = some (BitVec.ofNat 32 (num (1120 + 8 * u.lane) 8)) ∧
        mapGet x.springs 1 = some (BitVec.ofNat 32 (num (1120 + 8 * u.lane) 8 / 2 ^ 32)) ∧
        (named u = true → At t u.ref (back u)) ∧ (named u = false → x.place = .well .reform (back u)))

/-- R125, R128, R180, R186, R214, R220, R229, R234, R237, R341, R354, R356: privileged words, misaligned and non-canonical addresses, scratchpad
bounds (but for a lane of STSM with mask 0, log 56), invalid targets, a full or an empty return stack, an invalid handle and LAUNCH's operands trap under their causes in the lowest lane that
fails, and nothing is done in any thread; the traps of modulus slots stand in SlotsAndResidues, and the parking of a word of memory in
MemoryWordsIssueAccesses. -/
def Obligations.ChecksTrap : Prop :=
  (∀ e g a u us, staticCheck e.launch.kernel (.eret g a) = none → e.active g = u :: us → e.handling = false →
    checks e (.eret g a) = some ⟨0x0B, 2, some (e.src64 0 false u a).toNat, u.lane⟩) ∧
  (∀ e g a b, staticCheck e.launch.kernel (.objw g a b) = none → e.active g ≠ [] → e.ctx.rcd.objWr = false →
    checks e (.objw g a b) = some ⟨0x1E, opcodeOf (.objw g a b), none, lowLane (e.active g)⟩) ∧
  (∀ e g d a b, staticCheck e.launch.kernel (.spawn g d a b) = none → e.active g ≠ [] → e.still = true →
    checks e (.spawn g d a b) = some ⟨0x1D, opcodeOf (.spawn g d a b), none, lowLane (e.active g)⟩) ∧
  (∀ i r s e u, memRow i = some r → Issues s e i → r.masked = false →
    (e.active (guardOfInstr i)).find? (fun x => e.ea x r.a r.disp % r.n != 0) = some u → Traps i s e ⟨0x20, r.n, some (e.ea u r.a r.disp), u.lane⟩) ∧
  (∀ i r s e u, memRow i = some r → Issues s e i → r.masked = false → r.loc = false →
    (∀ x ∈ e.active (guardOfInstr i), e.ea x r.a r.disp % r.n = 0) →
    (e.active (guardOfInstr i)).find? (fun x => decide (2 ^ 57 ≤ e.ea x r.a r.disp)) = some u →
      Traps i s e ⟨0x23, r.acc.code + 256 * r.acc.need, some (e.ea u r.a r.disp), u.lane⟩) ∧
  (∀ i r s e u, spRow i = some r → Issues s e i → r.align = true →
    (e.active (guardOfInstr i)).find? (fun x => decide (((e.src 0 x r.a).toNat + r.disp.toInt) % (r.n : Int) ≠ 0)) = some u →
      Traps i s e ⟨0x20, r.n + 32, some (BitVec.ofInt 64 ((e.src 0 u r.a).toNat + r.disp.toInt)).toNat, u.lane⟩) ∧
  (∀ i r s e u, spRow i = some r → Issues s e i → (r.align = true → ∀ x ∈ e.active (guardOfInstr i), ((e.src 0 x r.a).toNat + r.disp.toInt) % (r.n : Int) = 0) →
    (e.active (guardOfInstr i)).find? (fun x => decide (r.pieces e x ≠ [] ∧ ((e.src 0 x r.a).toNat + r.disp.toInt < 0 ∨
      (e.pond.size : Int) < (e.src 0 x r.a).toNat + r.disp.toInt + r.n))) = some u →
      Traps i s e ⟨0x21, r.n + 2 ^ 32 * e.pond.size, some (BitVec.ofInt 64 ((e.src 0 u r.a).toNat + r.disp.toInt)).toNat, u.lane⟩) ∧
  (∀ i target s e u, targetOf i = some target → Issues s e i → ((∃ g, i = .ret g) → ∀ x ∈ e.active (guardOfInstr i), x.stack.length + x.spilled ≠ 0) →
    (e.active (guardOfInstr i)).find? (fun x => decide (target e x % 16 ≠ 0 ∨ target e x < e.codeBase ∨ e.codeBase + e.extent ≤ target e x)) = some u →
      Traps i s e ⟨0x0B, 0, some (target e u), u.lane⟩) ∧
  (∀ i target s e u, targetOf i = some target → ((∃ g off, i = .call g off) ∨ ∃ g a, i = .callx g a) → Issues s e i →
    (∀ x ∈ e.active (guardOfInstr i), e.targetOk (target e x)) →
    (e.active (guardOfInstr i)).find? (fun x => x.stack.length + x.spilled == 1024) = some u → Traps i s e ⟨0x0C, 1024, none, u.lane⟩) ∧
  (∀ g s e u, Issues s e (.ret g) → (e.active g).find? (fun x => x.stack.length + x.spilled == 0) = some u → Traps (.ret g) s e ⟨0x0D, 0, none, u.lane⟩) ∧
  (∀ i g a s e u, (i = .mwait g a ∨ i = .mslotZero g a) → Issues s e i →
    (e.active g).find? (fun x => (e.pond.slotOfHandle (e.src 0 x a)).isNone) = some u → Traps i s e ⟨0x1B, (e.src 0 u a).toNat, none, u.lane⟩) ∧
  (∀ g d a b s e u, Issues s e (.launch g d a b) → (∀ x ∈ e.active g, (e.src64 0 false x a).toNat % 64 = 0) →
    (e.active g).find? (fun x => decide (16 ≤ (e.src 0 x b).toNat)) = some u → Traps (.launch g d a b) s e ⟨0x08, b.code + 2 * 2 ^ 12, none, u.lane⟩)

/-- R86, R106, R225 to R227: SRR writes the special register that it names, %clock a count that never falls on its core; SRW writes %fflags of each
thread, or %hintmiss of the context on its core; of several values for %hintmiss that of the highest lane stays, by the model's choice (log 80). -/
def Obligations.SpecialRegisterWords : Prop :=
  (∀ g r d s e, Issues s e (.srr g r d) → (r = .clock → e.still = true) → ∃ t, exec (.srr g r d) s = .next t ∧
    Results t e g (wideSpecial r) d (fun u => BitVec.ofNat 64 (e.special s t u r)) ∧
    s.Keeps e (dstRange d (if wideSpecial r then 2 else 1)) [] false (e.acting g) t) ∧
  (∀ g d s e, Issues s e (.srr g .clock d) → e.still = false → ∃ t n, exec (.srr g .clock d) s = .next t ∧
    Results t e g true d (fun _ => BitVec.ofNat 64 n) ∧ s.Keeps e (dstRange d 2) [] false (e.acting g) { t with clock := s.clock } ∧
    (e.active g ≠ [] → (mapGet s.clock e.core).getD 0 ≤ n ∧ mapGet t.clock e.core = some n) ∧
    ∀ k, k ≠ e.core → mapGet t.clock k = mapGet s.clock k) ∧
  (∀ g a s e, Issues s e (.srw g .fflags a) → ∃ t, exec (.srw g .fflags a) s = .next t ∧ s.Keeps e [] [] true (e.acting g) t ∧
    ∀ u ∈ e.actors g, ∀ x ∈ t.threads, x.ref = u.ref → x.fflags = (e.src 0 u a).setWidth 5) ∧
  (∀ g a s e, Issues s e (.srw g .hintmiss a) → ∃ t, exec (.srw g .hintmiss a) s = .next t ∧ State.Issued e [] [] s t ∧
    ∀ u, (e.active g).getLast? = some u → hintsOf t e.ctx.rcd.id e.core = (e.src 0 u a).toNat)

/-- R175, R229 to R231, R237: SPAWN makes one thread for each active thread in the spawn well of its entry, as far as there is room, its entry formed in a
handler from HANDLER by the model's reading (log 17); LAUNCH appends records; ROUND holds its fragment in still mode only; MPOWQ and OBJQ start producers of a power and of table entries. -/
def Obligations.CreationWords : Prop :=
  (∀ g d a b s e, Issues s e (.spawn g d a b) →
    let act := e.active g
    let entry (u : Thread) : Nat := (e.codeBase + (e.src 0 u a).toNat) % 2 ^ 64
    act ≠ [] → (∀ u ∈ act, e.targetOk (entry u)) →
    (∀ u ∈ act, fenced s .rel .pd u.ref = true) →
    ∃ t olds kids id, ∃ vals : List (TRef × Nat), exec (.spawn g d a b) s = .next t ∧ t.threads = olds ++ kids ∧
      vals.map Prod.fst = act.map Thread.ref ∧
      State.Issued e (dstRange d 1) (act.map Thread.ref) { s with
        ops := s.ops ++ [e.producer id d 1 none (vals.map (fun v => ⟨v.1, (leBytes 4 v.2).map some⟩))]
        incomplete := s.incomplete ++ [e.iss.wid]
        nextId := t.nextId } { t with threads := olds } ∧
      (kids.map Thread.tid).Nodup ∧ (∀ v ∈ vals, v.2 = 0xFFFFFFFF ∨ ∃ k ∈ kids, k.tid = v.2) ∧
      (∀ k ∈ kids, k.tid < 8192 ∧ (∀ x ∈ s.threads, x.blk = e.block.id → x.tid ≠ k.tid) ∧ ∃ u ∈ act, (u.ref, k.tid) ∈ vals ∧
        k = newChild e k.tid (entry u) k.entry (e.src 0 u b) ∧ k.place = .well .spawn (entry u) ∧ k.springs = [(0, e.src 0 u b)] ∧
        k.preds = 0 ∧ k.fflags = 0 ∧ k.retired = 0 ∧ k.stack = [] ∧ k.spilled = 0) ∧
      (∀ u n, act = [u] → residents s e.core < Config.threadsPerCore → n < 8192 → (∀ x ∈ s.threads, x.blk = e.block.id → x.tid ≠ n) →
        (∀ m < n, ∃ x ∈ s.threads, x.blk = e.block.id ∧ x.tid = m) → kids.map Thread.tid = [n])) ∧
  (∀ g d a b s e hs, Issues s e (.launch g d a b) →
    let act := e.active g
    act ≠ [] → (∀ u ∈ act, (e.src64 0 false u a).toNat % 64 = 0 ∧ (e.src 0 u b).toNat < 16) →
    checkFatal s (some e.lake) e.ctx true (act.map (fun u => ⟨u.lane, (e.src64 0 false u a).toNat, 64, .load, false, false⟩)) = .ok hs →
    (∀ h ∈ hs, lineOf h.1 ∉ s.badLines) → (∀ u ∈ act, fenced s .rel .sy u.ref = true) → actsReady s e (act.zip (hs.map Prod.snd)) = true →
    (e.still = false → ∃ t id, ∃ vals : List (TRef × Nat), exec (.launch g d a b) s = .next t ∧ vals.map Prod.fst = act.map Thread.ref ∧
      (∀ v ∈ vals, v.2 < 2 ^ 32) ∧ t.ops = s.ops ++ [e.producer id d 1 none (vals.map (fun v => ⟨v.1, (leBytes 4 v.2).map some⟩))] ∧
      ∀ u h, act = [u] → hs = [h] →
        let s' := flushCtx s e.ctx.rcd.id
        let r := appendRecord s' e.ctx (e.src 0 u b).toNat (e.ownBytes s' (e.src64 0 false u a).toNat h.1 h.2 64)
        vals = [(u.ref, r.1)] ∧ t.mem = r.2.mem) ∧
    (e.still = true → bufferUsed e.block + act.length ≤ Config.roundEntries → ∃ t blk new id, exec (.launch g d a b) s = .next t ∧
      let s' := e.syncHost s act
      t.ops = s.ops ++ [e.producer id d 1 none (act.map (fun u => ⟨u.ref, List.replicate 4 none⟩))] ∧ t.mem = s'.mem ∧
      block t e.block.id = some blk ∧ blk.buffer = e.block.buffer.map (BufEntry.released (e.acting g)) ++ new ∧
      new.map (fun x => (x.bytes, x.launch)) = (act.zip hs).map (fun p =>
        (stillBytes s' e.launch e.block p.2.2.cached (e.src64 0 false p.1 a).toNat p.2.1 64, some (e.src 0 p.1 b).toNat)))) ∧
  (∀ s c q bs h, areaRead s c (hdrAddr c q) 64 = .ok h →
    ((leNat h).testBit 83 = false ∨ (leNat h).testBit 82 = false ∨ 2 ^ hdrLog2 (leNat h) ≤ diff32 (hdrTail (leNat h)) (hdrDone (leNat h))) →
    appendRecord s c q bs = (0xFFFFFFFF, s)) ∧
  (∀ g s e, Issues s e (.round g) → ∃ t, exec (.round g) s = .next t ∧ (e.still = false ∨ e.active g = [] → State.Issued e [] [] s t) ∧
    (e.still = true → e.active g ≠ [] → State.Issued e [] [] { s with incomplete := s.incomplete ++ [e.iss.wid] } t ∧
      ∃ f ∈ t.frags, f.ref = e.frag.ref ∧ f.hold = .round (e.acting g) e.waiter)) ∧
  (∀ g k d a b s e, Issues s e (.mpowq g k d a b) → e.active g ≠ [] → ∃ t id, exec (.mpowq g k d a b) s = .next t ∧
    let n := if e.modWide g k then 2 else 1
    State.Issued e (dstRange d n) (e.acting g) { s with
      ops := s.ops ++ [e.producer id d n none ((e.active g).map (fun u => ⟨u.ref,
        (leBytes (4 * n) ((e.residueSrc g k u a).toNat ^ (e.residueSrc g k u b).toNat % (e.slot k u).q.toNat)).map some⟩))]
      incomplete := s.incomplete ++ [e.iss.wid]
      nextId := t.nextId } t) ∧
  (∀ g d a s e (val : Thread → Nat), Issues s e (.objq g d a) → e.active g ≠ [] →
    (∀ u ∈ e.active g, readEntry s e u.lane ((e.src 0 u a).toNat % 2 ^ 16) = .ok (val u)) →
    (∀ u ∈ e.active g, entryWaits s e u ((e.src 0 u a).toNat % 2 ^ 16) = false) → ∃ t id, exec (.objq g d a) s = .next t ∧
      State.Issued e (dstRange d 16) (e.acting g) { s with
        ops := s.ops ++ [e.producer id d 16 none ((e.active g).map (fun u => ⟨u.ref, (leBytes 64 (val u)).map some⟩))]
        incomplete := s.incomplete ++ [e.iss.wid]
        nextId := t.nextId } t)

/-- R116, R117, R235, R237 to R239, R262: SWAPC replaces words and OBJW table entries, in ascending lane, so that the highest lane's value stays; SWAPC
and ICINV leave no decoded word and no translation of their ranges; XLINV drops cached translations and holds its fragment until what was
translated under them is at home. These points are the model's: SWAPC's range in a handler (log 26), an OBJW of any record that it finds valid (log 27), that
SWAPC and OBJW store at once in a still kernel too, behind their threads' buffered stores (log 74), that ICINV there does not wait for the commit, which drops
its ranges once more (log 72), that XLINV waits for the writes of round buffers too (log 75), and a special operand as a base (log 9). -/
def Obligations.CodeAndTableWords : Prop :=
  (∀ i g a b (obj : Bool) s e hs, i = (if obj then .objw g a b else .swapc g a b) → Issues s e i →
    let act := e.active g
    let va (u : Thread) : Nat := if obj then entryAddr e.ctx ((e.src 0 u a).toNat % 2 ^ 16) else (e.src64 0 false u a).toNat
    let n := if obj then 64 else 16
    let bytes (u : Thread) : List Byte := (List.range (n / 4)).flatMap (fun k => word32Bytes (e.srcAt u b k))
    let rs : List MemReq := act.map (fun u => ⟨u.lane, va u, n, .store, false, false⟩)
    (obj = false → ∀ u ∈ act, e.targetOk (va u)) → (obj = true → ∀ u ∈ act, shapeV (e.recordOf u b) = true → shapeValid (e.recordOf u b) = true) →
    (if obj then checkMem s (some e.lake) e.ctx false rs else checkFatal s (some e.lake) e.ctx true rs) = .ok hs →
    (∀ h ∈ hs, lostTo s h.1 = false) → actsReady s e (act.zip (hs.map Prod.snd)) = true → ∃ t, exec i s = .next t ∧ (s.slices = [] →
      State.Issued e [] [] { s with
        mem := t.mem
        lineTag := t.lineTag
        hostLines := t.hostLines
        peerLines := t.peerLines
        launches := t.launches
        blocks := t.blocks
        host := t.host
        icache := t.icache
        ctxs := t.ctxs } t ∧ Untouched s t (among (hs.map Prod.fst) n) ∧ Mirrored (among (hs.map Prod.fst) n) s.launches t.launches ∧
      BuffersCut e.block.id (· ∈ e.acting g) s.blocks t.blocks ∧ PeersOwned e.lake (fun k => ∃ h ∈ hs, k = lineOf h.1) s.peerLines t.peerLines ∧
      CodeDropped s t e.ctx.rcd.id (if obj then [] else act.map (fun u => (va u, 16))) ∧
      ∀ l p r k, act.zip hs = l ++ p :: r → k < n → (∀ q ∈ r, ¬(q.2.1 ≤ p.2.1 + k ∧ p.2.1 + k < q.2.1 + n)) →
        p.2.1 + k < Config.hostBase → s.hostLinesOk → homeByte t (p.2.1 + k) = (bytes p.1).getD k 0)) ∧
  (∀ g a b s e, Issues s e (.icinv g a b) → (∀ u ∈ e.active g, fenced s .rel .sy u.ref = true) → ∃ t, exec (.icinv g a b) s = .next t ∧
    let rs := ((e.active g).map (fun u => ((e.src64 0 false u a).toNat, (e.src 0 u b).toNat))).filter (fun r => r.2 != 0)
    State.Issued e [] [] { s with
      mem := t.mem
      hostLines := t.hostLines
      blocks := t.blocks
      launches := t.launches
      icache := t.icache
      ctxs := t.ctxs } t ∧ (s.hostLinesOk → ∀ x, homeByte t x = homeByte s x) ∧
    (e.still = false ∨ e.active g = [] → t.blocks = s.blocks ∧ t.launches = s.launches) ∧
    (e.still = true → e.active g ≠ [] → ∃ s1, RoundReleased e (e.acting g) s s1 ∧ t.blocks = s1.blocks ∧
      t.launches = s1.launches.map (fun l => if l.id = e.launch.id then { l with icinvs := l.icinvs ++ rs } else l)) ∧
    CodeDropped s t e.ctx.rcd.id rs ∧
    (e.active g ≠ [] → ∀ h ∈ t.hostLines, e.ctx.rcd.id ∈ h.ctxs → h.dirty = false)) ∧
  (∀ i g rs all s e, ((∃ a b, i = .xlinvRng g a b ∧ all = false ∧
        rs = ((e.active g).map (fun u => ((e.src64 0 false u a).toNat, (e.src 0 u b).toNat))).filter (fun r => r.2 != 0)) ∨
      (i = .xlinvAll g ∧ all = true ∧ rs = [])) → Issues s e i →
    ∃ t, exec i s = .next t ∧ ((all = false ∧ rs = []) ∨ e.active g = [] → State.Issued e [] [] s t) ∧
      (e.active g ≠ [] → (all = true ∨ rs ≠ []) → ∃ v, t.invals = s.invals ++ [v] ∧ v.ctx = e.ctx.rcd.id ∧ v.ranges = rs ∧ v.all = all ∧
        v.acked = false ∧ v.host = false ∧
        State.Issued e [] [] { s with
          tlb := t.tlb
          copies := t.copies
          invals := t.invals
          incomplete := s.incomplete ++ [e.iss.wid]
          nextId := t.nextId } t ∧
        List.Forall₂ (fun (c c' : Copy) => c' = c ∨ (c.got = [] ∧ c' = { c with pa := none, leaf := none })) s.copies t.copies ∧
        (∃ f ∈ t.frags, f.ref = e.frag.ref ∧ f.hold = .inval v.id e.waiter) ∧
        (∀ x, x ∈ t.tlb ↔ x ∈ s.tlb ∧ ¬((x.ctx = e.ctx.rcd.id ∨ x.leaf.glob = true) ∧ (all = true ∨ ∃ r ∈ rs,
          x.leaf.page * x.leaf.size < r.1 + r.2 ∧ r.1 < x.leaf.page * x.leaf.size + x.leaf.size))) ∧
        let meant (c a : Nat) : Prop := (all = true ∧ c = e.ctx.rcd.id) ∨ ∃ r ∈ rs, r.1 ≤ a ∧ a < r.1 + r.2
        (∀ y ∈ s.accs ++ s.slices, y.space = .mem → meant y.orig.ctx y.va → y.id ∈ v.waits) ∧
        (∀ c ∈ s.copies, c.got ≠ [] → meant c.orig.ctx c.va → c.id ∈ v.copies ∧ c.wid ∈ v.writers) ∧
        ∀ b ∈ s.blocks, ∀ l, launch s b.launch = some l → ∀ x ∈ b.buffer, x.launch = none → meant l.ctx x.va → x.seq ∈ v.waits))

/-! ## The events of the device -/

/-- R44 to R47, R53, R117, R228: the draws that stand before a pond are those set already, then those of its wells that are full or have aged, or in a
quiescent pond of every well, in ascending address and launch before spawn before reform; in still mode only quiescence draws. The first one
makes a pool of its threads, the well's lowest up to the grant, under the lowest free pool number, with one fragment at the well's key, and
leaves the others set; its threads keep everything but their place, and those that a SETW left waiting get the grant. A well ages but once,
and never in still mode. That the draws of a pond are set together with the first one, so that no thread that comes later joins them, is the
model's reading (log 65). -/
def Obligations.PoolsAreDrawn : Prop :=
  (∀ (s : State) (a : DrawAt), (∃ more, drawsDue s a = a.d.draining ++ more) ∧ (a.d.draining = [] → 0 < a.d.grant →
    (∀ kind key, wellThreads s a.d.id kind key ≠ [] → let stands : Prop := ∃ w ∈ drawsDue s a, w.kind = kind ∧ w.key = key
      (a.l.kernel.still = false → (stands ↔ a.d.grant ≤ (wellThreads s a.d.id kind key).length ∨ (kind, key) ∈ a.d.expired ∨
        quiescent s a.d.id = true)) ∧
      (a.l.kernel.still = true → (stands ↔ quiescent s a.d.id = true))) ∧
    (drawsDue s a).Pairwise (fun x y => x.key < y.key ∨ (x.key = y.key ∧ wellOrder x.kind ≤ wellOrder y.kind)) ∧
    ∀ w, (drawsDue s a).head? = some w → w.tids = ((wellThreads s a.d.id w.kind w.key).take a.d.grant).map Thread.tid)) ∧
  (∀ (s : State) pd (a : DrawAt) (w : Draw), drawAt s pd = some a → (drawsDue s a).head? = some w →
    let ts := (wellThreads s a.d.id w.kind w.key).filter (fun u => decide (u.tid ∈ w.tids))
    (∀ u ∈ ts, u.place = .well w.kind w.key) ∧ ts.Pairwise (fun u v => u.tid ≤ v.tid) ∧ a.num < 64 ∧ a.num ∉ usedPools s a.core ∧
      (∀ m < a.num, m ∈ usedPools s a.core) ∧ ∃ t id recNo, exec (.poolDraw pd w.kind w.key) s = .next t ∧
      ((∀ u ∈ ts, u.setw = none) →
        (∃ f, t = { s with
            threads := t.threads
            frags := s.frags ++ [f]
            pools := s.pools ++ [⟨id, a.num, recNo, a.d.id, a.d.grant, [], [], [], none, 0⟩]
            ponds := t.ponds
            nextId := t.nextId } ∧ f.ref = ⟨id, 0⟩ ∧ f.pc = w.key ∧ f.hist = [] ∧ f.hold = .free ∧ f.transl = safePoint a.c w.key) ∧
        (∀ n u, ts[n]? = some u → Sole s u → { u with place := .lane id 0 n } ∈ t.threads) ∧
        (∀ u ∈ s.threads, (∀ x ∈ ts, x.ref ≠ u.ref) → u ∈ t.threads) ∧
        List.Forall₂ (fun (d d' : Pond) => d' = { d with expired := d'.expired, draining := d'.draining } ∧ (d.id ≠ a.d.id → d' = d) ∧
          (d.id = a.d.id → d'.draining = (drawsDue s a).tail ∧ (w.kind, w.key) ∉ d'.expired)) s.ponds t.ponds) ∧
      (∀ w', (∀ u ∈ ts, u.setw = some w' ∧ Sole s u ∧ ∀ m ∈ u.marks, m.reg = w'.reg → m.wid = w'.wid → m.dead = false) →
        ∀ u ∈ ts, ∃ x ∈ t.threads, x.ref = u.ref ∧ x.setw = none ∧ resolve (pool t id) a.d x w'.reg .res = BitVec.ofNat 32 a.d.grant)) ∧
  (∀ (s : State) pd kind key (d : Pond), pond s pd = some d → d.core.isSome = true →
    (∀ b l, block s d.blk = some b → launch s b.launch = some l → l.kernel.still = false) → (kind, key) ∉ d.expired → d.unset s kind key ≠ [] →
    exec (.wellAgeExpiry pd kind key) s = .next { s with
      ponds := s.ponds.map (fun x => if x.id = pd then { x with expired := x.expired ++ [(kind, key)] } else x) }) ∧
  (∀ (s : State) pd kind key (d : Pond) b l, pond s pd = some d → block s d.blk = some b → launch s b.launch = some l → l.kernel.still = true →
    exec (.wellAgeExpiry pd kind key) s = .fault .notEnabled)

/-- R40, R43, R249, R277, R243, R283, R285, R286, R288, R290, R292, R294: a doorbell gives a host's queue its new TAIL and is ignored otherwise; the record
at HEAD starts its launch with the figures that it holds, or fails with one record; a block is admitted in the lowest free slot, with its
threads numbered from 0; a pond is released once it has no thread, no operation, and no command that writes it or has still to read it
but those that wait on its empty granules; a launch whose blocks have gone completes, and DONE and STEP rise; a round commits with its
buffers empty and its fragments free, memory then holding its writes in round order, the last one over each byte. A translation is installed
with the safe points (R117) of the code as it stands then, the word behind a CALLX among them, by the model's reading (log 17). -/
def Obligations.LaunchesRun : Prop :=
  (∀ s c q tail, ∃ t, exec (.doorbell c q tail) s = .next t ∧ t.threads = s.threads ∧ Mirrored (fun _ => True) s.launches t.launches ∧ ∀ x, ctx s c = some x →
    let h := header s x q
    let ok : Prop := s.host.go = true ∧ q < 16 ∧ h.testBit 82 = false ∧ diff32 (hdrTail h) (hdrDone h) ≤ diff32 tail.toNat (hdrDone h) ∧
      diff32 tail.toNat (hdrDone h) ≤ 2 ^ hdrLog2 h
    (¬ok → t = s) ∧ ∀ base, ok → AreaAt s x false (hdrAddr x q + 16) 4 base →
      homeValue t base 4 = tail.toNat ∧ Mirrored (fun a => base ≤ a ∧ a < base + 4) s.launches t.launches ∧
      Untouched s t (fun a => base ≤ a ∧ a < base + 4)) ∧
  (∀ s c q x h r, StartsAt s c q x h r → unreadCond s x q r = none → (∀ w ∈ conditions r, condMet s x q w = true) →
    (∀ l, startChecks s x q h r = .ok l → (∃ t ls l', exec (.launchStart c q) s = .next t ∧ Mirrored (fun _ => True) s.launches ls ∧ t.launches = ls ++ [l'] ∧ t.blocks = s.blocks ∧
        t.threads = s.threads ∧ t.ponds = s.ponds ∧ l' = { l with unread := l'.unread } ∧
        (l.kernel.gen = 0 ∨ l.kernel.gen = 4 → l'.unread = l.unread)) ∧
      l.ctx = c ∧ l.queue = q ∧ l.gx = r / 2 ^ 128 % 2 ^ 31 ∧ l.gy = r / 2 ^ 160 % 2 ^ 16 ∧ l.gz = r / 2 ^ 176 % 2 ^ 16 ∧
      l.bsize = r / 2 ^ 192 % 2 ^ 14 ∧ 0 < l.gx * l.gy * l.gz ∧ 0 < l.bsize ∧ l.bsize ≤ 8192 ∧ l.coop = r.testBit 206 ∧ l.next = 0 ∧ l.lakes ≠ [] ∧
      (l.started = false ↔ l.coop = true ∨ l.kernel.still = true) ∧ l.kernel.code % 16 = 0 ∧ 0 < l.kernel.regs ∧ l.kernel.regs ≤ 768) ∧
    (∀ f, startChecks s x q h r = .error f → ∃ t, exec (.launchStart c q) s = .next t ∧ Mirrored (fun _ => True) s.launches t.launches ∧ t.threads = s.threads ∧
      nextSeq t c = nextSeq s c + 1)) ∧
  (∀ s c q x h r, StartsAt s c q x h r → unreadCond s x q r = none → (∃ w ∈ conditions r, condMet s x q w = true ∧ (q, w.1) ∉ x.met) →
    ∃ t, exec (.waitConditionReread c q) s = .next t ∧ t = { s with ctxs := t.ctxs } ∧ ∃ y, ctx t c = some y ∧ y = { x with met := y.met } ∧
      ∀ w ∈ conditions r, condMet s x q w = true → (q, w.1) ∈ y.met) ∧
  (∀ s l c p, Serves s l c → l.started = true → pickBlock s c l = some p → ∃ t b, exec (.blockAdmit l.id) s = .next t ∧ t.blocks = s.blocks ++ [b] ∧
    b.launch = l.id ∧ b.lin = p.lin ∧ (b.bx, b.byy, b.bz) = (p.lin % l.gx, p.lin / l.gx % l.gy, p.lin / (l.gx * l.gy)) ∧ b.slot = p.slot ∧
    b.lake = some p.lake ∧ b.halt = none ∧ b.buffer = [] ∧ t.mem = s.mem ∧ mapGet t.lastQueue l.ctx = some l.queue ∧
    t.threads.map Thread.ref = s.threads.map Thread.ref ++ (List.range l.bsize).map (fun n => ⟨b.id, n⟩) ∧
    (l.again = [] → p.lake = l.lakeOf p.lin ∧ p.slot < c.rcd.bslots ∧ p.slot ∉ slotsHeld s c.rcd.id ∧ ∀ n < p.slot, n ∈ slotsHeld s c.rcd.id)) ∧
  (∀ s l c g, Serves s l c → l.started = false → pickGroup s c l = some g → ∃ t, exec (.blockAdmit l.id) s = .next t ∧ t.mem = s.mem ∧
    t.blocks.map Block.lin = s.blocks.map Block.lin ++ List.range l.resident) ∧
  (∀ s pd (d : Pond), pond s pd = some d → (∀ u ∈ s.threads, u.pond ≠ pd) → (∀ c ∈ s.copies, pd ∉ c.dests ∧
      (c.pond = pd → c.toScratch = true ∨ c.got.length = c.n ∨ ∃ p ∈ starvedCopies s d.blk, p.1.id = c.id)) →
    (∀ m ∈ s.mops, m.pond = pd → m.done = true) → ∃ t, exec (.pondRelease pd) s = .next t ∧ t.threads = s.threads ∧ t.mem = s.mem ∧
      (∀ x ∈ t.ponds, x.id ≠ pd) ∧ (∀ x ∈ s.ponds, x.id ≠ pd → x ∈ t.ponds) ∧
      ((∀ x ∈ s.ponds, x.id ≠ pd → x.blk ≠ d.blk) → (∀ b l, block s d.blk = some b → launch s b.launch = some l → l.kernel.still = false) →
        ∀ x ∈ t.blocks, x.id ≠ d.blk)) ∧
  (∀ s l c, launch s l.id = some l → ctx s l.ctx = some c → atWork s = true → launchDone s l = true → ∃ t, exec (.launchComplete l.id) s = .next t ∧
    t.threads = s.threads ∧ Mirrored (fun _ => True) (s.launches.filter (fun x => x.id != l.id)) t.launches ∧
    (∃ y, ctx t l.ctx = some y ∧ y.rcd = { c.rcd with step := (c.rcd.step + 1) % 2 ^ 32 }) ∧
    ∀ base, (∀ h ∈ s.hostLines, l.ctx ∈ h.ctxs → h.dirty = false) → AreaAt s c false (hdrAddr c l.queue + 24) 4 base →
      homeValue t base 4 = (hdrDone (header s c l.queue) + 1) % 2 ^ 32) ∧
  (∀ s l c, launch s l.id = some l → ctx s l.ctx = some c → atWork s = true → c.running = true → c.stalled = false → mayCommit s l = true →
    ∃ t, exec (.roundCommit l.id) s = .next t ∧ (∃ l', launch t l.id = some l' ∧ l'.round = l.round + 1 ∧ l'.touched = [] ∧ l'.icinvs = []) ∧
      (∀ b ∈ t.blocks, b.launch = l.id → b.buffer = [] ∧ b.images = []) ∧
      (∀ f ∈ t.frags, ∀ e, envAt t f.ref = some e → e.launch.id = l.id → ∀ ts w, f.hold ≠ .round ts w) ∧
      ∀ base, PlainRound s l c base → homeValue t base 4 = (l.round + 1) % 2 ^ 32 ∧ ∀ a, ¬(base ≤ a ∧ a < base + 4) →
        ((∀ y ∈ roundWrites s l, ¬y.alters a) → byteAt t.mem a = byteAt s.mem a) ∧
        (∀ pre x post, roundWrites s l = pre ++ x :: post → x.atom = none → x.alters a → (∀ y ∈ post, ¬y.alters a) →
          byteAt t.mem a = x.bytes.getD (a - x.pa) 0)) ∧
  (∀ (s : State) c lo hi, (ctx s c = none → exec (.translationInstall c lo hi) s = .next s) ∧
    ∀ x, ctx s c = some x → ∃ safe, exec (.translationInstall c lo hi) s = .next { s with
        ctxs := s.ctxs.map (fun y => if y.rcd.id = c then { y with transl := y.transl ++ [⟨lo, hi, safe⟩] } else y) } ∧
      (∀ p ∈ safe, lo ≤ p ∧ p < hi ∧ ∃ a, leadsTo s x a p) ∧
      ∀ a p, lo % 16 = 0 → hi % 16 = 0 → a % 16 = 0 → lo ≤ a → a < hi → leadsTo s x a p → lo ≤ p → p < hi → p ∈ safe)

/-- R262, R280, R295, R297, R338, R339, R358, R359: a context that is pre-empted runs no more and stands on no core; one that resumes runs with its new
record, each of its blocks in one usable lake or still out, and what it has parked becomes due; what is parked replays; an acknowledged
invalidation frees its fragment or the host and clears the outstanding pages; held records go to the fault queue in their order, each
with its SEQ, and raise the context's vector. -/
def Obligations.ContextsSwitchAndReplay : Prop :=
  (∀ (s : State) c, ∃ t, exec (.contextPreempt c) s = .next t ∧ ((∀ x, ctx s c = some x → x.running = false) → t = s) ∧
    ∀ x, ctx s c = some x → x.running = true → ∃ y, ctx t c = some y ∧ y.running = false ∧ y.switchAsked = false ∧
      ∀ d ∈ t.ponds, ∀ b, block t d.blk = some b → ∀ l, launch t b.launch = some l → l.ctx = c → d.core = none) ∧
  (∀ (s : State) (record : BitVec 2048), let r := ctxRecOf record
    ∃ t, exec (.contextResume record) s = .next t ∧ (s.host.go = false ∨ (∃ x, ctx s r.id = some x ∧ x.running = true) → t = s) ∧
      (s.host.go = true → ctx s r.id = none → (∀ l ∈ s.launches, l.ctx ≠ r.id) → t.threads = s.threads ∧ t.mem = s.mem ∧ ∃ y, ctx t r.id = some y ∧
        y.rcd = r ∧ y.running = true ∧ y.stalled = false ∧ y.seq = 0 ∧ y.held = [] ∧ y.pages = []) ∧
      (∀ x, s.host.go = true → ctx s r.id = some x → x.running = false →
        (∃ y, ctx t r.id = some y ∧ y.rcd = r ∧ y.running = true) ∧
        (∀ what page due, parkedAt t what = some (r.id, page, due) → due = true) ∧
        ((s.ponds.map Pond.id).Nodup → (s.blocks.map Block.id).Nodup →
          (∀ b ∈ s.blocks, ∀ l, launch s b.launch = some l → l.ctx = r.id → b.lake = none ∧ ∀ d ∈ s.ponds, d.blk = b.id → d.core = none) →
          ∀ b ∈ t.blocks, ∀ l, launch t b.launch = some l → l.ctx = r.id →
            (b.lake = none ∧ ∀ d ∈ t.ponds, d.blk = b.id → d.core = none) ∨
            ∃ k ∈ usableLakes s { x with rcd := r }, b.lake = some k ∧
              ∀ d ∈ t.ponds, d.blk = b.id → ∃ core, d.core = some core ∧ Config.lakeOf core = k ∧ core ∉ s.badCores))) ∧
  (∀ (s : State) what c page, parkedAt s what = some (c, page, false) → (∃ x, ctx s c = some x ∧ x.running = true) →
    ∃ t, exec (.parkedReplayTimer what) s = .next t ∧ parkedAt t what = some (c, page, true) ∧
      t = { s with
        frags := t.frags
        copies := t.copies
        mops := t.mops }) ∧
  (∀ (s : State) what c page v, v ∈ s.invals → v.acked = true → what ∈ v.replays → parkedAt s what = some (c, page, false) →
    ∃ t, exec (.parkedReplay what) s = .next t ∧ parkedAt t what = some (c, page, true) ∧
      t = { s with
        invals := t.invals
        frags := t.frags
        copies := t.copies
        mops := t.mops }) ∧
  (∀ (s : State) id v, s.invals.find? (fun x => x.id == id && !x.acked) = some v → (∀ y ∈ s.accs ++ s.slices, y.id ∉ v.waits) →
    (∀ y ∈ s.copies, y.id ∉ v.copies) → (∀ b ∈ s.blocks, ∀ y ∈ b.buffer, y.seq ∉ v.waits ∧ y.seq ∉ v.copies) →
    (∀ y ∈ s.slices, y.wid ∉ v.writers) → ∃ t, exec (.invalidationAck id) s = .next t ∧
      t = { s with
        mem := t.mem
        hostLines := t.hostLines
        ctxs := t.ctxs
        invals := t.invals
        host := if v.host then { s.host with shooting := false } else s.host
        frags := t.frags
        incomplete := t.incomplete } ∧ (∀ x ∈ t.invals, x.id = id → x.acked = true) ∧
      (∀ f ∈ t.frags, ∀ w, f.hold ≠ .inval id w) ∧
      (s.hostLinesOk → ∀ a < Config.hostBase, byteAt t.mem a = byteAt s.mem a) ∧ (∀ h ∈ t.hostLines, h.dirty = false) ∧
      List.Forall₂ (fun (x y : Ctx) => y = { x with
          pages := y.pages
          priv := y.priv
          hdrs := y.hdrs
          privGaps := y.privGaps
          hdrGaps := y.hdrGaps } ∧ (x.rcd.id ≠ v.ctx → y = x) ∧
        (x.rcd.id = v.ctx → ∀ p, p ∈ y.pages ↔ p ∈ x.pages ∧ v.covers p = false)) s.ctxs t.ctxs) ∧
  (∀ (s : State) c x (base : Nat → Nat), ctx s c = some x → x.running = true → x.held ≠ [] →
    (∀ i < x.held.length, ∀ j < x.held.length, i ≠ j → base i + 64 ≤ base j ∨ base j + 64 ≤ base i) →
    (∀ i < x.held.length, ∀ y : State, y = { s with
        mem := y.mem
        lineTag := y.lineTag
        launches := y.launches
        ctxs := y.ctxs
        host := { s.host with msix := y.host.msix } } → (∀ a, (∀ j < i, ¬(base j ≤ a ∧ a < base j + 64)) → byteAt y.mem a = byteAt s.mem a) →
      let z := { x with
        held := x.held.drop i
        seq := x.seq + i }
      (∃ bs, areaRead y z (fqSlot x (x.seq + i)) 8 = .ok bs ∧ (leNat bs).testBit 15 = false) ∧ AreaAt y z true (fqSlot x (x.seq + i)) 64 (base i)) →
    let out (a : Nat) : Prop := ∃ i < x.held.length, base i ≤ a ∧ a < base i + 64
    ∃ t, exec (.faultQueueRetry c) s = .next t ∧
      (∀ i r, x.held[i]? = some r → homeBytes t (base i) 64 = leBytes 64 (r.raw.toNat + 2 ^ 64 * ((x.seq + i) % 2 ^ 64))) ∧
      Untouched s t out ∧ Mirrored out s.launches t.launches ∧
      (∃ y, ctx t c = some y ∧ y = { x with
        held := []
        seq := x.seq + x.held.length }) ∧
      t.host = { s.host with msix := s.host.msix ++ List.replicate x.held.length (c % 64) } ∧ t.threads = s.threads ∧ t.frags = s.frags)

/-- R363 to R365, R371, R372: in a stuck block the commands and operations that wait on empty granules are abandoned, and a fragment that waits in an LDS or
ATOMS is to stop with cause 0x41, and the word is given up in all its threads (log 66); a reservoir deadlock abandons the youngest fresh operation; a halt broadcast reaches
one core after the other, and once every fragment has stopped each one that no trap has stopped writes a record. -/
def Obligations.StuckAndHaltedBlocks : Prop :=
  (∀ s b blk, block s b = some blk → isStuck s blk = true → blk.stuckAt ≠ stuckMark s b →
    (starvedFrags s b ≠ [] ∨ starvedMops s b ≠ [] ∨ starvedCopies s b ≠ []) → ∃ t, exec (.stuckBlock b) s = .next t ∧
      (∀ p ∈ starvedCopies s b, (∀ x ∈ t.copies, x.id ≠ p.1.id) ∧ ∀ x ∈ t.blocks, x.id = p.1.orig.blk → x.halt.isSome = true) ∧
      (∀ p ∈ starvedMops s b, mop t p.1.id = none) ∧ (∀ x ∈ t.blocks, x.id = b → x.stuckAt = stuckMark t b) ∧
      (∀ p, starvedMops s b = [] → starvedCopies s b = [] → starvedFrags s b = [p] →
        (∃ f ∈ t.frags, f.ref = p.frag ∧ ∃ d, f.deferred = some d ∧ d.cause = 0x41 ∧ d.late = true ∧ d.pc = p.acc.orig.pc ∧ d.lane = p.lane) ∧
        t.mem = s.mem ∧ (∀ o ∈ s.ops, o.wid = p.wid → ∀ g ∈ o.taken, ∀ d ∈ t.ponds, d.id = g.1 → (d.gran g.2).full = true) ∧
        (∀ x ∈ t.accs, x.wid ≠ p.wid) ∧ (∀ o ∈ t.ops, o.wid ≠ p.wid) ∧ ∀ u ∈ t.threads, ∀ m ∈ u.marks, m.wid ≠ p.wid)) ∧
  (∀ (s : State) b, ∀ p ∈ starvedFrags s b, p.frag ∈ blockFrags s b ∧ p.acc ∈ s.accs ∧ p.acc.wid = p.wid ∧ p.acc.space ≠ .mem ∧
    granuleReady s p.acc = false ∧ ∃ e, envAt s p.frag = some e ∧
      ((∃ x ∈ s.accs, x.wid = p.wid ∧ x.space ≠ .mem ∧ granuleReady s x = false ∧ ∃ u ∈ e.threads, u.ref = x.t) →
        ∃ u ∈ e.threads, u.ref = p.acc.t)) ∧
  (∀ s core pre m post, s.settled → m.kind ≠ .msta → slotWaiters s core = pre ++ m :: post → (∃ x, ctx s m.orig.ctx = some x ∧ x.running = true) →
    deadlocked s core m.orig.ctx = true → (∀ y ∈ post, ∀ x, ctx s y.orig.ctx = some x → x.running = true → deadlocked s core y.orig.ctx = false) →
    ∃ t, exec (.reservoirDeadlock core) s = .next t ∧ mop t m.id = none ∧ t.mem = s.mem ∧
      (∀ d ∈ t.ponds, d.id = m.pond → ∀ r ∈ d.held, ¬(r.idx = m.idx ∧ r.gen = m.gen)) ∧
      (m.kind ≠ .alloc → ∀ x ∈ m.signers, ∀ u ∈ s.threads, u.ref = x.t → ∃ u' ∈ t.threads, u'.ref = u.ref ∧ ∃ d ∈ u'.deferred, d.cause = 0x44)) ∧
  (∀ (s : State) b core x, block s b = some x → x.halt.isSome = true → x.halted = false → core ∈ blockCores s b → core ∉ x.reached →
    ∃ t, exec (.haltBroadcastArrival b core) s = .next t ∧ t = { s with
        pools := t.pools
        frags := t.frags
        blocks := s.blocks.map (fun y => if y.id = b then { y with reached := y.reached ++ [core] } else y) } ∧
      List.Forall₂ (fun (p q : Pool) => q = { p with skid := q.skid } ∧
        (∀ d, pool s p.id = some p → pond s p.pond = some d → if d.blk = b ∧ d.core = some core then q.skid = 0 else q = p)) s.pools t.pools ∧
      List.Forall₂ (fun (f g : Frag) => g = { f with skid := g.skid } ∧
        (∀ p d, pool s f.pool = some p → pond s p.pond = some d → if d.blk = b ∧ d.core = some core then g.skid = 0 else g = f)) s.frags t.frags) ∧
  (∀ (s : State) b core x c, block s b = some x → x.halt.isSome = true → x.halted = false → core ∈ blockCores s b → (∀ k ∈ blockCores s b, k ∈ x.reached) →
    (∀ r ∈ blockFrags s b, ∃ f, frag s r = some f ∧ (f.stopped = true ∨ f.hold = .faulted)) → (ctx s c).isSome = true →
    (∀ r ∈ blockFrags s b, ∃ e, envAt s r = some e ∧ e.ctx.rcd.id = c) → ∃ t, exec (.haltBroadcastArrival b core) s = .next t ∧
      (∀ y ∈ t.blocks, y.id = b → y.halted = true) ∧ t.threads = s.threads ∧ t.frags = s.frags ∧
      nextSeq t c = nextSeq s c + (blockFrags s b).countP (fun r => (frag s r).any (fun f => f.hold != .faulted)))

/-- R380 to R384: an uncorrectable error poisons the unit that it hits and nothing else, and the eviction of a dirty line reports to the context that wrote
it; a core that fails takes no more ponds, and its blocks are killed, or run again where their kernel is restartable and has restarted less
than three times, the ponds just switched out of it being struck as they resume (log 55); a link that fails is dropped, and so are the modules that it cuts off. -/
def Obligations.DamageIsContained : Prop :=
  (∀ (s : State) what, ∃ t, exec (.uncorrectableError what) s = .next t ∧ (s.host.powered = false → t = s) ∧ (s.host.powered = true →
    (∀ pa, what = .line pa → populated s pa = true → t = { s with badLines := t.badLines } ∧ ∀ l, l ∈ t.badLines ↔ l ∈ s.badLines ∨ l = pa / 128) ∧
    (∀ pa c by_, what = .evicted pa by_ → (ctx s c).isSome = true →
      ((∃ y, (s.slices.filter (fun y => y.addr / 128 == pa / 128)).getLast? = some y ∧ y.orig.ctx = c) ∨
        ((∀ y ∈ s.slices, y.addr / 128 ≠ pa / 128) ∧ ((∃ h, hostLine s (pa / 128) = some h ∧ h.dirty = true ∧ h.ctxs.head? = some c) ∨
          (hostLine s (pa / 128) = none ∧ mapGet s.lineTag (pa / 128) = some c)))) →
      pa / 128 ∈ t.badLines ∧ nextSeq t c = nextSeq s c + 1 ∧ t.threads = s.threads) ∧
    (∀ p addr, what = .granule p addr → t = { s with ponds := t.ponds } ∧ List.Forall₂ (fun (d d' : Pond) => d' = { d with badGrans := d'.badGrans } ∧
      (d.id ≠ p → d' = d) ∧ (d.id = p → addr < d.size → ∀ g, g ∈ d'.badGrans ↔ g ∈ d.badGrans ∨ g = addr / 16)) s.ponds t.ponds) ∧
    (∀ blk tid r, what = .spring blk tid r → r < 768 → t = { s with threads := t.threads } ∧ List.Forall₂ (fun (u u' : Thread) =>
      u' = { u with poison := u'.poison } ∧ (u.ref ≠ ⟨blk, tid⟩ ∨ mapGet u.springs r = none → u' = u) ∧
      (u.ref = ⟨blk, tid⟩ → (mapGet u.springs r).isSome = true → r ∈ u'.poison)) s.threads t.threads) ∧
    (∀ p r, what = .poolCopy p r → r < 768 → t = { s with pools := t.pools } ∧ List.Forall₂ (fun (x x' : Pool) => x' = { x with poison := x'.poison } ∧
      (x.id ≠ p ∨ mapGet x.copies r = none → x' = x) ∧ (x.id = p → (mapGet x.copies r).isSome = true → r ∈ x'.poison)) s.pools t.pools) ∧
    (∀ p r, what = .pondCopy p r → r < 768 → t = { s with ponds := t.ponds } ∧ List.Forall₂ (fun (d d' : Pond) => d' = { d with poison := d'.poison } ∧
      (d.id ≠ p → d' = d) ∧ (d.id = p → r ∈ d'.poison)) s.ponds t.ponds) ∧
    (∀ p idx, what = .slot p idx → t = { s with ponds := t.ponds } ∧ List.Forall₂ (fun (d d' : Pond) => d' = { d with held := d'.held } ∧
      (d.id ≠ p → d' = d) ∧ (d.id = p → ∀ r ∈ d'.held, r.idx = idx → r.phys = true → r.poisoned = true)) s.ponds t.ponds))) ∧
  (∀ (s : State) core part, ∃ t, exec (.coreError core part) s = .next t ∧ (s.host.powered = false ∨ 96 ≤ core → t = s) ∧
    (s.host.powered = true → core < 96 → (∀ k, k ∈ t.badCores ↔ k ∈ s.badCores ∨ k = core) ∧
      (∀ p, (p, core) ∈ s.leaving → ∀ d ∈ t.ponds, d.id = p → d.struck = some (core + 2 ^ 8 * part.val)) ∧ ∀ b l, struck s core = [b] → launch s b.launch = some l →
      (∀ u ∈ t.threads, u.blk ≠ b.id) ∧
      (l.kernel.restart = false ∨ 3 ≤ b.restarts → ∀ x ∈ t.blocks, x.id = b.id → x.killed = true) ∧
      (l.kernel.restart = true → b.restarts < 3 → (∀ x ∈ t.blocks, x.id ≠ b.id) ∧ (∃ l' ∈ t.launches, l' = { l with
          again := l.again ++ [⟨b.lin, b.slot, l.lakeOf b.lin, b.restarts + 1⟩]
          touched := l'.touched }) ∧ ((ctx s l.ctx).isSome = true → nextSeq t l.ctx = nextSeq s l.ctx + 1)))) ∧
  (∀ (s : State) link lost, ∃ t, exec (.linkFailure link lost) s = .next t ∧ (s.host.powered = false → t = s) ∧ (s.host.powered = true →
    t = { s with host := { s.host with
      lostLinks := t.host.lostLinks
      lostModules := t.host.lostModules } } ∧ (∀ k, k ∈ t.host.lostLinks ↔ k ∈ s.host.lostLinks ∨ k = link) ∧
      ∀ m, m ∈ t.host.lostModules ↔ m ∈ s.host.lostModules ∨ (m ∈ lost ∧ m < 1792 ∧ m ≠ s.host.moduleNo)))

/-! ## The host, the boot and the fabric -/

/-- R54, R255, R300 to R304, R309, R311: a part without power takes no notice of the host. GO counts once, at STAGE 3, and negotiates the features;
PSTATE takes codes 0 to 7, a new code giving each core one of the native widths that it allows, at OP7 128 (log 8), leaves the codes from 10 up alone
(log 38), and takes STANDBY and OFF only while no context is resident, OFF being the removal of power (log 39), which loses device memory
(log 3); SHOOTGO drops translations and FLUSHGO writes back the host lines of the range that stands when it is written (log 41), one at
a time each; the window and host memory are read and written where WINOFF points. -/
def Obligations.HostActionsAct : Prop :=
  (∀ (s : State) v off tgt a n data basin priv nonce pa op die hours tail r peers ab, s.host.powered = false →
    ∀ i ∈ [Instr.go, .pstateWrite v, .shootdownRange, .shootdownAll, .flushWriteback, .flushInvalidate, .mailboxImageChunk v, .mailboxAttestation v,
      .hostWindowAccess tgt a n data, .registerWrite off v, .moduleReset, .l2ModeChange basin priv, .managementPortAttestation nonce, .peerAccess pa op,
      .ageUpdate die hours, .collectivePost tail, .collectiveComplete r peers ab], exec i s = .next s) ∧
  (∀ (s : State), s.host.powered = true →
    (s.host.stage = 3 → s.host.go = false → exec .go s = .next { s with host := { s.host with go := true, featdrv := s.host.featdrv &&& 0x1F } }) ∧
    (s.host.stage ≠ 3 ∨ s.host.go = true → exec .go s = .next s) ∧
    (∀ die hours, exec (.ageUpdate die hours) s = .next { s with host := { s.host with age := s.host.age.set die.val hours } }) ∧
    (∀ inv, exec (if inv then .flushInvalidate else .flushWriteback) s = .next (if s.host.flushing then s else { s with host := { s.host with
      flushing := true, flushInv := inv, flushFrom := s.host.flushPa.toNat, flushTo := s.host.flushPa.toNat + s.host.flushLen.toNat } }))) ∧
  (∀ (s : State) v, s.host.powered = true → let code := v.toNat % 16
    let busy : Prop := ∃ d ∈ s.ponds, d.core.isSome = true
    ∃ t, exec (.pstateWrite v) s = .next t ∧ (10 ≤ code → t = s) ∧
      (8 ≤ code → code < 10 → busy → t = { s with host := { s.host with refused := true } }) ∧
      (code = 9 → ¬busy → t.threads = [] ∧ t.ctxs = [] ∧ t.host.powered = false ∧ t.host.go = false ∧ ∀ a < Config.deviceTop, byteAt t.mem a = 0) ∧
      (code < 9 → (8 ≤ code → ¬busy) → t = { s with
          host := { s.host with pstate := code, refused := false }
          ctxs := t.ctxs
          free := t.free } ∧ (code = s.host.pstate → t.ctxs = s.ctxs) ∧
        (code ≠ s.host.pstate → List.Forall₂ (fun (c c' : Ctx) => c' = { c with gwn := c'.gwn } ∧ ∀ k < 96, ∃ w ∈ [16, 32, 64, 128],
          mapGet c'.gwn k = some w ∧ w ≤ largestGwn code ∧ (code = 7 → w = 128)) s.ctxs t.ctxs))) ∧
  (∀ (s : State) all, s.host.powered = true → let rs := if all = true ∨ s.host.shootLen = 0 then [] else [(s.host.shootVa.toNat, s.host.shootLen.toNat)]
    ∃ t, exec (if all then .shootdownAll else .shootdownRange) s = .next t ∧ (s.host.shooting = true → t = s) ∧ (s.host.shooting = false →
      ∃ v, t = { s with
          host := { s.host with shooting := true, shootAll := all }
          tlb := t.tlb
          copies := t.copies
          invals := s.invals ++ [v]
          nextId := t.nextId } ∧ v.ctx = s.host.shootCtx.toNat % 2 ^ 16 ∧ v.ranges = rs ∧ v.all = all ∧ v.host = true ∧ v.acked = false ∧
        ∀ x, x ∈ t.tlb ↔ x ∈ s.tlb ∧ ¬((x.ctx = v.ctx ∨ x.leaf.glob = true) ∧ (all = true ∨ ∃ r ∈ rs,
          x.leaf.page * x.leaf.size < r.1 + r.2 ∧ r.1 < x.leaf.page * x.leaf.size + x.leaf.size)))) ∧
  (∀ s, s.host.flushing = true → s.slices = [] → s.hostLinesOk →
    let covered (h : HostLine) : Prop := s.host.flushFrom < (h.line + 1) * 128 ∧ h.line * 128 < s.host.flushTo
    ∃ t, exec .flushComplete s = .next t ∧ t = { s with
        host := { s.host with flushing := false }
        mem := t.mem
        hostLines := t.hostLines } ∧ (∀ h ∈ t.hostLines, covered h → h.dirty = false ∧ s.host.flushInv = false) ∧
      (∀ n h, hostLine s n = some h → covered h → h.dirty = true → ∀ k < 128, byteAt t.mem (128 * n + k) = h.bytes.getD k 0) ∧
      (s.host.flushInv = false → ∀ a, homeByte t a = homeByte s a) ∧ ∀ a < Config.hostBase, byteAt t.mem a = byteAt s.mem a) ∧
  (∀ s tgt a n base, s.host.powered = true → reaches s tgt a n base →
    (∃ t, exec (.hostWindowAccess tgt a n none) s = .next t ∧ t = { s with
        free := t.free
        host := { s.host with readData := t.host.readData } } ∧ ((∀ i < n, lineOf (base + i) ∉ s.badLines) →
      t.host.readData = bytesAt s.mem base n)) ∧
    (∀ bs, bs.length = n → s.slices = [] → ∃ t, exec (.hostWindowAccess tgt a n (some bs)) s = .next t ∧ bytesAt t.mem base n = bs ∧
      (∀ x, ¬(base ≤ x ∧ x < base + n) → byteAt t.mem x = byteAt s.mem x) ∧ t.hostLines = s.hostLines ∧ t.threads = s.threads ∧ t.host = s.host)) ∧
  (∀ (s : State) (basin : Fin 8) priv, s.host.powered = true → ∃ t, exec (.l2ModeChange basin priv) s = .next t ∧
    (s.host.go = false ∨ s.host.featdrv.getLsbD 2 = false ∨ basinBusy s basin.val = true → t = s) ∧
    (s.host.go = true → s.host.featdrv.getLsbD 2 = true → basinBusy s basin.val = false → (basin ∈ t.l2priv ↔ priv = true) ∧
      (∀ k, k ≠ basin → (k ∈ t.l2priv ↔ k ∈ s.l2priv)) ∧ (s.slices = [] → ∀ h ∈ t.hostLines, homeOf (h.line * 128) ≠ basin.val) ∧ t.threads = s.threads))

/-- R301, R302, R339: a register of BAR0 reads back as written in the bits that it has, and no other register changes; the registers that act do what their
events do; FQERR loses its error bit where a 1 is written to it, and a running context none of whose blocks halts issues again then; MBXCTL gives the mailbox its command, one that it does not know ending with RESULT 1,
and MBXSTAT loses DONE; the mailbox buffer holds what is written; the other offsets ignore a write, as FEATDRV does after GO and the
registers of a feature that was refused then, which hold what is written before it (log 41). -/
def Obligations.HostRegistersReadBack : Prop :=
  ∀ (s : State) v, s.host.powered = true →
    (∀ off mask, (off, mask) ∈ plainRegs s → ∃ t, exec (.registerWrite off v) s = .next t ∧ regRead t off = v &&& mask ∧
      (∀ x, x ≠ off → regRead t x = regRead s x) ∧ t = { s with host := t.host }) ∧
    (∀ off, off % 8 = 0 → 0x1000 ≤ off → off < 0x2000 → ∃ t, exec (.registerWrite off v) s = .next t ∧ regRead t off = v ∧
      (∀ x, x ≠ off → regRead t x = regRead s x) ∧ t = { s with host := t.host }) ∧
    (∀ c, c < 2 ^ 16 → (ctx s c).isSome = true → ∃ t, exec (.registerWrite (0xA00000 + 8 * c) v) s = .next t ∧ t = { s with ctxs := t.ctxs } ∧
      regRead t (0xA00000 + 8 * c) = (if v.getLsbD 8 then regRead s (0xA00000 + 8 * c) &&& ~~~256 else regRead s (0xA00000 + 8 * c)) ∧
      List.Forall₂ (fun x y : Ctx => y = { x with
          fqErr := y.fqErr
          stalled := y.stalled } ∧ (x.rcd.id ≠ c ∨ v.getLsbD 8 = false → y = x) ∧
        (x.rcd.id = c → v.getLsbD 8 = true → x.running = true → (∀ b ∈ s.blocks, ∀ l, launch s b.launch = some l → l.ctx = c →
          b.halt = none ∧ b.halted = false) → y.stalled = false)) s.ctxs t.ctxs) ∧
    exec (.registerWrite 0x10 v) s = (if v.getLsbD 0 then exec .go s else .next s) ∧
    exec (.registerWrite 0x20 v) s = exec (.pstateWrite v) s ∧
    exec (.registerWrite 0xD8 v) s = exec (if v.getLsbD 0 then .shootdownAll else .shootdownRange) s ∧
    exec (.registerWrite 0xF0 v) s = exec (if v.getLsbD 1 then .flushInvalidate else .flushWriteback) s ∧
    exec (.registerWrite 0x110 v) s = exec (.collectivePost v) s ∧
    (v.toNat % 256 = 1 → exec (.registerWrite 0x200 v) s = exec (.mailboxImageChunk v) s) ∧
    (v.toNat % 256 = 2 → exec (.registerWrite 0x200 v) s = exec (.mailboxAttestation v) s) ∧
    (s.host.mbxBusy = true → exec (.registerWrite 0x200 v) s = .next s) ∧
    (v.toNat % 256 ≠ 1 → v.toNat % 256 ≠ 2 → s.host.mbxBusy = false → ∃ t, exec (.registerWrite 0x200 v) s = .next t ∧ t = { s with host := t.host } ∧
      t.host.mbxDone = true ∧ t.host.mbxResult = 1 ∧ regRead t 0x200 = v &&& 0x0FFF00FF) ∧
    exec (.registerWrite 0x208 v) s = .next (if v.getLsbD 1 then { s with host := { s.host with mbxDone := false } } else s) ∧
    (s.host.go = true → exec (.registerWrite 0x08 v) s = .next s) ∧
    (∀ off ∈ [0x80, 0x88, 0x98], refusedFeature s 1 = true → exec (.registerWrite off v) s = .next s) ∧
    (∀ off ∈ [0x100, 0x108, 0x110], refusedFeature s 3 = true → exec (.registerWrite off v) s = .next s) ∧
    (∀ c q, c < 2 ^ 16 → q < 16 → exec (.registerWrite (0x100000 + 128 * c + 8 * q) v) s = exec (.doorbell c q (v.setWidth 32)) s) ∧
    (∀ off, (off % 8 ≠ 0 ∨ off = 0 ∨ off = 0x28 ∨ (0x30 ≤ off ∧ off < 0x80) ∨ off = 0x90 ∨ (0xA0 ≤ off ∧ off < 0xC0) ∨ off = 0xF8 ∨
      (0x118 ≤ off ∧ off < 0x200) ∨ (0x210 ≤ off ∧ off < 0x1000) ∨ (0x2000 ≤ off ∧ off < 0x100000) ∨ (0x900000 ≤ off ∧ off < 0xA00000) ∨
      0xA80000 ≤ off) → exec (.registerWrite off v) s = .next s)

/-- R302, R307 to R309, R386, R387: without power the part holds nothing, its device memory reading as zero by the model's own choice (log 3); power or a fresh reset
runs the ROM (its checks in the model's own order, log 23), which ends at the firmware, waits for the host's image, or halts at STAGE 15
with the cause; a module reset keeps memory, boot and age (log 39; the age as the model begins with it, log 22); the mailbox takes the
chunks of an image and the requests for a report, whose RESULT before STAGE 3 and for another length is the model's own (log 23), and so
does the management port. -/
def Obligations.PowerBootAndMailbox : Prop :=
  (∀ (s : State), ∃ t, exec .powerRemove s = .next t ∧ t.host.powered = false ∧ t.host.go = false ∧ t.threads = [] ∧ t.ctxs = [] ∧ t.launches = [] ∧
    (∀ a < Config.deviceTop, byteAt t.mem a = 0) ∧ ∀ a, Config.deviceTop ≤ a → byteAt t.mem a = byteAt s.mem a) ∧
  (∀ (s : State), ∃ t, exec .powerOn s = .next t ∧ (s.host.powered = true → s.host.stage ≠ 0 ∨ s.host.mbxNeed = true → t = s) ∧
    (s.host.powered = false ∨ (s.host.stage = 0 ∧ s.host.mbxNeed = false) → t.host.powered = true ∧ t.threads = [] ∧ t.ctxs = [] ∧ t.host.go = false ∧
      (t.host.stage = 3 ∨ (t.host.stage = 1 ∧ t.host.mbxNeed = true ∧ t.host.mbxOffset = 0) ∨ t.host.stage = 15) ∧
      (Config.romCheck s.free = false → t.host.stage = 15 ∧ t.host.bootCause = 0xA8) ∧
      (Config.romCheck s.free = true → Config.identityKey s.free = false → t.host.stage = 15 ∧ t.host.bootCause = 0xA9) ∧
      (∀ image, Config.romCheck s.free = true → Config.identityKey s.free = true → Config.fabricImage s.free = some image →
        Config.imageWellFormed image = true → Config.imageKeyMatches image = true → Config.imageVerifies image = true →
        t.host.stage = 3 ∧ t.host.bootSrc = 1 ∧ t.host.image = image ∧ t.host.moduleNo < 1792))) ∧
  (∀ (s : State), s.host.powered = true → ∃ t, exec .moduleReset s = .next t ∧ t.mem = s.mem ∧ t.badLines = s.badLines ∧ t.threads = [] ∧ t.ctxs = [] ∧
    t.launches = [] ∧ t.invals = [] ∧ t.badCores = [] ∧ t.host.go = false ∧ t.host.featdrv = 0 ∧ t.host.winoff = 0 ∧ t.host.pstate = 0 ∧
    t.host.stage = s.host.stage ∧ t.host.image = s.host.image ∧ t.host.age = s.host.age ∧ t.host.lostLinks = s.host.lostLinks) ∧
  (∀ (s : State) v, s.host.powered = true → s.host.mbxBusy = false → let len := if v.toNat / 2 ^ 16 % 2 ^ 12 = 0 then 4096 else v.toNat / 2 ^ 16 % 2 ^ 12
    let image := s.host.image ++ bytesAt s.host.mbxBuf 0 len
    ∃ t, exec (.mailboxImageChunk v) s = .next t ∧ t.host.mbxDone = true ∧ t.mem = s.mem ∧ t.threads = s.threads ∧
      (s.host.mbxNeed = false → t.host.mbxResult = 1 ∧ t.host.stage = s.host.stage) ∧
      (s.host.mbxNeed = true → (∀ n, Config.imageLength image = some n → image.length < n) → t.host.mbxResult = 0 ∧ t.host.mbxNeed = true ∧
        t.host.image = image ∧ t.host.mbxOffset = image.length) ∧
      (∀ n, s.host.mbxNeed = true → Config.imageLength image = some n → n ≤ image.length → t.host.mbxNeed = false ∧
        (Config.imageWellFormed image = false → t.host.stage = 15 ∧ t.host.bootCause = 0xA5) ∧
        (Config.imageWellFormed image = true → Config.imageKeyMatches image = true → Config.imageVerifies image = true →
          t.host.stage = 3 ∧ t.host.bootSrc = 2 ∧ t.host.image = image))) ∧
  (∀ (s : State) v, s.host.powered = true → s.host.mbxBusy = false → ∃ t, exec (.mailboxAttestation v) s = .next t ∧ t.host.mbxDone = true ∧ t.mem = s.mem ∧
    t.threads = s.threads ∧ (v.toNat / 2 ^ 16 % 2 ^ 12 ≠ 32 → t.host.mbxResult = 2) ∧
    (v.toNat / 2 ^ 16 % 2 ^ 12 = 32 → s.host.stage ≠ 3 → t.host.mbxResult = 1) ∧
    (v.toNat / 2 ^ 16 % 2 ^ 12 = 32 → s.host.stage = 3 → t.host.mbxResult = 0 ∧ bytesAt t.host.mbxBuf 0 t.host.mbxRlen =
      (Config.attestReport (bytesAt s.host.mbxBuf 0 32) s.host.image (if s.host.go then s.host.featdrv else 0)).take 4096)) ∧
  (∀ (s : State) nonce, s.host.powered = true → exec (.managementPortAttestation nonce) s = .next (if nonce.length = 32 ∧ s.host.stage = 3 then { s with
    host := { s.host with report := Config.attestReport nonce s.host.image (if s.host.go then s.host.featdrv else 0) } } else s))

/-- R302, R305, R306, R385: a peer reads and writes this module's device memory, and its atomics answer the old value; so it does memory of another module
to which a path leads, as far as this one sees it, by the model's choice of its inputs (log 48). COLLTAIL posts records, before GO
only holds its value (log 41), and ignores a write where its feature was refused; a collective whose members agree and have all posted writes
the reduction in rank order, status 1 and SEQ; one whose members disagree, or whose source is poisoned, ends with status 3, before any
member that has not posted counts (log 40), and one that is given up with status 2, or 3 where a module is unreachable, and without a
result. -/
def Obligations.FabricActions : Prop :=
  (∀ (s : State) pa op, s.host.powered = true → s.host.go = true → s.host.featdrv.getLsbD 0 = true → s.slices = [] →
    let a := if Config.peerBase ≤ pa ∧ pa < Config.hostBase ∧ (pa - Config.peerBase) / 2 ^ 40 = s.host.moduleNo then (pa - Config.peerBase) % 2 ^ 40 else pa
    let held (n : Nat) : Prop := a + n ≤ Config.deviceTop ∨ (Config.peerBase ≤ a ∧ a < Config.hostBase ∧
      (a - Config.peerBase) % 2 ^ 40 + n ≤ Config.deviceTop ∧ (a - Config.peerBase) / 2 ^ 40 ∉ s.host.lostModules)
    ∃ t, exec (.peerAccess pa op) s = .next t ∧ t.threads = s.threads ∧ t.hostLines = s.hostLines ∧
      (∀ n, op = .load n → held n → t.mem = s.mem ∧ ((∀ i < n, lineOf (a + i) ∉ s.badLines) → t.host.peerReply = bytesAt s.mem a n)) ∧
      (∀ bs, op = .store bs → held bs.length → bytesAt t.mem a bs.length = bs ∧
        ∀ x, ¬(a ≤ x ∧ x < a + bs.length) → byteAt t.mem x = byteAt s.mem x) ∧
      (∀ k wide uns b c, op = .atomic k wide uns b c → let n := if wide then 8 else 4
        held n → (∀ i < n, lineOf (a + i) ∉ s.badLines) → t.host.peerReply = bytesAt s.mem a n ∧
        bytesAt t.mem a n = peerNew k uns n (bytesAt s.mem a n) b c ∧ ∀ x, ¬(a ≤ x ∧ x < a + n) → byteAt t.mem x = byteAt s.mem x)) ∧
  (∀ (s : State) tail, s.host.powered = true → ∃ t, exec (.collectivePost tail) s = .next t ∧
    (s.host.go = true → s.host.featdrv.getLsbD 3 = false → t = s) ∧
    (s.host.go = false → t = { s with host := { s.host with collTail := tail } }) ∧ (s.host.go = true → s.host.featdrv.getLsbD 3 = true →
      t = { s with host := { s.host with
        collTail := tail
        posted := t.host.posted } } ∧ ∀ n, n ≤ collSize s.host → tail = s.host.collTail + BitVec.ofNat 64 n →
          t.host.posted = s.host.posted ++ (List.range n).map (fun i => (s.host.collTail + BitVec.ofNat 64 i).toNat))) ∧
  (∀ (s : State) n peers ab r, s.host.powered = true → collRecord s n = some r → s.slices = [] →
    let ms := collMembers s r peers
    let srcs := ms.map Prod.snd
    ∃ t, exec (.collectiveComplete n peers ab) s = .next t ∧ t.threads = s.threads ∧
      (collStatus s r ms ab = none → t = s) ∧
      (∀ st, collStatus s r ms ab = some st → n ∉ t.host.posted ∧
        (collDone r + 8 ≤ Config.deviceTop → homeValue { t with hostLines := [] } (collDone r) 8 = collSeq r) ∧
        (st ≠ 1 → ∀ x, x ≠ collAddr s.host n + 30 → ¬(collDone r ≤ x ∧ x < collDone r + 8) → byteAt t.mem x = byteAt s.mem x)) ∧
      (ab = false → collBroken s r = false → (∀ m ∈ ms, agrees r m.1 = true ∧ sourceShort r m.2 = false) → ms.map (fun m => collRank m.1) = List.range (collRanks r) →
        collStatus s r ms ab = some 1 ∧ (collDst r + (collResult r srcs).length ≤ Config.deviceTop →
          (∀ x, collDst r ≤ x → x < collDst r + (collResult r srcs).length → x ≠ collAddr s.host n + 30 ∧ ¬(collDone r ≤ x ∧ x < collDone r + 8)) →
          bytesAt t.mem (collDst r) (collResult r srcs).length = collResult r srcs)) ∧
      (collBroken s r = true ∨ (∃ m ∈ ms, agrees r m.1 = false ∨ sourceShort r m.2 = true) → collStatus s r ms ab = some 3) ∧
      (collBroken s r = false → (∀ m ∈ ms, agrees r m.1 = true ∧ sourceShort r m.2 = false) → (ms.map (fun m => collRank m.1)).Nodup →
        ms.length < collRanks r →
        collStatus s r ms ab = if s.host.lostModules.any (Config.groupHas (collGroup r)) then some 3 else if ab then some 2 else none)) ∧
  (∀ (s : State) n r, collRecord s n = some r → s.slices = [] → ∃ t, exec (.collectiveTimeout n) s = .next t ∧ t.threads = s.threads ∧ n ∉ t.host.posted ∧
    (collAddr s.host n + 30 < Config.deviceTop → ¬(collDone r ≤ collAddr s.host n + 30 ∧ collAddr s.host n + 30 < collDone r + 8) →
      byteAt t.mem (collAddr s.host n + 30) = if collBroken s r = true ∨ (∃ m ∈ s.host.lostModules, Config.groupHas (collGroup r) m = true) then 3 else 2) ∧
    ∀ x, x ≠ collAddr s.host n + 30 → ¬(collDone r ≤ x ∧ x < collDone r + 8) → byteAt t.mem x = byteAt s.mem x)
end

