-- ==== Sys2Proof/Laws/Bytes.lean ====
section
/-! SUPPORT. Tables and bytes of memory: reading after writing, and the canonical form that every memory operation keeps. -/

namespace Sys2Proof.Machine

/-- A table read at the number just set. -/
@[simp] theorem mapGet_mapSet_same {α : Type} (m : Map α) (n : Nat) (v : α) : mapGet (mapSet m n v) n = some v := by
  induction m with
  | nil => simp [mapSet, mapGet]
  | cons p r ih =>
    obtain ⟨k, w⟩ := p
    simp only [mapSet]
    split
    · simp [mapGet]
    · split
      · simp [mapGet]
      · have : k ≠ n := by omega
        simp [mapGet, this, ih]

/-- A table read at another number than the one set. -/
theorem mapGet_mapSet_ne {α : Type} (m : Map α) {n k : Nat} (v : α) (h : n ≠ k) : mapGet (mapSet m n v) k = mapGet m k := by
  induction m with
  | nil => simp [mapSet, mapGet, h]
  | cons p r ih =>
    obtain ⟨j, w⟩ := p
    simp only [mapSet]
    split
    · simp [mapGet, h]
    · split
      · subst_vars; simp [mapGet, h]
      · simp only [mapGet, ih]

/-- A table read at the number just erased. -/
@[simp] theorem mapGet_mapErase_same {α : Type} (m : Map α) (n : Nat) : mapGet (mapErase m n) n = none := by
  induction m with
  | nil => rfl
  | cons p r ih =>
    obtain ⟨k, w⟩ := p
    by_cases hk : k = n
    · subst hk; simpa [mapErase, mapGet] using ih
    · simpa [mapErase, mapGet, hk] using ih

/-- A table read at another number than the one erased. -/
theorem mapGet_mapErase_ne {α : Type} (m : Map α) {n k : Nat} (h : n ≠ k) : mapGet (mapErase m n) k = mapGet m k := by
  induction m with
  | nil => rfl
  | cons p r ih =>
    obtain ⟨j, w⟩ := p
    by_cases hj : j = n
    · subst hj
      have : mapGet ((j, w) :: r) k = mapGet r k := by simp [mapGet, h]
      simpa [mapErase, this] using ih
    · have : mapErase ((j, w) :: r) n = (j, w) :: mapErase r n := by simp [mapErase, hj]
      simp only [this, mapGet, ih]

/-- A byte read where it was written. -/
@[simp] theorem byteAt_putByte_same (m : List Host.Cell) (a : Nat) (b : Byte) : byteAt (putByte m a b) a = b := by
  by_cases h : b = unlisted <;> simp [byteAt, putByte, h]

/-- A byte read elsewhere than where one was written. -/
theorem byteAt_putByte_ne (m : List Host.Cell) {a x : Nat} (b : Byte) (h : a ≠ x) : byteAt (putByte m a b) x = byteAt m x := by
  by_cases hb : b = unlisted
  · simp [byteAt, putByte, hb, mapGet_mapErase_ne m h]
  · simp [byteAt, putByte, hb, mapGet_mapSet_ne m b h]

/-- A byte below the bytes written. -/
theorem byteAt_putBytes_below (bs : List Byte) : ∀ (m : List Host.Cell) (a x : Nat), x < a → byteAt (putBytes m a bs) x = byteAt m x := by
  induction bs with
  | nil => intros; rfl
  | cons b r ih =>
    intro m a x h
    rw [putBytes, ih _ _ _ (by omega), byteAt_putByte_ne _ _ (by omega)]

/-- A byte at or above the end of the bytes written. -/
theorem byteAt_putBytes_above (bs : List Byte) :
    ∀ (m : List Host.Cell) (a x : Nat), a + bs.length ≤ x → byteAt (putBytes m a bs) x = byteAt m x := by
  induction bs with
  | nil => intros; rfl
  | cons b r ih =>
    intro m a x h
    simp only [List.length_cons] at h
    rw [putBytes, ih _ _ _ (by omega), byteAt_putByte_ne _ _ (by omega)]

/-- Keys above a number stay above a smaller one. -/
theorem Memory.above_mono {lo lo' : Nat} (h : lo' ≤ lo) : ∀ {m : List Host.Cell}, Memory.above lo m = true → Memory.above lo' m = true
  | [], _ => rfl
  | (a, b) :: r, hm => by
    simp only [Memory.above, Bool.and_eq_true, decide_eq_true_eq] at hm ⊢
    exact ⟨⟨by omega, hm.1.2⟩, hm.2⟩

/-- Setting a listed byte keeps the canonical form. -/
theorem Memory.above_mapSet {b : Byte} (hb : b ≠ unlisted) {a : Nat} :
    ∀ {m : List Host.Cell} {lo : Nat}, lo ≤ a → Memory.above lo m = true → Memory.above lo (mapSet m a b) = true
  | [], lo, h, _ => by simp [mapSet, Memory.above, h, hb]
  | (k, w) :: r, lo, h, hm => by
    simp only [Memory.above, Bool.and_eq_true, decide_eq_true_eq] at hm
    simp only [mapSet]
    split
    · simp only [Memory.above, Bool.and_eq_true, decide_eq_true_eq]
      exact ⟨⟨h, by simpa using hb⟩, ⟨by omega, hm.1.2⟩, hm.2⟩
    · split
      · subst_vars
        simp only [Memory.above, Bool.and_eq_true, decide_eq_true_eq]
        exact ⟨⟨h, by simpa using hb⟩, hm.2⟩
      · simp only [Memory.above, Bool.and_eq_true, decide_eq_true_eq]
        exact ⟨hm.1, Memory.above_mapSet hb (by omega) hm.2⟩

/-- Taking an entry out keeps the canonical form. -/
theorem Memory.above_mapErase {a : Nat} :
    ∀ {m : List Host.Cell} {lo : Nat}, Memory.above lo m = true → Memory.above lo (mapErase m a) = true
  | [], _, _ => rfl
  | (k, w) :: r, lo, hm => by
    simp only [Memory.above, Bool.and_eq_true, decide_eq_true_eq] at hm
    by_cases hk : k = a
    · have : mapErase ((k, w) :: r) a = mapErase r a := by simp [mapErase, hk]
      rw [this]
      exact Memory.above_mono (by omega) (Memory.above_mapErase hm.2)
    · have : mapErase ((k, w) :: r) a = (k, w) :: mapErase r a := by simp [mapErase, hk]
      rw [this]
      simp only [Memory.above, Bool.and_eq_true, decide_eq_true_eq]
      exact ⟨hm.1, Memory.above_mapErase hm.2⟩

/-- Writing one byte keeps the canonical form. -/
theorem Memory.wf_putByte {m : List Host.Cell} (h : Memory.wf m = true) (a : Nat) (b : Byte) : Memory.wf (putByte m a b) = true := by
  unfold Memory.wf putByte at *
  split
  · exact Memory.above_mapErase h
  · next hb => exact Memory.above_mapSet hb (Nat.zero_le _) h

/-- Writing bytes keeps the canonical form. -/
theorem Memory.wf_putBytes (bs : List Byte) : ∀ {m : List Host.Cell} (a : Nat), Memory.wf m = true → Memory.wf (putBytes m a bs) = true := by
  induction bs with
  | nil => intro m a h; exact h
  | cons b r ih => intro m a h; exact ih _ (Memory.wf_putByte h a b)

end Sys2Proof.Machine
end

