-- ==== Sys2Proof/Laws/State.lean ====
section
/-! SUPPORT. What each update of the state leaves and what it sets: one lemma for each field, so that no proof unfolds a record update. -/

namespace Sys2Proof.Machine

/-! `updThreads s p f` -/
@[simp] theorem updThreads_host (s : State) (p : Thread → Bool) (f : Thread → Thread) : (updThreads s p f).host = s.host := rfl
@[simp] theorem updThreads_mem (s : State) (p : Thread → Bool) (f : Thread → Thread) : (updThreads s p f).mem = s.mem := rfl
@[simp] theorem updThreads_badLines (s : State) (p : Thread → Bool) (f : Thread → Thread) : (updThreads s p f).badLines = s.badLines := rfl
@[simp] theorem updThreads_lineTag (s : State) (p : Thread → Bool) (f : Thread → Thread) : (updThreads s p f).lineTag = s.lineTag := rfl
@[simp] theorem updThreads_hostLines (s : State) (p : Thread → Bool) (f : Thread → Thread) : (updThreads s p f).hostLines = s.hostLines := rfl
@[simp] theorem updThreads_peerLines (s : State) (p : Thread → Bool) (f : Thread → Thread) : (updThreads s p f).peerLines = s.peerLines := rfl
@[simp] theorem updThreads_l2priv (s : State) (p : Thread → Bool) (f : Thread → Thread) : (updThreads s p f).l2priv = s.l2priv := rfl
@[simp] theorem updThreads_ctxs (s : State) (p : Thread → Bool) (f : Thread → Thread) : (updThreads s p f).ctxs = s.ctxs := rfl
@[simp] theorem updThreads_launches (s : State) (p : Thread → Bool) (f : Thread → Thread) : (updThreads s p f).launches = s.launches := rfl
@[simp] theorem updThreads_blocks (s : State) (p : Thread → Bool) (f : Thread → Thread) : (updThreads s p f).blocks = s.blocks := rfl
@[simp] theorem updThreads_ponds (s : State) (p : Thread → Bool) (f : Thread → Thread) : (updThreads s p f).ponds = s.ponds := rfl
@[simp] theorem updThreads_pools (s : State) (p : Thread → Bool) (f : Thread → Thread) : (updThreads s p f).pools = s.pools := rfl
@[simp] theorem updThreads_frags (s : State) (p : Thread → Bool) (f : Thread → Thread) : (updThreads s p f).frags = s.frags := rfl
@[simp] theorem updThreads_bars (s : State) (p : Thread → Bool) (f : Thread → Thread) : (updThreads s p f).bars = s.bars := rfl
@[simp] theorem updThreads_colls (s : State) (p : Thread → Bool) (f : Thread → Thread) : (updThreads s p f).colls = s.colls := rfl
@[simp] theorem updThreads_ops (s : State) (p : Thread → Bool) (f : Thread → Thread) : (updThreads s p f).ops = s.ops := rfl
@[simp] theorem updThreads_accs (s : State) (p : Thread → Bool) (f : Thread → Thread) : (updThreads s p f).accs = s.accs := rfl
@[simp] theorem updThreads_slices (s : State) (p : Thread → Bool) (f : Thread → Thread) : (updThreads s p f).slices = s.slices := rfl
@[simp] theorem updThreads_copies (s : State) (p : Thread → Bool) (f : Thread → Thread) : (updThreads s p f).copies = s.copies := rfl
@[simp] theorem updThreads_mops (s : State) (p : Thread → Bool) (f : Thread → Thread) : (updThreads s p f).mops = s.mops := rfl
@[simp] theorem updThreads_invals (s : State) (p : Thread → Bool) (f : Thread → Thread) : (updThreads s p f).invals = s.invals := rfl
@[simp] theorem updThreads_tlb (s : State) (p : Thread → Bool) (f : Thread → Thread) : (updThreads s p f).tlb = s.tlb := rfl
@[simp] theorem updThreads_icache (s : State) (p : Thread → Bool) (f : Thread → Thread) : (updThreads s p f).icache = s.icache := rfl
@[simp] theorem updThreads_badCores (s : State) (p : Thread → Bool) (f : Thread → Thread) : (updThreads s p f).badCores = s.badCores := rfl
@[simp] theorem updThreads_incomplete (s : State) (p : Thread → Bool) (f : Thread → Thread) : (updThreads s p f).incomplete = s.incomplete := rfl
@[simp] theorem updThreads_leaving (s : State) (p : Thread → Bool) (f : Thread → Thread) : (updThreads s p f).leaving = s.leaving := rfl
@[simp] theorem updThreads_rot (s : State) (p : Thread → Bool) (f : Thread → Thread) : (updThreads s p f).rot = s.rot := rfl
@[simp] theorem updThreads_lastQueue (s : State) (p : Thread → Bool) (f : Thread → Thread) : (updThreads s p f).lastQueue = s.lastQueue := rfl
@[simp] theorem updThreads_nextId (s : State) (p : Thread → Bool) (f : Thread → Thread) : (updThreads s p f).nextId = s.nextId := rfl
@[simp] theorem updThreads_free (s : State) (p : Thread → Bool) (f : Thread → Thread) : (updThreads s p f).free = s.free := rfl
@[simp] theorem updThreads_clock (s : State) (p : Thread → Bool) (f : Thread → Thread) : (updThreads s p f).clock = s.clock := rfl
@[simp] theorem updThreads_hints (s : State) (p : Thread → Bool) (f : Thread → Thread) : (updThreads s p f).hints = s.hints := rfl
@[simp] theorem updThreads_choices (s : State) (p : Thread → Bool) (f : Thread → Thread) : (updThreads s p f).choices = s.choices := rfl
@[simp] theorem updThreads_inbox (s : State) (p : Thread → Bool) (f : Thread → Thread) : (updThreads s p f).inbox = s.inbox := rfl
@[simp] theorem updThreads_cur (s : State) (p : Thread → Bool) (f : Thread → Thread) : (updThreads s p f).cur = s.cur := rfl
@[simp] theorem updThreads_threads (s : State) (p : Thread → Bool) (f : Thread → Thread) : (updThreads s p f).threads = updWhere p f s.threads := rfl

/-! `updThread s r f` -/
@[simp] theorem updThread_host (s : State) (r : TRef) (f : Thread → Thread) : (updThread s r f).host = s.host := rfl
@[simp] theorem updThread_mem (s : State) (r : TRef) (f : Thread → Thread) : (updThread s r f).mem = s.mem := rfl
@[simp] theorem updThread_badLines (s : State) (r : TRef) (f : Thread → Thread) : (updThread s r f).badLines = s.badLines := rfl
@[simp] theorem updThread_lineTag (s : State) (r : TRef) (f : Thread → Thread) : (updThread s r f).lineTag = s.lineTag := rfl
@[simp] theorem updThread_hostLines (s : State) (r : TRef) (f : Thread → Thread) : (updThread s r f).hostLines = s.hostLines := rfl
@[simp] theorem updThread_peerLines (s : State) (r : TRef) (f : Thread → Thread) : (updThread s r f).peerLines = s.peerLines := rfl
@[simp] theorem updThread_l2priv (s : State) (r : TRef) (f : Thread → Thread) : (updThread s r f).l2priv = s.l2priv := rfl
@[simp] theorem updThread_ctxs (s : State) (r : TRef) (f : Thread → Thread) : (updThread s r f).ctxs = s.ctxs := rfl
@[simp] theorem updThread_launches (s : State) (r : TRef) (f : Thread → Thread) : (updThread s r f).launches = s.launches := rfl
@[simp] theorem updThread_blocks (s : State) (r : TRef) (f : Thread → Thread) : (updThread s r f).blocks = s.blocks := rfl
@[simp] theorem updThread_ponds (s : State) (r : TRef) (f : Thread → Thread) : (updThread s r f).ponds = s.ponds := rfl
@[simp] theorem updThread_pools (s : State) (r : TRef) (f : Thread → Thread) : (updThread s r f).pools = s.pools := rfl
@[simp] theorem updThread_frags (s : State) (r : TRef) (f : Thread → Thread) : (updThread s r f).frags = s.frags := rfl
@[simp] theorem updThread_bars (s : State) (r : TRef) (f : Thread → Thread) : (updThread s r f).bars = s.bars := rfl
@[simp] theorem updThread_colls (s : State) (r : TRef) (f : Thread → Thread) : (updThread s r f).colls = s.colls := rfl
@[simp] theorem updThread_ops (s : State) (r : TRef) (f : Thread → Thread) : (updThread s r f).ops = s.ops := rfl
@[simp] theorem updThread_accs (s : State) (r : TRef) (f : Thread → Thread) : (updThread s r f).accs = s.accs := rfl
@[simp] theorem updThread_slices (s : State) (r : TRef) (f : Thread → Thread) : (updThread s r f).slices = s.slices := rfl
@[simp] theorem updThread_copies (s : State) (r : TRef) (f : Thread → Thread) : (updThread s r f).copies = s.copies := rfl
@[simp] theorem updThread_mops (s : State) (r : TRef) (f : Thread → Thread) : (updThread s r f).mops = s.mops := rfl
@[simp] theorem updThread_invals (s : State) (r : TRef) (f : Thread → Thread) : (updThread s r f).invals = s.invals := rfl
@[simp] theorem updThread_tlb (s : State) (r : TRef) (f : Thread → Thread) : (updThread s r f).tlb = s.tlb := rfl
@[simp] theorem updThread_icache (s : State) (r : TRef) (f : Thread → Thread) : (updThread s r f).icache = s.icache := rfl
@[simp] theorem updThread_badCores (s : State) (r : TRef) (f : Thread → Thread) : (updThread s r f).badCores = s.badCores := rfl
@[simp] theorem updThread_incomplete (s : State) (r : TRef) (f : Thread → Thread) : (updThread s r f).incomplete = s.incomplete := rfl
@[simp] theorem updThread_leaving (s : State) (r : TRef) (f : Thread → Thread) : (updThread s r f).leaving = s.leaving := rfl
@[simp] theorem updThread_rot (s : State) (r : TRef) (f : Thread → Thread) : (updThread s r f).rot = s.rot := rfl
@[simp] theorem updThread_lastQueue (s : State) (r : TRef) (f : Thread → Thread) : (updThread s r f).lastQueue = s.lastQueue := rfl
@[simp] theorem updThread_nextId (s : State) (r : TRef) (f : Thread → Thread) : (updThread s r f).nextId = s.nextId := rfl
@[simp] theorem updThread_free (s : State) (r : TRef) (f : Thread → Thread) : (updThread s r f).free = s.free := rfl
@[simp] theorem updThread_clock (s : State) (r : TRef) (f : Thread → Thread) : (updThread s r f).clock = s.clock := rfl
@[simp] theorem updThread_hints (s : State) (r : TRef) (f : Thread → Thread) : (updThread s r f).hints = s.hints := rfl
@[simp] theorem updThread_choices (s : State) (r : TRef) (f : Thread → Thread) : (updThread s r f).choices = s.choices := rfl
@[simp] theorem updThread_inbox (s : State) (r : TRef) (f : Thread → Thread) : (updThread s r f).inbox = s.inbox := rfl
@[simp] theorem updThread_cur (s : State) (r : TRef) (f : Thread → Thread) : (updThread s r f).cur = s.cur := rfl
@[simp] theorem updThread_threads (s : State) (r : TRef) (f : Thread → Thread) : (updThread s r f).threads = updWhere (fun t => t.ref == r) f s.threads := rfl

/-! `updFrag s r f` -/
@[simp] theorem updFrag_host (s : State) (r : FRef) (f : Frag → Frag) : (updFrag s r f).host = s.host := rfl
@[simp] theorem updFrag_mem (s : State) (r : FRef) (f : Frag → Frag) : (updFrag s r f).mem = s.mem := rfl
@[simp] theorem updFrag_badLines (s : State) (r : FRef) (f : Frag → Frag) : (updFrag s r f).badLines = s.badLines := rfl
@[simp] theorem updFrag_lineTag (s : State) (r : FRef) (f : Frag → Frag) : (updFrag s r f).lineTag = s.lineTag := rfl
@[simp] theorem updFrag_hostLines (s : State) (r : FRef) (f : Frag → Frag) : (updFrag s r f).hostLines = s.hostLines := rfl
@[simp] theorem updFrag_peerLines (s : State) (r : FRef) (f : Frag → Frag) : (updFrag s r f).peerLines = s.peerLines := rfl
@[simp] theorem updFrag_l2priv (s : State) (r : FRef) (f : Frag → Frag) : (updFrag s r f).l2priv = s.l2priv := rfl
@[simp] theorem updFrag_ctxs (s : State) (r : FRef) (f : Frag → Frag) : (updFrag s r f).ctxs = s.ctxs := rfl
@[simp] theorem updFrag_launches (s : State) (r : FRef) (f : Frag → Frag) : (updFrag s r f).launches = s.launches := rfl
@[simp] theorem updFrag_blocks (s : State) (r : FRef) (f : Frag → Frag) : (updFrag s r f).blocks = s.blocks := rfl
@[simp] theorem updFrag_ponds (s : State) (r : FRef) (f : Frag → Frag) : (updFrag s r f).ponds = s.ponds := rfl
@[simp] theorem updFrag_pools (s : State) (r : FRef) (f : Frag → Frag) : (updFrag s r f).pools = s.pools := rfl
@[simp] theorem updFrag_threads (s : State) (r : FRef) (f : Frag → Frag) : (updFrag s r f).threads = s.threads := rfl
@[simp] theorem updFrag_bars (s : State) (r : FRef) (f : Frag → Frag) : (updFrag s r f).bars = s.bars := rfl
@[simp] theorem updFrag_colls (s : State) (r : FRef) (f : Frag → Frag) : (updFrag s r f).colls = s.colls := rfl
@[simp] theorem updFrag_ops (s : State) (r : FRef) (f : Frag → Frag) : (updFrag s r f).ops = s.ops := rfl
@[simp] theorem updFrag_accs (s : State) (r : FRef) (f : Frag → Frag) : (updFrag s r f).accs = s.accs := rfl
@[simp] theorem updFrag_slices (s : State) (r : FRef) (f : Frag → Frag) : (updFrag s r f).slices = s.slices := rfl
@[simp] theorem updFrag_copies (s : State) (r : FRef) (f : Frag → Frag) : (updFrag s r f).copies = s.copies := rfl
@[simp] theorem updFrag_mops (s : State) (r : FRef) (f : Frag → Frag) : (updFrag s r f).mops = s.mops := rfl
@[simp] theorem updFrag_invals (s : State) (r : FRef) (f : Frag → Frag) : (updFrag s r f).invals = s.invals := rfl
@[simp] theorem updFrag_tlb (s : State) (r : FRef) (f : Frag → Frag) : (updFrag s r f).tlb = s.tlb := rfl
@[simp] theorem updFrag_icache (s : State) (r : FRef) (f : Frag → Frag) : (updFrag s r f).icache = s.icache := rfl
@[simp] theorem updFrag_badCores (s : State) (r : FRef) (f : Frag → Frag) : (updFrag s r f).badCores = s.badCores := rfl
@[simp] theorem updFrag_incomplete (s : State) (r : FRef) (f : Frag → Frag) : (updFrag s r f).incomplete = s.incomplete := rfl
@[simp] theorem updFrag_leaving (s : State) (r : FRef) (f : Frag → Frag) : (updFrag s r f).leaving = s.leaving := rfl
@[simp] theorem updFrag_rot (s : State) (r : FRef) (f : Frag → Frag) : (updFrag s r f).rot = s.rot := rfl
@[simp] theorem updFrag_lastQueue (s : State) (r : FRef) (f : Frag → Frag) : (updFrag s r f).lastQueue = s.lastQueue := rfl
@[simp] theorem updFrag_nextId (s : State) (r : FRef) (f : Frag → Frag) : (updFrag s r f).nextId = s.nextId := rfl
@[simp] theorem updFrag_free (s : State) (r : FRef) (f : Frag → Frag) : (updFrag s r f).free = s.free := rfl
@[simp] theorem updFrag_clock (s : State) (r : FRef) (f : Frag → Frag) : (updFrag s r f).clock = s.clock := rfl
@[simp] theorem updFrag_hints (s : State) (r : FRef) (f : Frag → Frag) : (updFrag s r f).hints = s.hints := rfl
@[simp] theorem updFrag_choices (s : State) (r : FRef) (f : Frag → Frag) : (updFrag s r f).choices = s.choices := rfl
@[simp] theorem updFrag_inbox (s : State) (r : FRef) (f : Frag → Frag) : (updFrag s r f).inbox = s.inbox := rfl
@[simp] theorem updFrag_cur (s : State) (r : FRef) (f : Frag → Frag) : (updFrag s r f).cur = s.cur := rfl
@[simp] theorem updFrag_frags (s : State) (r : FRef) (f : Frag → Frag) : (updFrag s r f).frags = updWhere (fun x => x.ref == r) f s.frags := rfl

/-! `updPool s n f` -/
@[simp] theorem updPool_host (s : State) (n : Nat) (f : Pool → Pool) : (updPool s n f).host = s.host := rfl
@[simp] theorem updPool_mem (s : State) (n : Nat) (f : Pool → Pool) : (updPool s n f).mem = s.mem := rfl
@[simp] theorem updPool_badLines (s : State) (n : Nat) (f : Pool → Pool) : (updPool s n f).badLines = s.badLines := rfl
@[simp] theorem updPool_lineTag (s : State) (n : Nat) (f : Pool → Pool) : (updPool s n f).lineTag = s.lineTag := rfl
@[simp] theorem updPool_hostLines (s : State) (n : Nat) (f : Pool → Pool) : (updPool s n f).hostLines = s.hostLines := rfl
@[simp] theorem updPool_peerLines (s : State) (n : Nat) (f : Pool → Pool) : (updPool s n f).peerLines = s.peerLines := rfl
@[simp] theorem updPool_l2priv (s : State) (n : Nat) (f : Pool → Pool) : (updPool s n f).l2priv = s.l2priv := rfl
@[simp] theorem updPool_ctxs (s : State) (n : Nat) (f : Pool → Pool) : (updPool s n f).ctxs = s.ctxs := rfl
@[simp] theorem updPool_launches (s : State) (n : Nat) (f : Pool → Pool) : (updPool s n f).launches = s.launches := rfl
@[simp] theorem updPool_blocks (s : State) (n : Nat) (f : Pool → Pool) : (updPool s n f).blocks = s.blocks := rfl
@[simp] theorem updPool_ponds (s : State) (n : Nat) (f : Pool → Pool) : (updPool s n f).ponds = s.ponds := rfl
@[simp] theorem updPool_frags (s : State) (n : Nat) (f : Pool → Pool) : (updPool s n f).frags = s.frags := rfl
@[simp] theorem updPool_threads (s : State) (n : Nat) (f : Pool → Pool) : (updPool s n f).threads = s.threads := rfl
@[simp] theorem updPool_bars (s : State) (n : Nat) (f : Pool → Pool) : (updPool s n f).bars = s.bars := rfl
@[simp] theorem updPool_colls (s : State) (n : Nat) (f : Pool → Pool) : (updPool s n f).colls = s.colls := rfl
@[simp] theorem updPool_ops (s : State) (n : Nat) (f : Pool → Pool) : (updPool s n f).ops = s.ops := rfl
@[simp] theorem updPool_accs (s : State) (n : Nat) (f : Pool → Pool) : (updPool s n f).accs = s.accs := rfl
@[simp] theorem updPool_slices (s : State) (n : Nat) (f : Pool → Pool) : (updPool s n f).slices = s.slices := rfl
@[simp] theorem updPool_copies (s : State) (n : Nat) (f : Pool → Pool) : (updPool s n f).copies = s.copies := rfl
@[simp] theorem updPool_mops (s : State) (n : Nat) (f : Pool → Pool) : (updPool s n f).mops = s.mops := rfl
@[simp] theorem updPool_invals (s : State) (n : Nat) (f : Pool → Pool) : (updPool s n f).invals = s.invals := rfl
@[simp] theorem updPool_tlb (s : State) (n : Nat) (f : Pool → Pool) : (updPool s n f).tlb = s.tlb := rfl
@[simp] theorem updPool_icache (s : State) (n : Nat) (f : Pool → Pool) : (updPool s n f).icache = s.icache := rfl
@[simp] theorem updPool_badCores (s : State) (n : Nat) (f : Pool → Pool) : (updPool s n f).badCores = s.badCores := rfl
@[simp] theorem updPool_incomplete (s : State) (n : Nat) (f : Pool → Pool) : (updPool s n f).incomplete = s.incomplete := rfl
@[simp] theorem updPool_leaving (s : State) (n : Nat) (f : Pool → Pool) : (updPool s n f).leaving = s.leaving := rfl
@[simp] theorem updPool_rot (s : State) (n : Nat) (f : Pool → Pool) : (updPool s n f).rot = s.rot := rfl
@[simp] theorem updPool_lastQueue (s : State) (n : Nat) (f : Pool → Pool) : (updPool s n f).lastQueue = s.lastQueue := rfl
@[simp] theorem updPool_nextId (s : State) (n : Nat) (f : Pool → Pool) : (updPool s n f).nextId = s.nextId := rfl
@[simp] theorem updPool_free (s : State) (n : Nat) (f : Pool → Pool) : (updPool s n f).free = s.free := rfl
@[simp] theorem updPool_clock (s : State) (n : Nat) (f : Pool → Pool) : (updPool s n f).clock = s.clock := rfl
@[simp] theorem updPool_hints (s : State) (n : Nat) (f : Pool → Pool) : (updPool s n f).hints = s.hints := rfl
@[simp] theorem updPool_choices (s : State) (n : Nat) (f : Pool → Pool) : (updPool s n f).choices = s.choices := rfl
@[simp] theorem updPool_inbox (s : State) (n : Nat) (f : Pool → Pool) : (updPool s n f).inbox = s.inbox := rfl
@[simp] theorem updPool_cur (s : State) (n : Nat) (f : Pool → Pool) : (updPool s n f).cur = s.cur := rfl
@[simp] theorem updPool_pools (s : State) (n : Nat) (f : Pool → Pool) : (updPool s n f).pools = updWhere (fun x => x.id == n) f s.pools := rfl

/-! `updPond s n f` -/
@[simp] theorem updPond_host (s : State) (n : Nat) (f : Pond → Pond) : (updPond s n f).host = s.host := rfl
@[simp] theorem updPond_mem (s : State) (n : Nat) (f : Pond → Pond) : (updPond s n f).mem = s.mem := rfl
@[simp] theorem updPond_badLines (s : State) (n : Nat) (f : Pond → Pond) : (updPond s n f).badLines = s.badLines := rfl
@[simp] theorem updPond_lineTag (s : State) (n : Nat) (f : Pond → Pond) : (updPond s n f).lineTag = s.lineTag := rfl
@[simp] theorem updPond_hostLines (s : State) (n : Nat) (f : Pond → Pond) : (updPond s n f).hostLines = s.hostLines := rfl
@[simp] theorem updPond_peerLines (s : State) (n : Nat) (f : Pond → Pond) : (updPond s n f).peerLines = s.peerLines := rfl
@[simp] theorem updPond_l2priv (s : State) (n : Nat) (f : Pond → Pond) : (updPond s n f).l2priv = s.l2priv := rfl
@[simp] theorem updPond_ctxs (s : State) (n : Nat) (f : Pond → Pond) : (updPond s n f).ctxs = s.ctxs := rfl
@[simp] theorem updPond_launches (s : State) (n : Nat) (f : Pond → Pond) : (updPond s n f).launches = s.launches := rfl
@[simp] theorem updPond_blocks (s : State) (n : Nat) (f : Pond → Pond) : (updPond s n f).blocks = s.blocks := rfl
@[simp] theorem updPond_pools (s : State) (n : Nat) (f : Pond → Pond) : (updPond s n f).pools = s.pools := rfl
@[simp] theorem updPond_frags (s : State) (n : Nat) (f : Pond → Pond) : (updPond s n f).frags = s.frags := rfl
@[simp] theorem updPond_threads (s : State) (n : Nat) (f : Pond → Pond) : (updPond s n f).threads = s.threads := rfl
@[simp] theorem updPond_bars (s : State) (n : Nat) (f : Pond → Pond) : (updPond s n f).bars = s.bars := rfl
@[simp] theorem updPond_colls (s : State) (n : Nat) (f : Pond → Pond) : (updPond s n f).colls = s.colls := rfl
@[simp] theorem updPond_ops (s : State) (n : Nat) (f : Pond → Pond) : (updPond s n f).ops = s.ops := rfl
@[simp] theorem updPond_accs (s : State) (n : Nat) (f : Pond → Pond) : (updPond s n f).accs = s.accs := rfl
@[simp] theorem updPond_slices (s : State) (n : Nat) (f : Pond → Pond) : (updPond s n f).slices = s.slices := rfl
@[simp] theorem updPond_copies (s : State) (n : Nat) (f : Pond → Pond) : (updPond s n f).copies = s.copies := rfl
@[simp] theorem updPond_mops (s : State) (n : Nat) (f : Pond → Pond) : (updPond s n f).mops = s.mops := rfl
@[simp] theorem updPond_invals (s : State) (n : Nat) (f : Pond → Pond) : (updPond s n f).invals = s.invals := rfl
@[simp] theorem updPond_tlb (s : State) (n : Nat) (f : Pond → Pond) : (updPond s n f).tlb = s.tlb := rfl
@[simp] theorem updPond_icache (s : State) (n : Nat) (f : Pond → Pond) : (updPond s n f).icache = s.icache := rfl
@[simp] theorem updPond_badCores (s : State) (n : Nat) (f : Pond → Pond) : (updPond s n f).badCores = s.badCores := rfl
@[simp] theorem updPond_incomplete (s : State) (n : Nat) (f : Pond → Pond) : (updPond s n f).incomplete = s.incomplete := rfl
@[simp] theorem updPond_leaving (s : State) (n : Nat) (f : Pond → Pond) : (updPond s n f).leaving = s.leaving := rfl
@[simp] theorem updPond_rot (s : State) (n : Nat) (f : Pond → Pond) : (updPond s n f).rot = s.rot := rfl
@[simp] theorem updPond_lastQueue (s : State) (n : Nat) (f : Pond → Pond) : (updPond s n f).lastQueue = s.lastQueue := rfl
@[simp] theorem updPond_nextId (s : State) (n : Nat) (f : Pond → Pond) : (updPond s n f).nextId = s.nextId := rfl
@[simp] theorem updPond_free (s : State) (n : Nat) (f : Pond → Pond) : (updPond s n f).free = s.free := rfl
@[simp] theorem updPond_clock (s : State) (n : Nat) (f : Pond → Pond) : (updPond s n f).clock = s.clock := rfl
@[simp] theorem updPond_hints (s : State) (n : Nat) (f : Pond → Pond) : (updPond s n f).hints = s.hints := rfl
@[simp] theorem updPond_choices (s : State) (n : Nat) (f : Pond → Pond) : (updPond s n f).choices = s.choices := rfl
@[simp] theorem updPond_inbox (s : State) (n : Nat) (f : Pond → Pond) : (updPond s n f).inbox = s.inbox := rfl
@[simp] theorem updPond_cur (s : State) (n : Nat) (f : Pond → Pond) : (updPond s n f).cur = s.cur := rfl
@[simp] theorem updPond_ponds (s : State) (n : Nat) (f : Pond → Pond) : (updPond s n f).ponds = updWhere (fun x => x.id == n) f s.ponds := rfl

/-! `updBlock s n f` -/
@[simp] theorem updBlock_host (s : State) (n : Nat) (f : Block → Block) : (updBlock s n f).host = s.host := rfl
@[simp] theorem updBlock_mem (s : State) (n : Nat) (f : Block → Block) : (updBlock s n f).mem = s.mem := rfl
@[simp] theorem updBlock_badLines (s : State) (n : Nat) (f : Block → Block) : (updBlock s n f).badLines = s.badLines := rfl
@[simp] theorem updBlock_lineTag (s : State) (n : Nat) (f : Block → Block) : (updBlock s n f).lineTag = s.lineTag := rfl
@[simp] theorem updBlock_hostLines (s : State) (n : Nat) (f : Block → Block) : (updBlock s n f).hostLines = s.hostLines := rfl
@[simp] theorem updBlock_peerLines (s : State) (n : Nat) (f : Block → Block) : (updBlock s n f).peerLines = s.peerLines := rfl
@[simp] theorem updBlock_l2priv (s : State) (n : Nat) (f : Block → Block) : (updBlock s n f).l2priv = s.l2priv := rfl
@[simp] theorem updBlock_ctxs (s : State) (n : Nat) (f : Block → Block) : (updBlock s n f).ctxs = s.ctxs := rfl
@[simp] theorem updBlock_launches (s : State) (n : Nat) (f : Block → Block) : (updBlock s n f).launches = s.launches := rfl
@[simp] theorem updBlock_ponds (s : State) (n : Nat) (f : Block → Block) : (updBlock s n f).ponds = s.ponds := rfl
@[simp] theorem updBlock_pools (s : State) (n : Nat) (f : Block → Block) : (updBlock s n f).pools = s.pools := rfl
@[simp] theorem updBlock_frags (s : State) (n : Nat) (f : Block → Block) : (updBlock s n f).frags = s.frags := rfl
@[simp] theorem updBlock_threads (s : State) (n : Nat) (f : Block → Block) : (updBlock s n f).threads = s.threads := rfl
@[simp] theorem updBlock_bars (s : State) (n : Nat) (f : Block → Block) : (updBlock s n f).bars = s.bars := rfl
@[simp] theorem updBlock_colls (s : State) (n : Nat) (f : Block → Block) : (updBlock s n f).colls = s.colls := rfl
@[simp] theorem updBlock_ops (s : State) (n : Nat) (f : Block → Block) : (updBlock s n f).ops = s.ops := rfl
@[simp] theorem updBlock_accs (s : State) (n : Nat) (f : Block → Block) : (updBlock s n f).accs = s.accs := rfl
@[simp] theorem updBlock_slices (s : State) (n : Nat) (f : Block → Block) : (updBlock s n f).slices = s.slices := rfl
@[simp] theorem updBlock_copies (s : State) (n : Nat) (f : Block → Block) : (updBlock s n f).copies = s.copies := rfl
@[simp] theorem updBlock_mops (s : State) (n : Nat) (f : Block → Block) : (updBlock s n f).mops = s.mops := rfl
@[simp] theorem updBlock_invals (s : State) (n : Nat) (f : Block → Block) : (updBlock s n f).invals = s.invals := rfl
@[simp] theorem updBlock_tlb (s : State) (n : Nat) (f : Block → Block) : (updBlock s n f).tlb = s.tlb := rfl
@[simp] theorem updBlock_icache (s : State) (n : Nat) (f : Block → Block) : (updBlock s n f).icache = s.icache := rfl
@[simp] theorem updBlock_badCores (s : State) (n : Nat) (f : Block → Block) : (updBlock s n f).badCores = s.badCores := rfl
@[simp] theorem updBlock_incomplete (s : State) (n : Nat) (f : Block → Block) : (updBlock s n f).incomplete = s.incomplete := rfl
@[simp] theorem updBlock_leaving (s : State) (n : Nat) (f : Block → Block) : (updBlock s n f).leaving = s.leaving := rfl
@[simp] theorem updBlock_rot (s : State) (n : Nat) (f : Block → Block) : (updBlock s n f).rot = s.rot := rfl
@[simp] theorem updBlock_lastQueue (s : State) (n : Nat) (f : Block → Block) : (updBlock s n f).lastQueue = s.lastQueue := rfl
@[simp] theorem updBlock_nextId (s : State) (n : Nat) (f : Block → Block) : (updBlock s n f).nextId = s.nextId := rfl
@[simp] theorem updBlock_free (s : State) (n : Nat) (f : Block → Block) : (updBlock s n f).free = s.free := rfl
@[simp] theorem updBlock_clock (s : State) (n : Nat) (f : Block → Block) : (updBlock s n f).clock = s.clock := rfl
@[simp] theorem updBlock_hints (s : State) (n : Nat) (f : Block → Block) : (updBlock s n f).hints = s.hints := rfl
@[simp] theorem updBlock_choices (s : State) (n : Nat) (f : Block → Block) : (updBlock s n f).choices = s.choices := rfl
@[simp] theorem updBlock_inbox (s : State) (n : Nat) (f : Block → Block) : (updBlock s n f).inbox = s.inbox := rfl
@[simp] theorem updBlock_cur (s : State) (n : Nat) (f : Block → Block) : (updBlock s n f).cur = s.cur := rfl
@[simp] theorem updBlock_blocks (s : State) (n : Nat) (f : Block → Block) : (updBlock s n f).blocks = updWhere (fun x => x.id == n) f s.blocks := rfl

/-! `updLaunch s n f` -/
@[simp] theorem updLaunch_host (s : State) (n : Nat) (f : Launch → Launch) : (updLaunch s n f).host = s.host := rfl
@[simp] theorem updLaunch_mem (s : State) (n : Nat) (f : Launch → Launch) : (updLaunch s n f).mem = s.mem := rfl
@[simp] theorem updLaunch_badLines (s : State) (n : Nat) (f : Launch → Launch) : (updLaunch s n f).badLines = s.badLines := rfl
@[simp] theorem updLaunch_lineTag (s : State) (n : Nat) (f : Launch → Launch) : (updLaunch s n f).lineTag = s.lineTag := rfl
@[simp] theorem updLaunch_hostLines (s : State) (n : Nat) (f : Launch → Launch) : (updLaunch s n f).hostLines = s.hostLines := rfl
@[simp] theorem updLaunch_peerLines (s : State) (n : Nat) (f : Launch → Launch) : (updLaunch s n f).peerLines = s.peerLines := rfl
@[simp] theorem updLaunch_l2priv (s : State) (n : Nat) (f : Launch → Launch) : (updLaunch s n f).l2priv = s.l2priv := rfl
@[simp] theorem updLaunch_ctxs (s : State) (n : Nat) (f : Launch → Launch) : (updLaunch s n f).ctxs = s.ctxs := rfl
@[simp] theorem updLaunch_blocks (s : State) (n : Nat) (f : Launch → Launch) : (updLaunch s n f).blocks = s.blocks := rfl
@[simp] theorem updLaunch_ponds (s : State) (n : Nat) (f : Launch → Launch) : (updLaunch s n f).ponds = s.ponds := rfl
@[simp] theorem updLaunch_pools (s : State) (n : Nat) (f : Launch → Launch) : (updLaunch s n f).pools = s.pools := rfl
@[simp] theorem updLaunch_frags (s : State) (n : Nat) (f : Launch → Launch) : (updLaunch s n f).frags = s.frags := rfl
@[simp] theorem updLaunch_threads (s : State) (n : Nat) (f : Launch → Launch) : (updLaunch s n f).threads = s.threads := rfl
@[simp] theorem updLaunch_bars (s : State) (n : Nat) (f : Launch → Launch) : (updLaunch s n f).bars = s.bars := rfl
@[simp] theorem updLaunch_colls (s : State) (n : Nat) (f : Launch → Launch) : (updLaunch s n f).colls = s.colls := rfl
@[simp] theorem updLaunch_ops (s : State) (n : Nat) (f : Launch → Launch) : (updLaunch s n f).ops = s.ops := rfl
@[simp] theorem updLaunch_accs (s : State) (n : Nat) (f : Launch → Launch) : (updLaunch s n f).accs = s.accs := rfl
@[simp] theorem updLaunch_slices (s : State) (n : Nat) (f : Launch → Launch) : (updLaunch s n f).slices = s.slices := rfl
@[simp] theorem updLaunch_copies (s : State) (n : Nat) (f : Launch → Launch) : (updLaunch s n f).copies = s.copies := rfl
@[simp] theorem updLaunch_mops (s : State) (n : Nat) (f : Launch → Launch) : (updLaunch s n f).mops = s.mops := rfl
@[simp] theorem updLaunch_invals (s : State) (n : Nat) (f : Launch → Launch) : (updLaunch s n f).invals = s.invals := rfl
@[simp] theorem updLaunch_tlb (s : State) (n : Nat) (f : Launch → Launch) : (updLaunch s n f).tlb = s.tlb := rfl
@[simp] theorem updLaunch_icache (s : State) (n : Nat) (f : Launch → Launch) : (updLaunch s n f).icache = s.icache := rfl
@[simp] theorem updLaunch_badCores (s : State) (n : Nat) (f : Launch → Launch) : (updLaunch s n f).badCores = s.badCores := rfl
@[simp] theorem updLaunch_incomplete (s : State) (n : Nat) (f : Launch → Launch) : (updLaunch s n f).incomplete = s.incomplete := rfl
@[simp] theorem updLaunch_leaving (s : State) (n : Nat) (f : Launch → Launch) : (updLaunch s n f).leaving = s.leaving := rfl
@[simp] theorem updLaunch_rot (s : State) (n : Nat) (f : Launch → Launch) : (updLaunch s n f).rot = s.rot := rfl
@[simp] theorem updLaunch_lastQueue (s : State) (n : Nat) (f : Launch → Launch) : (updLaunch s n f).lastQueue = s.lastQueue := rfl
@[simp] theorem updLaunch_nextId (s : State) (n : Nat) (f : Launch → Launch) : (updLaunch s n f).nextId = s.nextId := rfl
@[simp] theorem updLaunch_free (s : State) (n : Nat) (f : Launch → Launch) : (updLaunch s n f).free = s.free := rfl
@[simp] theorem updLaunch_clock (s : State) (n : Nat) (f : Launch → Launch) : (updLaunch s n f).clock = s.clock := rfl
@[simp] theorem updLaunch_hints (s : State) (n : Nat) (f : Launch → Launch) : (updLaunch s n f).hints = s.hints := rfl
@[simp] theorem updLaunch_choices (s : State) (n : Nat) (f : Launch → Launch) : (updLaunch s n f).choices = s.choices := rfl
@[simp] theorem updLaunch_inbox (s : State) (n : Nat) (f : Launch → Launch) : (updLaunch s n f).inbox = s.inbox := rfl
@[simp] theorem updLaunch_cur (s : State) (n : Nat) (f : Launch → Launch) : (updLaunch s n f).cur = s.cur := rfl
@[simp] theorem updLaunch_launches (s : State) (n : Nat) (f : Launch → Launch) : (updLaunch s n f).launches = updWhere (fun x => x.id == n) f s.launches := rfl

/-! `updCtx s n f` -/
@[simp] theorem updCtx_host (s : State) (n : Nat) (f : Ctx → Ctx) : (updCtx s n f).host = s.host := rfl
@[simp] theorem updCtx_mem (s : State) (n : Nat) (f : Ctx → Ctx) : (updCtx s n f).mem = s.mem := rfl
@[simp] theorem updCtx_badLines (s : State) (n : Nat) (f : Ctx → Ctx) : (updCtx s n f).badLines = s.badLines := rfl
@[simp] theorem updCtx_lineTag (s : State) (n : Nat) (f : Ctx → Ctx) : (updCtx s n f).lineTag = s.lineTag := rfl
@[simp] theorem updCtx_hostLines (s : State) (n : Nat) (f : Ctx → Ctx) : (updCtx s n f).hostLines = s.hostLines := rfl
@[simp] theorem updCtx_peerLines (s : State) (n : Nat) (f : Ctx → Ctx) : (updCtx s n f).peerLines = s.peerLines := rfl
@[simp] theorem updCtx_l2priv (s : State) (n : Nat) (f : Ctx → Ctx) : (updCtx s n f).l2priv = s.l2priv := rfl
@[simp] theorem updCtx_launches (s : State) (n : Nat) (f : Ctx → Ctx) : (updCtx s n f).launches = s.launches := rfl
@[simp] theorem updCtx_blocks (s : State) (n : Nat) (f : Ctx → Ctx) : (updCtx s n f).blocks = s.blocks := rfl
@[simp] theorem updCtx_ponds (s : State) (n : Nat) (f : Ctx → Ctx) : (updCtx s n f).ponds = s.ponds := rfl
@[simp] theorem updCtx_pools (s : State) (n : Nat) (f : Ctx → Ctx) : (updCtx s n f).pools = s.pools := rfl
@[simp] theorem updCtx_frags (s : State) (n : Nat) (f : Ctx → Ctx) : (updCtx s n f).frags = s.frags := rfl
@[simp] theorem updCtx_threads (s : State) (n : Nat) (f : Ctx → Ctx) : (updCtx s n f).threads = s.threads := rfl
@[simp] theorem updCtx_bars (s : State) (n : Nat) (f : Ctx → Ctx) : (updCtx s n f).bars = s.bars := rfl
@[simp] theorem updCtx_colls (s : State) (n : Nat) (f : Ctx → Ctx) : (updCtx s n f).colls = s.colls := rfl
@[simp] theorem updCtx_ops (s : State) (n : Nat) (f : Ctx → Ctx) : (updCtx s n f).ops = s.ops := rfl
@[simp] theorem updCtx_accs (s : State) (n : Nat) (f : Ctx → Ctx) : (updCtx s n f).accs = s.accs := rfl
@[simp] theorem updCtx_slices (s : State) (n : Nat) (f : Ctx → Ctx) : (updCtx s n f).slices = s.slices := rfl
@[simp] theorem updCtx_copies (s : State) (n : Nat) (f : Ctx → Ctx) : (updCtx s n f).copies = s.copies := rfl
@[simp] theorem updCtx_mops (s : State) (n : Nat) (f : Ctx → Ctx) : (updCtx s n f).mops = s.mops := rfl
@[simp] theorem updCtx_invals (s : State) (n : Nat) (f : Ctx → Ctx) : (updCtx s n f).invals = s.invals := rfl
@[simp] theorem updCtx_tlb (s : State) (n : Nat) (f : Ctx → Ctx) : (updCtx s n f).tlb = s.tlb := rfl
@[simp] theorem updCtx_icache (s : State) (n : Nat) (f : Ctx → Ctx) : (updCtx s n f).icache = s.icache := rfl
@[simp] theorem updCtx_badCores (s : State) (n : Nat) (f : Ctx → Ctx) : (updCtx s n f).badCores = s.badCores := rfl
@[simp] theorem updCtx_incomplete (s : State) (n : Nat) (f : Ctx → Ctx) : (updCtx s n f).incomplete = s.incomplete := rfl
@[simp] theorem updCtx_leaving (s : State) (n : Nat) (f : Ctx → Ctx) : (updCtx s n f).leaving = s.leaving := rfl
@[simp] theorem updCtx_rot (s : State) (n : Nat) (f : Ctx → Ctx) : (updCtx s n f).rot = s.rot := rfl
@[simp] theorem updCtx_lastQueue (s : State) (n : Nat) (f : Ctx → Ctx) : (updCtx s n f).lastQueue = s.lastQueue := rfl
@[simp] theorem updCtx_nextId (s : State) (n : Nat) (f : Ctx → Ctx) : (updCtx s n f).nextId = s.nextId := rfl
@[simp] theorem updCtx_free (s : State) (n : Nat) (f : Ctx → Ctx) : (updCtx s n f).free = s.free := rfl
@[simp] theorem updCtx_clock (s : State) (n : Nat) (f : Ctx → Ctx) : (updCtx s n f).clock = s.clock := rfl
@[simp] theorem updCtx_hints (s : State) (n : Nat) (f : Ctx → Ctx) : (updCtx s n f).hints = s.hints := rfl
@[simp] theorem updCtx_choices (s : State) (n : Nat) (f : Ctx → Ctx) : (updCtx s n f).choices = s.choices := rfl
@[simp] theorem updCtx_inbox (s : State) (n : Nat) (f : Ctx → Ctx) : (updCtx s n f).inbox = s.inbox := rfl
@[simp] theorem updCtx_cur (s : State) (n : Nat) (f : Ctx → Ctx) : (updCtx s n f).cur = s.cur := rfl
@[simp] theorem updCtx_ctxs (s : State) (n : Nat) (f : Ctx → Ctx) : (updCtx s n f).ctxs = updWhere (fun x => x.rcd.id == n) f s.ctxs := rfl

/-! `(takeId s).2` -/
@[simp] theorem takeId_snd_host (s : State) : ((takeId s).2).host = s.host := rfl
@[simp] theorem takeId_snd_mem (s : State) : ((takeId s).2).mem = s.mem := rfl
@[simp] theorem takeId_snd_badLines (s : State) : ((takeId s).2).badLines = s.badLines := rfl
@[simp] theorem takeId_snd_lineTag (s : State) : ((takeId s).2).lineTag = s.lineTag := rfl
@[simp] theorem takeId_snd_hostLines (s : State) : ((takeId s).2).hostLines = s.hostLines := rfl
@[simp] theorem takeId_snd_peerLines (s : State) : ((takeId s).2).peerLines = s.peerLines := rfl
@[simp] theorem takeId_snd_l2priv (s : State) : ((takeId s).2).l2priv = s.l2priv := rfl
@[simp] theorem takeId_snd_ctxs (s : State) : ((takeId s).2).ctxs = s.ctxs := rfl
@[simp] theorem takeId_snd_launches (s : State) : ((takeId s).2).launches = s.launches := rfl
@[simp] theorem takeId_snd_blocks (s : State) : ((takeId s).2).blocks = s.blocks := rfl
@[simp] theorem takeId_snd_ponds (s : State) : ((takeId s).2).ponds = s.ponds := rfl
@[simp] theorem takeId_snd_pools (s : State) : ((takeId s).2).pools = s.pools := rfl
@[simp] theorem takeId_snd_frags (s : State) : ((takeId s).2).frags = s.frags := rfl
@[simp] theorem takeId_snd_threads (s : State) : ((takeId s).2).threads = s.threads := rfl
@[simp] theorem takeId_snd_bars (s : State) : ((takeId s).2).bars = s.bars := rfl
@[simp] theorem takeId_snd_colls (s : State) : ((takeId s).2).colls = s.colls := rfl
@[simp] theorem takeId_snd_ops (s : State) : ((takeId s).2).ops = s.ops := rfl
@[simp] theorem takeId_snd_accs (s : State) : ((takeId s).2).accs = s.accs := rfl
@[simp] theorem takeId_snd_slices (s : State) : ((takeId s).2).slices = s.slices := rfl
@[simp] theorem takeId_snd_copies (s : State) : ((takeId s).2).copies = s.copies := rfl
@[simp] theorem takeId_snd_mops (s : State) : ((takeId s).2).mops = s.mops := rfl
@[simp] theorem takeId_snd_invals (s : State) : ((takeId s).2).invals = s.invals := rfl
@[simp] theorem takeId_snd_tlb (s : State) : ((takeId s).2).tlb = s.tlb := rfl
@[simp] theorem takeId_snd_icache (s : State) : ((takeId s).2).icache = s.icache := rfl
@[simp] theorem takeId_snd_badCores (s : State) : ((takeId s).2).badCores = s.badCores := rfl
@[simp] theorem takeId_snd_incomplete (s : State) : ((takeId s).2).incomplete = s.incomplete := rfl
@[simp] theorem takeId_snd_leaving (s : State) : ((takeId s).2).leaving = s.leaving := rfl
@[simp] theorem takeId_snd_rot (s : State) : ((takeId s).2).rot = s.rot := rfl
@[simp] theorem takeId_snd_lastQueue (s : State) : ((takeId s).2).lastQueue = s.lastQueue := rfl
@[simp] theorem takeId_snd_free (s : State) : ((takeId s).2).free = s.free := rfl
@[simp] theorem takeId_snd_clock (s : State) : ((takeId s).2).clock = s.clock := rfl
@[simp] theorem takeId_snd_hints (s : State) : ((takeId s).2).hints = s.hints := rfl
@[simp] theorem takeId_snd_choices (s : State) : ((takeId s).2).choices = s.choices := rfl
@[simp] theorem takeId_snd_inbox (s : State) : ((takeId s).2).inbox = s.inbox := rfl
@[simp] theorem takeId_snd_cur (s : State) : ((takeId s).2).cur = s.cur := rfl
@[simp] theorem takeId_snd_nextId (s : State) : ((takeId s).2).nextId = s.nextId + 1 := rfl

/-! `begin_ s e` -/
@[simp] theorem beginWord_host (s : State) (e : Env) : (begin_ s e).host = s.host := rfl
@[simp] theorem beginWord_mem (s : State) (e : Env) : (begin_ s e).mem = s.mem := rfl
@[simp] theorem beginWord_badLines (s : State) (e : Env) : (begin_ s e).badLines = s.badLines := rfl
@[simp] theorem beginWord_lineTag (s : State) (e : Env) : (begin_ s e).lineTag = s.lineTag := rfl
@[simp] theorem beginWord_hostLines (s : State) (e : Env) : (begin_ s e).hostLines = s.hostLines := rfl
@[simp] theorem beginWord_peerLines (s : State) (e : Env) : (begin_ s e).peerLines = s.peerLines := rfl
@[simp] theorem beginWord_l2priv (s : State) (e : Env) : (begin_ s e).l2priv = s.l2priv := rfl
@[simp] theorem beginWord_ctxs (s : State) (e : Env) : (begin_ s e).ctxs = s.ctxs := rfl
@[simp] theorem beginWord_launches (s : State) (e : Env) : (begin_ s e).launches = s.launches := rfl
@[simp] theorem beginWord_blocks (s : State) (e : Env) : (begin_ s e).blocks = s.blocks := rfl
@[simp] theorem beginWord_ponds (s : State) (e : Env) : (begin_ s e).ponds = s.ponds := rfl
@[simp] theorem beginWord_pools (s : State) (e : Env) : (begin_ s e).pools = s.pools := rfl
@[simp] theorem beginWord_frags (s : State) (e : Env) : (begin_ s e).frags = s.frags := rfl
@[simp] theorem beginWord_threads (s : State) (e : Env) : (begin_ s e).threads = s.threads := rfl
@[simp] theorem beginWord_bars (s : State) (e : Env) : (begin_ s e).bars = s.bars := rfl
@[simp] theorem beginWord_colls (s : State) (e : Env) : (begin_ s e).colls = s.colls := rfl
@[simp] theorem beginWord_ops (s : State) (e : Env) : (begin_ s e).ops = s.ops := rfl
@[simp] theorem beginWord_accs (s : State) (e : Env) : (begin_ s e).accs = s.accs := rfl
@[simp] theorem beginWord_slices (s : State) (e : Env) : (begin_ s e).slices = s.slices := rfl
@[simp] theorem beginWord_copies (s : State) (e : Env) : (begin_ s e).copies = s.copies := rfl
@[simp] theorem beginWord_mops (s : State) (e : Env) : (begin_ s e).mops = s.mops := rfl
@[simp] theorem beginWord_invals (s : State) (e : Env) : (begin_ s e).invals = s.invals := rfl
@[simp] theorem beginWord_tlb (s : State) (e : Env) : (begin_ s e).tlb = s.tlb := rfl
@[simp] theorem beginWord_icache (s : State) (e : Env) : (begin_ s e).icache = s.icache := rfl
@[simp] theorem beginWord_badCores (s : State) (e : Env) : (begin_ s e).badCores = s.badCores := rfl
@[simp] theorem beginWord_leaving (s : State) (e : Env) : (begin_ s e).leaving = s.leaving := rfl
@[simp] theorem beginWord_rot (s : State) (e : Env) : (begin_ s e).rot = s.rot := rfl
@[simp] theorem beginWord_lastQueue (s : State) (e : Env) : (begin_ s e).lastQueue = s.lastQueue := rfl
@[simp] theorem beginWord_nextId (s : State) (e : Env) : (begin_ s e).nextId = s.nextId := rfl
@[simp] theorem beginWord_free (s : State) (e : Env) : (begin_ s e).free = s.free := rfl
@[simp] theorem beginWord_clock (s : State) (e : Env) : (begin_ s e).clock = s.clock := rfl
@[simp] theorem beginWord_hints (s : State) (e : Env) : (begin_ s e).hints = s.hints := rfl
@[simp] theorem beginWord_choices (s : State) (e : Env) : (begin_ s e).choices = s.choices := rfl
@[simp] theorem beginWord_inbox (s : State) (e : Env) : (begin_ s e).inbox = s.inbox := rfl
@[simp] theorem beginWord_cur (s : State) (e : Env) : (begin_ s e).cur = s.cur := rfl
@[simp] theorem beginWord_incomplete (s : State) (e : Env) : (begin_ s e).incomplete = s.incomplete ++ [e.iss.wid] := rfl

/-! `completeWord s w` -/
@[simp] theorem completeWord_host (s : State) (w : Nat) : (completeWord s w).host = s.host := rfl
@[simp] theorem completeWord_mem (s : State) (w : Nat) : (completeWord s w).mem = s.mem := rfl
@[simp] theorem completeWord_badLines (s : State) (w : Nat) : (completeWord s w).badLines = s.badLines := rfl
@[simp] theorem completeWord_lineTag (s : State) (w : Nat) : (completeWord s w).lineTag = s.lineTag := rfl
@[simp] theorem completeWord_hostLines (s : State) (w : Nat) : (completeWord s w).hostLines = s.hostLines := rfl
@[simp] theorem completeWord_peerLines (s : State) (w : Nat) : (completeWord s w).peerLines = s.peerLines := rfl
@[simp] theorem completeWord_l2priv (s : State) (w : Nat) : (completeWord s w).l2priv = s.l2priv := rfl
@[simp] theorem completeWord_ctxs (s : State) (w : Nat) : (completeWord s w).ctxs = s.ctxs := rfl
@[simp] theorem completeWord_launches (s : State) (w : Nat) : (completeWord s w).launches = s.launches := rfl
@[simp] theorem completeWord_blocks (s : State) (w : Nat) : (completeWord s w).blocks = s.blocks := rfl
@[simp] theorem completeWord_ponds (s : State) (w : Nat) : (completeWord s w).ponds = s.ponds := rfl
@[simp] theorem completeWord_pools (s : State) (w : Nat) : (completeWord s w).pools = s.pools := rfl
@[simp] theorem completeWord_frags (s : State) (w : Nat) : (completeWord s w).frags = s.frags := rfl
@[simp] theorem completeWord_threads (s : State) (w : Nat) : (completeWord s w).threads = s.threads := rfl
@[simp] theorem completeWord_bars (s : State) (w : Nat) : (completeWord s w).bars = s.bars := rfl
@[simp] theorem completeWord_colls (s : State) (w : Nat) : (completeWord s w).colls = s.colls := rfl
@[simp] theorem completeWord_ops (s : State) (w : Nat) : (completeWord s w).ops = s.ops := rfl
@[simp] theorem completeWord_accs (s : State) (w : Nat) : (completeWord s w).accs = s.accs := rfl
@[simp] theorem completeWord_slices (s : State) (w : Nat) : (completeWord s w).slices = s.slices := rfl
@[simp] theorem completeWord_copies (s : State) (w : Nat) : (completeWord s w).copies = s.copies := rfl
@[simp] theorem completeWord_mops (s : State) (w : Nat) : (completeWord s w).mops = s.mops := rfl
@[simp] theorem completeWord_invals (s : State) (w : Nat) : (completeWord s w).invals = s.invals := rfl
@[simp] theorem completeWord_tlb (s : State) (w : Nat) : (completeWord s w).tlb = s.tlb := rfl
@[simp] theorem completeWord_icache (s : State) (w : Nat) : (completeWord s w).icache = s.icache := rfl
@[simp] theorem completeWord_badCores (s : State) (w : Nat) : (completeWord s w).badCores = s.badCores := rfl
@[simp] theorem completeWord_leaving (s : State) (w : Nat) : (completeWord s w).leaving = s.leaving := rfl
@[simp] theorem completeWord_rot (s : State) (w : Nat) : (completeWord s w).rot = s.rot := rfl
@[simp] theorem completeWord_lastQueue (s : State) (w : Nat) : (completeWord s w).lastQueue = s.lastQueue := rfl
@[simp] theorem completeWord_nextId (s : State) (w : Nat) : (completeWord s w).nextId = s.nextId := rfl
@[simp] theorem completeWord_free (s : State) (w : Nat) : (completeWord s w).free = s.free := rfl
@[simp] theorem completeWord_clock (s : State) (w : Nat) : (completeWord s w).clock = s.clock := rfl
@[simp] theorem completeWord_hints (s : State) (w : Nat) : (completeWord s w).hints = s.hints := rfl
@[simp] theorem completeWord_choices (s : State) (w : Nat) : (completeWord s w).choices = s.choices := rfl
@[simp] theorem completeWord_inbox (s : State) (w : Nat) : (completeWord s w).inbox = s.inbox := rfl
@[simp] theorem completeWord_cur (s : State) (w : Nat) : (completeWord s w).cur = s.cur := rfl
@[simp] theorem completeWord_incomplete (s : State) (w : Nat) : (completeWord s w).incomplete = s.incomplete.filter (· != w) := rfl

/-! `endWord s` -/
@[simp] theorem endWord_host (s : State) : (endWord s).host = s.host := rfl
@[simp] theorem endWord_mem (s : State) : (endWord s).mem = s.mem := rfl
@[simp] theorem endWord_badLines (s : State) : (endWord s).badLines = s.badLines := rfl
@[simp] theorem endWord_lineTag (s : State) : (endWord s).lineTag = s.lineTag := rfl
@[simp] theorem endWord_hostLines (s : State) : (endWord s).hostLines = s.hostLines := rfl
@[simp] theorem endWord_peerLines (s : State) : (endWord s).peerLines = s.peerLines := rfl
@[simp] theorem endWord_l2priv (s : State) : (endWord s).l2priv = s.l2priv := rfl
@[simp] theorem endWord_ctxs (s : State) : (endWord s).ctxs = s.ctxs := rfl
@[simp] theorem endWord_launches (s : State) : (endWord s).launches = s.launches := rfl
@[simp] theorem endWord_blocks (s : State) : (endWord s).blocks = s.blocks := rfl
@[simp] theorem endWord_ponds (s : State) : (endWord s).ponds = s.ponds := rfl
@[simp] theorem endWord_pools (s : State) : (endWord s).pools = s.pools := rfl
@[simp] theorem endWord_frags (s : State) : (endWord s).frags = s.frags := rfl
@[simp] theorem endWord_threads (s : State) : (endWord s).threads = s.threads := rfl
@[simp] theorem endWord_bars (s : State) : (endWord s).bars = s.bars := rfl
@[simp] theorem endWord_colls (s : State) : (endWord s).colls = s.colls := rfl
@[simp] theorem endWord_ops (s : State) : (endWord s).ops = s.ops := rfl
@[simp] theorem endWord_accs (s : State) : (endWord s).accs = s.accs := rfl
@[simp] theorem endWord_slices (s : State) : (endWord s).slices = s.slices := rfl
@[simp] theorem endWord_copies (s : State) : (endWord s).copies = s.copies := rfl
@[simp] theorem endWord_mops (s : State) : (endWord s).mops = s.mops := rfl
@[simp] theorem endWord_invals (s : State) : (endWord s).invals = s.invals := rfl
@[simp] theorem endWord_tlb (s : State) : (endWord s).tlb = s.tlb := rfl
@[simp] theorem endWord_icache (s : State) : (endWord s).icache = s.icache := rfl
@[simp] theorem endWord_badCores (s : State) : (endWord s).badCores = s.badCores := rfl
@[simp] theorem endWord_incomplete (s : State) : (endWord s).incomplete = s.incomplete := rfl
@[simp] theorem endWord_leaving (s : State) : (endWord s).leaving = s.leaving := rfl
@[simp] theorem endWord_rot (s : State) : (endWord s).rot = s.rot := rfl
@[simp] theorem endWord_lastQueue (s : State) : (endWord s).lastQueue = s.lastQueue := rfl
@[simp] theorem endWord_nextId (s : State) : (endWord s).nextId = s.nextId := rfl
@[simp] theorem endWord_free (s : State) : (endWord s).free = s.free := rfl
@[simp] theorem endWord_clock (s : State) : (endWord s).clock = s.clock := rfl
@[simp] theorem endWord_hints (s : State) : (endWord s).hints = s.hints := rfl
@[simp] theorem endWord_choices (s : State) : (endWord s).choices = s.choices := rfl
@[simp] theorem endWord_inbox (s : State) : (endWord s).inbox = s.inbox := rfl
@[simp] theorem endWord_cur (s : State) : (endWord s).cur = none := rfl

/-! `raiseMsix s v` -/
@[simp] theorem raiseMsix_mem (s : State) (v : Nat) : (raiseMsix s v).mem = s.mem := rfl
@[simp] theorem raiseMsix_badLines (s : State) (v : Nat) : (raiseMsix s v).badLines = s.badLines := rfl
@[simp] theorem raiseMsix_lineTag (s : State) (v : Nat) : (raiseMsix s v).lineTag = s.lineTag := rfl
@[simp] theorem raiseMsix_hostLines (s : State) (v : Nat) : (raiseMsix s v).hostLines = s.hostLines := rfl
@[simp] theorem raiseMsix_peerLines (s : State) (v : Nat) : (raiseMsix s v).peerLines = s.peerLines := rfl
@[simp] theorem raiseMsix_l2priv (s : State) (v : Nat) : (raiseMsix s v).l2priv = s.l2priv := rfl
@[simp] theorem raiseMsix_ctxs (s : State) (v : Nat) : (raiseMsix s v).ctxs = s.ctxs := rfl
@[simp] theorem raiseMsix_launches (s : State) (v : Nat) : (raiseMsix s v).launches = s.launches := rfl
@[simp] theorem raiseMsix_blocks (s : State) (v : Nat) : (raiseMsix s v).blocks = s.blocks := rfl
@[simp] theorem raiseMsix_ponds (s : State) (v : Nat) : (raiseMsix s v).ponds = s.ponds := rfl
@[simp] theorem raiseMsix_pools (s : State) (v : Nat) : (raiseMsix s v).pools = s.pools := rfl
@[simp] theorem raiseMsix_frags (s : State) (v : Nat) : (raiseMsix s v).frags = s.frags := rfl
@[simp] theorem raiseMsix_threads (s : State) (v : Nat) : (raiseMsix s v).threads = s.threads := rfl
@[simp] theorem raiseMsix_bars (s : State) (v : Nat) : (raiseMsix s v).bars = s.bars := rfl
@[simp] theorem raiseMsix_colls (s : State) (v : Nat) : (raiseMsix s v).colls = s.colls := rfl
@[simp] theorem raiseMsix_ops (s : State) (v : Nat) : (raiseMsix s v).ops = s.ops := rfl
@[simp] theorem raiseMsix_accs (s : State) (v : Nat) : (raiseMsix s v).accs = s.accs := rfl
@[simp] theorem raiseMsix_slices (s : State) (v : Nat) : (raiseMsix s v).slices = s.slices := rfl
@[simp] theorem raiseMsix_copies (s : State) (v : Nat) : (raiseMsix s v).copies = s.copies := rfl
@[simp] theorem raiseMsix_mops (s : State) (v : Nat) : (raiseMsix s v).mops = s.mops := rfl
@[simp] theorem raiseMsix_invals (s : State) (v : Nat) : (raiseMsix s v).invals = s.invals := rfl
@[simp] theorem raiseMsix_tlb (s : State) (v : Nat) : (raiseMsix s v).tlb = s.tlb := rfl
@[simp] theorem raiseMsix_icache (s : State) (v : Nat) : (raiseMsix s v).icache = s.icache := rfl
@[simp] theorem raiseMsix_badCores (s : State) (v : Nat) : (raiseMsix s v).badCores = s.badCores := rfl
@[simp] theorem raiseMsix_incomplete (s : State) (v : Nat) : (raiseMsix s v).incomplete = s.incomplete := rfl
@[simp] theorem raiseMsix_leaving (s : State) (v : Nat) : (raiseMsix s v).leaving = s.leaving := rfl
@[simp] theorem raiseMsix_rot (s : State) (v : Nat) : (raiseMsix s v).rot = s.rot := rfl
@[simp] theorem raiseMsix_lastQueue (s : State) (v : Nat) : (raiseMsix s v).lastQueue = s.lastQueue := rfl
@[simp] theorem raiseMsix_nextId (s : State) (v : Nat) : (raiseMsix s v).nextId = s.nextId := rfl
@[simp] theorem raiseMsix_free (s : State) (v : Nat) : (raiseMsix s v).free = s.free := rfl
@[simp] theorem raiseMsix_clock (s : State) (v : Nat) : (raiseMsix s v).clock = s.clock := rfl
@[simp] theorem raiseMsix_hints (s : State) (v : Nat) : (raiseMsix s v).hints = s.hints := rfl
@[simp] theorem raiseMsix_choices (s : State) (v : Nat) : (raiseMsix s v).choices = s.choices := rfl
@[simp] theorem raiseMsix_inbox (s : State) (v : Nat) : (raiseMsix s v).inbox = s.inbox := rfl
@[simp] theorem raiseMsix_cur (s : State) (v : Nat) : (raiseMsix s v).cur = s.cur := rfl

/-! `countHint s c k` -/
@[simp] theorem countHint_host (s : State) (c k : Nat) : (countHint s c k).host = s.host := rfl
@[simp] theorem countHint_mem (s : State) (c k : Nat) : (countHint s c k).mem = s.mem := rfl
@[simp] theorem countHint_badLines (s : State) (c k : Nat) : (countHint s c k).badLines = s.badLines := rfl
@[simp] theorem countHint_lineTag (s : State) (c k : Nat) : (countHint s c k).lineTag = s.lineTag := rfl
@[simp] theorem countHint_hostLines (s : State) (c k : Nat) : (countHint s c k).hostLines = s.hostLines := rfl
@[simp] theorem countHint_peerLines (s : State) (c k : Nat) : (countHint s c k).peerLines = s.peerLines := rfl
@[simp] theorem countHint_l2priv (s : State) (c k : Nat) : (countHint s c k).l2priv = s.l2priv := rfl
@[simp] theorem countHint_ctxs (s : State) (c k : Nat) : (countHint s c k).ctxs = s.ctxs := rfl
@[simp] theorem countHint_launches (s : State) (c k : Nat) : (countHint s c k).launches = s.launches := rfl
@[simp] theorem countHint_blocks (s : State) (c k : Nat) : (countHint s c k).blocks = s.blocks := rfl
@[simp] theorem countHint_ponds (s : State) (c k : Nat) : (countHint s c k).ponds = s.ponds := rfl
@[simp] theorem countHint_pools (s : State) (c k : Nat) : (countHint s c k).pools = s.pools := rfl
@[simp] theorem countHint_frags (s : State) (c k : Nat) : (countHint s c k).frags = s.frags := rfl
@[simp] theorem countHint_threads (s : State) (c k : Nat) : (countHint s c k).threads = s.threads := rfl
@[simp] theorem countHint_bars (s : State) (c k : Nat) : (countHint s c k).bars = s.bars := rfl
@[simp] theorem countHint_colls (s : State) (c k : Nat) : (countHint s c k).colls = s.colls := rfl
@[simp] theorem countHint_ops (s : State) (c k : Nat) : (countHint s c k).ops = s.ops := rfl
@[simp] theorem countHint_accs (s : State) (c k : Nat) : (countHint s c k).accs = s.accs := rfl
@[simp] theorem countHint_slices (s : State) (c k : Nat) : (countHint s c k).slices = s.slices := rfl
@[simp] theorem countHint_copies (s : State) (c k : Nat) : (countHint s c k).copies = s.copies := rfl
@[simp] theorem countHint_mops (s : State) (c k : Nat) : (countHint s c k).mops = s.mops := rfl
@[simp] theorem countHint_invals (s : State) (c k : Nat) : (countHint s c k).invals = s.invals := rfl
@[simp] theorem countHint_tlb (s : State) (c k : Nat) : (countHint s c k).tlb = s.tlb := rfl
@[simp] theorem countHint_icache (s : State) (c k : Nat) : (countHint s c k).icache = s.icache := rfl
@[simp] theorem countHint_badCores (s : State) (c k : Nat) : (countHint s c k).badCores = s.badCores := rfl
@[simp] theorem countHint_incomplete (s : State) (c k : Nat) : (countHint s c k).incomplete = s.incomplete := rfl
@[simp] theorem countHint_leaving (s : State) (c k : Nat) : (countHint s c k).leaving = s.leaving := rfl
@[simp] theorem countHint_rot (s : State) (c k : Nat) : (countHint s c k).rot = s.rot := rfl
@[simp] theorem countHint_lastQueue (s : State) (c k : Nat) : (countHint s c k).lastQueue = s.lastQueue := rfl
@[simp] theorem countHint_nextId (s : State) (c k : Nat) : (countHint s c k).nextId = s.nextId := rfl
@[simp] theorem countHint_clock (s : State) (c k : Nat) : (countHint s c k).clock = s.clock := rfl
@[simp] theorem countHint_choices (s : State) (c k : Nat) : (countHint s c k).choices = s.choices := rfl
@[simp] theorem countHint_inbox (s : State) (c k : Nat) : (countHint s c k).inbox = s.inbox := rfl
@[simp] theorem countHint_cur (s : State) (c k : Nat) : (countHint s c k).cur = s.cur := rfl
@[simp] theorem countHint_free (s : State) (c k : Nat) : (countHint s c k).free = s.free + 1 := rfl

/-! `mirror s a bs` -/
@[simp] theorem mirror_host (s : State) (a : Nat) (bs : List Byte) : (mirror s a bs).host = s.host := rfl
@[simp] theorem mirror_mem (s : State) (a : Nat) (bs : List Byte) : (mirror s a bs).mem = s.mem := rfl
@[simp] theorem mirror_badLines (s : State) (a : Nat) (bs : List Byte) : (mirror s a bs).badLines = s.badLines := rfl
@[simp] theorem mirror_lineTag (s : State) (a : Nat) (bs : List Byte) : (mirror s a bs).lineTag = s.lineTag := rfl
@[simp] theorem mirror_hostLines (s : State) (a : Nat) (bs : List Byte) : (mirror s a bs).hostLines = s.hostLines := rfl
@[simp] theorem mirror_peerLines (s : State) (a : Nat) (bs : List Byte) : (mirror s a bs).peerLines = s.peerLines := rfl
@[simp] theorem mirror_l2priv (s : State) (a : Nat) (bs : List Byte) : (mirror s a bs).l2priv = s.l2priv := rfl
@[simp] theorem mirror_ctxs (s : State) (a : Nat) (bs : List Byte) : (mirror s a bs).ctxs = s.ctxs := rfl
@[simp] theorem mirror_blocks (s : State) (a : Nat) (bs : List Byte) : (mirror s a bs).blocks = s.blocks := rfl
@[simp] theorem mirror_ponds (s : State) (a : Nat) (bs : List Byte) : (mirror s a bs).ponds = s.ponds := rfl
@[simp] theorem mirror_pools (s : State) (a : Nat) (bs : List Byte) : (mirror s a bs).pools = s.pools := rfl
@[simp] theorem mirror_frags (s : State) (a : Nat) (bs : List Byte) : (mirror s a bs).frags = s.frags := rfl
@[simp] theorem mirror_threads (s : State) (a : Nat) (bs : List Byte) : (mirror s a bs).threads = s.threads := rfl
@[simp] theorem mirror_bars (s : State) (a : Nat) (bs : List Byte) : (mirror s a bs).bars = s.bars := rfl
@[simp] theorem mirror_colls (s : State) (a : Nat) (bs : List Byte) : (mirror s a bs).colls = s.colls := rfl
@[simp] theorem mirror_ops (s : State) (a : Nat) (bs : List Byte) : (mirror s a bs).ops = s.ops := rfl
@[simp] theorem mirror_accs (s : State) (a : Nat) (bs : List Byte) : (mirror s a bs).accs = s.accs := rfl
@[simp] theorem mirror_slices (s : State) (a : Nat) (bs : List Byte) : (mirror s a bs).slices = s.slices := rfl
@[simp] theorem mirror_copies (s : State) (a : Nat) (bs : List Byte) : (mirror s a bs).copies = s.copies := rfl
@[simp] theorem mirror_mops (s : State) (a : Nat) (bs : List Byte) : (mirror s a bs).mops = s.mops := rfl
@[simp] theorem mirror_invals (s : State) (a : Nat) (bs : List Byte) : (mirror s a bs).invals = s.invals := rfl
@[simp] theorem mirror_tlb (s : State) (a : Nat) (bs : List Byte) : (mirror s a bs).tlb = s.tlb := rfl
@[simp] theorem mirror_icache (s : State) (a : Nat) (bs : List Byte) : (mirror s a bs).icache = s.icache := rfl
@[simp] theorem mirror_badCores (s : State) (a : Nat) (bs : List Byte) : (mirror s a bs).badCores = s.badCores := rfl
@[simp] theorem mirror_incomplete (s : State) (a : Nat) (bs : List Byte) : (mirror s a bs).incomplete = s.incomplete := rfl
@[simp] theorem mirror_leaving (s : State) (a : Nat) (bs : List Byte) : (mirror s a bs).leaving = s.leaving := rfl
@[simp] theorem mirror_rot (s : State) (a : Nat) (bs : List Byte) : (mirror s a bs).rot = s.rot := rfl
@[simp] theorem mirror_lastQueue (s : State) (a : Nat) (bs : List Byte) : (mirror s a bs).lastQueue = s.lastQueue := rfl
@[simp] theorem mirror_nextId (s : State) (a : Nat) (bs : List Byte) : (mirror s a bs).nextId = s.nextId := rfl
@[simp] theorem mirror_free (s : State) (a : Nat) (bs : List Byte) : (mirror s a bs).free = s.free := rfl
@[simp] theorem mirror_clock (s : State) (a : Nat) (bs : List Byte) : (mirror s a bs).clock = s.clock := rfl
@[simp] theorem mirror_hints (s : State) (a : Nat) (bs : List Byte) : (mirror s a bs).hints = s.hints := rfl
@[simp] theorem mirror_choices (s : State) (a : Nat) (bs : List Byte) : (mirror s a bs).choices = s.choices := rfl
@[simp] theorem mirror_inbox (s : State) (a : Nat) (bs : List Byte) : (mirror s a bs).inbox = s.inbox := rfl
@[simp] theorem mirror_cur (s : State) (a : Nat) (bs : List Byte) : (mirror s a bs).cur = s.cur := rfl

/-! `noteWrote s m us` -/
@[simp] theorem noteWrote_host (s : State) (m : MOp) (us : List EUnit) : (noteWrote s m us).host = s.host := rfl
@[simp] theorem noteWrote_mem (s : State) (m : MOp) (us : List EUnit) : (noteWrote s m us).mem = s.mem := rfl
@[simp] theorem noteWrote_badLines (s : State) (m : MOp) (us : List EUnit) : (noteWrote s m us).badLines = s.badLines := rfl
@[simp] theorem noteWrote_lineTag (s : State) (m : MOp) (us : List EUnit) : (noteWrote s m us).lineTag = s.lineTag := rfl
@[simp] theorem noteWrote_hostLines (s : State) (m : MOp) (us : List EUnit) : (noteWrote s m us).hostLines = s.hostLines := rfl
@[simp] theorem noteWrote_peerLines (s : State) (m : MOp) (us : List EUnit) : (noteWrote s m us).peerLines = s.peerLines := rfl
@[simp] theorem noteWrote_l2priv (s : State) (m : MOp) (us : List EUnit) : (noteWrote s m us).l2priv = s.l2priv := rfl
@[simp] theorem noteWrote_ctxs (s : State) (m : MOp) (us : List EUnit) : (noteWrote s m us).ctxs = s.ctxs := rfl
@[simp] theorem noteWrote_launches (s : State) (m : MOp) (us : List EUnit) : (noteWrote s m us).launches = s.launches := rfl
@[simp] theorem noteWrote_blocks (s : State) (m : MOp) (us : List EUnit) : (noteWrote s m us).blocks = s.blocks := rfl
@[simp] theorem noteWrote_ponds (s : State) (m : MOp) (us : List EUnit) : (noteWrote s m us).ponds = s.ponds := rfl
@[simp] theorem noteWrote_pools (s : State) (m : MOp) (us : List EUnit) : (noteWrote s m us).pools = s.pools := rfl
@[simp] theorem noteWrote_frags (s : State) (m : MOp) (us : List EUnit) : (noteWrote s m us).frags = s.frags := rfl
@[simp] theorem noteWrote_threads (s : State) (m : MOp) (us : List EUnit) : (noteWrote s m us).threads = s.threads := rfl
@[simp] theorem noteWrote_bars (s : State) (m : MOp) (us : List EUnit) : (noteWrote s m us).bars = s.bars := rfl
@[simp] theorem noteWrote_colls (s : State) (m : MOp) (us : List EUnit) : (noteWrote s m us).colls = s.colls := rfl
@[simp] theorem noteWrote_ops (s : State) (m : MOp) (us : List EUnit) : (noteWrote s m us).ops = s.ops := rfl
@[simp] theorem noteWrote_accs (s : State) (m : MOp) (us : List EUnit) : (noteWrote s m us).accs = s.accs := rfl
@[simp] theorem noteWrote_slices (s : State) (m : MOp) (us : List EUnit) : (noteWrote s m us).slices = s.slices := rfl
@[simp] theorem noteWrote_copies (s : State) (m : MOp) (us : List EUnit) : (noteWrote s m us).copies = s.copies := rfl
@[simp] theorem noteWrote_invals (s : State) (m : MOp) (us : List EUnit) : (noteWrote s m us).invals = s.invals := rfl
@[simp] theorem noteWrote_tlb (s : State) (m : MOp) (us : List EUnit) : (noteWrote s m us).tlb = s.tlb := rfl
@[simp] theorem noteWrote_icache (s : State) (m : MOp) (us : List EUnit) : (noteWrote s m us).icache = s.icache := rfl
@[simp] theorem noteWrote_badCores (s : State) (m : MOp) (us : List EUnit) : (noteWrote s m us).badCores = s.badCores := rfl
@[simp] theorem noteWrote_incomplete (s : State) (m : MOp) (us : List EUnit) : (noteWrote s m us).incomplete = s.incomplete := rfl
@[simp] theorem noteWrote_leaving (s : State) (m : MOp) (us : List EUnit) : (noteWrote s m us).leaving = s.leaving := rfl
@[simp] theorem noteWrote_rot (s : State) (m : MOp) (us : List EUnit) : (noteWrote s m us).rot = s.rot := rfl
@[simp] theorem noteWrote_lastQueue (s : State) (m : MOp) (us : List EUnit) : (noteWrote s m us).lastQueue = s.lastQueue := rfl
@[simp] theorem noteWrote_nextId (s : State) (m : MOp) (us : List EUnit) : (noteWrote s m us).nextId = s.nextId := rfl
@[simp] theorem noteWrote_free (s : State) (m : MOp) (us : List EUnit) : (noteWrote s m us).free = s.free := rfl
@[simp] theorem noteWrote_clock (s : State) (m : MOp) (us : List EUnit) : (noteWrote s m us).clock = s.clock := rfl
@[simp] theorem noteWrote_hints (s : State) (m : MOp) (us : List EUnit) : (noteWrote s m us).hints = s.hints := rfl
@[simp] theorem noteWrote_choices (s : State) (m : MOp) (us : List EUnit) : (noteWrote s m us).choices = s.choices := rfl
@[simp] theorem noteWrote_inbox (s : State) (m : MOp) (us : List EUnit) : (noteWrote s m us).inbox = s.inbox := rfl
@[simp] theorem noteWrote_cur (s : State) (m : MOp) (us : List EUnit) : (noteWrote s m us).cur = s.cur := rfl

/-! `clearSpoils s ops` -/
@[simp] theorem clearSpoils_host (s : State) (ops : List Nat) : (clearSpoils s ops).host = s.host := rfl
@[simp] theorem clearSpoils_mem (s : State) (ops : List Nat) : (clearSpoils s ops).mem = s.mem := rfl
@[simp] theorem clearSpoils_badLines (s : State) (ops : List Nat) : (clearSpoils s ops).badLines = s.badLines := rfl
@[simp] theorem clearSpoils_lineTag (s : State) (ops : List Nat) : (clearSpoils s ops).lineTag = s.lineTag := rfl
@[simp] theorem clearSpoils_hostLines (s : State) (ops : List Nat) : (clearSpoils s ops).hostLines = s.hostLines := rfl
@[simp] theorem clearSpoils_peerLines (s : State) (ops : List Nat) : (clearSpoils s ops).peerLines = s.peerLines := rfl
@[simp] theorem clearSpoils_l2priv (s : State) (ops : List Nat) : (clearSpoils s ops).l2priv = s.l2priv := rfl
@[simp] theorem clearSpoils_ctxs (s : State) (ops : List Nat) : (clearSpoils s ops).ctxs = s.ctxs := rfl
@[simp] theorem clearSpoils_launches (s : State) (ops : List Nat) : (clearSpoils s ops).launches = s.launches := rfl
@[simp] theorem clearSpoils_blocks (s : State) (ops : List Nat) : (clearSpoils s ops).blocks = s.blocks := rfl
@[simp] theorem clearSpoils_ponds (s : State) (ops : List Nat) : (clearSpoils s ops).ponds = s.ponds := rfl
@[simp] theorem clearSpoils_pools (s : State) (ops : List Nat) : (clearSpoils s ops).pools = s.pools := rfl
@[simp] theorem clearSpoils_frags (s : State) (ops : List Nat) : (clearSpoils s ops).frags = s.frags := rfl
@[simp] theorem clearSpoils_bars (s : State) (ops : List Nat) : (clearSpoils s ops).bars = s.bars := rfl
@[simp] theorem clearSpoils_colls (s : State) (ops : List Nat) : (clearSpoils s ops).colls = s.colls := rfl
@[simp] theorem clearSpoils_ops (s : State) (ops : List Nat) : (clearSpoils s ops).ops = s.ops := rfl
@[simp] theorem clearSpoils_accs (s : State) (ops : List Nat) : (clearSpoils s ops).accs = s.accs := rfl
@[simp] theorem clearSpoils_slices (s : State) (ops : List Nat) : (clearSpoils s ops).slices = s.slices := rfl
@[simp] theorem clearSpoils_copies (s : State) (ops : List Nat) : (clearSpoils s ops).copies = s.copies := rfl
@[simp] theorem clearSpoils_mops (s : State) (ops : List Nat) : (clearSpoils s ops).mops = s.mops := rfl
@[simp] theorem clearSpoils_invals (s : State) (ops : List Nat) : (clearSpoils s ops).invals = s.invals := rfl
@[simp] theorem clearSpoils_tlb (s : State) (ops : List Nat) : (clearSpoils s ops).tlb = s.tlb := rfl
@[simp] theorem clearSpoils_icache (s : State) (ops : List Nat) : (clearSpoils s ops).icache = s.icache := rfl
@[simp] theorem clearSpoils_badCores (s : State) (ops : List Nat) : (clearSpoils s ops).badCores = s.badCores := rfl
@[simp] theorem clearSpoils_incomplete (s : State) (ops : List Nat) : (clearSpoils s ops).incomplete = s.incomplete := rfl
@[simp] theorem clearSpoils_leaving (s : State) (ops : List Nat) : (clearSpoils s ops).leaving = s.leaving := rfl
@[simp] theorem clearSpoils_rot (s : State) (ops : List Nat) : (clearSpoils s ops).rot = s.rot := rfl
@[simp] theorem clearSpoils_lastQueue (s : State) (ops : List Nat) : (clearSpoils s ops).lastQueue = s.lastQueue := rfl
@[simp] theorem clearSpoils_nextId (s : State) (ops : List Nat) : (clearSpoils s ops).nextId = s.nextId := rfl
@[simp] theorem clearSpoils_free (s : State) (ops : List Nat) : (clearSpoils s ops).free = s.free := rfl
@[simp] theorem clearSpoils_clock (s : State) (ops : List Nat) : (clearSpoils s ops).clock = s.clock := rfl
@[simp] theorem clearSpoils_hints (s : State) (ops : List Nat) : (clearSpoils s ops).hints = s.hints := rfl
@[simp] theorem clearSpoils_choices (s : State) (ops : List Nat) : (clearSpoils s ops).choices = s.choices := rfl
@[simp] theorem clearSpoils_inbox (s : State) (ops : List Nat) : (clearSpoils s ops).inbox = s.inbox := rfl
@[simp] theorem clearSpoils_cur (s : State) (ops : List Nat) : (clearSpoils s ops).cur = s.cur := rfl

/-! `haltBlock s b q` -/
@[simp] theorem haltBlock_host (s : State) (b q : Nat) : (haltBlock s b q).host = s.host := rfl
@[simp] theorem haltBlock_mem (s : State) (b q : Nat) : (haltBlock s b q).mem = s.mem := rfl
@[simp] theorem haltBlock_badLines (s : State) (b q : Nat) : (haltBlock s b q).badLines = s.badLines := rfl
@[simp] theorem haltBlock_lineTag (s : State) (b q : Nat) : (haltBlock s b q).lineTag = s.lineTag := rfl
@[simp] theorem haltBlock_hostLines (s : State) (b q : Nat) : (haltBlock s b q).hostLines = s.hostLines := rfl
@[simp] theorem haltBlock_peerLines (s : State) (b q : Nat) : (haltBlock s b q).peerLines = s.peerLines := rfl
@[simp] theorem haltBlock_l2priv (s : State) (b q : Nat) : (haltBlock s b q).l2priv = s.l2priv := rfl
@[simp] theorem haltBlock_ctxs (s : State) (b q : Nat) : (haltBlock s b q).ctxs = s.ctxs := rfl
@[simp] theorem haltBlock_launches (s : State) (b q : Nat) : (haltBlock s b q).launches = s.launches := rfl
@[simp] theorem haltBlock_ponds (s : State) (b q : Nat) : (haltBlock s b q).ponds = s.ponds := rfl
@[simp] theorem haltBlock_pools (s : State) (b q : Nat) : (haltBlock s b q).pools = s.pools := rfl
@[simp] theorem haltBlock_frags (s : State) (b q : Nat) : (haltBlock s b q).frags = s.frags := rfl
@[simp] theorem haltBlock_threads (s : State) (b q : Nat) : (haltBlock s b q).threads = s.threads := rfl
@[simp] theorem haltBlock_bars (s : State) (b q : Nat) : (haltBlock s b q).bars = s.bars := rfl
@[simp] theorem haltBlock_colls (s : State) (b q : Nat) : (haltBlock s b q).colls = s.colls := rfl
@[simp] theorem haltBlock_ops (s : State) (b q : Nat) : (haltBlock s b q).ops = s.ops := rfl
@[simp] theorem haltBlock_accs (s : State) (b q : Nat) : (haltBlock s b q).accs = s.accs := rfl
@[simp] theorem haltBlock_slices (s : State) (b q : Nat) : (haltBlock s b q).slices = s.slices := rfl
@[simp] theorem haltBlock_copies (s : State) (b q : Nat) : (haltBlock s b q).copies = s.copies := rfl
@[simp] theorem haltBlock_mops (s : State) (b q : Nat) : (haltBlock s b q).mops = s.mops := rfl
@[simp] theorem haltBlock_invals (s : State) (b q : Nat) : (haltBlock s b q).invals = s.invals := rfl
@[simp] theorem haltBlock_tlb (s : State) (b q : Nat) : (haltBlock s b q).tlb = s.tlb := rfl
@[simp] theorem haltBlock_icache (s : State) (b q : Nat) : (haltBlock s b q).icache = s.icache := rfl
@[simp] theorem haltBlock_badCores (s : State) (b q : Nat) : (haltBlock s b q).badCores = s.badCores := rfl
@[simp] theorem haltBlock_incomplete (s : State) (b q : Nat) : (haltBlock s b q).incomplete = s.incomplete := rfl
@[simp] theorem haltBlock_leaving (s : State) (b q : Nat) : (haltBlock s b q).leaving = s.leaving := rfl
@[simp] theorem haltBlock_rot (s : State) (b q : Nat) : (haltBlock s b q).rot = s.rot := rfl
@[simp] theorem haltBlock_lastQueue (s : State) (b q : Nat) : (haltBlock s b q).lastQueue = s.lastQueue := rfl
@[simp] theorem haltBlock_nextId (s : State) (b q : Nat) : (haltBlock s b q).nextId = s.nextId := rfl
@[simp] theorem haltBlock_free (s : State) (b q : Nat) : (haltBlock s b q).free = s.free := rfl
@[simp] theorem haltBlock_clock (s : State) (b q : Nat) : (haltBlock s b q).clock = s.clock := rfl
@[simp] theorem haltBlock_hints (s : State) (b q : Nat) : (haltBlock s b q).hints = s.hints := rfl
@[simp] theorem haltBlock_choices (s : State) (b q : Nat) : (haltBlock s b q).choices = s.choices := rfl
@[simp] theorem haltBlock_inbox (s : State) (b q : Nat) : (haltBlock s b q).inbox = s.inbox := rfl
@[simp] theorem haltBlock_cur (s : State) (b q : Nat) : (haltBlock s b q).cur = s.cur := rfl

/-! `writePred s k v` -/
@[simp] theorem writePred_host (s : State) (k : Nat) (v : List (TRef × Bool)) : (writePred s k v).host = s.host := rfl
@[simp] theorem writePred_mem (s : State) (k : Nat) (v : List (TRef × Bool)) : (writePred s k v).mem = s.mem := rfl
@[simp] theorem writePred_badLines (s : State) (k : Nat) (v : List (TRef × Bool)) : (writePred s k v).badLines = s.badLines := rfl
@[simp] theorem writePred_lineTag (s : State) (k : Nat) (v : List (TRef × Bool)) : (writePred s k v).lineTag = s.lineTag := rfl
@[simp] theorem writePred_hostLines (s : State) (k : Nat) (v : List (TRef × Bool)) : (writePred s k v).hostLines = s.hostLines := rfl
@[simp] theorem writePred_peerLines (s : State) (k : Nat) (v : List (TRef × Bool)) : (writePred s k v).peerLines = s.peerLines := rfl
@[simp] theorem writePred_l2priv (s : State) (k : Nat) (v : List (TRef × Bool)) : (writePred s k v).l2priv = s.l2priv := rfl
@[simp] theorem writePred_ctxs (s : State) (k : Nat) (v : List (TRef × Bool)) : (writePred s k v).ctxs = s.ctxs := rfl
@[simp] theorem writePred_launches (s : State) (k : Nat) (v : List (TRef × Bool)) : (writePred s k v).launches = s.launches := rfl
@[simp] theorem writePred_blocks (s : State) (k : Nat) (v : List (TRef × Bool)) : (writePred s k v).blocks = s.blocks := rfl
@[simp] theorem writePred_ponds (s : State) (k : Nat) (v : List (TRef × Bool)) : (writePred s k v).ponds = s.ponds := rfl
@[simp] theorem writePred_pools (s : State) (k : Nat) (v : List (TRef × Bool)) : (writePred s k v).pools = s.pools := rfl
@[simp] theorem writePred_frags (s : State) (k : Nat) (v : List (TRef × Bool)) : (writePred s k v).frags = s.frags := rfl
@[simp] theorem writePred_bars (s : State) (k : Nat) (v : List (TRef × Bool)) : (writePred s k v).bars = s.bars := rfl
@[simp] theorem writePred_colls (s : State) (k : Nat) (v : List (TRef × Bool)) : (writePred s k v).colls = s.colls := rfl
@[simp] theorem writePred_ops (s : State) (k : Nat) (v : List (TRef × Bool)) : (writePred s k v).ops = s.ops := rfl
@[simp] theorem writePred_accs (s : State) (k : Nat) (v : List (TRef × Bool)) : (writePred s k v).accs = s.accs := rfl
@[simp] theorem writePred_slices (s : State) (k : Nat) (v : List (TRef × Bool)) : (writePred s k v).slices = s.slices := rfl
@[simp] theorem writePred_copies (s : State) (k : Nat) (v : List (TRef × Bool)) : (writePred s k v).copies = s.copies := rfl
@[simp] theorem writePred_mops (s : State) (k : Nat) (v : List (TRef × Bool)) : (writePred s k v).mops = s.mops := rfl
@[simp] theorem writePred_invals (s : State) (k : Nat) (v : List (TRef × Bool)) : (writePred s k v).invals = s.invals := rfl
@[simp] theorem writePred_tlb (s : State) (k : Nat) (v : List (TRef × Bool)) : (writePred s k v).tlb = s.tlb := rfl
@[simp] theorem writePred_icache (s : State) (k : Nat) (v : List (TRef × Bool)) : (writePred s k v).icache = s.icache := rfl
@[simp] theorem writePred_badCores (s : State) (k : Nat) (v : List (TRef × Bool)) : (writePred s k v).badCores = s.badCores := rfl
@[simp] theorem writePred_incomplete (s : State) (k : Nat) (v : List (TRef × Bool)) : (writePred s k v).incomplete = s.incomplete := rfl
@[simp] theorem writePred_leaving (s : State) (k : Nat) (v : List (TRef × Bool)) : (writePred s k v).leaving = s.leaving := rfl
@[simp] theorem writePred_rot (s : State) (k : Nat) (v : List (TRef × Bool)) : (writePred s k v).rot = s.rot := rfl
@[simp] theorem writePred_lastQueue (s : State) (k : Nat) (v : List (TRef × Bool)) : (writePred s k v).lastQueue = s.lastQueue := rfl
@[simp] theorem writePred_nextId (s : State) (k : Nat) (v : List (TRef × Bool)) : (writePred s k v).nextId = s.nextId := rfl
@[simp] theorem writePred_free (s : State) (k : Nat) (v : List (TRef × Bool)) : (writePred s k v).free = s.free := rfl
@[simp] theorem writePred_clock (s : State) (k : Nat) (v : List (TRef × Bool)) : (writePred s k v).clock = s.clock := rfl
@[simp] theorem writePred_hints (s : State) (k : Nat) (v : List (TRef × Bool)) : (writePred s k v).hints = s.hints := rfl
@[simp] theorem writePred_choices (s : State) (k : Nat) (v : List (TRef × Bool)) : (writePred s k v).choices = s.choices := rfl
@[simp] theorem writePred_inbox (s : State) (k : Nat) (v : List (TRef × Bool)) : (writePred s k v).inbox = s.inbox := rfl
@[simp] theorem writePred_cur (s : State) (k : Nat) (v : List (TRef × Bool)) : (writePred s k v).cur = s.cur := rfl

/-! `markEmpty s ws r n w` -/
@[simp] theorem markEmpty_host (s : State) (ws : List TRef) (r n w : Nat) : (markEmpty s ws r n w).host = s.host := rfl
@[simp] theorem markEmpty_mem (s : State) (ws : List TRef) (r n w : Nat) : (markEmpty s ws r n w).mem = s.mem := rfl
@[simp] theorem markEmpty_badLines (s : State) (ws : List TRef) (r n w : Nat) : (markEmpty s ws r n w).badLines = s.badLines := rfl
@[simp] theorem markEmpty_lineTag (s : State) (ws : List TRef) (r n w : Nat) : (markEmpty s ws r n w).lineTag = s.lineTag := rfl
@[simp] theorem markEmpty_hostLines (s : State) (ws : List TRef) (r n w : Nat) : (markEmpty s ws r n w).hostLines = s.hostLines := rfl
@[simp] theorem markEmpty_peerLines (s : State) (ws : List TRef) (r n w : Nat) : (markEmpty s ws r n w).peerLines = s.peerLines := rfl
@[simp] theorem markEmpty_l2priv (s : State) (ws : List TRef) (r n w : Nat) : (markEmpty s ws r n w).l2priv = s.l2priv := rfl
@[simp] theorem markEmpty_ctxs (s : State) (ws : List TRef) (r n w : Nat) : (markEmpty s ws r n w).ctxs = s.ctxs := rfl
@[simp] theorem markEmpty_launches (s : State) (ws : List TRef) (r n w : Nat) : (markEmpty s ws r n w).launches = s.launches := rfl
@[simp] theorem markEmpty_blocks (s : State) (ws : List TRef) (r n w : Nat) : (markEmpty s ws r n w).blocks = s.blocks := rfl
@[simp] theorem markEmpty_ponds (s : State) (ws : List TRef) (r n w : Nat) : (markEmpty s ws r n w).ponds = s.ponds := rfl
@[simp] theorem markEmpty_pools (s : State) (ws : List TRef) (r n w : Nat) : (markEmpty s ws r n w).pools = s.pools := rfl
@[simp] theorem markEmpty_frags (s : State) (ws : List TRef) (r n w : Nat) : (markEmpty s ws r n w).frags = s.frags := rfl
@[simp] theorem markEmpty_bars (s : State) (ws : List TRef) (r n w : Nat) : (markEmpty s ws r n w).bars = s.bars := rfl
@[simp] theorem markEmpty_colls (s : State) (ws : List TRef) (r n w : Nat) : (markEmpty s ws r n w).colls = s.colls := rfl
@[simp] theorem markEmpty_ops (s : State) (ws : List TRef) (r n w : Nat) : (markEmpty s ws r n w).ops = s.ops := rfl
@[simp] theorem markEmpty_accs (s : State) (ws : List TRef) (r n w : Nat) : (markEmpty s ws r n w).accs = s.accs := rfl
@[simp] theorem markEmpty_slices (s : State) (ws : List TRef) (r n w : Nat) : (markEmpty s ws r n w).slices = s.slices := rfl
@[simp] theorem markEmpty_copies (s : State) (ws : List TRef) (r n w : Nat) : (markEmpty s ws r n w).copies = s.copies := rfl
@[simp] theorem markEmpty_mops (s : State) (ws : List TRef) (r n w : Nat) : (markEmpty s ws r n w).mops = s.mops := rfl
@[simp] theorem markEmpty_invals (s : State) (ws : List TRef) (r n w : Nat) : (markEmpty s ws r n w).invals = s.invals := rfl
@[simp] theorem markEmpty_tlb (s : State) (ws : List TRef) (r n w : Nat) : (markEmpty s ws r n w).tlb = s.tlb := rfl
@[simp] theorem markEmpty_icache (s : State) (ws : List TRef) (r n w : Nat) : (markEmpty s ws r n w).icache = s.icache := rfl
@[simp] theorem markEmpty_badCores (s : State) (ws : List TRef) (r n w : Nat) : (markEmpty s ws r n w).badCores = s.badCores := rfl
@[simp] theorem markEmpty_incomplete (s : State) (ws : List TRef) (r n w : Nat) : (markEmpty s ws r n w).incomplete = s.incomplete := rfl
@[simp] theorem markEmpty_leaving (s : State) (ws : List TRef) (r n w : Nat) : (markEmpty s ws r n w).leaving = s.leaving := rfl
@[simp] theorem markEmpty_rot (s : State) (ws : List TRef) (r n w : Nat) : (markEmpty s ws r n w).rot = s.rot := rfl
@[simp] theorem markEmpty_lastQueue (s : State) (ws : List TRef) (r n w : Nat) : (markEmpty s ws r n w).lastQueue = s.lastQueue := rfl
@[simp] theorem markEmpty_nextId (s : State) (ws : List TRef) (r n w : Nat) : (markEmpty s ws r n w).nextId = s.nextId := rfl
@[simp] theorem markEmpty_free (s : State) (ws : List TRef) (r n w : Nat) : (markEmpty s ws r n w).free = s.free := rfl
@[simp] theorem markEmpty_clock (s : State) (ws : List TRef) (r n w : Nat) : (markEmpty s ws r n w).clock = s.clock := rfl
@[simp] theorem markEmpty_hints (s : State) (ws : List TRef) (r n w : Nat) : (markEmpty s ws r n w).hints = s.hints := rfl
@[simp] theorem markEmpty_choices (s : State) (ws : List TRef) (r n w : Nat) : (markEmpty s ws r n w).choices = s.choices := rfl
@[simp] theorem markEmpty_inbox (s : State) (ws : List TRef) (r n w : Nat) : (markEmpty s ws r n w).inbox = s.inbox := rfl
@[simp] theorem markEmpty_cur (s : State) (ws : List TRef) (r n w : Nat) : (markEmpty s ws r n w).cur = s.cur := rfl

/-! `issuing s r w p c` -/
@[simp] theorem issuing_host (s : State) (r : FRef) (w : Nat) (p : Part) (c : Sched) : (issuing s r w p c).host = s.host := rfl
@[simp] theorem issuing_mem (s : State) (r : FRef) (w : Nat) (p : Part) (c : Sched) : (issuing s r w p c).mem = s.mem := rfl
@[simp] theorem issuing_badLines (s : State) (r : FRef) (w : Nat) (p : Part) (c : Sched) : (issuing s r w p c).badLines = s.badLines := rfl
@[simp] theorem issuing_lineTag (s : State) (r : FRef) (w : Nat) (p : Part) (c : Sched) : (issuing s r w p c).lineTag = s.lineTag := rfl
@[simp] theorem issuing_hostLines (s : State) (r : FRef) (w : Nat) (p : Part) (c : Sched) : (issuing s r w p c).hostLines = s.hostLines := rfl
@[simp] theorem issuing_peerLines (s : State) (r : FRef) (w : Nat) (p : Part) (c : Sched) : (issuing s r w p c).peerLines = s.peerLines := rfl
@[simp] theorem issuing_l2priv (s : State) (r : FRef) (w : Nat) (p : Part) (c : Sched) : (issuing s r w p c).l2priv = s.l2priv := rfl
@[simp] theorem issuing_ctxs (s : State) (r : FRef) (w : Nat) (p : Part) (c : Sched) : (issuing s r w p c).ctxs = s.ctxs := rfl
@[simp] theorem issuing_launches (s : State) (r : FRef) (w : Nat) (p : Part) (c : Sched) : (issuing s r w p c).launches = s.launches := rfl
@[simp] theorem issuing_blocks (s : State) (r : FRef) (w : Nat) (p : Part) (c : Sched) : (issuing s r w p c).blocks = s.blocks := rfl
@[simp] theorem issuing_ponds (s : State) (r : FRef) (w : Nat) (p : Part) (c : Sched) : (issuing s r w p c).ponds = s.ponds := rfl
@[simp] theorem issuing_pools (s : State) (r : FRef) (w : Nat) (p : Part) (c : Sched) : (issuing s r w p c).pools = s.pools := rfl
@[simp] theorem issuing_frags (s : State) (r : FRef) (w : Nat) (p : Part) (c : Sched) : (issuing s r w p c).frags = s.frags := rfl
@[simp] theorem issuing_threads (s : State) (r : FRef) (w : Nat) (p : Part) (c : Sched) : (issuing s r w p c).threads = s.threads := rfl
@[simp] theorem issuing_bars (s : State) (r : FRef) (w : Nat) (p : Part) (c : Sched) : (issuing s r w p c).bars = s.bars := rfl
@[simp] theorem issuing_colls (s : State) (r : FRef) (w : Nat) (p : Part) (c : Sched) : (issuing s r w p c).colls = s.colls := rfl
@[simp] theorem issuing_ops (s : State) (r : FRef) (w : Nat) (p : Part) (c : Sched) : (issuing s r w p c).ops = s.ops := rfl
@[simp] theorem issuing_accs (s : State) (r : FRef) (w : Nat) (p : Part) (c : Sched) : (issuing s r w p c).accs = s.accs := rfl
@[simp] theorem issuing_slices (s : State) (r : FRef) (w : Nat) (p : Part) (c : Sched) : (issuing s r w p c).slices = s.slices := rfl
@[simp] theorem issuing_copies (s : State) (r : FRef) (w : Nat) (p : Part) (c : Sched) : (issuing s r w p c).copies = s.copies := rfl
@[simp] theorem issuing_mops (s : State) (r : FRef) (w : Nat) (p : Part) (c : Sched) : (issuing s r w p c).mops = s.mops := rfl
@[simp] theorem issuing_invals (s : State) (r : FRef) (w : Nat) (p : Part) (c : Sched) : (issuing s r w p c).invals = s.invals := rfl
@[simp] theorem issuing_tlb (s : State) (r : FRef) (w : Nat) (p : Part) (c : Sched) : (issuing s r w p c).tlb = s.tlb := rfl
@[simp] theorem issuing_icache (s : State) (r : FRef) (w : Nat) (p : Part) (c : Sched) : (issuing s r w p c).icache = s.icache := rfl
@[simp] theorem issuing_badCores (s : State) (r : FRef) (w : Nat) (p : Part) (c : Sched) : (issuing s r w p c).badCores = s.badCores := rfl
@[simp] theorem issuing_incomplete (s : State) (r : FRef) (w : Nat) (p : Part) (c : Sched) : (issuing s r w p c).incomplete = s.incomplete := rfl
@[simp] theorem issuing_leaving (s : State) (r : FRef) (w : Nat) (p : Part) (c : Sched) : (issuing s r w p c).leaving = s.leaving := rfl
@[simp] theorem issuing_rot (s : State) (r : FRef) (w : Nat) (p : Part) (c : Sched) : (issuing s r w p c).rot = s.rot := rfl
@[simp] theorem issuing_lastQueue (s : State) (r : FRef) (w : Nat) (p : Part) (c : Sched) : (issuing s r w p c).lastQueue = s.lastQueue := rfl
@[simp] theorem issuing_nextId (s : State) (r : FRef) (w : Nat) (p : Part) (c : Sched) : (issuing s r w p c).nextId = s.nextId := rfl
@[simp] theorem issuing_free (s : State) (r : FRef) (w : Nat) (p : Part) (c : Sched) : (issuing s r w p c).free = s.free := rfl
@[simp] theorem issuing_clock (s : State) (r : FRef) (w : Nat) (p : Part) (c : Sched) : (issuing s r w p c).clock = s.clock := rfl
@[simp] theorem issuing_hints (s : State) (r : FRef) (w : Nat) (p : Part) (c : Sched) : (issuing s r w p c).hints = s.hints := rfl
@[simp] theorem issuing_choices (s : State) (r : FRef) (w : Nat) (p : Part) (c : Sched) : (issuing s r w p c).choices = s.choices := rfl
@[simp] theorem issuing_inbox (s : State) (r : FRef) (w : Nat) (p : Part) (c : Sched) : (issuing s r w p c).inbox = s.inbox := rfl
@[simp] theorem issuing_cur (s : State) (r : FRef) (w : Nat) (p : Part) (c : Sched) : (issuing s r w p c).cur = some ⟨r, w, p, c⟩ := rfl

end Sys2Proof.Machine
end

