-- ==== Sys2Proof/Laws/Keeps.lean ====
section
/-! SUPPORT. What the shared operations of a register word leave as it was: the write of a register, of a predicate and of flags, and the issue
itself. Each says once everything that its operation can change. -/

namespace Sys2Proof.Machine

theorem Thread.Keeps.refl (regs preds : List Nat) (flags : Bool) (ws : List TRef) (u : Thread) : u.Keeps regs preds flags ws u :=
  ⟨rfl, fun _ => rfl, fun _ _ => rfl, fun _ _ => rfl, fun _ _ => rfl, fun _ => rfl, rfl⟩

theorem Thread.Keeps.ref_eq {regs preds : List Nat} {flags : Bool} {ws : List TRef} {u v : Thread} (h : u.Keeps regs preds flags ws v) :
    v.ref = u.ref := by
  rw [h.rest]; rfl

theorem Thread.Keeps.place_eq {regs preds : List Nat} {flags : Bool} {ws : List TRef} {u v : Thread} (h : u.Keeps regs preds flags ws v) :
    v.place = u.place := by
  rw [h.rest]

theorem Thread.Keeps.trans {regs preds : List Nat} {flags : Bool} {ws : List TRef} {u v w : Thread} (h : u.Keeps regs preds flags ws v)
    (h' : v.Keeps regs preds flags ws w) : u.Keeps regs preds flags ws w where
  rest := by rw [h'.rest, h.rest]
  others hu := by
    have hv := h.others hu
    rw [h'.others (by rw [h.ref_eq]; exact hu), hv]
  springs n hn := (h'.springs n hn).trans (h.springs n hn)
  poison n hn := (h'.poison n hn).trans (h.poison n hn)
  preds k hk := (h'.preds k hk).trans (h.preds k hk)
  fflags hf := (h'.fflags hf).trans (h.fflags hf)
  empty := h'.empty.trans h.empty

theorem Thread.Keeps.mono {regs regs' preds preds' : List Nat} {flags flags' : Bool} {ws : List TRef} {u v : Thread}
    (h : u.Keeps regs preds flags ws v) (hr : regs ⊆ regs') (hp : preds ⊆ preds') (hf : flags = true → flags' = true) :
    u.Keeps regs' preds' flags' ws v where
  rest := h.rest
  others := h.others
  springs n hn := h.springs n (fun x => hn (hr x))
  poison n hn := h.poison n (fun x => hn (hr x))
  preds k hk := h.preds k (fun x => hk (hp x))
  fflags hff := h.fflags (by cases flags <;> simp_all)
  empty := h.empty

theorem Pool.Keeps.refl (regs : List Nat) (mine : Nat) (p : Pool) : p.Keeps regs mine p :=
  ⟨rfl, fun _ => rfl, fun _ _ => rfl, fun _ _ => rfl⟩

theorem Pool.Keeps.id_eq {regs : List Nat} {mine : Nat} {p q : Pool} (h : p.Keeps regs mine q) : q.id = p.id := by rw [h.rest]

theorem Pool.Keeps.trans {regs : List Nat} {mine : Nat} {p q r : Pool} (h : p.Keeps regs mine q) (h' : q.Keeps regs mine r) :
    p.Keeps regs mine r where
  rest := by rw [h'.rest, h.rest]
  others hp := by rw [h'.others (by rw [h.id_eq]; exact hp), h.others hp]
  copies n hn := (h'.copies n hn).trans (h.copies n hn)
  poison n hn := (h'.poison n hn).trans (h.poison n hn)

theorem Pool.Keeps.mono {regs regs' : List Nat} {mine : Nat} {p q : Pool} (h : p.Keeps regs mine q) (hr : regs ⊆ regs') :
    p.Keeps regs' mine q :=
  ⟨h.rest, h.others, fun n hn => h.copies n (fun x => hn (hr x)), fun n hn => h.poison n (fun x => hn (hr x))⟩

/-- Elements related to themselves are related along a list. -/
theorem forall₂_self {α : Type} {R : α → α → Prop} : ∀ (l : List α), (∀ x ∈ l, R x x) → List.Forall₂ R l l
  | [], _ => .nil
  | x :: r, h => .cons (h x (by simp)) (forall₂_self r (fun y hy => h y (by simp [hy])))

/-- The elements of a list, each related to what an update makes of it. -/
theorem forall₂_updWhere {α : Type} {R : α → α → Prop} (p : α → Bool) (f : α → α) :
    ∀ (l : List α), (∀ x ∈ l, p x = true → R x (f x)) → (∀ x ∈ l, R x x) → List.Forall₂ R l (updWhere p f l)
  | [], _, _ => .nil
  | x :: r, h, hr => by
    refine .cons ?_ (forall₂_updWhere p f r (fun y hy => h y (by simp [hy])) (fun y hy => hr y (by simp [hy])))
    by_cases hx : p x = true
    · simpa [hx] using h x (by simp) hx
    · simpa [hx] using hr x (by simp)

theorem forall₂_trans {α : Type} {R : α → α → Prop} (ht : ∀ x y z, R x y → R y z → R x z) :
    ∀ {l m n : List α}, List.Forall₂ R l m → List.Forall₂ R m n → List.Forall₂ R l n
  | _, _, _, .nil, .nil => .nil
  | _, _, _, .cons h t, .cons h' t' => .cons (ht _ _ _ h h') (forall₂_trans ht t t')

variable {e : Env} {regs regs' preds preds' : List Nat} {flags flags' : Bool} {ws : List TRef} {s t u : State}

/-- The home byte depends on memory and on the device's copies of host lines only. -/
theorem homeByte_congr {s t : State} (hm : t.mem = s.mem) (hh : t.hostLines = s.hostLines) (a : Nat) : homeByte t a = homeByte s a := by
  unfold homeByte hostLine
  rw [hm, hh]

theorem State.Keeps.refl (e : Env) (regs preds : List Nat) (flags : Bool) (ws : List TRef) (s : State) : s.Keeps e regs preds flags ws s where
  rest := rfl
  memory _ := rfl
  threads := forall₂_self _ (fun _ _ => .refl ..)
  pools := forall₂_self _ (fun _ _ => .refl ..)
  frags := forall₂_self _ (fun _ _ _ => rfl)

theorem State.Keeps.of_parts (hr : t = { s with threads := t.threads, pools := t.pools, frags := t.frags, cur := t.cur, free := t.free, hints := t.hints })
    (ht : List.Forall₂ (Thread.Keeps regs preds flags ws) s.threads t.threads) (hp : List.Forall₂ (Pool.Keeps regs e.pool.id) s.pools t.pools)
    (hf : List.Forall₂ (fun f f' => Frag.ref f ≠ e.frag.ref → f' = f) s.frags t.frags) : s.Keeps e regs preds flags ws t :=
  ⟨hr, homeByte_congr (by rw [hr]) (by rw [hr]), ht, hp, hf⟩

theorem State.Keeps.mono (h : s.Keeps e regs preds flags ws t) (hr : regs ⊆ regs') (hp : preds ⊆ preds') (hf : flags = true → flags' = true) :
    s.Keeps e regs' preds' flags' ws t where
  rest := h.rest
  memory := h.memory
  threads := h.threads.imp (fun _ _ h => h.mono hr hp hf)
  pools := h.pools.imp (fun _ _ h => h.mono hr)
  frags := h.frags

theorem State.Keeps.trans (h : s.Keeps e regs preds flags ws t) (h' : t.Keeps e regs preds flags ws u) : s.Keeps e regs preds flags ws u where
  rest := by rw [h'.rest, h.rest]
  memory a := (h'.memory a).trans (h.memory a)
  threads := forall₂_trans (R := Thread.Keeps regs preds flags ws) (fun _ _ _ hx hy => Thread.Keeps.trans hx hy) h.threads h'.threads
  pools := forall₂_trans (R := Pool.Keeps regs e.pool.id) (fun _ _ _ hx hy => Pool.Keeps.trans hx hy) h.pools h'.pools
  frags := forall₂_trans (fun x y z (hx : x.ref ≠ e.frag.ref → y = x) (hy : y.ref ≠ e.frag.ref → z = y) hn => by
    have := hx hn; subst this; exact hy hn) h.frags h'.frags

/-- The threads' names stand in the same order. -/
theorem State.Keeps.refs (h : s.Keeps e regs preds flags ws t) : t.threads.map Thread.ref = s.threads.map Thread.ref := by
  have := h.threads
  generalize s.threads = l at this
  generalize t.threads = m at this
  induction this with
  | nil => rfl
  | cons h _ ih => simp [h.ref_eq, ih]

/-- A write of a register in the writers' threads and their pool. -/
theorem writeCopies_keeps {n : Nat} {full : Option Word} {vals : List (TRef × Word)} (hn : n ∈ regs)
    (hw : ∀ v ∈ vals, v.1 ∈ ws) (hf : full.isSome → ∀ t ∈ s.threads, t.inPool e.pool.id = true → t.ref ∈ ws) :
    s.Keeps e regs preds flags ws (writeCopies s e.pool.id n full vals) := by
  have hv : ∀ r, (valOf vals r).isSome → r ∈ ws := by
    intro r hr
    unfold valOf at hr
    cases hx : vals.find? (fun p => p.1 == r) with
    | none => simp [hx] at hr
    | some v =>
      have h1 := List.mem_of_find?_eq_some hx
      have h2 := List.find?_some hx
      have : v.1 = r := by simpa using h2
      exact this ▸ hw v h1
  have hne : ∀ m, m ∉ regs → n ≠ m := fun m hm h => hm (h ▸ hn)
  cases full with
  | some v =>
    refine .of_parts rfl ?_ ?_ (forall₂_self _ (fun _ _ _ => rfl))
    · refine forall₂_updWhere _ _ _ ?_ (fun _ _ => .refl ..)
      intro x hx hp
      refine ⟨rfl, fun h => absurd (hf rfl x hx hp) h, fun m hm => mapGet_mapErase_ne _ (hne m hm), fun m hm => ?_, fun _ _ => rfl, fun _ => rfl, rfl⟩
      simp [Thread.dropSpring, List.contains_eq_mem, (hne m hm).symm]
    · refine forall₂_updWhere _ _ _ ?_ (fun _ _ => .refl ..)
      intro x _ hp
      refine ⟨rfl, fun h => absurd (by simpa using hp) h, fun m hm => mapGet_mapSet_ne _ _ (hne m hm), fun m hm => ?_⟩
      simp [Pool.setCopy, List.contains_eq_mem, (hne m hm).symm]
  | none =>
    refine .of_parts rfl ?_ (forall₂_self _ (fun _ _ => .refl ..)) (forall₂_self _ (fun _ _ _ => rfl))
    refine forall₂_updWhere _ _ _ ?_ (fun _ _ => .refl ..)
    intro x _ hp
    refine ⟨rfl, fun h => absurd (hv _ hp) h, fun m hm => mapGet_mapSet_ne _ _ (hne m hm), fun m hm => ?_, fun _ _ => rfl, fun _ => rfl, rfl⟩
    simp [Thread.setSpring, List.contains_eq_mem, (hne m hm).symm]

/-- The threads whose writes a full pool write covers are those of the pool. -/
theorem fullWrite_covers {p : Nat} {pl : Bool} {vals : List (TRef × Word)} (h : (fullWrite s p pl vals).isSome) :
    ∀ t ∈ s.threads, t.inPool p = true → ∃ v ∈ vals, v.1 = t.ref := by
  intro t ht hp
  unfold fullWrite at h
  split at h
  · next hc =>
    simp only [Bool.and_eq_true] at hc
    have := hc.2
    unfold coversPool at this
    simp only [Bool.and_eq_true, List.all_eq_true] at this
    have h1 := this.1 t (by simp [poolThreads, ht, hp])
    unfold valOf at h1
    cases hx : vals.find? (fun p => p.1 == t.ref) with
    | none => simp [hx] at h1
    | some v => exact ⟨v, List.mem_of_find?_eq_some hx, by simpa using List.find?_some hx⟩
  · simp at h

/-- A thread whose register a word writes is changed in that register only. -/
theorem overtake_keeps {n : Nat} {x : Thread} {w : Option Nat} (hx : x.ref ∈ ws) : x.Keeps regs preds flags ws (x.overtake n w) := by
  refine ⟨rfl, fun h => absurd hx h, fun _ _ => rfl, fun _ _ => rfl, fun _ _ => rfl, fun _ => rfl, ?_⟩
  simp only [Thread.overtake, List.map_map]
  apply List.map_congr_left
  intro m _
  simp only [Function.comp]
  split <;> split <;> rfl

/-- What the layered write of one register leaves (R70). -/
theorem lwrite_keeps {n : Nat} {pl : Bool} {vals : List (TRef × Word)} (hn : n ∈ regs) (hw : ∀ v ∈ vals, v.1 ∈ ws) :
    s.Keeps e regs preds flags ws (lwrite s e.pool.id n pl vals) := by
  have hv : ∀ x : Thread, (valOf vals x.ref).isSome → x.ref ∈ ws := by
    intro x hr
    unfold valOf at hr
    cases hx : vals.find? (fun p => p.1 == x.ref) with
    | none => simp [hx] at hr
    | some v =>
      have h2 := List.find?_some hx
      have : v.1 = x.ref := by simpa using h2
      exact this ▸ hw v (List.mem_of_find?_eq_some hx)
  unfold lwrite
  refine State.Keeps.trans (t := updThreads s (fun t => (valOf vals t.ref).isSome) (fun t => t.overtake n none)) ?_ ?_
  · refine .of_parts rfl ?_ (forall₂_self _ (fun _ _ => .refl ..)) (forall₂_self _ (fun _ _ _ => rfl))
    exact forall₂_updWhere _ _ _ (fun x _ hp => overtake_keeps (hv x hp)) (fun _ _ => .refl ..)
  · refine writeCopies_keeps hn hw (fun hf t ht hp => ?_)
    obtain ⟨v, hv', hr⟩ := fullWrite_covers hf t ht hp
    exact hr ▸ hw v hv'

/-- What the write of a destination leaves (R123, R155). -/
theorem writeDst_keeps {d : Dst} {vals : List (List (TRef × Word))} (hd : ∀ n tag i, d = .reg n tag → i < vals.length → n.val + i ∈ regs)
    (hw : ∀ l ∈ vals, ∀ v ∈ l, v.1 ∈ ws) : s.Keeps e regs preds flags ws (writeDst s e d vals) := by
  cases d with
  | none => exact .refl ..
  | reg n tag =>
    simp only [writeDst]
    have key : ∀ (l : List (List (TRef × Word) × Nat)) (s : State), (∀ p ∈ l, n.val + p.2 ∈ regs ∧ ∀ v ∈ p.1, v.1 ∈ ws) →
        s.Keeps e regs preds flags ws (l.foldl (fun s p => lwrite s e.pool.id (n + p.2) (e.poolRank (n + p.2) tag) p.1) s) := by
      intro l
      induction l with
      | nil => intro s _; exact .refl ..
      | cons p r ih =>
        intro s h
        simp only [List.foldl_cons]
        exact (lwrite_keeps (h p (by simp)).1 (h p (by simp)).2).trans (ih _ (fun q hq => h q (by simp [hq])))
    apply key
    intro p hp
    have h1 := (List.of_mem_zip hp)
    exact ⟨hd n tag p.2 rfl (by simpa using h1.2), hw p.1 h1.1⟩

/-- What the write of a result of an operand width leaves (R123). -/
theorem writeW_keeps {w : Bool} {d : Dst} {vals : List (TRef × DWord)}
    (hd : ∀ n tag, d = .reg n tag → n.val ∈ regs ∧ (w = true → n.val + 1 ∈ regs)) (hw : ∀ v ∈ vals, v.1 ∈ ws) :
    s.Keeps e regs preds flags ws (writeW s e w d vals) := by
  have hl : ∀ f : DWord → Word, ∀ v ∈ vals.map (fun p => (p.1, f p.2)), v.1 ∈ ws := by
    intro f v hv
    obtain ⟨p, hp, rfl⟩ := List.mem_map.1 hv
    exact hw p hp
  unfold writeW
  cases w with
  | false =>
    refine writeDst_keeps (fun n tag i h hi => ?_) (fun l h => by
      obtain rfl := List.mem_singleton.1 h
      exact hl loWord)
    simp only [List.length_cons, List.length_nil] at hi
    have hi : i < 1 := hi
    obtain rfl : i = 0 := by omega
    exact (hd n tag h).1
  | true =>
    refine writeDst_keeps (fun n tag i h hi => ?_) (by
      intro l h
      simp only [List.mem_cons, List.not_mem_nil, or_false] at h
      rcases h with rfl | rfl
      · exact hl loWord
      · exact hl hiWord)
    simp only [List.length_cons, List.length_nil] at hi
    obtain rfl | rfl : i = 0 ∨ i = 1 := by omega
    · exact (hd n tag h).1
    · exact (hd n tag h).2 rfl

/-- A name that a list gives a value to stands in the list. -/
theorem valOf_mem {α : Type} {vals : List (TRef × α)} {r : TRef} (h : (valOf vals r).isSome) : ∃ v ∈ vals, v.1 = r := by
  unfold valOf at h
  cases hx : vals.find? (fun p => p.1 == r) with
  | none => simp [hx] at h
  | some v => exact ⟨v, List.mem_of_find?_eq_some hx, by simpa using List.find?_some hx⟩

/-- A predicate bit that a write of another leaves. -/
theorem setPred_other (t : Thread) {k j : Nat} (b : Bool) (h : j ≠ k) : (t.setPred k b).preds.getLsbD j = t.preds.getLsbD j := by
  unfold Thread.setPred
  cases b <;> simp [BitVec.getLsbD_twoPow, Ne.symm h]
  intro hj; exact BitVec.lt_of_getLsbD hj

/-- What the write of a predicate leaves. -/
theorem writePred_keeps {k : Nat} {vals : List (TRef × Bool)} (hk : k ∈ preds) (hw : ∀ v ∈ vals, v.1 ∈ ws) :
    s.Keeps e regs preds flags ws (writePred s k vals) := by
  refine .of_parts rfl ?_ (forall₂_self _ (fun _ _ => .refl ..)) (forall₂_self _ (fun _ _ _ => rfl))
  refine forall₂_updWhere _ _ _ (fun x _ hp => ?_) (fun _ _ => .refl ..)
  obtain ⟨v, hv, hr⟩ := valOf_mem hp
  exact ⟨rfl, fun h => absurd (hr ▸ hw v hv) h, fun _ _ => rfl, fun _ _ => rfl,
    fun j hj => setPred_other _ _ (fun h => hj (h ▸ hk)), fun _ => rfl, rfl⟩

/-- What raising flags leaves. -/
theorem setFlags_keeps {vals : List (TRef × FlagSet)} (hf : flags = true) (hw : ∀ v ∈ vals, v.1 ∈ ws) :
    s.Keeps e regs preds flags ws (setFlags s vals) := by
  refine .of_parts rfl ?_ (forall₂_self _ (fun _ _ => .refl ..)) (forall₂_self _ (fun _ _ _ => rfl))
  refine forall₂_updWhere _ _ _ (fun x _ hp => ?_) (fun _ _ => .refl ..)
  obtain ⟨v, hv, hr⟩ := valOf_mem hp
  exact ⟨rfl, fun h => absurd (hr ▸ hw v hv) h, fun _ _ => rfl, fun _ _ => rfl, fun _ _ => rfl, fun h => by simp [hf] at h, rfl⟩

/-- What the issue of a word leaves, whatever the word does (R102, R226). -/
theorem finish_keeps : s.Keeps e regs preds flags ws (finish s e i) := by
  have h1 : s.Keeps e regs preds flags ws (updThreads s (fun t => t.inFrag e.frag.ref) (fun t => { t with retired := t.retired + 1 })) := by
    refine .of_parts rfl ?_ (forall₂_self _ (fun _ _ => .refl ..)) (forall₂_self _ (fun _ _ _ => rfl))
    refine forall₂_updWhere _ _ _ (fun x _ _ => ?_) (fun _ _ => .refl ..)
    exact ⟨rfl, fun _ => rfl, fun _ _ => rfl, fun _ _ => rfl, fun _ _ => rfl, fun _ => rfl, rfl⟩
  have h2 : ∀ (s : State) (f : Frag → Frag), s.Keeps e regs preds flags ws (updFrag s e.frag.ref f) := by
    intro s f
    refine .of_parts rfl (forall₂_self _ (fun _ _ => .refl ..)) (forall₂_self _ (fun _ _ => .refl ..)) ?_
    exact forall₂_updWhere _ _ _ (fun x _ hp h => absurd (by simpa using hp) h) (fun _ _ _ => rfl)
  have h3 : ∀ s : State, s.Keeps e regs preds flags ws { s with cur := none } := fun s =>
    .of_parts rfl (forall₂_self _ (fun _ _ => .refl ..)) (forall₂_self _ (fun _ _ => .refl ..)) (forall₂_self _ (fun _ _ _ => rfl))
  have h4 : ∀ (s : State) (c k : Nat), s.Keeps e regs preds flags ws (countHint s c k) := fun s _ _ =>
    .of_parts rfl (forall₂_self _ (fun _ _ => .refl ..)) (forall₂_self _ (fun _ _ => .refl ..)) (forall₂_self _ (fun _ _ _ => rfl))
  have h5 : s.Keeps e regs preds flags ws (if e.counts i = true then
      countHint (updThreads s (fun t => t.inFrag e.frag.ref) (fun t => { t with retired := t.retired + 1 })) e.ctx.rcd.id e.core
      else updThreads s (fun t => t.inFrag e.frag.ref) (fun t => { t with retired := t.retired + 1 })) := by
    split
    · exact h1.trans (h4 _ _ _)
    · exact h1
  unfold finish
  simp only
  split
  · exact h5.trans (h2 _ _)
  · exact (h5.trans (h3 _)).trans (h2 _ _)

end Sys2Proof.Machine
end

