-- ==== Sys2Proof/Laws/Issue.lean ====
section
/-! SUPPORT. How a word ends: the issue of a word whose checks find nothing, and a word that cannot trap after them. -/

namespace Sys2Proof.Machine

variable {s : State} {e : Env} {i : Instr}

/-- A word whose checks find nothing ends as its body does (R342). -/
theorem issue_of_issues (h : Issues s e i) (body : Env → State → Res) : issue i s body = settle s e (body e (finish s e i)) := by
  simp [issue, h.env, h.ready, h.clear]

/-- A word that cannot trap after its checks leads to the state that its body gives. -/
theorem issue_plain (h : Issues s e i) (g : Guard) (f : Env → List Thread → State → State) :
    issue i s (plain g f) = .next (if e.active g = [] then finish s e i else f e (e.active g) (finish s e i)) := by
  rw [issue_of_issues h, plain]
  cases e.active g <;> simp [settle]

/-- A word whose body only changes the state. -/
theorem issue_ok (h : Issues s e i) (f : Env → State → State) : issue i s (fun e s => .ok (f e s)) = .next (f e (finish s e i)) := by
  rw [issue_of_issues h]; rfl

/-- The names to which a word gives values are those for which it acts. -/
theorem mem_forEach {α : Type} {act : List Thread} {f : Thread → α} {v : TRef × α} (h : v ∈ forEach act f) : v.1 ∈ act.map Thread.ref := by
  obtain ⟨t, ht, rfl⟩ := List.mem_map.1 h
  exact List.mem_map_of_mem ht

/-- What a plain word leaves, when its effect on the state in which it has issued leaves as much. -/
theorem plain_keeps {regs preds : List Nat} {flags : Bool} {ws : List TRef} (h : Issues s e i) (g : Guard) (f : Env → List Thread → State → State)
    (hf : ∀ s : State, s.Keeps e regs preds flags ws (f e (e.active g) s)) :
    ∃ t, issue i s (plain g f) = .next t ∧ s.Keeps e regs preds flags ws t := by
  refine ⟨_, issue_plain h g f, ?_⟩
  split
  · exact finish_keeps
  · exact finish_keeps.trans (hf _)

end Sys2Proof.Machine
end

