-- ==== Sys2Proof/Laws/PerInstr.lean ====
section
/-! SUPPORT. What holds of every instruction as syntax: its encoding gives every modifier a place inside the group and the immediate of the
word (R97, R110). One lemma for each constructor. -/

namespace Sys2Proof

theorem Cond.code_lt (x : Cond) : x.code < 6 := by cases x <;> decide

theorem FCond.code_lt (x : FCond) : x.code < 8 := by cases x <;> decide

theorem Fmt.code_lt (x : Fmt) : x.code < 5 := by cases x <;> decide

theorem RM.code_lt (x : RM) : x.code < 6 := by cases x <;> decide

theorem IKind.code_lt (x : IKind) : x.code < 4 := by cases x <;> decide

theorem ShfMode.code_lt (x : ShfMode) : x.code < 5 := by cases x <;> decide

theorem BcSel.code_lt (x : BcSel) : x.code < 3 := by cases x <;> decide

theorem VoteMode.code_lt (x : VoteMode) : x.code < 3 := by cases x <;> decide

theorem QSel.code_lt (x : QSel) : x.code < 3 := by cases x <;> decide

theorem Size.code_lt (x : Size) : x.code < 5 := by cases x <;> decide

theorem Hint.code_lt (x : Hint) : x.code < 3 := by cases x <;> decide

theorem FenceKind.code_lt (x : FenceKind) : x.code < 3 := by cases x <;> decide

theorem CopyDir.code_lt (x : CopyDir) : x.code < 4 := by cases x <;> decide

theorem DTag.code_lt (x : DTag) : x.code < 4 := by cases x <;> decide

theorem Scope.code_lt (x : Scope) : x.code < 6 := by cases x <;> decide

theorem Order.code_lt (x : Order) : x.code < 4 := by cases x <;> decide

theorem AtomOp.code_lt (x : AtomOp) : x.code < 9 := by cases x <;> decide

theorem RedOp.code_lt (x : RedOp) : x.code < 7 := by cases x <;> decide

theorem SReg.code_lt (x : SReg) : x.code < 65536 := by cases x <;> decide

theorem RedTy.code_lt (x : RedTy) : x.code < 8 := by
  cases x with
  | flt f => cases f <;> decide
  | _ => decide

theorem wideCode_lt (x : Bool) : wideCode x < 8 := by cases x <;> decide

theorem IMod.code_lt (m : IMod) : m.code < 8 := by
  have := Bool.toNat_le m.w
  have := Bool.toNat_le m.uns
  have := Bool.toNat_le m.sat
  simp only [IMod.code]
  omega

theorem FMod.low_lt (m : FMod) : m.low < 32 := by
  have := m.rm.code_lt
  have := Bool.toNat_le m.ftz
  have := Bool.toNat_le m.flip
  simp only [FMod.low]
  omega

theorem RMod.code_lt (r : RMod) : r.code < 8192 := by
  have := r.rm.code_lt
  have := r.op.code_lt
  have := r.ty.code_lt
  have := Bool.toNat_le r.ftz
  have := Bool.toNat_le r.flip
  have := Bool.toNat_le r.uns
  have := Bool.toNat_le r.alt
  simp only [RMod.code]
  omega

theorem MemMod.code_lt (m : MemMod) : m.code % 65536 < 512 ∧ m.code < 2 ^ 32 ∧ m.code / 32 % 2 = 0 := by
  have := m.scope.code_lt
  have := m.order.code_lt
  have := m.hint.code_lt
  have := Bool.toNat_le m.loc
  have := m.disp.isLt
  simp only [MemMod.code]
  omega

theorem AtomMod.code_lt (m : AtomMod) : m.code < 2 ^ 32 := by
  have := m.scope.code_lt
  have := m.order.code_lt
  have := m.hint.code_lt
  have := m.op.code_lt
  have := Bool.toNat_le m.uns
  have := m.disp.isLt
  simp only [AtomMod.code]
  omega

theorem PSrc.parts_lt (p : PSrc) : p.n.val < 64 ∧ p.neg.toNat ≤ 1 := ⟨p.n.isLt, Bool.toNat_le p.neg⟩

theorem BarScope.code_lt (x : BarScope) : x.code < 4 ∧ x.num < 16 := by
  cases x with
  | nb k => exact ⟨Nat.lt_succ_self 3, k.isLt⟩
  | _ => exact ⟨by decide, by decide⟩

theorem Policy.code_lt (x : Policy) : x.code < 2 ^ 21 := by
  cases x with
  | red op fmt uns rm ftz =>
    have := op.code_lt
    have := Bool.toNat_le uns
    have := rm.code_lt
    have := Bool.toNat_le ftz
    cases fmt with
    | none => simp only [Policy.code]; omega
    | some t => have := t.code_lt; simp only [Policy.code]; omega
  | _ => decide

theorem LName.parts_lt (x : LName) : x.parts.2.1 < 8 ∧ x.parts.2.2 ≤ 2097152 := by
  cases x with
  | slot k => exact ⟨k.isLt, Nat.le_refl _⟩
  | src a => exact ⟨Nat.succ_pos 7, Nat.zero_le _⟩

namespace Laws.FieldsFit

/-- The group field and the immediate of the instruction's word take what its encoding puts there. -/
def Statement (i : Instr) : Prop := ∀ f, fieldsOf i = some f → f.grp < 8 ∧ f.imm < 2 ^ 32

theorem bra (g : Guard) (off : Word) : Statement (.bra g off) := by
  intro f h
  obtain rfl := Option.some.inj h
  have := BitVec.isLt off
  simp only [mkFields]
  omega

theorem brx (g : Guard) (a : Src) : Statement (.brx g a) := by
  intro f h
  obtain rfl := Option.some.inj h
  simp only [mkFields]
  omega

theorem call (g : Guard) (off : Word) : Statement (.call g off) := by
  intro f h
  obtain rfl := Option.some.inj h
  have := BitVec.isLt off
  simp only [mkFields]
  omega

theorem callx (g : Guard) (a : Src) : Statement (.callx g a) := by
  intro f h
  obtain rfl := Option.some.inj h
  simp only [mkFields]
  omega

theorem ret (g : Guard) : Statement (.ret g) := by
  intro f h
  obtain rfl := Option.some.inj h
  simp only [mkFields]
  omega

theorem reform (g : Guard) : Statement (.reform g) := by
  intro f h
  obtain rfl := Option.some.inj h
  simp only [mkFields]
  omega

theorem exit (g : Guard) : Statement (.exit g) := by
  intro f h
  obtain rfl := Option.some.inj h
  simp only [mkFields]
  omega

theorem nop (g : Guard) : Statement (.nop g) := by
  intro f h
  obtain rfl := Option.some.inj h
  simp only [mkFields]
  omega

theorem yield (g : Guard) : Statement (.yield g) := by
  intro f h
  obtain rfl := Option.some.inj h
  simp only [mkFields]
  omega

theorem drain (g : Guard) (k : Fin 64) : Statement (.drain g k) := by
  intro f h
  obtain rfl := Option.some.inj h
  have := k.isLt
  simp only [mkFields]
  omega

theorem mov (g : Guard) (w : Bool) (uns : Bool) (d : Dst) (a : Src) (imm : Word) : Statement (.mov g w uns d a imm) := by
  intro f h
  obtain rfl := Option.some.inj h
  have := Bool.toNat_le w
  have := Bool.toNat_le uns
  have := BitVec.isLt imm
  simp only [mkFields]
  omega

theorem movi (g : Guard) (w : Bool) (uns : Bool) (d : Dst) (imm : Word) : Statement (.movi g w uns d imm) := by
  intro f h
  obtain rfl := Option.some.inj h
  have := Bool.toNat_le w
  have := Bool.toNat_le uns
  have := BitVec.isLt imm
  simp only [mkFields]
  omega

theorem movh (g : Guard) (d : Dst) (a : Src) (b : Src) (imm : Word) : Statement (.movh g d a b imm) := by
  intro f h
  obtain rfl := Option.some.inj h
  have := BitVec.isLt imm
  simp only [mkFields]
  omega

theorem sel (g : Guard) (w : Bool) (uns : Bool) (d : Dst) (a : Src) (b : Src) (p : PSrc) : Statement (.sel g w uns d a b p) := by
  intro f h
  obtain rfl := Option.some.inj h
  have := Bool.toNat_le w
  have := Bool.toNat_le uns
  have := PSrc.parts_lt p
  simp only [mkFields, PSrc.at]
  omega

theorem iadd (g : Guard) (m : IMod) (d : Dst) (a : Src) (b : Src) (imm : Word) : Statement (.iadd g m d a b imm) := by
  intro f h
  obtain rfl := Option.some.inj h
  have := IMod.code_lt m
  have := BitVec.isLt imm
  simp only [mkFields]
  omega

theorem isub (g : Guard) (m : IMod) (d : Dst) (a : Src) (b : Src) (imm : Word) : Statement (.isub g m d a b imm) := by
  intro f h
  obtain rfl := Option.some.inj h
  have := IMod.code_lt m
  have := BitVec.isLt imm
  simp only [mkFields]
  omega

theorem iaddc (g : Guard) (w : Bool) (d : Dst) (a : Src) (b : Src) (pi : Fin 64) (po : Fin 64) : Statement (.iaddc g w d a b pi po) := by
  intro f h
  obtain rfl := Option.some.inj h
  have := Bool.toNat_le w
  have := pi.isLt
  have := po.isLt
  simp only [mkFields]
  omega

theorem isubb (g : Guard) (w : Bool) (d : Dst) (a : Src) (b : Src) (pi : Fin 64) (po : Fin 64) : Statement (.isubb g w d a b pi po) := by
  intro f h
  obtain rfl := Option.some.inj h
  have := Bool.toNat_le w
  have := pi.isLt
  have := po.isLt
  simp only [mkFields]
  omega

theorem imul (g : Guard) (m : IMod) (d : Dst) (a : Src) (b : Src) (imm : Word) : Statement (.imul g m d a b imm) := by
  intro f h
  obtain rfl := Option.some.inj h
  have := IMod.code_lt m
  have := BitVec.isLt imm
  simp only [mkFields]
  omega

theorem imulh (g : Guard) (w : Bool) (uns : Bool) (d : Dst) (a : Src) (b : Src) (imm : Word) : Statement (.imulh g w uns d a b imm) := by
  intro f h
  obtain rfl := Option.some.inj h
  have := Bool.toNat_le w
  have := Bool.toNat_le uns
  have := BitVec.isLt imm
  simp only [mkFields]
  omega

theorem imad (g : Guard) (m : IMod) (d : Dst) (a : Src) (b : Src) (c : Src) (imm : Word) : Statement (.imad g m d a b c imm) := by
  intro f h
  obtain rfl := Option.some.inj h
  have := IMod.code_lt m
  have := BitVec.isLt imm
  simp only [mkFields]
  omega

theorem imadw (g : Guard) (uns : Bool) (sat : Bool) (d : Dst) (a : Src) (b : Src) (c : Src) (imm : Word) : Statement (.imadw g uns sat d a b c imm) := by
  intro f h
  obtain rfl := Option.some.inj h
  have := Bool.toNat_le uns
  have := Bool.toNat_le sat
  have := BitVec.isLt imm
  simp only [mkFields]
  omega

theorem imin (g : Guard) (w : Bool) (uns : Bool) (d : Dst) (a : Src) (b : Src) (imm : Word) : Statement (.imin g w uns d a b imm) := by
  intro f h
  obtain rfl := Option.some.inj h
  have := Bool.toNat_le w
  have := Bool.toNat_le uns
  have := BitVec.isLt imm
  simp only [mkFields]
  omega

theorem imax (g : Guard) (w : Bool) (uns : Bool) (d : Dst) (a : Src) (b : Src) (imm : Word) : Statement (.imax g w uns d a b imm) := by
  intro f h
  obtain rfl := Option.some.inj h
  have := Bool.toNat_le w
  have := Bool.toNat_le uns
  have := BitVec.isLt imm
  simp only [mkFields]
  omega

theorem iabs (g : Guard) (w : Bool) (sat : Bool) (d : Dst) (a : Src) (imm : Word) : Statement (.iabs g w sat d a imm) := by
  intro f h
  obtain rfl := Option.some.inj h
  have := Bool.toNat_le w
  have := Bool.toNat_le sat
  have := BitVec.isLt imm
  simp only [mkFields]
  omega

theorem ineg (g : Guard) (m : IMod) (d : Dst) (a : Src) (imm : Word) : Statement (.ineg g m d a imm) := by
  intro f h
  obtain rfl := Option.some.inj h
  have := IMod.code_lt m
  have := BitVec.isLt imm
  simp only [mkFields]
  omega

theorem idiff (g : Guard) (w : Bool) (uns : Bool) (d : Dst) (a : Src) (b : Src) (imm : Word) : Statement (.idiff g w uns d a b imm) := by
  intro f h
  obtain rfl := Option.some.inj h
  have := Bool.toNat_le w
  have := Bool.toNat_le uns
  have := BitVec.isLt imm
  simp only [mkFields]
  omega

theorem icmp (g : Guard) (w : Bool) (uns : Bool) (cond : Cond) (p : Fin 64) (a : Src) (b : Src) : Statement (.icmp g w uns cond p a b) := by
  intro f h
  obtain rfl := Option.some.inj h
  have := Bool.toNat_le w
  have := Bool.toNat_le uns
  have := Cond.code_lt cond
  have := p.isLt
  simp only [mkFields]
  omega

theorem iset (g : Guard) (w : Bool) (uns : Bool) (cond : Cond) (d : Dst) (a : Src) (b : Src) : Statement (.iset g w uns cond d a b) := by
  intro f h
  obtain rfl := Option.some.inj h
  have := Bool.toNat_le w
  have := Bool.toNat_le uns
  have := Cond.code_lt cond
  simp only [mkFields]
  omega

theorem and (g : Guard) (w : Bool) (d : Dst) (a : Src) (b : Src) (imm : Word) : Statement (.and g w d a b imm) := by
  intro f h
  obtain rfl := Option.some.inj h
  have := Bool.toNat_le w
  have := BitVec.isLt imm
  simp only [mkFields]
  omega

theorem or (g : Guard) (w : Bool) (d : Dst) (a : Src) (b : Src) (imm : Word) : Statement (.or g w d a b imm) := by
  intro f h
  obtain rfl := Option.some.inj h
  have := Bool.toNat_le w
  have := BitVec.isLt imm
  simp only [mkFields]
  omega

theorem xor (g : Guard) (w : Bool) (d : Dst) (a : Src) (b : Src) (imm : Word) : Statement (.xor g w d a b imm) := by
  intro f h
  obtain rfl := Option.some.inj h
  have := Bool.toNat_le w
  have := BitVec.isLt imm
  simp only [mkFields]
  omega

theorem not (g : Guard) (w : Bool) (d : Dst) (a : Src) (imm : Word) : Statement (.not g w d a imm) := by
  intro f h
  obtain rfl := Option.some.inj h
  have := Bool.toNat_le w
  have := BitVec.isLt imm
  simp only [mkFields]
  omega

theorem tlog (g : Guard) (w : Bool) (d : Dst) (a : Src) (b : Src) (c : Src) (mask : BitVec 8) : Statement (.tlog g w d a b c mask) := by
  intro f h
  obtain rfl := Option.some.inj h
  have := Bool.toNat_le w
  have := BitVec.isLt mask
  simp only [mkFields]
  omega

theorem shl (g : Guard) (w : Bool) (d : Dst) (a : Src) (b : Src) (imm : Word) : Statement (.shl g w d a b imm) := by
  intro f h
  obtain rfl := Option.some.inj h
  have := Bool.toNat_le w
  have := BitVec.isLt imm
  simp only [mkFields]
  omega

theorem shr (g : Guard) (w : Bool) (d : Dst) (a : Src) (b : Src) (imm : Word) : Statement (.shr g w d a b imm) := by
  intro f h
  obtain rfl := Option.some.inj h
  have := Bool.toNat_le w
  have := BitVec.isLt imm
  simp only [mkFields]
  omega

theorem sar (g : Guard) (w : Bool) (d : Dst) (a : Src) (b : Src) (imm : Word) : Statement (.sar g w d a b imm) := by
  intro f h
  obtain rfl := Option.some.inj h
  have := Bool.toNat_le w
  have := BitVec.isLt imm
  simp only [mkFields]
  omega

theorem fshl (g : Guard) (d : Dst) (a : Src) (b : Src) (c : Src) (imm : Word) : Statement (.fshl g d a b c imm) := by
  intro f h
  obtain rfl := Option.some.inj h
  have := BitVec.isLt imm
  simp only [mkFields]
  omega

theorem fshr (g : Guard) (d : Dst) (a : Src) (b : Src) (c : Src) (imm : Word) : Statement (.fshr g d a b c imm) := by
  intro f h
  obtain rfl := Option.some.inj h
  have := BitVec.isLt imm
  simp only [mkFields]
  omega

theorem rot (g : Guard) (w : Bool) (d : Dst) (a : Src) (b : Src) (imm : Word) : Statement (.rot g w d a b imm) := by
  intro f h
  obtain rfl := Option.some.inj h
  have := Bool.toNat_le w
  have := BitVec.isLt imm
  simp only [mkFields]
  omega

theorem popc (g : Guard) (w : Bool) (d : Dst) (a : Src) (imm : Word) : Statement (.popc g w d a imm) := by
  intro f h
  obtain rfl := Option.some.inj h
  have := Bool.toNat_le w
  have := BitVec.isLt imm
  simp only [mkFields]
  omega

theorem clz (g : Guard) (w : Bool) (d : Dst) (a : Src) (imm : Word) : Statement (.clz g w d a imm) := by
  intro f h
  obtain rfl := Option.some.inj h
  have := Bool.toNat_le w
  have := BitVec.isLt imm
  simp only [mkFields]
  omega

theorem ctz (g : Guard) (w : Bool) (d : Dst) (a : Src) (imm : Word) : Statement (.ctz g w d a imm) := by
  intro f h
  obtain rfl := Option.some.inj h
  have := Bool.toNat_le w
  have := BitVec.isLt imm
  simp only [mkFields]
  omega

theorem brev (g : Guard) (w : Bool) (d : Dst) (a : Src) (imm : Word) : Statement (.brev g w d a imm) := by
  intro f h
  obtain rfl := Option.some.inj h
  have := Bool.toNat_le w
  have := BitVec.isLt imm
  simp only [mkFields]
  omega

theorem bfx (g : Guard) (w : Bool) (uns : Bool) (d : Dst) (a : Src) (b : Src) (imm : Word) : Statement (.bfx g w uns d a b imm) := by
  intro f h
  obtain rfl := Option.some.inj h
  have := Bool.toNat_le w
  have := Bool.toNat_le uns
  have := BitVec.isLt imm
  simp only [mkFields]
  omega

theorem bfi (g : Guard) (w : Bool) (d : Dst) (a : Src) (b : Src) (c : Src) (imm : Word) : Statement (.bfi g w d a b c imm) := by
  intro f h
  obtain rfl := Option.some.inj h
  have := Bool.toNat_le w
  have := BitVec.isLt imm
  simp only [mkFields]
  omega

theorem bytep (g : Guard) (d : Dst) (a : Src) (b : Src) (c : Src) (imm : Word) : Statement (.bytep g d a b c imm) := by
  intro f h
  obtain rfl := Option.some.inj h
  have := BitVec.isLt imm
  simp only [mkFields]
  omega

theorem lea (g : Guard) (uns : Bool) (d : Dst) (a : Src) (b : Src) (c : Src) (imm : Word) : Statement (.lea g uns d a b c imm) := by
  intro f h
  obtain rfl := Option.some.inj h
  have := Bool.toNat_le uns
  have := BitVec.isLt imm
  simp only [mkFields]
  omega

theorem pand (g : Guard) (d : Fin 64) (a : PSrc) (b : PSrc) : Statement (.pand g d a b) := by
  intro f h
  obtain rfl := Option.some.inj h
  have := d.isLt
  have := PSrc.parts_lt a
  have := PSrc.parts_lt b
  simp only [mkFields, PSrc.at]
  omega

theorem por (g : Guard) (d : Fin 64) (a : PSrc) (b : PSrc) : Statement (.por g d a b) := by
  intro f h
  obtain rfl := Option.some.inj h
  have := d.isLt
  have := PSrc.parts_lt a
  have := PSrc.parts_lt b
  simp only [mkFields, PSrc.at]
  omega

theorem pxor (g : Guard) (d : Fin 64) (a : PSrc) (b : PSrc) : Statement (.pxor g d a b) := by
  intro f h
  obtain rfl := Option.some.inj h
  have := d.isLt
  have := PSrc.parts_lt a
  have := PSrc.parts_lt b
  simp only [mkFields, PSrc.at]
  omega

theorem pnot (g : Guard) (d : Fin 64) (a : PSrc) : Statement (.pnot g d a) := by
  intro f h
  obtain rfl := Option.some.inj h
  have := d.isLt
  have := PSrc.parts_lt a
  simp only [mkFields, PSrc.at]
  omega

theorem pmov (g : Guard) (d : Fin 64) (a : PSrc) : Statement (.pmov g d a) := by
  intro f h
  obtain rfl := Option.some.inj h
  have := d.isLt
  have := PSrc.parts_lt a
  simp only [mkFields, PSrc.at]
  omega

theorem pset (g : Guard) (hi : Bool) (a : Src) (b : Src) (imm : Word) : Statement (.pset g hi a b imm) := by
  intro f h
  obtain rfl := Option.some.inj h
  have := Bool.toNat_le hi
  have := BitVec.isLt imm
  simp only [mkFields]
  omega

theorem pget (g : Guard) (hi : Bool) (d : Dst) : Statement (.pget g hi d) := by
  intro f h
  obtain rfl := Option.some.inj h
  have := Bool.toNat_le hi
  simp only [mkFields]
  omega

theorem fadd (g : Guard) (m : FMod) (d : Dst) (a : Src) (b : Src) : Statement (.fadd g m d a b) := by
  intro f h
  obtain rfl := Option.some.inj h
  have := FMod.low_lt m
  have := Fmt.code_lt m.fmt
  simp only [mkFields]
  omega

theorem fsub (g : Guard) (m : FMod) (d : Dst) (a : Src) (b : Src) : Statement (.fsub g m d a b) := by
  intro f h
  obtain rfl := Option.some.inj h
  have := FMod.low_lt m
  have := Fmt.code_lt m.fmt
  simp only [mkFields]
  omega

theorem fmul (g : Guard) (m : FMod) (d : Dst) (a : Src) (b : Src) : Statement (.fmul g m d a b) := by
  intro f h
  obtain rfl := Option.some.inj h
  have := FMod.low_lt m
  have := Fmt.code_lt m.fmt
  simp only [mkFields]
  omega

theorem ffma (g : Guard) (m : FMod) (d : Dst) (a : Src) (b : Src) (c : Src) : Statement (.ffma g m d a b c) := by
  intro f h
  obtain rfl := Option.some.inj h
  have := FMod.low_lt m
  have := Fmt.code_lt m.fmt
  simp only [mkFields]
  omega

theorem fmin (g : Guard) (fmt : Fmt) (ftz : Bool) (d : Dst) (a : Src) (b : Src) : Statement (.fmin g fmt ftz d a b) := by
  intro f h
  obtain rfl := Option.some.inj h
  have := Fmt.code_lt fmt
  have := Bool.toNat_le ftz
  simp only [mkFields]
  omega

theorem fmax (g : Guard) (fmt : Fmt) (ftz : Bool) (d : Dst) (a : Src) (b : Src) : Statement (.fmax g fmt ftz d a b) := by
  intro f h
  obtain rfl := Option.some.inj h
  have := Fmt.code_lt fmt
  have := Bool.toNat_le ftz
  simp only [mkFields]
  omega

theorem fcmp (g : Guard) (fmt : Fmt) (ftz : Bool) (cond : FCond) (p : Fin 64) (d : Dst) (a : Src) (b : Src) : Statement (.fcmp g fmt ftz cond p d a b) := by
  intro f h
  obtain rfl := Option.some.inj h
  have := Fmt.code_lt fmt
  have := Bool.toNat_le ftz
  have := FCond.code_lt cond
  have := p.isLt
  simp only [mkFields]
  omega

theorem fclass (g : Guard) (fmt : Fmt) (ftz : Bool) (mask : BitVec 9) (d : Dst) (a : Src) : Statement (.fclass g fmt ftz mask d a) := by
  intro f h
  obtain rfl := Option.some.inj h
  have := Fmt.code_lt fmt
  have := Bool.toNat_le ftz
  have := BitVec.isLt mask
  simp only [mkFields]
  omega

theorem fdiv (g : Guard) (m : FMod) (d : Dst) (a : Src) (b : Src) : Statement (.fdiv g m d a b) := by
  intro f h
  obtain rfl := Option.some.inj h
  have := FMod.low_lt m
  have := Fmt.code_lt m.fmt
  simp only [mkFields]
  omega

theorem fsqrt (g : Guard) (m : FMod) (d : Dst) (a : Src) : Statement (.fsqrt g m d a) := by
  intro f h
  obtain rfl := Option.some.inj h
  have := FMod.low_lt m
  have := Fmt.code_lt m.fmt
  simp only [mkFields]
  omega

theorem frcp (g : Guard) (m : FMod) (d : Dst) (a : Src) : Statement (.frcp g m d a) := by
  intro f h
  obtain rfl := Option.some.inj h
  have := FMod.low_lt m
  have := Fmt.code_lt m.fmt
  simp only [mkFields]
  omega

theorem frsq (g : Guard) (m : FMod) (d : Dst) (a : Src) : Statement (.frsq g m d a) := by
  intro f h
  obtain rfl := Option.some.inj h
  have := FMod.low_lt m
  have := Fmt.code_lt m.fmt
  simp only [mkFields]
  omega

theorem fexp2 (g : Guard) (m : FMod) (d : Dst) (a : Src) : Statement (.fexp2 g m d a) := by
  intro f h
  obtain rfl := Option.some.inj h
  have := FMod.low_lt m
  have := Fmt.code_lt m.fmt
  simp only [mkFields]
  omega

theorem flog2 (g : Guard) (m : FMod) (d : Dst) (a : Src) : Statement (.flog2 g m d a) := by
  intro f h
  obtain rfl := Option.some.inj h
  have := FMod.low_lt m
  have := Fmt.code_lt m.fmt
  simp only [mkFields]
  omega

theorem fsin (g : Guard) (m : FMod) (d : Dst) (a : Src) : Statement (.fsin g m d a) := by
  intro f h
  obtain rfl := Option.some.inj h
  have := FMod.low_lt m
  have := Fmt.code_lt m.fmt
  simp only [mkFields]
  omega

theorem fcos (g : Guard) (m : FMod) (d : Dst) (a : Src) : Statement (.fcos g m d a) := by
  intro f h
  obtain rfl := Option.some.inj h
  have := FMod.low_lt m
  have := Fmt.code_lt m.fmt
  simp only [mkFields]
  omega

theorem ftanh (g : Guard) (m : FMod) (d : Dst) (a : Src) : Statement (.ftanh g m d a) := by
  intro f h
  obtain rfl := Option.some.inj h
  have := FMod.low_lt m
  have := Fmt.code_lt m.fmt
  simp only [mkFields]
  omega

theorem fscale (g : Guard) (m : FMod) (d : Dst) (a : Src) (b : Src) : Statement (.fscale g m d a b) := by
  intro f h
  obtain rfl := Option.some.inj h
  have := FMod.low_lt m
  have := Fmt.code_lt m.fmt
  simp only [mkFields]
  omega

theorem frnd (g : Guard) (fmt : Fmt) (rm : RM) (ftz : Bool) (d : Dst) (a : Src) : Statement (.frnd g fmt rm ftz d a) := by
  intro f h
  obtain rfl := Option.some.inj h
  have := Fmt.code_lt fmt
  have := RM.code_lt rm
  have := Bool.toNat_le ftz
  simp only [mkFields]
  omega

theorem fcvt (g : Guard) (m : FMod) (sfmt : Fmt) (d : Dst) (a : Src) : Statement (.fcvt g m sfmt d a) := by
  intro f h
  obtain rfl := Option.some.inj h
  have := FMod.low_lt m
  have := Fmt.code_lt m.fmt
  have := Fmt.code_lt sfmt
  simp only [mkFields]
  omega

theorem icvt (g : Guard) (m : FMod) (kind : IKind) (uns : Bool) (d : Dst) (a : Src) : Statement (.icvt g m kind uns d a) := by
  intro f h
  obtain rfl := Option.some.inj h
  have := FMod.low_lt m
  have := Fmt.code_lt m.fmt
  have := IKind.code_lt kind
  have := Bool.toNat_le uns
  simp only [mkFields]
  omega

theorem fcvti (g : Guard) (kind : IKind) (uns : Bool) (sfmt : Fmt) (rm : RM) (ftz : Bool) (d : Dst) (a : Src) : Statement (.fcvti g kind uns sfmt rm ftz d a) := by
  intro f h
  obtain rfl := Option.some.inj h
  have := IKind.code_lt kind
  have := Bool.toNat_le uns
  have := Fmt.code_lt sfmt
  have := RM.code_lt rm
  have := Bool.toNat_le ftz
  simp only [mkFields]
  omega

theorem kdec (g : Guard) (m : FMod) (kb4 : Bool) (d : Dst) (a : Src) (b : Src) : Statement (.kdec g m kb4 d a b) := by
  intro f h
  obtain rfl := Option.some.inj h
  have := FMod.low_lt m
  have := Fmt.code_lt m.fmt
  have := Bool.toNat_le kb4
  simp only [mkFields]
  omega

theorem xshf (g : Guard) (mode : ShfMode) (rel : Option (Fin 8)) (d : Dst) (a : Src) (b : Src) (c : Src) : Statement (.xshf g mode rel d a b c) := by
  intro f h
  obtain rfl := Option.some.inj h
  have := ShfMode.code_lt mode
  cases rel with
  | none => simp only [mkFields]; omega
  | some k => have := k.isLt; simp only [mkFields]; omega

theorem xbcast (g : Guard) (sel : BcSel) (d : Dst) (a : Src) (b : Src) (c : Src) : Statement (.xbcast g sel d a b c) := by
  intro f h
  obtain rfl := Option.some.inj h
  have := BcSel.code_lt sel
  simp only [mkFields]
  omega

theorem xvote (g : Guard) (mode : VoteMode) (d : Fin 64) (p : PSrc) : Statement (.xvote g mode d p) := by
  intro f h
  obtain rfl := Option.some.inj h
  have := VoteMode.code_lt mode
  have := d.isLt
  have := PSrc.parts_lt p
  simp only [mkFields, PSrc.at]
  omega

theorem xballot (g : Guard) (d : Dst) (p : PSrc) : Statement (.xballot g d p) := by
  intro f h
  obtain rfl := Option.some.inj h
  have := PSrc.parts_lt p
  simp only [mkFields, PSrc.at]
  omega

theorem xpfx (g : Guard) (incl : Bool) (d : Dst) (p : PSrc) : Statement (.xpfx g incl d p) := by
  intro f h
  obtain rfl := Option.some.inj h
  have := Bool.toNat_le incl
  have := PSrc.parts_lt p
  simp only [mkFields, PSrc.at]
  omega

theorem xred (g : Guard) (r : RMod) (d : Dst) (a : Src) : Statement (.xred g r d a) := by
  intro f h
  obtain rfl := Option.some.inj h
  have := RMod.code_lt r
  simp only [mkFields]
  omega

theorem xscan (g : Guard) (r : RMod) (d : Dst) (a : Src) : Statement (.xscan g r d a) := by
  intro f h
  obtain rfl := Option.some.inj h
  have := RMod.code_lt r
  simp only [mkFields]
  omega

theorem xslide (g : Guard) (up : Bool) (d : Dst) (a : Src) (b : Src) (c : Src) : Statement (.xslide g up d a b c) := by
  intro f h
  obtain rfl := Option.some.inj h
  have := Bool.toNat_le up
  simp only [mkFields]
  omega

theorem xcmpr (g : Guard) (d : Dst) (a : Src) (c : Src) (p : PSrc) : Statement (.xcmpr g d a c p) := by
  intro f h
  obtain rfl := Option.some.inj h
  have := PSrc.parts_lt p
  simp only [mkFields, PSrc.at]
  omega

theorem xexpd (g : Guard) (d : Dst) (a : Src) (c : Src) (p : PSrc) : Statement (.xexpd g d a c p) := by
  intro f h
  obtain rfl := Option.some.inj h
  have := PSrc.parts_lt p
  simp only [mkFields, PSrc.at]
  omega

theorem xtbl (g : Guard) (len : Fin 8) (fill : BitVec 8) (d : Dst) (a : Src) (b : Src) : Statement (.xtbl g len fill d a b) := by
  intro f h
  obtain rfl := Option.some.inj h
  have := len.isLt
  have := BitVec.isLt fill
  simp only [mkFields]
  omega

theorem qset (g : Guard) (k : Fin 8) (wide : Bool) (tag : DTag) (a : Src) : Statement (.qset g k wide tag a) := by
  intro f h
  obtain rfl := Option.some.inj h
  have := k.isLt
  have := Bool.toNat_le wide
  have := DTag.code_lt tag
  simp only [mkFields]
  omega

theorem qget (g : Guard) (k : Fin 8) (sel : QSel) (d : Dst) : Statement (.qget g k sel d) := by
  intro f h
  obtain rfl := Option.some.inj h
  have := k.isLt
  have := QSel.code_lt sel
  simp only [mkFields]
  omega

theorem maddq (g : Guard) (k : Fin 8) (d : Dst) (a : Src) (b : Src) : Statement (.maddq g k d a b) := by
  intro f h
  obtain rfl := Option.some.inj h
  have := k.isLt
  simp only [mkFields]
  omega

theorem msubq (g : Guard) (k : Fin 8) (d : Dst) (a : Src) (b : Src) : Statement (.msubq g k d a b) := by
  intro f h
  obtain rfl := Option.some.inj h
  have := k.isLt
  simp only [mkFields]
  omega

theorem mnegq (g : Guard) (k : Fin 8) (d : Dst) (a : Src) : Statement (.mnegq g k d a) := by
  intro f h
  obtain rfl := Option.some.inj h
  have := k.isLt
  simp only [mkFields]
  omega

theorem mmulq (g : Guard) (k : Fin 8) (d : Dst) (a : Src) (b : Src) : Statement (.mmulq g k d a b) := by
  intro f h
  obtain rfl := Option.some.inj h
  have := k.isLt
  simp only [mkFields]
  omega

theorem mmacq (g : Guard) (k : Fin 8) (d : Dst) (a : Src) (b : Src) (c : Src) : Statement (.mmacq g k d a b c) := by
  intro f h
  obtain rfl := Option.some.inj h
  have := k.isLt
  simp only [mkFields]
  omega

theorem mredq (g : Guard) (k : Fin 8) (d : Dst) (a : Src) : Statement (.mredq g k d a) := by
  intro f h
  obtain rfl := Option.some.inj h
  have := k.isLt
  simp only [mkFields]
  omega

theorem mpowq (g : Guard) (k : Fin 8) (d : Dst) (a : Src) (b : Src) : Statement (.mpowq g k d a b) := by
  intro f h
  obtain rfl := Option.some.inj h
  have := k.isLt
  simp only [mkFields]
  omega

theorem bfly (g : Guard) (k : Fin 8) (d : Dst) (a : Src) (b : Src) (c : Src) : Statement (.bfly g k d a b c) := by
  intro f h
  obtain rfl := Option.some.inj h
  have := k.isLt
  simp only [mkFields]
  omega

theorem ibfly (g : Guard) (k : Fin 8) (d : Dst) (a : Src) (b : Src) (c : Src) : Statement (.ibfly g k d a b c) := by
  intro f h
  obtain rfl := Option.some.inj h
  have := k.isLt
  simp only [mkFields]
  omega

theorem xbfly (g : Guard) (k : Fin 8) (rel : Bool) (v : Fin 8) (d : Dst) (a : Src) (b : Src) : Statement (.xbfly g k rel v d a b) := by
  intro f h
  obtain rfl := Option.some.inj h
  have := k.isLt
  have := Bool.toNat_le rel
  have := v.isLt
  simp only [mkFields]
  omega

theorem xibfly (g : Guard) (k : Fin 8) (rel : Bool) (v : Fin 8) (d : Dst) (a : Src) (b : Src) : Statement (.xibfly g k rel v d a b) := by
  intro f h
  obtain rfl := Option.some.inj h
  have := k.isLt
  have := Bool.toNat_le rel
  have := v.isLt
  simp only [mkFields]
  omega

theorem ld (g : Guard) (m : MemMod) (uns : Bool) (d : Dst) (a : Src) : Statement (.ld g m uns d a) := by
  intro f h
  obtain rfl := Option.some.inj h
  have := MemMod.code_lt m
  have := Size.code_lt m.size
  have := Bool.toNat_le uns
  simp only [mkFields]
  omega

theorem st (g : Guard) (m : MemMod) (a : Src) (b : Src) : Statement (.st g m a b) := by
  intro f h
  obtain rfl := Option.some.inj h
  have := MemMod.code_lt m
  have := Size.code_lt m.size
  simp only [mkFields]
  omega

theorem stm (g : Guard) (m : MemMod) (a : Src) (b : Src) (c : Src) : Statement (.stm g m a b c) := by
  intro f h
  obtain rfl := Option.some.inj h
  have := MemMod.code_lt m
  have := Size.code_lt m.size
  simp only [mkFields]
  omega

theorem lds (g : Guard) (size : Size) (take : Bool) (uns : Bool) (disp : BitVec 16) (d : Dst) (a : Src) : Statement (.lds g size take uns disp d a) := by
  intro f h
  obtain rfl := Option.some.inj h
  have := Size.code_lt size
  have := Bool.toNat_le take
  have := Bool.toNat_le uns
  have := BitVec.isLt disp
  simp only [mkFields]
  omega

theorem sts (g : Guard) (size : Size) (disp : BitVec 16) (a : Src) (b : Src) : Statement (.sts g size disp a b) := by
  intro f h
  obtain rfl := Option.some.inj h
  have := Size.code_lt size
  have := BitVec.isLt disp
  simp only [mkFields]
  omega

theorem stsm (g : Guard) (size : Size) (disp : BitVec 16) (a : Src) (b : Src) (c : Src) : Statement (.stsm g size disp a b c) := by
  intro f h
  obtain rfl := Option.some.inj h
  have := Size.code_lt size
  have := BitVec.isLt disp
  simp only [mkFields]
  omega

theorem pref (g : Guard) (l2 : Bool) (disp : BitVec 16) (a : Src) : Statement (.pref g l2 disp a) := by
  intro f h
  obtain rfl := Option.some.inj h
  have := Bool.toNat_le l2
  have := BitVec.isLt disp
  simp only [mkFields]
  omega

theorem atom (g : Guard) (m : AtomMod) (d : Dst) (a : Src) (b : Src) (c : Src) : Statement (.atom g m d a b c) := by
  intro f h
  obtain rfl := Option.some.inj h
  have := AtomMod.code_lt m
  have := wideCode_lt m.wide
  simp only [mkFields]
  omega

theorem atoms (g : Guard) (op : AtomOp) (wide : Bool) (uns : Bool) (disp : BitVec 16) (d : Dst) (a : Src) (b : Src) (c : Src) : Statement (.atoms g op wide uns disp d a b c) := by
  intro f h
  obtain rfl := Option.some.inj h
  have := AtomOp.code_lt op
  have := Bool.toNat_le wide
  have := Bool.toNat_le uns
  have := BitVec.isLt disp
  have := wideCode_lt wide
  simp only [mkFields]
  omega

theorem redm (g : Guard) (m : AtomMod) (a : Src) (b : Src) : Statement (.redm g m a b) := by
  intro f h
  obtain rfl := Option.some.inj h
  have := AtomMod.code_lt m
  have := wideCode_lt m.wide
  simp only [mkFields]
  omega

theorem fence (g : Guard) (kind : FenceKind) (scope : Scope) (cpy : Bool) : Statement (.fence g kind scope cpy) := by
  intro f h
  obtain rfl := Option.some.inj h
  have := FenceKind.code_lt kind
  have := Scope.code_lt scope
  have := Bool.toNat_le cpy
  simp only [mkFields]
  omega

theorem bar (g : Guard) (scope : BarScope) : Statement (.bar g scope) := by
  intro f h
  obtain rfl := Option.some.inj h
  have := BarScope.code_lt scope
  simp only [mkFields]
  omega

theorem bara (g : Guard) (scope : BarScope) : Statement (.bara g scope) := by
  intro f h
  obtain rfl := Option.some.inj h
  have := BarScope.code_lt scope
  simp only [mkFields]
  omega

theorem barw (g : Guard) (scope : BarScope) : Statement (.barw g scope) := by
  intro f h
  obtain rfl := Option.some.inj h
  have := BarScope.code_lt scope
  simp only [mkFields]
  omega

theorem copy (g : Guard) (size : Size) (dir : CopyDir) (hint : Hint) (a : Src) (b : Src) (c : Src) : Statement (.copy g size dir hint a b c) := by
  intro f h
  obtain rfl := Option.some.inj h
  have := Size.code_lt size
  have := CopyDir.code_lt dir
  have := Hint.code_lt hint
  simp only [mkFields]
  omega

theorem copym (g : Guard) (size : Size) (obj : Bool) (hint : Hint) (mask : BitVec 4) (a : Src) (b : Src) (c : Src) : Statement (.copym g size obj hint mask a b c) := by
  intro f h
  obtain rfl := Option.some.inj h
  have := Size.code_lt size
  have := Bool.toNat_le obj
  have := Hint.code_lt hint
  have := BitVec.isLt mask
  simp only [mkFields]
  omega

theorem feq (g : Guard) (p : Fin 64) (disp : BitVec 16) (a : Src) : Statement (.feq g p disp a) := by
  intro f h
  obtain rfl := Option.some.inj h
  have := p.isLt
  have := BitVec.isLt disp
  simp only [mkFields]
  omega

theorem feset (g : Guard) (full : Bool) (disp : BitVec 16) (a : Src) : Statement (.feset g full disp a) := by
  intro f h
  obtain rfl := Option.some.inj h
  have := Bool.toNat_le full
  have := BitVec.isLt disp
  simp only [mkFields]
  omega

theorem nred (g : Guard) (r : RMod) (d : Dst) (a : Src) : Statement (.nred g r d a) := by
  intro f h
  obtain rfl := Option.some.inj h
  have := RMod.code_lt r
  simp only [mkFields]
  omega

theorem nbcast (g : Guard) (form : BForm) (b : Src) : Statement (.nbcast g form b) := by
  intro f h
  cases form with
  | slot k => have := k.isLt; obtain rfl := Option.some.inj h; simp only [mkFields]; omega
  | _ => obtain rfl := Option.some.inj h; simp only [mkFields]; omega

theorem merge (g : Guard) (pd : Bool) (policy : Policy) (p : Fin 64) (a : LName) : Statement (.merge g pd policy p a) := by
  intro f h
  obtain rfl := Option.some.inj h
  have := Bool.toNat_le pd
  have := Policy.code_lt policy
  have := p.isLt
  have := LName.parts_lt a
  simp only [mkFields]
  omega

theorem ldrop (g : Guard) (pd : Bool) (a : LName) : Statement (.ldrop g pd a) := by
  intro f h
  obtain rfl := Option.some.inj h
  have := Bool.toNat_le pd
  have := LName.parts_lt a
  simp only [mkFields]
  omega

theorem lrank (g : Guard) (d : Dst) (a : LName) : Statement (.lrank g d a) := by
  intro f h
  obtain rfl := Option.some.inj h
  have := LName.parts_lt a
  simp only [mkFields]
  omega

theorem mdecl (g : Guard) (n : Fin 16) (count : BitVec 13) : Statement (.mdecl g n count) := by
  intro f h
  obtain rfl := Option.some.inj h
  have := n.isLt
  have := BitVec.isLt count
  simp only [mkFields]
  omega

theorem moprdy (g : Guard) : Statement (.moprdy g) := by
  intro f h
  obtain rfl := Option.some.inj h
  simp only [mkFields]
  omega

theorem mma (g : Guard) (n : Fin 16) (k : BitVec 9) (d : Dst) (a : Src) (b : Src) (c : Src) : Statement (.mma g n k d a b c) := by
  intro f h
  obtain rfl := Option.some.inj h
  have := n.isLt
  have := BitVec.isLt k
  simp only [mkFields]
  omega

theorem mwait (g : Guard) (a : Src) : Statement (.mwait g a) := by
  intro f h
  obtain rfl := Option.some.inj h
  simp only [mkFields]
  omega

theorem mrel (g : Guard) (a : Src) : Statement (.mrel g a) := by
  intro f h
  obtain rfl := Option.some.inj h
  simp only [mkFields]
  omega

theorem mlda (g : Guard) (obj : Bool) (d : Dst) (a : Src) (b : Src) (c : Src) : Statement (.mlda g obj d a b c) := by
  intro f h
  obtain rfl := Option.some.inj h
  have := Bool.toNat_le obj
  simp only [mkFields]
  omega

theorem msta (g : Guard) (obj : Bool) (a : Src) (b : Src) (c : Src) : Statement (.msta g obj a b c) := by
  intro f h
  obtain rfl := Option.some.inj h
  have := Bool.toNat_le obj
  simp only [mkFields]
  omega

theorem mslotAlloc (g : Guard) (d : Dst) : Statement (.mslotAlloc g d) := by
  intro f h
  obtain rfl := Option.some.inj h
  simp only [mkFields]
  omega

theorem mslotCnt (g : Guard) (d : Dst) : Statement (.mslotCnt g d) := by
  intro f h
  obtain rfl := Option.some.inj h
  simp only [mkFields]
  omega

theorem mslotZero (g : Guard) (a : Src) : Statement (.mslotZero g a) := by
  intro f h
  obtain rfl := Option.some.inj h
  simp only [mkFields]
  omega

theorem srr (g : Guard) (r : SReg) (d : Dst) : Statement (.srr g r d) := by
  intro f h
  obtain rfl := Option.some.inj h
  have := SReg.code_lt r
  simp only [mkFields]
  omega

theorem srw (g : Guard) (r : SReg) (a : Src) : Statement (.srw g r a) := by
  intro f h
  obtain rfl := Option.some.inj h
  have := SReg.code_lt r
  simp only [mkFields]
  omega

theorem setw (g : Guard) (d : Dst) (a : Src) : Statement (.setw g d a) := by
  intro f h
  obtain rfl := Option.some.inj h
  simp only [mkFields]
  omega

theorem spawn (g : Guard) (d : Dst) (a : Src) (b : Src) : Statement (.spawn g d a b) := by
  intro f h
  obtain rfl := Option.some.inj h
  simp only [mkFields]
  omega

theorem launch (g : Guard) (d : Dst) (a : Src) (b : Src) : Statement (.launch g d a b) := by
  intro f h
  obtain rfl := Option.some.inj h
  simp only [mkFields]
  omega

theorem round (g : Guard) : Statement (.round g) := by
  intro f h
  obtain rfl := Option.some.inj h
  simp only [mkFields]
  omega

theorem trap (g : Guard) (code : BitVec 8) : Statement (.trap g code) := by
  intro f h
  obtain rfl := Option.some.inj h
  have := BitVec.isLt code
  simp only [mkFields]
  omega

theorem eret (g : Guard) (a : Src) : Statement (.eret g a) := by
  intro f h
  obtain rfl := Option.some.inj h
  simp only [mkFields]
  omega

theorem swapc (g : Guard) (a : Src) (b : Src) : Statement (.swapc g a b) := by
  intro f h
  obtain rfl := Option.some.inj h
  simp only [mkFields]
  omega

theorem objw (g : Guard) (a : Src) (b : Src) : Statement (.objw g a b) := by
  intro f h
  obtain rfl := Option.some.inj h
  simp only [mkFields]
  omega

theorem objq (g : Guard) (d : Dst) (a : Src) : Statement (.objq g d a) := by
  intro f h
  obtain rfl := Option.some.inj h
  simp only [mkFields]
  omega

theorem icinv (g : Guard) (a : Src) (b : Src) : Statement (.icinv g a b) := by
  intro f h
  obtain rfl := Option.some.inj h
  simp only [mkFields]
  omega

theorem xlinvRng (g : Guard) (a : Src) (b : Src) : Statement (.xlinvRng g a b) := by
  intro f h
  obtain rfl := Option.some.inj h
  simp only [mkFields]
  omega

theorem xlinvAll (g : Guard) : Statement (.xlinvAll g) := by
  intro f h
  obtain rfl := Option.some.inj h
  simp only [mkFields]
  omega

theorem producerCompletion (op : Nat) : Statement (.producerCompletion op) := by
  intro f h
  exact nomatch (show none = some f from h)

theorem poolDraw (pond : Nat) (kind : WellKind) (key : Nat) : Statement (.poolDraw pond kind key) := by
  intro f h
  exact nomatch (show none = some f from h)

theorem wellAgeExpiry (pond : Nat) (kind : WellKind) (key : Nat) : Statement (.wellAgeExpiry pond kind key) := by
  intro f h
  exact nomatch (show none = some f from h)

theorem translationInstall (ctx : Nat) (lo : Nat) (hi : Nat) : Statement (.translationInstall ctx lo hi) := by
  intro f h
  exact nomatch (show none = some f from h)

theorem copyCommandStart (id : Nat) : Statement (.copyCommandStart id) := by
  intro f h
  exact nomatch (show none = some f from h)

theorem copyCommandComplete (id : Nat) : Statement (.copyCommandComplete id) := by
  intro f h
  exact nomatch (show none = some f from h)

theorem matrixOpStart (id : Nat) : Statement (.matrixOpStart id) := by
  intro f h
  exact nomatch (show none = some f from h)

theorem matrixOpComplete (id : Nat) : Statement (.matrixOpComplete id) := by
  intro f h
  exact nomatch (show none = some f from h)

theorem doorbell (ctx : Nat) (q : Nat) (tail : Word) : Statement (.doorbell ctx q tail) := by
  intro f h
  exact nomatch (show none = some f from h)

theorem launchStart (ctx : Nat) (q : Nat) : Statement (.launchStart ctx q) := by
  intro f h
  exact nomatch (show none = some f from h)

theorem waitConditionReread (ctx : Nat) (q : Nat) : Statement (.waitConditionReread ctx q) := by
  intro f h
  exact nomatch (show none = some f from h)

theorem blockAdmit (launch : Nat) : Statement (.blockAdmit launch) := by
  intro f h
  exact nomatch (show none = some f from h)

theorem pondRelease (pond : Nat) : Statement (.pondRelease pond) := by
  intro f h
  exact nomatch (show none = some f from h)

theorem launchComplete (launch : Nat) : Statement (.launchComplete launch) := by
  intro f h
  exact nomatch (show none = some f from h)

theorem roundCommit (launch : Nat) : Statement (.roundCommit launch) := by
  intro f h
  exact nomatch (show none = some f from h)

theorem contextPreempt (ctx : Nat) : Statement (.contextPreempt ctx) := by
  intro f h
  exact nomatch (show none = some f from h)

theorem contextResume (record : BitVec 2048) : Statement (.contextResume record) := by
  intro f h
  exact nomatch (show none = some f from h)

theorem parkedReplay (what : ParkRef) : Statement (.parkedReplay what) := by
  intro f h
  exact nomatch (show none = some f from h)

theorem parkedReplayTimer (what : ParkRef) : Statement (.parkedReplayTimer what) := by
  intro f h
  exact nomatch (show none = some f from h)

theorem invalidationAck (id : Nat) : Statement (.invalidationAck id) := by
  intro f h
  exact nomatch (show none = some f from h)

theorem stuckBlock (blk : Nat) : Statement (.stuckBlock blk) := by
  intro f h
  exact nomatch (show none = some f from h)

theorem reservoirDeadlock (core : Nat) : Statement (.reservoirDeadlock core) := by
  intro f h
  exact nomatch (show none = some f from h)

theorem faultQueueRetry (ctx : Nat) : Statement (.faultQueueRetry ctx) := by
  intro f h
  exact nomatch (show none = some f from h)

theorem haltBroadcastArrival (blk : Nat) (core : Nat) : Statement (.haltBroadcastArrival blk core) := by
  intro f h
  exact nomatch (show none = some f from h)

theorem uncorrectableError (what : PoisonUnit) : Statement (.uncorrectableError what) := by
  intro f h
  exact nomatch (show none = some f from h)

theorem coreError (core : Nat) (part : Fin 6) : Statement (.coreError core part) := by
  intro f h
  exact nomatch (show none = some f from h)

theorem linkFailure (link : Fin 24) (lost : List Nat) : Statement (.linkFailure link lost) := by
  intro f h
  exact nomatch (show none = some f from h)

theorem collectivePost (tail : DWord) : Statement (.collectivePost tail) := by
  intro f h
  exact nomatch (show none = some f from h)

theorem collectiveComplete (record : Nat) (peers : List (BitVec 512 × List Byte)) (abandoned : Bool) : Statement (.collectiveComplete record peers abandoned) := by
  intro f h
  exact nomatch (show none = some f from h)

theorem collectiveTimeout (record : Nat) : Statement (.collectiveTimeout record) := by
  intro f h
  exact nomatch (show none = some f from h)

theorem go : Statement (.go) := by
  intro f h
  exact nomatch (show none = some f from h)

theorem pstateWrite (value : DWord) : Statement (.pstateWrite value) := by
  intro f h
  exact nomatch (show none = some f from h)

theorem shootdownRange : Statement (.shootdownRange) := by
  intro f h
  exact nomatch (show none = some f from h)

theorem shootdownAll : Statement (.shootdownAll) := by
  intro f h
  exact nomatch (show none = some f from h)

theorem flushWriteback : Statement (.flushWriteback) := by
  intro f h
  exact nomatch (show none = some f from h)

theorem flushInvalidate : Statement (.flushInvalidate) := by
  intro f h
  exact nomatch (show none = some f from h)

theorem flushComplete : Statement (.flushComplete) := by
  intro f h
  exact nomatch (show none = some f from h)

theorem mailboxImageChunk (value : DWord) : Statement (.mailboxImageChunk value) := by
  intro f h
  exact nomatch (show none = some f from h)

theorem mailboxAttestation (value : DWord) : Statement (.mailboxAttestation value) := by
  intro f h
  exact nomatch (show none = some f from h)

theorem hostWindowAccess (target : HostTarget) (addr : Nat) (n : Nat) (data : Option (List Byte)) : Statement (.hostWindowAccess target addr n data) := by
  intro f h
  exact nomatch (show none = some f from h)

theorem registerWrite (off : Nat) (value : DWord) : Statement (.registerWrite off value) := by
  intro f h
  exact nomatch (show none = some f from h)

theorem powerOn : Statement (.powerOn) := by
  intro f h
  exact nomatch (show none = some f from h)

theorem moduleReset : Statement (.moduleReset) := by
  intro f h
  exact nomatch (show none = some f from h)

theorem powerRemove : Statement (.powerRemove) := by
  intro f h
  exact nomatch (show none = some f from h)

theorem peerAccess (pa : Nat) (op : PeerOp) : Statement (.peerAccess pa op) := by
  intro f h
  exact nomatch (show none = some f from h)

theorem accessPerformed (id : Nat) : Statement (.accessPerformed id) := by
  intro f h
  exact nomatch (show none = some f from h)

theorem l2ModeChange (basin : Fin 8) (priv : Bool) : Statement (.l2ModeChange basin priv) := by
  intro f h
  exact nomatch (show none = some f from h)

theorem managementPortAttestation (nonce : List Byte) : Statement (.managementPortAttestation nonce) := by
  intro f h
  exact nomatch (show none = some f from h)

theorem ageUpdate (die : Fin 8) (hours : Word) : Statement (.ageUpdate die hours) := by
  intro f h
  exact nomatch (show none = some f from h)

end Laws.FieldsFit

end Sys2Proof
end

