-- ==== Sys2Proof/Laws/Results.lean ====
section
/-! SUPPORT. What the threads of a word read from its destination afterwards (R68, R70, R123). -/

namespace Sys2Proof.Machine

variable {s t : State} {e : Env} {regs preds : List Nat} {flags : Bool} {ws : List TRef}

/-- An element of the second of two related lists is related to one of the first. -/
theorem forall₂_mem_right {α β : Type} {R : α → β → Prop} : ∀ {l : List α} {m : List β}, List.Forall₂ R l m → ∀ y ∈ m, ∃ x ∈ l, R x y
  | _, _, .nil, y, h => by simp at h
  | _, _, .cons hxy h, y, hy => by
    rcases List.mem_cons.1 hy with rfl | hy
    · exact ⟨_, by simp, hxy⟩
    · obtain ⟨x, hx, hr⟩ := forall₂_mem_right h y hy
      exact ⟨x, by simp [hx], hr⟩

/-- Finding by a test that related elements pass together. -/
theorem forall₂_find? {α : Type} {R : α → α → Prop} {p : α → Bool} (hp : ∀ x y, R x y → p y = p x) :
    ∀ {l m : List α}, List.Forall₂ R l m → (l.find? p = none ∧ m.find? p = none) ∨ ∃ x y, l.find? p = some x ∧ m.find? p = some y ∧ R x y
  | _, _, .nil => .inl ⟨rfl, rfl⟩
  | x :: l, y :: m, .cons hxy h => by
    by_cases hx : p x = true
    · exact .inr ⟨x, y, by simp [hx], by simp [hp _ _ hxy, hx], hxy⟩
    · rcases forall₂_find? hp h with ⟨h1, h2⟩ | ⟨x', y', h1, h2, h3⟩
      · exact .inl ⟨by simp [hx, h1], by simp [hp _ _ hxy, hx, h2]⟩
      · exact .inr ⟨x', y', by simp [hx, h1], by simp [hp _ _ hxy, hx, h2], h3⟩

/-- The pool of a word after another one that leaves its copies of a register. -/
theorem State.Keeps.pool_copies (h : s.Keeps e regs preds flags ws t) {n : Nat} (hn : n ∉ regs) (id : Nat) :
    (pool t id).bind (fun p => mapGet p.copies n) = (pool s id).bind (fun p => mapGet p.copies n) := by
  have hp : ∀ (x y : Pool), Pool.Keeps regs e.pool.id x y → (y.id == id) = (x.id == id) := fun x y hxy => by rw [hxy.id_eq]
  rcases forall₂_find? (p := fun x : Pool => x.id == id) hp h.pools with ⟨h1, h2⟩ | ⟨x, y, h1, h2, h3⟩
  · simp [pool, h1, h2]
  · simp [pool, h1, h2, h3.copies n hn]

/-- A register that a word does not write reads as before, in every thread and under every tag. -/
theorem State.Keeps.reads (h : s.Keeps e regs preds flags ws t) {n : Nat} (hn : n ∉ regs) {r : TRef} {v : Word} (hr : Reads s e r n v) :
    Reads t e r n v := by
  intro u hu huref hup
  obtain ⟨x, hx, hk⟩ := forall₂_mem_right h.threads u hu
  have hxr : x.ref = r := by rw [← huref, hk.ref_eq]
  have hxp : x.inPool e.pool.id = true := by
    have := hk.place_eq
    unfold Thread.inPool Thread.pool at hup ⊢
    rw [this] at hup; exact hup
  have := hr x hx hxr hxp
  unfold resolve at this ⊢
  rw [hk.springs n hn, h.pool_copies hn, this]

/-- The pool of a name is found after it has been replaced. -/
theorem pool_updPool (s : State) (id : Nat) (f : Pool → Pool) (hf : ∀ p, (f p).id = p.id) : pool (updPool s id f) id = (pool s id).map f := by
  unfold pool updPool updWhere
  simp only
  induction s.pools with
  | nil => rfl
  | cons p r ih =>
    simp only [List.map_cons, List.find?_cons]
    by_cases hp : (p.id == id) = true
    · simp [hp, hf]
    · rw [if_neg hp]
      simp only [hp]
      exact ih

/-- A uniform value is the value of each writer. -/
theorem uniform_valOf {vals : List (TRef × Word)} {v v0 : Word} {r : TRef} (hu : uniform vals = some v0) (hv : valOf vals r = some v) : v = v0 := by
  unfold valOf at hv
  cases hx : vals.find? (fun p => p.1 == r) with
  | none => simp [hx] at hv
  | some z =>
    simp only [hx, Option.map_some, Option.some.injEq] at hv
    have hm := List.mem_of_find?_eq_some hx
    cases vals with
    | nil => simp at hm
    | cons q rest =>
      unfold uniform at hu
      split at hu
      · cases hu
      · next heq =>
        cases heq
        split at hu
        · next hall =>
          cases hu
          rcases List.mem_cons.1 hm with h | h
          · rw [h] at hv; exact hv.symm
          · rw [← hv]; simpa using List.all_eq_true.1 hall z h
        · cases hu

/-- After a full write each thread of the pool reads the value from its pool (R70, R68). -/
theorem writeCopies_full_reads {p0 : Pool} (hp : pool s e.pool.id = some p0) (n : Nat) (v : Word) (vals : List (TRef × Word)) (r : TRef) :
    Reads (writeCopies s e.pool.id n (some v) vals) e r n v := by
  intro u hu _ hup
  have hpool : pool (writeCopies s e.pool.id n (some v) vals) e.pool.id = some (p0.setCopy n v) := by
    have h := pool_updPool (updThreads s (fun t => t.inPool e.pool.id) fun t => t.dropSpring n) e.pool.id (fun q => q.setCopy n v) (fun _ => rfl)
    have h2 : pool (updThreads s (fun t => t.inPool e.pool.id) fun t => t.dropSpring n) e.pool.id = some p0 := hp
    rw [h2] at h
    exact h
  rw [hpool]
  obtain ⟨x, _, rfl⟩ := List.mem_map.1 hu
  by_cases hin : x.inPool e.pool.id = true
  · simp [resolve, pickCopy, hin, Thread.dropSpring, Pool.setCopy]
  · simp only [hin] at hup
    exact absurd hup hin

/-- After a split each writer reads its own value from its spring copy (R70, R68). -/
theorem writeCopies_split_reads (n : Nat) {vals : List (TRef × Word)} {r : TRef} {v : Word} (hv : valOf vals r = some v) :
    Reads (writeCopies s e.pool.id n none vals) e r n v := by
  intro u hu hur _
  obtain ⟨x, _, rfl⟩ := List.mem_map.1 hu
  have hxr : x.ref = r := by rw [← hur]; simp only; split <;> rfl
  simp [hxr, hv, resolve, pickCopy, Thread.setSpring]

/-- After the layered write of a register each writer reads its own value (R70, R68). -/
theorem lwrite_reads {p0 : Pool} (hp : pool s e.pool.id = some p0) {n : Nat} {pl : Bool} {vals : List (TRef × Word)} {r : TRef} {v : Word}
    (hv : valOf vals r = some v) : Reads (lwrite s e.pool.id n pl vals) e r n v := by
  unfold lwrite
  simp only
  generalize hs : updThreads s (fun t => (valOf vals t.ref).isSome) (fun t => t.overtake n none) = s1
  have hp1 : pool s1 e.pool.id = some p0 := by rw [← hs]; exact hp
  cases hf : fullWrite s1 e.pool.id pl vals with
  | none => exact writeCopies_split_reads n hv
  | some v0 =>
    have : v = v0 := by
      unfold fullWrite at hf
      split at hf
      · exact uniform_valOf hf hv
      · cases hf
    subst this
    exact writeCopies_full_reads hp1 n v vals r

/-- The value that a list gives to one of its threads, the first one of its name. -/
theorem valOf_forEach {α : Type} {g : Guard} {f : Thread → α} {u : Thread} (hu : u ∈ e.actors g) : valOf (forEach (e.active g) f) u.ref = some (f u) := by
  have h : (e.active g).find? (fun x => x.ref == u.ref) = some u := by
    have := (List.mem_filter.1 hu).2
    simpa using this
  unfold valOf forEach
  rw [List.find?_map]
  simp only [Function.comp_def, h, Option.map_some]

/-- The pool of a word's fragment stands among the pools. -/
theorem pool_of_env {iss : Issue} (h : envOf s iss = some e) : pool s e.pool.id = some e.pool := by
  unfold envOf at h
  simp only [Option.bind_eq_bind, Option.bind_eq_some_iff, Option.some.injEq] at h
  obtain ⟨f, _, p, hp, d, _, c, _, b, _, l, _, x, _, rfl⟩ := h
  have hid : p.id = f.pool := by simpa using List.find?_some hp
  simpa [hid] using hp

/-- The issue of a word leaves the pools. -/
@[simp] theorem finish_pools (s : State) (e : Env) : (finish s e i).pools = s.pools := by
  unfold finish
  simp only
  split
  · split <;> rfl
  · split <;> rfl

/-- After a word has written its destination each thread reads its result (R123). -/
theorem writeW_results {p0 : Pool} (hp : pool s e.pool.id = some p0) (g : Guard) (w : Bool) (d : Dst) (val : Thread → DWord) :
    Results (writeW s e w d (forEach (e.active g) val)) e g w d val := by
  intro n tag hd u hu
  subst hd
  have hv : ∀ f : DWord → Word, valOf ((forEach (e.active g) val).map (fun p => (p.1, f p.2))) u.ref = some (f (val u)) := by
    intro f
    have : (forEach (e.active g) val).map (fun p => (p.1, f p.2)) = forEach (e.active g) (fun t => f (val t)) := by simp [forEach]
    rw [this]; exact valOf_forEach hu
  cases w with
  | false =>
    refine ⟨?_, fun h => by simp at h⟩
    have h := lwrite_reads hp (n := n.val) (pl := e.poolRank n.val tag) (hv loWord)
    simpa [writeW, writeDst] using h
  | true =>
    have h1 := lwrite_reads hp (n := n.val) (pl := e.poolRank n.val tag) (hv loWord)
    have hk := lwrite_keeps (s := s) (e := e) (n := n.val) (pl := e.poolRank n.val tag) (regs := [n.val]) (preds := []) (flags := false)
      (vals := (forEach (e.active g) val).map (fun p => (p.1, loWord p.2))) (ws := (e.active g).map Thread.ref) (by simp)
      (fun v h => by obtain ⟨q, hq, rfl⟩ := List.mem_map.1 h; exact (mem_forEach hq : q.1 ∈ _))
    have hp2 : ∃ p1, pool (lwrite s e.pool.id n.val (e.poolRank n.val tag) ((forEach (e.active g) val).map (fun p => (p.1, loWord p.2)))) e.pool.id = some p1 := by
      have hpp : ∀ (x y : Pool), Pool.Keeps [n.val] e.pool.id x y → (y.id == e.pool.id) = (x.id == e.pool.id) := fun x y hxy => by rw [hxy.id_eq]
      rcases forall₂_find? (p := fun x : Pool => x.id == e.pool.id) hpp hk.pools with ⟨h, _⟩ | ⟨x, y, _, h, _⟩
      · rw [pool, h] at hp; cases hp
      · exact ⟨y, h⟩
    obtain ⟨p1, hp1⟩ := hp2
    have h2 := lwrite_reads hp1 (n := n.val + 1) (pl := e.poolRank (n.val + 1) tag) (hv hiWord)
    have hk2 := lwrite_keeps (s := lwrite s e.pool.id n.val (e.poolRank n.val tag) ((forEach (e.active g) val).map (fun p => (p.1, loWord p.2))))
      (e := e) (n := n.val + 1) (pl := e.poolRank (n.val + 1) tag) (regs := [n.val + 1]) (preds := []) (flags := false)
      (vals := (forEach (e.active g) val).map (fun p => (p.1, hiWord p.2))) (ws := (e.active g).map Thread.ref) (by simp)
      (fun v h => by obtain ⟨q, hq, rfl⟩ := List.mem_map.1 h; exact (mem_forEach hq : q.1 ∈ _))
    have h1' := hk2.reads (by simp) h1
    exact ⟨h1', fun _ => h2⟩

end Sys2Proof.Machine
end

