-- ==== Sys2Proof/Laws/Words.lean ====
section
/-! SUPPORT. The bodies that the register words share: each completes, leaves all but its destination, and gives every thread its result. -/

namespace Sys2Proof.Machine

variable {s : State} {e : Env} {i : Instr} {regs preds : List Nat} {flags : Bool}

/-- The names to which a word gives values are those for which it acts. -/
theorem mem_acting {α : Type} {g : Guard} {v : TRef × α} {f : Thread → α} (h : v ∈ forEach (e.active g) f) : v.1 ∈ e.acting g := mem_forEach h

/-- The destination of an integer word lies among the registers that it names. -/
theorem dW_mem {w : Bool} {d : Dst} {rest : List Opnd} {n : Fin 768} {tag : DTag} (h : d = .reg n tag) :
    n.val ∈ ((dW w d :: rest).filter Opnd.dst).flatMap Opnd.regs ∧ (w = true → n.val + 1 ∈ ((dW w d :: rest).filter Opnd.dst).flatMap Opnd.regs) := by
  subst h
  cases w <;> simp [dW, dOp, Opnd.regs, Dst.code]

/-- Every register of a destination range lies among the registers that its word names. -/
theorem dOp_mem {d : Dst} {rest : List Opnd} {n : Fin 768} {tag : DTag} {k al j : Nat} {m : Bool} (h : d = .reg n tag) (hj : j < k) :
    n.val + j ∈ (({ dOp d k al with multi := m } :: rest).filter Opnd.dst).flatMap Opnd.regs := by
  subst h
  simp [dOp, Opnd.regs, Dst.code, hj]

/-- A word that writes a result of an operand width leaves all but its destination. -/
theorem writeBody_keeps (h : Issues s e i) (g : Guard) (w : Bool) (d : Dst) (f : Env → Thread → DWord)
    (hd : ∀ n tag, d = .reg n tag → n.val ∈ regs ∧ (w = true → n.val + 1 ∈ regs)) :
    ∃ t, issue i s (writeBody g w d f) = .next t ∧ s.Keeps e regs preds flags (e.acting g) t :=
  plain_keeps h g _ (fun _ => writeW_keeps hd (fun _ hv => mem_acting hv))

/-- A word that writes one predicate leaves all but that predicate. -/
theorem predBody_keeps (h : Issues s e i) (g : Guard) (k : Fin 64) (f : Env → List Thread → Thread → Bool) (hd : k.val ∈ preds) :
    ∃ t, issue i s (plain g (fun e act s => writePred s k (forEach act (f e act)))) = .next t ∧ s.Keeps e regs preds flags (e.acting g) t :=
  plain_keeps h g _ (fun _ => writePred_keeps hd (fun _ hv => mem_acting hv))

/-- A word that writes one register leaves all but that register. -/
theorem dstBody_keeps (h : Issues s e i) (g : Guard) (d : Dst) (f : Env → List Thread → Thread → Word) (hd : ∀ n tag, d = .reg n tag → n.val ∈ regs) :
    ∃ t, issue i s (plain g (fun e act s => writeDst s e d [forEach act (f e act)])) = .next t ∧ s.Keeps e regs preds flags (e.acting g) t :=
  plain_keeps h g _ (fun _ => writeDst_keeps (fun n tag j hd' hj => by obtain rfl : j = 0 := (by simpa using hj); exact hd n tag hd') (fun l hl v hv => by
    obtain rfl := List.mem_singleton.1 hl; exact mem_acting hv))

/-- A word that writes one register and raises flags leaves all else. -/
theorem flagBody_keeps (hf : flags = true) (h : Issues s e i) (g : Guard) (d : Dst) (f : Env → List Thread → Thread → Word × FlagSet)
    (hd : ∀ n tag, d = .reg n tag → n.val ∈ regs) :
    ∃ t, issue i s (plain g (fun e act s => writeFlagged s e d (forEach act (f e act)))) = .next t ∧ s.Keeps e regs preds flags (e.acting g) t :=
  plain_keeps h g _ (fun _ => State.Keeps.trans
    (setFlags_keeps hf (fun v hv => by obtain ⟨p, hp, rfl⟩ := List.mem_map.1 hv; exact (mem_forEach hp : p.1 ∈ _)))
    (writeDst_keeps (fun n tag j hd' hj => by obtain rfl : j = 0 := (by simpa using hj); exact hd n tag hd') (fun l hl v hv => by
      obtain rfl := List.mem_singleton.1 hl
      obtain ⟨p, hp, rfl⟩ := List.mem_map.1 hv; exact (mem_forEach hp : p.1 ∈ _))))

/-- The pool of the word's fragment stands once the word has issued. -/
theorem pool_finish (h : Issues s e i) : pool (finish s e i) e.pool.id = some e.pool := by
  obtain ⟨iss, _, hi⟩ := Option.bind_eq_some_iff.1 h.env
  have := pool_of_env hi
  simpa [pool] using this

/-- No thread acts for a word without active threads. -/
theorem not_mem_actors {g : Guard} {u : Thread} (h : e.active g = []) : u ∉ e.actors g := by simp [Env.actors, h]

/-- After a word that writes a result of an operand width every thread reads its result (R123). -/
theorem writeBody_results (h : Issues s e i) (g : Guard) (w : Bool) (d : Dst) (f : Env → Thread → DWord) :
    ∃ t, issue i s (writeBody g w d f) = .next t ∧ Results t e g w d (f e) := by
  refine ⟨_, issue_plain h g _, ?_⟩
  split
  · next ha => exact fun n tag _ u hu => absurd hu (not_mem_actors ha)
  · exact writeW_results (pool_finish h) g w d (f e)

/-- After the write of one register every thread reads its value. -/
theorem writeDst_one_results {p0 : Pool} (hp : pool s e.pool.id = some p0) (g : Guard) (d : Dst) (f : Thread → Word) :
    Results (writeDst s e d [forEach (e.active g) f]) e g false d (fun u => (f u).setWidth 64) := by
  have := writeW_results hp g false d (fun u => (f u).setWidth 64)
  have hl : ∀ x : Word, loWord (x.setWidth 64) = x := by intro x; simp [loWord]; ext i hi; simp [hi]; omega
  simpa [writeW, forEach, Function.comp_def, hl] using this

/-- After a word that writes one register every thread reads its value. -/
theorem dstBody_results (h : Issues s e i) (g : Guard) (d : Dst) (f : Env → List Thread → Thread → Word) :
    ∃ t, issue i s (plain g (fun e act s => writeDst s e d [forEach act (f e act)])) = .next t ∧
      Results t e g false d (fun u => (f e (e.active g) u).setWidth 64) := by
  refine ⟨_, issue_plain h g _, ?_⟩
  split
  · next ha => exact fun n tag _ u hu => absurd hu (not_mem_actors ha)
  · exact writeDst_one_results (pool_finish h) g d _

/-- A predicate as a write leaves it. -/
theorem setPred_get (t : Thread) (k : Fin 64) (b : Bool) : (t.setPred k b).preds.getLsbD k = b := by
  unfold Thread.setPred
  cases b <;> simp [k.isLt]

/-- After a word that writes a predicate every thread for which it acts holds its truth. -/
theorem writePred_results (g : Guard) (k : Fin 64) (f : Thread → Bool) :
    ∀ u ∈ e.actors g, PredIs (writePred s k (forEach (e.active g) f)) u.ref k (f u) := by
  intro u hu x hx hr
  have hv := valOf_forEach (f := f) hu
  obtain ⟨y, _, rfl⟩ := List.mem_map.1 hx
  have hyr : y.ref = u.ref := by
    rw [← hr]; simp only; split <;> rfl
  simp only [hyr, hv, Option.isSome_some, if_true, Option.getD_some]
  exact setPred_get _ _ _

/-- After a word that writes a predicate every thread for which it acts holds its truth. -/
theorem predBody_results (h : Issues s e i) (g : Guard) (k : Fin 64) (f : Env → List Thread → Thread → Bool) :
    ∃ t, issue i s (plain g (fun e act s => writePred s k (forEach act (f e act)))) = .next t ∧
      ∀ u ∈ e.actors g, PredIs t u.ref k (f e (e.active g) u) := by
  refine ⟨_, issue_plain h g _, ?_⟩
  split
  · next ha => exact fun u hu => absurd hu (not_mem_actors ha)
  · exact writePred_results g k _

end Sys2Proof.Machine
end

