-- ==== Sys2Proof/Tests/Slice0.lean ====
section
/-! SUPPORT. Tests: the words of every operation as the manual's encodings give them, the refusals of WellFormed, small steps, and a
concrete state for the hypotheses of every statement. -/

open Sys2Proof Sys2Proof.Machine

set_option Elab.async false

/-- The scheduling field of a portable word. -/
def portable : Sched := ⟨false, 0, 0, 0, false, 0⟩

/-- Each word decodes to the instruction beside it. -/
def decodesAll (l : List (Nat × Instr)) : Bool := l.all (fun p => decodeWord p.1 == .ok (.one portable p.2))

/-! The words that the manual prints itself (07 to 12, 14, 17, 18, 20 to 22). -/

theorem test_decode_printed : decodesAll [
    (0x00000025403FF00C00D3FF3000000702, .icmp .always false false .lt 7 (.reg 12 .res true) (.reg 13 .res true)),
    (0x00000060000080003FF3FF2300000000, .fcvt .always ⟨.e4m3x4, .rne, false, false⟩ .f32 (.reg 8 .home) (.reg 0 .res true)),
    (0x00000084800170150163FF3300000009, .xbfly .always 3 true 1 (.reg 23 .home) (.reg 21 .res true) (.reg 22 .res true)),
    (0x000000A0000060043FF3FF2000000000, .ld .always ⟨.b32, 0, false, .ca, .wk, .sy⟩ false (.reg 6 .home) (.reg 4 .res true)),
    (0x000000C08001E3FF0140161800000000, .mma .always 0 0 (.reg 30 .home) .zero (.reg 20 .res true) (.reg 22 .res true)),
    (0x000000E0000283FF3FF3FF0000000010, .srr .always .clock (.reg 40 .home)),
    (0x000000A0403FF00C0013FF3000000015, .st .always ⟨.b32, 0, false, .ca, .rel, .ws⟩ (.reg 12 .res true) (.reg 1 .res true)),
    (0x000000B2003FF0083FF3FF2000000200, .merge .always false .chk 2 (.src (.reg 8 .res true))),
    (0x00000084E180A00A0183FF3000000006, .xibfly (.on 6) 0 false 6 (.reg 10 .home) (.reg 10 .res true) (.reg 24 .res true)),
    (0x000000A460C0E00D3FF00A2800007000, .atoms (.on 3) .cas false false 0 (.reg 14 .home) (.reg 13 .res true) .zero (.reg 10 .res true)),
    (0x000000A40000B0023FF0092800007000, .atom .always ⟨.cas, false, false, 0, .ca, .wk, .sy⟩ (.reg 11 .home) (.reg 2 .res true) .zero (.reg 9 .res true)),
    (0x00000022000070060053FF1000000000, .iadd .always ⟨false, false, false⟩ (.reg 7 .home) (.reg 6 .res false) (.reg 5 .res true) 0)] = true := by decide +kernel

/-- The pair of 06 (R114's example). -/
theorem test_decode_pair : decodeWord 0xC000400000200240A1844003403C1318 =
    .ok (.two (schedOf 0xC000400000200240A1844003403C1318) (.iadd .always ⟨false, false, false⟩ (.reg 8 .home) (.reg 9 .res true) (.reg 10 .res true) 0)
      (.fmul .always ⟨.f32, .rne, false, false⟩ (.reg 13 .home) (.reg 15 .res true) (.reg 19 .res true))) := by decide +kernel

/-! Every operation: bits [103:94] the opcode, [93:86] the guard, then d, a, b, c with their tags, the block bits, the group and [31:0] (R97). -/

theorem test_decode_control : decodesAll [
    (0x0000000020FFF3FF3FF3FF00FFFFFFFE, .bra (.on 3) 0xFFFFFFFE),
    (0x00000000403FF0093FF3FF0000000000, .brx .always (.reg 9 .res false)),
    (0x00000000B17FF3FF3FF3FF0000000007, .call (.off 5) 7),
    (0x00000000C03FF2FF7FF3FF2000000000, .callx .always (.reg 767 .sp true)),
    (0x00000001003FF3FF3FF3FF0000000000, .ret .always),
    (0x0000000160FFF3FF3FF3FF0000000000, .reform (.on 3)),
    (0x00000001B17FF3FF3FF3FF0000000000, .exit (.off 5)),
    (0x00000001C03FF3FF3FF3FF0000000000, .nop .always),
    (0x00000002003FF3FF3FF3FF0000000000, .yield .always),
    (0x00000002403FF3FF3FF3FF000000003F, .drain .always 63)] = true := by decide +kernel

theorem test_decode_integer : decodesAll [
    (0x0000002000001BFE3FF3FF0380000001, .mov .always true true (.reg 1 .pl) .lit 0x80000001),
    (0x00000020400023FF3FF3FF0100000005, .movi .always true false (.reg 2 .home) 5),
    (0x00000020800030043FE3FF0000000009, .movh .always (.reg 3 .home) (.reg 4 .res false) .lit 9),
    (0x00000020C00030040053FF0200000046, .sel .always false true (.reg 3 .home) (.reg 4 .res false) (.reg 5 .res false) ⟨6, true⟩),
    (0x0000002220C0940A40BBFF1500000000, .iadd (.on 3) ⟨true, false, true⟩ (.reg 9 .sp) (.reg 10 .sp false) (.reg 11 .pl true) 0),
    (0x00000022400093FB3FD3FF0200000000, .isub .always ⟨false, true, false⟩ (.reg 9 .home) .tid .lane 0),
    (0x000000228000800A00C3FF0100000302, .iaddc .always true (.reg 8 .home) (.reg 10 .res false) (.reg 12 .res false) 2 3),
    (0x00000022C000800A00C3FF0000000504, .isubb .always false (.reg 8 .home) (.reg 10 .res false) (.reg 12 .res false) 4 5),
    (0x00000023000010023FC3FF0400000000, .imul .always ⟨false, false, true⟩ (.reg 1 .home) (.reg 2 .res false) .gw 0),
    (0x00000023400010023FE3FF0300000008, .imulh .always true true (.reg 1 .home) (.reg 2 .res false) .lit 8),
    (0x0000002380001002003004C800000000, .imad .always ⟨false, false, false⟩ (.reg 1 .home) (.reg 2 .res false) (.reg 3 .res false) (.reg 4 .pd true) 0),
    (0x00000023C00020040050060600000000, .imadw .always true true (.reg 2 .home) (.reg 4 .res false) (.reg 5 .res false) (.reg 6 .res false) 0),
    (0x00000024000010020033FF0200000000, .imin .always false true (.reg 1 .home) (.reg 2 .res false) (.reg 3 .res false) 0)] = true := by decide +kernel

theorem test_decode_integer_2 : decodesAll [
    (0x00000024400010020033FF0100000000, .imax .always true false (.reg 1 .home) (.reg 2 .res false) (.reg 3 .res false) 0),
    (0x00000024800010023FF3FF0400000000, .iabs .always false true (.reg 1 .home) (.reg 2 .res false) 0),
    (0x00000024C00010023FF3FF0100000000, .ineg .always ⟨true, false, false⟩ (.reg 1 .home) (.reg 2 .res false) 0),
    (0x00000025000010020033FF0000000000, .idiff .always false false (.reg 1 .home) (.reg 2 .res false) (.reg 3 .res false) 0),
    (0x00000025403FF0020033FF0300000605, .icmp .always true true .ge 6 (.reg 2 .res false) (.reg 3 .res false)),
    (0x00000025800010020033FF0000000002, .iset .always false false .lt (.reg 1 .home) (.reg 2 .res false) (.reg 3 .res false))] = true := by decide +kernel

theorem test_decode_bits : decodesAll [
    (0x00000028000010020033FF0100000000, .and .always true (.reg 1 .home) (.reg 2 .res false) (.reg 3 .res false) 0),
    (0x00000028400010020033FF0000000000, .or .always false (.reg 1 .home) (.reg 2 .res false) (.reg 3 .res false) 0),
    (0x00000028800010020033FF0100000000, .xor .always true (.reg 1 .home) (.reg 2 .res false) (.reg 3 .res false) 0),
    (0x00000028C00010023FF3FF0100000000, .not .always true (.reg 1 .home) (.reg 2 .res false) 0),
    (0x00000029000010020030040000E80000, .tlog .always false (.reg 1 .home) (.reg 2 .res false) (.reg 3 .res false) (.reg 4 .res false) 0xE8),
    (0x00000029400010020033FF0100000000, .shl .always true (.reg 1 .home) (.reg 2 .res false) (.reg 3 .res false) 0),
    (0x00000029800010020033FF0000000000, .shr .always false (.reg 1 .home) (.reg 2 .res false) (.reg 3 .res false) 0),
    (0x00000029C00010020033FF0100000000, .sar .always true (.reg 1 .home) (.reg 2 .res false) (.reg 3 .res false) 0),
    (0x0000002A000010020033FE0000000004, .fshl .always (.reg 1 .home) (.reg 2 .res false) (.reg 3 .res false) .lit 4),
    (0x0000002A400010020030040000000000, .fshr .always (.reg 1 .home) (.reg 2 .res false) (.reg 3 .res false) (.reg 4 .res false) 0),
    (0x0000002A800010020033FF0000000000, .rot .always false (.reg 1 .home) (.reg 2 .res false) (.reg 3 .res false) 0),
    (0x0000002AC00010023FF3FF0100000000, .popc .always true (.reg 1 .home) (.reg 2 .res false) 0),
    (0x0000002B000010023FF3FF0000000000, .clz .always false (.reg 1 .home) (.reg 2 .res false) 0)] = true := by decide +kernel

theorem test_decode_bits_2 : decodesAll [
    (0x0000002B400010023FF3FF0100000000, .ctz .always true (.reg 1 .home) (.reg 2 .res false) 0),
    (0x0000002B800010023FF3FF0000000000, .brev .always false (.reg 1 .home) (.reg 2 .res false) 0),
    (0x0000002BC00010020033FF0200000000, .bfx .always false true (.reg 1 .home) (.reg 2 .res false) (.reg 3 .res false) 0),
    (0x0000002C000010020030040100000000, .bfi .always true (.reg 1 .home) (.reg 2 .res false) (.reg 3 .res false) (.reg 4 .res false) 0),
    (0x0000002C400010020030040000000000, .bytep .always (.reg 1 .home) (.reg 2 .res false) (.reg 3 .res false) (.reg 4 .res false) 0),
    (0x0000002E000080060033FE0200000028, .lea .always true (.reg 8 .home) (.reg 6 .res false) (.reg 3 .res false) .lit 40),
    (0x00000030003FF3FF3FF3FF0000034201, .pand .always 1 ⟨2, true⟩ ⟨3, false⟩),
    (0x00000030403FF3FF3FF3FF000043023F, .por .always 63 ⟨2, false⟩ ⟨3, true⟩),
    (0x00000030803FF3FF3FF3FF0000030201, .pxor .always 1 ⟨2, false⟩ ⟨3, false⟩),
    (0x00000030C03FF3FF3FF3FF0000004201, .pnot .always 1 ⟨2, true⟩),
    (0x00000031003FF3FF3FF3FF0000003E01, .pmov .always 1 ⟨62, false⟩),
    (0x00000031403FF0020033FF0100000000, .pset .always true (.reg 2 .res false) (.reg 3 .res false) 0),
    (0x00000031800013FF3FF3FF0000000000, .pget .always false (.reg 1 .home))] = true := by decide +kernel

theorem test_decode_float : decodesAll [
    (0x00000040000010020033FF0000000000, .fadd .always ⟨.f32, .rne, false, false⟩ (.reg 1 .home) (.reg 2 .res false) (.reg 3 .res false)),
    (0x00000040400010020033FF0100000001, .fsub .always ⟨.f16x2, .rtz, false, false⟩ (.reg 1 .home) (.reg 2 .res false) (.reg 3 .res false)),
    (0x00000040800010020033FF020000000A, .fmul .always ⟨.bf16x2, .rup, true, false⟩ (.reg 1 .home) (.reg 2 .res false) (.reg 3 .res false)),
    (0x00000040C00010020030040300000013, .ffma .always ⟨.e4m3x4, .rdn, false, true⟩ (.reg 1 .home) (.reg 2 .res false) (.reg 3 .res false) (.reg 4 .res false)),
    (0x00000041000010020033FF0400000008, .fmin .always .e5m2x4 true (.reg 1 .home) (.reg 2 .res false) (.reg 3 .res false)),
    (0x00000041400010020033FF0100000000, .fmax .always .f16x2 false (.reg 1 .home) (.reg 2 .res false) (.reg 3 .res false)),
    (0x00000041800010020033FF00000009C8, .fcmp .always .f32 true .un 9 (.reg 1 .home) (.reg 2 .res false) (.reg 3 .res false)),
    (0x00000041C00010023FF3FF0001010000, .fclass .always .f32 false 0x101 (.reg 1 .home) (.reg 2 .res false)),
    (0x00000044000010020033FF0000000004, .fdiv .always ⟨.f32, .rna, false, false⟩ (.reg 1 .home) (.reg 2 .res false) (.reg 3 .res false)),
    (0x00000044400010023FF3FF0000000005, .fsqrt .always ⟨.f32, .sr, false, false⟩ (.reg 1 .home) (.reg 2 .res false)),
    (0x00000044800010023FF3FF0100000000, .frcp .always ⟨.f16x2, .rne, false, false⟩ (.reg 1 .home) (.reg 2 .res false)),
    (0x00000044C00010023FF3FF0200000000, .frsq .always ⟨.bf16x2, .rne, false, false⟩ (.reg 1 .home) (.reg 2 .res false)),
    (0x00000045000010023FF3FF0300000000, .fexp2 .always ⟨.e4m3x4, .rne, false, false⟩ (.reg 1 .home) (.reg 2 .res false))] = true := by decide +kernel

theorem test_decode_float_2 : decodesAll [
    (0x00000045400010023FF3FF0400000000, .flog2 .always ⟨.e5m2x4, .rne, false, false⟩ (.reg 1 .home) (.reg 2 .res false)),
    (0x00000045800010023FF3FF0000000001, .fsin .always ⟨.f32, .rtz, false, false⟩ (.reg 1 .home) (.reg 2 .res false)),
    (0x00000045C00010023FF3FF0000000008, .fcos .always ⟨.f32, .rne, true, false⟩ (.reg 1 .home) (.reg 2 .res false)),
    (0x00000046000010023FF3FF0000000000, .ftanh .always ⟨.f32, .rne, false, false⟩ (.reg 1 .home) (.reg 2 .res false)),
    (0x00000048000010020033FF0000000002, .fscale .always ⟨.f32, .rup, false, false⟩ (.reg 1 .home) (.reg 2 .res false) (.reg 3 .res false)),
    (0x00000048400010023FF3FF0000000004, .frnd .always .f32 .rna false (.reg 1 .home) (.reg 2 .res false)),
    (0x00000060400010023FF3FF0000000160, .icvt .always ⟨.f32, .rne, false, false⟩ .i64 true (.reg 1 .home) (.reg 2 .res false)),
    (0x00000060800010023FF3FF0200000029, .fcvti .always .i16x2 false .bf16x2 .rtz true (.reg 1 .home) (.reg 2 .res false)),
    (0x00000060C00040020033FF0100000020, .kdec .always ⟨.f16x2, .rne, false, false⟩ true (.reg 4 .home) (.reg 2 .res false) (.reg 3 .res false))] = true := by decide +kernel

theorem test_decode_lane : decodesAll [
    (0x0000006800001002003004000000005B, .xshf .always .xor (some 5) (.reg 1 .home) (.reg 2 .res false) (.reg 3 .res false) (.reg 4 .res false)),
    (0x00000068400010020030040000000002, .xbcast .always .last (.reg 1 .home) (.reg 2 .res false) (.reg 3 .res false) (.reg 4 .res false)),
    (0x00000068803FF3FF3FF3FF0000020746, .xvote .always .eq 7 ⟨6, true⟩),
    (0x00000068C00013FF3FF3FF0000000006, .xballot .always (.reg 1 .home) ⟨6, false⟩),
    (0x00000069000013FF3FF3FF0000000086, .xpfx .always true (.reg 1 .home) ⟨6, false⟩),
    (0x00000069400010023FF3FF0000001D40, .xred .always ⟨.min, .i32, true, true, .rne, false, false⟩ (.reg 1 .home) (.reg 2 .res false)),
    (0x00000069800010023FF3FF0000000129, .xscan .always ⟨.mul, .flt .f16x2, false, false, .rtz, true, false⟩ (.reg 1 .home) (.reg 2 .res false)),
    (0x00000069C00010020030040000000001, .xslide .always true (.reg 1 .home) (.reg 2 .res false) (.reg 3 .res false) (.reg 4 .res false)),
    (0x0000006A000010023FF0040000000009, .xcmpr .always (.reg 1 .home) (.reg 2 .res false) (.reg 4 .res false) ⟨9, false⟩),
    (0x0000006A400010023FF0040000000049, .xexpd .always (.reg 1 .home) (.reg 2 .res false) (.reg 4 .res false) ⟨9, true⟩),
    (0x0000006A800010020033FF000000AB07, .xtbl .always 7 0xAB (.reg 1 .home) (.reg 2 .res false) (.reg 3 .res false))] = true := by decide +kernel

theorem test_decode_modular : decodesAll [
    (0x00000080003FF0023FF3FF0700000021, .qset .always 7 true .pl (.reg 2 .res false)),
    (0x00000080400013FF3FF3FF0500000001, .qget .always 5 .mu (.reg 1 .home)),
    (0x00000082000010020033FF0600000000, .maddq .always 6 (.reg 1 .home) (.reg 2 .res false) (.reg 3 .res false)),
    (0x00000082400010020033FF0600000000, .msubq .always 6 (.reg 1 .home) (.reg 2 .res false) (.reg 3 .res false)),
    (0x00000082800010023FF3FF0600000000, .mnegq .always 6 (.reg 1 .home) (.reg 2 .res false)),
    (0x00000082C00010020033FF0600000000, .mmulq .always 6 (.reg 1 .home) (.reg 2 .res false) (.reg 3 .res false)),
    (0x00000083000010020030040600000000, .mmacq .always 6 (.reg 1 .home) (.reg 2 .res false) (.reg 3 .res false) (.reg 4 .res false)),
    (0x00000083400010023FF3FF0600000000, .mredq .always 6 (.reg 1 .home) (.reg 2 .res false)),
    (0x00000083800010020033FF0600000000, .mpowq .always 6 (.reg 1 .home) (.reg 2 .res false) (.reg 3 .res false)),
    (0x00000084000010020030040600000000, .bfly .always 6 (.reg 1 .home) (.reg 2 .res false) (.reg 3 .res false) (.reg 4 .res false)),
    (0x00000084400010020030040600000000, .ibfly .always 6 (.reg 1 .home) (.reg 2 .res false) (.reg 3 .res false) (.reg 4 .res false)),
    (0x00000084800010020033FF0300000004, .xbfly .always 3 false 4 (.reg 1 .home) (.reg 2 .res false) (.reg 3 .res false)),
    (0x00000084C00010020033FF030000000A, .xibfly .always 3 true 2 (.reg 1 .home) (.reg 2 .res false) (.reg 3 .res false))] = true := by decide +kernel

theorem test_decode_memory : decodesAll [
    (0x000000A0000010023FF3FF02800101A0, .ld .always ⟨.b16, 0x8001, true, .cs, .wk, .sy⟩ true (.reg 1 .home) (.reg 2 .res false)),
    (0x000000A0403FF0020033FF0000000015, .st .always ⟨.b32, 0, false, .ca, .rel, .ws⟩ (.reg 2 .res false) (.reg 3 .res false)),
    (0x000000A0803FF0020040060400000000, .stm .always ⟨.b128, 0, false, .ca, .wk, .sy⟩ (.reg 2 .res false) (.reg 4 .res false) (.reg 6 .res false)),
    (0x000000A0C00010023FF3FF0100040220, .lds .always .b8 true true 4 (.reg 1 .home) (.reg 2 .res false)),
    (0x000000A1003FF0020043FF0300080000, .sts .always .b64 8 (.reg 2 .res false) (.reg 4 .res false)),
    (0x000000A1403FF0020040060000000000, .stsm .always .b32 0 (.reg 2 .res false) (.reg 4 .res false) (.reg 6 .res false)),
    (0x000000A1803FF0023FF3FF0000030040, .pref .always true 3 (.reg 2 .res false)),
    (0x000000A400001002003004000000701C, .atom .always ⟨.cas, false, false, 0, .ca, .ar, .bn⟩ (.reg 1 .home) (.reg 2 .res false) (.reg 3 .res false) (.reg 4 .res false)),
    (0x000000A4400020010043FF0300101020, .atoms .always .min true true 16 (.reg 2 .home) (.reg 1 .res false) (.reg 4 .res false) .zero),
    (0x000000A4803FF0020033FF0000008000, .redm .always ⟨.fadd, false, false, 0, .ca, .wk, .sy⟩ (.reg 2 .res false) (.reg 3 .res false)),
    (0x000000A8003FF3FF3FF3FF000000002C, .fence .always .acq .bn true),
    (0x000000A8403FF3FF3FF3FF0000000002, .bar .always .pl),
    (0x000000A8803FF3FF3FF3FF00000000B3, .bara .always (.nb 11))] = true := by decide +kernel

theorem test_decode_memory_2 : decodesAll [
    (0x000000A8C03FF3FF3FF3FF0000000001, .barw .always .pd),
    (0x000000AC003FF0020030040300000042, .copy .always .b64 .o2s .cg (.reg 2 .res false) (.reg 3 .res false) (.reg 4 .res false)),
    (0x000000AC403FF0020030040000000902, .copym .always .b32 true .ca 9 (.reg 2 .res false) (.reg 3 .res false) (.reg 4 .res false)),
    (0x000000AC803FF0023FF3FF0000020700, .feq .always 7 2 (.reg 2 .res false)),
    (0x000000ACC03FF0023FF3FF0000000001, .feset .always true 0 (.reg 2 .res false)),
    (0x000000B0000010023FF3FF0000000560, .nred .always ⟨.max, .i32, false, false, .rne, false, false⟩ (.reg 1 .home) (.reg 2 .res false)),
    (0x000000B0400020040033FF0000000001, .nbcast .always (.pair (.reg 2 .home) (.reg 4 .res false)) (.reg 3 .res false)),
    (0x000000B0403FF3FF0033FF0500200000, .nbcast .always (.slot 5) (.reg 3 .res false)),
    (0x000000B2003FF0093FF3FF0000014B55, .merge .always true (.red .min none true .rne false) 11 (.src (.reg 9 .res false))),
    (0x000000B2403FF3FF3FF3FF0400200000, .ldrop .always false (.slot 4)),
    (0x000000B2800010093FF3FF0000000000, .lrank .always (.reg 1 .home) (.src (.reg 9 .res false)))] = true := by decide +kernel

theorem test_decode_matrix : decodesAll [
    (0x000000C0003FF3FF3FF3FF000001000F, .mdecl .always 15 4096),
    (0x000000C0403FF3FF3FF3FF0000000000, .moprdy .always),
    (0x000000C0800013FF0030040000000402, .mma .always 2 64 (.reg 1 .home) .zero (.reg 3 .res false) (.reg 4 .res false)),
    (0x000000C0C03FF0023FF3FF0000000000, .mwait .always (.reg 2 .res false)),
    (0x000000C120FFF0023FF3FF0000000000, .mrel (.on 3) (.reg 2 .res false)),
    (0x000000C1403FF0020030040000000001, .mlda .always true .none (.reg 2 .res false) (.reg 3 .res false) (.reg 4 .res false)),
    (0x000000C1803FF0020030040000000000, .msta .always false (.reg 2 .res false) (.reg 3 .res false) (.reg 4 .res false)),
    (0x000000C1C00013FF3FF3FF0000000000, .mslotAlloc .always (.reg 1 .home)),
    (0x000000C1C00013FF3FF3FF0000000001, .mslotCnt .always (.reg 1 .home)),
    (0x000000C1C03FF0023FF3FF0000000002, .mslotZero .always (.reg 2 .res false))] = true := by decide +kernel

theorem test_decode_system : decodesAll [
    (0x000000E0000023FF3FF3FF0000000015, .srr .always .ctx (.reg 2 .home)),
    (0x000000E0403FF0023FF3FF0000000012, .srw .always .fflags (.reg 2 .res false)),
    (0x000000E0800010023FF3FF0000000000, .setw .always (.reg 1 .home) (.reg 2 .res false)),
    (0x000000E0C00010020033FF0000000000, .spawn .always (.reg 1 .home) (.reg 2 .res false) (.reg 3 .res false)),
    (0x000000E1000010020043FF0000000000, .launch .always (.reg 1 .home) (.reg 2 .res false) (.reg 4 .res false)),
    (0x000000E1403FF3FF3FF3FF0000000000, .round .always),
    (0x000000E1803FF3FF3FF3FF000000007F, .trap .always 0x7F),
    (0x000000E1C03FF0023FF3FF0000000000, .eret .always (.reg 2 .res false)),
    (0x000000E2003FF0020043FF0000000000, .swapc .always (.reg 2 .res false) (.reg 4 .res false)),
    (0x000000E2403FF0020043FF0000000000, .objw .always (.reg 2 .res false) (.reg 4 .res false)),
    (0x000000E2800100023FF3FF0000000000, .objq .always (.reg 16 .home) (.reg 2 .res false)),
    (0x000000E2C03FF0020043FF0000000000, .icinv .always (.reg 2 .res false) (.reg 4 .res false)),
    (0x000000E3003FF0020043FF0000000000, .xlinvRng .always (.reg 2 .res false) (.reg 4 .res false))] = true := by decide +kernel

theorem test_decode_system_2 : decodesAll [
    (0x000000E3003FF3FF3FF3FF0000000001, .xlinvAll .always)] = true := by decide +kernel

/-! The conditions of WellFormed (R168, R178, R179, R181, R186, R188, R189, R201, R203, R206, R223): each refuses a term that breaks it. -/

theorem test_wf_refuses : ([
    .mov .always false false (.reg 1 .home) (.reg 2 .res false) 5,
    .iadd .always ⟨false, false, false⟩ (.reg 1 .home) (.reg 2 .res false) (.reg 3 .res false) 1,
    .imad .always ⟨false, false, false⟩ (.reg 1 .home) (.reg 2 .res false) (.reg 3 .res false) (.reg 4 .res false) 1,
    .frnd .always .f32 .sr false (.reg 1 .home) (.reg 2 .res false),
    .fcvti .always .i32 false .f32 .sr false (.reg 1 .home) (.reg 2 .res false),
    .kdec .always ⟨.e4m3x4, .rne, false, false⟩ false (.reg 1 .home) (.reg 2 .res false) (.reg 3 .res false),
    .xred .always ⟨.and, .flt .f32, false, false, .rne, false, false⟩ (.reg 1 .home) (.reg 2 .res false),
    .xscan .always ⟨.add, .i32, false, false, .rtz, false, false⟩ (.reg 1 .home) (.reg 2 .res false),
    .xbfly .always 0 true 0 (.reg 1 .home) (.reg 2 .res false) (.reg 3 .res false),
    .xibfly .always 0 false 7 (.reg 1 .home) (.reg 2 .res false) (.reg 3 .res false),
    .ld .always ⟨.b32, 0, false, .ca, .rel, .sy⟩ false (.reg 1 .home) (.reg 2 .res false),
    .ld .always ⟨.b32, 0, false, .ca, .wk, .sy⟩ true (.reg 1 .home) (.reg 2 .res false),
    .ld .always ⟨.b32, 0, false, .ca, .wk, .pl⟩ false (.reg 1 .home) (.reg 2 .res false),
    .st .always ⟨.b32, 0, true, .ca, .rel, .sy⟩ (.reg 1 .res false) (.reg 2 .res false),
    .stm .always ⟨.b8, 0, false, .ca, .wk, .sy⟩ (.reg 1 .res false) (.reg 2 .res false) (.reg 3 .res false),
    .stsm .always .b16 0 (.reg 1 .res false) (.reg 2 .res false) (.reg 3 .res false),
    .lds .always .b64 false true 0 (.reg 1 .home) (.reg 2 .res false),
    .atom .always ⟨.add, false, true, 0, .ca, .wk, .sy⟩ (.reg 1 .home) (.reg 2 .res false) (.reg 3 .res false) .zero,
    .atom .always ⟨.fadd, true, false, 0, .ca, .wk, .sy⟩ (.reg 1 .home) (.reg 2 .res false) (.reg 3 .res false) .zero,
    .atoms .always .add false false 0 (.reg 1 .home) (.reg 2 .res false) (.reg 3 .res false) (.reg 4 .res false),
    .redm .always ⟨.cas, false, false, 0, .ca, .wk, .sy⟩ (.reg 2 .res false) (.reg 3 .res false),
    .copy .always .b8 .g2s .ca (.reg 2 .res false) (.reg 3 .res false) .zero,
    .copy .always .b32 .g2s .ca (.reg 2 .res false) (.reg 3 .res false) (.reg 4 .res false),
    .copym .always .b32 false .ca 1 (.reg 2 .res false) (.reg 3 .res false) (.reg 4 .res false),
    .nred .always ⟨.add, .i32, false, true, .rne, false, false⟩ (.reg 1 .home) (.reg 2 .res false),
    .merge .always false (.red .or (some .f32) false .rne false) 0 (.src (.reg 1 .res false)),
    .merge .always false (.red .add none false .rne false) 0 (.slot 1),
    .mdecl .always 0 0,
    .mdecl .always 0 4097,
    .mma .always 0 257 .none .zero (.reg 2 .res false) (.reg 4 .res false)] : List Instr).all (fun i => !i.wf) = true := by decide +kernel

theorem test_wf_accepts_bounds : ([
    .mdecl .always 0 1,
    .mdecl .always 0 4096,
    .mma .always 0 256 .none .zero (.reg 2 .res false) (.reg 4 .res false),
    .xbfly .always 0 false 0 (.reg 1 .home) (.reg 2 .res false) (.reg 3 .res false),
    .xibfly .always 0 true 7 (.reg 1 .home) (.reg 2 .res false) (.reg 3 .res false),
    .mov .always false false (.reg 1 .home) .lit 5] : List Instr).all Instr.wf = true := by decide +kernel

/-! A small part for the hypotheses of the statements: one block of two threads in one fragment, with its pages mapped to themselves. -/

/-- Entries of a page table that maps pages 1, 16, 32, 48, 64 and 80 to themselves, readable, writable and executable. -/
def demoMem : List Host.Cell :=
  let leaf (m : List Host.Cell) (k : Nat) : List Host.Cell := putBytes m (0x26000 + 8 * k) (leBytes 8 (65536 * k + 15 + 2 ^ 56))
  [1, 16, 32, 48, 64, 80].foldl leaf (putBytes (putBytes (putBytes [] 0x20000 (leBytes 8 0x22001)) 0x22000 (leBytes 8 0x24001)) 0x24000 (leBytes 8 0x26001))

/-- Its context, which may write its object table and names a handler. -/
def demoCtx : Ctx :=
  { placedContext with rcd := { placedCtx with handler := 0x10000, hextent := 0x1000, harea := 0x500000, locSize := 0x4000, park := 64 } }

/-- Its pond: v4 and v6 hold addresses, v8 a place in the scratchpad, v10 a handle of the slot that it holds, v12 and v14 format words, w16 and v18 moduli,
v22 a grant, w26 the address 2^57, w34 an address of code, and v48 up the entry `demoRecord`;
slot q0 is of
width 32 and slot q1 of width 64. -/
def demoPond : Pond := { placedPond with
  size := 0x20000
  bank := [(4, 0x100100), (6, 0x100140), (8, 0x100), (10, handleOf 0 0), (12, 0), (14, 0x20000), (16, 0xFFFFFFFF), (17, 0x3FFFFFFF), (18, 3), (22, 128), (27, 0x2000000), (34, 0x10000),
    (48, 0x100200), (52, 256), (53, 256), (56, 256), (62, 0x8F1000)]
  qbank := [(0, ⟨0x0F0F0F0F0F0F0F0F, false, 17⟩), (1, ⟨0x0F0F0F0F0F0F0F0F, true, 17⟩)]
  held := [⟨0, 0, true, 0, .zero, false, false⟩] }

/-- The part, about to issue word 7. -/
def demo : State := { placed State.reset [] with
  mem := demoMem
  ctxs := [demoCtx]
  launches := [{ placedLaunch with bsize := 2, kernel := { placedKernel with scratch := 0x20000 } }]
  ponds := [demoPond]
  threads := [placedThread, { placedThread with tid := 1, entry := 1, place := .lane 0 0 1 }]
  nextId := 100
  cur := some ⟨⟨0, 0⟩, 7, .single, portable⟩ }

/-- `demo` with these threads in lanes 0 and 1. -/
def demoWith (x y : Thread) : State := { demo with threads := [x, { y with tid := 1, entry := 1, place := .lane 0 0 1 }] }

/-- `demo` in still mode, with an ownership table whose two state words hold `v`. -/
def demoStill (v : Nat) : State := { demo with
  mem := putBytes demoMem 0x300000 (leBytes 8 v ++ leBytes 8 v)
  launches := [{ placedLaunch with
    bsize := 2
    kernel := { placedKernel with scratch := 0x20000, still := true }
    ranges := [(0x100080, 2, 0x300000)] }] }

/-- The surroundings of the word under way. -/
def demoEnv (s : State) : Env :=
  (s.cur.bind (envOf s)).getD ⟨⟨⟨0, 0⟩, 0, .single, portable⟩, placedFrag, placedPool, placedPond, placedBlock, placedLaunch, placedContext, 0, []⟩

/-- The word issues without a trap. -/
def issuesNow (s : State) (i : Instr) : Bool := (s.cur.bind (envOf s)).isSome && ready s (demoEnv s) i && (checks (demoEnv s) i).isNone

theorem issues_of_issuesNow {s : State} {i : Instr} (h : issuesNow s i = true) : Issues s (demoEnv s) i := by
  simp only [issuesNow, Bool.and_eq_true, Option.isNone_iff_eq_none] at h
  obtain ⟨⟨he, hr⟩, hc⟩ := h
  obtain ⟨e, h⟩ := Option.isSome_iff_exists.1 he
  exact ⟨by simp [demoEnv, h], hr, hc⟩

/-! ## A state and operands that meet the hypotheses of each statement -/

/-- Sources and a destination of the words below. -/
def rA : Src := .reg 20 .res false
def rB : Src := .reg 24 .res false
def rC : Src := .reg 28 .res false
def rD : Dst := .reg 40 .home

/-- MOV to SEL, and the integer and predicate words. -/
def integerWords : List Instr := [
  .mov .always true true rD rA 0, .movi .always true false rD 5, .movh .always rD rA .lit 9, .sel .always false true rD rA rB ⟨6, true⟩,
  .iadd .always ⟨true, false, true⟩ rD rA rB 0, .isub .always ⟨false, true, false⟩ rD .tid .lane 0, .imul .always ⟨false, false, true⟩ rD rA .gw 0,
  .imulh .always true true rD rA .lit 8, .imad .always ⟨false, false, false⟩ rD rA rB rC 0, .imadw .always true true rD rA rB rC 0,
  .imin .always false true rD rA rB 0, .imax .always true false rD rA rB 0, .iabs .always false true rD rA 0, .ineg .always ⟨true, false, false⟩ rD rA 0,
  .idiff .always false false rD rA rB 0, .iaddc .always true rD rA rB 2 3, .isubb .always false rD rA rB 4 63, .icmp .always true true .ge 6 rA rB,
  .iset .always false false .lt rD rA rB]

/-- The logical words, the shifts, the counts and the fields. -/
def bitWords : List Instr := [
  .and .always true rD rA rB 0, .or .always false rD rA rB 0, .xor .always true rD rA rB 0, .not .always true rD rA 0, .tlog .always false rD rA rB rC 0xE8,
  .shl .always true rD rA rB 0, .shr .always false rD rA rB 0, .sar .always true rD rA rB 0, .fshl .always rD rA rB .lit 4, .fshr .always rD rA rB rC 0,
  .rot .always false rD rA rB 0, .popc .always true rD rA 0, .clz .always false rD rA 0, .ctz .always true rD rA 0, .brev .always false rD rA 0,
  .bfx .always false true rD rA rB 0, .bfi .always true rD rA rB rC 0, .bytep .always rD rA rB rC 0, .lea .always true rD rA rB .lit 40]

/-- The predicate words. -/
def predicateWords : List Instr := [
  .pand .always 1 ⟨2, true⟩ ⟨3, false⟩, .por .always 63 ⟨2, false⟩ ⟨3, true⟩, .pxor .always 1 ⟨2, false⟩ ⟨3, false⟩, .pnot .always 1 ⟨2, true⟩,
  .pmov .always 1 ⟨62, false⟩, .pset .always true rA rB 0, .pget .always false rD]

/-- The floating-point words of R149, R151 to R154. -/
def floatWords : List Instr := [
  .fadd .always ⟨.f32, .rne, false, false⟩ rD rA rB, .fsub .always ⟨.f16x2, .rtz, false, false⟩ rD rA rB, .fmul .always ⟨.bf16x2, .rup, true, false⟩ rD rA rB,
  .ffma .always ⟨.e4m3x4, .rdn, false, true⟩ rD rA rB rC, .fdiv .always ⟨.f32, .rna, false, false⟩ rD rA rB, .fsqrt .always ⟨.f32, .sr, false, false⟩ rD rA,
  .frcp .always ⟨.f16x2, .rne, false, false⟩ rD rA, .frsq .always ⟨.bf16x2, .rne, false, false⟩ rD rA, .fexp2 .always ⟨.e4m3x4, .rne, false, false⟩ rD rA,
  .flog2 .always ⟨.e5m2x4, .rne, false, false⟩ rD rA, .fsin .always ⟨.f32, .rtz, false, false⟩ rD rA, .fcos .always ⟨.f32, .rne, true, false⟩ rD rA,
  .ftanh .always ⟨.f32, .rne, false, false⟩ rD rA, .fscale .always ⟨.f32, .rup, false, false⟩ rD rA rB]

/-- The other floating-point words. -/
def compareWords : List Instr := [
  .fmin .always .e5m2x4 true rD rA rB, .fmax .always .f16x2 false rD rA rB, .fcmp .always .f32 true .un 9 rD rA rB, .fclass .always .f32 false 0x101 rD rA,
  .frnd .always .f32 .rna false rD rA]

/-- The conversions. -/
def conversionWords : List Instr := [
  .fcvt .always ⟨.e4m3x4, .rne, false, false⟩ .f32 rD rA, .icvt .always ⟨.f32, .rne, false, false⟩ .i64 true rD rA,
  .kdec .always ⟨.f16x2, .rne, false, false⟩ true rD rA rB, .fcvti .always .i16x2 false .bf16x2 .rtz true rD rA]

/-- The lane words. -/
def laneWords : List Instr := [
  .xshf .always .xor none rD rA rB rC, .xshf .always .rot (some 4) rD rA .zero rC, .xbcast .always .last rD rA rB rC, .xbcast .always .lane rD rA rB rC, .xslide .always true rD rA rB rC,
  .xvote .always .eq 7 ⟨6, true⟩, .xballot .always rD ⟨6, false⟩, .xpfx .always true rD ⟨6, false⟩,
  .xred .always ⟨.min, .i32, true, true, .rne, false, false⟩ rD rA, .xred .always ⟨.add, .i64, false, false, .rne, false, false⟩ rD rA,
  .xscan .always ⟨.mul, .flt .f16x2, false, false, .rtz, true, false⟩ rD rA, .xcmpr .always rD rA rC ⟨9, false⟩, .xexpd .always rD rA rC ⟨9, true⟩,
  .xtbl .always 7 0xAB rD rA rB]

/-- The words with a modulus slot, at width 32 with q0 and at width 64 with q1. -/
def residueWords : List Instr := [
  .qget .always 5 .mu rD, .maddq .always 1 rD rA rB, .msubq .always 1 rD rA rB, .mnegq .always 0 rD rA, .mmulq .always 0 rD rA rB, .mmacq .always 1 rD rA rB rC,
  .mredq .always 1 rD rA, .bfly .always 1 rD rA rB rC, .ibfly .always 0 rD rA rB rC, .xbfly .always 0 false 4 rD rA rB, .xibfly .always 1 true 2 rD rA rB]

/-- Every word that only writes registers, predicates and flags. -/
def registerWords : List Instr :=
  integerWords ++ bitWords ++ predicateWords ++ floatWords ++ compareWords ++ conversionWords ++ laneWords ++ residueWords ++
    [.lrank .always rD (.src (.reg 9 .res false)), .lrank .always rD (.slot 1), .mslotCnt .always rD]

theorem witness_RegisterWordsComplete : registerWords.all (fun i => isRegisterWord i && issuesNow demo i) = true := by decide +kernel

theorem witness_MovesComparesAndBytes : (integerWords.take 4 ++ integerWords.drop 17 ++ bitWords.drop 17).all (issuesNow demo) = true := by decide +kernel

theorem witness_IntegerWordsWriteExactResults : ((integerWords.drop 4).take 11).all (fun i => (exactRow i).isSome && issuesNow demo i) = true := by decide +kernel

theorem witness_CarryWordsExtend : ((integerWords.drop 15).take 2).all (fun i => (encode i).isSome && issuesNow demo i) = true := by decide +kernel

theorem witness_BitsCountsAndFields :
    (bitWords.take 17).all (fun i => ((logicRow i).isSome || (shiftRow i).isSome || (countRow i).isSome || (fieldRow i).isSome) && issuesNow demo i) = true := by
  decide +kernel

theorem witness_PredicateWords : predicateWords.all (issuesNow demo) = true ∧ (predicateWords.take 5).all (fun i => (predRow i).isSome) = true := by decide +kernel

theorem witness_FloatWordsRoundOnce : floatWords.all (fun i => (floatRow i).isSome && issuesNow demo i) = true := by decide +kernel

theorem witness_FloatValuesAreExact : (fvalue fp32 0x3F800000).exact ∧ (fvalue fp32 0xC0000000).exact ∧ (fvalue fp32 0x3F800000).rat ≠ 0 ∧
    0 < (fvalue fp32 0x3F800000).rat := by
  have h : fvalue fp32 0x3F800000 = .num false (2 ^ 23) (-23) false := by decide +kernel
  have h' : fvalue fp32 0xC0000000 = .num true (2 ^ 23) (-22) false := by decide +kernel
  rw [h, h']
  simp [FVal.exact, FVal.rat]

theorem witness_RoundingIsCorrect : fvalue (elemFmt .f32) 0x7F7FFFFF ≠ .nan ∧ fvalue (elemFmt .e4m3x4) 0 ≠ .nan ∧ (fvalue fp32 1).exact ∧
    (roundTo (elemFmt .f32) .rdn false false 0 (fvalue fp32 1)).2.of = false ∧ (roundTo (elemFmt .f32) .rup false false 0 (fvalue fp32 1)).2.of = false := by
  have h : fvalue fp32 1 = .num false 1 (-149) false := by decide +kernel
  exact ⟨by decide +kernel, by decide +kernel, by rw [h]; rfl, by decide +kernel, by decide +kernel⟩

theorem witness_RoundingIsCorrect_ties :
    let v : FVal := .num false 257 (-8) false
    let r (rm : RM) := roundTo (elemFmt .bf16x2) rm false false 0 v
    let val (rm : RM) : ℚ := (fvalue (elemFmt .bf16x2) (r rm).1).rat
    v.exact ∧ (r .rdn).2.of = false ∧ (r .rup).2.of = false ∧ val .rdn ≠ val .rup ∧ v.rat - val .rdn = val .rup - v.rat := by
  have h : fvalue (elemFmt .bf16x2) (roundTo (elemFmt .bf16x2) .rdn false false 0 (.num false 257 (-8) false)).1 = .num false 128 (-7) false := by decide +kernel
  have h' : fvalue (elemFmt .bf16x2) (roundTo (elemFmt .bf16x2) .rup false false 0 (.num false 257 (-8) false)).1 = .num false 129 (-7) false := by decide +kernel
  refine ⟨rfl, by decide +kernel, by decide +kernel, ?_⟩
  simp only [h, h', FVal.rat]
  norm_num

theorem witness_RoundingIsCorrect_flush :
    let least : ℚ := (2 : ℚ) ^ (elemFmt .f32).emin
    let rat (m : Nat) (e : Int) : ℚ := (FVal.num true m e false).rat
    least ≤ |rat 1 (-126)| ∧ rat 1 (-127) ≠ 0 ∧ |rat 1 (-127)| < least ∧ |rat 1 (-127)| ≤ least * (1 - 1 / 2 ^ ((elemFmt .f32).fb + 1)) ∧
      |rat 1 (-127)| < least * (1 - 1 / 2 ^ ((elemFmt .f32).fb + 2)) ∧ least * (1 - 1 / 2 ^ ((elemFmt .f32).fb + 2)) ≤ |rat 1 (-126)| := by
  have he : (elemFmt .f32).emin = -126 := rfl
  have hf : (elemFmt .f32).fb = 23 := rfl
  simp only [he, hf, FVal.rat]
  norm_num

theorem witness_FloatValuesAreExact_special : (fvalue fp32 0x80000000).zeroOf true ∧ (fvalue fp32 0xC0000000).exact ∧ (fvalue fp32 0xC0000000).rat < 0 ∧
    (fvalue fp32 0x3F800000).rat = 1 ∧ (fvalue fp32 0xC0000000).rat = ((-2 : ℤ) : ℚ) ∧ (fvalue fp32 0xBF000000).rat = ((-1 : ℤ) : ℚ) + 1 / 2 ∧
    (fvalue fp32 0x467FFC00).rat = ((2 ^ 14 - 1 : ℤ) : ℚ) ∧ (fvalue fp32 1).rat = (2 : ℚ) ^ (-149 : ℤ) := by
  have h0 : fvalue fp32 0x80000000 = .num true 0 (-149) false := by decide +kernel
  have h1 : fvalue fp32 0x3F800000 = .num false (2 ^ 23) (-23) false := by decide +kernel
  have h2 : fvalue fp32 0xC0000000 = .num true (2 ^ 23) (-22) false := by decide +kernel
  have h3 : fvalue fp32 0xBF000000 = .num true (2 ^ 23) (-24) false := by decide +kernel
  have h4 : fvalue fp32 0x467FFC00 = .num false 0xFFFC00 (-10) false := by decide +kernel
  have h5 : fvalue fp32 1 = .num false 1 (-149) false := by decide +kernel
  rw [h0, h1, h2, h3, h4, h5]
  simp only [FVal.zeroOf, FVal.exact, FVal.minus, FVal.rat]
  norm_num

/-- The largest finite value of E4M3 is 448, and the one before it 416. -/
theorem e4m3_top : (fvalue e4m3 e4m3.maxCode).rat = 448 ∧ (fvalue e4m3 (e4m3.maxCode - 1)).rat = 416 := by
  have h : fvalue e4m3 e4m3.maxCode = .num false 14 5 false := by decide +kernel
  have h' : fvalue e4m3 (e4m3.maxCode - 1) = .num false 13 5 false := by decide +kernel
  rw [h, h']
  simp only [FVal.rat]
  norm_num

theorem witness_RoundingIsCorrect_overflows :
    let tie : FVal := .num true 29 4 false
    tie.exact ∧ Overflows (elemFmt .e4m3x4) .rna 0 tie ∧ Overflows (elemFmt .e4m3x4) .rdn 0 tie ∧ ¬Overflows (elemFmt .e4m3x4) .rne 0 tie ∧
      ¬Overflows (elemFmt .e4m3x4) .rtz 0 tie ∧ (fvalue (elemFmt .e4m3x4) (elemFmt .e4m3x4).maxCode).rat ≤ |tie.rat| ∧
      Overflows (elemFmt .e4m3x4) .sr (2 ^ 31) tie ∧ ¬Overflows (elemFmt .e4m3x4) .sr (2 ^ 31 - 1) tie := by
  have he : elemFmt .e4m3x4 = e4m3 := rfl
  have hd : discarded e4m3 (.num true 29 4 false) = 2 ^ 23 := by decide +kernel
  have hm : e4m3.maxCode % 2 = 0 := rfl
  have ht : (FVal.num true 29 4 false).rat = -464 := by simp only [FVal.rat]; norm_num
  simp only [he, Overflows, e4m3_top.1, e4m3_top.2, hd, hm, FVal.exact, ht]
  norm_num

theorem witness_FloatExtremesAndCompares : (compareWords.take 4).all (issuesNow demo) = true := by decide +kernel

theorem witness_RoundToIntegralWords : issuesNow demo (.frnd .always .f32 .rna false rD rA) = true ∧ RM.rna ≠ .sr ∧
    fvalue (elemFmt .f32) (demoEnv demo |>.felem .f32 false placedThread rA 0) ≠ .nan := by decide +kernel

theorem witness_Conversions : conversionWords.all (issuesNow demo) = true ∧ (conversionWords.take 3).all (fun i => (convRow i).isSome) = true := by decide +kernel

theorem witness_LaneExchangesAndVotes : (laneWords.take 8).all (issuesNow demo) = true := by decide +kernel

theorem witness_LaneReductions : ((laneWords.drop 8).take 3).all (issuesNow demo) = true ∧ (demoEnv demo).pool.grant = 2 ^ 4 := by decide +kernel

theorem witness_LaneReductions_steps :
    let r : RMod := ⟨.max, .flt .e4m3x4, false, false, .rne, true, false⟩
    (0xFF : Nat) < 2 ^ (elemFmt .e4m3x4).width ∧ redSource r (elemFmt .e4m3x4) 0x87 = 0x80 ∧ redSource r (elemFmt .e4m3x4) 0x88 = 0x88 ∧
    (2 ^ 64 - 1 : Nat) < 2 ^ 64 ∧ signedBits 32 false (2 ^ 31) = -2 ^ 31 ∧ signedBits 32 true (2 ^ 31) = 2 ^ 31 := by decide +kernel

theorem witness_CompressExpandAndTable : (laneWords.drop 11).all (issuesNow demo) = true := by decide +kernel

theorem witness_SlotsAndResidues : residueWords.all (issuesNow demo) = true ∧ (residueWords.drop 1).all (fun i => (modRowOf i).isSome) = true ∧
    issuesNow demo (.qset .always 7 true .pl (.reg 16 .res false)) = true ∧
    (∀ u ∈ (demoEnv demo).active .always, ((demoEnv demo).src64 0 true u (.reg 16 .res false)).toNat = 2 ^ 62 - 1) ∧
    (∀ u ∈ (demoEnv demo).active .always, ((demoEnv demo).src 0 u (.reg 18 .res false)).toNat = 3) := by decide +kernel

/-- A trap of the checks of modulus slots: the word is ready, passes the static checks, and its active threads fail. -/
def slotTrapOk (s : State) (i : Instr) (p : Env → List Thread → Bool) : Bool :=
  let e := demoEnv s
  (s.cur.bind (envOf s)).isSome && ready s e i && (staticCheck e.launch.kernel i).isNone && (slotOf i).isSome && !i.isEvent && !(e.active (guardOfInstr i)).isEmpty &&
    p e (e.active (guardOfInstr i))

theorem witness_SlotsAndResidues_traps : issuesNow demo (.qset .always 7 false .pl (.reg 8 .res false)) = true ∧
    (((demoEnv demo).active .always).find? (fun x => decide ¬(((demoEnv demo).src 0 x (.reg 8 .res false)).toNat % 2 = 1))).isSome = true ∧
    slotTrapOk demo (.mmulq .always 2 rD rA rB) (fun e l => l.any (fun y => (e.slot 2 y).q == 0)) = true ∧
    slotTrapOk (demoWith { placedThread with slots := [(0, ⟨0, false, 17⟩)] } { placedThread with slots := [(0, ⟨0, true, 17⟩)] }) (.mmulq .always 0 rD rA rB)
      (fun e l => match l with | u :: us => us.any (fun y => (e.slot 0 y).wide != (e.slot 0 u).wide) && (u :: us).all (fun y => (e.slot 0 y).q != 0) | [] => false) = true ∧
    (let s := { demo with cur := some ⟨⟨0, 0⟩, 7, .pairX, portable⟩ }
     slotTrapOk s (.mmulq .always 1 rD rA rB) (fun e l => decide (e.iss.part ≠ .single) && l.all (fun y => (e.slot 1 y).wide && (e.slot 1 y).q != 0)) = true) := by decide +kernel

theorem witness_EncodeThenDecode : registerWords.all (fun i => i.wf && !i.isEvent) = true := by decide +kernel

theorem witness_IllegalWordsAreRefused : decodeWord (2 ^ 127 + 0x3FF * 2 ^ 94) = .error ⟨0x01, 0x3FF, false⟩ ∧ (1 * 2 ^ 104 : Nat).testBit 127 = false ∧
    1 * 2 ^ 104 / 2 ^ 104 % 2 ^ 22 ≠ 0 ∧ (2 ^ 127 + 2 ^ 104 : Nat).testBit 127 = true ∧ (2 ^ 127 + 2 ^ 104) / 2 ^ 104 % 4 ≠ 0 := by decide +kernel

theorem witness_IllegalWordsAreRefused_opcode : (∀ i : Instr, i.isEvent = false → opcodeOf i ≠ 0x3FF) ∧
    ([2 ^ 127 + 0x3FF * 2 ^ 94, 0x3FF * 2 ^ 94] : List Nat).all (fun w => w / 2 ^ 94 % 2 ^ 10 == 0x3FF && w / 2 ^ 104 % 4 == 0 && !w.testBit 126 &&
      decide (w < 2 ^ 128 ∧ (w.testBit 127 = true ∨ w / 2 ^ 104 % 2 ^ 22 = 0))) = true := by
  refine ⟨?_, by decide +kernel⟩
  intro i _
  cases i <;> simp only [opcodeOf, fieldsOf] <;> first | (simp [mkFields]; done) | (simp; done)  | (rename_i form _ _; cases form <;> simp [mkFields])

theorem witness_ReadsSelectByTag : (∃ v, mapGet { placedThread with springs := [(3, 9)] }.springs 3 = some v) ∧
    (∃ v, (some { placedPool with copies := [(767, 9)] }).bind (fun p => mapGet p.copies 767) = some v) ∧ mapGet placedThread.springs 3 = none := by
  exact ⟨⟨9, rfl⟩, ⟨9, rfl⟩, rfl⟩

theorem witness_LayeredWriteIsFullOrSplit : (∀ r, r ∈ [(⟨0, 0⟩ : TRef), ⟨0, 1⟩] ↔ ∃ u ∈ demo.threads, u.inPool 0 = true ∧ u.ref = r) ∧
    ¬(∀ r, r ∈ [(⟨0, 0⟩ : TRef)] ↔ ∃ u ∈ demo.threads, u.inPool 0 = true ∧ u.ref = r) := by
  have h : demo.threads = [placedThread, { placedThread with tid := 1, entry := 1, place := .lane 0 0 1 }] := rfl
  constructor
  · intro r; rw [h]
    constructor
    · intro hr
      rcases List.mem_cons.1 hr with rfl | hr
      · exact ⟨_, List.mem_cons_self, rfl, rfl⟩
      · obtain rfl := List.mem_singleton.1 hr
        exact ⟨_, List.mem_cons_of_mem _ (List.mem_singleton.2 rfl), rfl, rfl⟩
    · rintro ⟨u, hu, -, rfl⟩
      rcases List.mem_cons.1 hu with rfl | hu
      · exact List.mem_cons_self
      · obtain rfl := List.mem_singleton.1 hu
        exact List.mem_cons_of_mem _ (List.mem_singleton.2 rfl)
  · intro c
    have := (c ⟨0, 1⟩).2 ⟨_, by rw [h]; exact List.mem_cons_of_mem _ (List.mem_singleton.2 rfl), rfl, rfl⟩
    simp at this

theorem witness_PondCopyReachesEveryThread : pond demo 0 = some demoPond := by decide +kernel

theorem witness_DropsRanksAndMaterialisation : ([.ldrop .always false (.src (.reg 9 .res false)), .ldrop .always true (.src (.reg 0 .res false)),
    .ldrop .always false (.slot 0), .ldrop .always true (.slot 7), .lrank .always rD (.src (.reg 767 .res false)), .lrank .always rD (.slot 7)] :
    List Instr).all (issuesNow demo) = true ∧ mapGet placedPool.copies 0 = none := by decide +kernel

/-- `demo` where only thread 0 holds predicate 0, and the threads hold different values in v20. -/
def demoApart : State := demoWith { placedThread with preds := 1, springs := [(20, 1)] } { placedThread with springs := [(20, 2)] }

/-- The threads of the state have different names. -/
def allSole (s : State) : Bool := s.threads.all (fun u => decide (s.threads.filter (fun x => x.ref == u.ref) = [u]))

/-- A load of four bytes that has come back for both threads. -/
def demoOp : Op := ⟨5, 3, 0, some 40, .home, 1, none, [⟨⟨0, 0⟩, [some 1, some 2, some 3, some 4]⟩, ⟨⟨0, 1⟩, [some 5, some 6, some 7, some 8]⟩], []⟩

theorem witness_ProducersComplete :
    let s := { demo with ops := [demoOp] }
    s.ops.find? (fun x => x.id == 5) = some demoOp ∧ (∀ l ∈ demoOp.lanes, ∀ b ∈ l.got, b ≠ none) ∧ (demoOp.lanes.map OpLane.t).Nodup ∧
    ∀ u ∈ s.threads, Sole s u ∧ (∀ p, u.pool = some p → (pool s p).isSome) ∧ ∀ m ∈ u.marks, m.reg = 40 → m.wid = 3 → m.dead = false := by
  refine ⟨by decide +kernel, by decide +kernel, by decide +kernel, ?_⟩
  intro u hu
  have h : demo.threads = [placedThread, { placedThread with tid := 1, entry := 1, place := .lane 0 0 1 }] := rfl
  rcases List.mem_cons.1 hu with rfl | hu
  · exact ⟨by unfold Sole; decide +kernel, fun p hp => by obtain rfl : 0 = p := Option.some.inj hp; decide +kernel, by decide +kernel⟩
  · obtain rfl := List.mem_singleton.1 hu
    exact ⟨by unfold Sole; decide +kernel, fun p hp => by obtain rfl : 0 = p := Option.some.inj hp; decide +kernel, by decide +kernel⟩

theorem witness_ProducersComplete_overtaken :
    let s := { demo with ops := [demoOp], threads := [{ placedThread with marks := [⟨40, 3, true, false, false⟩] }] }
    s.ops.find? (fun x => x.id == 5) = some demoOp ∧ allSole s = true ∧ (∀ u ∈ s.threads, u.ref = ⟨0, 0⟩ ∧ pond s u.pond = some demoPond ∧
      ∃ m ∈ u.marks, m.reg = 40 ∧ m.wid = 3 ∧ m.dead = true) := by decide +kernel

theorem witness_ProducersComplete_extended :
    let o : Op := { demoOp with ext := some false }
    let l : OpLane := ⟨⟨0, 0⟩, [some 0, some 0x80]⟩
    l.got = ([0, 0x80] : List Byte).map some ∧ o.ext = some false ∧ ¬leNat [0, 0x80] < 2 ^ 15 ∧ leNat [0xFF, 0x7F] < 2 ^ 15 := by decide +kernel

theorem witness_WordsAdvanceAndCount : ([.nop .always, .yield (.off 63), .drain .always 63, .drain (.on 0) 0] : List Instr).all (issuesNow demo) = true := by
  decide +kernel

/-- The targets of a branch word are valid for the fragment of `s`. -/
def targetsOk (s : State) (i : Instr) : Bool :=
  match targetOf i with
  | some f => ((demoEnv s).active (guardOfInstr i)).all (fun u => decide (f (demoEnv s) u % 16 = 0 ∧ (demoEnv s).codeBase ≤ f (demoEnv s) u ∧
      f (demoEnv s) u < (demoEnv s).codeBase + (demoEnv s).extent))
  | none => false

theorem witness_BranchesSplit : ([.bra .always 0xFFFFFFFF, .bra .always 4094, .brx .always .zero, .brx .always (.reg 8 .res false)] : List Instr).all
    (fun i => issuesNow demo i && targetsOk demo i) = true ∧ ((([(⟨0, 0⟩, 16), (⟨0, 1⟩, 32)] : List (TRef × Nat)).map Prod.snd).dedup).length ≤ 16 := by
  decide +kernel

theorem witness_BranchesSplit_apart : ([.bra (.on 0) 0, .call (.on 0) 0] : List Instr).all (fun i => issuesNow demoApart i && targetsOk demoApart i) = true ∧
    allSole demoApart = true ∧ (demoEnv demoApart).threads.map (guardPasses (.on 0)) = [true, false] ∧
    (demoApart.frags.filter (fun f => f.pool == (demoEnv demoApart).frag.pool)).length ≤ 128 := by decide +kernel

/-- R49: the two sets of a BRA to the next word stand in two fragments. -/
theorem test_bra_to_the_next_word_splits : (match exec (.bra (.on 0) 0) demoApart with | .next t => t.frags.map (fun f => f.pc) | _ => []) = [0x10010, 0x10010] := by
  decide +kernel

/-- `demo` with return stacks: `n` entries on the core and `k` in memory. -/
def withStacks (n k : Nat) : State := { demo with threads := demo.threads.map (fun u => { u with stack := List.replicate n 0x10010, spilled := k }) }

theorem witness_CallsAndReturns : [withStacks 0 0, withStacks 16 0, withStacks 16 1007].all (fun s =>
      issuesNow s (.call .always 0) && targetsOk s (.call .always 0) && issuesNow s (.callx .always .zero) && targetsOk s (.callx .always .zero) &&
      (demoEnv s).threads.all (fun u => u.stack.length + u.spilled != 1024) &&
      (checkMem s (some 0) demoCtx false (((demoEnv s).threads.filter (fun u => u.stack.length == 16)).map (fun u => (demoEnv s).stackReq .spill u u.spilled))).isOk) = true ∧
    [withStacks 16 0, withStacks 16 1007].all (fun s => let full := (demoEnv s).threads.filter (fun u => u.stack.length == 16)
      match checkMem s (some 0) demoCtx false (full.map (fun u => (demoEnv s).stackReq .spill u u.spilled)) with
      | .ok ps => !stackWaits s (demoEnv s) (full.zip ps) && ps.all (fun p => !lostTo s p.1)
      | .error _ => false) = true ∧
    [withStacks 1 0, withStacks 16 1, withStacks 16 1008].all (fun s => issuesNow s (.ret .always) && targetsOk s (.ret .always) &&
      (match checkMem s (some 0) demoCtx false (((demoEnv s).threads.filter (fun u => decide (0 < u.spilled))).map
        (fun u => (demoEnv s).stackReq .fill u (u.spilled - 1))) with
      | .ok ps => ps.all (fun p => !s.badLines.contains (lineOf p.1)) && !stackWaits s (demoEnv s) (((demoEnv s).threads.filter (fun u => decide (0 < u.spilled))).zip ps)
      | .error _ => false)) = true := by decide +kernel

theorem witness_ReformAndExit : issuesNow demo (.reform .always) = true ∧ issuesNow demo (.exit (.off 0)) = true ∧ Quiet demo (demoEnv demo) ∧
    demo.mops = [] ∧ (∀ d ∈ demo.ponds, d.conv = []) ∧ ∀ f ∈ demo.frags, ∀ o l w, f.hold ≠ .mwait o l w := by
  refine ⟨by decide +kernel, by decide +kernel, ⟨?_, ?_, ?_⟩, rfl, ?_, ?_⟩
  · intro c hc; exact absurd hc (List.not_mem_nil)
  · intro b hb; exact absurd hb (List.not_mem_nil)
  · intro f hf; obtain rfl := List.mem_singleton.1 hf; simp [placedFrag]
  · intro d hd; obtain rfl := List.mem_singleton.1 hd; rfl
  · intro f hf; obtain rfl := List.mem_singleton.1 hf; simp [placedFrag]

/-- The checks of a memory word find nothing. -/
def hitsOk (s : State) (i : Instr) : Bool :=
  match memRow i with
  | some r => (r.hits s (demoEnv s) (guardOfInstr i)).isOk
  | none => false

/-- Loads, stores and atomics at the address in v4. -/
def memoryWords : List Instr := [
  .ld .always ⟨.b128, 0, false, .ca, .wk, .sy⟩ false (.reg 40 .home) (.reg 4 .res false), .ld .always ⟨.b8, 0x7FFF, false, .cs, .acq, .pl⟩ true .none (.reg 4 .res false),
  .st .always ⟨.b32, 0xFFFC, false, .ca, .rel, .ws⟩ (.reg 4 .res false) (.reg 8 .res false),
  .stm .always ⟨.b64, 0, false, .ca, .wk, .sy⟩ (.reg 4 .res false) (.reg 8 .res false) (.reg 12 .res false),
  .atom .always ⟨.cas, false, false, 0, .ca, .ar, .bn⟩ rD (.reg 4 .res false) rB rC, .atom .always ⟨.min, true, true, 0, .ca, .wk, .sy⟩ rD (.reg 4 .res false) rB .zero,
  .redm .always ⟨.fadd, false, false, 0, .ca, .wk, .sy⟩ (.reg 4 .res false) rB]

theorem witness_MemoryWordsIssueAccesses : memoryWords.all (fun i => issuesNow demo i && hitsOk demo i) = true ∧ (demoEnv demo).still = false ∧
    [true, false].all (fun l2 => issuesNow demo (.pref .always l2 0 (.reg 4 .res false))) = true := by decide +kernel

/-- `demo` where page 16 may not be written. -/
def demoReadOnly : State := { demo with mem := putBytes demoMem (0x26000 + 8 * 16) (leBytes 8 (65536 * 16 + 11 + 2 ^ 56)) }

/-- The word meets no fatal cause, and some translation that it needs is absent or lacks a right. -/
def parksNow (s : State) (i : Instr) (cause : Nat) : Bool :=
  match memRow i with
  | some r =>
    let e := demoEnv s
    let act := e.active (guardOfInstr i)
    let reqs : List MemReq := act.flatMap (fun u => (r.pieces e u).map (fun q =>
      ⟨u.lane, (e.virtual r.loc u (e.ea u r.a r.disp) + q.1) % 2 ^ 64, q.2, r.acc, r.loc, r.acc == .load⟩))
    let faults := reqs.filterMap (fun q => match checkXlat s (some e.lake) e.ctx true q with | .error f => some f | .ok _ => none)
    issuesNow s i && !r.masked && !r.loc && act.all (fun u => e.ea u r.a r.disp % r.n == 0) && reqs.all (fun q => decide (q.va < 2 ^ 57)) &&
      faults.all MemFault.recover && faults.any (fun f => f.cause == cause)
  | none => false

theorem witness_MemoryWordsIssueAccesses_parks :
    [demo, demoStill 0].all (fun s => parksNow s (.ld .always ⟨.b32, 0, false, .ca, .wk, .sy⟩ false rD (.reg 8 .res false)) 0x24) = true ∧
    parksNow demoReadOnly (.st .always ⟨.b32, 0, false, .ca, .wk, .sy⟩ (.reg 4 .res false) rB) 0x26 = true ∧
    xlat demo (some 0) demoCtx 0x100 = .error (0x24, 4, 0) ∧ xlat demo (some 0) demoCtx 0x100100 = .ok ⟨16, 65536, 65536 * 16, true, true, true, true, false, false, 4⟩ ∧
    xlat demoReadOnly (some 0) demoCtx 0x100100 = .ok ⟨16, 65536, 65536 * 16, true, false, true, true, false, false, 4⟩ ∧
    populated demo 0x100100 = true ∧ isPeer 0x100100 = false ∧ privileged demo demoCtx 0x100100 4 = false ∧ Acc.need .store = 2 ∧
    populated demo (ownAddr demo 0x26000) = true ∧ demo.badLines = [] ∧ (homeValue demo (ownAddr demo 0x26000) 8).testBit 0 = false := by decide +kernel

/-- `demo` about to fetch these bytes. -/
def demoWord (w : Nat) : State := { demo with cur := none, mem := putBytes demoMem 0x10000 (leBytes 16 w) }

/-- The word that the next step of `s` fetches. -/
def fetchesNow (s : State) : Option Nat :=
  match choose s (moves s), envAt s ⟨0, 0⟩ with
  | (some (.word r), _), some e => if r = ⟨0, 0⟩ && e.waiting.isNone && !e.frag.yOnly then (match fetch s e with | .ok (w, _) => some w | .error _ => none) else none
  | _, _ => none

/-- The outcome is a next state. -/
def goesOn (o : Host.Outcome State Fault Refusal) : Option State := match o with | .next t => some t | _ => none

theorem witness_StepRunsTheDecodedWord : fetchesNow (demoWord 0x00000022000070060053FF1000000000) = some 0x00000022000070060053FF1000000000 ∧
    fetchesNow (demoWord 0xC000400000200240A1844003403C1318) = some 0xC000400000200240A1844003403C1318 ∧
    (match decodeWord 0xC000400000200240A1844003403C1318, envAt (demoWord 0) ⟨0, 0⟩ with
      | .ok (.two sch x y), some e => (pairCheck e.launch.kernel x y).isNone &&
          ((goesOn (exec x { demo with cur := some ⟨⟨0, 0⟩, 7, .pairX, sch⟩ })).any (fun t => t.cur.isSome &&
            (goesOn (exec y { t with cur := some ⟨⟨0, 0⟩, 7, .pairY, sch⟩ })).isSome))
      | _, _ => false) = true := by decide +kernel

theorem witness_PlacedWordRunsFirst :
    let w := 0x00000022000070060053FF1000000000
    let i : Instr := .iadd .always ⟨false, false, false⟩ (.reg 7 .home) (.reg 6 .res false) (.reg 5 .res true) 0
    let p := State.reset.withFetchWord 128 w
    encode i = some w ∧ i.wf = true ∧ i.isEvent = false ∧
    (goesOn (exec i { p with icache := [⟨0, 1, placedAt, w⟩], nextId := p.nextId + 1, cur := some ⟨⟨0, 0⟩, p.nextId, .single, schedOf 0⟩ })).any (fun t => t.mops.isEmpty) = true := by
  decide +kernel

theorem witness_StepsKeepMemoryForm : State.reset.memWf ∧ (demoWord 0x00000022000070060053FF1000000000).memWf ∧
    (goesOn (step (demoWord 0x00000022000070060053FF1000000000))).isSome = true ∧
    (∀ s : State, s ∈ [State.reset, demoWord 0x00000022000070060053FF1000000000] → s.hostLinesOk ∧ s.settled) :=
  ⟨rfl, by unfold State.memWf; decide +kernel, by decide +kernel, fun s h => by
    rcases List.mem_cons.1 h with rfl | h
    · exact ⟨fun _ h => absurd h List.not_mem_nil, fun _ h => absurd h List.not_mem_nil⟩
    · obtain rfl := List.mem_singleton.1 h
      exact ⟨fun _ h => absurd h List.not_mem_nil, fun _ h => absurd h List.not_mem_nil⟩⟩

theorem witness_DecodeThenEncode : 0xF80000A40000B0023FF0092800007000 < 2 ^ 128 ∧
    (match decodeWord 0x800000A40000B0023FF0092800007000 with | .ok (.one _ i) => some i | _ => none) =
      some (.atom .always ⟨.cas, false, false, 0, .ca, .wk, .sy⟩ (.reg 11 .home) (.reg 2 .res true) .zero (.reg 9 .res true)) := by decide +kernel

/-- An access of thread 0 of `demo`. -/
def demoOrigin : Origin := ⟨1, 0, 0, 0, ⟨0, 0⟩, 0, 1, 0, 0x10000, 1, 0, 0, false⟩

/-- A buffered store of thread 0 of `demo`. -/
def demoEntry (seq a : Nat) (bs : List Byte) : BufEntry := ⟨seq, a, a, true, bs, none, none, none, ⟨0, 0⟩, 3, demoOrigin, false, []⟩

/-- An access of thread 0 to four bytes. -/
def demoAccess (kind : AccKind) (cached : Bool) (dst : Option (Nat × Nat)) : Access :=
  ⟨9, 3, ⟨0, 0⟩, demoOrigin, .mem, 0x100100, 0x100100, 4, kind, .wk, .sy, cached, false, 0, dst, [], []⟩

/-- The writes of a still word, with an entry that plays no part. -/
def demoWrites (hs : List Hit) : List StillWrite :=
  (unitsOf hs).map (fun p => ⟨p.1.t.lane, p.1.va + p.2.1, p.1.pa + p.2.1, demoEntry 0 0 []⟩)

theorem bufferFull_congr (s : State) (l : Launch) (b : Block) (hb : b.buffer = []) : ∀ (ws vs : List StillWrite) used seen,
    ws.map (fun w => (w.lane, w.va, w.pa)) = vs.map (fun w => (w.lane, w.va, w.pa)) → bufferFull s l b used seen ws = bufferFull s l b used seen vs
  | [], [], _, _, _ => rfl
  | [], _ :: _, _, _, h => by simp at h
  | _ :: _, [], _, _, h => by simp at h
  | w :: ws, v :: vs, used, seen, h => by
    simp only [List.map_cons, List.cons.injEq, Prod.mk.injEq] at h
    obtain ⟨⟨h1, h2, h3⟩, h4⟩ := h
    simp only [bufferFull, h1, h2, h3, hb, List.any_nil]
    rw [bufferFull_congr s l b hb ws vs _ _ h4]

theorem bufferTrap_congr {s : State} {l : Launch} {b : Block} {hs : List Hit} (hb : b.buffer = []) (h : bufferTrap s l b (demoWrites hs) = none) (ws : List StillWrite)
    (hw : ws.map (fun w => (w.lane, w.va, w.pa)) = (unitsOf hs).map (fun p => (p.1.t.lane, p.1.va + p.2.1, p.1.pa + p.2.1))) : bufferTrap s l b ws = none := by
  rw [← h]
  simp only [bufferTrap]
  rw [bufferFull_congr s l b hb ws (demoWrites hs)]
  rw [hw]; simp [demoWrites, Function.comp_def]

/-- The conditions of a still word: its writes find room in the round buffer, and `own` of its lines are the block's own. -/
def stillOk (s : State) (i : Instr) (own : Bool) : Bool :=
  match memRow i with
  | some r => (match r.hits s (demoEnv s) (guardOfInstr i) with
    | .ok hs =>
      let e := demoEnv s
      let act := e.active (guardOfInstr i)
      let gives := (r.acc == .atomic || r.acc == .store) && (r.order == .rel || (r.acc == .atomic && r.order == .ar))
      let s1 := if gives && r.scope == .sy then e.syncHost s act else s
      (bufferTrap s1 e.launch e.block (demoWrites hs)).isNone && stillReady s act r.order r.scope && e.block.buffer.isEmpty && s.hostLines.isEmpty &&
        hs.all (fun h => (e.stillSees s h r.n).isEmpty) && (unitsOf hs).all (fun p => !lostTo s (p.1.pa + p.2.1) &&
          ownLine s1 e.launch e.block (p.1.va + p.2.1) (p.1.pa + p.2.1) == own)
    | .error _ => false)
  | none => false

theorem witness_StillMemoryWords : (demoEnv (demoStill 0)).still = true ∧ memoryWords.all (fun i => issuesNow (demoStill (2 ^ 63)) i && hitsOk (demoStill (2 ^ 63)) i) = true ∧
    ((memoryWords.drop 2).all (fun i => stillOk (demoStill (2 ^ 63)) i false) && (memoryWords.drop 2).all (fun i => stillOk (demoStill (2 ^ 62)) i true)) = true ∧
    (match memRow (.st (.on 0) ⟨.b32, 0, false, .ca, .wk, .sy⟩ (.reg 4 .res false) (.reg 8 .res false)) with
      | some r =>
        let s := { demoStill (2 ^ 62) with threads := [{ placedThread with preds := 1 }, { placedThread with tid := 1, entry := 1, place := .lane 0 0 1 }] }
        (match r.hits s (demoEnv s) (.on 0) with
        | .ok [h] => (unitsOf [h]).length == 1 && ownLine s (demoEnv s).launch (demoEnv s).block h.va h.pa && decide (h.pa + h.n ≤ Config.hostBase)
        | _ => false)
      | none => false) = true ∧
    ([.st .always ⟨.b32, 0, false, .ca, .rel, .sy⟩ (.reg 4 .res false) rB, .atom .always ⟨.add, false, false, 0, .ca, .ar, .sy⟩ rD (.reg 4 .res false) rB .zero] : List Instr).all (fun i =>
      issuesNow (demoStill (2 ^ 63)) i && stillOk (demoStill (2 ^ 63)) i false) = true ∧
    (let i : Instr := .ld .always ⟨.b32, 0, false, .ca, .acq, .ws⟩ false rD (.reg 4 .res false)
     issuesNow (demoStill (2 ^ 63)) i && stillOk (demoStill (2 ^ 63)) i false) = true := by decide +kernel

theorem witness_StillMemoryWords_sees :
    let s (v : Nat) := demoStill v
    let l (v : Nat) : Launch := (demoEnv (s v)).launch
    let b : Block := { placedBlock with buffer := [demoEntry 1 0x100100 [1, 2, 3, 4], demoEntry 2 0x100102 [5, 6]] }
    (touchedLine (s (2 ^ 62)) (l (2 ^ 62)) 0x100100 0x100100).st = .priv b.lin ∧ (touchedLine (s (2 ^ 63)) (l (2 ^ 63)) 0x100100 0x100100).st = .shared ∧
    (∀ x ∈ b.buffer, x.atom = none ∧ x.launch = none) ∧ ((demoEntry 2 0x100102 [5, 6]).alters 0x100103 ∧ ¬(demoEntry 2 0x100102 [5, 6]).alters 0x100104) ∧
    ¬({ demoEntry 2 0x100102 [5, 6] with cut := [(0x100103, 0x100104)] } : BufEntry).alters 0x100103 ∧ (s 0).slices = [] ∧ b.lake = some (demoAccess (.store [1, 2, 3, 4]) true none).lake ∧
    (demoAccess (.store [1, 2, 3, 4]) true none).isStore = true ∧ (demoAccess (.store [1, 2, 3, 4]) true none).holds .mem 0x100103 = true ∧
    (l 0).touched = [] ∧ stateWord (l 0) 0x10017F = some 0x300008 ∧ stateWord (l 0) 0x100180 = none ∧ (l 0).ranges = [(0x100080, 2, 0x300000)] ∧
    (ctx (s 0) (l 0).ctx).isSome = true ∧ areaRead (s (2 ^ 62)) demoCtx 0x300008 8 = .ok (leBytes 8 (2 ^ 62)) := by
  simp only [BufEntry.alters, BufEntry.hits]
  decide +kernel

/-- The checks of a scratchpad word find nothing. -/
def scratchOk (s : State) (i : Instr) : Bool :=
  match spRow i with
  | some r => (match spaccess (demoEnv s) r.align r.reads r.n (((demoEnv s).active (guardOfInstr i)).filter (fun x => !(r.pieces (demoEnv s) x).isEmpty)) r.a r.disp with | .ok _ => true | .error _ => false)
  | none => false

theorem witness_ScratchpadWords : ([
      .lds .always .b128 false false 0x7FF0 (.reg 40 .home) (.reg 8 .res false), .lds .always .b32 true false 0xFF00 (.reg 40 .home) (.reg 8 .res false),
      .sts .always .b64 0 (.reg 8 .res false) rB, .stsm .always .b32 1 (.reg 8 .res false) rB rC,
      .atoms .always .max true true 8 rD (.reg 8 .res false) rB .zero] : List Instr).all (fun i => issuesNow demo i && scratchOk demo i) = true ∧
    ([.sts .always .b128 0 (.reg 8 .res false) rB] : List Instr).all (fun i => issuesNow (demoStill 0) i && scratchOk (demoStill 0) i) = true ∧
    ([.lds .always .b128 true false 0 (.reg 40 .home) (.reg 8 .res false), .atoms .always .max true true 8 rD (.reg 8 .res false) rB .zero] : List Instr).all (fun i =>
      issuesNow (demoStill 0) i && scratchOk (demoStill 0) i && decide ((((demoEnv (demoStill 0)).active .always).map Thread.ref).Nodup)) = true ∧
    demoPond.grans = [] ∧ (demoStill 0).slices = [] ∧ (demoStill 0).accs = [] ∧ (demoStill 0).mops = [] ∧ issuesNow demo (.feq .always 3 0 (.reg 8 .res false)) = true ∧
    (match spaccess (demoEnv demo) false false 1 ((demoEnv demo).active .always) (.reg 8 .res false) 0 with
      | .ok as => issuesNow demo (.feset .always true 0 (.reg 8 .res false)) && issuesNow demo (.feset .always false 0 (.reg 8 .res false)) &&
          as.all (fun p => !granuleBusy demo (demoEnv demo) p)
      | .error _ => false) = true := by decide +kernel

/-- A state with one such access in flight may perform it. -/
def performOk (x : Access) : Bool :=
  let s := { demo with accs := [x] }
  mayPerform s x && decide (groupOf s x = [x]) && !lostTo s x.addr && !x.releases && decide (x.addr + x.n ≤ Config.hostBase)

theorem witness_AccessesArePerformed :
    ([(.load false, true), (.load false, false), (.store [1, 2, 3, 4], true), (.store [1, 2, 3, 4], false), (.atom .fadd false false 1 0, true), (.atom .cas false true 0 7, false)] :
      List (AccKind × Bool)).all (fun p => performOk (demoAccess p.1 p.2 (some (5, 0)))) = true ∧
    (let x := { demoAccess (.store [1, 2, 3, 4]) true none with stage := 1 }
     let s := { demo with slices := [x] }
     (mayGoHome s x && !lostTo s x.addr) = true) ∧
    (let y := demoAccess (.store [1, 2, 3, 4]) true none
     let x := { demoAccess (.load false) true none with id := 10 }
     earlierAccs { demo with accs := [y, x] } x = [y] ∧ y.holds .mem 0x100100 = true ∧ y.holds .mem 0x100104 = false ∧ y.holds .mem 0x100103 = true) ∧
    demo.hostLines = [] := by decide +kernel

theorem witness_AccessesArePerformed_reads :
    let y := { demoAccess (.store [1, 2, 3, 4]) true none with stage := 1 }
    let x := { demoAccess (.load false) true none with id := 10 }
    let s := { demo with slices := [y], accs := [x] }
    earlierAccs s x = [] ∧ s.slices = [] ++ y :: [] ∧ y.visible x.lake x.t = true ∧ y.isStore = true ∧ y.holds .mem 0x100100 = true ∧ y.holds .mem 0x100104 = false ∧ y.lake = 0 := by decide +kernel

theorem witness_AccessesArePerformed_atomics : (demoAccess (.atom .cas false true 0 7) false (some (5, 0))).kind = .atom .cas false true 0 7 ∧
    (2 ^ 32 - 1 : Nat) < 2 ^ (8 * 4) ∧ (2 ^ 64 - 1 : Nat) < 2 ^ (8 * 8) ∧ signedBits 64 false (2 ^ 63) = -2 ^ 63 := by decide +kernel

/-- A barrier word meets its conditions, and brings every thread that its barrier counts where `all` says so. -/
def barOk (s : State) (i : Instr) (g : Guard) (sc : BarScope) (arrive all : Bool) : Bool :=
  let e := demoEnv s
  let k := e.barKey sc
  let act := e.active g
  issuesNow s i && act.all (fun u => (u.barRecord k).isNone == arrive) && act.all (fun u => fenced s (if arrive then .rel else .acq) (barFence sc) u.ref) &&
    (decide (act ≠ [] ∧ counted s k ≠ [] ∧ ∀ u ∈ counted s k, u.ref ∈ (barrier s k).arrived ∨ (arrive = true ∧ u.ref ∈ e.acting g)) == all) && allSole s

theorem witness_FencesAndBarriers :
    ([.fence .always .acq .sy true, .fence .always .rel .sy false, .fence .always .ar .ws true, .fence (.on 5) .rel .sy true] : List Instr).all (issuesNow demo) = true ∧
    ([true, false].all (fun c => ([.sy, .pl, .lk] : List Scope).all (fun sc => demo.threads.all (fun u => fenced demo .rel sc u.ref && fenced demo .acq sc u.ref &&
      (c || copiesDone demo sc u.ref))))) = true ∧
    (([.acq, .rel, .ar] : List FenceKind).all (fun k => issuesNow (demoStill 0) (.fence .always k .sy false) && demo.threads.all (fun u => fenced (demoStill 0) k .sy u.ref))) = true ∧
    demo.hostLines = [] ∧ (demoStill 0).hostLines = [] ∧
    (([.blk, .pd, .pl, .nb 15] : List BarScope).all (fun sc => barOk demo (.bar .always sc) .always sc true true && barOk demo (.bara .always sc) .always sc true true &&
      barOk demoApart (.bar (.on 0) sc) (.on 0) sc true false && barOk demoApart (.bara (.on 0) sc) (.on 0) sc true false)) = true ∧
    (let at_ (n : Nat) : State := demoWith { placedThread with bars := [(.pond 0, n)] } { placedThread with bars := [(.pond 0, n)] }
     (barOk (at_ 0) (.barw .always .pd) .always .pd false false && barOk { at_ 0 with bars := [⟨.pond 0, 1, []⟩] } (.barw .always .pd) .always .pd false false) = true) := by
  decide +kernel

/-- The word brings every member of a collective that nothing has arrived at. -/
def aloneNow (s : State) (i : Instr) (p : Option Nat) : Bool :=
  let l := (demoEnv s).active (guardOfInstr i)
  issuesNow s i && decide (l ≠ [] ∧ l.Pairwise (fun u v => u.tid < v.tid) ∧ s.colls = [] ∧ members s (demoEnv s).pond.id p = l) && allSole s &&
    l.all (fun u => decide (u ∈ s.threads))

theorem alone_of_aloneNow {s : State} {i : Instr} {p : Option Nat} (h : aloneNow s i p = true) :
    Alone s (demoEnv s) (guardOfInstr i) p ((demoEnv s).active (guardOfInstr i)) := by
  simp only [aloneNow, Bool.and_eq_true, decide_eq_true_eq, allSole, List.all_eq_true] at h
  obtain ⟨⟨⟨-, h1, h2, h3, h4⟩, h5⟩, h6⟩ := h
  exact ⟨h1, List.Perm.refl _, h2, by simp [h3], fun u => by rw [h4], fun u hu => h5 u (h6 u hu)⟩

/-- Collectives of a pond or of a pool. -/
def collWords : List Instr := [
  .nred .always ⟨.add, .i32, false, false, .rne, false, false⟩ rD rA, .nred .always ⟨.max, .i64, true, false, .rne, false, false⟩ rD rA,
  .nred .always ⟨.add, .flt .f16x2, false, false, .rtz, true, false⟩ rD rA,
  .nbcast .always (.one rD rA) .zero, .nbcast .always (.pair rD rA) (.reg 22 .res false), .nbcast .always (.slot 7) .zero,
  .merge .always true .chk 2 (.src rA), .merge .always true .low 63 (.src rA), .merge .always true (.red .min none true .rne false) 2 (.src rA),
  .merge .always true .low 2 (.slot 7), .setw .always rD .zero, .setw .always .none (.reg 22 .res false)]

theorem witness_PondCollectives : collWords.all (fun i => isCollective i && aloneNow demo i none && aloneNow demoApart i none) = true ∧
    ([.merge .always false .chk 2 (.src rA), .merge .always false (.red .add (some .f32) false .rup true) 2 (.src rA), .merge .always false .low 2 (.slot 0)] :
      List Instr).all (fun i => aloneNow demo i (some 0)) = true ∧
    ((demoEnv demoApart).active .always).map (fun u => (demoEnv demoApart).src 0 u rA) = [1, 2] ∧
    (∀ u ∈ (demoEnv demo).active .always, (demoEnv demo).src 0 u (.reg 22 .res false) = 128 ∧ (demoEnv demo).slot 7 u = QSlot.unset) ∧
    issuesNow demoApart (.nred (.on 0) ⟨.add, .i32, false, false, .rne, false, false⟩ rD rA) = true ∧
    issuesNow demo (.setw (.on 5) rD .zero) = true ∧ (demoEnv demo).active (.on 5) = [] := by decide +kernel

/-- A valid entry of the object table: a tensor of 256 by 256 bytes with every right. -/
def demoRecord : Nat := 0x100200 + 256 * 2 ^ 128 + 256 * 2 ^ 160 + 256 * 2 ^ 256 + 1 * 2 ^ 460 + 15 * 2 ^ 464 + 2 ^ 471

/-- `demo` with that entry first in its object table. -/
def demoTable : State := { demo with mem := putBytes demoMem 0x100000 (leBytes 64 demoRecord) }

/-- The checks of a copy word find nothing, and the journal has room. -/
def copyOk (s : State) (i : Instr) : Bool :=
  let ok (size : Size) (dir : CopyDir) (mask : Option Nat) (a b c : Src) : Bool :=
    issuesNow s i && (match (demoEnv s).commands s ((demoEnv s).active (guardOfInstr i)) size.bytes dir a b c with | .ok _ => true | .error _ => false) &&
      (!dirObj dir || ((demoEnv s).active (guardOfInstr i)).all (fun u => !entryWaits s (demoEnv s) u (((demoEnv s).src 0 u a).toNat % 2 ^ 16))) &&
      ((dirIn dir && (copyDests s (demoEnv s) (dirIn dir) mask).isEmpty) || !(journal s (demoEnv s).core).contains (Config.journalWords - 1))
  match i with
  | .copy _ size dir _ a b c => ok size dir none a b c
  | .copym _ size obj _ m a b c => ok size (if obj then .o2s else .g2s) (some m.toNat) a b c
  | _ => false

/-- A command of thread 0 between 0x100100 and its scratchpad. -/
def demoCopy (toScratch : Bool) (got : List Byte) : Copy :=
  ⟨9, 3, ⟨0, 0⟩, demoOrigin, 0, toScratch, false, if toScratch then 0 else 1, 16, 0x100100, 0x100, if toScratch then [0] else [],
    none, none, got, none, 255, [], false⟩

theorem witness_CopyCommands : ([.copy .always .b128 .g2s .ca (.reg 4 .res false) (.reg 8 .res false) .zero, .copy .always .b32 .s2g .cs (.reg 4 .res false) (.reg 8 .res false) .zero,
      .copy .always .b32 .o2s .ca (.reg 12 .res false) (.reg 8 .res false) rC, .copy .always .b64 .s2o .ca (.reg 12 .res false) (.reg 8 .res false) rC,
      .copym .always .b128 false .ca 15 (.reg 4 .res false) (.reg 8 .res false) .zero, .copym .always .b128 true .ca 1 (.reg 12 .res false) (.reg 8 .res false) rC,
      .copym .always .b128 false .ca 0 (.reg 4 .res false) (.reg 8 .res false) .zero] : List Instr).all (copyOk demoTable) = true ∧
    [(true, []), (false, []), (true, List.replicate 16 (1 : Byte)), (false, List.replicate 16 1)].all (fun p =>
      let c := demoCopy p.1 p.2
      let s := { demo with copies := [c] }
      copyRuns s c && (c.nextUnit.isSome == p.2.isEmpty) && !sourceBusy s c .mem 0x100100 16 && !sourceBusy s c (.scratch 0) 0x100 16 && (copiesBefore s c).isEmpty &&
        (match engineXlat s c.orig (if p.1 then .load else .store) [(c.va, c.n)] with | .ok (u :: _) => !lostTo s u.pa && u.pa == 0x100100 | _ => false) &&
        (stillOf s c.orig).isNone && (demoPond.gran 16).full) = true := by decide +kernel

/-- Two commands that a pre-emption discarded, of which the first starts first (log 77). -/
theorem witness_CopyCommands_order :
    let c := { demoCopy true [] with again := true }
    let x := { demoCopy true [] with id := 8, again := true, entry := 1 }
    let s := { demo with copies := [x, c] }
    copyRuns s x = true ∧ inOrder s x = true ∧ copyOf s 9 = some c ∧ inOrder s c = false ∧ inOrder { demo with copies := [c] } c = true := by decide +kernel

/-- The translation of a command of `demo`. -/
def demoSide : EUnit := ⟨0x100100, 0x100100, 16, ⟨16, 65536, 0x100000, true, true, true, true, false, false, 4⟩⟩

theorem witness_CopyCommands_translated : [true, false].all (fun p =>
      let c := (demoCopy p []).translated demoSide
      let s := { demo with copies := [c] }
      copyRuns s c && decide (c.side = some demoSide) && decide (c.nextUnit = some (0, 8) ∨ c.nextUnit = some (0, 16)) && !sourceBusy s c .mem 0x100100 16 && decide (s.copies.map Copy.id).Nodup) = true ∧ demoSide.leaf.dev = false ∧
    (let c := (demoCopy false (List.replicate 16 1)).translated demoSide
     let x := { demoCopy false [] with id := 8, va := 0x200000, parked := some (32, false) }
     let s := { demo with copies := [x, c] }
     (copyRuns s c && c.begun && decide (copiesBefore s c = [x]) && !c.clash x && decide (s.copies.map Copy.id).Nodup && x.pa.isNone && !x.toScratch &&
       inside [(0x100104, 0x100108)] 0x100104 1 && !inside [(0x100104, 0x100108)] 0x100108 1) = true) ∧
    [true, false].all (fun p =>
      let c := (demoCopy p (List.replicate 16 1)).translated demoSide
      let x := { (demoCopy p (List.replicate 16 1)).translated demoSide with id := 8, va := 0x100200, pa := some 0x100200, sa := 0x200 }
      let s := { demo with copies := [x, c] }
      copyRuns s c && c.begun && decide (copiesBefore s c = [x]) && !c.clash x && decide (c.side = some demoSide) && !lostTo s 0x100100 && (stillOf s c.orig).isNone &&
        c.clash { x with va := 0x10010F, sa := 0x10F }) = true ∧ demoSide.leaf.cached = true ∧
    { demoSide with leaf := { demoSide.leaf with cacheable := false } }.leaf.cached = false ∧ demo.slices = [] ∧ 0x100110 ≤ Config.peerBase := by decide +kernel

/-- `demo` whose convergence register 1 counts to `n`. -/
def demoConv (n : Nat) : State := { demoApart with ponds := [{ demoPond with conv := [(1, { Conv.reset with count := n })] }] }

/-- MMA as both threads, or one, sign it: into the slot that v10 names, or into a fresh one. -/
def mmaWord (g : Guard) (fresh : Bool) : Instr := .mma g 1 0 (if fresh then rD else .none) (if fresh then .zero else .reg 10 .res false)
  (if fresh then .reg 14 .res false else .reg 12 .res false) (.reg 8 .res false)

/-- An operation of the queue. -/
def demoMop (kind : MKind) (started : Bool) : MOp := { (demoEnv demo).newOp 50 kind 0 0 0 with a := 0x100, b := 0x8000, started := started, words := [3] }

theorem witness_ConvergenceWords : ([.mdecl .always 15 1, .mdecl .always 0 4096, .moprdy .always, .mrel .always (.reg 10 .res false), .mrel .always .zero] : List Instr).all (issuesNow demo) = true ∧
    (demoPond.convN 15).signers = [] ∧ demo.accs = [] ∧
    [true, false].all (fun fresh => issuesNow (demoConv 2) (mmaWord (.on 0) fresh) && issuesNow (demoConv 2) (mmaWord .always fresh)) = true ∧
    ((demoEnv (demoConv 2)).active (.on 0)).length = 1 ∧ ((demoEnv (demoConv 2)).active .always).length = 2 ∧ ((demoEnv (demoConv 2)).pond.convN 1).count = 2 ∧
    (pondThreads (demoConv 2) 0).length = 2 ∧ queueRoom (demoConv 2) 0 1 = true ∧
    [(true, 0x20000), (false, 0)].all (fun p =>
      let e := demoEnv (demoConv 2)
      let os := (e.active .always).map (e.signOps (if p.1 then rD else .none) (if p.1 then .zero else .reg 10 .res false) (if p.1 then .reg 14 .res false else .reg 12 .res false)
        (.reg 8 .res false) 0)
      match os with
      | [f, x] => (f.differs f).isNone && (f.differs x).isNone && (triggerCheck e.pond 1 Conv.reset f).isNone && f.b == BitVec.ofNat 32 p.2
      | _ => false) = true ∧
    (let s := { demoConv 2 with ponds := [{ demoPond with conv := [(0, { Conv.reset with count := 2, signers := [⟨⟨0, 0⟩, ⟨0, 0⟩, 0, 0x10000, 1, 3, false, 0⟩] }), (1, { Conv.reset with count := 2 })] }] }
     let c := (demoEnv s).pond.conv
     issuesNow s (mmaWord (.on 0) false) = true ∧ List.Pairwise (· < ·) (c.map Prod.fst) ∧
       (∀ p ∈ c, p.1 ≠ 1 → p.2.count - p.2.signers.length ≤ ((pondThreads s 0).filter (fun u => u.ref ∉ p.2.signers.map Signer.t)).length)) ∧
    (demoEnv demoApart).pond.conv = [] ∧ issuesNow demo (.mwait .always (.reg 10 .res false)) = true ∧ ((demoEnv demo).pond.slotOfHandle (handleOf 0 0)).isSome = true ∧
    (let s := { demoWith { placedThread with uses := [⟨50, [handleOf 0 0], [], false⟩] } placedThread with mops := [demoMop .mma true] }
     issuesNow s (.mwait .always (.reg 10 .res false)) = true ∧ 50 ∈ unfinished s) := by decide +kernel

/-- `demo` whose pond holds `n` slots. -/
def demoHolds (n : Nat) : State := { demo with ponds := [{ demoPond with held := (List.range n).map (fun k => ⟨k, 0, true, 0, .zero, false, false⟩) }] }

theorem witness_MatrixQueueWords : issuesNow (demoHolds 23) (.mslotAlloc .always rD) = true ∧ issuesNow (demoHolds 24) (.mslotAlloc .always rD) = true ∧
    (demoEnv (demoHolds 24)).pond.holds.length = Config.slotsPerCore ∧ (demoEnv (demoHolds 23)).pond.holds.length + 1 = Config.slotsPerCore ∧
    issuesNow demo (.mslotAlloc (.on 5) rD) = true ∧ issuesNow demo (.mslotZero .always (.reg 10 .res false)) = true ∧ queueRoom demo 0 1 = true ∧
    ([.mlda .always false .none (.reg 10 .res false) (.reg 12 .res false) (.reg 8 .res false), .mlda .always false rD .zero (.reg 14 .res false) (.reg 8 .res false),
      .msta .always false (.reg 10 .res false) (.reg 12 .res false) (.reg 8 .res false), .msta .always true (.reg 10 .res false) (.reg 12 .res false) rC,
      .mlda .always true rD .zero (.reg 14 .res false) rC] : List Instr).all (issuesNow demoTable) = true ∧
    (∀ u ∈ (demoEnv demoTable).active .always, (demoEnv demoTable).src 0 u (.reg 12 .res false) = 0 ∧ (demoEnv demoTable).src 0 u (.reg 14 .res false) = 0x20000 ∧
      ((List.range 5).map (fun k => (demoEnv demoTable).srcAt u rC k)) = [0, 0, 0, 0, 0] ∧ ((demoEnv demoTable).srcAt u (.reg 8 .res false) 0).toNat = 0x100) ∧
    mldaFormat 0 = true ∧ mstaFormat 0 = true ∧ mldaFormat 0x20000 = true ∧ fwFresh 0x20000 = true ∧ fwFresh 0 = false ∧ 0x100 % 16 = 0 ∧
    0x100 + squareBytes 0 ≤ (demoEnv demoTable).pond.size ∧ 0x100 + squareBytes 0x20000 ≤ (demoEnv demoTable).pond.size ∧
    [true, false].all (fun st => match squareRecord demoTable (demoEnv demoTable) 0 0 st [0, 0, 0, 0, 0] with | .ok _ => true | .error _ => false) = true ∧
    ((demoEnv demoTable).active .always).all (fun u => !entryWaits demoTable (demoEnv demoTable) u 0) = true ∧
    (demoEnv demoTable).pond.slotOfHandle (handleOf 0 0) = some ⟨0, 0, true, 0, .zero, false, false⟩ := by decide +kernel

theorem witness_MatrixOperations :
    ([.mma, .zero, .mlda, .msta] : List MKind).all (fun k => let s := { demo with mops := [demoMop k false] }
      mopCore s (demoMop k false) == some 0 && decide (mop s 50 = some (demoMop k false)) && ((queued s 0).find? (mayStart s 0)).map MOp.id == some 50) = true ∧
    (let m := { demoMop .alloc false with fresh := true, idx := 1 }
     let s := { demo with mops := [m] }
     (mopCore s m == some 0 && ((queued s 0).find? (mayStart s 0)).map MOp.id == some 50) = true) ∧
    ([.mma, .zero, .mlda] : List MKind).all (fun k => let m := demoMop k true
      let s := { demo with mops := [m] }
      decide (mop s 50 = some m) && (mopCore s m).isSome && (emptyOperand s m).isNone && (poisonedOperand s m).isNone && !m.bad && m.src.isNone && m.parked.isNone && m.obj.isNone &&
        s.threads.all (fun u => u.uses.all (fun x => !x.spoiled))) = true := by decide +kernel

theorem firstSome_none {α β : Type} {f : α → Option β} : ∀ {l : List α}, (∀ x ∈ l, f x = none) → firstSome f l = none
  | [], _ => rfl
  | x :: r, h => by simp only [firstSome, h x List.mem_cons_self]; exact firstSome_none (fun y hy => h y (List.mem_cons_of_mem _ hy))

theorem checkBy_ok {tr : MemReq → Except MemFault (Nat × Leaf)} {v : MemReq → Nat × Leaf} {rs : List MemReq} (hc : ∀ r ∈ rs, checkCanonical r = none)
    (ht : ∀ r ∈ rs, tr r = .ok (v r)) : checkBy tr rs = .ok (rs.map v) := by
  have hd : ∀ l : List (Nat × Leaf), decidingFault (l.map .ok) = none := fun l => by
    induction l with
    | nil => rfl
    | cons a l ih => simpa only [decidingFault, List.map_cons, List.filterMap_cons] using ih
  have hp : ∀ l : List (Nat × Leaf), pasOf (l.map .ok) = l := fun l => by
    induction l with
    | nil => rfl
    | cons a l ih => simpa only [pasOf, List.map_cons, List.filterMap_cons, List.cons.injEq, true_and] using ih
  have hm : rs.map tr = (rs.map v).map .ok := by rw [List.map_map]; exact List.map_congr_left ht
  simp only [checkBy, firstSome_none hc, hm, hd, hp]

/-- A tensor of 128 by 128 bytes in page 1, with every right. -/
def wideShape : Nat := 0x10000 + 128 * 2 ^ 128 + 128 * 2 ^ 160 + 256 * 2 ^ 256 + 1 * 2 ^ 460 + 15 * 2 ^ 464 + 2 ^ 471

/-- `demo` with this operation alone. -/
def demoRuns (m : MOp) : State := { demo with mops := [m] }

/-- A running operation on a tile of that tensor. -/
def demoTile (kind : MKind) : MOp := { demoMop kind true with obj := some (wideShape, [0, 0, 0, 0]) }

theorem checkXlat_page1 (ms : List MOp) {r : MemReq} (h : r.va / 65536 = 1) : checkXlat { demo with mops := ms } (some 0) demoCtx true r = .ok (r.va, placedLeaf) := by
  have hx : xlat { demo with mops := ms } (some 0) demoCtx r.va = .ok placedLeaf := by
    have ht : demo.tlb = [⟨0, 1, placedLeaf⟩] := rfl
    have hc : demoCtx.rcd.id = 1 := rfl
    rw [xlat, if_neg (by omega)]
    simp [tlbHit, ht, hc, placedLeaf, h]
  have hp : placedLeaf.phys r.va = r.va := by simp only [placedLeaf, Leaf.phys, placedAt]; omega
  have hq : isPeer r.va = false := decide_eq_false (fun h => by
    have := h.1
    have : Config.peerBase = 2 ^ 48 := rfl
    omega)
  have hd : decide (r.va < Config.deviceTop) = true := decide_eq_true (by
    have : Config.deviceTop = 767725404160 := by decide
    omega)
  have ho : ownAddr { demo with mops := ms } r.va = r.va := by simp [ownAddr, hq]
  have hc : demoCtx.priv = [] := rfl
  have hg : covers placedLeaf.grants r.acc.need = true := by cases r.acc <;> decide
  simp only [checkXlat, hx, hp, ho, populated, hd, hq, hc, privileged, physOf, show demoCtx.privGaps = [] from rfl, inside, hg]
  simp

theorem zip_with_leaf : ∀ us : List (Nat × Nat), us.zip (us.map (fun u => (u.1, placedLeaf))) = us.map (fun u => (u, (u.1, placedLeaf)))
  | [] => rfl
  | u :: us => by rw [List.map_cons, List.zip_cons_cons, List.map_cons, zip_with_leaf us]

theorem engineXlat_page1 (ms : List MOp) (kind : MKind) (acc : Acc) {us : List (Nat × Nat)} (h : ∀ u ∈ us, u.1 / 65536 = 1) :
    engineXlat { demo with mops := ms } (demoTile kind).orig acc us = .ok (us.map (fun u => ⟨u.1, u.1, u.2, placedLeaf⟩)) := by
  have hc : ctx { demo with mops := ms } (demoTile kind).orig.ctx = some demoCtx := rfl
  have hl : Config.lakeOf (demoTile kind).orig.core = 0 := by cases kind <;> decide +kernel
  have hk : checkMem { demo with mops := ms } (some 0) demoCtx true (us.map (fun u => ⟨(demoTile kind).orig.lane, u.1, u.2, acc, false, false⟩)) =
      .ok (us.map (fun u => (u.1, placedLeaf))) := by
    rw [checkMem, checkBy_ok (v := fun r => (r.va, placedLeaf)), List.map_map]
    · rfl
    · intro r hr
      obtain ⟨u, hu, rfl⟩ := List.mem_map.1 hr
      exact if_neg (by have := h u hu; simp only []; omega)
    · intro r hr
      obtain ⟨u, hu, rfl⟩ := List.mem_map.1 hr
      exact checkXlat_page1 ms (h u hu)
  have hz := zip_with_leaf us
  have hf : (us.map (fun u => (u, (u.1, placedLeaf)))).find? (fun p => acc == .load && lostTo { demo with mops := ms } p.2.1) = none := by
    rw [List.find?_eq_none]
    intro p hp
    obtain ⟨u, -, rfl⟩ := List.mem_map.1 hp
    simp [lostTo, show demo.host.lostModules = [] from rfl]
  simp only [engineXlat, hc, hl, hk, hz, hf, List.map_map]
  rfl

theorem units_page1 : ∀ r < 128, ∀ u ∈ (loadUnits wideShape 0 [0, 0, 0, 0] r).1 ++ (loadUnits wideShape 0 [0, 0, 0, 0] r).2 ++
    ((rowUnits wideShape 0 [0, 0, 0, 0] r).1 ++ (rowUnits wideShape 0 [0, 0, 0, 0] r).2), u.1 / 65536 = 1 := by decide +kernel

/-- The units of a row of that tile, as the engine stores or loads them. -/
def tileUnits (store : Bool) (r : Nat) : List (Nat × Nat) :=
  let us := if store then rowUnits wideShape 0 [0, 0, 0, 0] r else loadUnits wideShape 0 [0, 0, 0, 0] r
  us.1 ++ us.2

theorem witness_MatrixOperations_tiles (kind : MKind) (store : Bool) : let m := demoTile kind
    (m.obj = some (wideShape, [0, 0, 0, 0]) ∧ m.fmt = 0) ∧ ∀ r < 128, engineXlat (demoRuns m) m.orig (if store then .store else .load) (tileUnits store r) =
      .ok ((tileUnits store r).map (fun u => ⟨u.1, u.1, u.2, placedLeaf⟩)) ∧
      placedLeaf.cached = true ∧ (demoRuns m).badLines = [] ∧ ∀ u ∈ tileUnits store r, u.1 < Config.hostBase := by
  refine ⟨⟨rfl, by cases kind <;> rfl⟩, fun r hr => ?_⟩
  have hu : ∀ u ∈ tileUnits store r, u.1 / 65536 = 1 := fun u hu => units_page1 r hr u (by
    cases store
    · exact List.mem_append_left _ hu
    · exact List.mem_append_right _ hu)
  refine ⟨engineXlat_page1 _ kind _ hu, rfl, rfl, fun u h => ?_⟩
  have := hu u h
  have : (131072 : Nat) ≤ Config.hostBase := by decide
  omega

/-- The operation of `s` ends in what it computes. -/
def finishesNow (s : State) (m : MOp) : Bool :=
  decide (mop s m.id = some m) && decide (pond s m.pond = some demoPond) && m.started && (mopCore s m).isSome && replays s m.orig m.parked &&
    (emptyOperand s m).isNone && (poisonedOperand s m).isNone && !m.bad && m.signers.all (fun g => !deviceBefore s g.t m.wid) && s.threads.all (fun u => u.uses.all (fun x => !x.spoiled))

theorem finishes_of_finishesNow {s : State} {m : MOp} (h : finishesNow s m = true) : Finishes s m.id m demoPond := by
  simp only [finishesNow, Bool.and_eq_true, decide_eq_true_eq, Option.isNone_iff_eq_none, List.all_eq_true, Bool.not_eq_true'] at h
  obtain ⟨⟨⟨⟨⟨⟨⟨⟨⟨h1, h2⟩, h3⟩, h4⟩, h5⟩, h6⟩, h7⟩, h8⟩, h9⟩, h10⟩ := h
  exact ⟨h1, h2, h3, h4, h5, h6, h7, h8, .inl h9, h10⟩

theorem witness_MatrixOperations_ends : ([demoMop .zero true, demoMop .mma true, { demoMop .mma true with src := some (0, 0) }, demoMop .mlda true, demoMop .msta true, demoTile .mlda, demoTile .msta] :
    List MOp).all (fun m => finishesNow (demoRuns m) m) = true ∧ mmaK 0 0 ≤ 128 ∧ (demoMop .mlda true).obj = none ∧ (stillOf (demoRuns (demoTile .msta)) (demoTile .msta).orig).isNone = true := by
  decide +kernel

theorem witness_MatrixOperations_lines : (isKilulo 3 = true ∧ fwA 3 = 3 ∧ fwA 6 = 6 ∧ isKilulo (fwA 0) = false ∧ fwA 0 ≠ 6) ∧
    (List.replicate 128 (0x7FC00000 : Word)).length = 128 ∧ fvalue fp32 ((List.replicate 128 (0x7FC00000 : Word)).getD 0 0).toNat = .nan ∧
    ∀ j < 128, (fvalue fp32 ((List.replicate 128 (0x3F800000 : Word)).getD j 0).toNat).exact := by
  refine ⟨by decide +kernel, List.length_replicate, by decide +kernel, fun j hj => ?_⟩
  have h : ∀ j < 128, fvalue fp32 ((List.replicate 128 (0x3F800000 : Word)).getD j 0).toNat = .num false (2 ^ 23) (-23) false := by decide +kernel
  rw [h j hj]
  rfl

/-! The trap frame of `demo` lies in its own page, whatever else its memory holds. -/

/-- The addresses of the entries that a walk reads. -/
def walkReads (s : State) : List (Nat × Nat) → Nat → List Nat
  | [], _ => []
  | (_, idx) :: r, tab => ownAddr s (tab + 8 * idx) :: walkReads s r (bits (homeValue s (ownAddr s (tab + 8 * idx)) 8) 12 40 * 4096)

theorem walkFrom_congr {s x : State} (hb : x.badLines = s.badLines) (hp : ∀ a, ownAddr x a = ownAddr s a ∧ populated x a = populated s a) (va : Nat) : ∀ ls tab,
    (∀ a ∈ walkReads s ls tab, homeValue x a 8 = homeValue s a 8) → walkFrom x va ls tab = walkFrom s va ls tab
  | [], _, _ => rfl
  | (lvl, idx) :: r, tab, h => by
    have h0 := h (ownAddr s (tab + 8 * idx)) (by simp [walkReads])
    simp only [walkFrom, hb, (hp _).1, (hp _).2, h0]
    rw [walkFrom_congr hb hp va r _ (fun a ha => h a (by simp [walkReads, ha]))]

theorem homeBytes_congr {s x : State} (hh : x.hostLines = s.hostLines) :
    ∀ n a, (∀ b, a ≤ b → b < a + n → byteAt x.mem b = byteAt s.mem b) → homeBytes x a n = homeBytes s a n
  | 0, _, _ => rfl
  | n + 1, a, h => by
    simp only [homeBytes, homeByte, hostLine, hh, h a le_rfl (by omega)]
    rw [homeBytes_congr hh n (a + 1) (fun b h1 h2 => h b (by omega) (by omega))]

theorem walkFrom_page (s : State) {va vb : Nat} (h : va / 2 ^ 16 = vb / 2 ^ 16) : ∀ ls tab, walkFrom s va ls tab = walkFrom s vb ls tab
  | [], _ => rfl
  | (lvl, idx) :: r, tab => by
    have hp : ∀ k, va / pageBytes k = vb / pageBytes k := by
      intro k
      simp only [pageBytes]
      split
      · exact h
      · split <;> omega
    simp only [walkFrom, hp]
    rw [walkFrom_page s h r]

/-- The indices of a walk in page `k`. -/
def walkPage (k : Nat) : List (Nat × Nat) := [(1, 0), (2, 0), (3, 0), (4, k)]

/-- The leaf of page `k` of `demo`. -/
def leafOf (k : Nat) : Leaf := ⟨k, 65536, 65536 * k, true, true, true, true, false, false, 4⟩

theorem walk_page (s : State) (root : Nat) {k d : Nat} (hk : k < 1024) (hd : d < 65536) :
    walk s root (65536 * k + d) = walkFrom s (65536 * k) (walkPage k) root := by
  have h1 : bits (65536 * k + d) 46 11 = 0 := by simp only [bits]; omega
  have h2 : bits (65536 * k + d) 36 10 = 0 := by simp only [bits]; omega
  have h3 : bits (65536 * k + d) 26 10 = 0 := by simp only [bits]; omega
  have h4 : bits (65536 * k + d) 16 10 = k := by simp only [bits]; omega
  simp only [walk, h1, h2, h3, h4, walkPage]
  exact walkFrom_page s (by omega) _ _

theorem checkXlat_page {s : State} {lake : Option Nat} {c : Ctx} {prog : Bool} {r : MemReq} {k d : Nat} (hk : k < 1024) (hd : d < 65536)
    (hva : r.va = 65536 * k + d) (ht : lake.bind (fun l => tlbHit s l c.rcd.id (65536 * k + d)) = none) (hc : c.priv = [] ∧ c.privGaps = [])
    (hw : walkFrom s (65536 * k) (walkPage k) c.rcd.root = .ok (leafOf k)) : checkXlat s lake c prog r = .ok (65536 * k + d, leafOf k) := by
  have hx : xlat s lake c r.va = .ok (leafOf k) := by
    rw [xlat, if_neg (by rw [hva]; omega), hva, ht, walk_page s _ hk hd, hw]
  have hp : (leafOf k).phys r.va = 65536 * k + d := by simp only [leafOf, Leaf.phys, hva]; omega
  have hq : isPeer (65536 * k + d) = false := decide_eq_false (fun h => by
    have := h.1
    have : Config.peerBase = 2 ^ 48 := rfl
    omega)
  have hl : decide (65536 * k + d < Config.deviceTop) = true := decide_eq_true (by
    have : Config.deviceTop = 767725404160 := by decide
    omega)
  have ho : ownAddr s (65536 * k + d) = 65536 * k + d := by simp [ownAddr, hq]
  have hg : covers (leafOf k).grants r.acc.need = true := by
    have : (leafOf k).grants = 7 := rfl
    rw [this]
    cases r.acc <;> decide
  simp only [checkXlat, hx, hp, ho, populated, hl, hq, privileged, physOf, hc.1, hc.2, inside, hg]
  simp

/-- The pages of `demo` that hold no code and no data of the words translate while memory below them stands. -/
theorem walk_demo {x : State} {k : Nat} (hk : k ∈ [48, 64, 80]) (hb : x.badLines = []) (hh : x.hostLines = [])
    (hp : ∀ a, ownAddr x a = ownAddr demo a ∧ populated x a = populated demo a) (hm : ∀ a < 0x100000, byteAt x.mem a = byteAt demo.mem a) :
    walkFrom x (65536 * k) (walkPage k) 0x20000 = .ok (leafOf k) := by
  have hs : walkFrom demo (65536 * k) (walkPage k) 0x20000 = .ok (leafOf k) := by revert k; decide +kernel
  have hr : ∀ a ∈ walkReads demo (walkPage k) 0x20000, a + 8 ≤ 0x100000 := by revert k; decide +kernel
  rw [← hs]
  exact walkFrom_congr (by rw [hb]; rfl) hp _ _ _ (fun a h => by
    simp only [homeValue]
    rw [homeBytes_congr (s := demo) (by rw [hh]; rfl) 8 a (fun b _ hb => hm b (by have := hr a h; omega))])

theorem pages_low : ∀ k ∈ [48, 64, 80], k < 1024 := by decide

theorem areaAt_demo {x : State} {c : Ctx} {priv : Bool} {k d n : Nat} (hk : k ∈ [48, 64, 80]) (hd : d + n + 8 ≤ 65536) (ha : d % 4 = 0) (hb : x.badLines = [])
    (hh : x.hostLines = []) (hs : x.slices = []) (hp : ∀ a, ownAddr x a = ownAddr demo a ∧ populated x a = populated demo a)
    (hm : ∀ a < 0x100000, byteAt x.mem a = byteAt demo.mem a) (hc : c.priv = [] ∧ c.privGaps = []) (hr : c.rcd.root = 0x20000) :
    AreaAt x c priv (65536 * k + d) n (65536 * k + d) where
  xlat i hi := by
    have hk' : k < 1024 := pages_low k hk
    refine ⟨leafOf k, ?_⟩
    rw [show 65536 * k + d + 8 * i = 65536 * k + (d + 8 * i) by omega]
    exact checkXlat_page hk' (by omega) rfl rfl hc (by rw [hr]; exact walk_demo hk hb hh hp hm)
  clean := by simp [hb]
  aligned := by omega
  device := by
    have : Config.deviceTop = 767725404160 := by decide
    have := pages_low k hk
    omega
  home := hs
  hosts := by intro h hl; rw [hh] at hl; exact absurd hl List.not_mem_nil

theorem areaRead_demo {x : State} {c : Ctx} {k d : Nat} (hk : k ∈ [48, 64, 80]) (hd : d < 65536) (hb : x.badLines = []) (hh : x.hostLines = [])
    (hp : ∀ a, ownAddr x a = ownAddr demo a ∧ populated x a = populated demo a) (hm : ∀ a < 0x100000, byteAt x.mem a = byteAt demo.mem a)
    (hc : c.priv = [] ∧ c.privGaps = []) (hr : c.rcd.root = 0x20000) : areaRead x c (65536 * k + d) 8 = .ok (homeBytes x (65536 * k + d) 8) := by
  have hx := checkXlat_page (s := x) (lake := none) (c := c) (prog := false) (r := ⟨0, 65536 * k + d, 8, .load, false, false⟩) (pages_low k hk) hd rfl rfl hc
    (by rw [hr]; exact walk_demo hk hb hh hp hm)
  have hl : ∀ a n, (homeBytes x a n).length = n := fun a n => by
    induction n generalizing a with
    | zero => rfl
    | succ n ih => simp [homeBytes, ih]
  simp only [areaRead, areaPieces, Nat.reduceAdd, Nat.reduceDiv, Bool.false_eq_true, if_false, hx, hb, List.contains_nil, List.flatMap_cons, List.flatMap_nil,
    List.append_nil, memBytes, show (leafOf k).cached = true from rfl, if_true]
  rw [List.take_of_length_le (by rw [hl])]

theorem witness_FrameAt : FrameAt demo (demoEnv demo) 0x500000 where
  xlat := by
    intro x hx ha i hi
    have he : (demoEnv demo).frame = 65536 * 80 := by decide +kernel
    have hr : (demoEnv demo).ctx.rcd.root = 0x20000 := by decide +kernel
    have hw := walk_demo (x := x) (k := 80) (by decide) (by rw [hx]; rfl) (by rw [hx]; rfl) (fun a => by rw [hx]; exact ⟨rfl, rfl⟩) (fun a h => ha a (by omega))
    exact ⟨leafOf 80, checkXlat_page (k := 80) (by omega) (by omega) (by simp only [he]) rfl (by decide +kernel) (by rw [hr]; exact hw)⟩
  device := by decide +kernel
  clean := fun _ _ h => absurd h List.not_mem_nil
  home := rfl
  hosts := by intro h hh; exact absurd hh List.not_mem_nil
  lanes := by decide +kernel
  distinct := by decide +kernel

/-- The checks of the word end in a trap with this cause. -/
def trapsNow (s : State) (i : Instr) : Option Nat := if (s.cur.bind (envOf s)).isSome && ready s (demoEnv s) i then (checks (demoEnv s) i).map Trap.cause else none

theorem witness_TrapsAreTaken : trapsNow demo (.eret .always (.reg 0 .res false)) = some 0x0B ∧ demoCtx.hasHandler = true ∧ (demoEnv demo).handling = false ∧
    (demoEnv demo).reached = false ∧ frameBusy demo (demoEnv demo).pool.id = false ∧ issuesNow demo (.trap .always 255) = true ∧ issuesNow demo (.trap (.on 5) 0) = true ∧
    (demoEnv demo).active (.on 5) = [] ∧ (demoEnv demo).active .always ≠ [] ∧
    (let s := { demo with ctxs := [placedContext] }
     placedContext.hasHandler = false ∧ trapsNow s (.eret .always (.reg 0 .res false)) = some 0x0B) ∧
    (let s := demoWith placedThread { placedThread with handler := true }
     frameBusy { s with frags := placedFrag :: [{ placedFrag with id := 1 }] } 0 = true) := by decide +kernel

/-- `demo` in its handler: the frame holds the mask of both lanes, or of lane 0 alone, and where they resume. -/
def demoHandling (mask : Nat) : State :=
  let s := demoWith { placedThread with handler := true, springs := [(0, 0x500000)] } { placedThread with handler := true, springs := [(0, 0x500000)] }
  { s with mem := putBytes (putBytes demoMem 0x500040 (leBytes 16 mask)) 0x500060 (leBytes 8 0x10010 ++ leBytes 8 0x1FFF0) }

/-- The conditions of an ERET that names its frame in w0. -/
def returnOk (s : State) : Bool :=
  let e := demoEnv s
  issuesNow s (.eret .always (.reg 0 .res false)) && (e.active .always).all (fun u => (e.src64 0 false u (.reg 0 .res false)).toNat == e.frame) &&
    quietThreads s e.threads && !frameWaits s e && allSole s && s.colls.isEmpty && s.bars.isEmpty && !(e.active .always).isEmpty && e.frame == 0x500000 && e.lake == 0 &&
    lowLane e.threads == 0

/-- The bytes of the frame of `s`. -/
def frame80 (s : State) : List Byte := (List.range 272).flatMap (fun i => lakeBytes s 0 (0x500000 + 8 * i) 8)

theorem frameBytes_page80 {s : State} {e : Env} (he : e.frame = 0x500000) (hl : e.lake = 0) (hc : e.ctx.priv = [] ∧ e.ctx.privGaps = []) (ht : s.tlb = [⟨0, 1, placedLeaf⟩])
    (hb : s.badLines = []) (hs : e.still = false) (hw : walkFrom s (65536 * 80) (walkPage 80) e.ctx.rcd.root = .ok (leafOf 80)) :
    frameBytes s e = .ok (frame80 s) := by
  have hx : ∀ i < 272, checkXlat s (some 0) e.ctx false ⟨lowLane e.threads, (0x500000 + 8 * i) % 2 ^ 64, 8, .load, false, false⟩ = .ok (0x500000 + 8 * i, leafOf 80) := by
    intro i hi
    refine checkXlat_page (k := 80) (by omega) (d := 8 * i) (by omega) (by simp only []; omega) ?_ hc hw
    have h1 : (65536 * 80 + 8 * i) / 65536 = 80 := by omega
    simp [tlbHit, ht, placedLeaf, h1]
  have hf : checkFatal s (some 0) e.ctx false (((List.range 272).map (fun i => (0x500000 + 8 * i) % 2 ^ 64)).map
      (fun va => ⟨lowLane e.threads, va, 8, .load, false, false⟩)) = .ok ((List.range 272).map (fun i => (0x500000 + 8 * i, leafOf 80))) := by
    have hr : ∀ r ∈ ((List.range 272).map (fun i => (0x500000 + 8 * i) % 2 ^ 64)).map (fun va => (⟨lowLane e.threads, va, 8, .load, false, false⟩ : MemReq)),
        ∃ i < 272, r = ⟨lowLane e.threads, (0x500000 + 8 * i) % 2 ^ 64, 8, .load, false, false⟩ := by
      intro r hr
      rw [List.map_map] at hr
      obtain ⟨i, hi, rfl⟩ := List.mem_map.1 hr
      exact ⟨i, List.mem_range.1 hi, rfl⟩
    rw [checkFatal, checkBy_ok (v := fun r => (r.va, leafOf 80))]
    · rw [List.map_map, List.map_map]
      refine congrArg Except.ok (List.map_congr_left (fun i hi => ?_))
      have := List.mem_range.1 hi
      exact Prod.ext (by simp only [Function.comp]; omega) rfl
    · intro r h
      obtain ⟨i, hi, rfl⟩ := hr r h
      exact if_neg (by simp only []; omega)
    · intro r h
      obtain ⟨i, hi, rfl⟩ := hr r h
      rw [hx i hi]
      exact congrArg Except.ok (Prod.ext (by simp only []; omega) rfl)
  rw [frameBytes, he, hl, hf]
  simp only [hb, List.contains_nil, List.find?_eq_none.2, List.zip_map', Bool.false_eq_true, not_false_eq_true, implies_true]
  simp only [List.flatMap_map, Env.ownBytes, Env.lakeRead, hs, hl, frame80]
  rfl

theorem witness_ReturnFromTrap : ∀ m ∈ [1, 3], returnOk (demoHandling m) = true ∧ frameBytes (demoHandling m) (demoEnv (demoHandling m)) = .ok (frame80 (demoHandling m)) ∧
    (demoEnv (demoHandling m)).threads.map (fun u => leNat (((frame80 (demoHandling m)).drop (96 + 8 * u.lane)).take 8)) = [0x10010, 0x1FFF0] ∧
    leNat (((frame80 (demoHandling m)).drop 64).take 16) = m := by
  intro m hm
  have hf : (demoEnv (demoHandling m)).frame = 0x500000 ∧ (demoEnv (demoHandling m)).lake = 0 ∧ ((demoEnv (demoHandling m)).ctx.priv = [] ∧ (demoEnv (demoHandling m)).ctx.privGaps = []) ∧
      walkFrom (demoHandling m) (65536 * 80) (walkPage 80) (demoEnv (demoHandling m)).ctx.rcd.root = .ok (leafOf 80) := by
    revert m; decide +kernel
  obtain ⟨h1, h2, h3, h4⟩ := hf
  refine ⟨?_, frameBytes_page80 h1 h2 h3 rfl rfl rfl h4, ?_, ?_⟩ <;> (clear h1 h2 h3 h4; revert m; decide +kernel)

/-- The first active lane of which `p` holds. -/
def failsAt (s : State) (i : Instr) (p : Env → Thread → Bool) : Bool :=
  issuesNow s i && (((demoEnv s).active (guardOfInstr i)).find? (p (demoEnv s))).isSome

theorem witness_ChecksTrap :
    (staticCheck placedKernel (.eret .always (.reg 0 .res false)) = none ∧ (demoEnv demo).active .always ≠ [] ∧ (demoEnv demo).handling = false) ∧
    (staticCheck placedKernel (.objw .always .zero (.reg 48 .res false)) = none ∧
      (demoEnv { demo with ctxs := [{ demoCtx with rcd := { demoCtx.rcd with objWr := false } }] }).ctx.rcd.objWr = false) ∧
    (staticCheck placedKernel (.spawn .always rD .zero .zero) = none ∧ (demoEnv (demoStill 0)).still = true ∧ (demoEnv (demoStill 0)).active .always ≠ []) ∧
    (let i : Instr := .ld .always ⟨.b32, 1, false, .ca, .wk, .sy⟩ false rD (.reg 4 .res false)
     failsAt demo i (fun e x => e.ea x (.reg 4 .res false) 1 % 4 != 0) = true ∧ (memRow i).map (fun r => (r.masked, r.n, r.disp)) = some (false, 4, 1)) ∧
    (let i : Instr := .st .always ⟨.b128, 0, false, .ca, .wk, .sy⟩ (.reg 26 .res false) rC
     failsAt demo i (fun e x => decide (e.ea x (.reg 26 .res false) 0 = 2 ^ 57)) = true ∧ (memRow i).map (fun r => (r.masked, r.loc, r.n)) = some (false, false, 16)) ∧
    (let i : Instr := .lds .always .b32 false false 1 rD (.reg 8 .res false)
     failsAt demo i (fun e x => decide (((e.src 0 x (.reg 8 .res false)).toNat + (1 : BitVec 16).toInt) % 4 ≠ 0)) = true ∧ (spRow i).map (fun r => (r.align, r.n)) = some (true, 4)) ∧
    (let i : Instr := .lds .always .b32 false false 0 rD (.reg 14 .res false)
     failsAt demo i (fun e x => decide ((e.pond.size : Int) < (e.src 0 x (.reg 14 .res false)).toNat + (0 : BitVec 16).toInt + 4)) = true) ∧
    (let i : Instr := .lds .always .b32 false false 0xFFFC rD .zero
     failsAt demo i (fun e x => decide ((e.src 0 x .zero).toNat + (0xFFFC : BitVec 16).toInt < 0)) = true) ∧
    (let i : Instr := .brx .always (.reg 14 .res false)
     failsAt demo i (fun e x => decide (e.codeBase + e.extent = (e.src64 0 false x (.reg 14 .res false)).toNat)) = true ∧ (targetOf i).isSome = true) ∧
    (let i : Instr := .call .always 0
     failsAt (withStacks 16 1008) i (fun _ x => x.stack.length + x.spilled == 1024) = true ∧ targetsOk (withStacks 16 1008) i = true) ∧
    failsAt demo (.ret .always) (fun _ x => x.stack.length + x.spilled == 0) = true ∧
    ([.mwait .always (.reg 12 .res false), .mslotZero .always (.reg 12 .res false)] : List Instr).all (fun i =>
      failsAt demo i (fun e x => (e.pond.slotOfHandle (e.src 0 x (.reg 12 .res false))).isNone)) = true ∧
    (let i : Instr := .launch .always rD (.reg 4 .res false) .gw
     failsAt demo i (fun e x => decide ((e.src 0 x .gw).toNat = 16 ∧ (e.src64 0 false x (.reg 4 .res false)).toNat % 64 = 0)) = true) := by decide +kernel

theorem witness_SpecialRegisterWords : ([.tid, .lane, .gw, .gwn, .gwstale, .pool, .frag, .blkx, .blky, .blkz, .core, .lake, .basin, .clock, .retired, .fflags, .hintmiss, .round,
      .ctx, .cbase] : List SReg).all (fun r => issuesNow demo (.srr .always r rD) && issuesNow (demoStill 0) (.srr .always r rD)) = true ∧
    ([.fflags, .hintmiss] : List SReg).all (fun r => issuesNow demo (.srw .always r rA)) = true ∧ ((demoEnv demo).active .always).getLast?.isSome = true ∧
    (demoEnv (demoStill 0)).still = true ∧ (demoEnv demo).still = false := by decide +kernel

theorem witness_CreationWords : issuesNow demo (.spawn .always rD .zero rA) = true ∧ issuesNow demoApart (.spawn (.on 0) rD .zero rA) = true ∧
    ((demoEnv demoApart).active (.on 0)).map Thread.tid = [0] ∧ residents demoApart 0 < Config.threadsPerCore ∧
    (∀ u ∈ (demoEnv demo).active .always, ((demoEnv demo).codeBase + ((demoEnv demo).src 0 u .zero).toNat) % 2 ^ 64 = (demoEnv demo).codeBase ∧
      fenced demo .rel .pd u.ref = true ∧ fenced demo .rel .sy u.ref = true) ∧
    [demo, demoStill 0].all (fun s => issuesNow s (.launch .always rD (.reg 4 .res false) .zero) &&
      (match checkFatal s (some (demoEnv s).lake) (demoEnv s).ctx true (((demoEnv s).active .always).map (fun u =>
        ⟨u.lane, ((demoEnv s).src64 0 false u (.reg 4 .res false)).toNat, 64, .load, false, false⟩)) with
      | .ok hs => hs.all (fun h => !s.badLines.contains (lineOf h.1)) && hs.length == 2 && actsReady s (demoEnv s) (((demoEnv s).active .always).zip (hs.map Prod.snd))
      | .error _ => false)) = true ∧ bufferUsed (demoEnv (demoStill 0)).block + 2 ≤ Config.roundEntries ∧
    (match areaRead demo demoCtx (hdrAddr demoCtx 0) 64 with | .ok h => (leNat h).testBit 83 | .error _ => true) = false ∧
    ((demoEnv demoTable).active .always).all (fun u => !entryWaits demoTable (demoEnv demoTable) u 0) = true ∧
    issuesNow demo (.round .always) = true ∧ issuesNow (demoStill 0) (.round .always) = true ∧
    [(Fin.mk 0 (by decide) : Fin 8), 1].all (fun k => issuesNow demo (.mpowq .always k rD rA rB)) = true ∧ issuesNow demoTable (.objq .always rD .zero) = true ∧
    ((demoEnv demoTable).active .always).all (fun u => match readEntry demoTable (demoEnv demoTable) u.lane 0 with
      | .ok v => v == demoRecord
      | .error _ => false) = true := by decide +kernel

/-- The checks of memory of a word that writes code or the table find nothing. -/
def tableOk (s : State) (obj : Bool) (va n : Nat) : Bool :=
  let rs : List MemReq := ((demoEnv s).active .always).map (fun u => ⟨u.lane, va, n, .store, false, false⟩)
  match if obj then checkMem s (some (demoEnv s).lake) (demoEnv s).ctx false rs else checkFatal s (some (demoEnv s).lake) (demoEnv s).ctx true rs with
  | .ok hs => actsReady s (demoEnv s) (((demoEnv s).active .always).zip (hs.map Prod.snd)) && hs.length == 2 && hs.all (fun h => !lostTo s h.1)
  | .error _ => false

theorem witness_CodeAndTableWords : issuesNow demo (.swapc .always (.reg 34 .res false) rC) = true ∧ tableOk demo false 0x10000 16 = true ∧
    ((demoEnv demo).active .always).all (fun u => decide (((demoEnv demo).src64 0 false u (.reg 34 .res false)).toNat = 0x10000)) = true ∧
    [rC, .reg 48 .res false].all (fun b => issuesNow demo (.objw .always .zero b)) = true ∧ tableOk demo true 0x100000 64 = true ∧
    ((demoEnv demo).active .always).all (fun u => !shapeV ((demoEnv demo).recordOf u rC) && shapeValid ((demoEnv demo).recordOf u (.reg 48 .res false))) = true ∧
    demo.slices = [] ∧ demo.hostLines = [] ∧ (demoEnv demo).codeBase = 0x10000 ∧ (demoEnv demo).extent = 0x10000 ∧
    ([.icinv .always (.reg 34 .res false) (.reg 22 .res false), .xlinvRng .always (.reg 34 .res false) (.reg 22 .res false), .xlinvRng .always (.reg 34 .res false) .zero,
      .xlinvAll .always] : List Instr).all (issuesNow demo) = true ∧ issuesNow (demoStill 0) (.icinv .always (.reg 34 .res false) (.reg 22 .res false)) = true ∧
    (demoStill 0).threads.all (fun u => fenced (demoStill 0) .rel .sy u.ref) = true ∧ (∀ u ∈ demo.threads, fenced demo .rel .sy u.ref = true) := by decide +kernel

/-- `demo` with its threads in the launch well of the kernel's entry. -/
def demoWell (old : Bool) (u : Thread) : State := { demo with
  cur := none
  pools := []
  frags := []
  ponds := [{ demoPond with expired := if old then [(.launch, 0x10000)] else [] }]
  threads := [{ u with place := .well .launch 0x10000 }, { u with tid := 1, entry := 1, place := .well .launch 0x10000 }] }

/-- The well of the state may be drawn. -/
def drawsNow (s : State) (kind : WellKind) (key : Nat) : Bool :=
  match drawAt s 0 with
  | some a => a.d.draining.isEmpty && decide (0 < a.d.grant ∧ (drawsDue s a).map (fun w => (w.kind, w.key, w.tids)) = [(kind, key, [0, 1])])
  | none => false

theorem witness_PoolsAreDrawn : drawsNow (demoWell true placedThread) .launch 0x10000 = true ∧ drawsNow (demoWell false placedThread) .launch 0x10000 = true ∧
    (let u := { placedThread with setw := some ⟨40, .home, 3⟩, marks := [⟨40, 3, false, false, false⟩] }
     drawsNow (demoWell true u) .launch 0x10000 = true ∧ allSole (demoWell true u) = true) ∧
    allSole (demoWell true placedThread) = true ∧ (∀ d ∈ (demoWell true placedThread).ponds, d.expired.contains (.launch, 0x10000) = true) ∧
    (let s := { demoStill 0 with threads := [placedThread, { placedThread with tid := 1, entry := 1, place := .well .spawn 0x10010 }] }
     quiescent s 0 = false ∧ wellThreads s 0 .spawn 0x10010 ≠ [] ∧ (drawAt s 0).isSome = true) ∧
    (pond (demoWell false placedThread) 0).isSome = true ∧ demoPond.core.isSome = true ∧ placedKernel.still = false ∧
    (block (demoStill 0) 0).isSome = true ∧ (launch (demoStill 0) 0).map (fun l => l.kernel.still) = some true := by decide +kernel

/-- The area translates as a device access of 8 bytes at a time finds it. -/
def areaNow (s : State) (c : Ctx) (priv : Bool) (va n base : Nat) : Bool :=
  (List.range ((n + 7) / 8)).all (fun i => match checkXlat s none c priv ⟨0, va + 8 * i, 8, .store, false, false⟩ with
    | .ok p => p.1 == base + 8 * i
    | .error _ => false) && decide (s.badLines = [] ∧ base % 4 = 0 ∧ base + n ≤ Config.deviceTop ∧ s.slices = [] ∧ s.hostLines = [])

theorem areaAt_of_areaNow {s : State} {c : Ctx} {priv : Bool} {va n base : Nat} (h : areaNow s c priv va n base = true) : AreaAt s c priv va n base := by
  simp only [areaNow, Bool.and_eq_true, List.all_eq_true, decide_eq_true_eq, List.mem_range] at h
  obtain ⟨hx, h1, h2, h3, h4, h5⟩ := h
  refine ⟨fun i hi => ?_, by simp [h1], h2, h3, h4, by intro x hx; rw [h5] at hx; exact absurd hx List.not_mem_nil⟩
  have := hx i hi
  revert this
  cases checkXlat s none c priv ⟨0, va + 8 * i, 8, .store, false, false⟩ with
  | error _ => simp
  | ok p => intro h; exact ⟨p.2, by rw [← beq_iff_eq.1 h]⟩

/-- A launch record of `n` threads a block, with a wait for the word at `wait` to reach 1. -/
def demoLaunchRecord (n wait : Nat) : Nat := 0x302000 + 2 ^ 128 + 2 ^ 160 + 2 ^ 176 + n * 2 ^ 192 + wait * 2 ^ 256 + (if wait = 0 then 0 else 1) * 2 ^ 320

/-- A kernel descriptor. -/
def demoDescriptor : Nat := 0x10000 + 0x10000 * 2 ^ 64 + 768 * 2 ^ 192 + 64 * 2 ^ 208 + 16 * 2 ^ 240 + 16 * 2 ^ 248 + 2 ^ 256 + 4 * 2 ^ 264

/-- A queue header: EN, OWNER, TAIL, HEAD and DONE. -/
def demoHeader (own tail head done : Nat) : Nat := 0x301000 + 2 * 2 ^ 64 + own * 2 ^ 82 + 2 ^ 83 + tail * 2 ^ 128 + head * 2 ^ 160 + done * 2 ^ 192

/-- The part with queue 0 of its context and nothing running. -/
def demoQueue (header record : Nat) : State := { demo with
  cur := none
  launches := []
  blocks := []
  ponds := []
  pools := []
  frags := []
  threads := []
  mem := putBytes (putBytes (putBytes (putBytes demoMem 0x300000 (leBytes 64 header)) 0x301000 (leBytes 64 record)) 0x302000 (leBytes 128 demoDescriptor)) 0x303000 [1] }

theorem startsAt_demo (n wait : Nat) (h : areaRead (demoQueue (demoHeader 0 1 0 0) (demoLaunchRecord n wait)) demoCtx 0x301000 64 =
    .ok (leBytes 64 (demoLaunchRecord n wait)) ∧ leNat (leBytes 64 (demoLaunchRecord n wait)) = demoLaunchRecord n wait ∧
    header (demoQueue (demoHeader 0 1 0 0) (demoLaunchRecord n wait)) demoCtx 0 = demoHeader 0 1 0 0) :
    StartsAt (demoQueue (demoHeader 0 1 0 0) (demoLaunchRecord n wait)) 1 0 demoCtx (demoHeader 0 1 0 0) (demoLaunchRecord n wait) where
  ctx := rfl
  running := rfl
  works := ⟨rfl, (by decide : 0 < 8)⟩
  queue := by decide
  header := h.2.2
  enabled := by decide +kernel
  waiting := by decide +kernel
  first := by intro l hl; exact absurd hl List.not_mem_nil
  record := ⟨_, by rw [← h.1]; congr 1, h.2.1.symm⟩

theorem witness_LaunchesRun_starts (n : Nat) (hn : n ∈ [0, 8192]) :
    StartsAt (demoQueue (demoHeader 0 1 0 0) (demoLaunchRecord n 0)) 1 0 demoCtx (demoHeader 0 1 0 0) (demoLaunchRecord n 0) ∧
    unreadCond (demoQueue (demoHeader 0 1 0 0) (demoLaunchRecord n 0)) demoCtx 0 (demoLaunchRecord n 0) = none ∧ conditions (demoLaunchRecord n 0) = [] ∧
    ((match startChecks (demoQueue (demoHeader 0 1 0 0) (demoLaunchRecord n 0)) demoCtx 0 (demoHeader 0 1 0 0) (demoLaunchRecord n 0) with
      | .ok _ => true
      | .error _ => false) = true ↔ n ≠ 0) := by
  refine ⟨startsAt_demo n 0 ?_, ?_⟩ <;> (revert n; decide +kernel)

theorem witness_LaunchesRun_waits :
    let s := demoQueue (demoHeader 0 1 0 0) (demoLaunchRecord 2 0x303000)
    StartsAt s 1 0 demoCtx (demoHeader 0 1 0 0) (demoLaunchRecord 2 0x303000) ∧ unreadCond s demoCtx 0 (demoLaunchRecord 2 0x303000) = none ∧
    ∃ w ∈ conditions (demoLaunchRecord 2 0x303000), condMet s demoCtx 0 w = true ∧ (0, w.1) ∉ demoCtx.met :=
  ⟨startsAt_demo 2 0x303000 (by decide +kernel), by decide +kernel, (0, 0x303000, 1), by decide +kernel, by decide +kernel, by decide +kernel⟩

/-- A doorbell is taken. -/
def rings (h tail : Nat) : Bool := !h.testBit 82 && decide (diff32 (hdrTail h) (hdrDone h) ≤ diff32 tail (hdrDone h) ∧ diff32 tail (hdrDone h) ≤ 2 ^ hdrLog2 h)

theorem witness_LaunchesRun_doorbell : rings (demoHeader 0 1 0 0) 1 = true ∧ rings (demoHeader 0 1 0 0) 4 = true ∧ rings (demoHeader 0 1 0 0) 5 = false ∧
    rings (demoHeader 0 1 0 0) 0 = false ∧ rings (demoHeader 1 1 0 0) 4 = false ∧ (demoQueue (demoHeader 0 1 0 0) 0).host.go = true ∧
    header (demoQueue (demoHeader 0 1 0 0) 0) demoCtx 0 = demoHeader 0 1 0 0 ∧ AreaAt (demoQueue (demoHeader 0 1 0 0) 0) demoCtx false (hdrAddr demoCtx 0 + 16) 4 0x300010 := by
  have h : rings (demoHeader 0 1 0 0) 1 && rings (demoHeader 0 1 0 0) 4 && !rings (demoHeader 0 1 0 0) 5 && !rings (demoHeader 0 1 0 0) 0 &&
      !rings (demoHeader 1 1 0 0) 4 && decide (header (demoQueue (demoHeader 0 1 0 0) 0) demoCtx 0 = demoHeader 0 1 0 0) = true := by decide +kernel
  simp only [Bool.and_eq_true, Bool.not_eq_true', decide_eq_true_eq] at h
  obtain ⟨⟨⟨⟨⟨h1, h2⟩, h3⟩, h4⟩, h5⟩, h6⟩ := h
  exact ⟨h1, h2, h3, h4, h5, rfl, h6, areaAt_of_areaNow (by decide +kernel)⟩

/-- The part with one launch that has no block yet. -/
def demoDispatch (l : Launch) : State := { demoQueue (demoHeader 0 1 1 0) 0 with launches := [l] }

theorem serves_demo (l : Launch) (hl : l.id = 0) (hc : l.ctx = 1) : Serves (demoDispatch l) l demoCtx where
  launch := by simp [launch, demoDispatch, hl]
  ctx := by rw [hc]; rfl
  works := ⟨rfl, by simp [demoDispatch, demoQueue, demo, placed, State.reset, HostRegs.reset]⟩
  running := ⟨rfl, rfl⟩
  first := by
    intro y hy _ hk
    obtain rfl := List.mem_singleton.1 hy
    exact absurd hk (lt_irrefl _)
  inside := by intro b hb; exact absurd hb List.not_mem_nil

/-- A launch of two blocks that has not begun, as an ordinary or a cooperative one. -/
def demoTwo (coop : Bool) : Launch := { placedLaunch with gx := 2, bsize := 2, coop := coop, next := 0, waiting := [], resident := 1, started := !coop }

theorem witness_LaunchesRun_admits : Serves (demoDispatch (demoTwo false)) (demoTwo false) demoCtx ∧ (demoTwo false).started = true ∧
    (pickBlock (demoDispatch (demoTwo false)) demoCtx (demoTwo false)).isSome = true ∧ Serves (demoDispatch (demoTwo true)) (demoTwo true) demoCtx ∧
    (demoTwo true).started = false ∧ (pickGroup (demoDispatch (demoTwo true)) demoCtx (demoTwo true)).isSome = true ∧ (demoTwo false).again = [] :=
  ⟨serves_demo _ rfl rfl, rfl, by decide +kernel, serves_demo _ rfl rfl, rfl, by decide +kernel, rfl⟩

theorem witness_LaunchesRun_ends :
    (let s := { demo with threads := [], frags := [], pools := [] }
     (pond s 0).isSome = true ∧ s.copies = [] ∧ s.mops = [] ∧ (∀ b l, block s 0 = some b → launch s b.launch = some l → l.kernel.still = false)) ∧
    (let l := { placedLaunch with next := 1 }
     launchDone (demoDispatch l) l = true ∧ atWork (demoDispatch l) = true ∧ (launch (demoDispatch l) l.id).isSome = true ∧ demoCtx.running = true ∧ demoCtx.stalled = false) ∧
    AreaAt (demoDispatch placedLaunch) demoCtx false (hdrAddr demoCtx 0 + 24) 4 0x300018 := by
  refine ⟨⟨by decide +kernel, rfl, rfl, ?_⟩, by decide +kernel, areaAt_of_areaNow (by decide +kernel)⟩
  intro b l hb hl
  obtain rfl : placedBlock = b := Option.some.inj hb
  obtain rfl := Option.some.inj hl
  rfl

/-- A kernel in still mode that holds no table of its lines. -/
def stillLaunch : Launch := { placedLaunch with
  bsize := 2
  kernel := { placedKernel with scratch := 0x20000, still := true } }

/-- Its only fragment waits for the commit of the round, two of its writes overlapping. -/
def demoRound : State := { demo with
  cur := none
  launches := [stillLaunch]
  blocks := [{ placedBlock with buffer := [demoEntry 1 0x100100 [1, 2, 3, 4], demoEntry 2 0x100102 [5, 6]] }]
  frags := [{ placedFrag with hold := .round [⟨0, 0⟩, ⟨0, 1⟩] ⟨[], [], false, 0, 0x10010, 7⟩ }] }

theorem roundWrites_demo : roundWrites demoRound stillLaunch =
    [demoEntry 1 0x100100 [1, 2, 3, 4]] ++ demoEntry 2 0x100102 [5, 6] :: [] := by decide +kernel

theorem witness_LaunchesRun_commits : (mayCommit demoRound stillLaunch && atWork demoRound) = true ∧ launch demoRound stillLaunch.id = some stillLaunch ∧
    ctx demoRound stillLaunch.ctx = some demoCtx ∧ demoCtx.running = true ∧ demoCtx.stalled = false ∧ PlainRound demoRound stillLaunch demoCtx 0x30041C := by
  refine ⟨by decide +kernel, by decide +kernel, by decide +kernel, rfl, rfl, ?_, ?_, ?_, ?_⟩
  · intro b hb _; obtain rfl := List.mem_singleton.1 hb; exact ⟨rfl, rfl⟩
  · intro y hy; exact absurd hy List.not_mem_nil
  · have hm : 0x100104 ≤ Config.hostBase := by decide
    intro x hx
    rw [roundWrites_demo] at hx
    rcases List.mem_cons.1 hx with rfl | hx
    · exact ⟨rfl, hm, by decide +kernel, fun _ _ _ _ _ h => by simp [demoEntry] at h⟩
    · obtain rfl := List.mem_singleton.1 hx
      exact ⟨rfl, hm, by decide +kernel, fun _ _ _ _ _ h => by simp [demoEntry] at h⟩
  · intro x hx hm
    refine areaAt_demo (k := 48) (d := 0x41C) (by decide) (by decide) (by decide) (by rw [hx]; rfl) (by rw [hx]; rfl) (by rw [hx]; rfl)
      (fun a => by rw [hx]; exact ⟨rfl, rfl⟩) (fun a h => hm a ?_) ⟨rfl, rfl⟩ rfl
    intro y hy
    rw [roundWrites_demo] at hy
    rcases List.mem_cons.1 hy with rfl | hy
    · simp only [BufEntry.alters, BufEntry.hits, demoEntry, List.length_cons, List.length_nil, List.not_mem_nil]; omega
    · obtain rfl := List.mem_singleton.1 hy
      simp only [BufEntry.alters, BufEntry.hits, demoEntry, List.length_cons, List.length_nil, List.not_mem_nil]; omega

theorem witness_LaunchesRun_releases :
    let c := demoCopy false []
    let s := { demo with threads := [], frags := [], pools := [], copies := [c], ponds := [{ demoPond with grans := [(16, ⟨false, 0⟩)] }] }
    (pond s 0).isSome = true ∧ c.dests = [] ∧ (∃ p ∈ starvedCopies s 0, p.1.id = c.id) ∧ s.mops = [] := by decide +kernel

theorem witness_LaunchesRun_installs :
    let w := (encode (.bra .always 0xFFFFFFFF)).getD 0
    (∃ sch, decodeWord (leNat (leBytes 16 w)) = .ok (.one sch (.bra .always 0xFFFFFFFF))) ∧ areaRead (demoWord w) demoCtx 0x10000 16 = .ok (leBytes 16 w) ∧
      relative 0x10000 0xFFFFFFFF = 0x10000 := by
  exact ⟨⟨schedOf 0, by decide +kernel⟩, by decide +kernel, by decide +kernel⟩

/-- `demo` switched out. -/
def demoOut : State := { demo with
  ctxs := [{ demoCtx with running := false }]
  blocks := [{ placedBlock with lake := none }]
  ponds := [{ demoPond with core := none }] }

/-- `demo` with its fragment parked at page 16. -/
def demoParked : State := { demo with
  cur := none
  frags := [{ placedFrag with hold := .parked 16 false }] }

/-- `demo` with an invalidation under way that covers page 16. -/
def demoInval (acked host : Bool) : State := { demoParked with invals := [⟨12, 1, [(0x100000, 16)], false, [], [], [], host, acked, [.frag 0 0]⟩] }

/-- `demo` with two records held for its fault queue. -/
def demoFault : State := { demo with ctxs := [{ demoCtx with held := [⟨0x41, none⟩, ⟨0x42, none⟩] }] }

theorem witness_ContextsSwitchAndReplay_held :
    let x : Ctx := { demoCtx with held := [⟨0x41, none⟩, ⟨0x42, none⟩] }
    let base (i : Nat) : Nat := 65536 * 64 + 64 * i
    ctx demoFault 1 = some x ∧ x.running = true ∧ (∀ i < x.held.length, ∀ j < x.held.length, i ≠ j → base i + 64 ≤ base j ∨ base j + 64 ≤ base i) ∧
    ∀ i < x.held.length, ∀ y : State, y = { demoFault with mem := y.mem, lineTag := y.lineTag, ctxs := y.ctxs, host := { demoFault.host with msix := y.host.msix } } →
      (∀ a, (∀ j < i, ¬(base j ≤ a ∧ a < base j + 64)) → byteAt y.mem a = byteAt demoFault.mem a) →
      let z := { x with held := x.held.drop i, seq := x.seq + i }
      (∃ bs, areaRead y z (fqSlot x (x.seq + i)) 8 = .ok bs ∧ (leNat bs).testBit 15 = false) ∧ AreaAt y z true (fqSlot x (x.seq + i)) 64 (base i) := by
  intro x base
  refine ⟨by decide +kernel, rfl, fun i _ j _ hij => by simp only [base]; omega, ?_⟩
  intro i hi y hy hm z
  have hi : i < 2 := hi
  have hf : fqSlot x (x.seq + i) = base i := by
    have h : ∀ i < 2, fqSlot { demoCtx with held := [⟨0x41, none⟩, ⟨0x42, none⟩] } (demoCtx.seq + i) = 65536 * 64 + 64 * i := by decide
    exact h i hi
  have hp : ∀ a, ownAddr y a = ownAddr demo a ∧ populated y a = populated demo a := fun a => by rw [hy]; exact ⟨rfl, rfl⟩
  have hl : ∀ a < 0x100000, byteAt y.mem a = byteAt demo.mem a := fun a h => hm a (fun j _ => by simp only [base]; omega)
  rw [hf]
  constructor
  · refine ⟨_, areaRead_demo (k := 64) (d := 64 * i) (by decide) (by omega) (by rw [hy]; rfl) (by rw [hy]; rfl) hp hl ⟨rfl, rfl⟩ rfl, ?_⟩
    rw [homeBytes_congr (s := demo) (by rw [hy]; rfl) 8 _ (fun b h1 h2 => hm b (fun j hj => by simp only [base]; omega))]
    have h : ∀ i < 2, (leNat (homeBytes demo (65536 * 64 + 64 * i) 8)).testBit 15 = false := by decide +kernel
    exact h i hi
  · exact areaAt_demo (k := 64) (by decide) (by omega) (by omega) (by rw [hy]; rfl) (by rw [hy]; rfl) (by rw [hy]; rfl) hp hl ⟨rfl, rfl⟩ rfl

theorem witness_ContextsSwitchAndReplay : ((ctx demo 1).map Ctx.running = some true ∧ (ctx demoOut 1).map Ctx.running = some false ∧
    (demoOut.ponds.map Pond.id).Nodup ∧ (demoOut.blocks.map Block.id).Nodup ∧ demoOut.host.go = true ∧
    (∀ b ∈ demoOut.blocks, ∀ l, launch demoOut b.launch = some l → b.lake = none ∧ ∀ d ∈ demoOut.ponds, d.core = none) ∧
    (ctx { demoParked with ctxs := demoOut.ctxs } 1).map Ctx.running = some false) ∧
    (let r := ctxRecOf (BitVec.ofNat 2048 (2 * 2 ^ 864))
     demo.host.go = true ∧ ctx demo r.id = none ∧ ∀ l ∈ demo.launches, l.ctx ≠ r.id) ∧
    parkedAt demoParked (.frag 0 0) = some (1, 16, false) ∧ (ctx demoParked 1).map Ctx.running = some true ∧
    parkedAt (demoInval true false) (.frag 0 0) = some (1, 16, false) ∧
    [true, false].all (fun h => ((demoInval false h).invals.find? (fun x => x.id == 12 && !x.acked)).isSome) = true ∧
    (demoInval false false).accs ++ (demoInval false false).slices = [] ∧ (demoInval false false).copies = [] ∧
    ∀ b ∈ (demoInval false false).blocks, b.buffer = [] := by
  refine ⟨⟨by decide +kernel, by decide +kernel, by decide +kernel, by decide +kernel, rfl, ?_, rfl⟩, ?_⟩
  · intro b hb l _
    obtain rfl := List.mem_singleton.1 hb
    exact ⟨rfl, fun d hd => by obtain rfl := List.mem_singleton.1 hd; rfl⟩
  · decide +kernel

/-- `demo` whose only fragment is about to read what an LDS of an empty granule is to write. -/
def demoStuck : State :=
  let d := { demoPond with grans := [(16, ⟨false, 0⟩)] }
  let x : Access := ⟨9, 3, ⟨0, 0⟩, demoOrigin, .scratch 0, 0x100, 0x100, 4, .load false, .wk, .pl, false, false, 0, some (5, 0), [], []⟩
  { demo with
    cur := none
    mem := putBytes demoMem 0x10000 (leBytes 16 ((encode (.mov .always false false (.reg 41 .home) (.reg 40 .res true) 0)).getD 0))
    ponds := [d]
    threads := [{ placedThread with marks := [⟨40, 3, false, false, false⟩] }]
    frags := [{ placedFrag with hist := [3], pace := 1 }]
    ops := [⟨5, 3, 0, some 40, .home, 1, none, [⟨⟨0, 0⟩, List.replicate 4 none⟩], []⟩]
    accs := [x]
    incomplete := [3] }

/-- `demo` whose pond holds every physical slot of its core, with a fresh operation that waits for one. -/
def demoDeadlock (kind : MKind) : State := { demoHolds 24 with mops := [{ demoMop kind false with fresh := true, idx := 24, fmt := 0x20000, dreg := some 40, signers := [⟨⟨0, 0⟩, ⟨0, 0⟩, 0, 0x10000, 1, 3, false, 0⟩] }] }

/-- `demo` in a halt that has, or has not, reached its core. -/
def demoHalt (reached : Bool) : State := { demo with
  cur := none
  blocks := [{ placedBlock with halt := some 0, reached := if reached then [0] else [] }]
  frags := [{ placedFrag with stopped := reached }] }

theorem witness_StuckAndHaltedBlocks :
    ((block demoStuck 0).any (fun b => isStuck demoStuck b && b.stuckAt != stuckMark demoStuck 0) && (starvedFrags demoStuck 0).map (fun p => (p.frag, p.wid, p.acc.addr, p.lane)) == [(⟨0, 0⟩, 3, 0x100, 0)] &&
      (starvedMops demoStuck 0).isEmpty && (starvedCopies demoStuck 0).isEmpty && (envAt demoStuck ⟨0, 0⟩).isSome) = true ∧
    ([.mma, .alloc] : List MKind).all (fun k => let s := demoDeadlock k
      ((slotWaiters s 0).getLast?).any (fun m => m.id == 50 && deadlocked s 0 m.orig.ctx && m.orig.ctx == 1 && m.kind != .msta) && (ctx s 1).any Ctx.running && s.mops.all (fun m => !m.done)) = true ∧
    [true, false].all (fun r => let s := demoHalt r
      (block s 0).any (fun b => b.halt.isSome && !b.halted && b.reached.contains 0 == r) && (blockCores s 0).contains 0) = true ∧
    (blockFrags (demoHalt true) 0).all (fun r => (frag (demoHalt true) r).any (fun f => f.stopped) && (envAt (demoHalt true) r).any (fun e => e.ctx.rcd.id == 1)) = true ∧
    (ctx (demoHalt true) 1).isSome = true := by decide +kernel

theorem witness_DamageIsContained : demo.host.powered = true ∧ populated demo 0 = true ∧ populated demo 767725404159 = true ∧
    (let y := demoAccess (.store [1, 2, 3, 4]) true none
     let s := { demo with slices := [y] }
     (s.slices.filter (fun y => y.addr / 128 == 0x100100 / 128)).getLast? = some y ∧ y.orig.ctx = 1) ∧
    (let n := Config.hostBase / 128
     let h : HostLine := ⟨n, List.replicate 128 1, true, [1]⟩
     hostLine { demo with hostLines := [h] } n = some h) ∧ demo.slices = [] ∧
    hostLine demo 0 = none ∧ mapGet { demo with lineTag := [(0, 1)] }.lineTag 0 = some 1 ∧ (ctx demo 1).isSome = true ∧
    (0, 0) ∈ { demo with leaving := [(0, 0)] }.leaving ∧ 0x1FFFF < demoPond.size ∧
    (mapGet { placedThread with springs := [(767, 1)] }.springs 767).isSome = true ∧ struck demo 0 = [placedBlock] ∧ (launch demo 0).isSome = true ∧
    placedKernel.restart = false ∧ { placedKernel with restart := true }.restart = true ∧ placedBlock.restarts < 3 ∧ demo.host.moduleNo ≠ 1791 ∧
    ({ demo with host := { demo.host with powered := false } }).host.powered = false := by decide +kernel

theorem witness_HostActionsAct :
    (let go := { State.reset with host := { HostRegs.reset with stage := 3 } }
     go.host.powered = true ∧ go.host.go = false ∧ State.reset.host.stage ≠ 3 ∧ demo.host.go = true ∧ demo.host.stage = 3) ∧
    ({ demo with host := { demo.host with powered := false } }).host.powered = false ∧ (∃ d ∈ demo.ponds, d.core.isSome = true) ∧ State.reset.ponds = [] ∧
    ([0, 7, 8, 9, 10, 15] : List DWord).map (fun v => v.toNat % 16) = [0, 7, 8, 9, 10, 15] ∧
    (let s := { demo with host := { demo.host with flushing := true, flushFrom := Config.hostBase, flushTo := Config.hostBase + 1 }, hostLines := [⟨Config.hostBase / 128, List.replicate 128 1, true, [1]⟩] }
     s.slices = [] ∧ (∀ h ∈ s.hostLines, Config.hostBase ≤ 128 * h.line ∧ h.bytes.length = 128)) ∧ (demo.host.pstate ∉ [7, 9] ∧ demo.host.pstate < 8) ∧
    reaches demo .window 0 8 0 ∧ reaches demo .hostMem 0 8 Config.hostBase ∧ demo.slices = [] ∧
    (let s := { demo with host := { demo.host with featdrv := 0x1F } }
     s.host.featdrv.getLsbD 2 = true ∧ basinBusy s 7 = false ∧ basinBusy s 0 = true) := by
  refine ⟨by decide +kernel, rfl, ⟨demoPond, List.mem_singleton.2 rfl, rfl⟩, rfl, by decide +kernel, by decide +kernel, by decide +kernel, ?_, ?_, rfl, by decide +kernel⟩
  · unfold reaches; decide +kernel
  · unfold reaches; decide +kernel

theorem witness_HostRegistersReadBack : demo.host.powered = true ∧ plainRegs State.reset ≠ [] ∧ plainRegs demo ≠ [] ∧ (0x08, 0x1F) ∈ plainRegs State.reset ∧
    (0x108, -1) ∈ plainRegs State.reset ∧ (0x98, -1) ∈ plainRegs State.reset ∧ refusedFeature demo 1 = true ∧ refusedFeature demo 3 = true ∧ demo.host.go = true ∧ demo.host.mbxBusy = false ∧
    ([0, 1, 2, 3] : List DWord).map (fun v => v.toNat % 256) = [0, 1, 2, 3] ∧ (ctx demo 1).isSome = true ∧ 0x1FF8 % 8 = 0 ∧
    (∀ x ∈ demo.ctxs, x.running = true) ∧ ∀ b ∈ demo.blocks, b.halt = none ∧ b.halted = false := by decide +kernel

/-- The part at STAGE 1, where the ROM waits for the host's image. -/
def demoBoot : State := { State.reset with host := { HostRegs.reset with stage := 1, mbxNeed := true } }

theorem witness_PowerBootAndMailbox : State.reset.host.powered = true ∧ State.reset.host.stage = 0 ∧ State.reset.host.mbxNeed = false ∧ demo.host.stage ≠ 0 ∧
    ({ demo with host := { demo.host with powered := false } }).host.powered = false ∧ demoBoot.host.mbxNeed = true ∧ demoBoot.host.mbxBusy = false ∧
    demo.host.mbxBusy = false ∧ demo.host.mbxNeed = false ∧ ((32 * 2 ^ 16 : DWord)).toNat / 2 ^ 16 % 2 ^ 12 = 32 ∧ (0 : DWord).toNat / 2 ^ 16 % 2 ^ 12 ≠ 32 ∧
    demo.host.stage = 3 := by decide +kernel

/-- A collective record: one element at 0x100100, added to 0x100200, among `ranks` members, with DONEADDR 0x100300. -/
def demoCollective (ty ranks rank : Nat) : Nat :=
  0x100100 + 0x100200 * 2 ^ 64 + 2 ^ 128 + ty * 2 ^ 168 + ranks * 2 ^ 176 + rank * 2 ^ 192 + 7 * 2 ^ 208 + 0x100300 * 2 ^ 256 + 5 * 2 ^ 320

/-- `demo` with every feature and that record posted. -/
def demoFabric (ranks : Nat) : State := { demo with
  host := { demo.host with featdrv := 0x1F, collBase := 0x400000, posted := [0] }
  mem := putBytes demoMem 0x400000 (leBytes 64 (demoCollective 2 ranks 0)) }

theorem witness_FabricActions : (demoFabric 2).host.go = true ∧ (demoFabric 2).host.featdrv.getLsbD 0 = true ∧ (demoFabric 2).host.featdrv.getLsbD 3 = true ∧
    demo.host.featdrv.getLsbD 3 = false ∧ (demoFabric 2).slices = [] ∧ 767725404152 + 8 ≤ Config.deviceTop ∧
    (let a := Config.peerBase + 5 * 2 ^ 40 + 767725404152
     Config.peerBase ≤ a ∧ a < Config.hostBase ∧ (a - Config.peerBase) % 2 ^ 40 + 8 ≤ Config.deviceTop ∧ (a - Config.peerBase) / 2 ^ 40 ∉ (demoFabric 2).host.lostModules) ∧ collSize (demoFabric 2).host = 16 ∧
    collRecord (demoFabric 2) 0 = some (demoCollective 2 2 0) ∧
    (let s := demoFabric 2
     let r := demoCollective 2 2 0
     let ms := collMembers s r [(BitVec.ofNat 512 (demoCollective 2 2 1), [1, 0, 0, 0])]
     let ns := collMembers s r [(BitVec.ofNat 512 (demoCollective 3 2 1), [1, 0, 0, 0])]
     collBroken s r = false ∧ (∀ m ∈ ms, agrees r m.1 = true) ∧ ms.map (fun m => collRank m.1) = List.range (collRanks r) ∧ (∃ m ∈ ns, agrees r m.1 = false) ∧ (∀ m ∈ ms, sourceShort r m.2 = false) ∧ sourceShort r [] = true ∧
       (ms.map (fun m => collRank m.1)).Nodup ∧ ((collMembers s r []).map (fun m => collRank m.1)).Nodup ∧ (collMembers s r []).length < collRanks r ∧
       s.host.lostModules = [] ∧ State.reset.host.go = false ∧
       collStatus s r (collMembers s r []) false = none ∧ collStatus s r (collMembers s r []) true = some 2 ∧
       collDst r + (collResult r (ms.map Prod.snd)).length ≤ Config.deviceTop ∧ collAddr s.host 0 + 30 < Config.deviceTop ∧ collDone r + 8 ≤ Config.deviceTop ∧
       ¬(collAddr s.host 0 + 30 < collDone r + 8)) := by decide +kernel
end

section
/-! SUPPORT. The frames of the bodies of register words that `Laws/Words` leaves out. -/

namespace Sys2Proof.Machine

variable {s : State} {e : Env} {i : Instr} {regs preds : List Nat} {flags : Bool} {ws : List TRef}

/-- A word that writes a result of an operand width, computed from all its active threads together, leaves all but its destination. -/
theorem widthBody_keeps (h : Issues s e i) (g : Guard) (w : Bool) (d : Dst) (f : Env → List Thread → Thread → DWord)
    (hd : ∀ n tag, d = .reg n tag → n.val ∈ regs ∧ (w = true → n.val + 1 ∈ regs)) :
    ∃ t, issue i s (plain g (fun e act s => writeW s e w d (forEach act (f e act)))) = .next t ∧ s.Keeps e regs preds flags (e.acting g) t :=
  plain_keeps h g _ (fun _ => writeW_keeps hd (fun _ hv => mem_acting hv))

/-- A sum or difference with carry leaves all but its destination and its predicate (R133). -/
theorem carryBody_keeps (h : Issues s e i) (g : Guard) (w : Bool) (d : Dst) (a b : Src) (pi po : Fin 64)
    (f : Bool → DWord → DWord → Bool → Int × Bool) (hd : ∀ n tag, d = .reg n tag → n.val ∈ regs ∧ (w = true → n.val + 1 ∈ regs))
    (hp : po.val ∈ preds) :
    ∃ t, issue i s (carryBody g w d a b pi po f) = .next t ∧ s.Keeps e regs preds flags (e.acting g) t :=
  plain_keeps h g _ (fun _ => (writePred_keeps hp (fun _ hv => mem_acting hv)).trans (writeW_keeps hd (fun _ hv => mem_acting hv)))

/-- A comparison that writes a predicate and one register leaves all else (R152). -/
theorem predDstBody_keeps (h : Issues s e i) (g : Guard) (p : Fin 64) (d : Dst) (q : Env → Thread → Bool) (f : Env → Thread → Word)
    (hd : ∀ n tag, d = .reg n tag → n.val ∈ regs) (hp : p.val ∈ preds) :
    ∃ t, issue i s (plain g (fun e act s => writeDst (writePred s p (forEach act (q e))) e d [forEach act (f e)])) = .next t ∧
      s.Keeps e regs preds flags (e.acting g) t :=
  plain_keeps h g _ (fun _ => (writePred_keeps hp (fun _ hv => mem_acting hv)).trans
    (writeDst_keeps (fun n tag j hr hj => by obtain rfl : j = 0 := (by simpa using hj); exact hd n tag hr) (fun l hl v hv => by
      obtain rfl := List.mem_singleton.1 hl; exact mem_acting hv)))

/-- A reduction of lanes leaves all but its destination and the flags (R164). -/
theorem reduceBody_keeps (hf : flags = true) (h : Issues s e i) (g : Guard) (w : Bool) (d : Dst) (fl : Env → List Thread → FlagSet)
    (f : Env → List Thread → Thread → DWord) (hd : ∀ n tag, d = .reg n tag → n.val ∈ regs ∧ (w = true → n.val + 1 ∈ regs)) :
    ∃ t, issue i s (plain g (fun e act s => writeW (setFlags s (forEach act (fun _ => fl e act))) e w d (forEach act (f e act)))) = .next t ∧
      s.Keeps e regs preds flags (e.acting g) t :=
  plain_keeps h g _ (fun _ => (setFlags_keeps hf (fun _ hv => mem_acting hv)).trans (writeW_keeps hd (fun _ hv => mem_acting hv)))

/-- Flags raised and a range of registers written from results of the same threads leave all else (R155). -/
theorem flaggedRange_keeps {α : Type} (hf : flags = true) (d : Dst) {vals : List (TRef × α)} (fl : α → FlagSet) (n : Nat) (word : TRef × α → Nat → Word)
    (hd : ∀ m tag j, d = .reg m tag → j < n → m.val + j ∈ regs) (hw : ∀ v ∈ vals, v.1 ∈ ws) :
    s.Keeps e regs preds flags ws (writeDst (setFlags s (vals.map (fun p => (p.1, fl p.2)))) e d
      ((List.range n).map (fun j => vals.map (fun p => (p.1, word p j))))) := by
  have names : ∀ {β : Type} (f : TRef × α → β), ∀ v ∈ vals.map (fun p => (p.1, f p)), v.1 ∈ ws := by
    intro β f v hv
    obtain ⟨p, hp, rfl⟩ := List.mem_map.1 hv
    exact hw p hp
  refine (setFlags_keeps hf (names (fun p => fl p.2))).trans (writeDst_keeps (fun m tag j hr hj => hd m tag j hr (by simpa using hj)) (fun l hl => ?_))
  obtain ⟨j, _, rfl⟩ := List.mem_map.1 hl
  exact names (word · j)

/-- A conversion to floats leaves all but its destination range and the flags (R155). -/
theorem convBody_keeps (hf : flags = true) (h : Issues s e i) (g : Guard) (m : FMod) (d : Dst) (k : Nat) (f : Env → Thread → List FVal)
    (hd : ∀ n tag j, d = .reg n tag → j < k / fmtElems m.fmt → n.val + j ∈ regs) :
    ∃ t, issue i s (plain g (fun e act s => convWrite s e m d k (forEach act (f e)))) = .next t ∧ s.Keeps e regs preds flags (e.acting g) t := by
  refine plain_keeps h g _ (fun s => flaggedRange_keeps hf d (fun q : List (Word × FlagSet) => flagsOf (q.map Prod.snd)) (k / fmtElems m.fmt)
    (fun p j => (p.2.getD j (0, .none)).1) hd (fun v hv => ?_))
  obtain ⟨p, hp, rfl⟩ := List.mem_map.1 hv
  exact (mem_acting hp : p.1 ∈ _)

/-- A conversion to integers leaves all but its destination range and the flags (R158). -/
theorem convIntBody_keeps (hf : flags = true) (h : Issues s e i) (g : Guard) (d : Dst) (n : Nat) (f : Env → Thread → List (Int × FlagSet))
    (word : TRef × List (Int × FlagSet) → Nat → Word) (hd : ∀ m tag j, d = .reg m tag → j < n → m.val + j ∈ regs) :
    ∃ t, issue i s (plain g (fun e act s => writeDst (setFlags s ((forEach act (f e)).map (fun p => (p.1, flagsOf (p.2.map Prod.snd))))) e d
      ((List.range n).map (fun j => (forEach act (f e)).map (fun p => (p.1, word p j)))))) = .next t ∧
      s.Keeps e regs preds flags (e.acting g) t :=
  plain_keeps h g _ (fun _ => flaggedRange_keeps hf d (fun q : List (Int × FlagSet) => flagsOf (q.map Prod.snd)) n word hd (fun _ hv => mem_acting hv))

/-- The destination range of a conversion lies among the registers that its word names (R155). -/
theorem convOps_mem {d : Dst} {a : Src} {rest : List Opnd} {n : Fin 768} {tag : DTag} {ns us nd ud j : Nat} (h : d = .reg n tag)
    (hj : j < max ns nd / nd * ud) : n.val + j ∈ ((convOps ns us nd ud d a ++ rest).filter Opnd.dst).flatMap Opnd.regs :=
  dOp_mem h hj

theorem fmtElems_le_four (fmt : Fmt) : fmtElems fmt ≤ 4 := by cases fmt <;> decide

/-- XBALLOT leaves all but its four registers (R163). -/
theorem ballotBody_keeps (h : Issues s e i) (g : Guard) (d : Dst) (word : List Thread → Nat → Word)
    (hd : ∀ n tag j, d = .reg n tag → j < 4 → n.val + j ∈ regs) :
    ∃ t, issue i s (plain g (fun e act s => writeDst s e (match d with | .reg n _ => .reg n .pl | .none => .none)
      ((List.range 4).map (fun j => forEach act (fun _ => word act j))))) = .next t ∧ s.Keeps e regs preds flags (e.acting g) t := by
  refine plain_keeps h g _ (fun _ => writeDst_keeps (fun n tag j hr hj => ?_) (fun l hl => ?_))
  · cases d with
    | none => cases hr
    | reg m tag' => cases hr; exact hd n tag' j rfl (by simpa using hj)
  · obtain ⟨j, _, rfl⟩ := List.mem_map.1 hl
    exact fun _ hv => mem_acting hv

/-! Words with a modulus slot (09). -/

/-- The width of a word with a modulus slot is that of its first active thread's slot (R170). -/
theorem slotWide_eq {k : Nat} (hk : slotOf i = some k) (act : List Thread) :
    e.slotWide i act = (act.head?.map (fun t => (e.slot k t).wide)).getD false := by
  unfold Env.slotWide
  rw [hk]
  cases act <;> rfl

/-- A word that writes one result at the width of its slot leaves all but the destination that it names (R174, R177). -/
theorem slotBody_keeps (h : Issues s e i) {k : Nat} (hk : slotOf i = some k) (d : Dst) (f : Env → List Thread → Thread → DWord)
    (ho : ∀ q, ∃ rest, opnds q i = dW q d :: rest) :
    ∃ t, issue i s (plain (guardOfInstr i) (fun e act s =>
      writeW s e ((act.head?.map (fun t => (e.slot k t).wide)).getD false) d (forEach act (f e act)))) = .next t ∧
      s.Keeps e (e.dstRegs i) preds flags (e.acting (guardOfInstr i)) t := by
  refine plain_keeps h _ _ (fun _ => writeW_keeps (fun n tag hr => ?_) (fun _ hv => mem_acting hv))
  obtain ⟨rest, hrest⟩ := ho (e.slotWide i (e.active (guardOfInstr i)))
  rw [← slotWide_eq hk]
  unfold Env.dstRegs
  rw [hrest]
  exact dW_mem hr

/-- A local butterfly leaves all but its two units of destination (R176). -/
theorem butterfly_keeps (h : Issues s e i) {k : Nat} (hk : slotOf i = some k) (d : Dst) (a b c : Src) (top bot : Int → Int → Int → Int)
    (ho : ∀ q, ∃ rest, opnds q i = (if q then dOp d 4 2 else dOp d 2 1) :: rest) :
    ∃ t, issue i s (butterfly (guardOfInstr i) k d a b c top bot) = .next t ∧
      s.Keeps e (e.dstRegs i) preds flags (e.acting (guardOfInstr i)) t := by
  refine plain_keeps h _ _ (fun _ => ?_)
  obtain ⟨rest, hrest⟩ := ho (e.slotWide i (e.active (guardOfInstr i)))
  unfold Env.dstRegs
  rw [hrest, slotWide_eq hk]
  cases ((e.active (guardOfInstr i)).head?.map (fun t => (e.slot k t).wide)).getD false with
  | false =>
    refine writeDst_keeps (fun n tag j hr hj => dOp_mem hr hj) (fun l hl => ?_)
    rcases List.mem_append.1 hl with hl | hl <;> obtain rfl := List.mem_singleton.1 hl <;> exact fun _ hv => mem_acting hv
  | true =>
    refine writeDst_keeps (fun n tag j hr hj => dOp_mem hr hj) (fun l hl => ?_)
    rcases List.mem_append.1 hl with hl | hl <;> rcases List.mem_pair.1 hl with rfl | rfl <;> exact fun _ hv => mem_acting hv

/-! PSET (R143). It alone computes the predicates that it leaves anew, from those of the first active thread of a name. -/

/-- The predicates of the half that PSET names. -/
def halfPreds (hi : Bool) : List Nat := (List.range 32).map (fun j => if hi then 32 + j else j)

theorem mem_halfPreds {hi : Bool} {k : Nat} : k ∈ halfPreds hi ↔ if hi then 32 ≤ k ∧ k < 64 else k < 32 := by
  cases hi with
  | false => simp [halfPreds]
  | true =>
    simp only [halfPreds, if_true, List.mem_map, List.mem_range]
    exact ⟨fun ⟨j, hj, hk⟩ => by omega, fun hk => ⟨k - 32, by omega, by omega⟩⟩

/-- A predicate outside the half that PSET names stays (R143). -/
theorem psetPreds_other {hi : Bool} {n k : Nat} {v m : Word} {p : BitVec 64} (hk : k ∉ halfPreds hi) :
    (psetPreds hi n v m p).getLsbD k = p.getLsbD k := by
  have hput : (if hi then m.setWidth 64 <<< 32 else m.setWidth 64).getLsbD k = false := by
    rw [mem_halfPreds] at hk
    cases hi with
    | false => simpa using fun _ => BitVec.getLsbD_of_ge m k (by simpa using hk)
    | true =>
      simp only [if_true, not_and, not_lt] at hk
      by_cases h32 : k < 32
      · simp [h32]
      · simp [hk (by omega)]
  unfold psetPreds
  simp only [BitVec.getLsbD_or, BitVec.getLsbD_and, BitVec.getLsbD_not, hput]
  by_cases h64 : k < 64
  · simp [h64]
  · simp [h64, BitVec.getLsbD_of_ge p k (Nat.not_lt.1 h64)]

/-- An inserted element stands in the list. -/
theorem mem_insertBy {α : Type} {key : α → Nat} {x y : α} {l : List α} (h : x ∈ insertBy key y l) : x = y ∨ x ∈ l := by
  induction l with
  | nil => exact .inl (List.mem_singleton.1 h)
  | cons z r ih =>
    unfold insertBy at h
    split at h
    · simpa using h
    · rcases List.mem_cons.1 h with rfl | h
      · exact .inr (by simp)
      · exact (ih h).imp_right (List.mem_cons_of_mem _)

/-- Sorting invents no element. -/
theorem mem_of_mem_sortBy {α : Type} {key : α → Nat} {x : α} {l : List α} (h : x ∈ sortBy key l) : x ∈ l := by
  have go : ∀ (l acc : List α), x ∈ l.foldl (fun acc y => insertBy key y acc) acc → x ∈ acc ∨ x ∈ l := by
    intro l
    induction l with
    | nil => exact fun _ h => .inl h
    | cons y r ih =>
      intro acc h
      rcases ih _ h with h | h
      · exact (mem_insertBy h).symm.imp_right (fun h => by simp [h])
      · exact .inr (by simp [h])
  simpa using go l [] h

/-- The active threads of a word are threads of its state. -/
theorem mem_threads_of_active {g : Guard} {u : Thread} (h : Issues s e i) (hu : u ∈ e.active g) : u ∈ s.threads := by
  obtain ⟨iss, _, he⟩ := Option.bind_eq_some_iff.1 h.env
  unfold envOf at he
  simp only [Option.bind_eq_bind, Option.bind_eq_some_iff, Option.some.injEq] at he
  obtain ⟨f, _, p, _, d, _, c, _, b, _, l, _, x, _, rfl⟩ := he
  exact (List.mem_filter.1 (mem_of_mem_sortBy (List.mem_filter.1 hu).1)).1

/-- Where no two threads share a name, PSET leaves all but the predicates of its half (R143). -/
theorem pset_keeps {g : Guard} {hi : Bool} {a b : Src} {imm : Word} (hn : (s.threads.map Thread.ref).Nodup)
    (h : Issues s e (.pset g hi a b imm)) :
    ∃ t, exec (.pset g hi a b imm) s = .next t ∧ s.Keeps e regs (halfPreds hi) flags (e.acting g) t := by
  refine ⟨_, issue_plain h g _, ?_⟩
  split
  · exact finish_keeps
  have hfin : s.Keeps e regs [] flags (e.acting g) (finish s e (.pset g hi a b imm)) := finish_keeps
  refine (hfin.mono (List.Subset.refl _) (by simp) id).trans
    (.of_parts rfl ?_ (forall₂_self _ (fun _ _ => .refl ..)) (forall₂_self _ (fun _ _ _ => rfl)))
  refine forall₂_updWhere _ _ _ (fun x hx hp => ?_) (fun _ _ => .refl ..)
  obtain ⟨v, hv, hr⟩ := valOf_mem hp
  refine ⟨rfl, fun hx => absurd (hr ▸ mem_acting hv) hx, fun _ _ => rfl, fun _ _ => rfl, fun k hk => ?_, fun _ => rfl, rfl⟩
  obtain ⟨y, hy, hyx⟩ := forall₂_mem_right hfin.threads x hx
  obtain ⟨w, hw⟩ := Option.isSome_iff_exists.1 hp
  obtain ⟨p, hfind, rfl⟩ := Option.map_eq_some_iff.1 hw
  obtain ⟨u, hu, rfl⟩ := List.mem_map.1 (List.mem_of_find?_eq_some hfind)
  have huy : u = y := List.inj_on_of_nodup_map hn (mem_threads_of_active h hu) hy
    (by rw [← hyx.ref_eq]; simpa using List.find?_some hfind)
  simp only [hw, Option.getD_some]
  rw [psetPreds_other hk, huy, hyx.preds k (by simp)]

end Sys2Proof.Machine
end

section
/-! Every register word leaves what it does not name, PSET where no two threads share a name. -/

namespace Sys2Proof.Machine

variable {s : State} {e : Env} {i : Instr}

/-- Every register word completes and leaves what it does not name (R37, R123, R342); PSET does where no two threads share a name. -/
theorem registerWord_keeps (hi : isRegisterWord i = true) (h : Issues s e i)
    (hn : ∀ g half a b imm, i = .pset g half a b imm → (s.threads.map Thread.ref).Nodup) :
    ∃ t, exec i s = .next t ∧ s.Keeps e (e.dstRegs i) (dstPreds i) (mayRaise i) (e.acting (guardOfInstr i)) t := by
  cases i with
  | mov g w _ d | movi g w _ d | sel g w _ d | iabs g w _ d | imulh g w _ d | imin g w _ d | imax g w _ d | idiff g w _ d | iset g w _ _ d
  | and g w d | or g w d | xor g w d | not g w d | tlog g w d | shl g w d | shr g w d | sar g w d | rot g w d | brev g w d | bfx g w _ d
  | bfi g w d => exact writeBody_keeps h g w d _ (fun _ _ => dW_mem)
  | iadd g m d | isub g m d | imul g m d | imad g m d | ineg g m d => exact writeBody_keeps h g m.w d _ (fun _ _ => dW_mem)
  | imadw g _ _ d | lea g _ d => exact writeBody_keeps h g true d _ (fun _ _ => dW_mem (w := true))
  | movh g d | fshl g d | fshr g d | bytep g d | popc g _ d | clz g _ d | ctz g _ d | pget g _ d | xtbl g _ _ d =>
    exact writeBody_keeps h g false d _ (fun _ _ => dW_mem (w := false))
  | qget g _ sel d => exact widthBody_keeps h g (sel != .wid) d _ (fun _ _ => dW_mem)
  | iaddc g w d a b pi po | isubb g w d a b pi po => exact carryBody_keeps h g w d a b pi po _ (fun _ _ => dW_mem) (List.mem_singleton.2 rfl)
  | icmp g _ _ _ p | pand g p | por g p | pxor g p | pnot g p | pmov g p | xvote g _ p =>
    exact predBody_keeps h g p _ (List.mem_singleton.2 rfl)
  | pset g half a b imm => exact pset_keeps (hn _ _ _ _ _ rfl) h
  | fcmp g _ _ _ p d => exact predDstBody_keeps h g p d _ _ (fun _ _ hr => (dW_mem (w := false) hr).1) (List.mem_singleton.2 rfl)
  | fmin g _ _ d | fmax g _ _ d | fclass g _ _ _ d | xshf g _ _ d | xbcast g _ d | xpfx g _ d | xslide g _ d | xcmpr g d | xexpd g d | lrank g d
  | mslotCnt g d => exact dstBody_keeps h g d _ (fun _ _ hr => (dW_mem (w := false) hr).1)
  | fadd g _ d | fsub g _ d | fmul g _ d | ffma g _ d | fdiv g _ d | fsqrt g _ d | frcp g _ d | frsq g _ d | fexp2 g _ d | flog2 g _ d | fsin g _ d
  | fcos g _ d | ftanh g _ d | fscale g _ d | frnd g _ _ _ d => exact flagBody_keeps rfl h g d _ (fun _ _ hr => (dW_mem (w := false) hr).1)
  | fcvt g m _ d => exact convBody_keeps rfl h g m d _ _ (fun _ _ _ hr hj => convOps_mem (rest := []) hr (by omega))
  | icvt g m _ _ d => exact convBody_keeps rfl h g m d _ _ (fun _ _ _ hr hj => convOps_mem (rest := []) hr (by omega))
  | kdec g m kb4 d =>
    have hmax : max (if kb4 then 8 else 4) (fmtElems m.fmt) = if kb4 then 8 else 4 :=
      Nat.max_eq_left ((fmtElems_le_four m.fmt).trans (by cases kb4 <;> decide))
    exact convBody_keeps rfl h g { m with ftz := m.ftz && m.fmt != .f32 } d _ _
      (fun _ _ _ hr hj => convOps_mem hr (by rw [hmax, Nat.mul_one]; exact hj))
  | fcvti g kind _ _ _ _ d => exact convIntBody_keeps rfl h g d _ _ _ (fun _ _ _ hr hj => convOps_mem (rest := []) hr hj)
  | xballot g d => exact ballotBody_keeps h g d _ (fun _ _ _ hr hj => dOp_mem hr hj)
  | xred g r d => exact reduceBody_keeps rfl h g (redWide r) d _ _ (fun _ _ => dW_mem)
  | xscan g r d => exact reduceBody_keeps rfl h g (redWide r) d _ _ (fun _ _ => dW_mem)
  | maddq _ _ d | msubq _ _ d | mnegq _ _ d | mmulq _ _ d | mmacq _ _ d | mredq _ _ d | xbfly _ _ _ _ d | xibfly _ _ _ _ d =>
    exact slotBody_keeps h rfl d _ (fun _ => ⟨_, rfl⟩)
  | bfly _ _ d a b c | ibfly _ _ d a b c => exact butterfly_keeps h rfl d a b c _ _ (fun _ => ⟨_, rfl⟩)
  | _ => cases hi

end Sys2Proof.Machine
end

section
/-! O1 fails in states in which two threads share a name. -/

namespace Sys2Proof.Machine

/-- A state with two threads of one name that differ in p40, about to issue a word. -/
def twins : State := { placed State.reset [] with
  threads := [placedThread, { placedThread with preds := BitVec.twoPow 64 40 }]
  cur := some ⟨⟨0, 0⟩, 7, .single, schedOf 0⟩ }

/-- The surroundings of the word under way in `twins`. -/
def twinsEnv : Env :=
  ⟨⟨⟨0, 0⟩, 7, .single, schedOf 0⟩, placedFrag, placedPool, placedPond, placedBlock, placedLaunch, placedContext, 0, twins.threads⟩

/-- PSET of p0 for every active thread. -/
def setP0 : Instr := .pset .always false .lit .lit 1

theorem issues_twins : Issues twins twinsEnv setP0 := ⟨by decide +kernel, by decide +kernel, by decide +kernel⟩

/-- The predicates of the threads after a step that leads to a state. -/
def predsAfter : Host.Outcome State Fault Refusal → List (BitVec 64)
  | .next t => t.threads.map Thread.preds
  | _ => []

/-- After PSET of p0 in `twins` both threads hold the predicates of the first: the second has lost p40. -/
theorem predsAfter_twins : predsAfter (exec setP0 twins) = [1, 1] := by decide +kernel

/-- Refutes O1: PSET (R143) computes the 64 predicates that it writes from those of the first active thread of a name, and the statement ranges over
states in which two threads share a name. In `twins` PSET of p0 clears p40 of the second thread, which the word does not name. Where no two threads
share a name the statement holds: `registerWord_keeps`. -/
theorem not_registerWordsComplete : ¬ Obligations.RegisterWordsComplete := by
  intro hall
  obtain ⟨t, ht, hk⟩ := hall twins twinsEnv setP0 rfl issues_twins
  have hp := predsAfter_twins
  rw [ht] at hp
  have hths : List.Forall₂ _ [placedThread, { placedThread with preds := BitVec.twoPow 64 40 }] t.threads := hk.threads
  simp only [predsAfter] at hp
  generalize t.threads = l at hths hp
  obtain _ | ⟨-, _ | ⟨hy, -⟩⟩ := hths
  simp only [List.map_cons, List.cons.injEq] at hp
  have h40 := hy.preds 40 (by decide)
  rw [hp.2.1] at h40
  exact absurd h40 (by decide)

end Sys2Proof.Machine
end

section
/-! O9. Its clauses on `.ftz` leave the hash of SR unbounded, where R88 gives a 32-bit one: at 2^32 SR rounds an exact value up. -/

namespace Sys2Proof.Machine

/-- 2^−14 × (1 − 1/8), the largest E5M2 magnitude below the smallest normal with the exponent range unbounded, written with one more bit than E5M2
keeps, so that SR consults the hash. -/
def belowNormal : FVal := .num false 14 (-18) false

theorem belowNormal_rat : belowNormal.rat = (2 : ℚ) ^ (elemFmt .e5m2x4).emin * (1 - 1 / 2 ^ ((elemFmt .e5m2x4).fb + 1)) := by
  have hmin : (elemFmt .e5m2x4).emin = -14 := rfl
  have hfb : (elemFmt .e5m2x4).fb = 2 := rfl
  simp only [belowNormal, FVal.rat, hmin, hfb]
  norm_num

theorem belowNormal_rat_pos : 0 < belowNormal.rat := by
  simp only [belowNormal, FVal.rat]
  norm_num

/-- Under a hash of 2^32 the value rounds to the smallest normal and is not flushed. -/
theorem roundTo_belowNormal : roundTo e5m2 .sr true false (2 ^ 32) belowNormal = (4, { nx := true }) := by decide +kernel

/-- Refutes O9: its third clause says of every hash `h` that a value of at most 2^emin × (1 − 2^−(fb + 1)) becomes a zero under `.ftz`, but unlike the
clauses before and after it does not ask that `h < 2 ^ 32`. At `h = 2 ^ 32` SR carries even where no discarded bit is set, and `belowNormal` becomes the
smallest normal. R88 makes no such hash: the model's `srHash` stays below 2^32. -/
theorem not_roundingIsCorrect : ¬ Obligations.RoundingIsCorrect := by
  rintro ⟨-, -, hflush, -⟩
  obtain ⟨-, htiny, -, -⟩ := hflush .e5m2x4 .sr false (2 ^ 32) false 14 (-18)
  have hflushed := (htiny belowNormal_rat_pos.ne' ((abs_of_pos belowNormal_rat_pos).trans_le belowNormal_rat.le)).1
  exact absurd (roundTo_belowNormal.symm.trans hflushed) (by decide)

end Sys2Proof.Machine
end

section
/-! O24. Every move that a state offers leads on. -/

namespace Sys2Proof.Machine

/-- The chosen move is one of those on offer. -/
theorem choose_mem {s : State} {ms : List Move} {m : Move} {rest : List Nat} (h : choose s ms = (some m, rest)) : m ∈ ms := by
  unfold choose at h
  split at h
  · exact List.mem_of_mem_head? (Prod.mk.inj h).1
  · exact List.mem_of_getElem? (Prod.mk.inj h).1

/-- A state offers only moves that it enables: the input that lands, the words in turn, and the events and moves of its own. -/
theorem enabled_of_mem_moves {s : State} {m : Move} (h : m ∈ moves s) : enabled s m = true := by
  unfold moves at h
  rcases List.mem_append.1 h with h | h
  · rcases List.mem_append.1 h with h | h
    · exact (List.mem_filter.1 h).2
    · obtain ⟨f, hf, rfl⟩ := List.mem_map.1 h
      exact (Bool.and_eq_true_iff.1 (List.mem_filter.1 hf).2).1
  · exact (List.mem_filter.1 h).2

/-- An enabled move leads to a state. -/
theorem run_of_enabled {s : State} {m : Move} (h : enabled s m = true) : ∃ t, run s m = .next t := by
  unfold enabled at h
  split at h
  · exact ⟨_, ‹_›⟩
  · cases h

/-- Settles O24: the chosen move is on offer, what is on offer is enabled, and a part in which nothing moves stays as it is. -/
theorem everyStepLeadsOn : Obligations.EveryStepLeadsOn := by
  intro s
  unfold Runs step stepPart
  split
  · exact ⟨_, rfl⟩
  · next m rest hm =>
    obtain ⟨t, ht⟩ := run_of_enabled (enabled_of_mem_moves (choose_mem hm))
    exact ⟨_, by rw [ht]⟩

end Sys2Proof.Machine
end

section
/-! O53. Its clause on the round leaves room for an empty write at the first byte of host memory, which the commit performs there. -/

namespace Sys2Proof.Machine

/-- A walk depends on memory as its homes hold it, on damaged lines and on which addresses are populated. -/
theorem walkFrom_of_homeByte {s x : State} (hb : x.badLines = s.badLines) (hh : x.host = s.host) (hm : ∀ a, homeByte x a = homeByte s a) (va : Nat) :
    ∀ ls tab, walkFrom x va ls tab = walkFrom s va ls tab
  | [], _ => rfl
  | (lvl, idx) :: r, tab => by
    have hbytes : ∀ n a, homeBytes x a n = homeBytes s a n := by
      intro n
      induction n with
      | zero => exact fun _ => rfl
      | succ n ih => exact fun a => by rw [homeBytes, homeBytes, hm, ih]
    have howner : ∀ a, ownAddr x a = ownAddr s a := fun a => by simp only [ownAddr, hh]
    have hpop : ∀ a, populated x a = populated s a := fun a => by simp only [populated, feature, hh]
    rw [walkFrom, homeValue, howner, hbytes, hpop, hb, walkFrom_of_homeByte hb hh hm va r, walkFrom, homeValue]

/-- So does the translation of an access of the device to an area. -/
theorem checkXlat_of_homeByte {s x : State} (hb : x.badLines = s.badLines) (hh : x.host = s.host) (hm : ∀ a, homeByte x a = homeByte s a) (c : Ctx)
    (va n : Nat) : checkXlat x none c false ⟨0, va, n, .store, false, false⟩ = checkXlat s none c false ⟨0, va, n, .store, false, false⟩ := by
  have howner : ∀ a, ownAddr x a = ownAddr s a := fun a => by simp only [ownAddr, hh]
  have hpop : ∀ a, populated x a = populated s a := fun a => by simp only [populated, feature, hh]
  simp only [checkXlat, xlat, walk, Option.bind_none, walkFrom_of_homeByte hb hh hm, howner, hpop, hh, Bool.false_and, heldPeer]

/-- A page table of one leaf, which maps the first GiB to itself, readable and writable. -/
def oneLeaf : List Host.Cell :=
  putBytes (putBytes (putBytes [] 0x20000 (leBytes 8 0x22001)) 0x22000 (leBytes 8 0x24001)) 0x24000 (leBytes 8 (2 ^ 59 + 0x17))

/-- A released cached store of no bytes at the first address of host memory. -/
def emptyStore : BufEntry :=
  ⟨1, 0, Config.hostBase, true, [], none, none, none, ⟨0, 0⟩, 3, ⟨1, 0, 0, 0, ⟨0, 0⟩, 0, 1, 0, placedAt, 0, 0, 0, false⟩, true, []⟩

/-- A still launch of one block. -/
def loneLaunch : Launch := { placedLaunch with kernel := { placedKernel with still := true } }

/-- Its round may commit that store alone, while the device holds a dirty copy of the host line at that address. -/
def loneRound : State := { placed State.reset [] with
  mem := oneLeaf
  hostLines := [⟨lineOf Config.hostBase, List.replicate 128 1, true, [1]⟩]
  launches := [loneLaunch]
  blocks := [{ placedBlock with buffer := [emptyStore] }]
  pools := []
  frags := []
  threads := [] }

theorem roundWrites_loneRound : roundWrites loneRound loneLaunch = [emptyStore] := by decide +kernel

/-- A store of no bytes alters nothing. -/
theorem not_alters_emptyStore (a : Nat) : ¬emptyStore.alters a := fun h => absurd h.1 (by simp only [BufEntry.hits, emptyStore, List.length_nil]; omega)

theorem loneRound_translates :
    (match checkXlat loneRound none placedContext false ⟨0, roundHeader placedContext 0 + 28, 8, .store, false, false⟩ with
      | .ok p => p.1 == 0x30041C
      | .error _ => false) = true := by decide +kernel

/-- The round satisfies every hypothesis of the clause. -/
theorem plainRound_loneRound : PlainRound loneRound loneLaunch placedContext 0x30041C where
  inside := by intro b hb _; obtain rfl := List.mem_singleton.1 hb; exact ⟨rfl, rfl⟩
  shared := by intro y hy; exact absurd hy List.not_mem_nil
  writes := by
    intro x hx
    rw [roundWrites_loneRound] at hx
    obtain rfl := List.mem_singleton.1 hx
    exact ⟨rfl, le_rfl, by decide +kernel, fun _ _ _ _ _ h => by cases h⟩
  number := by
    intro x hx hm
    have hbyte : ∀ a, homeByte x a = homeByte loneRound a := fun a => by
      unfold homeByte hostLine
      rw [show x.hostLines = loneRound.hostLines by rw [hx], hm a fun y hy => by
        rw [roundWrites_loneRound] at hy
        obtain rfl := List.mem_singleton.1 hy
        exact not_alters_emptyStore a]
    refine ⟨fun i hi => ?_, fun i _ => ?_, by decide, by decide, by rw [hx]; rfl, ?_⟩
    · obtain rfl : i = 0 := by omega
      rw [checkXlat_of_homeByte (s := loneRound) (by rw [hx]) (by rw [hx]) hbyte]
      have hpa := loneRound_translates
      split at hpa
      · next p hp => exact ⟨p.2, hp.trans (by rw [← beq_iff_eq.1 hpa, Nat.mul_zero, Nat.add_zero])⟩
      · cases hpa
    · rw [show x.badLines = [] by rw [hx]; rfl]; exact List.not_mem_nil
    · intro h hl
      rw [show x.hostLines = loneRound.hostLines by rw [hx]] at hl
      obtain rfl := List.mem_singleton.1 hl
      decide +kernel

/-- A byte of memory after a step that leads to a state. -/
def byteAfter (a : Nat) : Host.Outcome State Fault Refusal → Option Byte
  | .next t => some (byteAt t.mem a)
  | _ => none

/-- The commit writes the dirty line back, as the entry has been released at sy scope. -/
theorem byteAfter_loneRound :
    byteAt loneRound.mem Config.hostBase = 0 ∧ byteAfter Config.hostBase (exec (.roundCommit 0) loneRound) = some 1 := by decide +kernel

/-- Refutes O53: its clause on the commit of a round lets a buffered write end at the first byte of host memory (`x.pa + x.bytes.length ≤ Config.hostBase`),
so an empty write may stand there. In `loneRound` the only write is such a one, cached and released at sy scope (R304); the commit writes the dirty host
line behind its address back to host memory, and byte `Config.hostBase` changes from 0 to 1 although no write of the round alters it. No word of the part
buffers an empty write. -/
theorem not_launchesRun : ¬ Obligations.LaunchesRun := by
  rintro ⟨-, -, -, -, -, -, -, hround, -⟩
  obtain ⟨t, ht, -, -, -, hmem⟩ := hround loneRound loneLaunch placedContext rfl rfl rfl rfl rfl (by decide +kernel)
  obtain ⟨hbefore, hafter⟩ := byteAfter_loneRound
  rw [show exec (.roundCommit 0) loneRound = .next t from ht] at hafter
  have hkeeps := (hmem 0x30041C plainRound_loneRound).2 Config.hostBase (by decide)
  have hsame := hkeeps.1 fun y hy => by
    rw [roundWrites_loneRound] at hy
    obtain rfl := List.mem_singleton.1 hy
    exact not_alters_emptyStore _
  rw [Option.some.inj hafter, hbefore] at hsame
  exact absurd hsame (by decide)

end Sys2Proof.Machine
end

section
/-! SUPPORT. The list helpers of the model: stable sorting, lists without repeats, groups, and the lowest free number. -/

namespace Sys2Proof.Machine

variable {α : Type}

theorem insertBy_perm (key : α → Nat) (x : α) : ∀ l, (insertBy key x l).Perm (x :: l)
  | [] => .refl _
  | y :: r => by
    unfold insertBy
    split
    · exact .refl _
    · exact ((insertBy_perm key x r).cons y).trans (.swap x y r)

theorem sortBy_perm (key : α → Nat) (l : List α) : (sortBy key l).Perm l := by
  have go : ∀ (l acc : List α), (l.foldl (fun acc x => insertBy key x acc) acc).Perm (acc ++ l) := by
    intro l
    induction l with
    | nil => exact fun acc => by simp
    | cons x r ih => exact fun acc => (ih _).trans (((insertBy_perm key x acc).append_right r).trans List.perm_middle.symm)
  exact go l []

@[simp] theorem mem_sortBy {key : α → Nat} {x : α} {l : List α} : x ∈ sortBy key l ↔ x ∈ l := (sortBy_perm key l).mem_iff

/-- In the order of `key`, and in an order `R` where `key` does not tell. -/
def keyOrder (key : α → Nat) (R : α → α → Prop) (x y : α) : Prop := key x < key y ∨ key x = key y ∧ R x y

theorem keyOrder.le {key : α → Nat} {R : α → α → Prop} {x y : α} (h : keyOrder key R x y) : key x ≤ key y := by
  rcases h with h | h <;> omega

theorem insertBy_ordered {key : α → Nat} {R : α → α → Prop} {x : α} :
    ∀ {l : List α}, l.Pairwise (keyOrder key R) → (∀ y ∈ l, R y x) → (insertBy key x l).Pairwise (keyOrder key R)
  | [], _, _ => List.pairwise_singleton _ _
  | y :: r, h, hx => by
    obtain ⟨hy, hr⟩ := List.pairwise_cons.1 h
    unfold insertBy
    split
    · next hlt =>
      refine List.pairwise_cons.2 ⟨fun z hz => .inl ?_, h⟩
      rcases List.mem_cons.1 hz with rfl | hz
      · exact hlt
      · exact hlt.trans_le (hy z hz).le
    · next hge =>
      refine List.pairwise_cons.2 ⟨fun z hz => ?_, insertBy_ordered hr fun z hz => hx z (List.mem_cons_of_mem _ hz)⟩
      rcases List.mem_cons.1 ((insertBy_perm key x r).mem_iff.1 hz) with rfl | hz
      · exact (Nat.lt_or_eq_of_le (Nat.le_of_not_lt hge)).imp id fun he => ⟨he, hx y List.mem_cons_self⟩
      · exact hy z hz

/-- Sorting is stable. -/
theorem sortBy_ordered (key : α → Nat) {R : α → α → Prop} {l : List α} (h : l.Pairwise R) : (sortBy key l).Pairwise (keyOrder key R) := by
  have go : ∀ (l acc : List α), l.Pairwise R → acc.Pairwise (keyOrder key R) → (∀ y ∈ acc, ∀ x ∈ l, R y x) →
      (l.foldl (fun acc x => insertBy key x acc) acc).Pairwise (keyOrder key R) := by
    intro l
    induction l with
    | nil => exact fun acc _ h _ => h
    | cons x r ih =>
      intro acc hl hacc hR
      obtain ⟨hx, hr⟩ := List.pairwise_cons.1 hl
      refine ih _ hr (insertBy_ordered hacc fun y hy => hR y hy x List.mem_cons_self) fun y hy z hz => ?_
      rcases List.mem_cons.1 ((insertBy_perm key x acc).mem_iff.1 hy) with rfl | hy
      · exact hx z hz
      · exact hR y hy z (List.mem_cons_of_mem _ hz)
  exact go l [] h List.Pairwise.nil (by simp)

theorem sortBy_sorted (key : α → Nat) (l : List α) : (sortBy key l).Pairwise (fun x y => key x ≤ key y) :=
  (sortBy_ordered key (List.pairwise_of_forall (R := fun _ _ => True) fun _ _ => trivial)).imp keyOrder.le

@[simp] theorem mem_distinct [DecidableEq α] {x : α} {l : List α} : x ∈ distinct l ↔ x ∈ l := by
  have go : ∀ (l acc : List α), x ∈ l.foldl (fun acc y => if acc.contains y then acc else acc ++ [y]) acc ↔ x ∈ acc ∨ x ∈ l := by
    intro l
    induction l with
    | nil => simp
    | cons y r ih =>
      intro acc
      rw [List.foldl_cons, ih]
      split
      · next hy =>
        have hy := List.contains_iff_mem.1 hy
        simp only [List.mem_cons]
        exact ⟨Or.imp_right .inr, fun h => h.elim .inl (Or.elim · (fun he => .inl (he ▸ hy)) .inr)⟩
      · simp [or_assoc]
  exact (go l []).trans (by simp)

/-- The first group of a list that is cut up at least once. -/
theorem chunks_eq_cons (n : Nat) {fuel : Nat} {l : List α} (hf : fuel ≠ 0) (hl : l ≠ []) :
    ∃ rest, chunks n fuel l = l.take n :: rest := by
  obtain ⟨fuel, rfl⟩ := Nat.exists_eq_succ_of_ne_zero hf
  obtain ⟨x, r, rfl⟩ := List.exists_cons_of_ne_nil hl
  exact ⟨_, rfl⟩

/-- The lowest free number lies in the range looked through, is free, and has only used ones below it. -/
theorem lowestFree_eq_some {used : List Nat} {fuel lo n : Nat} (h : lowestFree used fuel lo = some n) :
    n < lo + fuel ∧ n ∉ used ∧ ∀ m, lo ≤ m → m < n → m ∈ used := by
  induction fuel generalizing lo with
  | zero => cases h
  | succ fuel ih =>
    unfold lowestFree at h
    split at h
    · next hlo =>
      obtain ⟨hlt, hfree, hbelow⟩ := ih h
      refine ⟨by omega, hfree, fun m hm hn => ?_⟩
      rcases Nat.eq_or_lt_of_le hm with rfl | hm
      · exact List.contains_iff_mem.1 hlo
      · exact hbelow m hm hn
    · next hlo =>
      obtain rfl := Option.some.inj h
      exact ⟨by omega, by simpa using hlo, fun m hm hn => by omega⟩

end Sys2Proof.Machine
end

section
/-! O52, the draws that stand before a pond (R45, R46). -/

namespace Sys2Proof.Machine

variable {s : State}

theorem mem_wellThreads {pd key : Nat} {kind : WellKind} {u : Thread} :
    u ∈ wellThreads s pd kind key ↔ u ∈ s.threads ∧ u.pond = pd ∧ u.place = .well kind key := by
  simp [wellThreads]

theorem wellThreads_sorted (pd key : Nat) (kind : WellKind) : (wellThreads s pd kind key).Pairwise (fun u v => u.tid ≤ v.tid) :=
  sortBy_sorted _ _

/-- A pond has the wells that hold a thread of it. -/
theorem mem_wellsOf {pd key : Nat} {kind : WellKind} : (kind, key) ∈ wellsOf s pd ↔ wellThreads s pd kind key ≠ [] := by
  rw [← List.length_pos_iff, List.length_pos_iff_exists_mem]
  simp only [wellsOf, mem_sortBy, mem_distinct, List.mem_filterMap, List.mem_filter, mem_wellThreads, beq_iff_eq, and_assoc]
  exact exists_congr fun u => and_congr_right fun _ => and_congr_right fun _ => by cases u.place <;> simp

/-- Wells stand in ascending address, and launch before spawn before reform (R45). -/
theorem wellsOf_ordered (s : State) (pd : Nat) : (wellsOf s pd).Pairwise (keyOrder Prod.snd fun x y => wellOrder x.1 ≤ wellOrder y.1) :=
  sortBy_ordered _ (sortBy_sorted _ _)

/-- The wells of a pond whose draws an occasion sets now: those that are full or have aged, and in a quiescent pond all (R45, R46). -/
def dueWells (s : State) (a : DrawAt) : List (WellKind × Nat) :=
  (wellsOf s a.d.id).filter (fun w => !(a.d.unset s w.1 w.2).isEmpty &&
    (quiescent s a.d.id || (!a.l.kernel.still && (decide (a.d.grant ≤ (a.d.unset s w.1 w.2).length) || a.d.expired.contains w))))

theorem drawsDue_eq (s : State) (a : DrawAt) :
    drawsDue s a = a.d.draining ++ (dueWells s a).flatMap (a.d.drawsOf s a.l.kernel.still) := rfl

theorem unset_of_no_draw {d : Pond} (h : d.draining = []) (kind : WellKind) (key : Nat) : d.unset s kind key = wellThreads s d.id kind key := by
  simp [Pond.unset, h]

theorem drawCount_ne_zero (still : Bool) (kind : WellKind) (g : Nat) {n : Nat} (hn : n ≠ 0) : drawCount still kind g n ≠ 0 := by
  unfold drawCount
  split <;> omega

theorem of_mem_drawsOf {d : Pond} {still : Bool} {k : WellKind × Nat} {w : Draw} (h : w ∈ d.drawsOf s still k) : w.kind = k.1 ∧ w.key = k.2 := by
  obtain ⟨l, _, rfl⟩ := List.mem_map.1 h
  exact ⟨rfl, rfl⟩

/-- The first draw of a well that holds an unset thread takes its lowest threads, up to the grant. -/
theorem drawsOf_eq_cons {d : Pond} (still : Bool) {k : WellKind × Nat} (h : d.unset s k.1 k.2 ≠ []) :
    ∃ rest, d.drawsOf s still k = ⟨k.1, k.2, ((d.unset s k.1 k.2).take d.grant).map Thread.tid⟩ :: rest := by
  have hts : (d.unset s k.1 k.2).map Thread.tid ≠ [] := by simpa using h
  obtain ⟨rest, hrest⟩ := chunks_eq_cons d.grant (drawCount_ne_zero still k.1 d.grant (List.length_pos_iff.2 hts).ne') hts
  exact ⟨rest.map _, by rw [Pond.drawsOf, hrest, List.map_cons, List.map_take]⟩

/-- A well whose draws an occasion sets holds an unset thread. -/
theorem unset_of_mem_dueWells {a : DrawAt} {k : WellKind × Nat} (h : k ∈ dueWells s a) : a.d.unset s k.1 k.2 ≠ [] := by
  simpa using (Bool.and_eq_true_iff.1 (List.mem_filter.1 h).2).1

/-- Where no draw has been set, a draw of a well stands before the pond when the well is due. -/
theorem exists_mem_drawsDue {a : DrawAt} (hd : a.d.draining = []) {kind : WellKind} {key : Nat} :
    (∃ w ∈ drawsDue s a, w.kind = kind ∧ w.key = key) ↔ (kind, key) ∈ dueWells s a := by
  rw [drawsDue_eq, hd, List.nil_append]
  constructor
  · rintro ⟨w, hw, rfl, rfl⟩
    obtain ⟨k, hk, hw⟩ := List.mem_flatMap.1 hw
    obtain ⟨h1, h2⟩ := of_mem_drawsOf hw
    rwa [h1, h2]
  · intro hk
    obtain ⟨rest, hrest⟩ := drawsOf_eq_cons a.l.kernel.still (unset_of_mem_dueWells hk)
    exact ⟨_, List.mem_flatMap.2 ⟨_, hk, by rw [hrest]; exact List.mem_cons_self⟩, rfl, rfl⟩

/-- Where no draw has been set, a well that holds threads is due in a quiescent pond, and outside still mode once it is full or has aged. -/
theorem mem_dueWells {a : DrawAt} (hd : a.d.draining = []) {kind : WellKind} {key : Nat} (h : wellThreads s a.d.id kind key ≠ []) :
    (kind, key) ∈ dueWells s a ↔ quiescent s a.d.id = true ∨
      (a.l.kernel.still = false ∧ (a.d.grant ≤ (wellThreads s a.d.id kind key).length ∨ (kind, key) ∈ a.d.expired)) := by
  simp [dueWells, mem_wellsOf, unset_of_no_draw hd, h]

/-- The draws that an occasion sets stand in the order of their wells. -/
theorem drawsDue_ordered {a : DrawAt} (hd : a.d.draining = []) :
    (drawsDue s a).Pairwise (fun x y => x.key < y.key ∨ (x.key = y.key ∧ wellOrder x.kind ≤ wellOrder y.kind)) := by
  rw [drawsDue_eq, hd, List.nil_append, List.pairwise_flatMap]
  constructor
  · intro k _
    refine List.Pairwise.imp_of_mem (R := fun _ _ => True) (fun hx hy _ => ?_) (List.pairwise_of_forall fun _ _ => trivial)
    obtain ⟨hx1, hx2⟩ := of_mem_drawsOf hx
    obtain ⟨hy1, hy2⟩ := of_mem_drawsOf hy
    exact .inr ⟨hx2.trans hy2.symm, by rw [hx1, hy1]⟩
  · refine ((wellsOf_ordered s a.d.id).filter _).imp fun hkk x hx y hy => ?_
    obtain ⟨hx1, hx2⟩ := of_mem_drawsOf hx
    obtain ⟨hy1, hy2⟩ := of_mem_drawsOf hy
    rwa [hx1, hx2, hy1, hy2]

/-- The first of them takes the lowest threads of its well up to the grant. -/
theorem head_drawsDue {a : DrawAt} (hd : a.d.draining = []) {w : Draw} (h : (drawsDue s a).head? = some w) :
    w.tids = ((wellThreads s a.d.id w.kind w.key).take a.d.grant).map Thread.tid := by
  rw [drawsDue_eq, hd, List.nil_append] at h
  cases hk : dueWells s a with
  | nil => rw [hk] at h; cases h
  | cons k ks =>
    obtain ⟨rest, hrest⟩ := drawsOf_eq_cons (d := a.d) (s := s) a.l.kernel.still (unset_of_mem_dueWells (hk ▸ List.mem_cons_self : k ∈ dueWells s a))
    rw [hk, List.flatMap_cons, hrest] at h
    obtain rfl := Option.some.inj h
    rw [unset_of_no_draw hd]

end Sys2Proof.Machine
end

section
/-! O52, one draw (R47) and the grant that it pays (R228). -/

namespace Sys2Proof.Machine

variable {s : State}

/-- What a pond that may draw has (R47, R371). -/
theorem drawAt_eq_some {pd : Nat} {a : DrawAt} (h : drawAt s pd = some a) :
    a.d.id = pd ∧ lowestFree (usedPools s a.core) Config.poolsPerCore 0 = some a.num := by
  unfold drawAt at h
  simp only [Option.bind_eq_bind, Option.bind_eq_some_iff] at h
  obtain ⟨d, hd, core, _, b, _, l, _, c, _, num, hnum, h⟩ := h
  split at h
  · obtain rfl := Option.some.inj h
    exact ⟨by simpa using List.find?_some hd, hnum⟩
  · cases h

/-- The threads of a well that a draw takes. -/
def Draw.takes (w : Draw) (s : State) (pd : Nat) : List Thread :=
  (wellThreads s pd w.kind w.key).filter (fun u => decide (u.tid ∈ w.tids))

/-- A thread once the threads of a new pool have their lanes, from lane `i` up. -/
def seatOf (p : Nat) : List Thread → Nat → Thread → Thread
  | [], _, x => x
  | t :: r, i, x => seatOf p r (i + 1) (if x.ref == t.ref then { x with place := .lane p 0 i } else x)

theorem seat_eq (p : Nat) : ∀ (ts : List Thread) (i : Nat) (s : State), seat s p ts i = { s with threads := s.threads.map (seatOf p ts i) }
  | [], i, s => by simp [seat, seatOf]
  | t :: r, i, s => by
    rw [seat, seat_eq p r (i + 1)]
    simp only [updThread, updThreads, updWhere, List.map_map]
    rfl

/-- Seating changes the place of a thread alone. -/
theorem seatOf_rest (p : Nat) : ∀ (ts : List Thread) (i : Nat) (x : Thread), seatOf p ts i x = { x with place := (seatOf p ts i x).place }
  | [], _, _ => rfl
  | t :: r, i, x => by
    rw [seatOf, seatOf_rest p r (i + 1)]
    split <;> rfl

theorem seatOf_of_ne {p : Nat} : ∀ {ts : List Thread} {i : Nat} {x : Thread}, (∀ t ∈ ts, t.ref ≠ x.ref) → seatOf p ts i x = x
  | [], _, _, _ => rfl
  | t :: r, i, x, h => by
    have ht : (x.ref == t.ref) = false := beq_false_of_ne (h t List.mem_cons_self).symm
    rw [seatOf, ht]
    exact seatOf_of_ne fun y hy => h y (List.mem_cons_of_mem _ hy)

/-- A thread whose name stands in one place of the list takes the lane of that place. -/
theorem seatOf_of_split {p : Nat} {u : Thread} {post : List Thread} (hpost : ∀ t ∈ post, t.ref ≠ u.ref) :
    ∀ {pre : List Thread} {i : Nat}, (∀ t ∈ pre, t.ref ≠ u.ref) → seatOf p (pre ++ u :: post) i u = { u with place := .lane p 0 (i + pre.length) }
  | [], i, _ => by
    rw [List.nil_append, seatOf, beq_self_eq_true, if_pos rfl]
    exact seatOf_of_ne hpost
  | t :: r, i, h => by
    have ht : (u.ref == t.ref) = false := beq_false_of_ne (h t List.mem_cons_self).symm
    rw [List.cons_append, seatOf, ht, if_neg (by decide), seatOf_of_split hpost fun y hy => h y (List.mem_cons_of_mem _ hy), List.length_cons]
    simp only [Nat.add_assoc, Nat.add_comm 1]

/-- The threads that a draw takes are threads of the state, each as often as it stands there. -/
theorem takes_subperm (w : Draw) (s : State) (pd : Nat) : (w.takes s pd).Subperm s.threads :=
  List.filter_sublist.subperm.trans ((sortBy_perm _ _).subperm.trans List.filter_sublist.subperm)

/-- The only thread of its name stands once among those that a draw takes. -/
theorem Sole.ne_of_split {u : Thread} (h : Sole s u) {ts pre post : List Thread} (hts : ts.Subperm s.threads) (hsplit : ts = pre ++ u :: post) :
    (∀ t ∈ pre, t.ref ≠ u.ref) ∧ ∀ t ∈ post, t.ref ≠ u.ref := by
  have hlen := (hts.filter (fun x => x.ref == u.ref)).length_le
  rw [show s.threads.filter (fun x => x.ref == u.ref) = [u] from h, hsplit, List.filter_append, List.filter_cons_of_pos (by simp)] at hlen
  simp only [List.length_append, List.length_cons, List.length_nil] at hlen
  have hnone : ∀ l : List Thread, (l.filter (fun x => x.ref == u.ref)).length = 0 → ∀ t ∈ l, t.ref ≠ u.ref := fun l hl t ht he =>
    List.ne_nil_of_mem (List.mem_filter.2 ⟨ht, by simpa using he⟩) (List.length_eq_zero_iff.1 hl)
  exact ⟨hnone _ (by omega), hnone _ (by omega)⟩

theorem Sole.mem {u : Thread} (h : Sole s u) : u ∈ s.threads :=
  (List.mem_filter.1 (show u ∈ s.threads.filter (fun x => x.ref == u.ref) by rw [show _ = [u] from h]; exact List.mem_singleton.2 rfl)).1

/-- Every thread of a name that only one has is that one. -/
theorem Sole.eq {u x : Thread} (h : Sole s u) (hx : x ∈ s.threads) (he : x.ref = u.ref) : x = u :=
  List.mem_singleton.1 (show x ∈ [u] from h ▸ List.mem_filter.2 ⟨hx, by simpa using he⟩)

/-- The pool record of a new pool of a pond (R247). -/
def newRecord (s : State) (pd : Nat) : Nat := (lowestFree (usedRecords s pd) 64 0).getD 0

/-- The state in which the threads of a draw have their lanes in a new pool, before the grant is paid. -/
def drawnState (s : State) (a : DrawAt) (w : Draw) (rest : List Draw) : State :=
  let ts := w.takes s a.d.id
  { s with
    threads := s.threads.map (seatOf s.nextId ts 0)
    frags := s.frags ++ [⟨s.nextId, 0, 0, 1, w.key, [], [], 0, .free, false, arrive a.c false false w.key, 0, 0, false, none,
      pendingNames (ts.map (fun t => { t with marks := t.marks.filter (fun m => t.setw.all (fun x => x.wid != m.wid)) }))⟩]
    pools := s.pools ++ [⟨s.nextId, a.num, newRecord s a.d.id, a.d.id, a.d.grant, [], [], [], none, 0⟩]
    ponds := updWhere (fun x => x.id == a.d.id) (fun d => { d with expired := d.expired.filter (· != (w.kind, w.key)) })
      (updWhere (fun x => x.id == a.d.id) (fun d => { d with draining := rest }) s.ponds)
    nextId := s.nextId + 1 }

theorem first_cons (a : DrawAt) (s : State) (w : Draw) (rest : List Draw) :
    a.first s (w :: rest) = payGrant (drawnState s a w rest) a.l.kernel.homeMap a.d.grant (w.takes s a.d.id) := by
  have htakes : ∀ l : List Thread, l.filter (fun t => w.tids.contains t.tid) = l.filter (fun u => decide (u.tid ∈ w.tids)) := fun l =>
    List.filter_congr fun t _ => by simp
  simp only [DrawAt.first, DrawAt.draw, drawPool, takeId, seat_eq, htakes]
  rfl

/-- POOL_DRAW of the draw that comes first. -/
theorem exec_poolDraw {pd : Nat} {a : DrawAt} {w : Draw} (ha : drawAt s pd = some a) (hw : (drawsDue s a).head? = some w) :
    exec (.poolDraw pd w.kind w.key) s =
      .next (payGrant (drawnState s a w (drawsDue s a).tail) a.l.kernel.homeMap a.d.grant (w.takes s a.d.id)) := by
  obtain ⟨rest, hds⟩ : ∃ rest, drawsDue s a = w :: rest := ⟨_, List.eq_cons_of_mem_head? hw⟩
  show execPoolDraw pd w.kind w.key s = _
  simp [execPoolDraw, ha, hds, first_cons]

theorem firstSome_eq_none {α β : Type} {f : α → Option β} : ∀ {l : List α}, (∀ x ∈ l, f x = none) → firstSome f l = none
  | [], _ => rfl
  | x :: r, h => by
    rw [firstSome, h x List.mem_cons_self]
    exact firstSome_eq_none fun y hy => h y (List.mem_cons_of_mem _ hy)

/-- Where no drawn thread waits for a grant, none is paid. -/
theorem payGrant_of_none {hm g : Nat} {ts : List Thread} (h : ∀ u ∈ ts, u.setw = none) : payGrant s hm g ts = s := by
  rw [payGrant, firstSome_eq_none h]

/-- The ponds after a draw: the drawn well has no longer aged, and the draws behind it are set. -/
theorem drawnState_ponds (a : DrawAt) (w : Draw) (rest : List Draw) :
    List.Forall₂ (fun (d d' : Pond) => d' = { d with expired := d'.expired, draining := d'.draining } ∧ (d.id ≠ a.d.id → d' = d) ∧
      (d.id = a.d.id → d'.draining = rest ∧ (w.kind, w.key) ∉ d'.expired)) s.ponds (drawnState s a w rest).ponds := by
  simp only [drawnState, updWhere, List.map_map, List.forall₂_map_right_iff, Function.comp_def]
  refine forall₂_self _ fun d _ => ?_
  by_cases hd : d.id = a.d.id
  · simp [hd]
  · simp [hd]

/-- A drawn thread that is the only one of its name takes the lane of its place among them (R47). -/
theorem seatOf_takes {w : Draw} {pd p n : Nat} {u : Thread} (hn : (w.takes s pd)[n]? = some u) (hu : Sole s u) :
    seatOf p (w.takes s pd) 0 u = { u with place := .lane p 0 n } := by
  obtain ⟨hlt, hget⟩ := List.getElem?_eq_some_iff.1 hn
  obtain ⟨pre, post, hsplit, hlen⟩ : ∃ pre post, w.takes s pd = pre ++ u :: post ∧ pre.length = n :=
    ⟨(w.takes s pd).take n, (w.takes s pd).drop (n + 1), by rw [← hget, ← List.drop_eq_getElem_cons hlt, List.take_append_drop],
      List.length_take_of_le hlt.le⟩
  obtain ⟨hpre, hpost⟩ := hu.ne_of_split (takes_subperm w s pd) hsplit
  rw [hsplit, seatOf_of_split hpost hpre, hlen, Nat.zero_add]

theorem drawnState_seats {a : DrawAt} {w : Draw} {rest : List Draw} {n : Nat} {u : Thread} (hn : (w.takes s a.d.id)[n]? = some u) (hu : Sole s u) :
    { u with place := .lane s.nextId 0 n } ∈ (drawnState s a w rest).threads :=
  List.mem_map.2 ⟨u, hu.mem, seatOf_takes hn hu⟩

/-- The other threads stay as they are. -/
theorem drawnState_keeps {a : DrawAt} {w : Draw} {rest : List Draw} {u : Thread} (hu : u ∈ s.threads)
    (hne : ∀ x ∈ w.takes s a.d.id, x.ref ≠ u.ref) : u ∈ (drawnState s a w rest).threads :=
  List.mem_map.2 ⟨u, hu, seatOf_of_ne hne⟩

/-- The value of a uniform list is that of one of its writers. -/
theorem mem_of_uniform {vals : List (TRef × Word)} {v : Word} (h : uniform vals = some v) : ∃ q ∈ vals, q.2 = v := by
  unfold uniform at h
  split at h
  · cases h
  · next r v' rest =>
    split at h
    · exact ⟨_, List.mem_cons_self, Option.some.inj h⟩
    · cases h

/-- A full pool write of a producer goes to the pool of each of its writers, with a value of one (R71 item 2). -/
theorem fullCompletion_eq_some {n p : Nat} {pl : Bool} {vals : List (TRef × Nat × Word)} {v : Word} (h : fullCompletion s n pl vals = some (p, v)) :
    (∃ q ∈ vals, q.2.2 = v) ∧ ∀ t ∈ s.threads, (valOf vals t.ref).isSome = true → t.inPool p = true := by
  unfold fullCompletion at h
  simp only at h
  split at h
  · cases h
  split at h
  · cases h
  next p' hp =>
  obtain ⟨v', hv, heq⟩ := Option.map_eq_some_iff.1 h
  obtain ⟨rfl, rfl⟩ := Prod.mk.inj heq
  constructor
  · unfold fullWrite at hv
    split at hv
    · obtain ⟨q, hq, hqv⟩ := mem_of_uniform hv
      obtain ⟨q', hq', rfl⟩ := List.mem_map.1 hq
      exact ⟨q', (List.mem_filter.1 hq').1, hqv⟩
    · cases hv
  · intro t ht hvt
    have hlive : t ∈ s.threads.filter (fun t => (valOf vals t.ref).isSome) := List.mem_filter.2 ⟨ht, hvt⟩
    revert hlive hp
    generalize s.threads.filter (fun t => (valOf vals t.ref).isSome) = live
    intro hp hlive
    unfold commonPool at hp
    split at hp
    · cases hp
    next x r =>
    split at hp
    · cases hp
    next p0 hp0 =>
    split at hp
    · next hall =>
      obtain rfl := Option.some.inj hp
      rcases List.mem_cons.1 hlive with rfl | hlive
      · simp [Thread.inPool, hp0]
      · exact List.all_eq_true.1 hall t hlive
    · cases hp

/-- What the threads of a name have after an update that keeps names. -/
theorem updThreads_named {p : Thread → Bool} {f : Thread → Thread} {r : TRef} {P Q : Thread → Prop} {y : Thread}
    (hy : y ∈ (updThreads s p f).threads) (hyr : y.ref = r) (hf : ∀ x, (f x).ref = x.ref) (hP : ∀ x ∈ s.threads, x.ref = r → P x)
    (hQ : ∀ x, x.ref = r → P x → Q (if p x then f x else x)) : Q y := by
  obtain ⟨x, hx, rfl⟩ := List.mem_map.1 hy
  have hxr : x.ref = r := by
    rw [← hyr]
    split
    · exact (hf x).symm
    · rfl
  exact hQ x hxr (hP x hx hxr)

theorem valOf_map {β γ : Type} (vals : List (TRef × β)) (f : β → γ) (r : TRef) :
    valOf (vals.map (fun q => (q.1, f q.2))) r = (valOf vals r).map f := by
  simp only [valOf, List.find?_map, Option.map_map]
  rfl

theorem valOf_prop {β : Type} {vals : List (TRef × β)} {P : β → Prop} (h : ∀ q ∈ vals, P q.2) {r : TRef} {b : β} (hr : valOf vals r = some b) : P b := by
  obtain ⟨q, hq, rfl⟩ := Option.map_eq_some_iff.1 hr
  exact h q (List.mem_of_find?_eq_some hq)

/-- The pool of a number once it has a copy of a register. -/
theorem pool_of_copied {t : State} {p n : Nat} {v : Word} {p0 : Pool} (ht : t.pools = updWhere (fun x => x.id == p) (fun q => q.setCopy n v) s.pools)
    (hp : pool s p = some p0) : pool t p = some (p0.setCopy n v) := by
  have h := pool_updPool s p (fun q => q.setCopy n v) fun _ => rfl
  rw [hp] at h
  rwa [pool, ht]

/-- After a producer's layered write of one value that nothing has overtaken, each writer in a pool that stands reads it (R71). -/
theorem completeWrites_reads {n p : Nat} {pl : Bool} {vals : List (TRef × Nat × Word)} {v : Word} {r : TRef} {d : Pond} {p0 : Pool}
    (hpool : pool s p = some p0) (hvals : ∀ q ∈ vals, q.2.2 = v) (hgo : ∀ q ∈ vals, (thread s q.1).any (fun t => !t.overtaken n q.2.1) = true)
    (hr : (valOf vals r).isSome = true) (hin : ∀ y ∈ s.threads, y.ref = r → y.inPool p = true) :
    ∀ y ∈ (completeWrites s n pl vals).threads, y.ref = r → resolve (pool (completeWrites s n pl vals) p) d y n .res = v := by
  have hfilter : vals.filter (fun q => (thread s q.1).any (fun t => !t.overtaken n q.2.1)) = vals := List.filter_eq_self.2 hgo
  have hne : vals.isEmpty = false := by
    obtain ⟨q, hq, -⟩ := valOf_mem hr
    cases vals with
    | nil => cases hq
    | cons => rfl
  obtain ⟨q, hq⟩ := Option.isSome_iff_exists.1 hr
  have hqv : q.2 = v := valOf_prop (P := fun b => b.2 = v) hvals hq
  intro y hy hyr
  unfold completeWrites at hy ⊢
  simp only [hfilter, hne, Bool.false_eq_true, if_false] at hy ⊢
  cases hf : fullCompletion s n pl vals with
  | none =>
    simp only [hf] at hy ⊢
    have hspring : mapGet y.springs n = some v := by
      refine updThreads_named (P := fun x => mapGet x.springs n = some v) (Q := fun x => mapGet x.springs n = some v) hy hyr (fun _ => rfl) (fun x hx hxr => ?_) fun x _ hx => ?_
      · refine updThreads_named (P := fun _ => True) (Q := fun x => mapGet x.springs n = some v) hx hxr (fun _ => rfl) (fun _ _ _ => trivial) fun x hxr _ => ?_
        simp [valOf_map, hxr, hq, hqv, Thread.setSpring]
      · split
        · exact hx
        · exact hx
    simp [resolve, pickCopy, hspring]
  | some pv =>
    obtain ⟨p', v'⟩ := pv
    obtain ⟨⟨q', hq', rfl⟩, hall⟩ := fullCompletion_eq_some hf
    have hlate : ∀ o : Option (Nat × Word), (o.isSome && o.isNone) = false := fun o => by cases o <;> rfl
    simp only [hf, hvals q' hq', hlate, Bool.false_eq_true, if_false] at hy ⊢
    obtain ⟨hp, hspring⟩ : p' = p ∧ mapGet y.springs n = none := by
      refine updThreads_named (P := fun x => p' = p ∧ mapGet x.springs n = none) (Q := fun x => p' = p ∧ mapGet x.springs n = none) hy hyr (fun _ => rfl) (fun x hx hxr => ?_) fun x _ hx => ?_
      · refine updThreads_named (P := fun x => p' = p ∧ x.inPool p = true) (Q := fun x => p' = p ∧ mapGet x.springs n = none) hx hxr (fun _ => rfl) (fun x hx hxr => ?_) fun x hxr hx => ?_
        · refine updThreads_named (P := fun x => p' = p ∧ x.inPool p = true) (Q := fun x => p' = p ∧ x.inPool p = true) hx hxr (fun _ => rfl) (fun x hx hxr => ?_) fun x _ hx => ?_
          · have hp' := hall x hx (hxr ▸ hr)
            have hp := hin x hx hxr
            exact ⟨by simpa [Thread.inPool, (by simpa [Thread.inPool] using hp' : x.pool = some p')] using hp, hp⟩
          · split
            · exact hx
            · exact hx
        · simp [hx.1, hx.2, Thread.dropSpring]
      · split
        · exact hx
        · exact hx
    subst hp
    rw [pool_of_copied rfl hpool]
    simp [resolve, pickCopy, hspring, Pool.setCopy]

end Sys2Proof.Machine
end

section
/-! O52, its four clauses put together. -/

namespace Sys2Proof.Machine

variable {s : State}

theorem updThreads_refs (s : State) (p : Thread → Bool) {f : Thread → Thread} (hf : ∀ x, (f x).ref = x.ref) :
    (updThreads s p f).threads.map Thread.ref = s.threads.map Thread.ref := by
  simp only [updThreads_threads, updWhere, List.map_map]
  refine List.map_congr_left fun x _ => ?_
  simp only [Function.comp_apply]
  split
  · exact hf x
  · rfl

theorem holdCopy_ref (pl : Option Pool) (pd : Pond) (n : Nat) (t : Thread) : (t.holdCopy pl pd n).ref = t.ref := by
  unfold Thread.holdCopy
  split
  · rfl
  · simp only
    split <;> rfl

/-- A producer's layered write leaves the names of the threads. -/
theorem completeWrites_refs (s : State) (n : Nat) (pl : Bool) (vals : List (TRef × Nat × Word)) :
    (completeWrites s n pl vals).threads.map Thread.ref = s.threads.map Thread.ref := by
  unfold completeWrites
  simp only
  rw [updThreads_refs _ _ fun _ => by rfl]
  split
  · split
    · exact updThreads_refs _ _ fun _ => rfl
    · rw [updPool_threads, updThreads_refs _ _ fun x => ?_, updThreads_refs _ _ fun _ => by rfl]
      split
      · cases pond s x.pond with
        | none => rfl
        | some d => exact holdCopy_ref _ _ _ _
      · rfl
  · rw [writeCopies, updThreads_refs _ _ fun _ => by rfl, updThreads_refs _ _ fun _ => by rfl]

/-- The drawn threads that a SETW left waiting read the grant from its destination and wait no more (R228). -/
theorem payGrant_reads {hm g p : Nat} {ts : List Thread} {w' : SetwDst} {u : Thread} {p0 : Pool} {d : Pond} (hts : ∀ x ∈ ts, x.setw = some w')
    (hu : u ∈ ts) (hpool : pool s p = some p0) (hmarks : ∀ x ∈ ts, (thread s x.ref).any (fun t => !t.overtaken w'.reg w'.wid) = true)
    (hin : ∀ y ∈ s.threads, y.ref = u.ref → y.inPool p = true) (hmem : u.ref ∈ s.threads.map Thread.ref) :
    ∃ x ∈ (payGrant s hm g ts).threads, x.ref = u.ref ∧ x.setw = none ∧
      resolve (pool (payGrant s hm g ts) p) d x w'.reg .res = BitVec.ofNat 32 g := by
  have hfirst : firstSome Thread.setw ts = some w' := by
    cases ts with
    | nil => cases hu
    | cons x r => rw [firstSome, hts x List.mem_cons_self]
  have hall : ts.filter (fun t => t.setw == some w') = ts := List.filter_eq_self.2 fun x hx => by simp [hts x hx]
  simp only [payGrant, hfirst, hall, completeWrite, List.map_map]
  generalize hvals : ts.map ((fun v => (v.1, w'.wid, v.2)) ∘ fun t => (t.ref, BitVec.ofNat 32 g)) = vals
  have hval : ∀ q ∈ vals, ∃ x ∈ ts, q = (x.ref, w'.wid, BitVec.ofNat 32 g) := by
    rintro q hq
    obtain ⟨x, hx, rfl⟩ := List.mem_map.1 (hvals ▸ hq)
    exact ⟨x, hx, rfl⟩
  have hr : (valOf vals u.ref).isSome = true := by
    rw [valOf, Option.isSome_map, List.find?_isSome]
    exact ⟨_, hvals ▸ List.mem_map_of_mem hu, by simp⟩
  have hreads := completeWrites_reads (d := d) (n := w'.reg) (pl := poolRank hm w'.reg w'.tag) (v := BitVec.ofNat 32 g) hpool
    (fun q hq => by obtain ⟨x, -, rfl⟩ := hval q hq; rfl) (fun q hq => by obtain ⟨x, hx, rfl⟩ := hval q hq; exact hmarks x hx) hr hin
  rw [← completeWrites_refs s w'.reg (poolRank hm w'.reg w'.tag) vals] at hmem
  obtain ⟨y, hy, hyr⟩ := List.mem_map.1 hmem
  refine ⟨{ y with setw := none }, List.mem_map.2 ⟨y, hy, if_pos (List.any_eq_true.2 ⟨u, hu, by simp [hyr]⟩)⟩, hyr, rfl, ?_⟩
  exact hreads y hy hyr

/-- A drawn thread that is the only one of its name is so in the new pool, with its marks. -/
theorem drawnState_sole {a : DrawAt} {w : Draw} {rest : List Draw} {u : Thread} (hu : u ∈ w.takes s a.d.id) (hs : Sole s u) :
    ∃ n, { u with place := .lane s.nextId 0 n } ∈ (drawnState s a w rest).threads ∧
      ∀ y ∈ (drawnState s a w rest).threads, y.ref = u.ref → y = { u with place := .lane s.nextId 0 n } := by
  obtain ⟨n, hn⟩ := List.mem_iff_getElem?.1 hu
  refine ⟨n, drawnState_seats hn hs, fun y hy hyr => ?_⟩
  obtain ⟨z, hz, rfl⟩ := List.mem_map.1 hy
  rw [seatOf_rest] at hyr
  rw [hs.eq hz hyr, seatOf_takes hn hs]

/-- Its name finds it there. -/
theorem thread_of_sole {u v : Thread} (hv : v ∈ s.threads) (hvu : v.ref = u.ref) (h : ∀ y ∈ s.threads, y.ref = u.ref → y = v) :
    thread s u.ref = some v := by
  cases hf : thread s u.ref with
  | none => exact absurd (List.find?_eq_none.1 hf v hv) (by simp [hvu])
  | some y => rw [h y (List.mem_of_find?_eq_some hf) (by simpa using List.find?_some hf)]

/-- A fragment that comes to an address from outside translated code enters it there at a safe point alone (R117). -/
theorem arrive_from_outside (c : Ctx) (a : Nat) : arrive c false false a = safePoint c a := by
  cases hsafe : safePoint c a with
  | false => simp [arrive, hsafe]
  | true =>
    obtain ⟨t, ht, hta⟩ := List.any_eq_true.1 hsafe
    have hcov : covered c a = true := List.any_eq_true.2 ⟨t, ht, (Bool.and_eq_true_iff.1 hta).1⟩
    simp [arrive, hsafe, hcov]

/-- The new pool is found by its number, or an older one with the same number is. -/
theorem drawnState_pool (a : DrawAt) (w : Draw) (rest : List Draw) : ∃ p0, pool (drawnState s a w rest) s.nextId = some p0 := by
  refine Option.isSome_iff_exists.1 (List.find?_isSome.2 ⟨_, List.mem_append_right _ (List.mem_singleton.2 rfl), ?_⟩)
  simp

/-- Settles O52: clause by clause from the lemmas on the draws that stand before a pond, on one draw, and on the grant that it pays. -/
theorem poolsAreDrawn : Obligations.PoolsAreDrawn := by
  refine ⟨fun s a => ⟨⟨_, drawsDue_eq s a⟩, fun hd _ => ⟨fun kind key hne => ?_, drawsDue_ordered hd, fun w => head_drawsDue hd⟩⟩, ?_, ?_, ?_⟩
  · simp only [exists_mem_drawsDue hd, mem_dueWells hd hne]
    refine ⟨fun hs => ?_, fun hs => ?_⟩
    · simp only [hs, true_and]
      rw [or_comm, or_assoc]
    · simp [hs]
  · intro s pd a w ha hw ts
    obtain ⟨hpd, hnum⟩ := drawAt_eq_some ha
    obtain ⟨hlt, hfree, hbelow⟩ := lowestFree_eq_some hnum
    refine ⟨fun u hu => (mem_wellThreads.1 (List.mem_filter.1 hu).1).2.2, (wellThreads_sorted _ _ _).filter _,
      by simpa [Config.poolsPerCore] using hlt, hfree, fun m hm => hbelow m (Nat.zero_le _) hm, _, s.nextId, newRecord s a.d.id, exec_poolDraw ha hw,
      fun hnone => ?_, fun w' hset u hu => ?_⟩
    · rw [show payGrant _ _ _ (w.takes s a.d.id) = _ from payGrant_of_none hnone]
      exact ⟨⟨_, rfl, rfl, rfl, rfl, rfl, arrive_from_outside _ _⟩, fun n u hn => drawnState_seats hn, fun u hu => drawnState_keeps hu,
        drawnState_ponds _ _ _⟩
    · obtain ⟨p0, hp0⟩ := drawnState_pool (s := s) a w (drawsDue s a).tail
      have hsole := fun x hx => drawnState_sole (a := a) (w := w) (rest := (drawsDue s a).tail) hx (hset x hx).2.1
      refine payGrant_reads (fun x hx => (hset x hx).1) hu hp0 (fun x hx => ?_) (fun y hy hyr => ?_) ?_
      · obtain ⟨n, hx', honly⟩ := hsole x hx
        rw [thread_of_sole (u := x) hx' rfl honly]
        have halive := (hset x hx).2.2
        simpa [Thread.overtaken] using halive
      · obtain ⟨n, -, honly⟩ := hsole u hu
        rw [honly y hy hyr]
        simp [Thread.inPool, Thread.pool]
      · obtain ⟨n, hu', -⟩ := hsole u hu
        exact List.mem_map.2 ⟨_, hu', rfl⟩
  · intro s pd kind key d hd hcore hstill hexp hunset
    have hmode : ((block s d.blk).bind (fun b => launch s b.launch)).any (fun l => l.kernel.still) = false := by
      cases hb : block s d.blk with
      | none => rfl
      | some b =>
        cases hl : launch s b.launch with
        | none => simp [hl]
        | some l => simp [hl, hstill b l hb hl]
    show execWellAgeExpiry pd kind key s = _
    simp [execWellAgeExpiry, hd, Option.isSome_iff_ne_none.1 hcore, hmode, hexp, hunset, updPond, updWhere]
  · intro s pd kind key d b l hd hb hl hstill
    show execWellAgeExpiry pd kind key s = _
    simp [execWellAgeExpiry, hd, hb, hl, hstill]

end Sys2Proof.Machine
end

section
/-! SUPPORT. Memory after bytes are written, and host lines written back (R254 item 6). -/

namespace Sys2Proof.Machine

/-- A table has no entry at a number that it does not list. -/
theorem mapGet_eq_none {α : Type} {m : Map α} {n : Nat} (h : ∀ p ∈ m, p.1 ≠ n) : mapGet m n = none := by
  induction m with
  | nil => rfl
  | cons p r ih =>
    obtain ⟨k, v⟩ := p
    rw [mapGet, if_neg (h _ List.mem_cons_self)]
    exact ih fun q hq => h q (List.mem_cons_of_mem _ hq)

/-- A table that lists a function's values. -/
theorem mapGet_map {α : Type} (f : Nat → α) {l : List Nat} {k : Nat} (h : k ∈ l) : mapGet (l.map (fun k => (k, f k))) k = some (f k) := by
  induction l with
  | nil => cases h
  | cons x r ih =>
    rw [List.map_cons, mapGet]
    split
    · next hx => rw [hx]
    · next hx => exact ih ((List.mem_cons.1 h).resolve_left (Ne.symm hx))

/-- A byte among those written. -/
theorem byteAt_putBytes_mid (bs : List Byte) : ∀ (m : List Host.Cell) (a k : Nat), k < bs.length → byteAt (putBytes m a bs) (a + k) = bs.getD k 0 := by
  induction bs with
  | nil => intro m a k h; cases h
  | cons b r ih =>
    intro m a k h
    cases k with
    | zero => simp [putBytes, byteAt_putBytes_below r _ _ _ (Nat.lt_add_one a)]
    | succ k =>
      rw [putBytes, show a + (k + 1) = a + 1 + k by omega, ih _ _ _ (by simpa using h)]
      simp

/-- A byte outside those written. -/
theorem byteAt_putBytes_out {bs : List Byte} {m : List Host.Cell} {a x : Nat} (h : ¬(a ≤ x ∧ x < a + bs.length)) :
    byteAt (putBytes m a bs) x = byteAt m x := by
  by_cases hx : x < a
  · exact byteAt_putBytes_below bs m a x hx
  · exact byteAt_putBytes_above bs m a x (by omega)

theorem bytesAt_eq_map (m : List Host.Cell) (n : Nat) : ∀ a, bytesAt m a n = (List.range n).map (fun i => byteAt m (a + i)) := by
  induction n with
  | zero => exact fun _ => rfl
  | succ n ih =>
    intro a
    simp only [bytesAt, ih, List.range_succ_eq_map, List.map_cons, List.map_map, Function.comp_def, Nat.succ_eq_add_one, Nat.add_zero, Nat.add_assoc,
      Nat.add_comm 1]

/-- The bytes written are read back. -/
theorem bytesAt_putBytes (m : List Host.Cell) (a : Nat) (bs : List Byte) : bytesAt (putBytes m a bs) a bs.length = bs := by
  rw [bytesAt_eq_map]
  refine List.ext_getElem (by simp) fun i h _ => ?_
  have hi : i < bs.length := by simpa using h
  simp [byteAt_putBytes_mid bs m a i hi, hi]

variable {s : State}

/-- With nothing at the slices a line is settled already. -/
theorem settleLine_of_no_slices (h : s.slices = []) (l : Nat) : settleLine s l = s := by
  simp [settleLine, h]

theorem hostLine_eq_some {l : Nat} {h : HostLine} (hh : hostLine s l = some h) : h ∈ s.hostLines ∧ h.line = l :=
  ⟨List.mem_of_find?_eq_some hh, by simpa using List.find?_some hh⟩

/-- A write-back changes memory and the device's copies alone. -/
theorem writeBack_rest (s : State) (l : Nat) (drop : Bool) :
    writeBack s l drop = { s with mem := (writeBack s l drop).mem, hostLines := (writeBack s l drop).hostLines } := by
  unfold writeBack
  split <;> rfl

/-- The copies after a write-back: those of other lines, and a clean one of its own unless it is dropped. -/
theorem of_mem_writeBack {l : Nat} {drop : Bool} {x : HostLine} (hx : x ∈ (writeBack s l drop).hostLines) :
    (x ∈ s.hostLines ∧ x.line ≠ l) ∨ (x.line = l ∧ x.dirty = false ∧ drop = false ∧ ∃ h ∈ s.hostLines, x.bytes = h.bytes ∧ h.line = l) := by
  unfold writeBack at hx
  split at hx
  · next hnone => exact .inl ⟨hx, fun he => by simpa [he] using List.find?_eq_none.1 hnone x hx⟩
  · next h hsome =>
    obtain ⟨hmem, hline⟩ := hostLine_eq_some hsome
    cases drop with
    | true =>
      obtain ⟨hx, hne⟩ := List.mem_filter.1 hx
      exact .inl ⟨hx, by simpa using hne⟩
    | false =>
      rcases List.mem_cons.1 hx with rfl | hx
      · exact .inr ⟨hline, rfl, rfl, h, hmem, rfl, hline⟩
      · obtain ⟨hx, hne⟩ := List.mem_filter.1 hx
        exact .inl ⟨hx, by simpa using hne⟩

theorem writeBack_hostLinesOk (h : s.hostLinesOk) (l : Nat) (drop : Bool) : (writeBack s l drop).hostLinesOk := by
  intro x hx
  rcases of_mem_writeBack hx with ⟨hx, -⟩ | ⟨hl, -, -, y, hy, hb, hyl⟩
  · exact h x hx
  · rw [hl, ← hyl, hb]
    exact h y hy

/-- The copies of other lines stay. -/
theorem hostLine_writeBack_ne {l n : Nat} (drop : Bool) (hn : n ≠ l) : hostLine (writeBack s l drop) n = hostLine s n := by
  unfold writeBack
  split
  · rfl
  · next h hsome =>
    have hrest : (s.hostLines.filter (fun x => x.line != l)).find? (fun h => h.line == n) = hostLine s n := by
      rw [List.find?_filter]
      exact congrArg (s.hostLines.find? ·) (funext fun x => by
        by_cases hx : x.line = n
        · simp [hx, hn]
        · simp [hx])
    have hl := (hostLine_eq_some hsome).2
    cases drop with
    | true => exact hrest
    | false =>
      show List.find? _ (_ :: _) = _
      rw [List.find?_cons_of_neg (by simpa [hl] using hn.symm)]
      exact hrest

/-- A clean copy of the written line stays where it is not dropped. -/
theorem hostLine_writeBack_same {l : Nat} {h : HostLine} (hh : hostLine s l = some h) :
    hostLine (writeBack s l false) l = some { h with dirty := false, ctxs := [] } := by
  have hl := (hostLine_eq_some hh).2
  unfold writeBack
  rw [hh]
  show List.find? _ (_ :: _) = _
  rw [List.find?_cons_of_pos (by simpa using hl)]

/-- Memory takes the bytes of a dirty copy. -/
theorem byteAt_writeBack_dirty {l k : Nat} {h : HostLine} (drop : Bool) (hh : hostLine s l = some h) (hd : h.dirty = true) (hk : k < h.bytes.length) :
    byteAt (writeBack s l drop).mem (128 * l + k) = h.bytes.getD k 0 := by
  unfold writeBack
  rw [hh]
  simp only [hd, if_true]
  rw [Nat.mul_comm, byteAt_putBytes_mid _ _ _ _ hk]

/-- Memory outside the line stays. -/
theorem byteAt_writeBack_ne {l a : Nat} (drop : Bool) (hok : s.hostLinesOk) (ha : lineOf a ≠ l) : byteAt (writeBack s l drop).mem a = byteAt s.mem a := by
  unfold writeBack
  split
  · rfl
  · next h hsome =>
    have hlen := (hok h (hostLine_eq_some hsome).1).2
    simp only
    split
    · refine byteAt_putBytes_out fun hin => ha ?_
      rw [hlen] at hin
      unfold lineOf
      omega
    · rfl

/-- A write-back that keeps the copy changes no byte at its home. -/
theorem homeByte_writeBack (hok : s.hostLinesOk) (l a : Nat) : homeByte (writeBack s l false) a = homeByte s a := by
  by_cases ha : lineOf a = l
  · cases hh : hostLine s l with
    | none => rw [writeBack, hh]
    | some h => simp only [homeByte, ha, hh, hostLine_writeBack_same hh]
  · simp only [homeByte, hostLine_writeBack_ne false ha, byteAt_writeBack_ne false hok ha]

end Sys2Proof.Machine
end

section
/-! O57, power and the operating point (R54, R309). -/

namespace Sys2Proof.Machine

variable {s : State}

/-- A part without power takes no notice. -/
theorem withPower_off (h : s.host.powered = false) (f : State → State) : withPower s f = .next s := by
  simp [withPower, h]

theorem withPower_on (h : s.host.powered = true) (f : State → State) : withPower s f = .next (f s) := by
  simp [withPower, h]

/-- Each core has one of the native widths that an operating point allows, and 128 at the top one (R54, R309). -/
def WidthsAllowed (pstate : Nat) (m : Map Nat) : Prop :=
  ∀ k < 96, ∃ w ∈ [16, 32, 64, 128], mapGet m k = some w ∧ w ≤ largestGwn pstate ∧ (pstate = 7 → w = 128)

theorem largestGwn_mem (p : Nat) : largestGwn p ∈ [16, 32, 64, 128] := by
  unfold largestGwn
  split
  · simp
  · split
    · simp
    · split <;> simp

/-- A drawn width is one that the operating point allows. -/
theorem drawWidth_allowed (n k p : Nat) : drawWidth n k p ∈ [16, 32, 64, 128] ∧ drawWidth n k p ≤ largestGwn p ∧ (p = 7 → drawWidth n k p = 128) := by
  unfold drawWidth
  split
  · next hp => subst hp; decide
  · next hp =>
    have hwidth : ∀ i < 4, 16 * 2 ^ i ∈ [16, 32, 64, 128] := by decide
    have hdrawn := hwidth _ (Nat.mod_lt (Config.freeCell n k) (by decide))
    refine ⟨?_, Nat.min_le_left _ _, fun h => absurd h hp⟩
    rcases min_choice (largestGwn p) (16 * 2 ^ (Config.freeCell n k % 4)) with h | h <;> rw [h]
    · exact largestGwn_mem p
    · exact hdrawn

/-- The widths that a context takes anew. -/
theorem newWidths_allowed (n p : Nat) : WidthsAllowed p ((List.range Config.cores).map (fun k => (k, drawWidth n k p))) := fun k hk => by
  obtain ⟨hmem, hle, htop⟩ := drawWidth_allowed n k p
  exact ⟨_, hmem, mapGet_map (drawWidth n · p) (List.mem_range.2 hk), hle, htop⟩

/-- What a change of the operating point leaves of the contexts: all but the widths, which those of the identifiers `ids` take anew. -/
theorem foldl_newWidths (ids : List Nat) : ∀ s : State, ids.foldl newWidths s = { s with
      ctxs := (ids.foldl newWidths s).ctxs
      free := (ids.foldl newWidths s).free } ∧
    List.Forall₂ (fun (c c' : Ctx) => c' = { c with gwn := c'.gwn } ∧
      (c.rcd.id ∈ ids ∨ WidthsAllowed s.host.pstate c.gwn → WidthsAllowed s.host.pstate c'.gwn)) s.ctxs (ids.foldl newWidths s).ctxs := by
  induction ids with
  | nil => exact fun s => ⟨rfl, forall₂_self _ fun c _ => ⟨rfl, fun h => h.resolve_left List.not_mem_nil⟩⟩
  | cons id ids ih =>
    intro s
    obtain ⟨hrest, hctxs⟩ := ih (newWidths s id)
    rw [List.foldl_cons]
    refine ⟨hrest, ?_⟩
    have hmap : (newWidths s id).ctxs = s.ctxs.map (fun c => if c.rcd.id == id then { c with
        gwn := (List.range Config.cores).map (fun k => (k, drawWidth s.free k s.host.pstate)) } else c) := rfl
    rw [hmap, List.forall₂_map_left_iff] at hctxs
    refine hctxs.imp fun c c' hcc => ?_
    by_cases hc : c.rcd.id = id
    · simp only [hc, beq_self_eq_true, if_true] at hcc
      exact ⟨hcc.1, fun _ => hcc.2 (.inr (newWidths_allowed _ _))⟩
    · simp only [beq_eq_false_iff_ne.2 hc, Bool.false_eq_true, if_false] at hcc
      exact ⟨hcc.1, fun h => hcc.2 (h.imp_left fun hmem => (List.mem_cons.1 hmem).resolve_left hc)⟩

/-- A code that PSTATE takes gives each core of each context a width that it allows, where it is a new one (R54, R309). -/
theorem takePstate_spec (s : State) (code : Nat) : takePstate s code = { s with
      host := { s.host with pstate := code, refused := false }
      ctxs := (takePstate s code).ctxs
      free := (takePstate s code).free } ∧ (code = s.host.pstate → (takePstate s code).ctxs = s.ctxs) ∧
    (code ≠ s.host.pstate → List.Forall₂ (fun (c c' : Ctx) => c' = { c with gwn := c'.gwn } ∧ WidthsAllowed code c'.gwn) s.ctxs
      (takePstate s code).ctxs) := by
  unfold takePstate
  simp only
  split
  · next h => exact ⟨rfl, fun _ => rfl, fun hne => absurd h.symm hne⟩
  · next h =>
    obtain ⟨hrest, hctxs⟩ := foldl_newWidths (s.ctxs.map (fun c => c.rcd.id)) (setHost s (fun h => { h with pstate := code, refused := false }))
    refine ⟨hrest, fun he => absurd he.symm h, fun _ => ?_⟩
    have hmem := (List.forall₂_and_left _ _).2 ⟨fun c (hc : c ∈ s.ctxs) => List.mem_map_of_mem (f := fun c : Ctx => c.rcd.id) hc, hctxs⟩
    exact hmem.imp fun c c' hcc => ⟨hcc.2.1, hcc.2.2 (.inl hcc.1)⟩

/-- What the part holds of its own memory is lost with its power. -/
theorem withoutPower_mem {a : Nat} (ha : a < Config.deviceTop) : byteAt (withoutPower s).mem a = 0 := by
  unfold byteAt
  rw [mapGet_eq_none fun p hp he => ?_]
  · rfl
  · have hp := of_decide_eq_true (List.mem_filter.1 hp).2
    omega

theorem resident_iff : resident s = true ↔ ∃ d ∈ s.ponds, d.core.isSome = true := List.any_eq_true

/-- PSTATE: the codes from 10 up are ignored, 8 and 9 refused while a context is resident, and 9 is the loss of power (R309). -/
theorem writePstate_ignored {v : DWord} (h : 10 ≤ v.toNat % 16) : writePstate s v = s := by
  simp [writePstate, bits, h]

theorem writePstate_refused {v : DWord} (h : 8 ≤ v.toNat % 16) (h' : v.toNat % 16 < 10) (hb : ∃ d ∈ s.ponds, d.core.isSome = true) :
    writePstate s v = { s with host := { s.host with refused := true } } := by
  simp [writePstate, bits, Nat.not_le.2 h', h, resident_iff.2 hb, setHost]

theorem writePstate_off {v : DWord} (h : v.toNat % 16 = 9) (hb : ¬∃ d ∈ s.ponds, d.core.isSome = true) : writePstate s v = withoutPower s := by
  simp [writePstate, bits, h, mt resident_iff.1 hb]

theorem writePstate_taken {v : DWord} (h : v.toNat % 16 < 9) (hb : 8 ≤ v.toNat % 16 → ¬∃ d ∈ s.ponds, d.core.isSome = true) :
    writePstate s v = takePstate s (v.toNat % 16) := by
  have hres : ¬(8 ≤ v.toNat % 16 ∧ resident s = true) := fun hr => hb hr.1 (resident_iff.1 hr.2)
  simp [writePstate, bits, hres, h.ne, show ¬10 ≤ v.toNat % 16 by omega]

/-- PSTATE_WRITE (R54, R309). -/
theorem pstateWrite_acts (s : State) (v : DWord) (hp : s.host.powered = true) : let code := v.toNat % 16
    let busy : Prop := ∃ d ∈ s.ponds, d.core.isSome = true
    ∃ t, exec (.pstateWrite v) s = .next t ∧ (10 ≤ code → t = s) ∧
      (8 ≤ code → code < 10 → busy → t = { s with host := { s.host with refused := true } }) ∧
      (code = 9 → ¬busy → t.threads = [] ∧ t.ctxs = [] ∧ t.host.powered = false ∧ t.host.go = false ∧ ∀ a < Config.deviceTop, byteAt t.mem a = 0) ∧
      (code < 9 → (8 ≤ code → ¬busy) → t = { s with
          host := { s.host with pstate := code, refused := false }
          ctxs := t.ctxs
          free := t.free } ∧ (code = s.host.pstate → t.ctxs = s.ctxs) ∧
        (code ≠ s.host.pstate → List.Forall₂ (fun (c c' : Ctx) => c' = { c with gwn := c'.gwn } ∧ ∀ k < 96, ∃ w ∈ [16, 32, 64, 128],
          mapGet c'.gwn k = some w ∧ w ≤ largestGwn code ∧ (code = 7 → w = 128)) s.ctxs t.ctxs)) := by
  refine ⟨writePstate s v, withPower_on hp (writePstate · v), writePstate_ignored, writePstate_refused, fun h hb => ?_, fun h hb => ?_⟩
  · rw [writePstate_off h hb]
    exact ⟨rfl, rfl, rfl, rfl, fun a => withoutPower_mem⟩
  · rw [writePstate_taken h hb]
    exact takePstate_spec s _

end Sys2Proof.Machine
end

section
/-! O57, the invalidations and the flushes of the host (R301, R304), and the mode of a partition (R255). -/

namespace Sys2Proof.Machine

variable {s : State}

/-- An invalidation drops the translations of its context, and the global ones, that meet its ranges (R239, R261). -/
theorem dropsTlb_iff {c : Nat} {rs : List (Nat × Nat)} {all : Bool} {x : Tlb} : dropsTlb c rs all x = true ↔
    (x.ctx = c ∨ x.leaf.glob = true) ∧ (all = true ∨ ∃ r ∈ rs,
      x.leaf.page * x.leaf.size < r.1 + r.2 ∧ r.1 < x.leaf.page * x.leaf.size + x.leaf.size) := by
  simp only [dropsTlb, Bool.and_eq_true, Bool.or_eq_true, beq_iff_eq, List.any_eq_true, decide_eq_true_eq]
  exact Iff.rfl

/-- What SHOOTGO changes while none is pending (R301). -/
theorem shoot_spec (s : State) (all : Bool) (h : s.host.shooting = false) :
    let rs := if all = true ∨ s.host.shootLen = 0 then [] else [(s.host.shootVa.toNat, s.host.shootLen.toNat)]
    ∃ v, shoot s all = { s with
        host := { s.host with shooting := true, shootAll := all }
        tlb := (shoot s all).tlb
        copies := (shoot s all).copies
        invals := s.invals ++ [v]
        nextId := (shoot s all).nextId } ∧ v.ctx = s.host.shootCtx.toNat % 2 ^ 16 ∧ v.ranges = rs ∧ v.all = all ∧ v.host = true ∧ v.acked = false ∧
      ∀ x, x ∈ (shoot s all).tlb ↔ x ∈ s.tlb ∧ ¬((x.ctx = v.ctx ∨ x.leaf.glob = true) ∧ (all = true ∨ ∃ r ∈ rs,
        x.leaf.page * x.leaf.size < r.1 + r.2 ∧ r.1 < x.leaf.page * x.leaf.size + x.leaf.size)) := by
  intro rs
  have hrs : (if (all || decide (s.host.shootLen = 0)) = true then [] else [(s.host.shootVa.toNat, s.host.shootLen.toNat)]) = rs := by simp [rs]
  unfold shoot
  simp only [h, Bool.false_eq_true, if_false, hrs]
  refine ⟨_, rfl, rfl, rfl, rfl, rfl, rfl, fun x => ?_⟩
  exact List.mem_filter.trans (and_congr_right fun _ => by rw [Bool.not_eq_true', ← Bool.not_eq_true, dropsTlb_iff])

end Sys2Proof.Machine
end

section
/-! O57, lines written back together, by a flush (R304) or for the mode of a partition (R255). -/

namespace Sys2Proof.Machine

variable {s : State}

theorem distinct_nodup {α : Type} [DecidableEq α] (l : List α) : (distinct l).Nodup := by
  have go : ∀ (l acc : List α), acc.Nodup → (l.foldl (fun acc y => if acc.contains y then acc else acc ++ [y]) acc).Nodup := by
    intro l
    induction l with
    | nil => exact fun _ h => h
    | cons y r ih =>
      intro acc h
      refine ih _ ?_
      show (if acc.contains y then acc else acc ++ [y]).Nodup
      split
      · exact h
      · next hy => exact List.nodup_append.2 ⟨h, List.nodup_singleton y, fun a ha b hb he => hy (by
          rw [← List.mem_singleton.1 hb, ← he]; exact List.contains_iff_mem.2 ha)⟩
  exact go l [] List.nodup_nil

/-- Some lines written back, one after another. -/
def writeBackAll (drop : Bool) (ls : List Nat) (s : State) : State := ls.foldl (fun s l => writeBack s l drop) s

/-- With nothing at the slices the lines have nothing to settle first. -/
theorem foldl_settle_writeBack (drop : Bool) (ls : List Nat) :
    ∀ s : State, s.slices = [] → ls.foldl (fun s l => writeBack (settleLine s l) l drop) s = writeBackAll drop ls s := by
  induction ls with
  | nil => exact fun _ _ => rfl
  | cons l ls ih =>
    intro s hs
    rw [List.foldl_cons, settleLine_of_no_slices hs, ih _ (by rw [writeBack_rest]; exact hs)]
    rfl

/-- They change memory and the device's copies alone. -/
theorem writeBackAll_rest (drop : Bool) (ls : List Nat) (s : State) :
    ∃ m hs, writeBackAll drop ls s = { s with mem := m, hostLines := hs } := by
  refine List.foldlRecOn (motive := fun t : State => ∃ m hs, t = { s with mem := m, hostLines := hs }) ls _ ⟨s.mem, s.hostLines, rfl⟩ fun t ⟨m, hs, ht⟩ l _ => ?_
  rw [writeBack_rest t l drop, ht]
  exact ⟨_, _, rfl⟩

theorem writeBackAll_hostLinesOk (drop : Bool) (ls : List Nat) : ∀ {s : State}, s.hostLinesOk → (writeBackAll drop ls s).hostLinesOk := by
  induction ls with
  | nil => exact fun h => h
  | cons l ls ih => exact fun h => ih (writeBack_hostLinesOk h l drop)

/-- The copies afterwards: those of other lines, and clean ones unless they are dropped. -/
theorem of_mem_writeBackAll {drop : Bool} {x : HostLine} (ls : List Nat) : ∀ {s : State}, x ∈ (writeBackAll drop ls s).hostLines →
    (x ∈ s.hostLines ∧ x.line ∉ ls) ∨ (x.dirty = false ∧ drop = false) := by
  induction ls with
  | nil => exact fun h => .inl ⟨h, List.not_mem_nil⟩
  | cons l ls ih =>
    intro s hx
    rcases ih hx with ⟨hx, hls⟩ | h
    · rcases of_mem_writeBack hx with ⟨hx, hl⟩ | ⟨-, hd, hdrop, -⟩
      · exact .inl ⟨hx, by simp [hl, hls]⟩
      · exact .inr ⟨hd, hdrop⟩
    · exact .inr h

theorem hostLine_writeBackAll {drop : Bool} {n : Nat} {ls : List Nat} (hn : n ∉ ls) : hostLine (writeBackAll drop ls s) n = hostLine s n := by
  induction ls generalizing s with
  | nil => rfl
  | cons l ls ih =>
    obtain ⟨hl, hls⟩ := not_or.1 (mt List.mem_cons.2 hn)
    exact (ih hls).trans (hostLine_writeBack_ne drop hl)

theorem byteAt_writeBackAll {drop : Bool} {a : Nat} {ls : List Nat} (hok : s.hostLinesOk) (ha : lineOf a ∉ ls) :
    byteAt (writeBackAll drop ls s).mem a = byteAt s.mem a := by
  induction ls generalizing s with
  | nil => rfl
  | cons l ls ih =>
    obtain ⟨hl, hls⟩ := not_or.1 (mt List.mem_cons.2 ha)
    exact (ih (writeBack_hostLinesOk hok l drop) hls).trans (byteAt_writeBack_ne drop hok hl)

theorem homeByte_writeBackAll {a : Nat} {ls : List Nat} (hok : s.hostLinesOk) : homeByte (writeBackAll false ls s) a = homeByte s a := by
  induction ls generalizing s with
  | nil => rfl
  | cons l ls ih => exact (ih (writeBack_hostLinesOk hok l false)).trans (homeByte_writeBack hok l a)

/-- Memory takes each dirty line among them, where none comes twice. -/
theorem byteAt_writeBackAll_dirty {drop : Bool} {n k : Nat} {ls : List Nat} {h : HostLine} (hok : s.hostLinesOk) (hnd : ls.Nodup) (hn : n ∈ ls)
    (hh : hostLine s n = some h) (hd : h.dirty = true) (hk : k < 128) : byteAt (writeBackAll drop ls s).mem (128 * n + k) = h.bytes.getD k 0 := by
  obtain ⟨pre, post, rfl⟩ := List.append_of_mem hn
  obtain ⟨-, hpost, hdisj⟩ := List.nodup_append.1 hnd
  have hpre : n ∉ pre := fun hp => hdisj n hp n List.mem_cons_self rfl
  rw [writeBackAll, List.foldl_append, List.foldl_cons]
  have hline : lineOf (128 * n + k) = n := by unfold lineOf; omega
  have hok' := writeBackAll_hostLinesOk drop pre hok
  refine (byteAt_writeBackAll (writeBack_hostLinesOk hok' n drop) (by rw [hline]; exact (List.nodup_cons.1 hpost).1)).trans ?_
  exact byteAt_writeBack_dirty drop ((hostLine_writeBackAll hpre).trans hh) hd (by rw [(hok h (hostLine_eq_some hh).1).2]; exact hk)

/-- The lines of a flush while nothing stands at a slice: those that it covers and of which the device holds a copy. -/
theorem mem_flushLines (hs : s.slices = []) {l : Nat} :
    l ∈ flushLines s ↔ (∃ h ∈ s.hostLines, h.line = l) ∧ s.host.flushFrom < (l + 1) * 128 ∧ l * 128 < s.host.flushTo := by
  simp [flushLines, hs, HostRegs.flushes]

/-- FLUSH_COMPLETE (R304). -/
theorem flushComplete_acts (s : State) (hf : s.host.flushing = true) (hs : s.slices = []) (hok : s.hostLinesOk) :
    let covered (h : HostLine) : Prop := s.host.flushFrom < (h.line + 1) * 128 ∧ h.line * 128 < s.host.flushTo
    ∃ t, exec .flushComplete s = .next t ∧ t = { s with
        host := { s.host with flushing := false }
        mem := t.mem
        hostLines := t.hostLines } ∧ (∀ h ∈ t.hostLines, covered h → h.dirty = false ∧ s.host.flushInv = false) ∧
      (∀ n h, hostLine s n = some h → covered h → h.dirty = true → ∀ k < 128, byteAt t.mem (128 * n + k) = h.bytes.getD k 0) ∧
      (s.host.flushInv = false → ∀ a, homeByte t a = homeByte s a) ∧ ∀ a < Config.hostBase, byteAt t.mem a = byteAt s.mem a := by
  intro covered
  refine ⟨setHost (writeBackAll s.host.flushInv (flushLines s) s) (fun h => { h with flushing := false }), ?_, ?_, fun h hh hc => ?_,
    fun n h hh hc hd k hk => ?_, fun hinv a => ?_, fun a ha => ?_⟩
  · show execFlushComplete s = _
    rw [execFlushComplete, if_pos hf, completeFlush]
    simp only [foldl_settle_writeBack s.host.flushInv (flushLines s) s hs]
  · obtain ⟨m, hs, ht⟩ := writeBackAll_rest s.host.flushInv (flushLines s) s
    rw [setHost, ht]
  · rcases of_mem_writeBackAll _ hh with ⟨hh, hl⟩ | h
    · exact absurd ((mem_flushLines hs).2 ⟨⟨h, hh, rfl⟩, hc⟩) hl
    · exact h
  · obtain ⟨hmem, rfl⟩ := hostLine_eq_some hh
    exact byteAt_writeBackAll_dirty hok (distinct_nodup _) ((mem_flushLines hs).2 ⟨⟨h, hmem, rfl⟩, hc⟩) hh hd hk
  · rw [hinv]
    exact homeByte_writeBackAll hok
  · refine byteAt_writeBackAll hok fun hl => ?_
    obtain ⟨⟨h, hh, hline⟩, -⟩ := (mem_flushLines hs).1 hl
    have hhost := (hok h hh).1
    unfold lineOf at hline
    omega

/-- A settled line leaves the threads, and the mode of each partition. -/
theorem settleLine_keeps (s : State) (l : Nat) : (settleLine s l).threads = s.threads ∧ (settleLine s l).l2priv = s.l2priv := by
  refine List.foldlRecOn (motive := fun t : State => t.threads = s.threads ∧ t.l2priv = s.l2priv) _ _ ⟨rfl, rfl⟩ fun t ht y _ => ?_
  have hput (t : State) (c : Nat) (cached : Bool) (a : Nat) (bs : List Byte) :
      (putHome t c cached a bs).threads = t.threads ∧ (putHome t c cached a bs).l2priv = t.l2priv := by
    unfold putHome
    dsimp only
    split <;> exact ⟨rfl, rfl⟩
  have hsweep (t : State) (w : Nat) : (sweepWord t w).threads = t.threads ∧ (sweepWord t w).l2priv = t.l2priv := by
    unfold sweepWord
    split <;> exact ⟨rfl, rfl⟩
  exact ⟨(hsweep _ _).1.trans ((hput _ _ _ _ _).1.trans ht.1), (hsweep _ _).2.trans ((hput _ _ _ _ _).2.trans ht.2)⟩

theorem foldl_settle_writeBack_keeps (drop : Bool) (ls : List Nat) (s : State) :
    (ls.foldl (fun s l => writeBack (settleLine s l) l drop) s).threads = s.threads ∧
      (ls.foldl (fun s l => writeBack (settleLine s l) l drop) s).l2priv = s.l2priv := by
  refine List.foldlRecOn (motive := fun t : State => t.threads = s.threads ∧ t.l2priv = s.l2priv) ls _ ⟨rfl, rfl⟩ fun t ht l _ => ?_
  obtain ⟨hthreads, hpriv⟩ := settleLine_keeps t l
  rw [writeBack_rest]
  exact ⟨hthreads.trans ht.1, hpriv.trans ht.2⟩

/-- L2_MODE_CHANGE (R255). -/
theorem l2ModeChange_acts (s : State) (basin : Fin 8) (priv : Bool) (hp : s.host.powered = true) : ∃ t, exec (.l2ModeChange basin priv) s = .next t ∧
    (s.host.go = false ∨ s.host.featdrv.getLsbD 2 = false ∨ basinBusy s basin.val = true → t = s) ∧
    (s.host.go = true → s.host.featdrv.getLsbD 2 = true → basinBusy s basin.val = false → (basin ∈ t.l2priv ↔ priv = true) ∧
      (∀ k, k ≠ basin → (k ∈ t.l2priv ↔ k ∈ s.l2priv)) ∧ (s.slices = [] → ∀ h ∈ t.hostLines, homeOf (h.line * 128) ≠ basin.val) ∧
      t.threads = s.threads) := by
  refine ⟨changeMode s basin priv, withPower_on hp (changeMode · basin priv), fun h => if_pos ?_, fun hgo hfeat hbusy => ?_⟩
  · rcases h with h | h | h
    · simp [feature, h]
    · simp only [feature, h, Bool.and_false, Bool.not_false, Bool.true_or]
    · simp [h]
  · have hmode : ¬(!(feature s 2) || basinBusy s basin) = true := by
      simp only [feature, hgo, hfeat, hbusy, Bool.and_self, Bool.not_true, Bool.or_self, Bool.false_eq_true, not_false_eq_true]
    obtain ⟨hthreads, hpriv⟩ := foldl_settle_writeBack_keeps true (partitionLines s basin) s
    rw [changeMode, if_neg hmode]
    refine ⟨?_, fun k hk => ?_, fun hs h hh hhome => ?_, hthreads⟩
    · cases priv <;> simp
    · cases priv <;> simp [hpriv, hk]
    · rw [foldl_settle_writeBack true _ s hs] at hh
      rcases of_mem_writeBackAll _ hh with ⟨hh, hl⟩ | ⟨-, hdrop⟩
      · exact hl (List.mem_filter.2 ⟨List.mem_map_of_mem hh, by simpa using hhome⟩)
      · cases hdrop

end Sys2Proof.Machine
end

section
/-! O57, the window and host memory (R300), and the statement itself. -/

namespace Sys2Proof.Machine

variable {s : State} {target : HostTarget} {a n base : Nat}

/-- The bytes that an access reaches stand one after another from its base (R300). -/
theorem hostByte_of_reaches (h : reaches s target a n base) {i : Nat} (hi : i < n) : hostByte s target (a + i) = some (base + i) := by
  cases target with
  | window =>
    obtain ⟨hbase, hwin, htop⟩ := h
    have hbyte : windowByte s (a + i) = base + i := by
      rw [windowByte, bits, Nat.shiftRight_eq_div_pow, hbase, Nat.add_assoc]
    simp only [hostByte, hbyte]
    exact if_pos ⟨by omega, by omega⟩
  | hostMem =>
    obtain ⟨rfl, htop⟩ := h
    simp only [hostByte, Nat.add_assoc]
    exact if_pos (by omega)

/-- An access through the window reaches device memory alone (R300). -/
theorem lt_deviceTop_of_reaches (h : reaches s target a n base) (ht : target = .window) {i : Nat} (hi : i < n) : base + i < Config.deviceTop := by
  subst ht
  obtain ⟨-, -, htop⟩ := h
  omega

/-- Memory is `m`, and besides it only the tags of lines, the peers' lines in the lakes and the images of launches may differ. -/
def HostWritten (s : State) (m : List Host.Cell) (t : State) : Prop :=
  ∃ tags peers ls, t = { s with mem := m, lineTag := tags, peerLines := peers, launches := ls }

/-- A byte that a host agent writes lands where its address points. -/
theorem hostPut_lands {pa : Nat} {b : Byte} (hs : s.slices = []) (hpa : hostByte s target a = some pa) (htop : target = .window → pa < Config.deviceTop) :
    HostWritten s (putByte s.mem pa b) (hostPut s target a b) := by
  unfold hostPut
  simp only [hpa]
  cases target with
  | window =>
    rw [if_pos rfl, agentPut, if_neg (Nat.not_le.2 (htop rfl)), landByte, settleLine_of_no_slices hs]
    exact ⟨_, _, _, rfl⟩
  | hostMem =>
    rw [if_neg (by decide)]
    split
    · exact ⟨_, _, _, rfl⟩
    · exact ⟨_, _, _, rfl⟩

/-- So do some bytes, one after another. -/
theorem hostPuts_land (bs : List Byte) : ∀ {s : State} {a pa : Nat}, s.slices = [] → (∀ i < bs.length, hostByte s target (a + i) = some (pa + i)) →
    (∀ i < bs.length, target = .window → pa + i < Config.deviceTop) → HostWritten s (putBytes s.mem pa bs) (hostPuts target a bs s) := by
  induction bs with
  | nil => exact fun _ _ _ => ⟨_, _, _, rfl⟩
  | cons b r ih =>
    intro s a pa hs hbyte htop
    obtain ⟨tags, peers, ls, hput⟩ := hostPut_lands (b := b) hs (hbyte 0 (Nat.zero_lt_succ _)) (htop 0 (Nat.zero_lt_succ _))
    rw [Nat.add_zero, Nat.add_zero] at hput
    rw [hostPuts, putBytes, hput]
    have hnext (x i : Nat) : x + 1 + i = x + (i + 1) := by omega
    exact ih hs (fun i hi => by rw [hnext, hnext]; exact hbyte (i + 1) (Nat.succ_lt_succ hi))
      (fun i hi => by rw [hnext]; exact htop (i + 1) (Nat.succ_lt_succ hi))

/-- The headers taken anew change the contexts alone. -/
theorem foldl_refreshPriv_rest (ids : List Nat) (s : State) : ∃ cs, ids.foldl refreshPriv s = { s with ctxs := cs } := by
  refine List.foldlRecOn (motive := fun t : State => ∃ cs, t = { s with ctxs := cs }) ids _ ⟨s.ctxs, rfl⟩ fun t ⟨cs, ht⟩ id _ => ?_
  unfold refreshPriv
  split
  · exact ⟨cs, ht⟩
  · rw [ht]
    exact ⟨_, rfl⟩

theorem cleanLines_rest (s : State) (target : HostTarget) (a n : Nat) : ∃ bad, cleanLines s target a n = { s with badLines := bad } := by
  unfold cleanLines
  split <;> exact ⟨_, rfl⟩

/-- HOST_WINDOW_ACCESS, a read (R300). -/
theorem hostRead_acts (hp : s.host.powered = true) (hr : reaches s target a n base) :
    ∃ t, exec (.hostWindowAccess target a n none) s = .next t ∧ t = { s with
        free := t.free
        host := { s.host with readData := t.host.readData } } ∧ ((∀ i < n, lineOf (base + i) ∉ s.badLines) →
      t.host.readData = bytesAt s.mem base n) := by
  refine ⟨hostAccess s target a n none, withPower_on hp (hostAccess · target a n none), rfl, fun hgood => ?_⟩
  rw [bytesAt_eq_map]
  refine List.map_congr_left fun i hi => ?_
  have hi := List.mem_range.1 hi
  have hread : hostReads s target (a + i) = byteAt s.mem (base + i) := by
    simp only [hostReads, hostByte_of_reaches hr hi, agentByte]
    rw [if_neg (by simpa using hgood i hi)]
  exact hread

/-- HOST_WINDOW_ACCESS, a write (R300). -/
theorem hostWrite_acts (hp : s.host.powered = true) (hr : reaches s target a n base) (bs : List Byte) (hlen : bs.length = n) (hs : s.slices = []) :
    ∃ t, exec (.hostWindowAccess target a n (some bs)) s = .next t ∧ bytesAt t.mem base n = bs ∧
      (∀ x, ¬(base ≤ x ∧ x < base + n) → byteAt t.mem x = byteAt s.mem x) ∧ t.hostLines = s.hostLines ∧ t.threads = s.threads ∧ t.host = s.host := by
  subst hlen
  refine ⟨hostAccess s target a bs.length (some bs), withPower_on hp (hostAccess · target a bs.length (some bs)), ?_⟩
  obtain ⟨tags, peers, ls, hput⟩ := hostPuts_land bs hs (fun i => hostByte_of_reaches hr) (fun i hi ht => lt_deviceTop_of_reaches hr ht hi)
  obtain ⟨bad, hclean⟩ := cleanLines_rest (hostPuts target a bs s) target a bs.length
  obtain ⟨cs, hpriv⟩ := foldl_refreshPriv_rest (((cleanLines (hostPuts target a bs s) target a bs.length).ctxs.filter Ctx.running).map (fun c => c.rcd.id))
    (cleanLines (hostPuts target a bs s) target a bs.length)
  have hland : hostAccess s target a bs.length (some bs) = { s with
      mem := putBytes s.mem base bs
      lineTag := tags
      peerLines := peers
      launches := ls
      badLines := bad
      ctxs := cs } := by
    rw [hostAccess]
    simp only [List.take_length]
    rw [hpriv, hclean, hput]
  rw [hland]
  exact ⟨bytesAt_putBytes s.mem base bs, fun x hx => byteAt_putBytes_out hx, rfl, rfl, rfl⟩

/-- Without power none of the host's actions, and no collective, does anything. -/
theorem unpowered_acts (s : State) (v off tgt a n data basin priv nonce pa op die hours tail r peers ab) (hp : s.host.powered = false) :
    ∀ i ∈ [Instr.go, .pstateWrite v, .shootdownRange, .shootdownAll, .flushWriteback, .flushInvalidate, .mailboxImageChunk v, .mailboxAttestation v,
      .hostWindowAccess tgt a n data, .registerWrite off v, .moduleReset, .l2ModeChange basin priv, .managementPortAttestation nonce, .peerAccess pa op,
      .ageUpdate die hours, .collectivePost tail, .collectiveComplete r peers ab], exec i s = .next s := by
  have quiet {i : Instr} (f : State → State) (hi : exec i s = withPower s f) : exec i s = .next s := hi.trans (withPower_off hp f)
  simp only [List.forall_mem_cons, List.not_mem_nil, false_imp_iff, implies_true, and_true]
  exact ⟨quiet setGo rfl, quiet (writePstate · v) rfl, quiet (shoot · false) rfl, quiet (shoot · true) rfl, quiet (startFlush · false) rfl,
    quiet (startFlush · true) rfl, quiet (writeMailbox · (withCmd v 1)) rfl, quiet (writeMailbox · (withCmd v 2)) rfl,
    quiet (hostAccess · tgt a n data) rfl, quiet (writeReg · off v) rfl, quiet resetModule rfl, quiet (changeMode · basin priv) rfl,
    quiet (fun s => match reportFor s nonce with | some r => setHost s (fun h => { h with report := r }) | none => s) rfl,
    quiet (peerDoes · pa op) rfl, quiet (setHost · fun h => { h with age := h.age.set die.val hours }) rfl, quiet (postTail · tail) rfl,
    quiet (gather · r peers ab) rfl⟩

/-- GO, AGE_UPDATE, and the start of a flush (R302, R304, R311). -/
theorem goAgeFlush_act (s : State) (hp : s.host.powered = true) :
    (s.host.stage = 3 → s.host.go = false → exec .go s = .next { s with host := { s.host with go := true, featdrv := s.host.featdrv &&& 0x1F } }) ∧
    (s.host.stage ≠ 3 ∨ s.host.go = true → exec .go s = .next s) ∧
    (∀ die hours, exec (.ageUpdate die hours) s = .next { s with host := { s.host with age := s.host.age.set die.val hours } }) ∧
    (∀ inv, exec (if inv then .flushInvalidate else .flushWriteback) s = .next (if s.host.flushing then s else { s with host := { s.host with
      flushing := true, flushInv := inv, flushFrom := s.host.flushPa.toNat, flushTo := s.host.flushPa.toNat + s.host.flushLen.toNat } })) := by
  have go : exec .go s = .next (setGo s) := withPower_on hp setGo
  refine ⟨fun hstage hgo => ?_, fun h => ?_, fun die hours => withPower_on hp (setHost · fun h => { h with age := h.age.set die.val hours }), fun inv => ?_⟩
  · rw [go, setGo]
    simp [hstage, hgo, setHost, Config.featDev]
  · rw [go, setGo]
    rcases h with h | h <;> simp [h]
  · cases inv <;> exact withPower_on hp (startFlush · _)

/-- SHOOTGO (R301). -/
theorem shootdown_acts (s : State) (all : Bool) (hp : s.host.powered = true) :
    let rs := if all = true ∨ s.host.shootLen = 0 then [] else [(s.host.shootVa.toNat, s.host.shootLen.toNat)]
    ∃ t, exec (if all then .shootdownAll else .shootdownRange) s = .next t ∧ (s.host.shooting = true → t = s) ∧ (s.host.shooting = false →
      ∃ v, t = { s with
          host := { s.host with shooting := true, shootAll := all }
          tlb := t.tlb
          copies := t.copies
          invals := s.invals ++ [v]
          nextId := t.nextId } ∧ v.ctx = s.host.shootCtx.toNat % 2 ^ 16 ∧ v.ranges = rs ∧ v.all = all ∧ v.host = true ∧ v.acked = false ∧
        ∀ x, x ∈ t.tlb ↔ x ∈ s.tlb ∧ ¬((x.ctx = v.ctx ∨ x.leaf.glob = true) ∧ (all = true ∨ ∃ r ∈ rs,
          x.leaf.page * x.leaf.size < r.1 + r.2 ∧ r.1 < x.leaf.page * x.leaf.size + x.leaf.size))) := by
  refine ⟨shoot s all, ?_, fun h => if_pos h, shoot_spec s all⟩
  cases all <;> exact withPower_on hp (shoot · _)

/-- Settles O57, by a lemma for each of the host's actions above. -/
theorem hostActionsAct : Obligations.HostActionsAct := by
  unfold Obligations.HostActionsAct
  exact ⟨unpowered_acts, goAgeFlush_act, pstateWrite_acts, fun s all hp => shootdown_acts s all hp, flushComplete_acts,
    fun s target a n base hp hr => ⟨hostRead_acts hp hr, fun bs => hostWrite_acts hp hr bs⟩, l2ModeChange_acts⟩

end Sys2Proof.Machine
end

section
/-! SUPPORT. Records found by a test that an update keeps. O27, what a read takes (R68). -/

namespace Sys2Proof.Machine

variable {s : State} {pl : Option Pool} {d : Pond} {u : Thread} {n : Nat} {v : Word}

/-- An update that keeps a test leaves the test's first element where it stood. -/
theorem find?_updWhere {α : Type} {p test : α → Bool} {f : α → α} (h : ∀ x, test (f x) = test x) (l : List α) :
    (updWhere p f l).find? test = (l.find? test).map (fun x => if p x then f x else x) := by
  have htest : (test ∘ fun x => if p x then f x else x) = test := by
    funext x
    simp only [Function.comp_apply]
    split
    · exact h x
    · rfl
  rw [updWhere, List.find?_map, htest]

/-- A spring copy is read under `.res` and `.sp`, whatever wider copies there are (R68). -/
theorem resolve_of_spring {tag : STag} (ht : tag = .res ∨ tag = .sp) (hs : mapGet u.springs n = some v) : resolve pl d u n tag = v := by
  rcases ht with rfl | rfl <;> simp [resolve, pickCopy, hs]

/-- A thread without a spring copy reads what its pool and its pond give, under every tag but `.pd` (R68). -/
theorem resolve_of_no_spring {tag : STag} (ht : tag ≠ .pd) (hs : tag = .pl ∨ mapGet u.springs n = none) :
    resolve pl d u n tag = (pl.bind (fun p => mapGet p.copies n)).getD (d.copy n) := by
  cases tag with
  | pd => exact absurd rfl ht
  | pl => rfl
  | res | sp => simp [resolve, pickCopy, hs.resolve_left (by decide)]

/-- Settles O27: by cases on the copies that the reader has in view. -/
theorem readsSelectByTag : Obligations.ReadsSelectByTag := by
  refine ⟨rfl, fun pl d u n => ⟨fun tag ht => ⟨fun v => resolve_of_spring ht, fun v hown hwide => ?_, fun hown hwide => ?_⟩,
    fun v hwide => ?_, fun hwide => ?_, rfl, fun e imm uns m tag blk => rfl⟩⟩
  · have hpd : tag ≠ .pd := by rcases ht with rfl | rfl <;> decide
    rw [resolve_of_no_spring hpd (.inr hown), hwide, Option.getD_some]
  · have hpd : tag ≠ .pd := by rcases ht with rfl | rfl <;> decide
    rw [resolve_of_no_spring hpd (.inr hown), hwide, Option.getD_none]
  · rw [resolve_of_no_spring (by decide) (.inl rfl), hwide, Option.getD_some]
  · rw [resolve_of_no_spring (by decide) (.inl rfl), hwide, Option.getD_none]

end Sys2Proof.Machine
end

section
/-! O28. A layered write is full or a split (R70). -/

namespace Sys2Proof.Machine

variable {s : State}

/-- The value that a list of writers gives to a name. -/
theorem valOf_writers {α : Type} (ws : List TRef) (val : TRef → α) (r : TRef) :
    valOf (ws.map (fun q => (q, val q))) r = if r ∈ ws then some (val r) else none := by
  induction ws with
  | nil => rfl
  | cons q ws ih =>
    by_cases hq : q = r
    · subst hq
      simp [valOf]
    · have hrec : valOf ((q :: ws).map (fun q => (q, val q))) r = valOf (ws.map (fun q => (q, val q))) r := by
        simp [valOf, hq]
      rw [hrec, ih]
      simp [Ne.symm hq]

/-- The writers are the live threads of the pool when they have the same names (R70). -/
theorem coversPool_writers {α : Type} {p : Nat} {ws : List TRef} {val : TRef → α} :
    coversPool s p (ws.map (fun r => (r, val r))) = true ↔ ∀ r, r ∈ ws ↔ ∃ u ∈ s.threads, u.inPool p = true ∧ u.ref = r := by
  simp only [coversPool, poolThreads, Bool.and_eq_true, List.all_eq_true, List.any_eq_true, List.mem_filter, List.mem_map, valOf_writers, beq_iff_eq]
  constructor
  · rintro ⟨hin, hout⟩ r
    refine ⟨fun hr => ?_, ?_⟩
    · obtain ⟨u, ⟨hu, hp⟩, hur⟩ := hout _ ⟨r, hr, rfl⟩
      exact ⟨u, hu, hp, hur⟩
    · rintro ⟨u, hu, hp, rfl⟩
      have hsome := hin u ⟨hu, hp⟩
      by_contra hr
      simp [hr] at hsome
  · intro h
    refine ⟨fun u hu => by simp [(h u.ref).2 ⟨u, hu.1, hu.2, rfl⟩], ?_⟩
    rintro _ ⟨r, hr, rfl⟩
    obtain ⟨u, hu, hp, hur⟩ := (h r).1 hr
    exact ⟨u, ⟨hu, hp⟩, hur⟩

/-- Writers whose values agree have the value of each (R70). -/
theorem uniform_writers {α : Type} [DecidableEq α] {ws : List TRef} {val : TRef → α} {v : α} :
    uniform (ws.map (fun r => (r, val r))) = some v ↔ ws ≠ [] ∧ ∀ r ∈ ws, val r = v := by
  cases ws with
  | nil => simp [uniform]
  | cons q ws =>
    simp only [List.map_cons, uniform, List.all_map]
    by_cases hall : ∀ r ∈ ws, val r = val q
    · rw [if_pos (by simpa using hall)]
      simp only [Option.some.injEq, ne_eq, reduceCtorEq, not_false_eq_true, true_and, List.forall_mem_cons]
      exact ⟨fun h => ⟨h, fun r hr => (hall r hr).trans h⟩, And.left⟩
    · rw [if_neg (by simpa using hall)]
      simp only [reduceCtorEq, false_iff, not_and, List.forall_mem_cons]
      exact fun _ hq hws => hall fun r hr => (hws r hr).trans hq.symm

/-- When a layered write is full, and with which value (R70). -/
theorem fullWrite_writers {α : Type} [DecidableEq α] {p : Nat} {pl : Bool} {ws : List TRef} {val : TRef → α} {v : α} :
    fullWrite s p pl (ws.map (fun r => (r, val r))) = some v ↔
      (pl = true ∧ ∀ r, r ∈ ws ↔ ∃ u ∈ s.threads, u.inPool p = true ∧ u.ref = r) ∧ ws ≠ [] ∧ ∀ r ∈ ws, val r = v := by
  rw [← coversPool_writers (val := val), ← uniform_writers, ← Bool.and_eq_true, fullWrite]
  split
  · simp [*]
  · simp [*]

/-- Which threads a layered write overtakes leaves who is in the pool. -/
theorem coversPool_overtake {α : Type} (p n : Nat) (q : Thread → Bool) (vals : List (TRef × α)) :
    coversPool (updThreads s q (fun t => t.overtake n none)) p vals = coversPool s p vals := by
  have hpool : poolThreads (updThreads s q (fun t => t.overtake n none)) p =
      (poolThreads s p).map (fun t => if q t then t.overtake n none else t) := by
    simp only [poolThreads, updThreads_threads, updWhere, List.filter_map]
    congr 1
    refine List.filter_congr fun x _ => ?_
    simp only [Function.comp_apply]
    split <;> rfl
  have href : ∀ t : Thread, (if q t then t.overtake n none else t).ref = t.ref := fun t => by split <;> rfl
  simp only [coversPool, hpool, List.all_map, List.any_map, Function.comp_def, href]

/-- A layered write is full in a state when it would be before it overtook the pending writes. -/
theorem lwrite_eq (s : State) (p n : Nat) (pl : Bool) (vals : List (TRef × Word)) :
    lwrite s p n pl vals =
      writeCopies (updThreads s (fun t => (valOf vals t.ref).isSome) (fun t => t.overtake n none)) p n (fullWrite s p pl vals) vals := by
  simp only [lwrite, fullWrite, coversPool_overtake]

/-- A full pool write drops the spring copies of the pool's threads and sets its pool copy (R70). -/
theorem lwrite_of_full {p n : Nat} {pl : Bool} {vals : List (TRef × Word)} {v : Word} (h : fullWrite s p pl vals = some v) :
    (lwrite s p n pl vals).pools = updWhere (fun x => x.id == p) (fun q => q.setCopy n v) s.pools ∧
    List.Forall₂ (fun u u' => mapGet u'.springs n = if u.inPool p then none else mapGet u.springs n) s.threads (lwrite s p n pl vals).threads := by
  refine ⟨by rw [lwrite_eq, h]; rfl, ?_⟩
  rw [lwrite_eq, h]
  show List.Forall₂ _ s.threads (updWhere _ _ (updWhere _ _ s.threads))
  rw [updWhere, updWhere, List.map_map, List.forall₂_map_right_iff]
  refine forall₂_self _ fun x _ => ?_
  simp only [Function.comp_apply]
  have hin : (if (valOf vals x.ref).isSome then x.overtake n none else x).inPool p = x.inPool p := by split <;> rfl
  have hsp : (if (valOf vals x.ref).isSome then x.overtake n none else x).springs = x.springs := by split <;> rfl
  rw [hin]
  split
  · simp [Thread.dropSpring]
  · rw [hsp]

/-- A split writes the spring copies of the writers alone (R70). -/
theorem lwrite_of_split {p n : Nat} {pl : Bool} {vals : List (TRef × Word)} (h : fullWrite s p pl vals = none) :
    (lwrite s p n pl vals).pools = s.pools ∧
    List.Forall₂ (fun u u' => mapGet u'.springs n = (valOf vals u.ref).or (mapGet u.springs n)) s.threads (lwrite s p n pl vals).threads := by
  refine ⟨by rw [lwrite_eq, h]; rfl, ?_⟩
  rw [lwrite_eq, h]
  show List.Forall₂ _ s.threads (updWhere _ _ (updWhere _ _ s.threads))
  rw [updWhere, updWhere, List.map_map, List.forall₂_map_right_iff]
  refine forall₂_self _ fun x _ => ?_
  cases hv : valOf vals x.ref with
  | none => simp [hv]
  | some v =>
    have href : (x.overtake n none).ref = x.ref := rfl
    simp [hv, href, Thread.setSpring]

/-- Settles O28: the write is full where `fullWrite` gives a value, which is the value of each writer, and a split elsewhere. -/
theorem layeredWriteIsFullOrSplit : Obligations.LayeredWriteIsFullOrSplit := by
  intro s p n pl ws val t full
  constructor
  · rintro ⟨hpl, hne, hws, hval⟩
    have hfull : ∀ r ∈ ws, fullWrite s p pl (ws.map fun r => (r, val r)) = some (val r) := fun r hr =>
      fullWrite_writers.2 ⟨⟨hpl, hws⟩, hne, fun q hq => hval q hq r hr⟩
    obtain ⟨r, hr⟩ := List.exists_mem_of_ne_nil ws hne
    refine ⟨fun r hr q hq hqp => ?_, (lwrite_of_full (hfull r hr)).2⟩
    rw [(lwrite_of_full (hfull r hr)).1] at hq
    obtain ⟨x, -, rfl⟩ := List.mem_map.1 hq
    have hx : x.id = p := by
      rw [← hqp]
      split <;> rfl
    simp [hx, Pool.setCopy]
  · intro hnot
    have hsplit : fullWrite s p pl (ws.map fun r => (r, val r)) = none := by
      refine Option.eq_none_iff_forall_ne_some.2 fun v hv => hnot ?_
      obtain ⟨⟨hpl, hws⟩, hne, hval⟩ := fullWrite_writers.1 hv
      exact ⟨hpl, hne, hws, fun r hr q hq => (hval r hr).trans (hval q hq).symm⟩
    refine ⟨(lwrite_of_split hsplit).1, (lwrite_of_split hsplit).2.imp fun u u' h => ?_⟩
    rw [h, valOf_writers]
    split <;> rfl

end Sys2Proof.Machine
end

section
/-! SUPPORT. What the issue of a word leaves, field by field (R102, R226), and states whose threads stand in the same order under their names. -/

namespace Sys2Proof.Machine

variable {s t : State} {e : Env} {i : Instr}

/-- The issue of a word counts in %retired of its fragment's threads, moves the fragment on, and leaves all else but its own bookkeeping. -/
theorem finish_eq (s : State) (e : Env) (i : Instr) : finish s e i = { s with
    threads := updWhere (fun u => u.inFrag e.frag.ref) (fun u => { u with retired := u.retired + 1 }) s.threads
    frags := (finish s e i).frags
    cur := (finish s e i).cur
    free := (finish s e i).free
    hints := (finish s e i).hints } := by
  unfold finish
  simp only
  split <;> split <;> rfl

@[simp] theorem finish_threads (s : State) (e : Env) (i : Instr) : (finish s e i).threads =
    updWhere (fun u => u.inFrag e.frag.ref) (fun u => { u with retired := u.retired + 1 }) s.threads := by rw [finish_eq]
@[simp] theorem finish_ponds (s : State) (e : Env) (i : Instr) : (finish s e i).ponds = s.ponds := by rw [finish_eq]
@[simp] theorem finish_colls (s : State) (e : Env) (i : Instr) : (finish s e i).colls = s.colls := by rw [finish_eq]
@[simp] theorem finish_blocks (s : State) (e : Env) (i : Instr) : (finish s e i).blocks = s.blocks := by rw [finish_eq]
@[simp] theorem finish_launches (s : State) (e : Env) (i : Instr) : (finish s e i).launches = s.launches := by rw [finish_eq]
@[simp] theorem finish_ctxs (s : State) (e : Env) (i : Instr) : (finish s e i).ctxs = s.ctxs := by rw [finish_eq]
@[simp] theorem finish_host (s : State) (e : Env) (i : Instr) : (finish s e i).host = s.host := by rw [finish_eq]

/-- A thread after the issue of a word of a fragment (R226). -/
def Thread.issued (r : FRef) (u : Thread) : Thread := if u.inFrag r then { u with retired := u.retired + 1 } else u

theorem Thread.issued_eq (r : FRef) (u : Thread) : u.issued r = { u with retired := (u.issued r).retired } := by
  unfold Thread.issued
  split <;> rfl

theorem finish_threads_eq_map (s : State) (e : Env) (i : Instr) : (finish s e i).threads = s.threads.map (Thread.issued e.frag.ref) :=
  finish_threads s e i

end Sys2Proof.Machine
end

section
/-! O30, LDROP (R74). A register and a modulus slot are dropped alike: `dropAt` says how, from what drops and sets their copies. -/

namespace Sys2Proof.Machine

variable {s : State} {e : Env} {i : Instr}

/-- The copies of the threads `mine` of the pool `p` dropped down to the pool's or the pond's (R74): `has` says that the pool has a copy, `drop` and
`dropWide` drop a thread's and the pool's, and `take` gives a thread the pond copy. -/
def dropAt (s : State) (p : Nat) (mine : Thread → Bool) (pd has : Bool) (drop take : Thread → Thread) (dropWide : Pool → Pool) : State :=
  if !pd || !has then updThreads s mine drop
  else if (poolThreads (updThreads s mine drop) p).all mine then updPool (updThreads s mine drop) p dropWide
  else updThreads (updThreads s mine drop) mine take

/-- The thread is one of the callers. -/
def callsAs (act : List Thread) (u : Thread) : Bool := act.any (fun x => x.ref == u.ref)

theorem callsAs_iff {act : List Thread} {u : Thread} : callsAs act u = true ↔ u.ref ∈ act.map Thread.ref := by
  simp [callsAs]

theorem dropReg_eq (s : State) (e : Env) (pd : Bool) (n : Nat) (act : List Thread) : dropReg s e pd n act =
    dropAt s e.pool.id (callsAs act) pd (mapGet e.pool.copies n).isSome (·.dropSpring n) (·.takePond e.pond n) (·.dropCopy n) := by
  simp only [dropReg, dropAt, Option.not_isSome]
  rfl

theorem dropSlot_eq (s : State) (e : Env) (pd : Bool) (k : Nat) (act : List Thread) : dropSlot s e pd k act =
    dropAt s e.pool.id (callsAs act) pd (mapGet e.pool.slots k).isSome (·.dropSlot k) (·.takePondSlot e.pond k) (·.dropSlot k) := by
  simp only [dropSlot, dropAt, Option.not_isSome]
  rfl

section
variable {p : Nat} {mine : Thread → Bool} {pd has : Bool} {drop take : Thread → Thread} {dropWide : Pool → Pool}

@[simp] theorem dropAt_ponds : (dropAt s p mine pd has drop take dropWide).ponds = s.ponds := by
  unfold dropAt
  split
  · rfl
  · split <;> rfl

/-- A thread that is no caller stays as it is. -/
theorem dropAt_others {u : Thread} (hu : u ∈ s.threads) (hm : mine u = false) : u ∈ (dropAt s p mine pd has drop take dropWide).threads := by
  have hmap : ∀ (f : Thread → Thread) (s : State), u ∈ s.threads → u ∈ (updThreads s mine f).threads := fun f s hu =>
    List.mem_map.2 ⟨u, hu, by simp [hm]⟩
  unfold dropAt
  split
  · exact hmap _ _ hu
  · split
    · exact hmap _ _ hu
    · exact hmap _ _ (hmap _ _ hu)

/-- The pool of a thread that is no caller keeps its copies: it loses them only where the callers are all its threads. -/
theorem dropAt_pool_others (hid : ∀ q, (dropWide q).id = q.id) {u : Thread} (hu : u ∈ s.threads) (hm : mine u = false) :
    u.pool.bind (pool (dropAt s p mine pd has drop take dropWide)) = u.pool.bind (pool s) := by
  unfold dropAt
  split
  · rfl
  · split
    · next hall =>
      have hne : u.pool ≠ some p := fun hp => by
        have hin : u ∈ poolThreads (updThreads s mine drop) p :=
          List.mem_filter.2 ⟨List.mem_map.2 ⟨u, hu, by simp [hm]⟩, by simp [Thread.inPool, hp]⟩
        simp [List.all_eq_true.1 hall u hin] at hm
      refine Option.bind_congr fun q hq => ?_
      have hqp : q ≠ p := fun h => hne (h ▸ hq)
      show (updWhere (fun x => x.id == p) dropWide s.pools).find? (fun x => x.id == q) = s.pools.find? (fun x => x.id == q)
      rw [find?_updWhere fun x => by rw [hid]]
      cases hf : s.pools.find? (fun x => x.id == q) with
      | none => rfl
      | some x =>
        have hx : x.id = q := by simpa using List.find?_some hf
        simp [hx, hqp]
    · rfl

/-- Each caller then has the copy of the named rank in view. -/
theorem dropAt_callers {α : Type} {own : Thread → Option α} {wide : Pool → Option α} {v : α} {p0 : Pool} (hp : pool s p = some p0)
    (hhas : has = (wide p0).isSome) (hdrop : ∀ x, own (drop x) = none) (htake : ∀ x, own (take x) = some v) (hdropWide : ∀ q, wide (dropWide q) = none)
    (hdm : ∀ x, mine (drop x) = mine x) (htm : ∀ x, mine (take x) = mine x) (hid : ∀ q, (dropWide q).id = q.id)
    {x : Thread} (hx : x ∈ (dropAt s p mine pd has drop take dropWide).threads) (hm : mine x = true) :
    pickCopy .res (own x) ((pool (dropAt s p mine pd has drop take dropWide) p).bind wide) v = if pd then v else (wide p0).getD v := by
  have hcall : ∀ {f : Thread → Thread} {s : State} {y : Thread}, (∀ x, mine (f x) = mine x) → y ∈ (updThreads s mine f).threads → mine y = true →
      ∃ z ∈ s.threads, y = f z := fun {f s y} hf hy hmy => by
    obtain ⟨z, hz, rfl⟩ := List.mem_map.1 hy
    by_cases hmz : mine z = true
    · exact ⟨z, hz, if_pos hmz⟩
    · rw [if_neg hmz] at hmy
      exact absurd hmy hmz
  unfold dropAt at hx ⊢
  split at hx
  · next hpd =>
    obtain ⟨z, -, rfl⟩ := hcall hdm hx hm
    rw [if_pos hpd, show pool (updThreads s mine drop) p = some p0 from hp, hdrop]
    cases pd with
    | false => rfl
    | true =>
      have hnone : wide p0 = none := by simpa [hhas] using hpd
      simp [pickCopy, hnone]
  · next hpd =>
    obtain ⟨rfl, -⟩ : pd = true ∧ has = true := by simpa using hpd
    split at hx
    · next hall =>
      obtain ⟨z, -, rfl⟩ := hcall hdm hx hm
      have hpool := pool_updPool (updThreads s mine drop) p dropWide hid
      rw [show pool (updThreads s mine drop) p = some p0 from hp] at hpool
      rw [if_neg hpd, if_pos hall, hpool, hdrop]
      simp [pickCopy, hdropWide]
    · next hall =>
      obtain ⟨z, -, rfl⟩ := hcall htm hx hm
      rw [htake]
      rfl

/-- A drop leaves all but the copies that it drops. -/
theorem dropAt_keeps {regs preds : List Nat} {flags : Bool} {ws : List TRef} (hws : ∀ x, mine x = true → x.ref ∈ ws)
    (hdrop : ∀ x : Thread, x.ref ∈ ws → x.Keeps regs preds flags ws (drop x)) (htake : ∀ x : Thread, x.ref ∈ ws → x.Keeps regs preds flags ws (take x))
    (hwide : ∀ q : Pool, q.id = e.pool.id → q.Keeps regs e.pool.id (dropWide q)) :
    s.Keeps e regs preds flags ws (dropAt s e.pool.id mine pd has drop take dropWide) := by
  have hthreads : ∀ {f : Thread → Thread}, (∀ x : Thread, x.ref ∈ ws → x.Keeps regs preds flags ws (f x)) → ∀ s : State,
      s.Keeps e regs preds flags ws (updThreads s mine f) := fun hf s =>
    .of_parts rfl (forall₂_updWhere _ _ _ (fun x _ hm => hf x (hws x hm)) (fun _ _ => .refl ..)) (forall₂_self _ (fun _ _ => .refl ..))
      (forall₂_self _ (fun _ _ _ => rfl))
  unfold dropAt
  split
  · exact hthreads hdrop s
  · split
    · refine (hthreads hdrop s).trans (.of_parts rfl (forall₂_self _ (fun _ _ => .refl ..)) ?_ (forall₂_self _ (fun _ _ _ => rfl)))
      exact forall₂_updWhere _ _ _ (fun q _ hq => hwide q (by simpa using hq)) (fun _ _ => .refl ..)
    · exact (hthreads hdrop s).trans (hthreads htake _)

/-- An LDROP leaves a thread that is no caller its copies and those of its pool. -/
theorem ldrop_others {act : List Thread} (hid : ∀ q, (dropWide q).id = q.id) {u : Thread} (hu : u ∈ s.threads) (hm : mine (u.issued e.frag.ref) = false) :
    ∃ x ∈ (if act = [] then finish s e i else dropAt (finish s e i) p mine pd has drop take dropWide).threads, x.ref = u.ref ∧ x.place = u.place ∧
      x.springs = u.springs ∧ x.slots = u.slots ∧
      u.pool.bind (pool (if act = [] then finish s e i else dropAt (finish s e i) p mine pd has drop take dropWide)) = u.pool.bind (pool s) := by
  have hy : u.issued e.frag.ref ∈ (finish s e i).threads := finish_threads_eq_map s e i ▸ List.mem_map_of_mem hu
  have hpools : pool (finish s e i) = pool s := by
    funext q
    simp [pool]
  have hpool := dropAt_pool_others (p := p) (pd := pd) (has := has) (drop := drop) (take := take) hid hy hm
  rw [show (u.issued e.frag.ref).pool = u.pool by rw [Thread.issued_eq]; rfl, hpools] at hpool
  refine ⟨u.issued e.frag.ref, ?_, ?_⟩
  · split
    · exact hy
    · exact dropAt_others hy hm
  · rw [Thread.issued_eq]
    refine ⟨rfl, rfl, rfl, rfl, ?_⟩
    split
    · rw [hpools]
    · exact hpool

end

theorem dropSpring_keeps {regs preds : List Nat} {flags : Bool} {ws : List TRef} {n : Nat} (hn : n ∈ regs) {x : Thread} (hx : x.ref ∈ ws) :
    x.Keeps regs preds flags ws (x.dropSpring n) := by
  have hne : ∀ m, m ∉ regs → n ≠ m := fun m hm h => hm (h ▸ hn)
  refine ⟨rfl, fun h => absurd hx h, fun m hm => mapGet_mapErase_ne _ (hne m hm), fun m hm => ?_, fun _ _ => rfl, fun _ => rfl, rfl⟩
  simp [Thread.dropSpring, List.contains_eq_mem, (hne m hm).symm]

theorem takePond_keeps {regs preds : List Nat} {flags : Bool} {ws : List TRef} {n : Nat} (hn : n ∈ regs) {x : Thread} (hx : x.ref ∈ ws) (d : Pond) :
    x.Keeps regs preds flags ws (x.takePond d n) := by
  have hne : ∀ m, m ∉ regs → n ≠ m := fun m hm h => hm (h ▸ hn)
  have hset : x.Keeps regs preds flags ws (x.setSpring n (d.copy n)) := by
    refine ⟨rfl, fun h => absurd hx h, fun m hm => mapGet_mapSet_ne _ _ (hne m hm), fun m hm => ?_, fun _ _ => rfl, fun _ => rfl, rfl⟩
    simp [Thread.setSpring, List.contains_eq_mem, (hne m hm).symm]
  unfold Thread.takePond
  simp only
  split
  · refine hset.trans ⟨rfl, fun h => absurd hx h, fun _ _ => rfl, fun m hm => ?_, fun _ _ => rfl, fun _ => rfl, rfl⟩
    simp [List.contains_eq_mem, (hne m hm).symm]
  · exact hset

theorem dropCopy_keeps {regs : List Nat} {n : Nat} (hn : n ∈ regs) (q : Pool) : q.Keeps regs q.id (q.dropCopy n) := by
  have hne : ∀ m, m ∉ regs → n ≠ m := fun m hm h => hm (h ▸ hn)
  refine ⟨rfl, fun h => absurd rfl h, fun m hm => mapGet_mapErase_ne _ (hne m hm), fun m hm => ?_⟩
  simp [Pool.dropCopy, List.contains_eq_mem, (hne m hm).symm]

theorem takePond_ref (x : Thread) (d : Pond) (n : Nat) : (x.takePond d n).ref = x.ref := by
  unfold Thread.takePond
  simp only
  split <;> rfl

theorem takePond_spring (x : Thread) (d : Pond) (n : Nat) : mapGet (x.takePond d n).springs n = some (d.copy n) := by
  unfold Thread.takePond
  simp only
  split <;> simp [Thread.setSpring]

theorem takePondSlot_ref (x : Thread) (d : Pond) (k : Nat) : (x.takePondSlot d k).ref = x.ref := by
  unfold Thread.takePondSlot
  simp only
  split <;> rfl

theorem takePondSlot_slot (x : Thread) (d : Pond) (k : Nat) : mapGet (x.takePondSlot d k).slots k = some (d.slotCopy k) := by
  unfold Thread.takePondSlot
  simp only
  split <;> simp [Thread.setSlot]

/-- The names for which a word acts are those of its callers. -/
theorem callsAs_issued_eq_false {g : Guard} {r : FRef} {u : Thread} (hu : u.ref ∉ e.acting g) : callsAs (e.active g) (u.issued r) = false := by
  rw [← Bool.not_eq_true, callsAs_iff, Thread.issued_eq]
  exact hu

theorem exec_ldrop_reg {g : Guard} {pd : Bool} {n : Fin 768} {tag : STag} {blk : Bool} (h : Issues s e (.ldrop g pd (.src (.reg n tag blk)))) :
    exec (.ldrop g pd (.src (.reg n tag blk))) s = .next (if e.active g = [] then finish s e (.ldrop g pd (.src (.reg n tag blk)))
      else dropAt (finish s e (.ldrop g pd (.src (.reg n tag blk)))) e.pool.id (callsAs (e.active g)) pd (mapGet e.pool.copies n).isSome (·.dropSpring n)
        (·.takePond e.pond n) (·.dropCopy n)) := by
  rw [← dropReg_eq]
  exact issue_plain h g _

/-- LDROP on a register (R74). -/
theorem ldrop_reg {g : Guard} {pd : Bool} {n : Fin 768} {tag : STag} {blk : Bool} (h : Issues s e (.ldrop g pd (.src (.reg n tag blk)))) :
    ∃ t, exec (.ldrop g pd (.src (.reg n tag blk))) s = .next t ∧ s.Keeps e [n.val] [] false (e.acting g) t ∧
    (∀ u ∈ e.actors g, Reads t e u.ref n (if pd then e.pond.copy n else (mapGet e.pool.copies n).getD (e.pond.copy n))) ∧
    (∀ u ∈ s.threads, Sole s u → u.ref ∉ e.acting g → ∃ x ∈ t.threads, x.ref = u.ref ∧ x.place = u.place ∧
      ∀ d m tag, resolve (u.pool.bind (pool t)) d x m tag = resolve (u.pool.bind (pool s)) d u m tag) := by
  refine ⟨_, exec_ldrop_reg h, ?_, fun u hu x hx hxr _ => ?_, fun u hu _ hne => ?_⟩
  · split
    · exact finish_keeps
    · exact finish_keeps.trans (dropAt_keeps (fun x => callsAs_iff.1) (fun x hx => dropSpring_keeps (List.mem_singleton.2 rfl) hx)
        (fun x hx => takePond_keeps (List.mem_singleton.2 rfl) hx _) (fun q hq => hq ▸ dropCopy_keeps (List.mem_singleton.2 rfl) q))
  · have hmem := (List.mem_filter.1 hu).1
    have hcall : callsAs (e.active g) x = true := callsAs_iff.2 (by rw [hxr]; exact List.mem_map_of_mem hmem)
    rw [if_neg (List.ne_nil_of_mem hmem)] at hx ⊢
    exact dropAt_callers (own := fun x => mapGet x.springs n) (wide := fun q => mapGet q.copies n) (drop := (·.dropSpring n))
      (take := (·.takePond e.pond n)) (dropWide := (·.dropCopy n)) (pool_finish h) rfl
      (fun x => by simp [Thread.dropSpring]) (fun x => takePond_spring x _ _) (fun q => by simp [Pool.dropCopy]) (fun x => rfl)
      (fun x => by rw [callsAs, callsAs, takePond_ref]) (fun q => rfl) hx hcall
  · obtain ⟨x, hx, href, hplace, hspr, -, hpool⟩ := ldrop_others (i := .ldrop g pd (.src (.reg n tag blk))) (act := e.active g) (p := e.pool.id) (pd := pd)
      (has := (mapGet e.pool.copies n).isSome) (drop := (·.dropSpring n)) (take := (·.takePond e.pond n)) (dropWide := (·.dropCopy n))
      (fun q => rfl) hu (callsAs_issued_eq_false hne)
    exact ⟨x, hx, href, hplace, fun d m tag => by rw [resolve, resolve, hspr, hpool]⟩

theorem exec_ldrop_slot {g : Guard} {pd : Bool} {k : Fin 8} (h : Issues s e (.ldrop g pd (.slot k))) :
    exec (.ldrop g pd (.slot k)) s = .next (if e.active g = [] then finish s e (.ldrop g pd (.slot k))
      else dropAt (finish s e (.ldrop g pd (.slot k))) e.pool.id (callsAs (e.active g)) pd (mapGet e.pool.slots k).isSome (·.dropSlot k)
        (·.takePondSlot e.pond k) (·.dropSlot k)) := by
  rw [← dropSlot_eq]
  exact issue_plain h g _

/-- LDROP on a modulus slot (R74). -/
theorem ldrop_slot {g : Guard} {pd : Bool} {k : Fin 8} (h : Issues s e (.ldrop g pd (.slot k))) :
    ∃ t, exec (.ldrop g pd (.slot k)) s = .next t ∧ t.ponds = s.ponds ∧
    (∀ u ∈ e.actors g, ∀ x ∈ t.threads, x.ref = u.ref → x.inPool e.pool.id = true →
      resolveSlot (pool t e.pool.id) e.pond x k .res = if pd then e.pond.slotCopy k else (mapGet e.pool.slots k).getD (e.pond.slotCopy k)) ∧
    (∀ u ∈ s.threads, Sole s u → u.ref ∉ e.acting g → ∃ x ∈ t.threads, x.ref = u.ref ∧ x.place = u.place ∧
      ∀ d m tag, resolveSlot (u.pool.bind (pool t)) d x m tag = resolveSlot (u.pool.bind (pool s)) d u m tag) := by
  refine ⟨_, exec_ldrop_slot h, ?_, fun u hu x hx hxr _ => ?_, fun u hu _ hne => ?_⟩
  · split
    · exact finish_ponds ..
    · exact dropAt_ponds.trans (finish_ponds ..)
  · have hmem := (List.mem_filter.1 hu).1
    have hcall : callsAs (e.active g) x = true := callsAs_iff.2 (by rw [hxr]; exact List.mem_map_of_mem hmem)
    rw [if_neg (List.ne_nil_of_mem hmem)] at hx ⊢
    exact dropAt_callers (own := fun x => mapGet x.slots k) (wide := fun q => mapGet q.slots k) (drop := (·.dropSlot k))
      (take := (·.takePondSlot e.pond k)) (dropWide := (·.dropSlot k)) (pool_finish h) rfl
      (fun x => by simp [Thread.dropSlot]) (fun x => takePondSlot_slot x _ _) (fun q => by simp [Pool.dropSlot]) (fun x => rfl)
      (fun x => by rw [callsAs, callsAs, takePondSlot_ref]) (fun q => rfl) hx hcall
  · obtain ⟨x, hx, href, hplace, -, hslots, hpool⟩ := ldrop_others (i := .ldrop g pd (.slot k)) (act := e.active g) (p := e.pool.id) (pd := pd)
      (has := (mapGet e.pool.slots k).isSome) (drop := (·.dropSlot k)) (take := (·.takePondSlot e.pond k)) (dropWide := (·.dropSlot k))
      (fun q => rfl) hu (callsAs_issued_eq_false hne)
    exact ⟨x, hx, href, hplace, fun d m tag => by rw [resolveSlot, resolveSlot, hslots, hpool]⟩

end Sys2Proof.Machine
end

section
/-! O30, LRANK (R74) and materialisation (R77). -/

namespace Sys2Proof.Machine

/-- A rank as a word. -/
theorem loWord_copyRank {α : Type} (own wide : Option α) :
    loWord ((BitVec.ofNat 32 (copyRank own wide)).setWidth 64) = if own.isSome then 0 else if wide.isSome then 1 else 2 := by
  unfold copyRank
  split
  · rfl
  · split <;> rfl

/-- LRANK writes the rank of the copy in view (R74). -/
theorem lrank_writes (g : Guard) (d : Dst) (a : LName) :
    Writes (.lrank g d a) false d (fun e u v => v = (BitVec.ofNat 32 (e.rankOf a u)).setWidth 64) := by
  intro s e h
  obtain ⟨t, ht, hres⟩ := dstBody_results h g d (fun e _ u => BitVec.ofNat 32 (e.rankOf a u))
  exact ⟨t, _, ht, hres, fun u _ => rfl⟩

/-- What a word writes has every property that follows from it. -/
theorem Writes.imp {i : Instr} {w : Bool} {d : Dst} {p q : Env → Thread → DWord → Prop} (h : Writes i w d p) (hpq : ∀ e u v, p e u v → q e u v) :
    Writes i w d q := by
  intro s e hi
  obtain ⟨t, v, ht, hres, hv⟩ := h s e hi
  exact ⟨t, v, ht, hres, fun u hu => hpq e u _ (hv u hu)⟩

/-- A table filled from a wider one gives its own entries, and where it has none the wider one's (R77). -/
theorem mapGet_mergeUnder {α : Type} (own wide : Map α) (n : Nat) : mapGet (mergeUnder own wide) n = (mapGet own n).or (mapGet wide n) := by
  unfold mergeUnder
  induction wide generalizing own with
  | nil => simp [mapGet]
  | cons p wide ih =>
    obtain ⟨k, v⟩ := p
    rw [List.foldl_cons, ih]
    by_cases hk : k = n
    · subst hk
      cases hown : mapGet own k with
      | none => simp [mapGet]
      | some w => simp [hown]
    · have hget : mapGet ((k, v) :: wide) n = mapGet wide n := by simp [mapGet, hk]
      rw [hget]
      simp only
      split
      · rfl
      · rw [mapGet_mapSet_ne _ _ hk]

/-- A read of a thread that has left its pool returns the copy that it had in view there (R77). -/
theorem pickCopy_or {α : Type} (own wide : Option α) (v : α) : pickCopy .res (own.or wide) none v = pickCopy .res own wide v := by
  cases own with
  | none => cases wide <;> rfl
  | some w => rfl

/-- Settles O30: LDROP by `dropAt`, LRANK by the rank of the copy in view, and materialisation by the table that it fills. -/
theorem dropsRanksAndMaterialisation : Obligations.DropsRanksAndMaterialisation := by
  refine ⟨⟨fun g pd n tag blk s e h => ldrop_reg h, fun g pd k s e h => ldrop_slot h, fun g d n tag blk => ?_, fun g d k => ?_⟩, fun p d u n => ?_⟩
  · exact (lrank_writes g d _).imp fun e u v hv => hv ▸ loWord_copyRank _ _
  · exact (lrank_writes g d _).imp fun e u v hv => hv ▸ loWord_copyRank _ _
  · refine ⟨?_, ?_, fun hp => ?_⟩
    · simpa only [resolve, Thread.materialise, mapGet_mergeUnder, Option.bind_none, Option.bind_some] using pickCopy_or _ _ _
    · simpa only [resolveSlot, Thread.materialise, mapGet_mergeUnder, Option.bind_none, Option.bind_some] using pickCopy_or _ _ _
    · simp [Thread.materialise, mapGet_mergeUnder, hp]

end Sys2Proof.Machine
end

section
/-! O31, one register of a producer (R71): what its write leaves of the threads, and what its writers read. -/

namespace Sys2Proof.Machine

variable {s t : State} {n m wid : Nat} {pl : Bool} {vals : List (TRef × Word)} {u u' : Thread} {v : Word}

/-- A thread of which at most register `n` has been written: its copies and marks of the others stand. -/
structure Thread.WroteOnly (n : Nat) (u u' : Thread) : Prop where
  rest : u' = { u with
    springs := u'.springs
    poison := u'.poison
    marks := u'.marks
    uses := u'.uses }
  springs : ∀ m, n ≠ m → mapGet u'.springs m = mapGet u.springs m
  marks : ∀ x : Mark, n ≠ x.reg → (x ∈ u'.marks ↔ x ∈ u.marks)

theorem Thread.WroteOnly.refl (n : Nat) (u : Thread) : u.WroteOnly n u := ⟨rfl, fun _ _ => rfl, fun _ _ => Iff.rfl⟩

theorem Thread.WroteOnly.trans {w : Thread} (h : u.WroteOnly n u') (h' : u'.WroteOnly n w) : u.WroteOnly n w where
  rest := by rw [h'.rest, h.rest]
  springs m hm := (h'.springs m hm).trans (h.springs m hm)
  marks x hx := (h'.marks x hx).trans (h.marks x hx)

theorem Thread.WroteOnly.ref_eq (h : u.WroteOnly n u') : u'.ref = u.ref := by rw [h.rest]; rfl
theorem Thread.WroteOnly.place_eq (h : u.WroteOnly n u') : u'.place = u.place := by rw [h.rest]
theorem Thread.WroteOnly.pond_eq (h : u.WroteOnly n u') : u'.pond = u.pond := by rw [h.rest]

/-- A mark stands where it stood when marks of its register are left alone and others keep their registers. -/
theorem mem_map_mark {f : Mark → Mark} {l : List Mark} {x : Mark} (hreg : ∀ y, (f y).reg = y.reg) (hx : ∀ y, y.reg = x.reg → f y = y) :
    x ∈ l.map f ↔ x ∈ l := by
  rw [List.mem_map]
  constructor
  · rintro ⟨y, hy, rfl⟩
    rw [hx y (hreg y).symm]
    exact hy
  · exact fun hm => ⟨x, hm, hx x rfl⟩

theorem overtake_wroteOnly (u : Thread) (n : Nat) (w : Option Nat) : u.WroteOnly n (u.overtake n w) := by
  refine ⟨rfl, fun _ _ => rfl, fun x hx => mem_map_mark (fun y => ?_) fun y hy => ?_⟩
  · generalize (y.reg == n && _) = b
    cases b <;> rfl
  · simp [hy, Ne.symm hx]

theorem setSpring_wroteOnly (u : Thread) (n : Nat) (v : Word) : u.WroteOnly n (u.setSpring n v) :=
  ⟨rfl, fun _ hm => mapGet_mapSet_ne _ _ hm, fun _ _ => Iff.rfl⟩

theorem dropSpring_wroteOnly (u : Thread) (n : Nat) : u.WroteOnly n (u.dropSpring n) :=
  ⟨rfl, fun _ hm => mapGet_mapErase_ne _ hm, fun _ _ => Iff.rfl⟩

theorem clearMark_wroteOnly (u : Thread) (n w : Nat) : u.WroteOnly n (u.clearMark n w) :=
  ⟨rfl, fun _ _ => rfl, fun x hx => by simp [Thread.clearMark, Ne.symm hx]⟩

theorem holdCopy_wroteOnly (u : Thread) (p : Option Pool) (d : Pond) (n : Nat) : u.WroteOnly n (u.holdCopy p d n) := by
  unfold Thread.holdCopy
  split
  · exact .refl n u
  · simp only
    split
    · exact (setSpring_wroteOnly u n _).trans ⟨rfl, fun _ _ => rfl, fun _ _ => Iff.rfl⟩
    · exact setSpring_wroteOnly u n _

/-- A thread that holds what it reads of a register reads the same, whatever wider copy is written (R71 item 3). -/
theorem holdCopy_spring (u : Thread) (p : Option Pool) (d : Pond) (n : Nat) :
    mapGet (u.holdCopy p d n).springs n = some (resolve p d u n .res) := by
  unfold Thread.holdCopy
  split
  · next hs =>
    obtain ⟨v, hv⟩ := Option.isSome_iff_exists.1 hs
    rw [hv, resolve_of_spring (.inl rfl) hv]
  · simp only
    split <;> simp [Thread.setSpring]

/-- The value of a name in a list of which names have been left out. -/
theorem valOf_filter {α : Type} (vals : List (TRef × α)) (q : TRef → Bool) (r : TRef) :
    valOf (vals.filter (fun x => q x.1)) r = if q r then valOf vals r else none := by
  induction vals with
  | nil => simp [valOf]
  | cons x vals ih =>
    by_cases hx : x.1 = r
    · subst hx
      by_cases hq : q x.1 = true
      · rw [List.filter_cons_of_pos (by exact hq), if_pos hq]
        simp [valOf]
      · rw [List.filter_cons_of_neg (by exact hq), ih]
        simp [hq]
    · have hskip : ∀ l : List (TRef × α), valOf (x :: l) r = valOf l r := fun l => by simp [valOf, hx]
      rw [hskip, ← ih]
      by_cases hq : q x.1 = true
      · rw [List.filter_cons_of_pos (by exact hq), hskip]
      · rw [List.filter_cons_of_neg (by exact hq)]

/-- The value of a name that stands in the list once. -/
theorem valOf_of_mem {α : Type} {vals : List (TRef × α)} {x : TRef × α} (hnd : (vals.map Prod.fst).Nodup) (hx : x ∈ vals) :
    valOf vals x.1 = some x.2 := by
  cases hf : vals.find? (fun y => y.1 == x.1) with
  | none => exact absurd (List.find?_eq_none.1 hf x hx) (by simp)
  | some y =>
    have hxy : y = x := List.inj_on_of_nodup_map hnd (List.mem_of_find?_eq_some hf) hx (by simpa using List.find?_some hf)
    rw [valOf, hf, hxy]
    rfl

/-- The name's own thread still waits for the write of register `n` by word `wid`: no younger one has overtaken it. -/
def waitsFor (s : State) (n wid : Nat) (r : TRef) : Bool := (thread s r).any (fun u => !u.overtaken n wid)

/-- The writers of a producer whose write no younger one has overtaken, with their word and values. -/
def goers (s : State) (n wid : Nat) (vals : List (TRef × Word)) : List (TRef × Nat × Word) :=
  (vals.filter (fun x => waitsFor s n wid x.1)).map (fun x => (x.1, wid, x.2))

theorem valOf_goers (s : State) (n wid : Nat) (vals : List (TRef × Word)) (r : TRef) :
    valOf (goers s n wid vals) r = if waitsFor s n wid r then (valOf vals r).map (fun v => (wid, v)) else none := by
  rw [goers, valOf_map _ (fun v => (wid, v)), valOf_filter]
  split <;> rfl

/-- A thread whose write no younger one has overtaken, over its older pending writes (R71 item 3). -/
def overtaking (n : Nat) (go : List (TRef × Nat × Word)) (u : Thread) : Thread :=
  if (valOf go u.ref).isSome then u.overtake n ((valOf go u.ref).map Prod.fst) else u

/-- A thread that a producer writes, before its mark clears. `full` is the pool and the value of a full pool write. -/
def written (s : State) (n wid : Nat) (vals : List (TRef × Word)) (full : Option (Nat × Word)) (u : Thread) : Thread :=
  let go := goers s n wid vals
  match full with
  | some (p, _) =>
    if go.isEmpty || !u.inPool p then overtaking n go u
    else if (valOf vals u.ref).isSome && (valOf go u.ref).isNone then
      (pond s u.pond).elim (overtaking n go u) (fun d => (overtaking n go u).holdCopy (pool s p) d n)
    else (overtaking n go u).dropSpring n
  | none => if (valOf go u.ref).isSome then (overtaking n go u).setSpring n (((valOf go u.ref).map Prod.snd).getD 0) else overtaking n go u

/-- A thread once a producer's write of a register is complete. -/
def completed (s : State) (n wid : Nat) (vals : List (TRef × Word)) (full : Option (Nat × Word)) (u : Thread) : Thread :=
  if (valOf vals u.ref).isSome then (written s n wid vals full u).clearMark n wid else written s n wid vals full u

/-- The full pool write that a producer makes, where it makes one (R71 item 2). -/
def fullOf (s : State) (n wid : Nat) (pl : Bool) (vals : List (TRef × Word)) : Option (Nat × Word) :=
  fullCompletion s n pl (vals.map (fun x => (x.1, wid, x.2)))

theorem overtaking_wroteOnly (n : Nat) (go : List (TRef × Nat × Word)) (u : Thread) : u.WroteOnly n (overtaking n go u) := by
  unfold overtaking
  split
  · exact overtake_wroteOnly u n _
  · exact .refl n u

theorem written_wroteOnly (s : State) (n wid : Nat) (vals : List (TRef × Word)) (full : Option (Nat × Word)) (u : Thread) :
    u.WroteOnly n (written s n wid vals full u) := by
  have hx := overtaking_wroteOnly n (goers s n wid vals) u
  unfold written
  simp only
  split
  · split
    · exact hx
    · split
      · cases pond s u.pond with
        | none => exact hx
        | some d => exact hx.trans (holdCopy_wroteOnly _ _ _ _)
      · exact hx.trans (dropSpring_wroteOnly _ _)
  · split
    · exact hx.trans (setSpring_wroteOnly _ _ _)
    · exact hx

theorem completed_wroteOnly (s : State) (n wid : Nat) (vals : List (TRef × Word)) (full : Option (Nat × Word)) (u : Thread) :
    u.WroteOnly n (completed s n wid vals full u) := by
  unfold completed
  split
  · exact (written_wroteOnly ..).trans (clearMark_wroteOnly _ _ _)
  · exact written_wroteOnly ..

/-- A producer's write of a register changes the threads one by one, at most the copies of one pool, and no pond copy. -/
theorem completeWrite_eq (s : State) (n wid : Nat) (pl : Bool) (vals : List (TRef × Word)) : completeWrite s n wid pl vals = { s with
    threads := s.threads.map (completed s n wid vals (fullOf s n wid pl vals))
    pools := match fullOf s n wid pl vals with
      | some (p, v) => if (goers s n wid vals).isEmpty then s.pools else updWhere (fun x => x.id == p) (fun q => q.setCopy n v) s.pools
      | none => s.pools } := by
  have hgo : (vals.map (fun x => (x.1, wid, x.2))).filter (fun x => (thread s x.1).any (fun u => !u.overtaken n x.2.1)) = goers s n wid vals := by
    rw [List.filter_map]
    rfl
  have hval : ∀ r, valOf (vals.map (fun x => (x.1, wid, x.2))) r = (valOf vals r).map (fun v => (wid, v)) := fun r =>
    valOf_map vals (fun v => (wid, v)) r
  have hsplit : ∀ r, valOf ((goers s n wid vals).map (fun x => (x.1, x.2.2))) r = (valOf (goers s n wid vals) r).map Prod.snd := fun r =>
    valOf_map _ Prod.snd r
  have href : ∀ u : Thread, (overtaking n (goers s n wid vals) u).ref = u.ref := fun u => (overtaking_wroteOnly _ _ _).ref_eq
  have hpond : ∀ u : Thread, (overtaking n (goers s n wid vals) u).pond = u.pond := fun u => (overtaking_wroteOnly _ _ _).pond_eq
  have hin : ∀ (u : Thread) p, (overtaking n (goers s n wid vals) u).inPool p = u.inPool p := fun u p => by
    simp only [Thread.inPool, Thread.pool, (overtaking_wroteOnly _ _ _).place_eq]
  have hclear : ∀ u : Thread, (if (valOf (vals.map (fun x => (x.1, wid, x.2))) (written s n wid vals (fullOf s n wid pl vals) u).ref).isSome then
      (written s n wid vals (fullOf s n wid pl vals) u).clearMark n
        (((valOf (vals.map (fun x => (x.1, wid, x.2))) (written s n wid vals (fullOf s n wid pl vals) u).ref).map Prod.fst).getD 0)
      else written s n wid vals (fullOf s n wid pl vals) u) = completed s n wid vals (fullOf s n wid pl vals) u := fun u => by
    rw [(written_wroteOnly s n wid vals _ u).ref_eq, hval, completed]
    cases valOf vals u.ref <;> rfl
  rw [show completed s n wid vals (fullOf s n wid pl vals) = _ from funext fun u => (hclear u).symm]
  simp only [completeWrite, completeWrites, hgo]
  rw [show fullCompletion s n pl (vals.map (fun x => (x.1, wid, x.2))) = fullOf s n wid pl vals from rfl]
  cases fullOf s n wid pl vals with
  | none =>
    simp only [writeCopies, updThreads, updWhere, List.map_map]
    congr 1
    refine List.map_congr_left fun u _ => ?_
    have hw : written s n wid vals none u = if (valOf ((goers s n wid vals).map (fun x => (x.1, x.2.2))) (overtaking n (goers s n wid vals) u).ref).isSome
        then (overtaking n (goers s n wid vals) u).setSpring n
          ((valOf ((goers s n wid vals).map (fun x => (x.1, x.2.2))) (overtaking n (goers s n wid vals) u).ref).getD 0)
        else overtaking n (goers s n wid vals) u := by
      simp only [written, href, hsplit, Option.isSome_map]
    rw [hw]
    rfl
  | some pv =>
    obtain ⟨p, v⟩ := pv
    by_cases hgo : (goers s n wid vals).isEmpty = true
    · simp only [hgo, if_true, updThreads, updWhere, List.map_map]
      congr 1
      refine List.map_congr_left fun u _ => ?_
      have hw : written s n wid vals (some (p, v)) u = overtaking n (goers s n wid vals) u := by simp [written, hgo]
      rw [hw]
      rfl
    · simp only [hgo, Bool.false_eq_true, if_false, updThreads, updPool, updWhere, List.map_map]
      congr 1
      refine List.map_congr_left fun u _ => ?_
      have hw : written s n wid vals (some (p, v)) u =
          if (overtaking n (goers s n wid vals) u).inPool p then
            if (valOf (vals.map (fun x => (x.1, wid, x.2))) (overtaking n (goers s n wid vals) u).ref).isSome &&
                (valOf (goers s n wid vals) (overtaking n (goers s n wid vals) u).ref).isNone then
              (pond s (overtaking n (goers s n wid vals) u).pond).elim (overtaking n (goers s n wid vals) u)
                (fun d => (overtaking n (goers s n wid vals) u).holdCopy (pool s p) d n)
            else (overtaking n (goers s n wid vals) u).dropSpring n
          else overtaking n (goers s n wid vals) u := by
        rw [hin, href, hpond, hval, Option.isSome_map]
        cases hp : u.inPool p <;> simp [written, hgo, hp]
      rw [hw]
      rfl

@[simp] theorem completeWrite_ponds (s : State) (n wid : Nat) (pl : Bool) (vals : List (TRef × Word)) :
    (completeWrite s n wid pl vals).ponds = s.ponds := by rw [completeWrite_eq]
theorem completeWrite_threads (s : State) (n wid : Nat) (pl : Bool) (vals : List (TRef × Word)) :
    (completeWrite s n wid pl vals).threads = s.threads.map (completed s n wid vals (fullOf s n wid pl vals)) := by rw [completeWrite_eq]

/-- A pool's copy of another register than the one written, in whatever pool. -/
theorem pool_completeWrite_other (hm : n ≠ m) (p : Nat) :
    (pool (completeWrite s n wid pl vals) p).map (fun q => mapGet q.copies m) = (pool s p).map (fun q => mapGet q.copies m) := by
  have hset : ∀ (p' : Nat) (v : Word), ((updWhere (fun x => x.id == p') (fun q => q.setCopy n v) s.pools).find? (fun x => x.id == p)).map
      (fun q => mapGet q.copies m) = (pool s p).map (fun q => mapGet q.copies m) := fun p' v => by
    rw [find?_updWhere (f := fun q : Pool => q.setCopy n v) fun x => rfl, Option.map_map, pool]
    refine Option.map_congr fun x _ => ?_
    simp only [Function.comp_apply]
    split
    · exact mapGet_mapSet_ne _ _ hm
    · rfl
  rw [completeWrite_eq, pool]
  cases fullOf s n wid pl vals with
  | none => rfl
  | some pv =>
    simp only
    split
    · rfl
    · exact hset _ _

/-- The value of a full pool write of a producer is that of each of its writers that lives (R71 item 2). -/
theorem fullOf_value {p : Nat} {w : Word} (hf : fullOf s n wid pl vals = some (p, v)) (hu : thread s u.ref = some u) (hv : valOf vals u.ref = some w) :
    v = w := by
  unfold fullOf fullCompletion at hf
  simp only at hf
  split at hf
  · cases hf
  split at hf
  · cases hf
  next q _ =>
  obtain ⟨v', hv', heq⟩ := Option.map_eq_some_iff.1 hf
  obtain ⟨rfl, rfl⟩ := Prod.mk.inj heq
  unfold fullWrite at hv'
  split at hv'
  · refine (uniform_valOf hv' (r := u.ref) ?_).symm
    rw [valOf_map _ Prod.snd, valOf_filter _ (fun r => (thread s r).isSome), hu, valOf_map vals (fun v => (wid, v)), hv]
    rfl
  · cases hv'

/-- The thread that a name finds waits for a write that no younger one has overtaken. -/
theorem waitsFor_of_thread (hu : thread s u.ref = some u) : waitsFor s n wid u.ref = !u.overtaken n wid := by
  rw [waitsFor, hu]
  rfl

/-- A writer whose write no younger one has overtaken reads the value of the producer (R71 item 2). -/
theorem completed_reads (hu : thread s u.ref = some u) (hv : valOf vals u.ref = some v) (hlive : u.overtaken n wid = false)
    (hpool : ∀ p, u.pool = some p → (pool s p).isSome) (d : Pond) :
    resolve (u.pool.bind (pool (completeWrite s n wid pl vals))) d (completed s n wid vals (fullOf s n wid pl vals) u) n .res = v := by
  have hgo : valOf (goers s n wid vals) u.ref = some (wid, v) := by
    rw [valOf_goers, waitsFor_of_thread hu, hlive, hv]
    rfl
  have hne : (goers s n wid vals).isEmpty = false := by
    obtain ⟨x, hx, -⟩ := valOf_mem (Option.isSome_of_eq_some hgo)
    cases h : goers s n wid vals with
    | nil => rw [h] at hx; cases hx
    | cons => rfl
  have hsprings : (completed s n wid vals (fullOf s n wid pl vals) u).springs = (written s n wid vals (fullOf s n wid pl vals) u).springs := by
    unfold completed
    split <;> rfl
  cases hf : fullOf s n wid pl vals with
  | none =>
    refine resolve_of_spring (.inl rfl) ?_
    rw [← hf, hsprings, hf]
    simp [written, hgo, Thread.setSpring]
  | some pv =>
    obtain ⟨p, v'⟩ := pv
    have hval : v' = v := fullOf_value hf hu hv
    have hin : u.inPool p = true := (fullCompletion_eq_some hf).2 u (List.mem_of_find?_eq_some hu)
      (by rw [valOf_map vals (fun v => (wid, v)), hv]; rfl)
    have hup : u.pool = some p := by simpa [Thread.inPool] using hin
    obtain ⟨p0, hp0⟩ := Option.isSome_iff_exists.1 (hpool p hup)
    have hspring : mapGet (completed s n wid vals (some (p, v')) u).springs n = none := by
      rw [← hf, hsprings, hf]
      simp [written, hne, hin, hgo, hv, Thread.dropSpring]
    have hp : pool (completeWrite s n wid pl vals) p = some (p0.setCopy n v') := by
      refine pool_of_copied (s := s) ?_ hp0
      rw [completeWrite_eq, hf]
      simp [hne]
    rw [resolve_of_no_spring (by decide) (.inr hspring), hup, Option.bind_some, hp]
    simp [Pool.setCopy, hval]

/-- A writer whose write a younger one has overtaken reads what it read (R71 item 3). -/
theorem completed_overtaken_reads (hu : thread s u.ref = some u) (hv : valOf vals u.ref = some v) (hover : u.overtaken n wid = true) {d : Pond}
    (hd : pond s u.pond = some d) :
    resolve (u.pool.bind (pool (completeWrite s n wid pl vals))) d (completed s n wid vals (fullOf s n wid pl vals) u) n .res =
      resolve (u.pool.bind (pool s)) d u n .res := by
  have hgo : valOf (goers s n wid vals) u.ref = none := by
    rw [valOf_goers, waitsFor_of_thread hu, hover]
    rfl
  have hx : overtaking n (goers s n wid vals) u = u := by simp [overtaking, hgo]
  have hsprings : (completed s n wid vals (fullOf s n wid pl vals) u).springs = (written s n wid vals (fullOf s n wid pl vals) u).springs := by
    unfold completed
    split <;> rfl
  cases hf : fullOf s n wid pl vals with
  | none =>
    have hpools : pool (completeWrite s n wid pl vals) = pool s := by
      funext q
      rw [completeWrite_eq, hf]
      rfl
    rw [hpools, resolve, resolve, ← hf, hsprings, hf]
    simp [written, hgo, hx]
  | some pv =>
    obtain ⟨p, v'⟩ := pv
    have hin : u.inPool p = true := (fullCompletion_eq_some hf).2 u (List.mem_of_find?_eq_some hu)
      (by rw [valOf_map vals (fun v => (wid, v)), hv]; rfl)
    have hup : u.pool = some p := by simpa [Thread.inPool] using hin
    by_cases hne : (goers s n wid vals).isEmpty = true
    · have hpools : pool (completeWrite s n wid pl vals) = pool s := by
        funext q
        rw [completeWrite_eq, hf]
        simp only [hne, if_true]
        rfl
      rw [hpools, resolve, resolve, ← hf, hsprings, hf]
      simp [written, hne, hx]
    · refine resolve_of_spring (.inl rfl) ?_
      rw [← hf, hsprings, hf, hup, Option.bind_some]
      simp only [written, hne, hin, hgo, hv, hx, hd]
      exact holdCopy_spring u _ d n

/-- The mark of a writer clears. -/
theorem completed_clears (hv : (valOf vals u.ref).isSome = true) (full : Option (Nat × Word)) :
    ∀ x ∈ (completed s n wid vals full u).marks, ¬(x.reg = n ∧ x.wid = wid) := by
  intro x hx
  rw [completed, if_pos hv] at hx
  simpa only [Bool.not_eq_true', Bool.and_eq_false_iff, beq_eq_false_iff_ne, not_and_or] using (List.mem_filter.1 hx).2

end Sys2Proof.Machine
end

section
/-! O31, the registers of a producer in turn (R71), and its value (R182). -/

namespace Sys2Proof.Machine

variable {s t w : State} {m : Nat} {u u' x : Thread}

/-- What the writes of other registers than `m` leave of a thread that is the only one of its name: its place, and what it reads and waits for in `m`. -/
structure Untold (m : Nat) (s t : State) (u u' : Thread) : Prop where
  sole : Sole t u'
  ref : u'.ref = u.ref
  place : u'.place = u.place
  pond : u'.pond = u.pond
  springs : mapGet u'.springs m = mapGet u.springs m
  marks : ∀ x : Mark, x.reg = m → (x ∈ u'.marks ↔ x ∈ u.marks)
  copies : ∀ p, (pool t p).map (fun q => mapGet q.copies m) = (pool s p).map (fun q => mapGet q.copies m)
  ponds : t.ponds = s.ponds

theorem Untold.refl (hu : Sole s u) : Untold m s s u u := ⟨hu, rfl, rfl, rfl, rfl, fun _ _ => Iff.rfl, fun _ => rfl, rfl⟩

theorem Untold.trans (h : Untold m s t u u') (h' : Untold m t w u' x) : Untold m s w u x where
  sole := h'.sole
  ref := h'.ref.trans h.ref
  place := h'.place.trans h.place
  pond := h'.pond.trans h.pond
  springs := h'.springs.trans h.springs
  marks y hy := (h'.marks y hy).trans (h.marks y hy)
  copies p := (h'.copies p).trans (h.copies p)
  ponds := h'.ponds.trans h.ponds

theorem Untold.pool_eq (h : Untold m s t u u') : u'.pool = u.pool := by rw [Thread.pool, Thread.pool, h.place]

theorem Untold.reads (h : Untold m s t u u') (d : Pond) : resolve (u.pool.bind (pool t)) d u' m .res = resolve (u.pool.bind (pool s)) d u m .res := by
  have hjoin : ∀ (s : State) (o : Option Nat), (o.bind (pool s)).bind (fun q => mapGet q.copies m) =
      o.bind (fun p => ((pool s p).map (fun q => mapGet q.copies m)).join) := fun s o => by
    cases o with
    | none => rfl
    | some p => cases h : pool s p <;> simp [h]
  rw [resolve, resolve, hjoin, hjoin, h.springs]
  simp only [h.copies]

/-- A name's only thread is the one that the name finds. -/
theorem Sole.thread_eq (h : Sole s u) : thread s u.ref = some u := thread_of_sole h.mem rfl fun _ => h.eq

/-- The only thread of a name stays so when the threads change one by one and keep their names. -/
theorem Sole.map {f : Thread → Thread} (h : Sole s u) (ht : t.threads = s.threads.map f) (hf : ∀ y, (f y).ref = y.ref) : Sole t (f u) := by
  rw [Sole, ht, List.filter_map]
  have htest : ((fun y : Thread => y.ref == (f u).ref) ∘ f) = fun y => y.ref == u.ref := by
    funext y
    simp [hf]
  rw [htest, show s.threads.filter (fun y => y.ref == u.ref) = [u] from h]
  rfl

theorem Sole.completeWrite (h : Sole s u) (n wid : Nat) (pl : Bool) (vals : List (TRef × Word)) :
    Sole (completeWrite s n wid pl vals) (completed s n wid vals (fullOf s n wid pl vals) u) :=
  h.map (completeWrite_threads ..) fun _ => (completed_wroteOnly ..).ref_eq

/-- The write of another register. -/
theorem untold_completeWrite {n wid : Nat} (pl : Bool) (vals : List (TRef × Word)) (hu : Sole s u) (hm : n ≠ m) :
    Untold m s (completeWrite s n wid pl vals) u (completed s n wid vals (fullOf s n wid pl vals) u) := by
  have h := completed_wroteOnly s n wid vals (fullOf s n wid pl vals) u
  exact ⟨hu.completeWrite .., h.ref_eq, h.place_eq, h.pond_eq, h.springs m hm, fun x hx => h.marks x (hx ▸ hm),
    pool_completeWrite_other hm, completeWrite_ponds ..⟩

/-- The writes of other registers one after another, at whatever ranks. -/
theorem untold_foldl {r wid : Nat} (pl : State → Nat → Bool) (vals : Nat → List (TRef × Word)) :
    ∀ {is : List Nat} {s : State} {u : Thread}, Sole s u → (∀ i ∈ is, r + i ≠ m) →
      ∃ u', Untold m s (is.foldl (fun s i => completeWrite s (r + i) wid (pl s i) (vals i)) s) u u'
  | [], _, u, hu, _ => ⟨u, .refl hu⟩
  | i :: is, s, _, hu, hm => by
    have hstep := untold_completeWrite (wid := wid) (pl s i) (vals i) hu (hm i List.mem_cons_self)
    obtain ⟨u', h⟩ := untold_foldl pl vals hstep.sole fun j hj => hm j (List.mem_cons_of_mem _ hj)
    exact ⟨u', hstep.trans h⟩

/-- What a producer writes to register `i` of its destination. -/
def Op.writes (o : Op) (i : Nat) : List (TRef × Word) := o.lanes.map (fun l => (l.t, BitVec.ofNat 32 (o.value l / 2 ^ (32 * i))))

theorem Op.valOf_writes {o : Op} (hnd : (o.lanes.map OpLane.t).Nodup) {l : OpLane} (hl : l ∈ o.lanes) (i : Nat) :
    valOf (o.writes i) l.t = some (BitVec.ofNat 32 (o.value l / 2 ^ (32 * i))) :=
  valOf_of_mem (x := (l.t, _)) (by simpa [Op.writes, Function.comp_def] using hnd) (List.mem_map.2 ⟨l, hl, rfl⟩)

/-- Of the registers that a producer writes in turn, each is written once, and the others leave it. -/
theorem completeOpWrites_register {o : Op} {r i : Nat} (hr : o.reg = some r) (hi : i < o.n) (hu : Sole s u) :
    ∃ (s₁ : State) (pl : Bool) (u₁ u₂ : Thread), Untold (r + i) s s₁ u u₁ ∧
      Untold (r + i) (completeWrite s₁ (r + i) o.wid pl (o.writes i)) (completeOpWrites s o)
        (completed s₁ (r + i) o.wid (o.writes i) (fullOf s₁ (r + i) o.wid pl (o.writes i)) u₁) u₂ := by
  obtain ⟨pre, post, hsplit⟩ := List.append_of_mem (List.mem_range.2 hi)
  have hnd : (pre ++ i :: post).Nodup := hsplit ▸ List.nodup_range
  have hpre : ∀ j ∈ pre, r + j ≠ r + i := fun j hj he =>
    (List.nodup_append.1 hnd).2.2 j hj i List.mem_cons_self (Nat.add_left_cancel he)
  have hpost : ∀ j ∈ post, r + j ≠ r + i := fun j hj he =>
    (List.nodup_cons.1 (List.nodup_append.1 hnd).2.1).1 (Nat.add_left_cancel he ▸ hj)
  let step (s : State) (i : Nat) : State := completeWrite s (r + i) o.wid (opRank s o (r + i)) (o.writes i)
  obtain ⟨u₁, h₁⟩ : ∃ u₁, Untold (r + i) s (pre.foldl step s) u u₁ := untold_foldl (fun s i => opRank s o (r + i)) o.writes hu hpre
  obtain ⟨u₂, h₂⟩ := untold_foldl (wid := o.wid) (fun s i => opRank s o (r + i)) o.writes
    (h₁.sole.completeWrite (r + i) o.wid (opRank (pre.foldl step s) o (r + i)) (o.writes i)) hpost
  refine ⟨pre.foldl step s, opRank (pre.foldl step s) o (r + i), u₁, u₂, h₁, ?_⟩
  rw [completeOpWrites, hr]
  simp only
  rw [hsplit, List.foldl_append, List.foldl_cons]
  exact h₂

@[simp] theorem completeOpWrites_ponds (s : State) (o : Op) : (completeOpWrites s o).ponds = s.ponds := by
  unfold completeOpWrites
  split
  · rfl
  · generalize List.range o.n = is
    induction is generalizing s with
    | nil => rfl
    | cons i is ih => rw [List.foldl_cons, ih, completeWrite_ponds]

/-- The end of a word that waited for nothing else changes only the list of incomplete words. -/
theorem sweepWord_eq (s : State) (wid : Nat) : sweepWord s wid = { s with incomplete := (sweepWord s wid).incomplete } := by
  unfold sweepWord
  split <;> rfl

/-- A producer done has written its registers, and leaves. -/
theorem retireOp_eq (s : State) (o : Op) : retireOp s o = { completeOpWrites s o with
    ops := (completeOpWrites s o).ops.filter (fun x => x.id != o.id)
    incomplete := (retireOp s o).incomplete } := by
  conv_lhs => rw [retireOp, sweepWord_eq]
  rfl

/-- PRODUCER_COMPLETION of a producer that has all its bytes. -/
theorem exec_producerCompletion {id : Nat} {o : Op} (ho : s.ops.find? (fun x => x.id == id) = some o) (hgot : ∀ l ∈ o.lanes, ∀ b ∈ l.got, b ≠ none) :
    exec (.producerCompletion id) s = .next (retireOp s o) := by
  have hready : o.ready = true := by
    simp only [Op.ready, List.all_eq_true]
    exact fun l hl b hb => Option.isSome_iff_ne_none.2 (hgot l hl b hb)
  show execProducerCompletion id s = _
  simp [execProducerCompletion, ho, hready]

/-- A writer of a producer, once the producer is done: its mark has cleared, and it reads what its write of the register left. -/
theorem retireOp_register {o : Op} {r i : Nat} {l : OpLane} (hr : o.reg = some r) (hi : i < o.n) (hnd : (o.lanes.map OpLane.t).Nodup)
    (hl : l ∈ o.lanes) (hul : u.ref = l.t) (hu : Sole s u) :
    ∃ (s₁ : State) (pl : Bool) (u₁ u₂ : Thread), Untold (r + i) s s₁ u u₁ ∧ thread s₁ u₁.ref = some u₁ ∧
      valOf (o.writes i) u₁.ref = some (BitVec.ofNat 32 (o.value l / 2 ^ (32 * i))) ∧
      u₂ ∈ (retireOp s o).threads ∧ u₂.ref = u.ref ∧ u₂.place = u.place ∧ (∀ x ∈ u₂.marks, ¬(x.reg = r + i ∧ x.wid = o.wid)) ∧
      ∀ d, resolve (u.pool.bind (pool (retireOp s o))) d u₂ (r + i) .res =
        resolve (u₁.pool.bind (pool (completeWrite s₁ (r + i) o.wid pl (o.writes i)))) d
          (completed s₁ (r + i) o.wid (o.writes i) (fullOf s₁ (r + i) o.wid pl (o.writes i)) u₁) (r + i) .res := by
  obtain ⟨s₁, pl, u₁, u₂, h₁, h₂⟩ := completeOpWrites_register hr hi hu
  have hw := completed_wroteOnly s₁ (r + i) o.wid (o.writes i) (fullOf s₁ (r + i) o.wid pl (o.writes i)) u₁
  have hval := Op.valOf_writes hnd hl i
  rw [← hul, ← h₁.ref] at hval
  refine ⟨s₁, pl, u₁, u₂, h₁, h₁.sole.thread_eq, hval, ?_, h₂.ref.trans (hw.ref_eq.trans h₁.ref), h₂.place.trans (hw.place_eq.trans h₁.place),
    fun x hx hreg => ?_, fun d => ?_⟩
  · rw [retireOp_eq]
    exact h₂.sole.mem
  · exact completed_clears (Option.isSome_of_eq_some hval) _ x ((h₂.marks x hreg.1).1 hx) hreg
  · have hpool : (completed s₁ (r + i) o.wid (o.writes i) (fullOf s₁ (r + i) o.wid pl (o.writes i)) u₁).pool = u₁.pool := by
      rw [Thread.pool, Thread.pool, hw.place_eq]
    have hpools : pool (retireOp s o) = pool (completeOpWrites s o) := by rw [retireOp_eq]; rfl
    have hreads := h₂.reads d
    rw [hpool] at hreads
    rw [hpools, ← h₁.pool_eq]
    exact hreads

end Sys2Proof.Machine
end

section
/-! O31, the value of a producer (R182), and the statement itself. -/

namespace Sys2Proof.Machine

variable {s : State}

theorem leNat_lt : ∀ bs : List Byte, leNat bs < 2 ^ (8 * bs.length)
  | [] => by simp [leNat]
  | b :: bs => by
    have hb := b.isLt
    have hbs := leNat_lt bs
    have hpow : 2 ^ (8 * (b :: bs).length) = 256 * 2 ^ (8 * bs.length) := by
      rw [List.length_cons, Nat.mul_add, Nat.mul_one, Nat.pow_add]
      omega
    rw [hpow, leNat]
    omega

theorem got_bytes {l : OpLane} {bs : List Byte} (hl : l.got = bs.map some) : l.got.map (fun b => b.getD 0) = bs := by
  simp [hl, Function.comp_def]

/-- The bytes of a lane in ascending order, where nothing extends them by their sign (R182). -/
theorem Op.value_plain {o : Op} {l : OpLane} {bs : List Byte} (hl : l.got = bs.map some) (h : o.ext ≠ some false ∨ 4 ≤ bs.length) :
    o.value l = leNat bs := by
  unfold Op.value
  simp only
  generalize hgot : l.got.map (fun b => b.getD 0) = got
  obtain rfl : got = bs := hgot.symm.trans (got_bytes hl)
  split
  · next hext => rw [if_neg (Nat.not_lt.2 (h.resolve_left (not_not.2 hext)))]
  · rfl

/-- Fewer than four bytes that the word extends by their sign (R182). -/
theorem Op.value_signed {o : Op} {l : OpLane} {bs : List Byte} (hl : l.got = bs.map some) (hext : o.ext = some false) (hlt : bs.length < 4) :
    o.value l = ((BitVec.ofNat (8 * bs.length) (leNat bs)).signExtend 32).toNat := by
  unfold Op.value
  simp only [hext]
  generalize hgot : l.got.map (fun b => b.getD 0) = got
  obtain rfl : got = bs := hgot.symm.trans (got_bytes hl)
  rw [if_pos hlt]

/-- Fewer than four bytes extended by their sign (R182). -/
theorem signExtend_bytes {bs : List Byte} (hne : bs ≠ []) (hlt : bs.length < 4) :
    (((BitVec.ofNat (8 * bs.length) (leNat bs)).signExtend 32).toNat : ℤ) =
      if leNat bs < 2 ^ (8 * bs.length - 1) then (leNat bs : ℤ) else leNat bs + 2 ^ 32 - 2 ^ (8 * bs.length) := by
  have hval := leNat_lt bs
  have hpos := List.length_pos_iff.2 hne
  generalize leNat bs = v at hval
  generalize bs.length = k at hpos hlt hval
  obtain rfl | rfl | rfl : k = 1 ∨ k = 2 ∨ k = 3 := by omega
  all_goals
    simp only [BitVec.toNat_signExtend, BitVec.toNat_setWidth, BitVec.toNat_ofNat, BitVec.msb_eq_decide, decide_eq_true_eq]
    norm_num at hval ⊢
    split <;> split <;> omega

/-- Settles O31: register by register, by what the write of one register leaves of the others. -/
theorem producersComplete : Obligations.ProducersComplete := by
  refine ⟨fun s id o ho hgot hnd => ⟨_, exec_producerCompletion ho hgot, fun x hx => ?_, fun r hr i hi l hl u _ hul hu hpool hlive => ?_⟩,
    fun s id o ho hgot hnd => ⟨_, exec_producerCompletion ho hgot, ?_, fun r hr i hi l hl u _ hul hu hdead => ?_⟩,
    fun o l bs hl => ⟨fun hext => ?_, fun hext hne hlt => ?_⟩⟩
  · have hid : o.id = id := by simpa using List.find?_some ho
    rw [retireOp_eq] at hx
    simpa [hid] using (List.mem_filter.1 hx).2
  · obtain ⟨s₁, pl, u₁, u₂, h₁, hthread, hval, hmem, href, hplace, hmarks, hreads⟩ := retireOp_register hr hi hnd hl hul hu
    refine ⟨u₂, hmem, href, hplace, hmarks, fun d => (hreads d).trans (completed_reads hthread hval ?_ (fun p hp => ?_) d)⟩
    · rw [Thread.overtaken, List.any_eq_false]
      intro x hx hdead
      simp only [Bool.and_eq_true, beq_iff_eq] at hdead
      obtain ⟨⟨hreg, hwid⟩, hdead⟩ := hdead
      exact absurd (hlive x ((h₁.marks x hreg).1 hx) hreg hwid) (by simp [hdead])
    · have hsome := congrArg Option.isSome (h₁.copies p)
      rw [Option.isSome_map, Option.isSome_map] at hsome
      rw [hsome]
      exact hpool p (h₁.pool_eq ▸ hp)
  · rw [retireOp_eq]
    exact completeOpWrites_ponds ..
  · obtain ⟨s₁, pl, u₁, u₂, h₁, hthread, hval, hmem, href, hplace, hmarks, hreads⟩ := retireOp_register hr hi hnd hl hul hu
    refine ⟨u₂, hmem, href, hplace, hmarks, fun d hd => (hreads d).trans ((completed_overtaken_reads hthread hval ?_ (d := d) ?_).trans ?_)⟩
    · obtain ⟨x, hx, hreg, hwid, hdead⟩ := hdead
      exact List.any_eq_true.2 ⟨x, (h₁.marks x hreg).2 hx, by simp [hreg, hwid, hdead]⟩
    · rw [pond, h₁.ponds, h₁.pond]
      exact hd
    · rw [h₁.pool_eq]
      exact h₁.reads d
  · exact Op.value_plain hl hext
  · rw [Op.value_signed hl hext hlt]
    exact signExtend_bytes hne hlt

end Sys2Proof.Machine
end

section
/-! SUPPORT. Flags as bits of %fflags (R86), and reductions: the bounds of a step, and the fold of R93 over a list. -/

namespace Sys2Proof.Machine

/-- A flag by its bit of %fflags (R86). -/
def FlagSet.bit (f : FlagSet) : Nat → Bool
  | 0 => f.nx
  | 1 => f.uf
  | 2 => f.of
  | 3 => f.dz
  | 4 => f.nv
  | _ => false

theorem FlagSet.code_bit (f : FlagSet) {b : Nat} (hb : b < 5) : f.code.getLsbD b = f.bit b := by
  have h : ∀ (nv dz of uf nx : Bool) (k : Fin 5), (FlagSet.mk nv dz of uf nx).code.getLsbD k = (FlagSet.mk nv dz of uf nx).bit k := by decide
  obtain ⟨nv, dz, of, uf, nx⟩ := f
  exact h nv dz of uf nx ⟨b, hb⟩

theorem FlagSet.union_bit (f g : FlagSet) {b : Nat} (hb : b < 5) : (f.union g).bit b = (f.bit b || g.bit b) := by
  match b, hb with
  | 0, _ | 1, _ | 2, _ | 3, _ | 4, _ => rfl

/-- A flag is among those of several results when it is among those of one (R87). -/
theorem flagsOf_bit (l : List FlagSet) {b : Nat} (hb : b < 5) : (flagsOf l).bit b = true ↔ ∃ f ∈ l, f.bit b = true := by
  have go : ∀ (l : List FlagSet) (acc : FlagSet), (l.foldl FlagSet.union acc).bit b = true ↔ acc.bit b = true ∨ ∃ f ∈ l, f.bit b = true := by
    intro l
    induction l with
    | nil => simp
    | cons f l ih =>
      intro acc
      rw [List.foldl_cons, ih, FlagSet.union_bit _ _ hb]
      simp [or_assoc]
  have hnone : FlagSet.none.bit b = false := by
    match b, hb with
    | 0, _ | 1, _ | 2, _ | 3, _ | 4, _ => rfl
  rw [flagsOf, go, hnone]
  simp

theorem elemFmt_bounds (fmt : Fmt) : (elemFmt fmt).maxCode < 2 ^ ((elemFmt fmt).width - 1) ∧ (elemFmt fmt).infCode < 2 ^ ((elemFmt fmt).width - 1) ∧
    (elemFmt fmt).nanCode < 2 ^ ((elemFmt fmt).width - 1) ∧ 2 ^ (elemFmt fmt).width = 2 * 2 ^ ((elemFmt fmt).width - 1) := by
  cases fmt <;> decide

/-- A magnitude with a sign is a code of the format. -/
theorem signed_lt (fmt : Fmt) (neg : Bool) {x : Nat} (hx : x < 2 ^ ((elemFmt fmt).width - 1)) :
    (elemFmt fmt).signed neg x < 2 ^ (elemFmt fmt).width := by
  obtain ⟨-, -, -, hw⟩ := elemFmt_bounds fmt
  unfold FloatFmt.signed FloatFmt.signBit
  split <;> omega

theorem nanCode_lt (fmt : Fmt) : (elemFmt fmt).nanCode < 2 ^ (elemFmt fmt).width := by
  obtain ⟨-, -, hnan, hw⟩ := elemFmt_bounds fmt
  omega

theorem overflowTo_lt (fmt : Fmt) (rm : RM) (sat neg : Bool) : (overflowTo (elemFmt fmt) rm sat neg).1 < 2 ^ (elemFmt fmt).width := by
  obtain ⟨hmax, hinf, -, -⟩ := elemFmt_bounds fmt
  unfold overflowTo
  split
  · exact signed_lt fmt neg hmax
  · split
    · exact nanCode_lt fmt
    · refine signed_lt fmt neg ?_
      split <;> split <;> assumption

/-- What a rounding gives is a code of the format (R39). -/
theorem roundTo_lt (fmt : Fmt) (rm : RM) (ftz sat : Bool) (h : Nat) (v : FVal) : (roundTo (elemFmt fmt) rm ftz sat h v).1 < 2 ^ (elemFmt fmt).width := by
  obtain ⟨hmax, hinf, -, -⟩ := elemFmt_bounds fmt
  have hzero : ∀ neg, (elemFmt fmt).signed neg 0 < 2 ^ (elemFmt fmt).width := fun neg => signed_lt fmt neg (by positivity)
  cases v with
  | nan => exact nanCode_lt fmt
  | inf neg =>
    simp only [roundTo]
    split
    · exact signed_lt fmt neg hinf
    · exact overflowTo_lt ..
  | num neg m e sticky =>
    unfold roundTo
    simp only
    split
    · exact hzero neg
    · split
      · exact hzero neg
      · split
        · exact overflowTo_lt ..
        · next hle => exact signed_lt fmt neg ((Nat.not_lt.1 hle).trans_lt hmax)

theorem flushIn_lt (fmt : Fmt) (ftz : Bool) {x : Nat} (hx : x < 2 ^ (elemFmt fmt).width) : flushIn (elemFmt fmt) ftz x < 2 ^ (elemFmt fmt).width := by
  unfold flushIn
  split
  · exact signed_lt fmt _ (by positivity)
  · exact hx

theorem fExtreme_lt (fmt : Fmt) (larger : Bool) {x y : Nat} (hx : x < 2 ^ (elemFmt fmt).width) (hy : y < 2 ^ (elemFmt fmt).width) :
    fExtreme (elemFmt fmt) larger x y < 2 ^ (elemFmt fmt).width := by
  unfold fExtreme
  split
  · split
    · exact nanCode_lt fmt
    · exact hy
  · split
    · exact hx
    · split
      · exact hx
      · exact hy

/-- A step of a reduction keeps to the bits of its type (R164). -/
theorem redStep_lt (r : RMod) {x y : Nat} (hx : x < 2 ^ redWidth r.ty) (hy : y < 2 ^ redWidth r.ty) : (redStep r x y).1 < 2 ^ redWidth r.ty := by
  have hint : ∀ w : Nat, x < 2 ^ w → y < 2 ^ w → (match r.op with
      | .add => (x + y) % 2 ^ w
      | .mul => x * y % 2 ^ w
      | .min => if asInt w r.uns x ≤ asInt w r.uns y then x else y
      | .max => if asInt w r.uns y ≤ asInt w r.uns x then x else y
      | .and => x &&& y
      | .or => x ||| y
      | .xor => x ^^^ y : Nat) < 2 ^ w := fun w hx hy => by
    cases r.op with
    | add | mul => exact Nat.mod_lt _ (by positivity)
    | min | max => simp only; split <;> assumption
    | and => exact Nat.and_lt_two_pow _ hy
    | or => exact Nat.or_lt_two_pow hx hy
    | xor => exact Nat.xor_lt_two_pow hx hy
  unfold redStep
  cases hty : r.ty with
  | flt fmt =>
    rw [hty] at hx hy
    have hx' := flushIn_lt fmt r.ftz hx
    have hy' := flushIn_lt fmt r.ftz hy
    cases r.op with
    | add | mul => exact roundTo_lt ..
    | min | max | and | or | xor => exact fExtreme_lt fmt _ hx' hy'
  | i32 | i64 =>
    rw [hty] at hx hy
    exact hint _ hx hy

/-- The identity of a reduction keeps to the bits of its type (R94). -/
theorem redIdentity_lt (r : RMod) : redIdentity r < 2 ^ redWidth r.ty := by
  unfold redIdentity
  cases hty : r.ty with
  | flt fmt =>
    obtain ⟨hmax, hinf, -, hw⟩ := elemFmt_bounds fmt
    have hcode : (if (elemFmt fmt).hasInf then (elemFmt fmt).infCode else (elemFmt fmt).maxCode) < 2 ^ ((elemFmt fmt).width - 1) := by
      split <;> assumption
    have hsign : (elemFmt fmt).signBit < 2 ^ (elemFmt fmt).width := by unfold FloatFmt.signBit; omega
    cases r.op with
    | add => exact hsign
    | mul => exact roundTo_lt ..
    | min => exact hcode.trans (Nat.pow_lt_pow_right (by decide) (by cases fmt <;> decide))
    | max | and | or | xor => exact signed_lt fmt true hcode
  | i32 | i64 => cases r.op <;> cases r.uns <;> decide

end Sys2Proof.Machine
end

section
/-! O41, the pond fold of R93: the fold over a padded list is that over positions, element by element. -/

namespace Sys2Proof.Machine

variable {r : RMod}

/-- A joint of two positions keeps to the bits of the type. -/
theorem redJoin_lt {x y : Option Nat} (hx : ∀ a, x = some a → a < 2 ^ redWidth r.ty) (hy : ∀ a, y = some a → a < 2 ^ redWidth r.ty) :
    ∀ a, (redJoin r x y).1 = some a → a < 2 ^ redWidth r.ty := by
  intro a ha
  cases x with
  | none => exact hy a ha
  | some x =>
    cases y with
    | none => exact hx a ha
    | some y =>
      obtain rfl := Option.some.inj ha
      exact redStep_lt r (hx x rfl) (hy y rfl)

theorem foldHalves_lt : ∀ (n : Nat) (v : Nat → Option Nat), (∀ j a, v j = some a → a < 2 ^ redWidth r.ty) →
    ∀ a, foldHalves r n v = some a → a < 2 ^ redWidth r.ty
  | 0, _, hv, a, ha => hv 0 a ha
  | n + 1, _, hv, a, ha => foldHalves_lt n _ (fun j => redJoin_lt (hv j) (hv (j + 2 ^ n))) a ha

/-- The list of 2^n positions. -/
def positions (n : Nat) (v : Nat → Option Nat) : List (Option Nat) := (List.range (2 ^ n)).map v

/-- One halving of a list of positions joins those that stand half the list apart (R93). -/
theorem halve_positions (n : Nat) (v : Nat → Option Nat) :
    (((positions (n + 1) v).take (2 ^ n)).zip ((positions (n + 1) v).drop (2 ^ n))).map (fun p => redJoin r p.1 p.2) =
      (List.range (2 ^ n)).map (fun i => redJoin r (v i) (v (i + 2 ^ n))) := by
  have hlen : (positions (n + 1) v).length = 2 ^ n + 2 ^ n := by simp [positions, pow_succ, mul_two]
  refine List.ext_getElem (by simp [hlen]) fun i hi hi' => ?_
  simp [positions, Nat.add_comm]

theorem redFold_positions (r : RMod) : ∀ (n : Nat) (v : Nat → Option Nat), (redFold r n (positions n v)).1 = foldHalves r n v
  | 0, v => rfl
  | n + 1, v => by
    simp only [redFold, halve_positions, List.map_map]
    exact redFold_positions r n fun i => (redJoin r (v i) (v (i + 2 ^ n))).1

/-- The flags of the fold are those of its steps. -/
theorem redFold_flags (r : RMod) {b : Nat} (hb : b < 5) : ∀ (n : Nat) (v : Nat → Option Nat),
    (redFold r n (positions n v)).2.bit b = true ↔ foldRaises r b n v
  | 0, v => by
    have h : (redFold r 0 (positions 0 v)).2 = flagsOf [] := rfl
    rw [h, flagsOf_bit _ hb]
    simp [foldRaises]
  | n + 1, v => by
    have hrec := redFold_flags r hb n fun i => (redJoin r (v i) (v (i + 2 ^ n))).1
    simp only [redFold, halve_positions, List.map_map, FlagSet.union_bit _ _ hb, Bool.or_eq_true, flagsOf_bit _ hb, foldRaises]
    refine or_congr ?_ hrec
    simp only [List.mem_map, List.mem_range, Function.comp_apply]
    constructor
    · rintro ⟨f, ⟨i, hi, rfl⟩, hf⟩
      exact ⟨i, hi, (FlagSet.code_bit _ hb).trans hf⟩
    · rintro ⟨i, hi, hf⟩
      exact ⟨_, ⟨i, hi, rfl⟩, (FlagSet.code_bit _ hb).symm.trans hf⟩

theorem log2Up_eq_clog {len : Nat} : ∀ (fuel n : Nat), n ≤ Nat.clog 2 len → Nat.clog 2 len ≤ n + fuel → log2Up len fuel n = Nat.clog 2 len
  | 0, n, hlo, hhi => Nat.le_antisymm hlo hhi
  | fuel + 1, n, hlo, hhi => by
    unfold log2Up
    split
    · next hle => exact Nat.le_antisymm hlo (Nat.clog_le_of_le_pow hle)
    · next hgt =>
      refine log2Up_eq_clog fuel (n + 1) ?_ (by omega)
      by_contra hc
      exact hgt ((Nat.le_pow_clog (by decide) len).trans (Nat.pow_le_pow_right (by decide) (by omega)))

/-- Element `i` of the values of a pond's members, by position. -/
def memberElem (r : RMod) (vals : List Nat) (i j : Nat) : Option Nat := vals[j]?.map (redPart r · i)

/-- A column of the padded values is the list of its positions. -/
theorem padded_positions {vals : List Nat} {n : Nat} (h : vals.length ≤ 2 ^ n) (i : Nat) :
    (vals.map some ++ List.replicate (2 ^ n - vals.length) none).map (Option.map (redElem r i)) = positions n (memberElem r vals i) := by
  refine List.ext_getElem? fun j => ?_
  simp only [positions, List.getElem?_map, List.getElem?_append, List.length_map, List.getElem?_replicate]
  by_cases hj : j < vals.length
  · rw [if_pos hj, List.getElem?_range (hj.trans_le h)]
    simp only [List.getElem?_eq_getElem hj, Option.map_some, memberElem, redElem, bits, Nat.shiftRight_eq_div_pow]
    rfl
  · rw [if_neg hj]
    have hnone : vals[j]? = none := List.getElem?_eq_none (Nat.le_of_not_lt hj)
    by_cases hjn : j < 2 ^ n
    · rw [List.getElem?_range hjn, if_pos (by omega)]
      simp only [memberElem, hnone, Option.map_some, Option.map_none]
    · rw [if_neg (by omega), List.getElem?_eq_none (by simpa using hjn)]
      rfl

/-- The digits of a number put together from its digits. -/
theorem digit_foldr {B : Nat} (hB : 0 < B) : ∀ (l : List Nat) (i : Nat), (∀ x ∈ l, x < B) →
    l.foldr (fun x acc => x + B * acc) 0 / B ^ i % B = l.getD i 0
  | [], i, _ => by simp
  | x :: l, 0, h => by simp [Nat.mod_eq_of_lt (h x List.mem_cons_self)]
  | x :: l, i + 1, h => by
    have hx := h x List.mem_cons_self
    have hdiv : (x + B * l.foldr (fun x acc => x + B * acc) 0) / B = l.foldr (fun x acc => x + B * acc) 0 := by
      rw [Nat.add_mul_div_left _ _ hB, Nat.div_eq_of_lt hx, Nat.zero_add]
    rw [List.foldr_cons, Nat.pow_succ', ← Nat.div_div_eq_div_mul, hdiv, digit_foldr hB l i fun y hy => h y (List.mem_cons_of_mem _ hy)]
    rfl

theorem foldr_lt {B : Nat} : ∀ l : List Nat, (∀ x ∈ l, x < B) → l.foldr (fun x acc => x + B * acc) 0 < B ^ l.length
  | [], _ => by simp
  | x :: l, h => by
    have hx := h x List.mem_cons_self
    have hl := foldr_lt l fun y hy => h y (List.mem_cons_of_mem _ hy)
    rw [List.foldr_cons, List.length_cons, Nat.pow_succ']
    calc x + B * l.foldr (fun x acc => x + B * acc) 0 < B + B * l.foldr (fun x acc => x + B * acc) 0 := by omega
      _ = B * (l.foldr (fun x acc => x + B * acc) 0 + 1) := by ring
      _ ≤ B * B ^ l.length := Nat.mul_le_mul_left _ hl

section
variable {vals : List Nat}

theorem pondFoldPart_lt (r : RMod) (vals : List Nat) (i : Nat) : pondFoldPart r vals i < 2 ^ redWidth r.ty := by
  unfold pondFoldPart
  cases h : foldHalves r (Nat.clog 2 vals.length) (fun j => vals[j]?.map (redPart r · i)) with
  | none => exact redIdentity_lt r
  | some a =>
    refine foldHalves_lt _ _ (fun j a ha => ?_) a h
    obtain ⟨x, -, rfl⟩ := Option.map_eq_some_iff.1 ha
    exact Nat.mod_lt _ (by positivity)

/-- The pond fold of at most 2^14 values, element by element (R93). -/
theorem pondFold_eq (r : RMod) (h : vals.length ≤ 2 ^ 14) : pondFold r vals =
    (((List.range (redElems r.ty)).map (pondFoldPart r vals)).foldr (fun x acc => x + 2 ^ redWidth r.ty * acc) 0,
      flagsOf ((List.range (redElems r.ty)).map (fun i => (redFold r (Nat.clog 2 vals.length) (positions (Nat.clog 2 vals.length) (memberElem r vals i))).2))) := by
  have hlog : log2Up vals.length 14 0 = Nat.clog 2 vals.length :=
    log2Up_eq_clog 14 0 (Nat.zero_le _) (by rw [Nat.zero_add]; exact Nat.clog_le_of_le_pow h)
  simp only [pondFold, hlog, reduceWith, padded_positions (Nat.le_pow_clog (by decide) _), List.map_map, Function.comp_def, redFold_positions]
  rfl

theorem pondFold_lt (r : RMod) (h : vals.length ≤ 2 ^ 14) : (pondFold r vals).1 < (2 ^ redWidth r.ty) ^ redElems r.ty := by
  have hlt := foldr_lt ((List.range (redElems r.ty)).map (pondFoldPart r vals)) fun x hx => by
    obtain ⟨i, -, rfl⟩ := List.mem_map.1 hx
    exact pondFoldPart_lt r vals i
  rw [pondFold_eq r h]
  simpa using hlt

theorem redPart_pondFold (r : RMod) (h : vals.length ≤ 2 ^ 14) {i : Nat} (hi : i < redElems r.ty) :
    redPart r (pondFold r vals).1 i = pondFoldPart r vals i := by
  rw [pondFold_eq r h, redPart, Nat.pow_mul, digit_foldr (by positivity) _ _ fun x hx => by
    obtain ⟨i, -, rfl⟩ := List.mem_map.1 hx
    exact pondFoldPart_lt r vals i]
  simp [List.getD, List.getElem?_range hi]

theorem pondFold_flags (r : RMod) (h : vals.length ≤ 2 ^ 14) {b : Nat} (hb : b < 5) :
    (pondFold r vals).2.code.getLsbD b = true ↔ ∃ i < redElems r.ty, pondFoldRaises r b vals i := by
  rw [pondFold_eq r h, FlagSet.code_bit _ hb, flagsOf_bit _ hb]
  simp only [List.mem_map, List.mem_range]
  constructor
  · rintro ⟨f, ⟨i, hi, rfl⟩, hf⟩
    exact ⟨i, hi, (redFold_flags r hb _ _).1 hf⟩
  · rintro ⟨i, hi, hf⟩
    exact ⟨_, ⟨i, hi, rfl⟩, (redFold_flags r hb _ _).2 hf⟩

/-- The elements of a type fill one register, or two where it is 64 bits wide (R164). -/
theorem redElems_bits (r : RMod) : (2 ^ redWidth r.ty) ^ redElems r.ty = if redWide r then 2 ^ 64 else 2 ^ 32 := by
  unfold redWide
  cases r.ty with
  | flt fmt => cases fmt <;> rfl
  | i32 | i64 => rfl

end

end Sys2Proof.Machine
end

section
/-! SUPPORT. What surrounds a word that issues, and what its issue leaves. -/

namespace Sys2Proof.Machine

variable {s t : State} {e : Env} {i : Instr} {g : Guard} {u : Thread}

theorem pond_updPond (s : State) (d : Nat) {f : Pond → Pond} (hf : ∀ x, (f x).id = x.id) : pond (updPond s d f) d = (pond s d).map f := by
  rw [pond, updPond_ponds, find?_updWhere (fun x => by rw [hf])]
  cases h : pond s d with
  | none => rw [show s.ponds.find? (fun x => x.id == d) = none from h]; rfl
  | some x =>
    have hx : (x.id == d) = true := List.find?_some (p := fun x : Pond => x.id == d) h
    rw [show s.ponds.find? (fun x => x.id == d) = some x from h, Option.map_some, if_pos hx]
    rfl

/-- What surrounds a word in a state: the records that its fragment's place leads to, and its threads (R38). -/
structure Env.Stands (s : State) (e : Env) : Prop where
  frag : e.frag ∈ s.frags
  poolId : e.pool.id = e.frag.ref.pool
  pool : Machine.pool s e.pool.id = some e.pool
  pondId : e.pond.id = e.pool.pond
  pond : Machine.pond s e.pond.id = some e.pond
  core : e.pond.core = some e.core
  block : Machine.block s e.pond.blk = some e.block
  launch : Machine.launch s e.block.launch = some e.launch
  ctx : Machine.ctx s e.launch.ctx = some e.ctx
  threads : e.threads = fragThreads s e.frag.ref

theorem Issues.stands (h : Issues s e i) : e.Stands s := by
  obtain ⟨iss, _, he⟩ := Option.bind_eq_some_iff.1 h.env
  have hpool := pool_of_env he
  unfold envOf at he
  simp only [Option.bind_eq_bind, Option.bind_eq_some_iff, Option.some.injEq] at he
  obtain ⟨f, hf, p, hp, d, hd, c, hc, b, hb, l, hl, x, hx, rfl⟩ := he
  have hpid : p.id = f.pool := by simpa using List.find?_some hp
  have hdid : d.id = p.pond := by simpa using List.find?_some hd
  exact ⟨List.mem_of_find?_eq_some hf, hpid, hpool, hdid, hdid ▸ hd, hc, hb, hl, hx, rfl⟩

/-- The threads for which a word acts are threads of its fragment. -/
theorem inFrag_of_active (h : Issues s e i) (hu : u ∈ e.active g) : u.inFrag e.frag.ref = true := by
  have hu := (List.mem_filter.1 hu).1
  rw [h.stands.threads] at hu
  exact (List.mem_filter.1 (mem_of_mem_sortBy hu)).2

theorem pool_of_active (h : Issues s e i) (hu : u ∈ e.active g) : u.pool = some e.pool.id := by
  have hin := inFrag_of_active h hu
  rw [h.stands.poolId]
  unfold Thread.inFrag at hin
  unfold Thread.pool
  cases hpl : u.place with
  | lane p j k =>
    simp only [hpl, Bool.and_eq_true, beq_iff_eq] at hin
    simp only [hin.1]
  | well k a => simp [hpl] at hin

/-- The fragment of a word moves on to the next one, unless operation Y of the pair follows (R102, R114). -/
def MovesOn (e : Env) (fs fs' : List Frag) : Prop := ∃ f : Frag → Frag, fs' = updWhere (fun x => x.ref == e.frag.ref) f fs ∧
  ∀ x, (f x).ref = x.ref ∧ (f x).pc = if e.iss.part = .pairX then x.pc else x.pc + 16

theorem finish_frags (s : State) (e : Env) (i : Instr) : MovesOn e s.frags (finish s e i).frags := by
  unfold finish
  simp only
  split
  · next hx =>
    split
    · exact ⟨_, rfl, fun x => ⟨rfl, by rw [if_pos hx]⟩⟩
    · exact ⟨_, rfl, fun x => ⟨rfl, by rw [if_pos hx]⟩⟩
  · next hx =>
    split
    · exact ⟨_, rfl, fun x => ⟨rfl, (if_neg hx).symm⟩⟩
    · exact ⟨_, rfl, fun x => ⟨rfl, (if_neg hx).symm⟩⟩

/-- A fragment that has moved on may then change in what is neither its name nor its place. -/
theorem MovesOn.updWhere {fs fs' : List Frag} (h : MovesOn e fs fs') {f : Frag → Frag} (hf : ∀ x, (f x).ref = x.ref ∧ (f x).pc = x.pc) :
    MovesOn e fs (updWhere (fun x => x.ref == e.frag.ref) f fs') := by
  obtain ⟨f₀, rfl, hf₀⟩ := h
  refine ⟨f ∘ f₀, ?_, fun x => ⟨(hf _).1.trans (hf₀ x).1, (hf _).2.trans (hf₀ x).2⟩⟩
  simp only [Machine.updWhere, List.map_map]
  refine List.map_congr_left fun x _ => ?_
  simp only [Function.comp_apply]
  by_cases hx : (x.ref == e.frag.ref) = true
  · simp only [hx, if_true, (hf₀ x).1]
  · simp [hx]

/-- What the issue of a word leaves, beside what else stands in `s₀` by then. -/
theorem issued_of {s₀ : State} (hrest : t = { s₀ with
    threads := t.threads
    frags := t.frags
    cur := t.cur
    free := t.free
    hints := t.hints }) (hth : t.threads = s₀.threads.map (Thread.issued e.frag.ref)) (hfr : MovesOn e s₀.frags t.frags) :
    State.Issued e [] [] s₀ t where
  rest := hrest
  threads := by
    rw [hth, List.forall₂_map_right_iff]
    refine forall₂_self _ fun x _ => ?_
    unfold Thread.issued
    cases x.inFrag e.frag.ref <;> rfl
  frags := by
    obtain ⟨f, hfs, hf⟩ := hfr
    rw [hfs]
    rw [updWhere, List.forall₂_map_right_iff]
    refine forall₂_self _ fun x _ => ?_
    by_cases hx : x.ref = e.frag.ref
    · simp [hx, hf x]
    · simp [hx]

theorem finish_issued (s : State) (e : Env) (i : Instr) : State.Issued e [] [] s (finish s e i) :=
  issued_of (by
    conv_lhs => rw [finish_eq]
    rw [finish_threads]) (finish_threads_eq_map s e i) (finish_frags s e i)

end Sys2Proof.Machine
end

section
/-! O41, the arrival at a collective (R73, R200): its members wait, with nothing changed, until the last of them has arrived. -/

namespace Sys2Proof.Machine

variable {s t : State} {e : Env} {i : Instr} {g : Guard} {u : Thread} {p : Option Nat} {l : List Thread}

/-- Threads that keep their pond and their place keep their collectives. -/
theorem members_map {f : Thread → Thread} (ht : t.threads = s.threads.map f) (hf : ∀ x, (f x).pond = x.pond ∧ (f x).place = x.place) (pd : Nat) :
    members t pd p = (members s pd p).map f := by
  have hfilter : ∀ q : Thread → Bool, (∀ x, q (f x) = q x) → t.threads.filter q = (s.threads.filter q).map f := fun q hq => by
    rw [ht, List.filter_map]
    congr 1
    exact List.filter_congr fun x _ => hq x
  cases p with
  | none => exact hfilter _ fun x => by rw [(hf x).1]
  | some p => exact hfilter _ fun x => by rw [Thread.inPool, Thread.inPool, Thread.pool, Thread.pool, (hf x).2]

theorem issued_ref (r : FRef) (u : Thread) : (u.issued r).ref = u.ref := by rw [Thread.issued_eq]; rfl
theorem issued_pond (r : FRef) (u : Thread) : (u.issued r).pond = u.pond := by rw [Thread.issued_eq]
theorem issued_place (r : FRef) (u : Thread) : (u.issued r).place = u.place := by rw [Thread.issued_eq]

/-- The state in which a word's threads have arrived at their collective, behind `old`, and its fragment holds. -/
def arrivedState (s : State) (e : Env) (p : Option Nat) (as : List Arrival) : State :=
  let old := ((s.colls.find? (fun c => c.pond == e.pond.id && c.pool == p)).map Coll.arrivals).getD []
  begin_ (updFrag { s with colls := ⟨e.pond.id, p, old ++ as⟩ :: s.colls.filter (fun c => !(c.pond == e.pond.id && c.pool == p)) } e.frag.ref
    (fun f => { f with hold := .coll e.waiter })) e

theorem arriveColl_eq (s : State) (e : Env) (p : Option Nat) (as : List Arrival) :
    arriveColl s e p as = settleColl (arrivedState s e p as) e.pond.id p := rfl

/-- The collective that a state with arrivals settles is the one that they have joined. -/
theorem find?_arrivedState (s : State) (e : Env) (p : Option Nat) (as : List Arrival) :
    (arrivedState s e p as).colls.find? (fun c => c.pond == e.pond.id && c.pool == p) =
      some ⟨e.pond.id, p, ((s.colls.find? (fun c => c.pond == e.pond.id && c.pool == p)).map Coll.arrivals).getD [] ++ as⟩ := by
  simp [arrivedState, begin_]

/-- While a member has not arrived, the others wait (R73). -/
theorem settleColl_waits {c : Coll} {pd : Nat} (hc : s.colls.find? (fun c => c.pond == pd && c.pool == p) = some c)
    (hu : ∃ u ∈ members s pd p, ∀ a ∈ c.arrivals, a.t ≠ u.ref) : settleColl s pd p = s := by
  obtain ⟨u, hu, hne⟩ := hu
  have hall : (members s pd p).all (fun t => c.arrivals.any (fun a => a.t == t.ref)) = false := by
    refine List.all_eq_false.2 ⟨u, hu, ?_⟩
    simpa using hne
  simp [settleColl, hc, hall]

/-- A collective word, by what its members bring. -/
theorem exec_collective (hi : isCollective i = true) : ∃ mk : Env → Thread → Arrival, (∀ e u, (mk e u).t = u.ref) ∧
    ∀ s, exec i s = issue i s (collBody (guardOfInstr i) (fun e => collPool e i) mk) := by
  cases i with
  | nred g r d a => exact ⟨_, fun _ _ => rfl, fun _ => rfl⟩
  | nbcast g form b => exact ⟨_, fun e u => by cases form <;> rfl, fun _ => rfl⟩
  | merge g pd policy p a =>
    cases pd with
    | false => exact ⟨_, fun e u => by cases a <;> rfl, fun _ => rfl⟩
    | true => exact ⟨_, fun e u => by cases a <;> rfl, fun _ => rfl⟩
  | setw g d a => exact ⟨_, fun _ _ => rfl, fun _ => rfl⟩
  | _ => cases hi

/-- What a word leaves whose threads wait at their collective. -/
theorem arrivedState_issued (s : State) (e : Env) (i : Instr) (as : List Arrival) : State.Issued e [] []
    { s with colls := (arrivedState (finish s e i) e p as).colls, incomplete := s.incomplete ++ [e.iss.wid] } (arrivedState (finish s e i) e p as) := by
  refine issued_of ?_ (finish_threads_eq_map s e i) ((finish_frags s e i).updWhere fun x => ⟨rfl, rfl⟩)
  simp only [arrivedState, begin_, updFrag]
  conv_lhs => rw [finish_eq]
  simp only [finish_threads, finish_colls]

theorem arrivedState_holds (h : Issues s e i) (as : List Arrival) :
    ∃ f ∈ (arrivedState (finish s e i) e p as).frags, f.ref = e.frag.ref ∧ f.hold = .coll e.waiter := by
  obtain ⟨f, hfs, hf⟩ := finish_frags s e i
  have hmem : f e.frag ∈ (finish s e i).frags := by
    rw [hfs]
    exact List.mem_map.2 ⟨e.frag, h.stands.frag, by simp⟩
  refine ⟨{ f e.frag with hold := .coll e.waiter }, List.mem_map.2 ⟨f e.frag, hmem, ?_⟩, (hf _).1, rfl⟩
  rw [if_pos (by simp [(hf _).1])]

/-- A collective word completes; without an active thread it only issues, and while a member is still to come its threads wait. -/
theorem collective_arrives (hi : isCollective i = true) (h : Issues s e i) :
    ∃ t, exec i s = .next t ∧ (e.active (guardOfInstr i) = [] → State.Issued e [] [] s t) ∧
      (e.active (guardOfInstr i) ≠ [] → (∃ u ∈ members s e.pond.id (collPool e i), u.ref ∉ e.acting (guardOfInstr i) ∧
          ∀ c ∈ s.colls, c.pond = e.pond.id → c.pool = collPool e i → ∀ a ∈ c.arrivals, a.t ≠ u.ref) →
        State.Issued e [] [] { s with colls := t.colls, incomplete := s.incomplete ++ [e.iss.wid] } t ∧
        (∃ f ∈ t.frags, f.ref = e.frag.ref ∧ f.hold = .coll e.waiter) ∧
        ∃ c ∈ t.colls, c.pond = e.pond.id ∧ c.pool = collPool e i ∧ ∀ r ∈ e.acting (guardOfInstr i), ∃ a ∈ c.arrivals, a.t = r) := by
  obtain ⟨mk, hmk, hexec⟩ := exec_collective hi
  refine ⟨_, (hexec s).trans (issue_plain h _ _), fun hact => ?_, fun hact => ?_⟩
  · rw [if_pos hact]
    exact finish_issued s e i
  · rintro ⟨u, hu, hact', hold⟩
    have hfind := find?_arrivedState (finish s e i) e (collPool e i) ((e.active (guardOfInstr i)).map (mk e))
    have hmem : u.issued e.frag.ref ∈ members (arrivedState (finish s e i) e (collPool e i) ((e.active (guardOfInstr i)).map (mk e)))
        e.pond.id (collPool e i) := by
      have hth : (arrivedState (finish s e i) e (collPool e i) ((e.active (guardOfInstr i)).map (mk e))).threads = s.threads.map (Thread.issued e.frag.ref) :=
        finish_threads_eq_map s e i
      rw [members_map hth fun x => ⟨issued_pond _ x, issued_place _ x⟩]
      exact List.mem_map_of_mem hu
    have hwaits := settleColl_waits hfind ⟨_, hmem, fun a ha hau => ?_⟩
    · rw [if_neg hact, arriveColl_eq, hwaits]
      refine ⟨arrivedState_issued s e i _, arrivedState_holds h _, _, List.mem_cons_self, rfl, rfl, fun r hr => ?_⟩
      obtain ⟨v, hv, rfl⟩ := List.mem_map.1 hr
      exact ⟨mk e v, List.mem_append_right _ (List.mem_map_of_mem hv), hmk e v⟩
    · rw [issued_ref] at hau
      rcases List.mem_append.1 ha with ha | ha
      · rw [finish_colls] at ha
        cases hc : s.colls.find? (fun c => c.pond == e.pond.id && c.pool == collPool e i) with
        | none => simp [hc] at ha
        | some c =>
          rw [hc] at ha
          have hcp := List.find?_some hc
          simp only [Bool.and_eq_true, beq_iff_eq] at hcp
          exact hold c (List.mem_of_find?_eq_some hc) hcp.1 hcp.2 a ha hau
      · obtain ⟨v, hv, rfl⟩ := List.mem_map.1 ha
        exact hact' (hau ▸ hmk e v ▸ List.mem_map_of_mem hv)

end Sys2Proof.Machine
end

section
/-! O41, a word that brings every member of its collective (R73, R200): they agree, and the collective completes on their values. -/

namespace Sys2Proof.Machine

variable {s t : State} {e : Env} {i : Instr} {g : Guard} {u : Thread} {p : Option Nat} {l : List Thread}

/-- The threads and the records that a complete collective works on, once its word has issued and its members go on (R72). -/
structure Gathered (s : State) (e : Env) (s' : State) : Prop where
  threads : s'.threads = s.threads.map (Thread.issued e.frag.ref)
  pools : s'.pools = s.pools
  ponds : s'.ponds = s.ponds
  blocks : s'.blocks = s.blocks
  launches : s'.launches = s.launches
  ctxs : s'.ctxs = s.ctxs
  host : s'.host = s.host

/-- The member fragments of a collective that go on, and its words, change nothing else. -/
theorem releaseColl_eq (s : State) (as : List Arrival) : releaseColl s as = { s with
    frags := (releaseColl s as).frags
    incomplete := (releaseColl s as).incomplete } := by
  have hrel : ∀ (rs : List FRef) (s : State), rs.foldl release s = { s with frags := (rs.foldl release s).frags } := by
    intro rs
    induction rs with
    | nil => exact fun s => rfl
    | cons r rs ih =>
      intro s
      rw [List.foldl_cons, ih]
      rfl
  have hend : ∀ (ws : List Nat) (s : State), ws.foldl completeWord s = { s with incomplete := (ws.foldl completeWord s).incomplete } := by
    intro ws
    induction ws with
    | nil => exact fun s => rfl
    | cons w ws ih =>
      intro s
      rw [List.foldl_cons, ih]
      rfl
  unfold releaseColl
  simp only
  rw [hend, hrel]

theorem Gathered.releaseColl {s₀ : State} (h : Gathered s e s₀) (as : List Arrival) : Gathered s e (releaseColl s₀ as) := by
  rw [releaseColl_eq]
  exact ⟨h.threads, h.pools, h.ponds, h.blocks, h.launches, h.ctxs, h.host⟩

theorem finish_gathered (s : State) (e : Env) (i : Instr) : Gathered s e (finish s e i) :=
  ⟨finish_threads_eq_map s e i, finish_pools s e, finish_ponds .., finish_blocks .., finish_launches .., finish_ctxs .., finish_host ..⟩

theorem Gathered.arrived {s₀ : State} (h : Gathered s e s₀) (p : Option Nat) (as : List Arrival) : Gathered s e (arrivedState s₀ e p as) :=
  ⟨h.threads, h.pools, h.ponds, h.blocks, h.launches, h.ctxs, h.host⟩

theorem Gathered.setColls {s₀ : State} (h : Gathered s e s₀) (cs : List Coll) : Gathered s e { s₀ with colls := cs } :=
  ⟨h.threads, h.pools, h.ponds, h.blocks, h.launches, h.ctxs, h.host⟩

/-- Once every member has arrived, and they agree, their collective completes on what they brought. -/
theorem settleColl_completes {c : Coll} {pd : Nat} {as : List Arrival} (hc : s.colls.find? (fun c => c.pond == pd && c.pool == p) = some c)
    (hall : (members s pd p).all (fun t => c.arrivals.any (fun a => a.t == t.ref)) = true)
    (has : sortBy (fun a : Arrival => a.t.tid) (c.arrivals.filter (fun a => (members s pd p).any (fun t => t.ref == a.t))) = as)
    (hagree : disagreement as = none) : settleColl s pd p =
      completeColl (releaseColl { s with colls := s.colls.filter (fun c => !(c.pond == pd && c.pool == p)) } as) pd p as := by
  simp only [settleColl, hc, hall, Bool.not_true, Bool.false_eq_true, if_false]
  rw [show sortBy _ _ = as from has, hagree]

/-- Members whose words and operands are alike agree (R200). -/
theorem disagreement_eq_none {as : List Arrival} {i : Instr} {k : Word} (hi : ∀ a ∈ as, a.instr = i) (hk : ∀ a ∈ as, a.key = k)
    (hw : ∀ a ∈ as, a.badWidth = false) : disagreement as = none := by
  have hwidth : as.find? Arrival.badWidth = none := List.find?_eq_none.2 fun a ha => by simp [hw a ha]
  unfold disagreement
  rw [hwidth]
  cases as with
  | nil => rfl
  | cons f r =>
    have hunlike : r.find? f.unlike = none := List.find?_eq_none.2 fun a ha => by
      simp [Arrival.unlike, hi a (List.mem_cons_of_mem _ ha), hk a (List.mem_cons_of_mem _ ha), hi f List.mem_cons_self, hk f List.mem_cons_self]
    simp [hunlike]

/-- The members in ascending block-linear thread index, from the order in which they stand in their lanes. -/
theorem sortBy_arrivals {mk : Thread → Arrival} (hmk : ∀ u, (mk u).t = u.ref) (ha : Alone s e g p l) :
    sortBy (fun a : Arrival => a.t.tid) ((e.active g).map mk) = l.map mk := by
  have hkey : ∀ u, (mk u).t.tid = u.tid := fun u => by rw [hmk]; rfl
  have hinj : ∀ a ∈ l.map mk, ∀ b ∈ l.map mk, a.t.tid = b.t.tid → a = b := by
    intro a hA b hB hab
    obtain ⟨u, hu, rfl⟩ := List.mem_map.1 hA
    obtain ⟨v, hv, rfl⟩ := List.mem_map.1 hB
    rw [hkey, hkey] at hab
    have hnd : (l.map Thread.tid).Nodup := List.pairwise_map.2 (ha.order.imp fun h => h.ne)
    rw [List.inj_on_of_nodup_map hnd hu hv hab]
  have hperm : (sortBy (fun a : Arrival => a.t.tid) ((e.active g).map mk)).Perm (l.map mk) :=
    (sortBy_perm _ _).trans (ha.acting.symm.map mk)
  refine hperm.eq_of_pairwise (le := fun a b : Arrival => a.t.tid ≤ b.t.tid) (fun a b hA hB hab hba => ?_) (sortBy_sorted _ _) ?_
  · exact hinj a (hperm.mem_iff.1 hA) b hB (Nat.le_antisymm hab hba)
  · refine List.pairwise_map.2 (ha.order.imp fun h => ?_)
    rw [hkey, hkey]
    exact h.le

/-- A collective whose members all come with one word, and agree, completes on their values in ascending block-linear thread index. -/
theorem arriveColl_alone (ha : Alone s e g p l) {mk : Thread → Arrival} (hmk : ∀ u, (mk u).t = u.ref) {j : Instr} {k : Word}
    (hj : ∀ u ∈ l, (mk u).instr = j) (hk : ∀ u ∈ l, (mk u).key = k) (hw : ∀ u ∈ l, (mk u).badWidth = false) :
    ∃ s', arriveColl (finish s e i) e p ((e.active g).map mk) = completeColl s' e.pond.id p (l.map mk) ∧ Gathered s e s' := by
  have hth : (arrivedState (finish s e i) e p ((e.active g).map mk)).threads = s.threads.map (Thread.issued e.frag.ref) := finish_threads_eq_map s e i
  have hmembers := members_map (p := p) hth (fun x => ⟨issued_pond _ x, issued_place _ x⟩) e.pond.id
  have hfresh : s.colls.find? (fun c => c.pond == e.pond.id && c.pool == p) = none :=
    List.find?_eq_none.2 fun c hc => by simpa using ha.fresh c hc
  have hfind := find?_arrivedState (finish s e i) e p ((e.active g).map mk)
  rw [finish_colls, hfresh, Option.map_none, Option.getD_none, List.nil_append] at hfind
  have hall : (members (arrivedState (finish s e i) e p ((e.active g).map mk)) e.pond.id p).all
      (fun t => ((e.active g).map mk).any (fun a => a.t == t.ref)) = true := by
    rw [hmembers, List.all_map, List.all_eq_true]
    intro u hu
    refine List.any_eq_true.2 ⟨mk u, List.mem_map_of_mem (ha.acting.mem_iff.1 ((ha.members u).1 hu)), ?_⟩
    simp [hmk, issued_ref]
  have hkeep : ((e.active g).map mk).filter (fun a => (members (arrivedState (finish s e i) e p ((e.active g).map mk)) e.pond.id p).any
      (fun t => t.ref == a.t)) = (e.active g).map mk := by
    refine List.filter_eq_self.2 fun a hA => ?_
    obtain ⟨u, hu, rfl⟩ := List.mem_map.1 hA
    rw [hmembers, List.any_map]
    refine List.any_eq_true.2 ⟨u, (ha.members u).2 (ha.acting.mem_iff.2 hu), ?_⟩
    simp [hmk, issued_ref]
  have hagree : disagreement (l.map mk) = none := disagreement_eq_none (i := j) (k := k)
    (by rintro _ hA; obtain ⟨u, hu, rfl⟩ := List.mem_map.1 hA; exact hj u hu)
    (by rintro _ hA; obtain ⟨u, hu, rfl⟩ := List.mem_map.1 hA; exact hk u hu)
    (by rintro _ hA; obtain ⟨u, hu, rfl⟩ := List.mem_map.1 hA; exact hw u hu)
  exact ⟨_, settleColl_completes hfind hall ((congrArg _ hkeep).trans (sortBy_arrivals hmk ha)) hagree,
    (((finish_gathered s e i).arrived p _).setColls _).releaseColl _⟩

/-- A collective word that alone brings every member completes as its collective does. -/
theorem issue_alone (h : Issues s e i) (ha : Alone s e g p l) {pf : Env → Option Nat} (hp : pf e = p) {mk : Env → Thread → Arrival}
    (hmk : ∀ u, (mk e u).t = u.ref) {j : Instr} {k : Word} (hj : ∀ u ∈ l, (mk e u).instr = j) (hk : ∀ u ∈ l, (mk e u).key = k)
    (hw : ∀ u ∈ l, (mk e u).badWidth = false) :
    ∃ s', issue i s (collBody g pf mk) = .next (completeColl s' e.pond.id p (l.map (mk e))) ∧ Gathered s e s' := by
  have hact : e.active g ≠ [] := fun hnil => ha.some_ (List.perm_nil.1 (hnil ▸ ha.acting))
  obtain ⟨s', hs', hg⟩ := arriveColl_alone (i := i) ha hmk hj hk hw
  refine ⟨s', ?_, hg⟩
  rw [collBody, issue_plain h, if_neg hact, hp, hs']

end Sys2Proof.Machine
end

section
/-! O41, the members of a complete collective: what their values are, and the flags and predicates that they receive. -/

namespace Sys2Proof.Machine

variable {s s' t : State} {e : Env} {i : Instr} {g : Guard} {u u' x : Thread} {p : Option Nat} {l : List Thread} {as : List Arrival} {r : TRef}

/-- A thread that has changed at most in its copies and the counts and marks that go with them. -/
def Thread.CopiesOnly (u u' : Thread) : Prop := u' = { u with
  springs := u'.springs
  slots := u'.slots
  poison := u'.poison
  marks := u'.marks
  uses := u'.uses
  retired := u'.retired }

theorem Thread.CopiesOnly.refl (u : Thread) : u.CopiesOnly u := rfl
theorem Thread.CopiesOnly.trans (h : u.CopiesOnly u') (h' : u'.CopiesOnly x) : u.CopiesOnly x := by
  unfold Thread.CopiesOnly at *
  rw [h', h]
theorem Thread.CopiesOnly.ref_eq (h : u.CopiesOnly u') : u'.ref = u.ref := by rw [h]; rfl
theorem Thread.CopiesOnly.fflags_eq (h : u.CopiesOnly u') : u'.fflags = u.fflags := by rw [h]

/-- The threads of a state have changed at most in their copies. -/
def OnlyCopies (l l' : List Thread) : Prop := List.Forall₂ Thread.CopiesOnly l l'

theorem OnlyCopies.refl (l : List Thread) : OnlyCopies l l := forall₂_self _ fun x _ => .refl x
theorem OnlyCopies.trans {l l' l'' : List Thread} (h : OnlyCopies l l') (h' : OnlyCopies l' l'') : OnlyCopies l l'' :=
  forall₂_trans (R := Thread.CopiesOnly) (fun _ _ _ h h' => h.trans h') h h'
theorem onlyCopies_updThreads (s : State) (q : Thread → Bool) {f : Thread → Thread} (hf : ∀ x : Thread, x.CopiesOnly (f x)) :
    OnlyCopies s.threads (updThreads s q f).threads := forall₂_updWhere _ _ _ (fun x _ _ => hf x) fun x _ => .refl x

theorem onlyCopies_setPondCopy (s : State) (pd n : Nat) (v : Word) : OnlyCopies s.threads (setPondCopy s pd n v).threads :=
  onlyCopies_updThreads s _ fun _ => rfl
theorem onlyCopies_setPondSlot (s : State) (pd k : Nat) (v : QSlot) : OnlyCopies s.threads (setPondSlot s pd k v).threads :=
  onlyCopies_updThreads s _ fun _ => rfl
theorem onlyCopies_lwrite (s : State) (q n : Nat) (pl : Bool) (vals : List (TRef × Word)) : OnlyCopies s.threads (lwrite s q n pl vals).threads := by
  have hover := onlyCopies_updThreads s (fun t => (valOf vals t.ref).isSome) (f := fun t => t.overtake n none) fun _ => rfl
  unfold lwrite writeCopies
  simp only
  split
  · exact hover.trans (onlyCopies_updThreads _ _ fun _ => rfl)
  · exact hover.trans (onlyCopies_updThreads _ _ fun _ => rfl)

theorem Gathered.onlyCopies (h : Gathered s e s') : OnlyCopies s.threads s'.threads := by
  rw [h.threads]
  exact List.forall₂_map_right_iff.2 (forall₂_self _ fun x _ => by rw [Thread.issued_eq]; rfl)

theorem Gathered.pond (h : Gathered s e s') (hi : Issues s e i) : pond s' e.pond.id = some e.pond := by
  rw [Machine.pond, h.ponds]
  exact hi.stands.pond

theorem Gathered.pool (h : Gathered s e s') (hi : Issues s e i) : pool s' e.pool.id = some e.pool := by
  rw [Machine.pool, h.pools]
  exact hi.stands.pool

theorem Gathered.sole (h : Gathered s e s') (hu : Sole s u) : Sole s' (u.issued e.frag.ref) := hu.map h.threads fun x => issued_ref _ x

/-- A member finds itself under its name. -/
theorem Gathered.thread (h : Gathered s e s') (hu : Sole s u) : thread s' u.ref = some (u.issued e.frag.ref) := by
  rw [← issued_ref e.frag.ref u]
  exact (h.sole hu).thread_eq

theorem Gathered.pool_of_member (h : Gathered s e s') (hi : Issues s e i) (ha : Alone s e g p l) (hu : u ∈ l) :
    (u.issued e.frag.ref).pool.bind (Machine.pool s') = some e.pool := by
  rw [Thread.pool, issued_place]
  show u.pool.bind (Machine.pool s') = some e.pool
  rw [pool_of_active hi (ha.acting.mem_iff.1 hu)]
  exact h.pool hi

/-- One value for every member, by name. -/
theorem map_arrivals {α : Type} (as : List Arrival) (v : α) : as.map (fun a => (a.t, v)) = (as.map Arrival.t).map (fun r => (r, v)) := by
  rw [List.map_map]
  rfl

theorem valOf_arrivals {α : Type} {v : α} (hr : r ∈ as.map Arrival.t) : valOf (as.map (fun a => (a.t, v))) r = some v := by
  rw [map_arrivals, valOf_writers _ (fun _ => v), if_pos hr]

/-- Every member gains the flags of a collective, and no other thread (R199, R352). -/
theorem memberFlags_gains {fl : FlagSet} (h : OnlyCopies s.threads s'.threads) (hr : r ∈ as.map Arrival.t) : Gains s (memberFlags s' as fl) r fl.code := by
  refine List.forall₂_map_right_iff.2 (h.imp fun u u' hu hur => ?_)
  have hur' : u'.ref = r := hu.ref_eq.trans hur
  simp [hur', valOf_arrivals hr, hu.fflags_eq]

theorem setPred_same (u : Thread) {k : Nat} (hk : k < 64) (b : Bool) : (u.setPred k b).preds.getLsbD k = b := by
  unfold Thread.setPred
  cases b <;> simp [hk]

/-- Every member receives a predicate (R73). -/
theorem writePred_predIs {b : Bool} {k : Nat} (hk : k < 64) (hr : r ∈ as.map Arrival.t) :
    PredIs (writePred s k (as.map (fun a => (a.t, b)))) r k b := by
  intro u hu hur
  obtain ⟨x, hx, rfl⟩ := List.mem_map.1 hu
  have hxr : x.ref = r := by
    rw [← hur]
    simp only
    split <;> rfl
  simp only [hxr, valOf_arrivals hr, Option.isSome_some, if_true, Option.getD_some]
  exact setPred_same x hk b

/-- A predicate for the members leaves the flags that they gained. -/
theorem Gains.writePred {k : Nat} {vals : List (TRef × Bool)} {f : BitVec 5} (h : Gains s t r f) : Gains s (writePred t k vals) r f := by
  refine List.forall₂_map_right_iff.2 (h.imp fun u u' hu hur => ?_)
  rw [← hu hur]
  simp only
  split <;> rfl

end Sys2Proof.Machine
end

section
/-! O41, the pond copy that a collective sets (R72), and NRED and NBCAST (R199). -/

namespace Sys2Proof.Machine

variable {s s' t : State} {e : Env} {i : Instr} {g : Guard} {u x : Thread} {d : Pond} {pd n : Nat} {v : Word} {l : List Thread}

/-- Setting a pond copy sets that copy alone among the pond's. -/
theorem setPondCopy_pond (hd : pond s pd = some d) (n : Nat) (v : Word) :
    ∃ d', pond (setPondCopy s pd n v) pd = some d' ∧ d'.copy n = v ∧ ∀ m, n ≠ m → d'.copy m = d.copy m := by
  refine ⟨{ d with bank := mapSet d.bank n v, poison := d.poison.filter (· != n) }, ?_, by simp [Pond.copy], fun m hm => ?_⟩
  · have h := pond_updPond s pd (f := fun p => { p with bank := mapSet p.bank n v, poison := p.poison.filter (· != n) }) fun _ => rfl
    rw [hd] at h
    exact h
  · simp [Pond.copy, mapGet_mapSet_ne _ _ hm]

theorem setPondSlot_pond (hd : pond s pd = some d) (k : Nat) (v : QSlot) :
    ∃ d', pond (setPondSlot s pd k v) pd = some d' ∧ d'.slotCopy k = v := by
  refine ⟨{ d with qbank := mapSet d.qbank k v, poison := d.poison.filter (· != 1000 + k) }, ?_, by simp [Pond.slotCopy]⟩
  have h := pond_updPond s pd (f := fun p => { p with qbank := mapSet p.qbank k v, poison := p.poison.filter (· != 1000 + k) }) fun _ => rfl
  rw [hd] at h
  exact h

/-- The pond copies of the one or two registers of a destination that a collective sets (R199). -/
theorem setPondPair_pond (hd : pond s pd = some d) (m : Nat) (lo hi : Word) :
    ∃ d', pond (setPondCopy (setPondCopy s pd m lo) pd (m + 1) hi) pd = some d' ∧ d'.copy m = lo ∧ d'.copy (m + 1) = hi := by
  obtain ⟨d₁, h₁, hlo, -⟩ := setPondCopy_pond hd m lo
  obtain ⟨d₂, h₂, hhi, hother⟩ := setPondCopy_pond h₁ (m + 1) hi
  exact ⟨d₂, h₂, (hother m (by omega)).trans hlo, hhi⟩

theorem onlyCopies_setPondDst (s : State) (pd : Nat) (d : Dst) (k v : Nat) : OnlyCopies s.threads (setPondDst s pd d k v).threads := by
  cases d with
  | none => exact .refl _
  | reg n tag => exact onlyCopies_setPondCopy ..

/-- A 64-bit value is the pair of its words (R68). -/
theorem pairWord_words (v : Nat) : pairWord (BitVec.ofNat 32 (v / 2 ^ 32)) (BitVec.ofNat 32 v) = BitVec.ofNat 64 v := by
  refine BitVec.eq_of_toNat_eq ?_
  rw [pairWord, BitVec.toNat_append, ← Nat.shiftLeft_add_eq_or_of_lt (BitVec.isLt _)]
  simp only [BitVec.toNat_ofNat, Nat.shiftLeft_eq]
  omega

/-- The value of an arrival of one register, and of two. -/
theorem words_value {w : Bool} {a : Src} {f : Arrival} (hf : f.val = e.words w u a) :
    f.value = if w then (e.src64 0 false u a).toNat else (e.src 0 u a).toNat := by
  rw [Arrival.value, hf, Env.words]
  cases w with
  | false => simp
  | true =>
    simp only [if_true, List.headD_cons, List.drop_succ_cons, List.drop_zero, loWord, hiWord, BitVec.extractLsb'_toNat, Nat.shiftRight_zero]
    have hlt := (e.src64 0 false u a).isLt
    rw [Nat.shiftRight_eq_div_pow]
    omega

/-- NRED, where one word brings every member (R93, R199). -/
theorem nred_completes {r : RMod} {d : Dst} {a : Src} (h : Issues s e (.nred g r d a)) (ha : Alone s e g none l) (hl : l.length ≤ 2 ^ 14) :
    ∃ t fl, exec (.nred g r d a) s = .next t ∧
      let vals := l.map (fun u => if redWide r then (e.src64 0 false u a).toNat else (e.src 0 u a).toNat)
      (∀ n tag, d = .reg n tag → ∃ d', pond t e.pond.id = some d' ∧ ∀ i < redElems r.ty,
        redPart r ((d'.copy n).toNat + if redWide r then 2 ^ 32 * (d'.copy (n + 1)).toNat else 0) i = pondFoldPart r vals i) ∧
      (∀ u ∈ l, Gains s t u.ref fl) ∧ ∀ b < 5, (fl.getLsbD b = true ↔ ∃ i < redElems r.ty, pondFoldRaises r b vals i) := by
  obtain ⟨s', hs', hg⟩ := issue_alone (pf := fun _ => none) (mk := fun e t => e.arrival (.nred .always r d a) t 0 (e.words (redWide r) t a) none)
    h ha rfl (fun _ => rfl) (j := .nred .always r d a) (k := 0) (fun _ _ => rfl) (fun _ _ => rfl) (fun _ _ => rfl)
  obtain ⟨u₀, rest, hcons⟩ := List.exists_cons_of_ne_nil ha.some_
  have hcoll : ∀ as : List Arrival, as = l.map (fun t => e.arrival (.nred .always r d a) t 0 (e.words (redWide r) t a) none) →
      completeColl s' e.pond.id none as = completeNred s' e.pond.id r d as := by
    rintro as rfl
    rw [hcons]
    rfl
  have hvals : (l.map (fun t => e.arrival (.nred .always r d a) t 0 (e.words (redWide r) t a) none)).map Arrival.value =
      l.map (fun u => if redWide r then (e.src64 0 false u a).toNat else (e.src 0 u a).toNat) := by
    rw [List.map_map]
    exact List.map_congr_left fun u _ => words_value rfl
  rw [hcoll _ rfl] at hs'
  refine ⟨_, (pondFold r (l.map (fun u => if redWide r then (e.src64 0 false u a).toNat else (e.src 0 u a).toNat))).2.code, hs', ?_⟩
  have hlen : (l.map (fun u => if redWide r then (e.src64 0 false u a).toNat else (e.src 0 u a).toNat)).length ≤ 2 ^ 14 := by simpa using hl
  simp only [completeNred, hvals]
  generalize l.map (fun u => if redWide r then (e.src64 0 false u a).toNat else (e.src 0 u a).toNat) = vals at hlen
  have hlt := pondFold_lt r hlen
  rw [redElems_bits] at hlt
  refine ⟨?_, fun u hu => memberFlags_gains ?_ ?_, fun b hb => pondFold_flags r hlen hb⟩
  · rintro n tag rfl
    cases hw : redWide r with
    | false =>
      obtain ⟨d', hd', hval, -⟩ := setPondCopy_pond (hg.pond h) n (BitVec.ofNat 32 (pondFold r vals).1)
      refine ⟨d', hd', fun i hi => ?_⟩
      simp only [hw, Bool.false_eq_true, if_false] at hlt ⊢
      rw [hval, BitVec.toNat_ofNat, Nat.mod_eq_of_lt hlt, Nat.add_zero]
      exact redPart_pondFold r hlen hi
    | true =>
      obtain ⟨d', hd', hlo, hhi⟩ := setPondPair_pond (hg.pond h) n (BitVec.ofNat 32 (pondFold r vals).1) (BitVec.ofNat 32 ((pondFold r vals).1 / 2 ^ 32))
      refine ⟨d', hd', fun i hi => ?_⟩
      simp only [hw, if_true] at hlt ⊢
      rw [hlo, hhi, BitVec.toNat_ofNat, BitVec.toNat_ofNat, show (pondFold r vals).1 % 2 ^ 32 + 2 ^ 32 * ((pondFold r vals).1 / 2 ^ 32 % 2 ^ 32) =
        (pondFold r vals).1 by omega]
      exact redPart_pondFold r hlen hi
  · split
    · exact hg.onlyCopies.trans ((onlyCopies_setPondDst ..).trans (onlyCopies_setPondDst ..))
    · exact hg.onlyCopies.trans (onlyCopies_setPondDst ..)
  · rw [List.map_map]
    exact List.mem_map_of_mem hu

/-- The member that an NBCAST names among those that have arrived (R199). -/
theorem find?_arrivals {mk : Thread → Arrival} (hmk : ∀ u, (mk u).t = u.ref) {k : Word} (hne : l ≠ []) (hk : ∀ u ∈ l, (mk u).key = k) :
    (l.map mk).find? (fun a => a.t.tid == (((l.map mk).head?.map Arrival.key).getD 0).toNat) = (l.find? (fun u => u.tid == k.toNat)).map mk := by
  obtain ⟨u₀, rest, rfl⟩ := List.exists_cons_of_ne_nil hne
  have hkey : (((u₀ :: rest).map mk).head?.map Arrival.key).getD 0 = k := hk u₀ List.mem_cons_self
  rw [hkey, List.find?_map]
  simp only [Function.comp_def, hmk]
  rfl

/-- The pond copies that an NBCAST leaves are the value of the member that it names, or zero (R199). -/
def Env.Broadcast (e : Env) (src : Option Thread) (d' : Pond) : BForm → Prop
  | .one d a => ∀ n tag, d = .reg n tag → d'.copy n = (src.map (fun u => e.src 0 u a)).getD 0
  | .pair d a => ∀ n tag, d = .reg n tag → pairWord (d'.copy (n + 1)) (d'.copy n) = (src.map (fun u => e.src64 0 false u a)).getD 0
  | .slot q => d'.slotCopy q = (src.map (e.slot q)).getD QSlot.unset

/-- NBCAST, where one word brings every member (R199). -/
theorem nbcast_completes {form : BForm} {b : Src} {k : Word} (h : Issues s e (.nbcast g form b)) (ha : Alone s e g none l) (hk : ∀ u ∈ l, e.src 0 u b = k) :
    ∃ t d', exec (.nbcast g form b) s = .next t ∧ pond t e.pond.id = some d' ∧ e.Broadcast (l.find? (fun u => u.tid == k.toNat)) d' form := by
  obtain ⟨u₀, rest, hcons⟩ := List.exists_cons_of_ne_nil ha.some_
  have hcomplete : ∀ mk : Env → Thread → Arrival, (∀ e' u, (mk e' u).t = u.ref) → (∀ u ∈ l, (mk e u).instr = .nbcast .always form b) →
      (∀ u ∈ l, (mk e u).key = k) → exec (.nbcast g form b) s = issue (.nbcast g form b) s (collBody g (fun _ => none) mk) →
      ∃ s', exec (.nbcast g form b) s = .next (completeNbcast s' e.pond.id form (l.map (mk e))) ∧ Gathered s e s' ∧
        (l.map (mk e)).find? (fun a => a.t.tid == (((l.map (mk e)).head?.map Arrival.key).getD 0).toNat) =
          (l.find? (fun u => u.tid == k.toNat)).map (mk e) := by
    intro mk hmk hinstr hkey hexec
    obtain ⟨s', hs', hg⟩ := issue_alone (pf := fun _ => none) h ha rfl (hmk e) hinstr hkey
      (fun u hu => by rw [Arrival.badWidth, hinstr u hu]; rfl)
    refine ⟨s', (hexec.trans hs').trans ?_, hg, find?_arrivals (hmk e) ha.some_ hkey⟩
    rw [hcons, List.map_cons, completeColl, hinstr u₀ (hcons ▸ List.mem_cons_self)]
  cases form with
  | one d a =>
    obtain ⟨s', hs', hg, hsrc⟩ := hcomplete _ (fun _ _ => rfl) (fun _ _ => rfl) hk rfl
    simp only [completeNbcast, hsrc] at hs'
    cases d with
    | none => exact ⟨_, _, hs', hg.pond h, fun n tag hd => by cases hd⟩
    | reg m tag =>
      obtain ⟨d', hd', hval, -⟩ := setPondCopy_pond (hg.pond h) m (BitVec.ofNat 32 _)
      refine ⟨_, d', hs', hd', fun n tag' hd => ?_⟩
      cases hd
      rw [hval]
      cases l.find? (fun u => u.tid == k.toNat) with
      | none => rfl
      | some u =>
        refine (congrArg (BitVec.ofNat 32) (words_value (w := false) rfl)).trans ?_
        simp
  | pair d a =>
    obtain ⟨s', hs', hg, hsrc⟩ := hcomplete _ (fun _ _ => rfl) (fun _ _ => rfl) hk rfl
    simp only [completeNbcast, hsrc] at hs'
    cases d with
    | none => exact ⟨_, _, hs', hg.pond h, fun n tag hd => by cases hd⟩
    | reg m tag =>
      obtain ⟨d', hd', hlo, hhi⟩ := setPondPair_pond (hg.pond h) m (BitVec.ofNat 32 _) (BitVec.ofNat 32 _)
      refine ⟨_, d', hs', hd', fun n tag' hd => ?_⟩
      cases hd
      rw [hlo, hhi]
      cases l.find? (fun u => u.tid == k.toNat) with
      | none => exact pairWord_words 0
      | some u =>
        refine (pairWord_words _).trans ((congrArg (BitVec.ofNat 64) (words_value (w := true) rfl)).trans ?_)
        simp
  | slot q =>
    obtain ⟨s', hs', hg, hsrc⟩ := hcomplete _ (fun _ _ => rfl) (fun _ _ => rfl) hk rfl
    simp only [completeNbcast, hsrc] at hs'
    obtain ⟨d', hd', hval⟩ := setPondSlot_pond (hg.pond h) q _
    refine ⟨_, d', hs', hd', hval.trans ?_⟩
    cases l.find? (fun u => u.tid == k.toNat) with
    | none => rfl
    | some u => rfl

end Sys2Proof.Machine
end

section
/-! O41, MERGE (R73, R201): the stores at its two ranks, and what its members read after them. -/

namespace Sys2Proof.Machine

variable {s s' t : State} {e : Env} {i : Instr} {g : Guard} {u x y : Thread} {p : Option Nat} {l : List Thread} {as : List Arrival} {n k : Nat}

/-- A pond copy set, with every narrower copy in the pond dropped: `drop` drops a thread's, `dropWide` a pool's, and `set` sets the pond's (R72). -/
def setWide (s : State) (pd : Nat) (drop : Thread → Thread) (dropWide : Pool → Pool) (set : Pond → Pond) : State :=
  { s with
    threads := updWhere (fun t => t.pond == pd) drop s.threads
    pools := updWhere (fun p => p.pond == pd) dropWide s.pools
    ponds := updWhere (fun d => d.id == pd) set s.ponds }

theorem setPondCopy_eq (s : State) (pd n : Nat) (v : Word) : setPondCopy s pd n v =
    setWide s pd (fun t => (t.dropSpring n).sweep n) (·.dropCopy n) (fun p => { p with bank := mapSet p.bank n v, poison := p.poison.filter (· != n) }) := rfl

theorem setPondSlot_eq (s : State) (pd k : Nat) (v : QSlot) : setPondSlot s pd k v =
    setWide s pd (·.dropSlot k) (·.dropSlot k) (fun p => { p with qbank := mapSet p.qbank k v, poison := p.poison.filter (· != 1000 + k) }) := rfl

/-- A thread of a pond then reads the copy of its pond, from whatever pool of the pond (R68, R72). -/
theorem setWide_reads {α : Type} {own : Thread → Option α} {wide : Pool → Option α} {base : Pond → α} {v : α} {drop : Thread → Thread}
    {dropWide : Pool → Pool} {set : Pond → Pond} {pd q : Nat} {d d' : Pond} {p0 : Pool} (hd : pond s pd = some d) (hp : pool s q = some p0)
    (hpd : p0.pond = pd) (hdrop : ∀ x, own (drop x) = none) (hwide : ∀ q, wide (dropWide q) = none ∧ (dropWide q).id = q.id)
    (hset : ∀ x, base (set x) = v ∧ (set x).id = x.id) 
    (hx : x ∈ (setWide s pd drop dropWide set).threads) (hxp : x.pond = pd) (hd' : pond (setWide s pd drop dropWide set) pd = some d') :
    pickCopy .res (own x) ((pool (setWide s pd drop dropWide set) q).bind wide) (base d') = v := by
  have hown : own x = none := by
    obtain ⟨y, -, rfl⟩ := List.mem_map.1 hx
    split
    · exact hdrop y
    · next hy =>
      rw [if_neg hy] at hxp
      exact absurd (beq_iff_eq.2 hxp) hy
  have hpool : pool (setWide s pd drop dropWide set) q = some (dropWide p0) := by
    have h := find?_updWhere (p := fun x : Pool => x.pond == pd) (test := fun x => x.id == q) (f := dropWide) (fun x => by rw [(hwide x).2]) s.pools
    rw [show s.pools.find? (fun x => x.id == q) = some p0 from hp, Option.map_some, if_pos (beq_iff_eq.2 hpd)] at h
    exact h
  have hbase : base d' = v := by
    have h := find?_updWhere (p := fun d : Pond => d.id == pd) (test := fun d => d.id == pd) (f := set) (fun d => by rw [(hset d).2]) s.ponds
    have hid : (d.id == pd) = true := List.find?_some (p := fun d : Pond => d.id == pd) hd
    rw [show s.ponds.find? (fun d => d.id == pd) = some d from hd, Option.map_some, if_pos hid] at h
    rw [← Option.some.inj (h.symm.trans hd')]
    exact (hset d).1
  rw [hown, hpool, Option.bind_some, (hwide p0).1]
  exact hbase

/-- A writer that is in the pool of a layered write of one value to a slot reads it then (R70). -/
theorem lwriteSlot_reads {q : Nat} {p0 : Pool} (hp : pool s q = some p0) {tag : DTag} {v : QSlot} {ws : List TRef} {d : Pond}
    (hx : x ∈ (lwriteSlot s q k tag (ws.map (fun r => (r, v)))).threads) (hr : x.ref ∈ ws) (hin : x.inPool q = true) :
    resolveSlot (pool (lwriteSlot s q k tag (ws.map (fun r => (r, v)))) q) d x k .res = v := by
  unfold lwriteSlot at hx ⊢
  cases hf : fullWrite s q (tag != .sp) (ws.map (fun r => (r, v))) with
  | some w =>
    obtain ⟨-, -, hval⟩ := (fullWrite_writers (val := fun _ => v)).1 hf
    simp only [hf] at hx ⊢
    obtain ⟨y, -, rfl⟩ := List.mem_map.1 hx
    have hpool := pool_updPool (updThreads s (fun t => t.inPool q) fun t => t.dropSlot k) q (fun p => p.setSlot k w) fun _ => rfl
    rw [show pool (updThreads s (fun t => t.inPool q) fun t => t.dropSlot k) q = some p0 from hp] at hpool
    rw [hpool]
    by_cases hy : y.inPool q = true
    · simp [resolveSlot, pickCopy, hy, Thread.dropSlot, Pool.setSlot, hval _ hr]
    · rw [if_neg hy] at hin
      exact absurd hin hy
  | none =>
    simp only [hf] at hx ⊢
    obtain ⟨y, -, rfl⟩ := List.mem_map.1 hx
    have hyr : y.ref ∈ ws := by
      refine Eq.subst (motive := (· ∈ ws)) ?_ hr
      simp only
      split <;> rfl
    have hval : valOf (ws.map (fun r => (r, v))) y.ref = some v := by rw [valOf_writers ws (fun _ => v), if_pos hyr]
    simp [resolveSlot, pickCopy, hval, Thread.setSlot]

theorem onlyCopies_lwriteSlot (s : State) (q k : Nat) (tag : DTag) (vals : List (TRef × QSlot)) : OnlyCopies s.threads (lwriteSlot s q k tag vals).threads := by
  unfold lwriteSlot
  split
  · exact onlyCopies_updThreads s _ fun _ => rfl
  · exact onlyCopies_updThreads s _ fun _ => rfl

@[simp] theorem lwrite_ponds (s : State) (q n : Nat) (pl : Bool) (vals : List (TRef × Word)) : (lwrite s q n pl vals).ponds = s.ponds := by
  unfold lwrite writeCopies
  simp only
  split <;> rfl

theorem onlyCopies_storeMerge (s : State) (pd : Nat) (p : Option Nat) (n : Nat) (v : Word) (as : List Arrival) :
    OnlyCopies s.threads (storeMerge s pd p n v as).threads := by
  cases p with
  | none => exact onlyCopies_setPondCopy ..
  | some p => exact onlyCopies_lwrite ..

theorem onlyCopies_storeMergeSlot (s : State) (pd : Nat) (p : Option Nat) (k : Nat) (v : QSlot) (as : List Arrival) :
    OnlyCopies s.threads (storeMergeSlot s pd p k v as).threads := by
  cases p with
  | none => exact onlyCopies_setPondSlot ..
  | some p => exact onlyCopies_lwriteSlot ..

/-- Of a thread that is the only one of its name, what stands under the name after a change of copies has kept its pond and its place. -/
theorem OnlyCopies.member (h : OnlyCopies s.threads t.threads) (hy : Sole s y) (hx : x ∈ t.threads) (hxy : x.ref = y.ref) : x.pond = y.pond ∧ x.place = y.place := by
  obtain ⟨z, hz, hzx⟩ := forall₂_mem_right h x hx
  have hzy : z = y := hy.eq hz (hzx.ref_eq.symm.trans hxy)
  rw [hzx, hzy]
  exact ⟨rfl, rfl⟩

section
variable {d' : Pond} (hp : pool s e.pool.id = some e.pool) (hd : pond s e.pond.id = some e.pond) (hpd : e.pool.pond = e.pond.id)
  (hrank : (p = none ∧ y.pond = e.pond.id) ∨ (p = some e.pool.id ∧ y.inPool e.pool.id = true)) (hy : Sole s y) (hr : y.ref ∈ as.map Arrival.t)
  (hxy : x.ref = y.ref)
include hp hd hpd hrank hy hr hxy

/-- A member of a merge reads then the register that the merge has stored (R73). -/
theorem storeMerge_reads {v : Word} (hx : x ∈ (storeMerge s e.pond.id p n v as).threads) (hd' : pond (storeMerge s e.pond.id p n v as) e.pond.id = some d') :
    resolve (pool (storeMerge s e.pond.id p n v as) e.pool.id) d' x n .res = v := by
  obtain ⟨hxp, hplace⟩ := (onlyCopies_storeMerge s e.pond.id p n v as).member hy hx hxy
  rcases hrank with ⟨rfl, hyp⟩ | ⟨rfl, hin⟩
  · rw [storeMerge, setPondCopy_eq] at hx hd' ⊢
    exact setWide_reads (own := fun x => mapGet x.springs n) (wide := fun q => mapGet q.copies n) (base := fun d => d.copy n) hd hp hpd
      (fun x => by simp [Thread.sweep, Thread.overtake, Thread.dropSpring]) (fun q => ⟨by simp [Pool.dropCopy], rfl⟩)
      (fun x => ⟨by simp [Pond.copy], rfl⟩) hx (hxp.trans hyp) hd'
  · rw [pond, storeMerge, lwrite_ponds] at hd'
    rw [Option.some.inj (hd'.symm.trans hd)]
    exact lwrite_reads hp (valOf_arrivals hr) x hx hxy (by rw [Thread.inPool, Thread.pool, hplace]; exact hin)

/-- And likewise the slot. -/
theorem storeMergeSlot_reads {v : QSlot} (hx : x ∈ (storeMergeSlot s e.pond.id p k v as).threads)
    (hd' : pond (storeMergeSlot s e.pond.id p k v as) e.pond.id = some d') :
    resolveSlot (pool (storeMergeSlot s e.pond.id p k v as) e.pool.id) d' x k .res = v := by
  obtain ⟨hxp, hplace⟩ := (onlyCopies_storeMergeSlot s e.pond.id p k v as).member hy hx hxy
  rcases hrank with ⟨rfl, hyp⟩ | ⟨rfl, hin⟩
  · rw [storeMergeSlot, setPondSlot_eq] at hx hd' ⊢
    exact setWide_reads (own := fun x => mapGet x.slots k) (wide := fun q => mapGet q.slots k) (base := fun d => d.slotCopy k) hd hp hpd
      (fun x => by simp [Thread.dropSlot]) (fun q => ⟨by simp [Pool.dropSlot], rfl⟩)
      (fun x => ⟨by simp [Pond.slotCopy], rfl⟩) hx (hxp.trans hyp) hd'
  · rw [storeMergeSlot, map_arrivals] at hx ⊢
    exact lwriteSlot_reads hp hx (hxy ▸ hr) (by rw [Thread.inPool, Thread.pool, hplace]; exact hin)

end

end Sys2Proof.Machine
end

section
/-! O41, the end of a MERGE (R73, R201): its reduction, its flags and its predicate, and the statements about registers and slots. -/

namespace Sys2Proof.Machine

variable {s s' t : State} {e : Env} {i : Instr} {g : Guard} {u x y : Thread} {p : Option Nat} {l : List Thread} {as : List Arrival} {n k : Nat}
  {policy : Policy} {b : Bool}

/-- The members of a merge hold one value (R201). -/
def agreed (as : List Arrival) : Bool :=
  as.all (fun a => some a.val == as.head?.map Arrival.val && some a.q == as.head?.map Arrival.q)

/-- The fold of a merge under a reduction (R201). -/
def mergeRed (policy : Policy) (as : List Arrival) : Option (Nat × FlagSet) := (redOfPolicy policy).map (fun r => pondFold r (as.map Arrival.value))

/-- The register value that a merge stores (R201). -/
def mergeValue (policy : Policy) (as : List Arrival) : Word :=
  match mergeRed policy as with
  | some q => BitVec.ofNat 32 q.1
  | none => BitVec.ofNat 32 ((as.head?.map Arrival.value).getD 0)

/-- A merge with its value stored, or not, gives its members their flags and tells whether they agreed (R73, R201). -/
def mergeEnd (s : State) (policy : Policy) (pr : Nat) (as : List Arrival) : State :=
  writePred (match mergeRed policy as with | some q => memberFlags s as q.2 | none => s) pr (as.map (fun a => (a.t, agreed as)))

theorem completeMerge_reg (s : State) (pd : Nat) (p : Option Nat) (policy : Policy) (pr : Nat) (n : Fin 768) (tag : STag) (blk : Bool) (as : List Arrival) :
    completeMerge s pd p policy pr (.src (.reg n tag blk)) as =
      let now := as.map (Arrival.reread s pd (.src (.reg n tag blk)))
      mergeEnd (if !(agreed now || policy != .chk) then s else storeMerge s pd p n (mergeValue policy now) now) policy pr now := rfl

theorem completeMerge_slot (s : State) (pd : Nat) (p : Option Nat) (policy : Policy) (pr : Nat) (k : Fin 8) (as : List Arrival) :
    completeMerge s pd p policy pr (.slot k) as =
      let now := as.map (Arrival.reread s pd (.slot k))
      mergeEnd (if !(agreed now || policy != .chk) then s else storeMergeSlot s pd p k ((now.head?.bind Arrival.q).getD QSlot.unset) now) policy pr now := rfl

/-- Members agree when any two of them have one value (R201). -/
theorem agreed_iff {f : Thread → Arrival} (hne : l ≠ []) :
    agreed (l.map f) = true ↔ ∀ u ∈ l, ∀ v ∈ l, (f u).val = (f v).val ∧ (f u).q = (f v).q := by
  obtain ⟨u₀, rest, rfl⟩ := List.exists_cons_of_ne_nil hne
  have hfirst : agreed ((u₀ :: rest).map f) = true ↔ ∀ u ∈ u₀ :: rest, (f u).val = (f u₀).val ∧ (f u).q = (f u₀).q := by
    simp [agreed]
  rw [hfirst]
  constructor
  · intro h u hu v hv
    obtain ⟨huv, huq⟩ := h u hu
    obtain ⟨hvv, hvq⟩ := h v hv
    exact ⟨huv.trans hvv.symm, huq.trans hvq.symm⟩
  · exact fun h u hu => h u hu u₀ List.mem_cons_self

/-- A thread that has changed at most in its flags and predicates. -/
def Thread.BitsOnly (u u' : Thread) : Prop := u' = { u with
  fflags := u'.fflags
  preds := u'.preds }

theorem bitsOnly_memberFlags (s : State) (as : List Arrival) (fl : FlagSet) : List.Forall₂ Thread.BitsOnly s.threads (memberFlags s as fl).threads :=
  forall₂_updWhere _ _ _ (fun _ _ _ => rfl) fun _ _ => rfl

theorem bitsOnly_writePred (s : State) (k : Nat) (vals : List (TRef × Bool)) : List.Forall₂ Thread.BitsOnly s.threads (writePred s k vals).threads :=
  forall₂_updWhere _ _ _ (fun _ _ _ => rfl) fun _ _ => rfl

theorem mergeEnd_threads (s : State) (policy : Policy) (pr : Nat) (as : List Arrival) :
    List.Forall₂ Thread.BitsOnly s.threads (mergeEnd s policy pr as).threads := by
  have htrans : ∀ x y z : Thread, x.BitsOnly y → y.BitsOnly z → x.BitsOnly z := fun x y z h h' => by
    unfold Thread.BitsOnly at *
    rw [h', h]
  unfold mergeEnd
  split
  · exact forall₂_trans htrans (bitsOnly_memberFlags ..) (bitsOnly_writePred ..)
  · exact bitsOnly_writePred ..

theorem mergeEnd_pools (s : State) (policy : Policy) (pr : Nat) (as : List Arrival) : (mergeEnd s policy pr as).pools = s.pools := by
  unfold mergeEnd
  split <;> rfl

theorem mergeEnd_ponds (s : State) (policy : Policy) (pr : Nat) (as : List Arrival) : (mergeEnd s policy pr as).ponds = s.ponds := by
  unfold mergeEnd
  split <;> rfl

/-- The flags that the members of a merge gain. -/
def mergeFlags (policy : Policy) (as : List Arrival) : BitVec 5 := ((mergeRed policy as).map (fun q => q.2.code)).getD 0

theorem mergeEnd_gains {pr : Nat} {r : TRef} (h : OnlyCopies s.threads s'.threads) (hr : r ∈ as.map Arrival.t) :
    Gains s (mergeEnd s' policy pr as) r (mergeFlags policy as) := by
  unfold mergeEnd mergeFlags
  cases mergeRed policy as with
  | some q => exact (memberFlags_gains h hr).writePred
  | none =>
    refine Gains.writePred (h.imp fun u u' hu _ => ?_)
    simp [hu.fflags_eq]

/-- The fold of a merge, element by element, and the flags of its steps (R93, R201). -/
theorem mergeRed_eq {r : RMod} (hr : redOfPolicy policy = some r) (hlen : as.length ≤ 2 ^ 14) :
    (∀ i < redElems r.ty, redPart r (mergeValue policy as).toNat i = pondFoldPart r (as.map Arrival.value) i) ∧
    ∀ b < 5, ((mergeFlags policy as).getLsbD b = true ↔ ∃ i < redElems r.ty, pondFoldRaises r b (as.map Arrival.value) i) := by
  have hwide : redWide r = false := by
    cases policy with
    | red op fmt uns rm ftz =>
      obtain rfl := Option.some.inj hr
      cases fmt <;> rfl
    | _ => cases hr
  have hlen' : (as.map Arrival.value).length ≤ 2 ^ 14 := by simpa using hlen
  have hlt := pondFold_lt r hlen'
  rw [redElems_bits, if_neg (by simp [hwide])] at hlt
  have hred : mergeRed policy as = some (pondFold r (as.map Arrival.value)) := by rw [mergeRed, hr, Option.map_some]
  refine ⟨fun i hi => ?_, fun b hb => ?_⟩
  · rw [mergeValue, hred]
    simp only
    rw [BitVec.toNat_ofNat, Nat.mod_eq_of_lt hlt]
    exact redPart_pondFold r hlen' hi
  · rw [mergeFlags, hred]
    exact pondFold_flags r hlen' hb

/-- Without a reduction a merge gives no flags, and stores the first value (R201). -/
theorem mergeFlags_of_none (hr : redOfPolicy policy = none) : mergeFlags policy as = 0 := by
  rw [mergeFlags, mergeRed, hr]
  rfl

theorem mergeValue_of_none (hr : redOfPolicy policy = none) : mergeValue policy as = BitVec.ofNat 32 ((as.head?.map Arrival.value).getD 0) := by
  rw [mergeValue, mergeRed, hr]
  rfl

/-- The members of a merge of a register bring what they read of it when the last has arrived (R73). -/
theorem reread_reg {f : Thread → Arrival} (hf : ∀ u, (f u).t = u.ref) (hg : Gathered s e s') (h : Issues s e i) (ha : Alone s e g p l) (n : Fin 768) (tag : STag) (blk : Bool) :
    (l.map f).map (Arrival.reread s' e.pond.id (.src (.reg n tag blk))) = l.map (fun u => { f u with val := [e.src 0 u (.reg n .res blk)] }) := by
  rw [List.map_map]
  refine List.map_congr_left fun u hu => ?_
  have hsprings : (u.issued e.frag.ref).springs = u.springs := by rw [Thread.issued_eq]
  simp only [Function.comp_apply, Arrival.reread, hf, hg.thread (ha.sole u hu), hg.pond h, hg.pool_of_member h ha hu, resolve, hsprings]
  rfl

theorem reread_slot {f : Thread → Arrival} (hf : ∀ u, (f u).t = u.ref) (hg : Gathered s e s') (h : Issues s e i) (ha : Alone s e g p l) (k : Fin 8) :
    (l.map f).map (Arrival.reread s' e.pond.id (.slot k)) = l.map (fun u => { f u with q := some (e.slot k u) }) := by
  rw [List.map_map]
  refine List.map_congr_left fun u hu => ?_
  have hslots : (u.issued e.frag.ref).slots = u.slots := by rw [Thread.issued_eq]
  simp only [Function.comp_apply, Arrival.reread, hf, hg.thread (ha.sole u hu), hg.pond h, hg.pool_of_member h ha hu, resolveSlot, hslots]
  rfl

/-- What stands under a member's name at the end of a merge has the copies that stood under it once the merge had stored. -/
theorem mergeEnd_copies {pr : Nat} (hx : x ∈ (mergeEnd s policy pr as).threads) : ∃ z ∈ s.threads, x.ref = z.ref ∧ x.springs = z.springs ∧ x.slots = z.slots := by
  obtain ⟨z, hz, hzx⟩ := forall₂_mem_right (mergeEnd_threads s policy pr as) x hx
  exact ⟨z, hz, by rw [hzx]; rfl, by rw [hzx], by rw [hzx]⟩

section
variable {pr : Fin 64} {pd : Bool}

/-- A merge whose members all come with one word completes on what they hold then. -/
theorem exec_merge_alone {a : LName} (h : Issues s e (.merge g pd policy pr a)) (ha : Alone s e g (if pd then none else some e.pool.id) l) :
    ∃ s' f, exec (.merge g pd policy pr a) s = .next (completeMerge s' e.pond.id (if pd then none else some e.pool.id) policy pr a (l.map f)) ∧
      Gathered s e s' ∧ ∀ u, (f u).t = u.ref ∧ (∀ x, a = .src x → (f u).q = none) ∧ ∀ k, a = .slot k → (f u).val = [] := by
  obtain ⟨u₀, rest, rfl⟩ := List.exists_cons_of_ne_nil ha.some_
  cases a with
  | src x =>
    obtain ⟨s', hs', hg⟩ := issue_alone (pf := fun e => if pd then none else some e.pool.id)
      (mk := fun e t => e.arrival (.merge .always pd policy pr (.src x)) t 0 (e.words false t x) none)
      h ha rfl (fun _ => rfl) (j := .merge .always pd policy pr (.src x)) (k := 0) (fun _ _ => rfl) (fun _ _ => rfl) (fun _ _ => rfl)
    exact ⟨s', _, hs', hg, fun u => ⟨rfl, fun _ _ => rfl, fun _ hk => LName.noConfusion hk⟩⟩
  | slot k =>
    obtain ⟨s', hs', hg⟩ := issue_alone (pf := fun e => if pd then none else some e.pool.id)
      (mk := fun e t => e.arrival (.merge .always pd policy pr (.slot k)) t 0 [] (some (e.slot k t)))
      h ha rfl (fun _ => rfl) (j := .merge .always pd policy pr (.slot k)) (k := 0) (fun _ _ => rfl) (fun _ _ => rfl) (fun _ _ => rfl)
    exact ⟨s', _, hs', hg, fun u => ⟨rfl, (fun _ hx => LName.noConfusion hx), fun _ _ => rfl⟩⟩

/-- The members of a merge are the threads of its pond, or of its pool (R73). -/
theorem rank_of_member (ha : Alone s e g (if pd then none else some e.pool.id) l) (hu : u ∈ l) (r : FRef) :
    ((if pd then none else some e.pool.id) = none ∧ (u.issued r).pond = e.pond.id) ∨
      ((if pd then none else some e.pool.id) = some e.pool.id ∧ (u.issued r).inPool e.pool.id = true) := by
  have hmem := (ha.members u).2 hu
  cases pd with
  | true => exact .inl ⟨rfl, (issued_pond r u).trans (by simpa [members] using (List.mem_filter.1 hmem).2)⟩
  | false =>
    refine .inr ⟨rfl, ?_⟩
    rw [Thread.inPool, Thread.pool, issued_place]
    exact (List.mem_filter.1 hmem).2

/-- A merge of a register, where one word brings every member (R73, R201). -/
theorem merge_reg_completes {n : Fin 768} {tag : STag} {blk : Bool} (h : Issues s e (.merge g pd policy pr (.src (.reg n tag blk))))
    (ha : Alone s e g (if pd then none else some e.pool.id) l) (hl : l.length ≤ 2 ^ 14) :
    let val (u : Thread) : Word := e.src 0 u (.reg n .res blk)
    let agree : Prop := ∀ u ∈ l, ∀ v ∈ l, val u = val v
    ∃ t fl, exec (.merge g pd policy pr (.src (.reg n tag blk))) s = .next t ∧
      (∀ u ∈ l, Gains s t u.ref fl) ∧ (redOfPolicy policy = none → fl = 0) ∧
      (∀ r, redOfPolicy policy = some r → ∀ b < 5, (fl.getLsbD b = true ↔
        ∃ i < redElems r.ty, pondFoldRaises r b (l.map (fun u => (val u).toNat)) i)) ∧
      (∃ b, (b = true ↔ agree) ∧ ∀ u ∈ l, PredIs t u.ref pr b) ∧
      (policy = .chk → ¬agree → t.pools = s.pools ∧ t.ponds = s.ponds ∧ List.Forall₂ (fun u u' => u'.springs = u.springs) s.threads t.threads) ∧
      ∀ u ∈ l, ∀ x ∈ t.threads, x.ref = u.ref → ∀ d', pond t e.pond.id = some d' →
        let v := resolve (pool t e.pool.id) d' x n .res
        ((policy = .low ∨ (policy = .chk ∧ agree)) → l.head?.map val = some v) ∧
        (∀ r, redOfPolicy policy = some r → ∀ i < redElems r.ty, redPart r v.toNat i = pondFoldPart r (l.map (fun u => (val u).toNat)) i) := by
  intro val agree
  obtain ⟨s', f, hs', hg, hf⟩ := exec_merge_alone h ha
  rw [completeMerge_reg, reread_reg (fun u => (hf u).1) hg h ha] at hs'
  have hagree : agreed (l.map (fun u => { f u with val := [val u] })) = true ↔ agree := by
    rw [agreed_iff ha.some_]
    exact ⟨fun hv u hu v hv' => List.head_eq_of_cons_eq (hv u hu v hv').1,
      fun hv u hu v hv' => ⟨congrArg (fun w => [w]) (hv u hu v hv'), ((hf u).2.1 _ rfl).trans ((hf v).2.1 _ rfl).symm⟩⟩
  have hvals : (l.map (fun u => { f u with val := [val u] })).map Arrival.value = l.map (fun u => (val u).toNat) := by
    rw [List.map_map]
    exact List.map_congr_left fun u _ => by simp [Arrival.value]
  have href : ∀ u ∈ l, u.ref ∈ (l.map (fun u => { f u with val := [val u] })).map Arrival.t := fun u hu => by
    rw [List.map_map]
    exact List.mem_map.2 ⟨u, hu, (hf u).1⟩
  have hhead : ((l.map (fun u => { f u with val := [val u] })).head?.map Arrival.value).getD 0 = ((l.head?.map val).getD 0).toNat := by
    cases l with
    | nil => rfl
    | cons u rest => simp [Arrival.value]
  have hlen : (l.map (fun u => { f u with val := [val u] })).length ≤ 2 ^ 14 := by simpa using hl
  simp only at hs'
  generalize l.map (fun u => { f u with val := [val u] }) = now at hs' hagree hvals href hhead hlen
  refine ⟨_, mergeFlags policy now, hs', fun u hu => mergeEnd_gains ?_ (href u hu), mergeFlags_of_none, fun r hr => hvals ▸ (mergeRed_eq hr hlen).2,
    ⟨agreed now, hagree, fun u hu => writePred_predIs pr.isLt (href u hu)⟩, fun hchk hno => ?_, fun u hu x hx hxu d' hd' => ?_⟩
  · split
    · exact hg.onlyCopies
    · exact hg.onlyCopies.trans (onlyCopies_storeMerge ..)
  · have hskip : (!(agreed now || policy != .chk)) = true := by
      simp [hchk, Bool.eq_false_iff.2 fun hyes => hno (hagree.1 hyes)]
    rw [if_pos hskip]
    refine ⟨(mergeEnd_pools ..).trans hg.pools, (mergeEnd_ponds ..).trans hg.ponds, ?_⟩
    have hbits := mergeEnd_threads s' policy pr now
    rw [hg.threads] at hbits
    refine (List.forall₂_map_left_iff.1 hbits).imp fun u u' huu => ?_
    rw [huu, Thread.issued_eq]
  · intro v
    have hv : agreed now = true ∨ policy ≠ .chk → v = mergeValue policy now := fun hstore => by
      have hdo : ¬(!(agreed now || policy != .chk)) = true := by simpa [or_iff_not_imp_left] using hstore
      simp only [v]
      rw [if_neg hdo] at hx hd' ⊢
      obtain ⟨z, hz, hzr, hsprings, -⟩ := mergeEnd_copies hx
      rw [pond, mergeEnd_ponds] at hd'
      rw [pool, mergeEnd_pools, resolve, hsprings]
      refine storeMerge_reads (hg.pool h) (hg.pond h) h.stands.pondId.symm (rank_of_member ha hu e.frag.ref) (hg.sole (ha.sole u hu)) ?_ ?_ hz hd'
      · rw [issued_ref]
        exact href u hu
      · rw [← hzr, hxu, issued_ref]
    constructor
    · intro hpol
      have hred : redOfPolicy policy = none := by rcases hpol with rfl | ⟨rfl, -⟩ <;> rfl
      rw [hv (hpol.elim (fun hlow => .inr (by simp [hlow])) fun hchk => .inl (hagree.2 hchk.2)), mergeValue_of_none hred, hhead]
      obtain ⟨u₀, rest, rfl⟩ := List.exists_cons_of_ne_nil ha.some_
      simp
    · intro r hr i hi
      rw [hv (.inr fun hchk => by rw [hchk] at hr; cases hr), ← hvals]
      exact (mergeRed_eq hr hlen).1 i hi

/-- A merge of a slot of which one word brings every member, all of one value (R73, R202). -/
theorem merge_slot_completes {k : Fin 8} (h : Issues s e (.merge g pd policy pr (.slot k))) (ha : Alone s e g (if pd then none else some e.pool.id) l)
    (hslots : ∀ u ∈ l, ∀ v ∈ l, e.slot k u = e.slot k v) : ∃ t, exec (.merge g pd policy pr (.slot k)) s = .next t ∧
      ∀ u ∈ l, PredIs t u.ref pr true ∧ ∀ x ∈ t.threads, x.ref = u.ref → ∀ d', pond t e.pond.id = some d' →
        resolveSlot (pool t e.pool.id) d' x k .res = e.slot k u := by
  obtain ⟨s', f, hs', hg, hf⟩ := exec_merge_alone h ha
  rw [completeMerge_slot, reread_slot (fun u => (hf u).1) hg h ha] at hs'
  have hagree : agreed (l.map (fun u => { f u with q := some (e.slot k u) })) = true :=
    (agreed_iff ha.some_).2 fun u hu v hv => ⟨((hf u).2.2 _ rfl).trans ((hf v).2.2 _ rfl).symm, congrArg some (hslots u hu v hv)⟩
  have href : ∀ u ∈ l, u.ref ∈ (l.map (fun u => { f u with q := some (e.slot k u) })).map Arrival.t := fun u hu => by
    rw [List.map_map]
    exact List.mem_map.2 ⟨u, hu, (hf u).1⟩
  have hhead : ∀ u ∈ l, ((l.map (fun u => { f u with q := some (e.slot k u) })).head?.bind Arrival.q).getD QSlot.unset = e.slot k u := fun u hu => by
    obtain ⟨u₀, rest, rfl⟩ := List.exists_cons_of_ne_nil ha.some_
    exact hslots u₀ List.mem_cons_self u hu
  simp only at hs'
  generalize l.map (fun u => { f u with q := some (e.slot k u) }) = now at hs' hagree href hhead
  simp only [hagree, Bool.true_or, Bool.not_true, Bool.false_eq_true, if_false] at hs'
  refine ⟨_, hs', fun u hu => ⟨hagree ▸ writePred_predIs pr.isLt (href u hu), fun x hx hxu d' hd' => ?_⟩⟩
  obtain ⟨z, hz, hzr, -, hzs⟩ := mergeEnd_copies hx
  rw [pond, mergeEnd_ponds] at hd'
  rw [pool, mergeEnd_pools, resolveSlot, hzs, ← hhead u hu]
  refine storeMergeSlot_reads (hg.pool h) (hg.pond h) h.stands.pondId.symm (rank_of_member ha hu e.frag.ref) (hg.sole (ha.sole u hu)) ?_ ?_ hz hd'
  · rw [issued_ref]
    exact href u hu
  · rw [← hzr, hxu, issued_ref]

end

end Sys2Proof.Machine
end

section
/-! O41, SETW (R228): a pond's threads filed at their next word, and the draws that follow. -/

namespace Sys2Proof.Machine

variable {s s' t w : State} {e : Env} {i : Instr} {g : Guard} {u u' x : Thread} {l : List Thread} {pd : Nat}

/-- A thread of a pond that is drawn keeps its name and its predicates, and stands where it stood, or in a lane. -/
def Thread.Drawn (u u' : Thread) : Prop := u'.ref = u.ref ∧ u'.preds = u.preds ∧ (u'.place = u.place ∨ ∃ q i, u'.place = .lane q 0 i)

theorem Thread.Drawn.of_eq (href : u'.ref = u.ref) (hpreds : u'.preds = u.preds) (hplace : u'.place = u.place) : u.Drawn u' := ⟨href, hpreds, .inl hplace⟩

theorem Thread.Drawn.trans (h : u.Drawn u') (h' : u'.Drawn x) : u.Drawn x := by
  obtain ⟨href, hpreds, hplace⟩ := h
  obtain ⟨href', hpreds', hplace'⟩ := h'
  refine ⟨href'.trans href, hpreds'.trans hpreds, ?_⟩
  rcases hplace' with hsame | hlane
  · rw [hsame]
    exact hplace
  · exact .inr hlane

/-- The threads of a state have been drawn, and its ponds keep their grants. -/
structure Drawn (s t : State) : Prop where
  threads : List.Forall₂ Thread.Drawn s.threads t.threads
  ponds : List.Forall₂ (fun d d' : Pond => d'.id = d.id ∧ d'.grant = d.grant) s.ponds t.ponds

theorem Drawn.refl (s : State) : Drawn s s := ⟨forall₂_self _ fun _ _ => .of_eq rfl rfl rfl, forall₂_self _ fun _ _ => ⟨rfl, rfl⟩⟩

theorem Drawn.trans (h : Drawn s t) (h' : Drawn t w) : Drawn s w :=
  ⟨forall₂_trans (fun _ _ _ h h' => h.trans h') h.threads h'.threads,
    forall₂_trans (fun _ _ _ h h' => ⟨h'.1.trans h.1, h'.2.trans h.2⟩) h.ponds h'.ponds⟩

/-- A pond that is drawn keeps its grant. -/
theorem Drawn.pond {d : Pond} (h : Drawn s t) (hd : pond s pd = some d) : ∃ d', Machine.pond t pd = some d' ∧ d'.grant = d.grant := by
  rcases forall₂_find? (p := fun d : Pond => d.id == pd) (fun x y hxy => by rw [hxy.1]) h.ponds with ⟨hnone, -⟩ | ⟨x, y, hx, hy, hxy⟩
  · exact absurd (hnone.symm.trans hd) (by simp)
  · obtain rfl := Option.some.inj (hx.symm.trans hd)
    exact ⟨y, hy, hxy.2⟩

/-- A thread that takes a lane. -/
theorem seatOf_drawn (p : Nat) : ∀ (ts : List Thread) (i : Nat) (x : Thread), x.Drawn (seatOf p ts i x)
  | [], _, _ => .of_eq rfl rfl rfl
  | t :: r, i, x => by
    rw [seatOf]
    refine Thread.Drawn.trans ?_ (seatOf_drawn p r (i + 1) _)
    split
    · exact ⟨rfl, rfl, .inr ⟨p, i, rfl⟩⟩
    · exact .of_eq rfl rfl rfl

theorem drawnState_drawn (s : State) (a : DrawAt) (w : Draw) (rest : List Draw) : Drawn s (drawnState s a w rest) where
  threads := List.forall₂_map_right_iff.2 (forall₂_self _ fun x _ => seatOf_drawn ..)
  ponds := (drawnState_ponds a w rest).imp fun d d' h => by
    rw [h.1]
    exact ⟨rfl, rfl⟩

/-- Threads that keep their names, predicates and places. -/
theorem updThreads_drawn (s : State) (q : Thread → Bool) {f : Thread → Thread} (hf : ∀ x : Thread, x.Drawn (f x)) : Drawn s (updThreads s q f) :=
  ⟨forall₂_updWhere _ _ _ (fun x _ _ => hf x) fun _ _ => .of_eq rfl rfl rfl, forall₂_self _ fun _ _ => ⟨rfl, rfl⟩⟩

theorem completeWrite_drawn (s : State) (n wid : Nat) (pl : Bool) (vals : List (TRef × Word)) : Drawn s (completeWrite s n wid pl vals) where
  threads := by
    rw [completeWrite_threads]
    refine List.forall₂_map_right_iff.2 (forall₂_self _ fun x _ => ?_)
    have h := completed_wroteOnly s n wid vals (fullOf s n wid pl vals) x
    exact .of_eq h.ref_eq (by rw [h.rest]) h.place_eq
  ponds := by
    rw [completeWrite_ponds]
    exact forall₂_self _ fun _ _ => ⟨rfl, rfl⟩

/-- A grant paid changes copies alone (R228). -/
theorem payGrant_drawn (s : State) (hm g : Nat) (ts : List Thread) : Drawn s (payGrant s hm g ts) := by
  unfold payGrant
  split
  · exact .refl s
  · exact (completeWrite_drawn ..).trans (updThreads_drawn _ _ fun _ => .of_eq rfl rfl rfl)

theorem first_drawn (a : DrawAt) (s : State) (ds : List Draw) : Drawn s (a.first s ds) := by
  cases ds with
  | nil => exact .refl s
  | cons w rest =>
    rw [first_cons]
    exact (drawnState_drawn ..).trans (payGrant_drawn ..)

theorem drainNow_drawn (pd : Nat) : ∀ (fuel : Nat) (s : State), Drawn s (drainNow pd fuel s)
  | 0, s => .refl s
  | fuel + 1, s => by
    rw [drainNow]
    split
    · exact .refl s
    · split
      · exact .refl s
      · exact (first_drawn ..).trans (drainNow_drawn pd fuel _)

theorem setAllDraws_drawn (s : State) (pd : Nat) (still : Bool) : Drawn s (setAllDraws s pd still) :=
  ⟨forall₂_self _ fun _ _ => .of_eq rfl rfl rfl, forall₂_updWhere _ _ _ (fun _ _ _ => ⟨rfl, rfl⟩) fun _ _ => ⟨rfl, rfl⟩⟩

/-- A thread that a SETW has filed at its next word (R44, R77, R228). -/
def setwFiled (s : State) (as : List Arrival) (dst : Option SetwDst) (u : Thread) : Thread :=
  match as.find? (fun a => a.t == u.ref), u.pool.bind (pool s) with
  | some a, some p => { fileThread p .launch (a.pc + 16) u with setw := dst }
  | _, _ => u

theorem setwFiled_eq {as : List Arrival} {a : Arrival} {p0 : Pool} (ha : as.find? (fun a => a.t == u.ref) = some a) (hp : u.pool.bind (pool s) = some p0)
    (dst : Option SetwDst) : setwFiled s as dst u = { fileThread p0 .launch (a.pc + 16) u with setw := dst } := by
  rw [setwFiled, ha, hp]

/-- Where a SETW whose word has the identity `wid` writes its grant (R228). -/
def setwDst (wid : Nat) : Dst → Option SetwDst
  | .none => none
  | .reg n tag => some ⟨n, tag, wid⟩

/-- The members' destination marked empty, where there is one (R228). -/
def markSetw (s : State) (as : List Arrival) : Option SetwDst → State
  | none => s
  | some x => markEmpty s (as.map Arrival.t) x.reg 1 x.wid

/-- The threads of a SETW filed, and their pools ended (R48, R228). -/
def setwFiling (s : State) (pd : Nat) (d : Dst) (as : List Arrival) : State :=
  endPools { s with
    nextId := s.nextId + 1
    threads := s.threads.map (setwFiled s as (setwDst s.nextId d)) } pd

/-- What a SETW leaves before the draws: the threads are filed, and the pond has its new grant (R228). -/
def setwState (s : State) (pd : Nat) (d : Dst) (as : List Arrival) : State :=
  updPond (markSetw (setwFiling s pd d as) as (setwDst s.nextId d)) pd
    (fun x => { x with grant := grantOf s pd ((as.head?.map Arrival.key).getD 0).toNat, expired := [], draining := [] })

theorem completeSetw_drawn (s : State) (pd : Nat) (d : Dst) (as : List Arrival) : Drawn (setwState s pd d as) (completeSetw s pd d as) := by
  have h : completeSetw s pd d as = drainNow pd Config.poolsPerCore (setAllDraws (setwState s pd d as) pd true) := by cases d <;> rfl
  rw [h]
  exact (setAllDraws_drawn ..).trans (drainNow_drawn ..)

theorem markSetw_drawn (s : State) (as : List Arrival) (dst : Option SetwDst) : Drawn s (markSetw s as dst) := by
  cases dst with
  | none => exact .refl s
  | some x => exact updThreads_drawn s _ fun _ => .of_eq rfl rfl rfl

/-- The pond of a SETW has its new grant once the draws are done. -/
theorem completeSetw_pond {d : Dst} {as : List Arrival} {d₀ : Pond} (hd : pond s pd = some d₀) : ∃ d', pond (completeSetw s pd d as) pd = some d' ∧
    d'.grant = grantOf s pd ((as.head?.map Arrival.key).getD 0).toNat := by
  obtain ⟨d₁, hd₁, -⟩ := (markSetw_drawn (setwFiling s pd d as) as (setwDst s.nextId d)).pond hd
  have h : pond (setwState s pd d as) pd = _ := pond_updPond _ pd fun _ => rfl
  rw [hd₁] at h
  exact (completeSetw_drawn s pd d as).pond h

/-- The threads that a SETW has filed are drawn. -/
theorem completeSetw_threads (s : State) (pd : Nat) (d : Dst) (as : List Arrival) :
    List.Forall₂ Thread.Drawn (s.threads.map (setwFiled s as (setwDst s.nextId d))) (completeSetw s pd d as).threads :=
  forall₂_trans (fun _ _ _ h h' => h.trans h') (markSetw_drawn (setwFiling s pd d as) as (setwDst s.nextId d)).threads (completeSetw_drawn s pd d as).threads

/-- The grant that SETW gives a pond (R53, R228). -/
theorem Gathered.grantOf (hg : Gathered s e s') (h : Issues s e i) (k : Word) : grantOf s' e.pond.id k.toNat =
    if e.launch.kernel.width ≠ 0 then e.launch.kernel.width else if k ≠ 0 then k.toNat else if e.still then e.pond.grant else gwnOf s e.ctx e.core := by
  have hblock : block s' e.pond.blk = some e.block := by rw [block, hg.blocks]; exact h.stands.block
  have hlaunch : launch s' e.block.launch = some e.launch := by rw [launch, hg.launches]; exact h.stands.launch
  have hctx : ctx s' e.launch.ctx = some e.ctx := by rw [ctx, hg.ctxs]; exact h.stands.ctx
  have hk : k.toNat ≠ 0 ↔ k ≠ 0 := not_congr (BitVec.toNat_eq (y := 0)).symm
  have hgwn : gwnOf s' e.ctx e.core = gwnOf s e.ctx e.core := by rw [gwnOf, gwnOf, hg.host]
  simp only [Machine.grantOf, hg.pond h, hblock, hlaunch, hctx, h.stands.core, Option.bind_eq_bind, Option.bind_some, Option.getD_some, hgwn]
  exact if_congr bne_iff_ne rfl (if_congr (bne_iff_ne.trans hk) rfl rfl)

/-- What a member has brought is found by its name. -/
theorem find?_arrival {mk : Thread → Arrival} (hmk : ∀ u, (mk u).t = u.ref) (hu : u ∈ l) : ∃ v, (l.map mk).find? (fun b => b.t == u.ref) = some (mk v) := by
  have hsome : ((l.map mk).find? (fun b => b.t == u.ref)).isSome = true :=
    List.find?_isSome.2 ⟨mk u, List.mem_map_of_mem hu, beq_iff_eq.2 (hmk u)⟩
  obtain ⟨b, hb⟩ := Option.isSome_iff_exists.1 hsome
  obtain ⟨v, -, rfl⟩ := List.mem_map.1 (List.mem_of_find?_eq_some hb)
  exact ⟨v, hb⟩

/-- SETW, where one word brings every member (R228). -/
theorem setw_completes {d : Dst} {a : Src} {k : Word} (h : Issues s e (.setw g d a)) (ha : Alone s e g none l) (hk : ∀ u ∈ l, e.src 0 u a = k)
    (hlegal : k = 0 ∨ k = 16 ∨ k = 32 ∨ k = 64 ∨ k = 128) : ∃ t d', exec (.setw g d a) s = .next t ∧ pond t e.pond.id = some d' ∧
      d'.grant = (if e.launch.kernel.width ≠ 0 then e.launch.kernel.width else if k ≠ 0 then k.toNat
        else if e.still then e.pond.grant else gwnOf s e.ctx e.core) ∧
      ∀ u ∈ l, ∃ x ∈ t.threads, x.ref = u.ref ∧ x.preds = u.preds ∧
        (x.place = .well .launch (e.pc + 16) ∨ ∃ q i, x.place = .lane q 0 i) := by
  have hwidth : legalWidth k.toNat = true := by rcases hlegal with rfl | rfl | rfl | rfl | rfl <;> rfl
  obtain ⟨s', hs', hg⟩ := issue_alone (pf := fun _ => none) (mk := fun e t => e.arrival (.setw .always d a) t (e.src 0 t a) [] none)
    h ha rfl (fun _ => rfl) (j := .setw .always d a) (k := k) (fun _ _ => rfl) hk
    (fun u hu => by show (!legalWidth (e.src 0 u a).toNat) = false; rw [hk u hu, hwidth]; rfl)
  obtain ⟨u₀, rest, hcons⟩ := List.exists_cons_of_ne_nil ha.some_
  have hcoll : ∀ as : List Arrival, as = l.map (fun t => e.arrival (.setw .always d a) t (e.src 0 t a) [] none) →
      completeColl s' e.pond.id none as = completeSetw s' e.pond.id d as ∧ as.head?.map Arrival.key = some k := by
    rintro as rfl
    rw [hcons]
    exact ⟨rfl, congrArg some (hk u₀ (hcons ▸ List.mem_cons_self))⟩
  obtain ⟨hcomplete, hkey⟩ := hcoll _ rfl
  rw [hcomplete] at hs'
  obtain ⟨d', hd', hgrant⟩ := completeSetw_pond (d := d) (as := l.map (fun t => e.arrival (.setw .always d a) t (e.src 0 t a) [] none)) (hg.pond h)
  rw [hkey, Option.getD_some, hg.grantOf h] at hgrant
  refine ⟨_, d', hs', hd', hgrant, fun u hu => ?_⟩
  have hmem : u.issued e.frag.ref ∈ s'.threads := by
    rw [hg.threads]
    exact List.mem_map_of_mem (ha.sole u hu).mem
  obtain ⟨v, hv⟩ := find?_arrival (mk := fun t => e.arrival (.setw .always d a) t (e.src 0 t a) [] none) (fun _ => rfl) hu
  have hfiled := setwFiled_eq (u := u.issued e.frag.ref) (issued_ref e.frag.ref u ▸ hv) (hg.pool_of_member h ha hu) (setwDst s'.nextId d)
  obtain ⟨x, hx, hxr, hxp, hplace⟩ := forall₂_mem_right (completeSetw_threads s' e.pond.id d _).flip _ (List.mem_map_of_mem hmem)
  rw [hfiled] at hxr hxp hplace
  refine ⟨x, hx, hxr.trans (issued_ref ..), hxp.trans (by rw [Thread.issued_eq]; rfl), hplace⟩

end Sys2Proof.Machine
end

section
/-! O41, its six parts together. -/

namespace Sys2Proof.Machine

/-- Settles O41: the arrival at a collective, and the completion of NRED, NBCAST, MERGE and SETW where one word brings every member. -/
theorem pondCollectives : Obligations.PondCollectives := by
  refine ⟨fun _ _ _ hi h => collective_arrives hi h, fun _ _ _ _ _ _ _ h ha hl => nred_completes h ha hl, fun _ form _ _ _ _ _ h ha hk => ?_,
    fun _ _ _ _ _ _ _ _ _ _ h ha hl => merge_reg_completes h ha hl, fun _ _ _ _ _ _ _ _ h ha hq => merge_slot_completes h ha hq,
    fun _ _ _ _ _ _ _ h ha hk hlegal => setw_completes h ha hk hlegal⟩
  obtain ⟨t, d', ht, hd', hval⟩ := nbcast_completes h ha hk
  refine ⟨t, d', ht, hd', ?_⟩
  cases form with
  | one d a => exact hval
  | pair d a => exact hval
  | slot q => exact hval

end Sys2Proof.Machine
end

section
/-! O45. Its clause on a fresh operation whose handle is delivered leaves room for a released slot, which the end of an MSLOT `.alloc` gives back. -/

namespace Sys2Proof.Machine

/-- An MSLOT `.alloc` that is to start on slot 1. -/
def lateAlloc : MOp := { demoMop .alloc false with fresh := true, idx := 1 }

/-- The handle of slot 1 has been released (R216) while its allocation waits, and the fragment is held in an MWAIT for that slot by operation 51: the MMA
chained from it, whose phase one of two threads has signed. -/
def releasedEarly : State := { demoWith { placedThread with uses := [⟨51, [handleOf 1 0], [], false⟩] } placedThread with
  mops := [lateAlloc]
  ponds := [{ demoPond with
    held := demoPond.held ++ [⟨1, 0, false, 0, .undef 0, false, true⟩]
    conv := [(0, { Conv.reset with count := 2, op := 51, signers := [⟨⟨0, 0⟩, ⟨0, 0⟩, 0, placedAt, 1, 5, false, 0⟩] })] }]
  frags := [{ placedFrag with hold := .mwait [51] [(⟨0, 0⟩, 1, 0)] ⟨[], [], false, 0, placedAt, 6⟩ }]
  cur := none }

theorem releasedEarly_mayStart : mop releasedEarly 50 = some lateAlloc ∧ mopCore releasedEarly lateAlloc = some 0 ∧
    ((queued releasedEarly 0).find? (mayStart releasedEarly 0)).map MOp.id = some 50 := by decide +kernel

/-- The slots of a pond after a step that leads to a state. -/
def heldAfter (pd : Nat) : Host.Outcome State Fault Refusal → Option (List RSlot)
  | .next t => (pond t pd).map Pond.held
  | _ => none

/-- The allocation ends as it starts, and its slot, whose flags the MWAIT has still to read, is held without a physical slot (R216, R220). -/
theorem heldAfter_releasedEarly : heldAfter 0 (exec (.matrixOpStart 50) releasedEarly) =
    some [⟨0, 0, true, 0, .zero, false, false⟩, ⟨1, 0, false, 0, .undef 0, false, true⟩] := by decide +kernel

/-- Refutes O45: its first clause says of every fresh operation whose handle is delivered that its slot has a physical slot afterwards, an MSLOT `.alloc`
included, and does not ask that the handle still be valid. The `.alloc` of `releasedEarly` ends in the step that starts it; its slot 1 was released before, no
operation is queued on it, and an MWAIT waits for it, so that the same step frees the physical slot and keeps the flags (R216, R220). -/
theorem not_matrixOperations : ¬ Obligations.MatrixOperations := by
  rintro ⟨⟨hstart, -⟩, -⟩
  obtain ⟨hop, hcore, hfirst⟩ := releasedEarly_mayStart
  obtain ⟨t, ht, -, hphys⟩ := hstart _ _ _ _ hop hcore hfirst
  have hheld := heldAfter_releasedEarly
  rw [ht] at hheld
  obtain ⟨d, hd, hslots⟩ := Option.map_eq_some_iff.1 hheld
  have hslot := hphys rfl rfl d hd ⟨1, 0, false, 0, .undef 0, false, true⟩ (by simp [hslots]) rfl rfl
  cases hslot

end Sys2Proof.Machine
end

section
/-! O49. SRR writes what `Env.special` says, `%clock` but for still mode a count that never falls, and SRW sets the flags or the count of its core. -/

namespace Sys2Proof.Machine

variable {s t : State} {e : Env} {g : Guard} {r : SReg} {d : Dst} {a : Src} {regs preds : List Nat} {flags : Bool} {ws : List TRef}

/-! The write of a destination reaches threads and pools alone (R70, R123). -/

theorem lwrite_rest (s : State) (p n : Nat) (pl : Bool) (vals : List (TRef × Word)) :
    lwrite s p n pl vals = { s with threads := (lwrite s p n pl vals).threads, pools := (lwrite s p n pl vals).pools } := by
  unfold lwrite writeCopies
  simp only
  split <;> rfl

theorem writeDst_rest (s : State) (e : Env) (d : Dst) (vals : List (List (TRef × Word))) :
    writeDst s e d vals = { s with threads := (writeDst s e d vals).threads, pools := (writeDst s e d vals).pools } := by
  cases d with
  | none => rfl
  | reg n tag =>
    simp only [writeDst]
    generalize vals.zip (List.range vals.length) = l
    induction l generalizing s with
    | nil => rfl
    | cons p l ih =>
      rw [List.foldl_cons, ih (lwrite s ..), lwrite_rest s]

theorem writeW_rest (s : State) (e : Env) (w : Bool) (d : Dst) (vals : List (TRef × DWord)) :
    writeW s e w d vals = { s with threads := (writeW s e w d vals).threads, pools := (writeW s e w d vals).pools } := by
  cases w <;> exact writeDst_rest ..

@[simp] theorem writeW_hints (s : State) (e : Env) (w : Bool) (d : Dst) (vals : List (TRef × DWord)) : (writeW s e w d vals).hints = s.hints := by
  rw [writeW_rest]
@[simp] theorem writeW_clock (s : State) (e : Env) (w : Bool) (d : Dst) (vals : List (TRef × DWord)) : (writeW s e w d vals).clock = s.clock := by
  rw [writeW_rest]
@[simp] theorem finish_clock (s : State) (e : Env) (i : Instr) : (finish s e i).clock = s.clock := by rw [finish_eq]

/-- The registers that a result of an operand width reaches are those of its destination range (R123). -/
theorem mem_dstRange_width {w : Bool} {n : Fin 768} {tag : DTag} (hd : d = .reg n tag) :
    n.val ∈ dstRange d (if w then 2 else 1) ∧ (w = true → n.val + 1 ∈ dstRange d (if w then 2 else 1)) := by
  subst hd
  cases w <;> simp [dstRange]

/-! SRR (R225 to R227). -/

/-- A special register reads as `Env.special` says, wherever the host registers and the counts of late words are the same. -/
theorem sreg_eq_special {x : State} (hhost : x.host = s.host) (hhints : t.hints = x.hints) (u : Thread) : e.sreg x r u = e.special s t u r := by
  have hgwn : gwnOf x e.ctx e.core = gwnOf s e.ctx e.core := by unfold gwnOf; rw [hhost]
  cases r with
  | gwn => exact hgwn
  | gwstale =>
    simp only [Env.sreg, Env.special, hgwn]
    by_cases h : e.pool.grant = gwnOf s e.ctx e.core <;> simp [h]
  | hintmiss => simp only [Env.sreg, Env.special, hintsOf, hhints]
  | round =>
    simp only [Env.sreg, Env.special, Env.roundReg]
    by_cases h : ∃ k ∈ e.launch.killed, k < e.block.lin
    · have hk : killedBelow e = true := by simpa [killedBelow] using h
      simp [h, hk]
    · have hk : killedBelow e = false := by simpa [killedBelow] using h
      simp [h, hk]
  | _ => rfl

/-- SRR is a write of the register's value at its width, `%clock` apart where it counts (R225). -/
theorem srrBody_eq (hr : r = .clock → e.still = true) (act : List Thread) (s : State) :
    srrBody r d e act s = writeW s e (wideSpecial r) d (forEach act (fun u => BitVec.ofNat 64 (e.sreg s r u))) := by
  cases r with
  | clock => simp only [srrBody, hr rfl, if_true]; rfl
  | _ => rfl

/-- SRR reads every special register but a running `%clock` from its thread and surroundings (R225 to R227). -/
theorem srr_reads (h : Issues s e (.srr g r d)) (hr : r = .clock → e.still = true) : ∃ t, exec (.srr g r d) s = .next t ∧
    Results t e g (wideSpecial r) d (fun u => BitVec.ofNat 64 (e.special s t u r)) ∧
    s.Keeps e (dstRange d (if wideSpecial r then 2 else 1)) [] false (e.acting g) t := by
  refine ⟨_, issue_plain h g _, ?_⟩
  split
  · next ha => exact ⟨fun _ _ _ u hu => absurd hu (not_mem_actors ha), finish_keeps⟩
  · rw [srrBody_eq hr]
    refine ⟨?_, finish_keeps.trans (writeW_keeps (fun _ _ => mem_dstRange_width) fun _ hv => mem_acting hv)⟩
    simp only [← sreg_eq_special (finish_host ..) (writeW_hints ..)]
    exact writeW_results (pool_finish h) g _ d _

/-- A count of the clocks stands beside what a word keeps (R226). -/
theorem State.Keeps.setClock (h : s.Keeps e regs preds flags ws t) (c : Map Nat) :
    State.Keeps e regs preds flags ws { s with clock := c } { t with clock := c } :=
  ⟨congrArg (fun x : State => { x with clock := c }) h.rest, h.memory, h.threads, h.pools, h.frags⟩

/-- A tick changes the clock alone, beside a draw of the model (log 7). -/
theorem tick_keeps (s : State) (core : Nat) : s.Keeps e regs preds flags ws { (tick s core).2 with clock := s.clock } :=
  .of_parts rfl (forall₂_self _ fun _ _ => .refl ..) (forall₂_self _ fun _ _ => .refl ..) (forall₂_self _ fun _ _ _ => rfl)

/-- A write of a result behind a tick leaves all but its destination, beside the clock (R123, R226). -/
theorem tickWrite_keeps {w : Bool} {vals : List (TRef × DWord)} (hd : ∀ n tag, d = .reg n tag → n.val ∈ regs ∧ (w = true → n.val + 1 ∈ regs))
    (hw : ∀ v ∈ vals, v.1 ∈ ws) (s : State) :
    s.Keeps e regs preds flags ws { writeW (tick s e.core).2 e w d vals with clock := s.clock } :=
  (tick_keeps s e.core).trans ((writeW_keeps hd hw).setClock s.clock)

/-- SRR of a running `%clock` writes a count of its core that never falls (R226). -/
theorem srr_clock (h : Issues s e (.srr g .clock d)) (hs : e.still = false) : ∃ t n, exec (.srr g .clock d) s = .next t ∧
    Results t e g true d (fun _ => BitVec.ofNat 64 n) ∧ s.Keeps e (dstRange d 2) [] false (e.acting g) { t with clock := s.clock } ∧
    (e.active g ≠ [] → (mapGet s.clock e.core).getD 0 ≤ n ∧ mapGet t.clock e.core = some n) ∧
    ∀ k, k ≠ e.core → mapGet t.clock k = mapGet s.clock k := by
  have hbody (x : State) (act : List Thread) : srrBody .clock d e act x =
      writeW (tick x e.core).2 e true d (forEach act fun _ => BitVec.ofNat 64 (tick x e.core).1) := by
    simp only [srrBody, hs, Bool.false_eq_true, if_false]; rfl
  set f := finish s e (.srr g .clock d) with hf
  have hclock : f.clock = s.clock := finish_clock ..
  refine ⟨_, (tick f e.core).1, issue_plain h g _, ?_⟩
  split
  · next ha =>
    refine ⟨fun _ _ _ u hu => absurd hu (not_mem_actors ha), ?_, fun hne => absurd ha hne, fun k _ => by rw [finish_clock]⟩
    rw [← hf, ← hclock]
    exact finish_keeps
  · rw [← hf, hbody]
    refine ⟨writeW_results (s := (tick f e.core).2) (pool_finish h) g true d _, ?_, fun _ => ⟨?_, ?_⟩, fun k hk => ?_⟩
    · rw [← hclock]
      exact finish_keeps.trans (tickWrite_keeps (fun _ _ => mem_dstRange_width (w := true)) (fun _ hv => mem_acting hv) f)
    · rw [← hclock]
      exact Nat.le_add_right ..
    · rw [writeW_clock]
      exact mapGet_mapSet_same ..
    · rw [writeW_clock, ← hclock]
      exact mapGet_mapSet_ne _ _ hk.symm

/-! SRW (R106, R225). -/

/-- SRW of `%fflags` sets the flags of each thread for which it acts (R86, R225). -/
theorem srw_fflags (h : Issues s e (.srw g .fflags a)) : ∃ t, exec (.srw g .fflags a) s = .next t ∧ s.Keeps e [] [] true (e.acting g) t ∧
    ∀ u ∈ e.actors g, ∀ x ∈ t.threads, x.ref = u.ref → x.fflags = (e.src 0 u a).setWidth 5 := by
  refine ⟨_, issue_plain h g _, ?_⟩
  split
  · next ha => exact ⟨finish_keeps, fun u hu => absurd hu (not_mem_actors ha)⟩
  · refine ⟨finish_keeps.trans (.of_parts rfl (forall₂_updWhere _ _ _ (fun x _ hx => ?_) fun _ _ => .refl ..)
      (forall₂_self _ fun _ _ => .refl ..) (forall₂_self _ fun _ _ _ => rfl)), fun u hu x hx hxu => ?_⟩
    · obtain ⟨u, hu, hux⟩ := List.any_eq_true.1 hx
      have hmem : x.ref ∈ e.acting g := beq_iff_eq.1 hux ▸ List.mem_map_of_mem hu
      exact ⟨rfl, fun hn => absurd hmem hn, fun _ _ => rfl, fun _ _ => rfl, fun _ _ => rfl, fun hf => absurd hf (by decide), rfl⟩
    · obtain ⟨y, -, rfl⟩ := List.mem_map.1 hx
      have hyu : y.ref = u.ref := by
        rw [← hxu]
        split <;> rfl
      have hany : (e.active g).any (fun v => v.ref == y.ref) = true :=
        List.any_eq_true.2 ⟨u, (List.mem_filter.1 hu).1, beq_iff_eq.2 hyu.symm⟩
      have hval : valOf ((e.active g).map fun v => (v.ref, e.src 0 v a)) u.ref = some (e.src 0 u a) := valOf_forEach hu
      rw [if_pos hany]
      simp only [hyu, hval, Option.getD_some]

/-- Of values put in turn under one key the last one stays. -/
theorem mapGet_foldl_mapSet {α β : Type} (k : Nat) (f : β → α) (l : List β) (m : Map α) {u : β} (hu : l.getLast? = some u) :
    mapGet (l.foldl (fun m v => mapSet m k (f v)) m) k = some (f u) := by
  obtain ⟨l', rfl⟩ := List.getLast?_eq_some_iff.1 hu
  rw [List.foldl_append]
  exact mapGet_mapSet_same ..

theorem foldl_setHints {β : Type} (k : Nat) (f : β → Nat) (l : List β) (s : State) :
    l.foldl (fun s v => { s with hints := mapSet s.hints k (f v) }) s = { s with hints := l.foldl (fun m v => mapSet m k (f v)) s.hints } := by
  induction l generalizing s with
  | nil => rfl
  | cons v l ih => exact ih _

/-- A count of late words stands beside what the issue of a word leaves (R106). -/
theorem State.Issued.setHints {marks : List Nat} (h : State.Issued e marks ws s t) (m : Map Nat) : State.Issued e marks ws s { t with hints := m } :=
  ⟨congrArg (fun x : State => { x with hints := m }) h.rest, h.threads, h.frags⟩

/-- SRW of `%hintmiss` sets the count of the context on its core, to the value of the highest lane (R106, R225, log 80). -/
theorem srw_hintmiss (h : Issues s e (.srw g .hintmiss a)) : ∃ t, exec (.srw g .hintmiss a) s = .next t ∧ State.Issued e [] [] s t ∧
    ∀ u, (e.active g).getLast? = some u → hintsOf t e.ctx.rcd.id e.core = (e.src 0 u a).toNat := by
  refine ⟨_, issue_plain h g _, ?_⟩
  have hissued := finish_issued s e (.srw g .hintmiss a)
  split
  · next ha => exact ⟨hissued, fun u hu => by rw [ha] at hu; cases hu⟩
  · simp only [foldl_setHints]
    refine ⟨hissued.setHints _, fun u hu => ?_⟩
    rw [hintsOf, mapGet_foldl_mapSet _ _ _ _ hu, Option.getD_some]

/-- Settles O49: SRR by what `Env.special` says and by the tick of the core's clock, SRW by what it sets. -/
theorem specialRegisterWords : Obligations.SpecialRegisterWords :=
  ⟨fun _ _ _ _ _ h hr => srr_reads h hr, fun _ _ _ _ h hs => srr_clock h hs, fun _ _ _ _ h => srw_fflags h, fun _ _ _ _ h => srw_hintmiss h⟩

end Sys2Proof.Machine
end

section
/-! SUPPORT. Bit fields of a number (R2): a number that consists of fields apart from one another is known by their values (R97, R121). -/

namespace Sys2Proof

theorem bits_eq (x lo n : Nat) : bits x lo n = x / 2 ^ lo % 2 ^ n := by rw [bits, Nat.shiftRight_eq_div_pow]

theorem bits_lt (x lo n : Nat) : bits x lo n < 2 ^ n := Nat.mod_lt _ (Nat.two_pow_pos n)

theorem bits_mul_le (x lo n : Nat) : bits x lo n * 2 ^ lo ≤ x := by
  rw [bits_eq]
  exact (Nat.mul_le_mul_right _ (Nat.mod_le _ _)).trans (Nat.div_mul_le_self _ _)

/-- Two fields, each a low bit and a length, share no bit. -/
def Apart (p q : Nat × Nat) : Prop := p.1 + p.2 ≤ q.1 ∨ q.1 + q.2 ≤ p.1

/-- A number without one of its fields. -/
theorem sub_bits_eq (x lo n : Nat) : x - bits x lo n * 2 ^ lo = x / 2 ^ (lo + n) * 2 ^ (lo + n) + x % 2 ^ lo := by
  have h1 : x = 2 ^ lo * (x / 2 ^ lo) + x % 2 ^ lo := (Nat.div_add_mod _ _).symm
  have h2 : x / 2 ^ lo = 2 ^ n * (x / 2 ^ (lo + n)) + bits x lo n := by
    rw [bits_eq, Nat.pow_add, ← Nat.div_div_eq_div_mul]
    exact (Nat.div_add_mod _ _).symm
  refine Nat.sub_eq_of_eq_add ?_
  calc x = 2 ^ lo * (2 ^ n * (x / 2 ^ (lo + n)) + bits x lo n) + x % 2 ^ lo := by rw [← h2]; exact h1
    _ = _ := by rw [Nat.pow_add]; ring

/-- Clearing a field leaves every field apart from it. -/
theorem bits_sub_bits {lo n : Nat} {q : Nat × Nat} (x : Nat) (h : Apart (lo, n) q) :
    bits (x - bits x lo n * 2 ^ lo) q.1 q.2 = bits x q.1 q.2 := by
  rw [sub_bits_eq, bits_eq, bits_eq]
  rcases h with h | h
  · obtain ⟨k, hk⟩ := Nat.exists_eq_add_of_le h
    simp only at hk
    have hlow : x % 2 ^ lo < 2 ^ (lo + n) := (Nat.mod_lt _ (Nat.two_pow_pos lo)).trans_le (Nat.pow_le_pow_right (by decide) (Nat.le_add_right _ _))
    rw [hk, Nat.pow_add (m := lo + n), ← Nat.div_div_eq_div_mul, ← Nat.div_div_eq_div_mul, Nat.mul_comm, Nat.mul_add_div (Nat.two_pow_pos _),
      Nat.div_eq_of_lt hlow, Nat.add_zero]
  · rw [← Nat.mod_mul_right_div_self, ← Nat.mod_mul_right_div_self, ← Nat.pow_add]
    simp only at h
    congr 1
    have hd : 2 ^ (q.1 + q.2) ∣ 2 ^ lo := Nat.pow_dvd_pow 2 h
    rw [Nat.add_mod, Nat.mod_mod_of_dvd _ hd, Nat.mod_eq_zero_of_dvd ((hd.trans (Nat.pow_dvd_pow 2 (Nat.le_add_right lo n))).mul_left _), Nat.zero_add, Nat.mod_mod]

/-- Fields with their values: the low bit, the length and the value of each. -/
abbrev Layout := List (Nat × Nat × Nat)

/-- The fields of a layout. -/
def Layout.named (l : Layout) : List (Nat × Nat) := l.map (fun p => (p.1, p.2.1))

/-- The number that holds the values of a layout and nothing else. -/
def Layout.sum (l : Layout) : Nat := (l.map (fun p => p.2.2 * 2 ^ p.1)).sum

/-- The number holds each value of the layout. -/
def Layout.Holds (l : Layout) (x : Nat) : Prop := ∀ p ∈ l, bits x p.1 p.2.1 = p.2.2

/-- Each value of the layout has room in its field. -/
def Layout.Fits (l : Layout) : Prop := ∀ p ∈ l, p.2.2 < 2 ^ p.2.1

theorem Layout.fits_cons {lo n v : Nat} {l : Layout} : Layout.Fits ((lo, n, v) :: l) ↔ v < 2 ^ n ∧ l.Fits := List.forall_mem_cons

theorem Layout.holds_cons {lo n v x : Nat} {l : Layout} : Layout.Holds ((lo, n, v) :: l) x ↔ bits x lo n = v ∧ l.Holds x := List.forall_mem_cons

@[simp] theorem Layout.fits_nil : Layout.Fits [] := by simp [Layout.Fits]

@[simp] theorem Layout.holds_nil (x : Nat) : Layout.Holds [] x := by simp [Layout.Holds]

theorem Layout.sum_cons {lo n v : Nat} {l : Layout} : Layout.sum ((lo, n, v) :: l) = v * 2 ^ lo + l.sum := by simp [Layout.sum]

@[simp] theorem Layout.sum_nil : Layout.sum [] = 0 := rfl

theorem clearFields_cons (x : Nat) (f : Nat × Nat) (r : List (Nat × Nat)) : clearFields x (f :: r) = clearFields (x - bits x f.1 f.2 * 2 ^ f.1) r := rfl

/-- Clearing fields leaves a field apart from all of them. -/
theorem bits_clearFields {q : Nat × Nat} : ∀ (r : List (Nat × Nat)) (x : Nat), (∀ f ∈ r, Apart f q) → bits (clearFields x r) q.1 q.2 = bits x q.1 q.2
  | [], _, _ => rfl
  | f :: r, x, h => by
    rw [clearFields_cons, bits_clearFields r _ fun g hg => h g (List.mem_cons_of_mem _ hg), bits_sub_bits _ (h f List.mem_cons_self)]

theorem Apart.symm {p q : Nat × Nat} (h : Apart p q) : Apart q p := Or.symm h

/-- A number whose named fields hold the values of a layout and that has no other bit is the layout's number. -/
theorem cleared_iff : ∀ (l : Layout) (x : Nat), l.named.Pairwise Apart → ((clearFields x l.named = 0 ∧ l.Holds x) ↔ (l.Fits ∧ x = l.sum))
  | [], x, _ => by simp [Layout.named, Layout.sum, Layout.Holds, Layout.Fits, clearFields]
  | (lo, n, v) :: r, x, hd => by
    obtain ⟨hap, hr⟩ := List.pairwise_cons.1 hd
    have hap' : ∀ p ∈ r, Apart (lo, n) (p.1, p.2.1) := fun p hp => hap _ (List.mem_map_of_mem hp)
    have hholds : ∀ y, Layout.Holds r (y - bits y lo n * 2 ^ lo) ↔ Layout.Holds r y := fun y =>
      forall₂_congr fun p hp => by rw [bits_sub_bits (q := (p.1, p.2.1)) y (hap' p hp)]
    have hclear : ∀ y, clearFields y (Layout.named ((lo, n, v) :: r)) = clearFields (y - bits y lo n * 2 ^ lo) (Layout.named r) := fun _ => rfl
    rw [hclear, Layout.holds_cons, Layout.fits_cons, Layout.sum_cons]
    constructor
    · rintro ⟨hc, rfl, hh⟩
      obtain ⟨hf, hs⟩ := (cleared_iff r _ hr).1 ⟨hc, (hholds x).2 hh⟩
      refine ⟨⟨bits_lt x lo n, hf⟩, ?_⟩
      rw [← hs, Nat.add_sub_cancel' (bits_mul_le x lo n)]
    · rintro ⟨⟨hv, hf⟩, rfl⟩
      obtain ⟨hc, hh⟩ := (cleared_iff r (Layout.sum r) hr).2 ⟨hf, rfl⟩
      have hz : bits (Layout.sum r) lo n = 0 := by
        have := bits_clearFields (q := (lo, n)) (Layout.named r) (Layout.sum r) fun f hf => (hap f hf).symm
        simpa [hc, bits] using this.symm
      have hb : bits (v * 2 ^ lo + Layout.sum r) lo n = v := by
        rw [bits_eq, Nat.mul_comm v, Nat.mul_add_div (Nat.two_pow_pos lo), Nat.add_mod, ← bits_eq, hz, Nat.add_zero, Nat.mod_mod, Nat.mod_eq_of_lt hv]
      have hs : v * 2 ^ lo + Layout.sum r - bits (v * 2 ^ lo + Layout.sum r) lo n * 2 ^ lo = Layout.sum r := by rw [hb, Nat.add_sub_cancel_left]
      exact ⟨by rw [hs, hc], hb, (hholds _).1 (by rw [hs]; exact hh)⟩

end Sys2Proof
end

section
/-! SUPPORT. The values of the modifier fields and their codes (R122 to R225): a defined value of a field is the code of what it is read as. -/

namespace Sys2Proof

/-- A reading of the codes up to `top` that its codes invert. -/
theorem code_iff {α : Type} {of : Nat → α} {code : α → Nat} {top n : Nat} {c : α} (h1 : ∀ n ≤ top, code (of n) = n)
    (h2 : ∀ c, code c ≤ top ∧ of (code c) = c) : (n ≤ top ∧ of n = c) ↔ n = code c := by
  constructor
  · rintro ⟨hn, rfl⟩; exact (h1 n hn).symm
  · rintro rfl; exact h2 c

/-- A reading of all values of a field that its codes invert. -/
theorem bits_code_iff {α : Type} {of : Nat → α} {code : α → Nat} {x lo len : Nat} {c : α} (h1 : ∀ n < 2 ^ len, code (of n) = n)
    (h2 : ∀ c, of (code c) = c) : of (bits x lo len) = c ↔ bits x lo len = code c := by
  constructor
  · rintro rfl; exact (h1 _ (bits_lt ..)).symm
  · intro h; rw [h]; exact h2 c

variable {n x lo : Nat}

theorem fmtOf_iff {c : Fmt} : (n ≤ 4 ∧ fmtOf n = c) ↔ n = c.code := code_iff (by decide) (by rintro ⟨⟩ <;> decide)

theorem rmOf_iff {c : RM} : (n ≤ 5 ∧ rmOf n = c) ↔ n = c.code := code_iff (by decide) (by rintro ⟨⟩ <;> decide)

theorem condOf_iff {c : Cond} : (n ≤ 5 ∧ condOf n = c) ↔ n = c.code := code_iff (by decide) (by rintro ⟨⟩ <;> decide)

theorem fcondOf_iff {c : FCond} : fcondOf (bits x lo 3) = c ↔ bits x lo 3 = c.code := bits_code_iff (by decide) (by rintro ⟨⟩ <;> decide)

theorem ikindOf_iff {c : IKind} : (n ≤ 3 ∧ ikindOf n = c) ↔ n = c.code := code_iff (by decide) (by rintro ⟨⟩ <;> decide)

theorem shfOf_iff {c : ShfMode} : (n ≤ 4 ∧ shfOf n = c) ↔ n = c.code := code_iff (by decide) (by rintro ⟨⟩ <;> decide)

theorem bcOf_iff {c : BcSel} : (n ≤ 2 ∧ bcOf n = c) ↔ n = c.code := code_iff (by decide) (by rintro ⟨⟩ <;> decide)

theorem voteOf_iff {c : VoteMode} : (n ≤ 2 ∧ voteOf n = c) ↔ n = c.code := code_iff (by decide) (by rintro ⟨⟩ <;> decide)

theorem redOf_iff {c : RedOp} : (n ≤ 6 ∧ redOf n = c) ↔ n = c.code := code_iff (by decide) (by rintro ⟨⟩ <;> decide)

theorem redTyOf_iff {c : RedTy} : (n ≤ 6 ∧ redTyOf n = c) ↔ n = c.code :=
  code_iff (by decide) (by
    intro c
    cases c with
    | flt f => cases f <;> decide
    | _ => decide)

theorem qselOf_iff {c : QSel} : (n ≤ 2 ∧ qselOf n = c) ↔ n = c.code := code_iff (by decide) (by rintro ⟨⟩ <;> decide)

theorem sizeOf_iff {c : Size} : (n ≤ 4 ∧ sizeOf n = c) ↔ n = c.code := code_iff (by decide) (by rintro ⟨⟩ <;> decide)

theorem orderOf_iff {c : Order} : orderOf (bits x lo 2) = c ↔ bits x lo 2 = c.code := bits_code_iff (by decide) (by rintro ⟨⟩ <;> decide)

theorem scopeOf_iff {c : Scope} : (n ≤ 5 ∧ scopeOf n = c) ↔ n = c.code := code_iff (by decide) (by rintro ⟨⟩ <;> decide)

theorem hintOf_iff {c : Hint} : (n ≤ 2 ∧ hintOf n = c) ↔ n = c.code := code_iff (by decide) (by rintro ⟨⟩ <;> decide)

theorem atomOpOf_iff {c : AtomOp} : (n ≤ 8 ∧ atomOpOf n = c) ↔ n = c.code := code_iff (by decide) (by rintro ⟨⟩ <;> decide)

theorem fenceOf_iff {c : FenceKind} : (n ≤ 2 ∧ fenceOf n = c) ↔ n = c.code := code_iff (by decide) (by rintro ⟨⟩ <;> decide)

theorem copyDirOf_iff {c : CopyDir} : copyDirOf (bits x lo 2) = c ↔ bits x lo 2 = c.code := bits_code_iff (by decide) (by rintro ⟨⟩ <;> decide)

theorem dtagOf_iff {c : DTag} : dtagOf (bits x lo 2) = c ↔ bits x lo 2 = c.code := bits_code_iff (by decide) (by rintro ⟨⟩ <;> decide)

theorem sregOf_iff {c : SReg} : ((sregOf (bits x lo 8)).isSome = true ∧ (sregOf (bits x lo 8)).getD .tid = c) ↔ bits x lo 8 = c.code := by
  have h1 : ∀ n < 2 ^ 8, (sregOf n).isSome = true → ((sregOf n).getD .tid).code = n := by decide +kernel
  constructor
  · rintro ⟨hs, rfl⟩; exact (h1 _ (bits_lt ..) hs).symm
  · intro h; rw [h]; cases c <;> decide

/-- A rounding mode other than SR (R154, R158). -/
theorem rmOf_not_sr_iff {c : RM} : (n ≤ 4 ∧ rmOf n = c) ↔ (c != .sr) = true ∧ n = c.code := by
  rw [← rmOf_iff (n := n)]
  constructor
  · rintro ⟨h, rfl⟩; exact ⟨by interval_cases n <;> decide, by omega, rfl⟩
  · rintro ⟨h, h5, rfl⟩; refine ⟨?_, rfl⟩; interval_cases n <;> simp_all [rmOf]

/-- The sizes of a masked store (R181, R186). -/
theorem sizeOf_masked_iff {c : Size} : (maskedCode n = true ∧ sizeOf n = c) ↔ maskedSizes.contains c = true ∧ n = c.code := by
  constructor
  · rintro ⟨h, rfl⟩
    obtain rfl | rfl | rfl : n = 0 ∨ n = 3 ∨ n = 4 := by simpa [maskedCode, or_assoc] using h
    all_goals decide
  · rintro ⟨h, rfl⟩; cases c <;> revert h <;> decide

/-- The formats that KDEC writes (R159). -/
theorem fmtOf_kdec_iff {c : Fmt} : (n ≤ 2 ∧ fmtOf n = c) ↔ kdecFmts.contains c = true ∧ n = c.code := by
  constructor
  · rintro ⟨h, rfl⟩; interval_cases n <;> decide
  · rintro ⟨h, rfl⟩; cases c <;> revert h <;> decide

theorem flag_iff {i : Nat} {b : Bool} : flag x i = b ↔ bits x i 1 = b.toNat := by
  rw [flag, Nat.testBit_eq_decide_div_mod_eq, bits_eq]
  have := Nat.mod_lt (x / 2 ^ i) (show 2 > 0 by decide)
  cases b <;> simp

theorem fin64_iff {k : Fin 64} : fin64 (bits x lo 6) = k ↔ bits x lo 6 = k.val := by
  rw [fin64, Fin.ext_iff, Fin.val_ofNat, Nat.mod_eq_of_lt (show bits x lo 6 < 64 from bits_lt x lo 6)]

theorem fin8_iff {k : Fin 8} : fin8 (bits x lo 3) = k ↔ bits x lo 3 = k.val := by
  rw [fin8, Fin.ext_iff, Fin.val_ofNat, Nat.mod_eq_of_lt (show bits x lo 3 < 8 from bits_lt x lo 3)]

theorem fin16_iff {k : Fin 16} : fin16 (bits x lo 4) = k ↔ bits x lo 4 = k.val := by
  rw [fin16, Fin.ext_iff, Fin.val_ofNat, Nat.mod_eq_of_lt (show bits x lo 4 < 16 from bits_lt x lo 4)]

theorem ofNat_bits_iff {w : Nat} {v : BitVec w} : BitVec.ofNat w (bits x lo w) = v ↔ bits x lo w = v.toNat := by
  rw [← BitVec.toNat_inj, BitVec.toNat_ofNat, Nat.mod_eq_of_lt (bits_lt x lo w)]

theorem psrcOf_iff {neg : Nat} {p : PSrc} : psrcOf x lo neg = p ↔ bits x lo 6 = p.n.val ∧ bits x neg 1 = p.neg.toNat := by
  cases p; simp [psrcOf, fin64_iff, flag_iff]

theorem imodOf_iff {m : IMod} : imodOf x = m ↔ bits x 32 1 = m.w.toNat ∧ bits x 33 1 = m.uns.toNat ∧ bits x 34 1 = m.sat.toNat := by
  cases m; simp [imodOf, flag_iff]

theorem barScopeOf_iff {k : Nat} {c : BarScope} : ((bits x lo 2 = 3 ∨ bits x k 4 = 0) ∧ barScopeOf (bits x lo 2) (bits x k 4) = c) ↔
    bits x lo 2 = c.code ∧ bits x k 4 = c.num := by
  have hlo := bits_lt x lo 2
  have hk := bits_lt x k 4
  generalize bits x lo 2 = n at *
  generalize bits x k 4 = m at *
  constructor
  · rintro ⟨h, rfl⟩
    interval_cases n <;> simp_all [barScopeOf, BarScope.code, BarScope.num, fin16, Nat.mod_eq_of_lt]
  · rintro ⟨rfl, rfl⟩
    cases c <;> simp [barScopeOf, BarScope.code, BarScope.num, fin16]

/-! The modifiers of a word: [34:0], group above immediate. -/

/-- The modifiers stand in named fields and hold defined values (R110, R121). -/
def ModsLegal (x : Nat) (named : List (Nat × Nat)) (checks : List (Nat × Bool)) : Prop := clearFields x named = 0 ∧ ∀ c ∈ checks, c.2 = true

theorem modRow_eq_ok {named : List (Nat × Nat)} {checks : List (Nat × Bool)} {i j : Instr} :
    modRow x named checks i = .ok j ↔ ModsLegal x named checks ∧ i = j := by
  have hnil : (checks.filter (fun c => !c.2)).map Prod.fst = [] ↔ ∀ c ∈ checks, c.2 = true := by simp
  unfold modRow ModsLegal
  by_cases hx : clearFields x named = 0
  · simp only [hx, if_true, true_and, ← hnil]
    cases (checks.filter (fun c => !c.2)).map Prod.fst <;> simp
  · simp [hx]

/-- Bits [34:0] of a word. -/
def Fields.mods (f : Fields) : Nat := f.imm + 2 ^ 32 * f.grp

/-- The modifiers of `f` are legal and are read as `P` says exactly where they are the immediate and the group given, of an operation that is well-formed. -/
def Codes (f : Fields) (named : List (Nat × Nat)) (checks : List (Nat × Bool)) (P : Prop) (ok : Bool) (imm grp : Nat) : Prop :=
  ModsLegal f.mods named checks ∧ P ↔ ok = true ∧ f.mods = imm + 2 ^ 32 * grp

theorem codes_of_layout {f : Fields} {named : List (Nat × Nat)} {checks : List (Nat × Bool)} {P : Prop} {ok : Bool} {imm grp : Nat} (l : Layout)
    (hn : l.named = named) (hd : named.Pairwise Apart) (hf : l.Fits) (hs : l.sum = imm + 2 ^ 32 * grp)
    (hP : (∀ c ∈ checks, c.2 = true) ∧ P ↔ ok = true ∧ l.Holds f.mods) : Codes f named checks P ok imm grp := by
  subst hn
  rw [Codes, ModsLegal, and_assoc, hP, and_left_comm, cleared_iff l _ hd, hs]
  simp [hf]

/-- One check more, of what the operation's well-formedness says more. -/
theorem Codes.check {f : Fields} {named : List (Nat × Nat)} {checks : List (Nat × Bool)} {P : Prop} {ok ok' c : Bool} {imm grp i : Nat}
    (h : Codes f named checks P ok imm grp) (hc : (∀ c ∈ checks, c.2 = true) → P → c = ok') :
    Codes f named ((i, c) :: checks) P (ok && ok') imm grp := by
  unfold Codes ModsLegal at h ⊢
  rw [List.forall_mem_cons, Bool.and_eq_true]
  constructor
  · rintro ⟨⟨hclear, hi, hchecks⟩, hP⟩
    obtain ⟨hok, hm⟩ := h.1 ⟨⟨hclear, hchecks⟩, hP⟩
    exact ⟨⟨hok, hc hchecks hP ▸ hi⟩, hm⟩
  · rintro ⟨⟨hok, hok'⟩, hm⟩
    obtain ⟨⟨hclear, hchecks⟩, hP⟩ := h.2 ⟨hok, hm⟩
    exact ⟨⟨hclear, (hc hchecks hP).trans hok', hchecks⟩, hP⟩

end Sys2Proof
end

section
/-! SUPPORT. The modifiers of the operations, one lemma for each layout: they are legal and read as given exactly where they are the codes that the
encoder writes, and the operation is well-formed (R97, R110, R121). -/

namespace Sys2Proof

variable (f : Fields)

theorem ofNat_imm_iff {f : Fields} {v : Word} : BitVec.ofNat 32 f.imm = v ↔ bits f.mods 0 32 = v.toNat := by
  rw [← ofNat_bits_iff, bits_eq]
  simp [← BitVec.toNat_inj, Fields.mods]

/-- A flag in a field of its own, whose other bits must be 0. -/
theorem bits_one_of_le (x lo n : Nat) (b : Bool) : (bits x lo (n + 1) ≤ 1 ∧ bits x lo 1 = b.toNat) ↔ bits x lo (n + 1) = b.toNat := by
  have h : bits x lo 1 = bits x lo (n + 1) % 2 := by rw [bits_eq, bits_eq, Nat.pow_succ' (n := n), Nat.mod_mul_right_mod, Nat.pow_one]
  have := b.toNat_lt
  omega

theorem codes_none : Codes f [] [] True true 0 0 := codes_of_layout [] rfl (by simp) (by simp) (by simp) (by simp)

theorem codes_word32 (off : Word) : Codes f [(0, 32)] []
    (BitVec.ofNat 32 f.imm = off) true (off.toNat) (0) := by
  have := off.isLt
  refine codes_of_layout [(0, 32, off.toNat)] rfl (by simp [Apart]) (by simp only [Layout.fits_cons, Layout.fits_nil, and_true]; omega)
    (by simp only [Layout.sum_cons, Layout.sum_nil]; omega) ?_
  simp [Layout.holds_cons, ofNat_imm_iff]

theorem codes_movi (w uns : Bool) (imm : Word) : Codes f [(32, 1), (33, 1), (0, 32)] []
    (flag f.mods 32 = w ∧ flag f.mods 33 = uns ∧ BitVec.ofNat 32 f.imm = imm) true (imm.toNat) (w.toNat + 2 * uns.toNat) := by
  have := w.toNat_lt
  have := uns.toNat_lt
  have := imm.isLt
  refine codes_of_layout [(32, 1, w.toNat), (33, 1, uns.toNat), (0, 32, imm.toNat)] rfl (by simp [Apart]) (by simp only [Layout.fits_cons, Layout.fits_nil, and_true]; omega)
    (by simp only [Layout.sum_cons, Layout.sum_nil]; omega) ?_
  simp [Layout.holds_cons, ofNat_imm_iff, flag_iff]

theorem codes_pred (k : Fin 64) : Codes f [(0, 6)] []
    (fin64 (bits f.mods 0 6) = k) true (k) (0) := by
  have := k.isLt
  refine codes_of_layout [(0, 6, k.val)] rfl (by simp [Apart]) (by simp only [Layout.fits_cons, Layout.fits_nil, and_true]; omega)
    (by simp only [Layout.sum_cons, Layout.sum_nil]; omega) ?_
  simp [Layout.holds_cons, fin64_iff]

theorem codes_sel (w uns : Bool) (p : PSrc) : Codes f [(32, 1), (33, 1), (0, 6), (6, 1)] []
    (flag f.mods 32 = w ∧ flag f.mods 33 = uns ∧ psrcOf f.mods 0 6 = p) true (p.at 0 6) (w.toNat + 2 * uns.toNat) := by
  have := w.toNat_lt
  have := uns.toNat_lt
  have := p.parts_lt
  refine codes_of_layout [(32, 1, w.toNat), (33, 1, uns.toNat), (0, 6, p.n.val), (6, 1, p.neg.toNat)] rfl (by simp [Apart]) (by simp only [Layout.fits_cons, Layout.fits_nil, and_true]; omega)
    (by simp only [Layout.sum_cons, Layout.sum_nil, PSrc.at]; omega) ?_
  simp [Layout.holds_cons, psrcOf_iff, flag_iff]

theorem codes_carry (w : Bool) (pi po : Fin 64) : Codes f [(32, 1), (0, 6), (8, 6)] []
    (flag f.mods 32 = w ∧ fin64 (bits f.mods 0 6) = pi ∧ fin64 (bits f.mods 8 6) = po) true (pi + 256 * po) (w.toNat) := by
  have := w.toNat_lt
  have := pi.isLt
  have := po.isLt
  refine codes_of_layout [(32, 1, w.toNat), (0, 6, pi.val), (8, 6, po.val)] rfl (by simp [Apart]) (by simp only [Layout.fits_cons, Layout.fits_nil, and_true]; omega)
    (by simp only [Layout.sum_cons, Layout.sum_nil]; omega) ?_
  simp [Layout.holds_cons, fin64_iff, flag_iff]

theorem codes_icmp (w uns : Bool) (cond : Cond) (p : Fin 64) : Codes f [(32, 1), (33, 1), (0, 3), (8, 6)] [(0, bits f.mods 0 3 ≤ 5)]
    (flag f.mods 32 = w ∧ flag f.mods 33 = uns ∧ condOf (bits f.mods 0 3) = cond ∧ fin64 (bits f.mods 8 6) = p) true (cond.code + 256 * p) (w.toNat + 2 * uns.toNat) := by
  have := w.toNat_lt
  have := uns.toNat_lt
  have := cond.code_lt
  have := p.isLt
  refine codes_of_layout [(32, 1, w.toNat), (33, 1, uns.toNat), (0, 3, cond.code), (8, 6, p.val)] rfl (by simp [Apart]) (by simp only [Layout.fits_cons, Layout.fits_nil, and_true]; omega)
    (by simp only [Layout.sum_cons, Layout.sum_nil]; omega) ?_
  simp [Layout.holds_cons, fin64_iff, flag_iff, ← condOf_iff]
  tauto

theorem codes_iset (w uns : Bool) (cond : Cond) : Codes f [(32, 1), (33, 1), (0, 3)] [(0, bits f.mods 0 3 ≤ 5)]
    (flag f.mods 32 = w ∧ flag f.mods 33 = uns ∧ condOf (bits f.mods 0 3) = cond) true (cond.code) (w.toNat + 2 * uns.toNat) := by
  have := w.toNat_lt
  have := uns.toNat_lt
  have := cond.code_lt
  refine codes_of_layout [(32, 1, w.toNat), (33, 1, uns.toNat), (0, 3, cond.code)] rfl (by simp [Apart]) (by simp only [Layout.fits_cons, Layout.fits_nil, and_true]; omega)
    (by simp only [Layout.sum_cons, Layout.sum_nil]; omega) ?_
  simp [Layout.holds_cons, flag_iff, ← condOf_iff]
  tauto

theorem codes_tlog (w : Bool) (mask : BitVec 8) : Codes f [(32, 1), (16, 8)] []
    (flag f.mods 32 = w ∧ BitVec.ofNat 8 (bits f.mods 16 8) = mask) true (65536 * mask.toNat) (w.toNat) := by
  have := w.toNat_lt
  have := mask.isLt
  refine codes_of_layout [(32, 1, w.toNat), (16, 8, mask.toNat)] rfl (by simp [Apart]) (by simp only [Layout.fits_cons, Layout.fits_nil, and_true]; omega)
    (by simp only [Layout.sum_cons, Layout.sum_nil]; omega) ?_
  simp [Layout.holds_cons, flag_iff, ofNat_bits_iff]

theorem codes_pred2 (d : Fin 64) (a b : PSrc) : Codes f [(0, 6), (8, 6), (14, 1), (16, 6), (22, 1)] []
    (fin64 (bits f.mods 0 6) = d ∧ psrcOf f.mods 8 14 = a ∧ psrcOf f.mods 16 22 = b) true (d + a.at 8 14 + b.at 16 22) (0) := by
  have := d.isLt
  have := a.parts_lt
  have := b.parts_lt
  refine codes_of_layout [(0, 6, d.val), (8, 6, a.n.val), (14, 1, a.neg.toNat), (16, 6, b.n.val), (22, 1, b.neg.toNat)] rfl (by simp [Apart]) (by simp only [Layout.fits_cons, Layout.fits_nil, and_true]; omega)
    (by simp only [Layout.sum_cons, Layout.sum_nil, PSrc.at]; omega) ?_
  simp [Layout.holds_cons, fin64_iff, psrcOf_iff, and_assoc]

theorem codes_pred1 (d : Fin 64) (a : PSrc) : Codes f [(0, 6), (8, 6), (14, 1)] []
    (fin64 (bits f.mods 0 6) = d ∧ psrcOf f.mods 8 14 = a) true (d + a.at 8 14) (0) := by
  have := d.isLt
  have := a.parts_lt
  refine codes_of_layout [(0, 6, d.val), (8, 6, a.n.val), (14, 1, a.neg.toNat)] rfl (by simp [Apart]) (by simp only [Layout.fits_cons, Layout.fits_nil, and_true]; omega)
    (by simp only [Layout.sum_cons, Layout.sum_nil, PSrc.at]; omega) ?_
  simp [Layout.holds_cons, fin64_iff, psrcOf_iff]

theorem codes_hi (hi : Bool) : Codes f [(32, 1)] []
    (flag f.mods 32 = hi) true (0) (hi.toNat) := by
  have := hi.toNat_lt
  refine codes_of_layout [(32, 1, hi.toNat)] rfl (by simp [Apart]) (by simp only [Layout.fits_cons, Layout.fits_nil, and_true]; omega)
    (by simp only [Layout.sum_cons, Layout.sum_nil]; omega) ?_
  simp [Layout.holds_cons, flag_iff]

theorem codes_fmod (m : FMod) : Codes f [(32, 3), (0, 3), (3, 1), (4, 1)] [(32, bits f.mods 32 3 ≤ 4), (0, bits f.mods 0 3 ≤ 5)]
    (fmodOf f.mods = m) true (m.low) (m.fmt.code) := by
  obtain ⟨fmt, rm, ftz, flip⟩ := m
  have := fmt.code_lt
  have := rm.code_lt
  have := ftz.toNat_lt
  have := flip.toNat_lt
  refine codes_of_layout [(32, 3, fmt.code), (0, 3, rm.code), (3, 1, ftz.toNat), (4, 1, flip.toNat)] rfl (by simp [Apart]) (by simp only [Layout.fits_cons, Layout.fits_nil, and_true]; omega)
    (by simp only [Layout.sum_cons, Layout.sum_nil, FMod.low]; omega) ?_
  simp [Layout.holds_cons, fmodOf, ← fmtOf_iff, ← rmOf_iff, flag_iff]
  tauto

theorem codes_fmin (fmt : Fmt) (ftz : Bool) : Codes f [(32, 3), (3, 1)] [(32, bits f.mods 32 3 ≤ 4)]
    (fmtOf (bits f.mods 32 3) = fmt ∧ flag f.mods 3 = ftz) true (8 * ftz.toNat) (fmt.code) := by
  have := fmt.code_lt
  have := ftz.toNat_lt
  refine codes_of_layout [(32, 3, fmt.code), (3, 1, ftz.toNat)] rfl (by simp [Apart]) (by simp only [Layout.fits_cons, Layout.fits_nil, and_true]; omega)
    (by simp only [Layout.sum_cons, Layout.sum_nil]; omega) ?_
  simp [Layout.holds_cons, ← fmtOf_iff, flag_iff]
  tauto

theorem codes_fcmp (fmt : Fmt) (ftz : Bool) (cond : FCond) (p : Fin 64) : Codes f [(32, 3), (3, 1), (5, 3), (8, 6)] [(32, bits f.mods 32 3 ≤ 4)]
    (fmtOf (bits f.mods 32 3) = fmt ∧ flag f.mods 3 = ftz ∧ fcondOf (bits f.mods 5 3) = cond ∧ fin64 (bits f.mods 8 6) = p) true (8 * ftz.toNat + 32 * cond.code + 256 * p) (fmt.code) := by
  have := fmt.code_lt
  have := ftz.toNat_lt
  have := cond.code_lt
  have := p.isLt
  refine codes_of_layout [(32, 3, fmt.code), (3, 1, ftz.toNat), (5, 3, cond.code), (8, 6, p.val)] rfl (by simp [Apart]) (by simp only [Layout.fits_cons, Layout.fits_nil, and_true]; omega)
    (by simp only [Layout.sum_cons, Layout.sum_nil]; omega) ?_
  simp [Layout.holds_cons, ← fmtOf_iff, flag_iff, fcondOf_iff, fin64_iff]
  tauto

theorem codes_fclass (fmt : Fmt) (ftz : Bool) (mask : BitVec 9) : Codes f [(32, 3), (3, 1), (16, 9)] [(32, bits f.mods 32 3 ≤ 4)]
    (fmtOf (bits f.mods 32 3) = fmt ∧ flag f.mods 3 = ftz ∧ BitVec.ofNat 9 (bits f.mods 16 9) = mask) true (8 * ftz.toNat + 65536 * mask.toNat) (fmt.code) := by
  have := fmt.code_lt
  have := ftz.toNat_lt
  have := mask.isLt
  refine codes_of_layout [(32, 3, fmt.code), (3, 1, ftz.toNat), (16, 9, mask.toNat)] rfl (by simp [Apart]) (by simp only [Layout.fits_cons, Layout.fits_nil, and_true]; omega)
    (by simp only [Layout.sum_cons, Layout.sum_nil]; omega) ?_
  simp [Layout.holds_cons, ← fmtOf_iff, flag_iff, ofNat_bits_iff]
  tauto

theorem codes_frnd (fmt : Fmt) (rm : RM) (ftz : Bool) : Codes f [(32, 3), (0, 3), (3, 1)] [(32, bits f.mods 32 3 ≤ 4), (0, bits f.mods 0 3 ≤ 4)]
    (fmtOf (bits f.mods 32 3) = fmt ∧ rmOf (bits f.mods 0 3) = rm ∧ flag f.mods 3 = ftz) (rm != .sr) (rm.code + 8 * ftz.toNat) (fmt.code) := by
  have := fmt.code_lt
  have := rm.code_lt
  have := ftz.toNat_lt
  refine codes_of_layout [(32, 3, fmt.code), (0, 3, rm.code), (3, 1, ftz.toNat)] rfl (by simp [Apart]) (by simp only [Layout.fits_cons, Layout.fits_nil, and_true]; omega)
    (by simp only [Layout.sum_cons, Layout.sum_nil]; omega) ?_
  simp [Layout.holds_cons, ← fmtOf_iff, flag_iff]
  have := rmOf_not_sr_iff (n := bits f.mods 0 3) (c := rm)
  simp at this
  tauto

theorem codes_fcvt (m : FMod) (sfmt : Fmt) : Codes f [(32, 3), (0, 3), (3, 1), (4, 1), (5, 3)] [(32, bits f.mods 32 3 ≤ 4), (0, bits f.mods 0 3 ≤ 5), (5, bits f.mods 5 3 ≤ 4)]
    (fmodOf f.mods = m ∧ fmtOf (bits f.mods 5 3) = sfmt) true (m.low + 32 * sfmt.code) (m.fmt.code) := by
  obtain ⟨fmt, rm, ftz, flip⟩ := m
  have := fmt.code_lt
  have := rm.code_lt
  have := ftz.toNat_lt
  have := flip.toNat_lt
  have := sfmt.code_lt
  refine codes_of_layout [(32, 3, fmt.code), (0, 3, rm.code), (3, 1, ftz.toNat), (4, 1, flip.toNat), (5, 3, sfmt.code)] rfl (by simp [Apart]) (by simp only [Layout.fits_cons, Layout.fits_nil, and_true]; omega)
    (by simp only [Layout.sum_cons, Layout.sum_nil, FMod.low]; omega) ?_
  simp [Layout.holds_cons, fmodOf, ← fmtOf_iff, ← rmOf_iff, flag_iff]
  tauto

theorem codes_icvt (m : FMod) (kind : IKind) (uns : Bool) : Codes f [(32, 3), (0, 3), (3, 1), (4, 1), (5, 3), (8, 1)] [(32, bits f.mods 32 3 ≤ 4), (0, bits f.mods 0 3 ≤ 5), (5, bits f.mods 5 3 ≤ 3)]
    (fmodOf f.mods = m ∧ ikindOf (bits f.mods 5 3) = kind ∧ flag f.mods 8 = uns) true (m.low + 32 * kind.code + 256 * uns.toNat) (m.fmt.code) := by
  obtain ⟨fmt, rm, ftz, flip⟩ := m
  have := fmt.code_lt
  have := rm.code_lt
  have := ftz.toNat_lt
  have := flip.toNat_lt
  have := kind.code_lt
  have := uns.toNat_lt
  refine codes_of_layout [(32, 3, fmt.code), (0, 3, rm.code), (3, 1, ftz.toNat), (4, 1, flip.toNat), (5, 3, kind.code), (8, 1, uns.toNat)] rfl (by simp [Apart]) (by simp only [Layout.fits_cons, Layout.fits_nil, and_true]; omega)
    (by simp only [Layout.sum_cons, Layout.sum_nil, FMod.low]; omega) ?_
  simp [Layout.holds_cons, fmodOf, ← fmtOf_iff, ← rmOf_iff, flag_iff, ← ikindOf_iff]
  tauto

theorem codes_fcvti (kind : IKind) (uns : Bool) (sfmt : Fmt) (rm : RM) (ftz : Bool) : Codes f [(32, 3), (0, 3), (3, 1), (5, 3), (8, 1)] [(32, bits f.mods 32 3 ≤ 4), (0, bits f.mods 0 3 ≤ 4), (5, bits f.mods 5 3 ≤ 3)]
    (ikindOf (bits f.mods 5 3) = kind ∧ flag f.mods 8 = uns ∧ fmtOf (bits f.mods 32 3) = sfmt ∧ rmOf (bits f.mods 0 3) = rm ∧ flag f.mods 3 = ftz) (rm != .sr) (rm.code + 8 * ftz.toNat + 32 * kind.code + 256 * uns.toNat) (sfmt.code) := by
  have := sfmt.code_lt
  have := rm.code_lt
  have := ftz.toNat_lt
  have := kind.code_lt
  have := uns.toNat_lt
  refine codes_of_layout [(32, 3, sfmt.code), (0, 3, rm.code), (3, 1, ftz.toNat), (5, 3, kind.code), (8, 1, uns.toNat)] rfl (by simp [Apart]) (by simp only [Layout.fits_cons, Layout.fits_nil, and_true]; omega)
    (by simp only [Layout.sum_cons, Layout.sum_nil]; omega) ?_
  simp [Layout.holds_cons, ← fmtOf_iff, flag_iff, ← ikindOf_iff]
  have := rmOf_not_sr_iff (n := bits f.mods 0 3) (c := rm)
  simp at this
  tauto

theorem codes_kdec (m : FMod) (kb4 : Bool) : Codes f [(32, 3), (0, 3), (3, 1), (4, 1), (5, 3)] [(32, bits f.mods 32 3 ≤ 2), (0, bits f.mods 0 3 ≤ 5), (5, bits f.mods 5 3 ≤ 1)]
    (fmodOf f.mods = m ∧ flag f.mods 5 = kb4) (kdecFmts.contains m.fmt) (m.low + 32 * kb4.toNat) (m.fmt.code) := by
  obtain ⟨fmt, rm, ftz, flip⟩ := m
  have := fmt.code_lt
  have := rm.code_lt
  have := ftz.toNat_lt
  have := flip.toNat_lt
  have := kb4.toNat_lt
  refine codes_of_layout [(32, 3, fmt.code), (0, 3, rm.code), (3, 1, ftz.toNat), (4, 1, flip.toNat), (5, 3, kb4.toNat)] rfl (by simp [Apart]) (by simp only [Layout.fits_cons, Layout.fits_nil, and_true]; omega)
    (by simp only [Layout.sum_cons, Layout.sum_nil, FMod.low]; omega) ?_
  simp [Layout.holds_cons, fmodOf, ← rmOf_iff, flag_iff]
  have h1 := fmtOf_kdec_iff (n := bits f.mods 32 3) (c := fmt)
  have h2 := bits_one_of_le f.mods 5 2 kb4
  simp at h1
  tauto

end Sys2Proof
end

section
/-! SUPPORT. The modifiers of the operations, continued: lanes, residues, memory, matrices and the system (R160 to R240). -/

namespace Sys2Proof

variable (f : Fields)

theorem flag_eq_false {x i : Nat} : flag x i = false ↔ bits x i 1 = 0 := flag_iff

theorem flag_eq_true {x i : Nat} : flag x i = true ↔ bits x i 1 = 1 := flag_iff

theorem SReg.code_lt_256 (r : SReg) : r.code < 2 ^ 8 := by cases r <;> decide

theorem RedOp.code_lt_four (op : RedOp) : op.code < 4 ↔ op ≠ .and ∧ op ≠ .or ∧ op ≠ .xor := by cases op <;> decide

theorem RM.code_le_four (rm : RM) : rm.code ≤ 4 ↔ rm ≠ .sr := by cases rm <;> decide

theorem RM.code_eq_zero (rm : RM) : rm.code = 0 ↔ rm = .rne := by cases rm <;> decide

theorem Order.code_eq (o : Order) : (o.code = 0 ↔ o = .wk) ∧ (o.code = 1 ↔ o = .acq) ∧ (o.code = 2 ↔ o = .rel) := by cases o <;> decide

theorem Scope.code_eq_zero (sc : Scope) : sc.code = 0 ↔ sc = .sy := by cases sc <;> decide

theorem Size.code_eq (sz : Size) : (sz.code = 1 ↔ sz = .b8) ∧ (sz.code = 2 ↔ sz = .b16) := by cases sz <;> decide

theorem Size.mem_allSizes (sz : Size) : sz ∈ allSizes := by cases sz <;> decide

theorem AtomOp.code_eq (op : AtomOp) : (op.code = 1 ↔ op = .min) ∧ (op.code = 2 ↔ op = .max) ∧ (op.code = 6 ↔ op = .exch) ∧
    (op.code = 7 ↔ op = .cas) ∧ (op.code = 8 ↔ op = .fadd) := by cases op <;> decide

/-- The two sizes of an atomic (R188). -/
theorem wideCode_iff {n : Nat} {w : Bool} : ((n = 0 ∨ n = 3) ∧ (n == 3) = w) ↔ n = wideCode w := by
  cases w <;> simp [wideCode] <;> omega

/-- A number of three bits in a field of four. -/
theorem fin8_le_iff {n : Nat} {k : Fin 8} : (n ≤ 7 ∧ fin8 n = k) ↔ n = k.val := by
  rw [fin8, Fin.ext_iff, Fin.val_ofNat]
  have := k.isLt
  omega

/-- The upper bit of a field of two whose lower bit must be 0. -/
theorem high_flag_iff (x : Nat) (b : Bool) : (flag x 0 = false ∧ flag x 1 = b) ↔ bits x 0 2 = 2 * b.toNat := by
  rw [flag_eq_false, flag_iff, bits_eq, bits_eq, bits_eq]
  omega

theorem codes_xshf_none (mode : ShfMode) : Codes f [(0, 3), (3, 1), (4, 4)] [(0, bits f.mods 0 3 ≤ 4), (4, if flag f.mods 3 then decide (bits f.mods 4 4 ≤ 7) else bits f.mods 4 4 == 0)]
    (shfOf (bits f.mods 0 3) = mode ∧ (if flag f.mods 3 then some (fin8 (bits f.mods 4 4)) else none) = none) true (mode.code + 0) (0) := by
  have := mode.code_lt
  refine codes_of_layout [(0, 3, mode.code), (3, 1, 0), (4, 4, 0)] rfl (by simp [Apart]) (by simp only [Layout.fits_cons, Layout.fits_nil, and_true]; omega)
    (by simp only [Layout.sum_cons, Layout.sum_nil]; omega) ?_
  simp [Layout.holds_cons, ← shfOf_iff, ← flag_eq_false]
  grind

theorem codes_xshf_some (mode : ShfMode) (k : Fin 8) : Codes f [(0, 3), (3, 1), (4, 4)] [(0, bits f.mods 0 3 ≤ 4), (4, if flag f.mods 3 then decide (bits f.mods 4 4 ≤ 7) else bits f.mods 4 4 == 0)]
    (shfOf (bits f.mods 0 3) = mode ∧ (if flag f.mods 3 then some (fin8 (bits f.mods 4 4)) else none) = some k) true (mode.code + (8 + 16 * k.val)) (0) := by
  have := mode.code_lt
  have := k.isLt
  refine codes_of_layout [(0, 3, mode.code), (3, 1, 1), (4, 4, k.val)] rfl (by simp [Apart]) (by simp only [Layout.fits_cons, Layout.fits_nil, and_true]; omega)
    (by simp only [Layout.sum_cons, Layout.sum_nil]; omega) ?_
  simp [Layout.holds_cons, ← shfOf_iff, ← flag_eq_true, ← fin8_le_iff]
  grind

theorem codes_xbcast (sel : BcSel) : Codes f [(0, 2)] [(0, bits f.mods 0 2 ≤ 2)]
    (bcOf (bits f.mods 0 2) = sel) true (sel.code) (0) := by
  have := sel.code_lt
  refine codes_of_layout [(0, 2, sel.code)] rfl (by simp [Apart]) (by simp only [Layout.fits_cons, Layout.fits_nil, and_true]; omega)
    (by simp only [Layout.sum_cons, Layout.sum_nil]; omega) ?_
  simp [Layout.holds_cons, ← bcOf_iff]

theorem codes_xvote (mode : VoteMode) (d : Fin 64) (p : PSrc) : Codes f [(0, 6), (6, 1), (8, 6), (16, 2)] [(16, bits f.mods 16 2 ≤ 2)]
    (voteOf (bits f.mods 16 2) = mode ∧ fin64 (bits f.mods 8 6) = d ∧ psrcOf f.mods 0 6 = p) true (p.at 0 6 + 256 * d + 65536 * mode.code) (0) := by
  have := mode.code_lt
  have := d.isLt
  have := p.parts_lt
  refine codes_of_layout [(0, 6, p.n.val), (6, 1, p.neg.toNat), (8, 6, d.val), (16, 2, mode.code)] rfl (by simp [Apart]) (by simp only [Layout.fits_cons, Layout.fits_nil, and_true]; omega)
    (by simp only [Layout.sum_cons, Layout.sum_nil, PSrc.at]; omega) ?_
  simp [Layout.holds_cons, ← voteOf_iff, psrcOf_iff, fin64_iff]
  tauto

theorem codes_psrc (p : PSrc) : Codes f [(0, 6), (6, 1)] []
    (psrcOf f.mods 0 6 = p) true (p.at 0 6) (0) := by
  have := p.parts_lt
  refine codes_of_layout [(0, 6, p.n.val), (6, 1, p.neg.toNat)] rfl (by simp [Apart]) (by simp only [Layout.fits_cons, Layout.fits_nil, and_true]; omega)
    (by simp only [Layout.sum_cons, Layout.sum_nil, PSrc.at]; omega) ?_
  simp [Layout.holds_cons, psrcOf_iff]

theorem codes_xpfx (incl : Bool) (p : PSrc) : Codes f [(0, 6), (6, 1), (7, 1)] []
    (flag f.mods 7 = incl ∧ psrcOf f.mods 0 6 = p) true (p.at 0 6 + 128 * incl.toNat) (0) := by
  have := p.parts_lt
  have := incl.toNat_lt
  refine codes_of_layout [(0, 6, p.n.val), (6, 1, p.neg.toNat), (7, 1, incl.toNat)] rfl (by simp [Apart]) (by simp only [Layout.fits_cons, Layout.fits_nil, and_true]; omega)
    (by simp only [Layout.sum_cons, Layout.sum_nil, PSrc.at]; omega) ?_
  simp [Layout.holds_cons, psrcOf_iff, flag_iff]
  tauto

theorem codes_rmod (r : RMod) : Codes f [(0, 3), (3, 1), (4, 1), (5, 3), (8, 3), (11, 1), (12, 1)] (redChecks f.mods)
    (rmodOf f.mods = r) r.ok (r.code) (0) := by
  obtain ⟨op, ty, uns, alt, rm, ftz, flip⟩ := r
  have := rm.code_lt
  have := op.code_lt
  have := ty.code_lt
  have := ftz.toNat_lt
  have := flip.toNat_lt
  have := uns.toNat_lt
  have := alt.toNat_lt
  refine codes_of_layout [(0, 3, rm.code), (3, 1, ftz.toNat), (4, 1, flip.toNat), (5, 3, op.code), (8, 3, ty.code), (11, 1, uns.toNat), (12, 1, alt.toNat)] rfl (by simp [Apart]) (by simp only [Layout.fits_cons, Layout.fits_nil, and_true]; omega)
    (by simp only [Layout.sum_cons, Layout.sum_nil, RMod.code]; omega) ?_
  simp [Layout.holds_cons, redChecks, rmodOf, ← flag_iff]
  have h1 := redOf_iff (n := bits f.mods 5 3) (c := op)
  have h2 := redTyOf_iff (n := bits f.mods 8 3) (c := ty)
  have h3 := rmOf_iff (n := bits f.mods 0 3) (c := rm)
  cases ty with
  | flt fmt =>
    have := fmt.code_lt
    have := op.code_lt_four
    have := rm.code_le_four
    simp [RMod.ok, RedTy.code] at h2 ⊢
    grind
  | i32 | i64 =>
    have := rm.code_eq_zero
    simp [RMod.ok, RedTy.code] at h2 ⊢
    grind

theorem codes_nred (r : RMod) : Codes f [(0, 3), (3, 1), (4, 1), (5, 3), (8, 3), (11, 1), (12, 1)] ((12, !flag f.mods 12) :: redChecks f.mods)
    (rmodOf f.mods = r) (r.ok && !r.alt) (r.code) (0) :=
  (codes_rmod f r).check fun _ h => by rw [← h]; rfl

theorem codes_flag (b : Bool) : Codes f [(0, 1)] []
    (flag f.mods 0 = b) true (b.toNat) (0) := by
  have := b.toNat_lt
  refine codes_of_layout [(0, 1, b.toNat)] rfl (by simp [Apart]) (by simp only [Layout.fits_cons, Layout.fits_nil, and_true]; omega)
    (by simp only [Layout.sum_cons, Layout.sum_nil]; omega) ?_
  simp [Layout.holds_cons, flag_iff]

theorem codes_xtbl (len : Fin 8) (fill : BitVec 8) : Codes f [(0, 3), (8, 8)] []
    (fin8 (bits f.mods 0 3) = len ∧ BitVec.ofNat 8 (bits f.mods 8 8) = fill) true (len + 256 * fill.toNat) (0) := by
  have := len.isLt
  have := fill.isLt
  refine codes_of_layout [(0, 3, len.val), (8, 8, fill.toNat)] rfl (by simp [Apart]) (by simp only [Layout.fits_cons, Layout.fits_nil, and_true]; omega)
    (by simp only [Layout.sum_cons, Layout.sum_nil]; omega) ?_
  simp [Layout.holds_cons, fin8_iff, ofNat_bits_iff]

theorem codes_qset (k : Fin 8) (wide : Bool) (tag : DTag) : Codes f [(32, 3), (0, 1), (4, 2)] []
    (fin8 (bits f.mods 32 3) = k ∧ flag f.mods 0 = wide ∧ dtagOf (bits f.mods 4 2) = tag) true (wide.toNat + 16 * tag.code) (k) := by
  have := k.isLt
  have := wide.toNat_lt
  have := tag.code_lt
  refine codes_of_layout [(32, 3, k.val), (0, 1, wide.toNat), (4, 2, tag.code)] rfl (by simp [Apart]) (by simp only [Layout.fits_cons, Layout.fits_nil, and_true]; omega)
    (by simp only [Layout.sum_cons, Layout.sum_nil]; omega) ?_
  simp [Layout.holds_cons, fin8_iff, flag_iff, dtagOf_iff]

theorem codes_qget (k : Fin 8) (sel : QSel) : Codes f [(32, 3), (0, 2)] [(0, bits f.mods 0 2 ≤ 2)]
    (fin8 (bits f.mods 32 3) = k ∧ qselOf (bits f.mods 0 2) = sel) true (sel.code) (k) := by
  have := k.isLt
  have := sel.code_lt
  refine codes_of_layout [(32, 3, k.val), (0, 2, sel.code)] rfl (by simp [Apart]) (by simp only [Layout.fits_cons, Layout.fits_nil, and_true]; omega)
    (by simp only [Layout.sum_cons, Layout.sum_nil]; omega) ?_
  simp [Layout.holds_cons, fin8_iff, ← qselOf_iff]
  tauto

theorem codes_slot (k : Fin 8) : Codes f [(32, 3)] []
    (fin8 (bits f.mods 32 3) = k) true (0) (k) := by
  have := k.isLt
  refine codes_of_layout [(32, 3, k.val)] rfl (by simp [Apart]) (by simp only [Layout.fits_cons, Layout.fits_nil, and_true]; omega)
    (by simp only [Layout.sum_cons, Layout.sum_nil]; omega) ?_
  simp [Layout.holds_cons, fin8_iff]

theorem codes_xbfly (k : Fin 8) (rel : Bool) (v : Fin 8) : Codes f [(32, 3), (0, 3), (3, 1)] [(0, if flag f.mods 3 then bits f.mods 0 3 != 0 else bits f.mods 0 3 != 7)]
    (fin8 (bits f.mods 32 3) = k ∧ flag f.mods 3 = rel ∧ fin8 (bits f.mods 0 3) = v) (if rel then v != 0 else v != 7) (v + 8 * rel.toNat) (k) := by
  have := k.isLt
  have := v.isLt
  have := rel.toNat_lt
  refine codes_of_layout [(32, 3, k.val), (0, 3, v.val), (3, 1, rel.toNat)] rfl (by simp [Apart]) (by simp only [Layout.fits_cons, Layout.fits_nil, and_true]; omega)
    (by simp only [Layout.sum_cons, Layout.sum_nil]; omega) ?_
  simp [Layout.holds_cons, fin8_iff, ← flag_iff]
  have : v = 0 ↔ v.val = 0 := Fin.ext_iff
  have : v = 7 ↔ v.val = 7 := Fin.ext_iff
  cases rel <;> grind

theorem codes_ld (m : MemMod) (uns : Bool) : Codes f [(32, 3), (16, 16), (8, 1), (6, 2), (5, 1), (3, 2), (0, 3)] ((32, bits f.mods 32 3 ≤ 4) :: (5, !flag f.mods 5 || bits f.mods 32 3 == 1 || bits f.mods 32 3 == 2) :: memChecks f.mods [0, 1])
    (memModOf f.mods = m ∧ flag f.mods 5 = uns) (m.ok [.wk, .acq] allSizes && unsOk uns m.size) (m.code + 32 * uns.toNat) (m.size.code) := by
  obtain ⟨size, disp, loc, hint, order, scope⟩ := m
  have := size.code_lt
  have := disp.isLt
  have := loc.toNat_lt
  have := hint.code_lt
  have := order.code_lt
  have := scope.code_lt
  have := uns.toNat_lt
  refine codes_of_layout [(32, 3, size.code), (16, 16, disp.toNat), (8, 1, loc.toNat), (6, 2, hint.code), (5, 1, uns.toNat), (3, 2, order.code), (0, 3, scope.code)] rfl (by simp [Apart]) (by simp only [Layout.fits_cons, Layout.fits_nil, and_true]; omega)
    (by simp only [Layout.sum_cons, Layout.sum_nil, MemMod.code]; omega) ?_
  simp [Layout.holds_cons, memChecks, memModOf, ← flag_iff, orderOf_iff, ofNat_bits_iff]
  have h1 := sizeOf_iff (n := bits f.mods 32 3) (c := size)
  have h2 := hintOf_iff (n := bits f.mods 6 2) (c := hint)
  have h3 := scopeOf_iff (n := bits f.mods 0 3) (c := scope)
  have := order.code_eq
  have := scope.code_eq_zero
  have := size.code_eq
  simp [MemMod.ok, scopeOk, size.mem_allSizes, unsOk] at h1 ⊢
  grind

theorem codes_st (m : MemMod) : Codes f [(32, 3), (16, 16), (8, 1), (6, 2), (3, 2), (0, 3)] ((32, bits f.mods 32 3 ≤ 4) :: memChecks f.mods [0, 2])
    (memModOf f.mods = m) (m.ok [.wk, .rel] allSizes) (m.code) (m.size.code) := by
  obtain ⟨size, disp, loc, hint, order, scope⟩ := m
  have := size.code_lt
  have := disp.isLt
  have := loc.toNat_lt
  have := hint.code_lt
  have := order.code_lt
  have := scope.code_lt
  refine codes_of_layout [(32, 3, size.code), (16, 16, disp.toNat), (8, 1, loc.toNat), (6, 2, hint.code), (3, 2, order.code), (0, 3, scope.code)] rfl (by simp [Apart]) (by simp only [Layout.fits_cons, Layout.fits_nil, and_true]; omega)
    (by simp only [Layout.sum_cons, Layout.sum_nil, MemMod.code]; omega) ?_
  simp [Layout.holds_cons, memChecks, memModOf, ← flag_iff, orderOf_iff, ofNat_bits_iff]
  have h1 := sizeOf_iff (n := bits f.mods 32 3) (c := size)
  have h2 := hintOf_iff (n := bits f.mods 6 2) (c := hint)
  have h3 := scopeOf_iff (n := bits f.mods 0 3) (c := scope)
  have := order.code_eq
  have := scope.code_eq_zero
  simp [MemMod.ok, scopeOk, size.mem_allSizes] at h1 ⊢
  grind

theorem codes_stm (m : MemMod) : Codes f [(32, 3), (16, 16), (8, 1), (6, 2), (3, 2), (0, 3)] ((32, maskedCode (bits f.mods 32 3)) :: memChecks f.mods [0])
    (memModOf f.mods = m) (m.ok [.wk] maskedSizes) (m.code) (m.size.code) := by
  obtain ⟨size, disp, loc, hint, order, scope⟩ := m
  have := size.code_lt
  have := disp.isLt
  have := loc.toNat_lt
  have := hint.code_lt
  have := order.code_lt
  have := scope.code_lt
  refine codes_of_layout [(32, 3, size.code), (16, 16, disp.toNat), (8, 1, loc.toNat), (6, 2, hint.code), (3, 2, order.code), (0, 3, scope.code)] rfl (by simp [Apart]) (by simp only [Layout.fits_cons, Layout.fits_nil, and_true]; omega)
    (by simp only [Layout.sum_cons, Layout.sum_nil, MemMod.code]; omega) ?_
  simp [Layout.holds_cons, memChecks, memModOf, ← flag_iff, orderOf_iff, ofNat_bits_iff]
  have h1 := sizeOf_masked_iff (n := bits f.mods 32 3) (c := size)
  have h2 := hintOf_iff (n := bits f.mods 6 2) (c := hint)
  have h3 := scopeOf_iff (n := bits f.mods 0 3) (c := scope)
  have := order.code_eq
  have := scope.code_eq_zero
  simp [MemMod.ok, scopeOk] at h1 ⊢
  grind

theorem codes_lds (size : Size) (take uns : Bool) (disp : BitVec 16) : Codes f [(32, 3), (16, 16), (9, 1), (5, 1)] [(32, bits f.mods 32 3 ≤ 4), (5, !flag f.mods 5 || bits f.mods 32 3 == 1 || bits f.mods 32 3 == 2)]
    (sizeOf (bits f.mods 32 3) = size ∧ flag f.mods 9 = take ∧ flag f.mods 5 = uns ∧ BitVec.ofNat 16 (bits f.mods 16 16) = disp) (unsOk uns size) (32 * uns.toNat + 512 * take.toNat + 65536 * disp.toNat) (size.code) := by
  have := size.code_lt
  have := disp.isLt
  have := take.toNat_lt
  have := uns.toNat_lt
  refine codes_of_layout [(32, 3, size.code), (16, 16, disp.toNat), (9, 1, take.toNat), (5, 1, uns.toNat)] rfl (by simp [Apart]) (by simp only [Layout.fits_cons, Layout.fits_nil, and_true]; omega)
    (by simp only [Layout.sum_cons, Layout.sum_nil]; omega) ?_
  simp [Layout.holds_cons, ← flag_iff, ofNat_bits_iff]
  have h1 := sizeOf_iff (n := bits f.mods 32 3) (c := size)
  have := size.code_eq
  simp [unsOk] at h1 ⊢
  grind

theorem codes_sts (size : Size) (disp : BitVec 16) : Codes f [(32, 3), (16, 16)] [(32, bits f.mods 32 3 ≤ 4)]
    (sizeOf (bits f.mods 32 3) = size ∧ BitVec.ofNat 16 (bits f.mods 16 16) = disp) true (65536 * disp.toNat) (size.code) := by
  have := size.code_lt
  have := disp.isLt
  refine codes_of_layout [(32, 3, size.code), (16, 16, disp.toNat)] rfl (by simp [Apart]) (by simp only [Layout.fits_cons, Layout.fits_nil, and_true]; omega)
    (by simp only [Layout.sum_cons, Layout.sum_nil]; omega) ?_
  simp [Layout.holds_cons, ← sizeOf_iff, ofNat_bits_iff]
  tauto

theorem codes_stsm (size : Size) (disp : BitVec 16) : Codes f [(32, 3), (16, 16)] [(32, maskedCode (bits f.mods 32 3))]
    (sizeOf (bits f.mods 32 3) = size ∧ BitVec.ofNat 16 (bits f.mods 16 16) = disp) (maskedSizes.contains size) (65536 * disp.toNat) (size.code) := by
  have := size.code_lt
  have := disp.isLt
  refine codes_of_layout [(32, 3, size.code), (16, 16, disp.toNat)] rfl (by simp [Apart]) (by simp only [Layout.fits_cons, Layout.fits_nil, and_true]; omega)
    (by simp only [Layout.sum_cons, Layout.sum_nil]; omega) ?_
  simp [Layout.holds_cons, ofNat_bits_iff]
  have := sizeOf_masked_iff (n := bits f.mods 32 3) (c := size)
  simp at this
  tauto

theorem codes_pref (l2 : Bool) (disp : BitVec 16) : Codes f [(16, 16), (6, 2)] [(6, bits f.mods 6 2 ≤ 1)]
    (flag f.mods 6 = l2 ∧ BitVec.ofNat 16 (bits f.mods 16 16) = disp) true (64 * l2.toNat + 65536 * disp.toNat) (0) := by
  have := l2.toNat_lt
  have := disp.isLt
  refine codes_of_layout [(16, 16, disp.toNat), (6, 2, l2.toNat)] rfl (by simp [Apart]) (by simp only [Layout.fits_cons, Layout.fits_nil, and_true]; omega)
    (by simp only [Layout.sum_cons, Layout.sum_nil]; omega) ?_
  simp [Layout.holds_cons, ofNat_bits_iff, flag_iff]
  have := bits_one_of_le f.mods 6 1 l2
  tauto

theorem codes_atom (m : AtomMod) : Codes f [(32, 3), (16, 16), (12, 4), (6, 2), (5, 1), (3, 2), (0, 3)] (atomChecks f.mods ++ orderChecks f.mods)
    (atomModOf f.mods = m) (atomOk m.op m.wide m.uns && scopeOk m.order m.scope) (m.code) (wideCode m.wide) := by
  obtain ⟨op, wide, uns, disp, hint, order, scope⟩ := m
  have := op.code_lt
  have := wideCode_lt wide
  have := uns.toNat_lt
  have := disp.isLt
  have := hint.code_lt
  have := order.code_lt
  have := scope.code_lt
  refine codes_of_layout [(32, 3, wideCode wide), (16, 16, disp.toNat), (12, 4, op.code), (6, 2, hint.code), (5, 1, uns.toNat), (3, 2, order.code), (0, 3, scope.code)] rfl (by simp [Apart]) (by simp only [Layout.fits_cons, Layout.fits_nil, and_true]; omega)
    (by simp only [Layout.sum_cons, Layout.sum_nil, AtomMod.code]; omega) ?_
  simp [Layout.holds_cons, atomChecks, orderChecks, atomModOf, ← flag_iff, orderOf_iff, ofNat_bits_iff]
  have h1 := atomOpOf_iff (n := bits f.mods 12 4) (c := op)
  have h2 := wideCode_iff (n := bits f.mods 32 3) (w := wide)
  have h3 := hintOf_iff (n := bits f.mods 6 2) (c := hint)
  have h4 := scopeOf_iff (n := bits f.mods 0 3) (c := scope)
  have := order.code_eq
  have := scope.code_eq_zero
  have := op.code_eq
  simp [atomOk, scopeOk] at h2 ⊢
  grind

theorem codes_redm (m : AtomMod) : Codes f [(32, 3), (16, 16), (12, 4), (6, 2), (5, 1), (3, 2), (0, 3)] ((12, bits f.mods 12 4 != 6 && bits f.mods 12 4 != 7) :: (atomChecks f.mods ++ orderChecks f.mods))
    (atomModOf f.mods = m) (atomOk m.op m.wide m.uns && m.op != .exch && m.op != .cas && scopeOk m.order m.scope) (m.code) (wideCode m.wide) := by
  have hok : (atomOk m.op m.wide m.uns && m.op != .exch && m.op != .cas && scopeOk m.order m.scope) =
      (atomOk m.op m.wide m.uns && scopeOk m.order m.scope && (m.op != .exch && m.op != .cas)) := by ac_rfl
  rw [hok]
  refine (codes_atom f m).check fun hc h => ?_
  have hop := hc (12, bits f.mods 12 4 ≤ 8 && !(bits f.mods 12 4 == 8 && bits f.mods 32 3 == 3)) (by simp [atomChecks])
  have hcode : bits f.mods 12 4 = m.op.code :=
    atomOpOf_iff.1 ⟨of_decide_eq_true (Bool.and_eq_true_iff.1 hop).1, congrArg AtomMod.op h⟩
  rw [hcode]
  cases m.op <;> rfl

theorem codes_atoms (op : AtomOp) (wide uns : Bool) (disp : BitVec 16) : Codes f [(32, 3), (16, 16), (12, 4), (5, 1)] (atomChecks f.mods)
    (atomOpOf (bits f.mods 12 4) = op ∧ (bits f.mods 32 3 == 3) = wide ∧ flag f.mods 5 = uns ∧ BitVec.ofNat 16 (bits f.mods 16 16) = disp) (atomOk op wide uns) (32 * uns.toNat + 4096 * op.code + 65536 * disp.toNat) (wideCode wide) := by
  have := op.code_lt
  have := wideCode_lt wide
  have := uns.toNat_lt
  have := disp.isLt
  refine codes_of_layout [(32, 3, wideCode wide), (16, 16, disp.toNat), (12, 4, op.code), (5, 1, uns.toNat)] rfl (by simp [Apart]) (by simp only [Layout.fits_cons, Layout.fits_nil, and_true]; omega)
    (by simp only [Layout.sum_cons, Layout.sum_nil]; omega) ?_
  simp [Layout.holds_cons, atomChecks, ← flag_iff, ofNat_bits_iff]
  have h1 := atomOpOf_iff (n := bits f.mods 12 4) (c := op)
  have h2 := wideCode_iff (n := bits f.mods 32 3) (w := wide)
  have := op.code_eq
  simp [atomOk] at h2 ⊢
  grind

theorem codes_fence (kind : FenceKind) (scope : Scope) (cpy : Bool) : Codes f [(0, 3), (3, 2), (5, 1)] [(0, bits f.mods 0 3 ≤ 5), (3, bits f.mods 3 2 ≤ 2)]
    (fenceOf (bits f.mods 3 2) = kind ∧ scopeOf (bits f.mods 0 3) = scope ∧ flag f.mods 5 = cpy) true (scope.code + 8 * kind.code + 32 * cpy.toNat) (0) := by
  have := scope.code_lt
  have := kind.code_lt
  have := cpy.toNat_lt
  refine codes_of_layout [(0, 3, scope.code), (3, 2, kind.code), (5, 1, cpy.toNat)] rfl (by simp [Apart]) (by simp only [Layout.fits_cons, Layout.fits_nil, and_true]; omega)
    (by simp only [Layout.sum_cons, Layout.sum_nil]; omega) ?_
  simp [Layout.holds_cons, ← fenceOf_iff, ← scopeOf_iff, flag_iff]
  tauto

theorem codes_bar (scope : BarScope) : Codes f [(0, 2), (4, 4)] [(4, bits f.mods 0 2 == 3 || bits f.mods 4 4 == 0)]
    (barScopeOf (bits f.mods 0 2) (bits f.mods 4 4) = scope) true (scope.code + 16 * scope.num) (0) := by
  have := scope.code_lt
  refine codes_of_layout [(0, 2, scope.code), (4, 4, scope.num)] rfl (by simp [Apart]) (by simp only [Layout.fits_cons, Layout.fits_nil, and_true]; omega)
    (by simp only [Layout.sum_cons, Layout.sum_nil]; omega) ?_
  simp [Layout.holds_cons, ← barScopeOf_iff]

theorem codes_copy (size : Size) (dir : CopyDir) (hint : Hint) : Codes f [(32, 3), (6, 2), (0, 2)] [(32, maskedCode (bits f.mods 32 3)), (6, bits f.mods 6 2 ≤ 2)]
    (sizeOf (bits f.mods 32 3) = size ∧ copyDirOf (bits f.mods 0 2) = dir ∧ hintOf (bits f.mods 6 2) = hint) (maskedSizes.contains size) (dir.code + 64 * hint.code) (size.code) := by
  have := size.code_lt
  have := dir.code_lt
  have := hint.code_lt
  refine codes_of_layout [(32, 3, size.code), (6, 2, hint.code), (0, 2, dir.code)] rfl (by simp [Apart]) (by simp only [Layout.fits_cons, Layout.fits_nil, and_true]; omega)
    (by simp only [Layout.sum_cons, Layout.sum_nil]; omega) ?_
  simp [Layout.holds_cons, copyDirOf_iff, ← hintOf_iff]
  have := sizeOf_masked_iff (n := bits f.mods 32 3) (c := size)
  simp at this
  tauto

theorem codes_copym (size : Size) (obj : Bool) (hint : Hint) (mask : BitVec 4) : Codes f [(32, 3), (6, 2), (0, 2), (8, 4)] [(32, maskedCode (bits f.mods 32 3)), (6, bits f.mods 6 2 ≤ 2), (0, !flag f.mods 0)]
    (sizeOf (bits f.mods 32 3) = size ∧ flag f.mods 1 = obj ∧ hintOf (bits f.mods 6 2) = hint ∧ BitVec.ofNat 4 (bits f.mods 8 4) = mask) (maskedSizes.contains size) (2 * obj.toNat + 64 * hint.code + 256 * mask.toNat) (size.code) := by
  have := size.code_lt
  have := obj.toNat_lt
  have := hint.code_lt
  have := mask.isLt
  refine codes_of_layout [(32, 3, size.code), (6, 2, hint.code), (0, 2, 2 * obj.toNat), (8, 4, mask.toNat)] rfl (by simp [Apart]) (by simp only [Layout.fits_cons, Layout.fits_nil, and_true]; omega)
    (by simp only [Layout.sum_cons, Layout.sum_nil]; omega) ?_
  simp [Layout.holds_cons, ofNat_bits_iff, ← hintOf_iff]
  have h1 := sizeOf_masked_iff (n := bits f.mods 32 3) (c := size)
  have h2 := high_flag_iff f.mods obj
  simp at h1
  tauto

theorem codes_feq (p : Fin 64) (disp : BitVec 16) : Codes f [(16, 16), (8, 6)] []
    (fin64 (bits f.mods 8 6) = p ∧ BitVec.ofNat 16 (bits f.mods 16 16) = disp) true (256 * p + 65536 * disp.toNat) (0) := by
  have := p.isLt
  have := disp.isLt
  refine codes_of_layout [(16, 16, disp.toNat), (8, 6, p.val)] rfl (by simp [Apart]) (by simp only [Layout.fits_cons, Layout.fits_nil, and_true]; omega)
    (by simp only [Layout.sum_cons, Layout.sum_nil]; omega) ?_
  simp [Layout.holds_cons, ofNat_bits_iff, fin64_iff]
  tauto

theorem codes_feset (full : Bool) (disp : BitVec 16) : Codes f [(16, 16), (0, 1)] []
    (flag f.mods 0 = full ∧ BitVec.ofNat 16 (bits f.mods 16 16) = disp) true (full.toNat + 65536 * disp.toNat) (0) := by
  have := full.toNat_lt
  have := disp.isLt
  refine codes_of_layout [(16, 16, disp.toNat), (0, 1, full.toNat)] rfl (by simp [Apart]) (by simp only [Layout.fits_cons, Layout.fits_nil, and_true]; omega)
    (by simp only [Layout.sum_cons, Layout.sum_nil]; omega) ?_
  simp [Layout.holds_cons, ofNat_bits_iff, flag_iff]
  tauto

theorem codes_mdecl (n : Fin 16) (count : BitVec 13) : Codes f [(0, 4), (4, 13)] [(4, 1 ≤ bits f.mods 4 13 && bits f.mods 4 13 ≤ 4096)]
    (fin16 (bits f.mods 0 4) = n ∧ BitVec.ofNat 13 (bits f.mods 4 13) = count) (decide (1 ≤ count.toNat ∧ count.toNat ≤ 4096)) (n + 16 * count.toNat) (0) := by
  have := n.isLt
  have := count.isLt
  refine codes_of_layout [(0, 4, n.val), (4, 13, count.toNat)] rfl (by simp [Apart]) (by simp only [Layout.fits_cons, Layout.fits_nil, and_true]; omega)
    (by simp only [Layout.sum_cons, Layout.sum_nil]; omega) ?_
  simp [Layout.holds_cons, fin16_iff, ofNat_bits_iff]
  grind

theorem codes_mma (n : Fin 16) (k : BitVec 9) : Codes f [(0, 4), (4, 9)] [(4, bits f.mods 4 9 ≤ 256)]
    (fin16 (bits f.mods 0 4) = n ∧ BitVec.ofNat 9 (bits f.mods 4 9) = k) (decide (k.toNat ≤ 256)) (n + 16 * k.toNat) (0) := by
  have := n.isLt
  have := k.isLt
  refine codes_of_layout [(0, 4, n.val), (4, 9, k.toNat)] rfl (by simp [Apart]) (by simp only [Layout.fits_cons, Layout.fits_nil, and_true]; omega)
    (by simp only [Layout.sum_cons, Layout.sum_nil]; omega) ?_
  simp [Layout.holds_cons, fin16_iff, ofNat_bits_iff]
  grind

theorem codes_sreg (r : SReg) : Codes f [(0, 8)] [(0, (sregOf (bits f.mods 0 8)).isSome)]
    ((sregOf (bits f.mods 0 8)).getD .tid = r) true (r.code) (0) := by
  have := r.code_lt_256
  refine codes_of_layout [(0, 8, r.code)] rfl (by simp [Apart]) (by simp only [Layout.fits_cons, Layout.fits_nil, and_true]; omega)
    (by simp only [Layout.sum_cons, Layout.sum_nil]; omega) ?_
  simp [Layout.holds_cons, ← sregOf_iff]

theorem codes_trap (code : BitVec 8) : Codes f [(0, 8)] []
    (BitVec.ofNat 8 (bits f.mods 0 8) = code) true (code.toNat) (0) := by
  have := code.isLt
  refine codes_of_layout [(0, 8, code.toNat)] rfl (by simp [Apart]) (by simp only [Layout.fits_cons, Layout.fits_nil, and_true]; omega)
    (by simp only [Layout.sum_cons, Layout.sum_nil]; omega) ?_
  simp [Layout.holds_cons, ofNat_bits_iff]

theorem codes_mslot (n : Nat) (hn : n ≤ 2) : Codes f [(0, 2)] [(0, bits f.mods 0 2 ≤ 2)]
    (bits f.mods 0 2 = n) true (n) (0) := by
  have := hn
  refine codes_of_layout [(0, 2, n)] rfl (by simp [Apart]) (by simp only [Layout.fits_cons, Layout.fits_nil, and_true]; omega)
    (by simp only [Layout.sum_cons, Layout.sum_nil]; omega) ?_
  simp [Layout.holds_cons]
  rintro rfl
  exact hn

end Sys2Proof
end

section
/-! SUPPORT. The operands of an operation, and the decoder one row at a time (R108, R109, R120). -/

namespace Sys2Proof

/-- Every field has the bits of its place (R97). -/
structure Fields.Fits (f : Fields) : Prop where
  op : f.op < 2 ^ 10
  guard : f.guard < 2 ^ 8
  d : f.d < 2 ^ 10
  dt : f.dt < 2 ^ 2
  a : f.a < 2 ^ 10
  at_ : f.at_ < 2 ^ 2
  b : f.b < 2 ^ 10
  bt : f.bt < 2 ^ 2
  c : f.c < 2 ^ 10
  ct : f.ct < 2 ^ 2
  ba : f.ba < 2
  bb : f.bb < 2
  bc : f.bc < 2
  grp : f.grp < 2 ^ 3
  imm : f.imm < 2 ^ 32

/-- The operand fields are those of the operands given. -/
def Fields.Names (f : Fields) (d : Dst) (a b c : Src) : Prop :=
  (f.d = d.code ∧ f.dt = d.tag) ∧ (f.a = a.code ∧ f.at_ = a.tag ∧ f.ba = a.blk) ∧ (f.b = b.code ∧ f.bt = b.tag ∧ f.bb = b.blk) ∧
    (f.c = c.code ∧ f.ct = c.tag ∧ f.bc = c.blk)

/-- An operand that an operation does not use is code 1023 (R109). -/
def Uses4.Leaves (u : Uses4) (d : Dst) (a b c : Src) : Prop :=
  (u.d = false → d = .none) ∧ (u.a = false → a = .zero) ∧ (u.b = false → b = .zero) ∧ (u.c = false → c = .zero)

/-- The operands that an operation uses are read as given. -/
def Uses4.Reads (u : Uses4) (f : Fields) (d : Dst) (a b c : Src) : Prop :=
  (u.d = true → dstOf f.d f.dt = d) ∧ (u.a = true → srcOf f.a f.at_ f.ba = a) ∧ (u.b = true → srcOf f.b f.bt f.bb = b) ∧
    (u.c = true → srcOf f.c f.ct f.bc = c)

theorem mkFields_eq_iff {op grp imm : Nat} {g : Guard} {d : Dst} {a b c : Src} {f : Fields} :
    mkFields op g d a b c grp imm = f ↔ f.op = op ∧ f.guard = g.code ∧ f.Names d a b c ∧ f.grp = grp ∧ f.imm = imm := by
  cases f
  simp only [mkFields, Fields.mk.injEq, Fields.Names]
  constructor <;> (intro h; simp [h])

theorem stagOf_iff {n : Nat} {t : STag} : (n ≤ 3 ∧ stagOf n = t) ↔ n = t.code := code_iff (by decide) (by rintro ⟨⟩ <;> decide)

theorem dtagOf_le_iff {n : Nat} {t : DTag} : (n ≤ 3 ∧ dtagOf n = t) ↔ n = t.code := code_iff (by decide) (by rintro ⟨⟩ <;> decide)

/-- A guard field is the code of the guard that it is read as (R108). -/
theorem guardOf_iff {n : Nat} {g : Guard} : guardOf n = some g ↔ n = g.code := by
  have hp : ∀ p : Fin 64, fin64 n = p ↔ n % 64 = p.val := fun p => by rw [fin64, Fin.ext_iff, Fin.val_ofNat]
  unfold guardOf
  cases g with
  | always => simp [Guard.code]; split <;> simp
  | on p | off p =>
    have := p.isLt
    simp only [Guard.code]
    split
    · simp; omega
    · split
      · simp [hp]; omega
      · split
        · simp [hp]; omega
        · simp; omega

/-- A legal destination field is the code of the destination that it is read as, and code 1023 where the operation uses none (R109). -/
theorem dst_iff {used : Bool} {code tag : Nat} {d : Dst} (hc : code < 2 ^ 10) (ht : tag < 2 ^ 2) (hd : used = false → d = .none) :
    (dstIllegal used code tag = none ∧ (used = true → dstOf code tag = d)) ↔ (code = d.code ∧ tag = d.tag) := by
  have key : ∀ {d : Dst}, dstIllegal true code tag = none ∧ dstOf code tag = d ↔ code = d.code ∧ tag = d.tag := by
    intro d
    cases d with
    | none => simp only [dstIllegal, dstOf, Dst.code, Dst.tag]; split <;> grind
    | reg n t =>
      have := dtagOf_le_iff (n := tag) (t := t)
      have := n.isLt
      simp only [dstIllegal, dstOf, Dst.code, Dst.tag]
      split <;> grind
  cases used with
  | true => simpa using key
  | false =>
    obtain rfl := hd rfl
    rw [← key]
    simp only [dstIllegal, dstOf]; grind

/-- A legal source field is the code of the source that it is read as, and code 1023 where the operation uses none (R109). -/
theorem src_iff {used : Bool} {code tag blk field : Nat} {a : Src} (hc : code < 2 ^ 10) (ht : tag < 2 ^ 2) (hb : blk < 2) (ha : used = false → a = .zero) :
    (srcIllegal used field code tag blk = none ∧ (used = true → srcOf code tag blk = a)) ↔ (code = a.code ∧ tag = a.tag ∧ blk = a.blk) := by
  have key : ∀ {a : Src}, srcIllegal true field code tag blk = none ∧ srcOf code tag blk = a ↔ code = a.code ∧ tag = a.tag ∧ blk = a.blk := by
    intro a
    cases a with
    | reg n t b =>
      have := stagOf_iff (n := tag) (t := t)
      have := n.isLt
      have : (blk == 1) = b ↔ blk = b.toNat := by
        cases b with
        | true => simp
        | false => simp; omega
      simp only [srcIllegal, srcOf, Src.code, Src.tag, Src.blk]
      split <;> grind
    | _ => simp only [srcIllegal, srcOf, Src.code, Src.tag, Src.blk]; split <;> grind
  cases used with
  | true => simpa using key
  | false =>
    obtain rfl := ha rfl
    rw [← key]
    simp only [srcIllegal, srcOf]; grind

/-- Legal operand fields are the codes of the operands that they are read as. -/
theorem operands_iff {f : Fields} (hf : f.Fits) {u : Uses4} {d : Dst} {a b c : Src} (hl : u.Leaves d a b c) :
    (operandIllegal u f = none ∧ u.Reads f d a b c) ↔ f.Names d a b c := by
  obtain ⟨hd, ha, hb, hc⟩ := hl
  have h := dst_iff hf.d hf.dt hd
  have h1 := src_iff (field := 1) hf.a hf.at_ hf.ba ha
  have h2 := src_iff (field := 2) hf.b hf.bt hf.bb hb
  have h3 := src_iff (field := 3) hf.c hf.ct hf.bc hc
  simp only [operandIllegal, Option.or_eq_none_iff, Uses4.Reads, Fields.Names, ← h, ← h1, ← h2, ← h3]
  constructor
  · rintro ⟨⟨o, o1, o2, o3⟩, r, r1, r2, r3⟩; exact ⟨⟨o, r⟩, ⟨o1, r1⟩, ⟨o2, r2⟩, o3, r3⟩
  · rintro ⟨⟨o, r⟩, ⟨o1, r1⟩, ⟨o2, r2⟩, o3, r3⟩; exact ⟨⟨o, o1, o2, o3⟩, r, r1, r2, r3⟩

theorem decodeOp_eq_ok {f : Fields} {i : Instr} : decodeOp f = .ok i ↔
    ∃ u g, usesOf f = some u ∧ guardOf f.guard = some g ∧ operandIllegal u f = none ∧ buildOf g f = .ok i := by
  unfold decodeOp
  cases hu : usesOf f with
  | none => simp
  | some u =>
    cases hg : guardOf f.guard with
    | none => simp
    | some g =>
      cases ho : operandIllegal u f with
      | none => cases hb : buildOf g f <;> simp [ho, hb]
      | some d => simp [ho]

/-- What a row gives has the opcode of the row's operation. -/
theorem opcode_of_modRow {x n : Nat} {named : List (Nat × Nat)} {checks : List (Nat × Bool)} {i j : Instr} (hj : Machine.opcodeOf j = n)
    (h : modRow x named checks j = .ok i) : Machine.opcodeOf i = n := by
  obtain rfl := (modRow_eq_ok.1 h).2
  exact hj

theorem buildControl_opcode {n : Nat} {g : Guard} {f : Fields} {x : Nat} {i : Instr} (h : buildControl n g f x = .ok i) : Machine.opcodeOf i = n := by
  unfold buildControl at h
  split at h
  pick_goal -1
  · cases h
  all_goals exact opcode_of_modRow rfl h

theorem buildInteger_opcode {n : Nat} {g : Guard} {f : Fields} {x : Nat} {i : Instr} (h : buildInteger n g f x = .ok i) : Machine.opcodeOf i = 128 + n := by
  unfold buildInteger at h
  split at h
  pick_goal -1
  · cases h
  all_goals exact opcode_of_modRow rfl h

theorem buildFloating_opcode {n : Nat} {g : Guard} {f : Fields} {x : Nat} {i : Instr} (h : buildFloating n g f x = .ok i) : Machine.opcodeOf i = 256 + n := by
  unfold buildFloating at h
  split at h
  pick_goal -1
  · cases h
  all_goals exact opcode_of_modRow rfl h

theorem buildLane_opcode {n : Nat} {g : Guard} {f : Fields} {x : Nat} {i : Instr} (h : buildLane n g f x = .ok i) : Machine.opcodeOf i = 384 + n := by
  unfold buildLane at h
  split at h
  pick_goal -1
  · cases h
  all_goals exact opcode_of_modRow rfl h

theorem buildModular_opcode {n : Nat} {g : Guard} {f : Fields} {x : Nat} {i : Instr} (h : buildModular n g f x = .ok i) : Machine.opcodeOf i = 512 + n := by
  unfold buildModular at h
  split at h
  pick_goal -1
  · cases h
  all_goals exact opcode_of_modRow rfl h

theorem nbcast_opcode (g : Guard) (form : BForm) (b : Src) : Machine.opcodeOf (.nbcast g form b) = 0x2c1 := by cases form <;> rfl

theorem buildMemory_opcode {n : Nat} {g : Guard} {f : Fields} {x : Nat} {i : Instr} (h : buildMemory n g f x = .ok i) : Machine.opcodeOf i = 640 + n := by
  unfold buildMemory at h
  split at h
  pick_goal -1
  · cases h
  case h_20 => exact opcode_of_modRow (nbcast_opcode ..) h
  all_goals exact opcode_of_modRow rfl h

theorem buildMatrix_opcode {n : Nat} {g : Guard} {f : Fields} {x : Nat} {i : Instr} (h : buildMatrix n g f x = .ok i) : Machine.opcodeOf i = 768 + n := by
  unfold buildMatrix at h
  split at h
  pick_goal -1
  · cases h
  case h_8 =>
    refine opcode_of_modRow ?_ h
    split
    · rfl
    · split <;> rfl
  all_goals exact opcode_of_modRow rfl h

theorem buildSystem_opcode {n : Nat} {g : Guard} {f : Fields} {x : Nat} {i : Instr} (h : buildSystem n g f x = .ok i) : Machine.opcodeOf i = 896 + n := by
  unfold buildSystem at h
  split at h
  pick_goal -1
  · cases h
  case h_13 =>
    refine opcode_of_modRow ?_ h
    split <;> rfl
  all_goals exact opcode_of_modRow rfl h

theorem decodeOp_opcode {f : Fields} {i : Instr} (hf : f.op < 2 ^ 10) (h : decodeOp f = .ok i) : f.op = Machine.opcodeOf i := by
  obtain ⟨u, g, -, -, -, hb⟩ := decodeOp_eq_ok.1 h
  unfold buildOf at hb
  simp only at hb
  split at hb
  · have := buildControl_opcode hb; omega
  · have := buildInteger_opcode hb; omega
  · have := buildFloating_opcode hb; omega
  · have := buildLane_opcode hb; omega
  · have := buildModular_opcode hb; omega
  · have := buildMemory_opcode hb; omega
  · have := buildMatrix_opcode hb; omega
  · next h0 h1 h2 h3 h4 h5 h6 =>
    have := buildSystem_opcode hb
    have h7 : f.op / 128 = 7 := by
      have : f.op / 128 < 8 := by omega
      generalize f.op / 128 = k at *
      interval_cases k <;> simp_all
    omega

/-- One row of the decoder: where the modifiers of an operation are legal exactly as its codes, and its operands and its guard are read as they stand, the
decoder gives the operation exactly for its own fields. -/
theorem decodeOp_row {f : Fields} {i : Instr} {g : Guard} {d : Dst} {a b c : Src} {grp imm op : Nat} {named : List (Nat × Nat)} {checks : List (Nat × Bool)}
    {P : Prop} (hf : f.Fits) (hfit : Laws.FieldsFit.Statement i) (u : Uses4)
    (hm : f.Names d a b c → u.Leaves d a b c → Codes f named checks P i.wf imm grp)
    (hi : fieldsOf i = some (mkFields op g d a b c grp imm))
    (hl : operandIllegal u f = none → P → u.Leaves d a b c := by simp [Uses4.Leaves])
    (hl' : i.wf = true → f.grp = grp → f.imm = imm → u.Leaves d a b c := by simp [Uses4.Leaves])
    (hu : f.op = op → usesOf f = some u := by
      intro h
      simp only [usesOf.eq_def, usesControl.eq_def, usesInteger.eq_def, usesFloating.eq_def, usesLane.eq_def, usesModular.eq_def, usesMemory.eq_def,
        usesMatrix.eq_def, usesSystem.eq_def, h, Nat.reduceMod, Nat.reduceDiv])
    (hb : f.op = op → ∀ g', buildOf g' f = .ok i ↔ g' = g ∧ u.Reads f d a b c ∧ ModsLegal f.mods named checks ∧ P := by
      intro h g'
      simp only [buildOf.eq_def, buildControl.eq_def, buildInteger.eq_def, buildFloating.eq_def, buildLane.eq_def, buildModular.eq_def, buildMemory.eq_def,
        buildMatrix.eq_def, buildSystem.eq_def, h, Nat.reduceMod, Nat.reduceDiv, modRow_eq_ok, Uses4.Reads, Fields.mods]
      grind) :
    decodeOp f = .ok i ↔ i.wf = true ∧ fieldsOf i = some f := by
  have hop : Machine.opcodeOf i = op := by simp [Machine.opcodeOf, hi, mkFields]
  have himm : imm < 2 ^ 32 := (hfit _ hi).2
  have hmods : f.mods = imm + 2 ^ 32 * grp ↔ f.grp = grp ∧ f.imm = imm := by
    have := hf.imm
    simp only [Fields.mods]
    omega
  rw [hi, Option.some_inj, mkFields_eq_iff]
  constructor
  · intro h
    have hfo := (decodeOp_opcode hf.op h).trans hop
    obtain ⟨u', g', hu', hg, ho, hbuild⟩ := decodeOp_eq_ok.1 h
    obtain rfl : u' = u := by rw [hu hfo] at hu'; exact (Option.some.inj hu').symm
    obtain ⟨rfl, hr, hlegal, hP⟩ := (hb hfo g').1 hbuild
    have hleaves := hl ho hP
    have hnames := (operands_iff hf hleaves).1 ⟨ho, hr⟩
    obtain ⟨hw, hx⟩ := (hm hnames hleaves).1 ⟨hlegal, hP⟩
    exact ⟨hw, hfo, (guardOf_iff).1 hg, hnames, hmods.1 hx⟩
  · rintro ⟨hw, hfo, hg, hnames, hgrp, himm'⟩
    have hleaves := hl' hw hgrp himm'
    obtain ⟨ho, hr⟩ := (operands_iff hf hleaves).2 hnames
    obtain ⟨hlegal, hP⟩ := (hm hnames hleaves).2 ⟨hw, hmods.2 ⟨hgrp, himm'⟩⟩
    exact decodeOp_eq_ok.2 ⟨u, g, hu hfo, (guardOf_iff).2 hg, ho, (hb hfo g).2 ⟨rfl, hr, hlegal, hP⟩⟩

end Sys2Proof
end

section
/-! SUPPORT. The words that may hold a literal (R24, R110): the immediate stands where a source names the literal, and is 0 elsewhere. -/

namespace Sys2Proof

variable {f : Fields} {d : Dst} {a b c : Src}

theorem Src.code_eq_literal (a : Src) : (a.code == 1022) = a.isLit := by
  cases a with
  | reg n t b => simpa [Src.code, Src.isLit] using Nat.ne_of_lt (n.isLt.trans (by decide))
  | _ => rfl

theorem Fields.Names.lit1 (h : f.Names d a b c) : (f.a == 1022) = [a].any Src.isLit := by
  simp [h.2.1.1, ← Src.code_eq_literal]

theorem Fields.Names.lit2 (h : f.Names d a b c) : (f.a == 1022 || f.b == 1022) = [a, b].any Src.isLit := by
  simp [h.2.1.1, h.2.2.1.1, ← Src.code_eq_literal]

theorem Fields.Names.lit3 (h : f.Names d a b c) : (f.a == 1022 || f.b == 1022 || f.c == 1022) = [a, b, c].any Src.isLit := by
  simp [h.2.1.1, h.2.2.1.1, h.2.2.2.1, ← Src.code_eq_literal, Bool.or_assoc]

/-- A word whose modifiers lie in its group, and whose immediate is a literal or 0. -/
theorem codes_lit {l : Layout} {named : List (Nat × Nat)} {P : Prop} {grp : Nat} {lit lit' : Bool} (hlit : lit = lit') (imm : Word) (hn : l.named = named)
    (hd : named.Pairwise Apart) (hhigh : ∀ p ∈ named, 32 ≤ p.1) (hf : l.Fits) (hs : l.sum = 2 ^ 32 * grp) (hP : P ↔ l.Holds f.mods) :
    Codes f (named ++ if lit = true then [(0, 32)] else []) [] (P ∧ BitVec.ofNat 32 f.imm = imm) (lit' || imm == 0) imm.toNat grp := by
  subst hlit hn
  cases lit with
  | true =>
    refine codes_of_layout (l ++ [(0, 32, imm.toNat)]) (by simp [Layout.named]) ?_ ?_ ?_ ?_
    · exact List.pairwise_append.2 ⟨hd, by simp, fun p hp q hq => by simp at hq; subst hq; exact .inr (hhigh p hp)⟩
    · exact fun p hp => (List.mem_append.1 hp).elim (hf p) (fun h => by simp at h; subst h; exact imm.isLt)
    · simp only [Layout.sum] at hs; simp [Layout.sum, hs, Nat.add_comm]
    · simp [Layout.Holds, ofNat_imm_iff, hP, or_imp, forall_and]
  | false =>
    have hz : (BitVec.ofNat 32 f.imm).toNat = f.mods % 2 ^ 32 := by simp [Fields.mods]
    have hx : (clearFields f.mods l.named = 0 ∧ l.Holds f.mods) ↔ f.mods = 2 ^ 32 * grp := by rw [cleared_iff l _ hd, hs]; simp [hf]
    simp only [Codes, ModsLegal, Bool.false_eq_true, if_false, List.append_nil, List.not_mem_nil, IsEmpty.forall_iff, implies_true, and_true, Bool.false_or,
      beq_iff_eq, hP]
    constructor
    · rintro ⟨hc, hh, rfl⟩
      have h := hx.1 ⟨hc, hh⟩
      have h0 : BitVec.ofNat 32 f.imm = 0 := BitVec.eq_of_toNat_eq (by rw [hz, h]; simp)
      exact ⟨h0, by rw [h0, h]; simp⟩
    · rintro ⟨rfl, h⟩
      have h' : f.mods = 2 ^ 32 * grp := by simpa using h
      exact ⟨(hx.2 h').1, (hx.2 h').2, BitVec.eq_of_toNat_eq (by rw [hz, h']; simp)⟩

section
variable {lit lit' : Bool} (h : lit = lit') (imm : Word)
include h

theorem codes_lit_none : Codes f ([] ++ if lit = true then [(0, 32)] else []) [] (True ∧ BitVec.ofNat 32 f.imm = imm) (lit' || imm == 0) imm.toNat 0 :=
  codes_lit (l := []) h imm rfl (by simp) (by simp) (by simp) rfl (by simp)

theorem codes_lit_w (w : Bool) : Codes f ([(32, 1)] ++ if lit = true then [(0, 32)] else []) []
    ((flag f.mods 32 = w) ∧ BitVec.ofNat 32 f.imm = imm) (lit' || imm == 0) imm.toNat (w.toNat) := by
  have := w.toNat_lt
  exact codes_lit (l := [(32, 1, w.toNat)]) h imm rfl (by simp [Apart]) (by simp) (by simp only [Layout.fits_cons, Layout.fits_nil, and_true]; omega)
    (by simp only [Layout.sum_cons, Layout.sum_nil]; omega) (by simp [Layout.holds_cons, flag_iff])

theorem codes_lit_uns (uns : Bool) : Codes f ([(33, 1)] ++ if lit = true then [(0, 32)] else []) []
    ((flag f.mods 33 = uns) ∧ BitVec.ofNat 32 f.imm = imm) (lit' || imm == 0) imm.toNat (2 * uns.toNat) := by
  have := uns.toNat_lt
  exact codes_lit (l := [(33, 1, uns.toNat)]) h imm rfl (by simp [Apart]) (by simp) (by simp only [Layout.fits_cons, Layout.fits_nil, and_true]; omega)
    (by simp only [Layout.sum_cons, Layout.sum_nil]; omega) (by simp [Layout.holds_cons, flag_iff])

theorem codes_lit_w_uns (w uns : Bool) : Codes f ([(32, 1), (33, 1)] ++ if lit = true then [(0, 32)] else []) []
    ((flag f.mods 32 = w ∧ flag f.mods 33 = uns) ∧ BitVec.ofNat 32 f.imm = imm) (lit' || imm == 0) imm.toNat (w.toNat + 2 * uns.toNat) := by
  have := w.toNat_lt
  have := uns.toNat_lt
  exact codes_lit (l := [(32, 1, w.toNat), (33, 1, uns.toNat)]) h imm rfl (by simp [Apart]) (by simp) (by simp only [Layout.fits_cons, Layout.fits_nil, and_true]; omega)
    (by simp only [Layout.sum_cons, Layout.sum_nil]; omega) (by simp [Layout.holds_cons, flag_iff])

theorem codes_lit_w_sat (w sat : Bool) : Codes f ([(32, 1), (34, 1)] ++ if lit = true then [(0, 32)] else []) []
    ((flag f.mods 32 = w ∧ flag f.mods 34 = sat) ∧ BitVec.ofNat 32 f.imm = imm) (lit' || imm == 0) imm.toNat (w.toNat + 4 * sat.toNat) := by
  have := w.toNat_lt
  have := sat.toNat_lt
  exact codes_lit (l := [(32, 1, w.toNat), (34, 1, sat.toNat)]) h imm rfl (by simp [Apart]) (by simp) (by simp only [Layout.fits_cons, Layout.fits_nil, and_true]; omega)
    (by simp only [Layout.sum_cons, Layout.sum_nil]; omega) (by simp [Layout.holds_cons, flag_iff])

theorem codes_lit_uns_sat (uns sat : Bool) : Codes f ([(33, 1), (34, 1)] ++ if lit = true then [(0, 32)] else []) []
    ((flag f.mods 33 = uns ∧ flag f.mods 34 = sat) ∧ BitVec.ofNat 32 f.imm = imm) (lit' || imm == 0) imm.toNat (2 * uns.toNat + 4 * sat.toNat) := by
  have := uns.toNat_lt
  have := sat.toNat_lt
  exact codes_lit (l := [(33, 1, uns.toNat), (34, 1, sat.toNat)]) h imm rfl (by simp [Apart]) (by simp) (by simp only [Layout.fits_cons, Layout.fits_nil, and_true]; omega)
    (by simp only [Layout.sum_cons, Layout.sum_nil]; omega) (by simp [Layout.holds_cons, flag_iff])

theorem codes_lit_imod (m : IMod) : Codes f ([(32, 1), (33, 1), (34, 1)] ++ if lit = true then [(0, 32)] else []) []
    ((imodOf f.mods = m) ∧ BitVec.ofNat 32 f.imm = imm) (lit' || imm == 0) imm.toNat (m.code) := by
  have := m.w.toNat_lt
  have := m.uns.toNat_lt
  have := m.sat.toNat_lt
  exact codes_lit (l := [(32, 1, m.w.toNat), (33, 1, m.uns.toNat), (34, 1, m.sat.toNat)]) h imm rfl (by simp [Apart]) (by simp) (by simp only [Layout.fits_cons, Layout.fits_nil, and_true]; omega)
    (by simp only [Layout.sum_cons, Layout.sum_nil, IMod.code]; omega) (by simp [Layout.holds_cons, imodOf_iff])

end

/-- The group and the immediate of every operation's word take what its encoding puts there. -/
theorem fieldsFit (i : Instr) : Laws.FieldsFit.Statement i := by
  open Laws.FieldsFit in
  exact Instr.casesOn i bra brx call callx ret reform exit nop yield drain mov movi movh sel iadd isub iaddc isubb imul imulh imad imadw imin imax iabs
    ineg idiff icmp iset and or xor not tlog shl shr sar fshl fshr rot popc clz ctz brev bfx bfi bytep lea pand por pxor pnot pmov pset pget fadd fsub
    fmul ffma fmin fmax fcmp fclass fdiv fsqrt frcp frsq fexp2 flog2 fsin fcos ftanh fscale frnd fcvt icvt fcvti kdec xshf xbcast xvote xballot xpfx xred
    xscan xslide xcmpr xexpd xtbl qset qget maddq msubq mnegq mmulq mmacq mredq mpowq bfly ibfly xbfly xibfly ld st stm lds sts stsm pref atom atoms redm
    fence bar bara barw copy copym feq feset nred nbcast merge ldrop lrank mdecl moprdy mma mwait mrel mlda msta mslotAlloc mslotCnt mslotZero srr srw
    setw spawn launch round trap eret swapc objw objq icinv xlinvRng xlinvAll producerCompletion poolDraw wellAgeExpiry translationInstall
    copyCommandStart copyCommandComplete matrixOpStart matrixOpComplete doorbell launchStart waitConditionReread blockAdmit pondRelease launchComplete
    roundCommit contextPreempt contextResume parkedReplay parkedReplayTimer invalidationAck stuckBlock reservoirDeadlock faultQueueRetry
    haltBroadcastArrival uncorrectableError coreError linkFailure collectivePost collectiveComplete collectiveTimeout go pstateWrite shootdownRange
    shootdownAll flushWriteback flushInvalidate flushComplete mailboxImageChunk mailboxAttestation hostWindowAccess registerWrite powerOn moduleReset
    powerRemove peerAccess accessPerformed l2ModeChange managementPortAttestation ageUpdate

end Sys2Proof
end

section
/-! O17 and O18, the decoder and the encoder, one row of the opcode table after the other (R97, R120). -/

namespace Sys2Proof

/-- The decoder reads the operation from fields exactly where they are the operation's own, and the operation is well-formed. -/
def Row (i : Instr) : Prop := ∀ f : Fields, f.Fits → (decodeOp f = .ok i ↔ i.wf = true ∧ fieldsOf i = some f)

/-- A row whose operation uses the same operand fields in every word. -/
theorem row {i : Instr} {g : Guard} {d : Dst} {a b c : Src} {grp imm op : Nat} {named : Fields → List (Nat × Nat)} {checks : Fields → List (Nat × Bool)}
    {P : Fields → Prop} (u : Uses4) (hm : ∀ f : Fields, f.Names d a b c → u.Leaves d a b c → Codes f (named f) (checks f) (P f) i.wf imm grp)
    (hi : fieldsOf i = some (mkFields op g d a b c grp imm)) (hl : u.Leaves d a b c := by simp [Uses4.Leaves])
    (hu : ∀ f : Fields, f.op = op → usesOf f = some u := by
      intro f h
      simp only [usesOf.eq_def, usesControl.eq_def, usesInteger.eq_def, usesFloating.eq_def, usesLane.eq_def, usesModular.eq_def, usesMemory.eq_def,
        usesMatrix.eq_def, usesSystem.eq_def, h, Nat.reduceMod, Nat.reduceDiv])
    (hb : ∀ f : Fields, f.op = op → ∀ g', buildOf g' f = .ok i ↔ g' = g ∧ u.Reads f d a b c ∧ ModsLegal f.mods (named f) (checks f) ∧ P f := by
      intro f h g'
      simp only [buildOf.eq_def, buildControl.eq_def, buildInteger.eq_def, buildFloating.eq_def, buildLane.eq_def, buildModular.eq_def, buildMemory.eq_def,
        buildMatrix.eq_def, buildSystem.eq_def, h, Nat.reduceMod, Nat.reduceDiv, modRow_eq_ok, Uses4.Reads, Fields.mods]
      grind) : Row i :=
  fun f hf => decodeOp_row hf (fieldsFit i) u (hm f) hi (fun _ _ => hl) (fun _ _ _ => hl) (hu f) (hb f)

theorem Fields.testBit_imm (f : Fields) {i : Nat} (h : i < 32) : f.imm.testBit i = f.mods.testBit i := by
  have key (x : Nat) : x.testBit i = (x % 2 ^ 32).testBit i := by rw [Nat.testBit_mod_two_pow]; simp [h]
  rw [key f.imm, key f.mods, Fields.mods, Nat.add_mul_mod_self_left]

theorem Fields.flag_imm (f : Fields) {i : Nat} (h : i < 32) : flag f.imm i = flag f.mods i := f.testBit_imm h

theorem Fields.bits_imm (f : Fields) {lo n : Nat} (h : lo + n ≤ 32) : bits f.imm lo n = bits f.mods lo n := by
  apply Nat.eq_of_testBit_eq
  intro k
  by_cases hk : k < n
  · simpa [bits, Nat.testBit_mod_two_pow, Nat.testBit_shiftRight, hk] using f.testBit_imm (show lo + k < 32 by omega)
  · simp [bits, Nat.testBit_mod_two_pow, hk]

theorem Fields.flag_imm_one (f : Fields) : flag f.imm 1 = decide (2 ≤ bits f.mods 0 2) := by
  have h : flag f.mods 1 = flag (bits f.mods 0 2) 1 := by rw [flag, flag, bits, Nat.testBit_mod_two_pow]; simp
  have := bits_lt f.mods 0 2
  rw [f.flag_imm (by decide), h]
  generalize bits f.mods 0 2 = n at *
  interval_cases n <;> rfl

theorem codes_mslot_zero (f : Fields) : Codes f [(0, 2)] [(0, bits f.mods 0 2 ≤ 2)] (2 ≤ bits f.mods 0 2) true 2 0 := by
  refine Iff.trans (and_congr_right fun hm => ?_) (codes_mslot f 2 le_rfl)
  have : bits f.mods 0 2 ≤ 2 := by simpa using hm.2
  omega

/-- What the modifiers say of a layered name (R201, R202). -/
def LName.Stands (f : Fields) : LName → Prop
  | .src _ => flag f.mods 21 = false
  | .slot k => flag f.mods 21 = true ∧ fin8 (bits f.mods 32 3) = k

/-- A row whose modifiers say which operand fields its words use. -/
theorem row_form {i : Instr} {g : Guard} {d : Dst} {a b c : Src} {grp imm op : Nat} {named : Fields → List (Nat × Nat)} {checks : Fields → List (Nat × Bool)}
    {P : Fields → Prop} (u : Fields → Uses4) (hm : ∀ f : Fields, Codes f (named f) (checks f) (P f) i.wf imm grp)
    (hl : ∀ f : Fields, P f → (u f).Leaves d a b c) (hi : fieldsOf i = some (mkFields op g d a b c grp imm))
    (hu : ∀ f : Fields, f.op = op → usesOf f = some (u f) := by
      intro f h
      simp only [usesOf.eq_def, usesMemory.eq_def, usesMatrix.eq_def, usesSystem.eq_def, h, Nat.reduceMod, Nat.reduceDiv])
    (hb : ∀ f : Fields, f.op = op → ∀ g', buildOf g' f = .ok i ↔ g' = g ∧ (u f).Reads f d a b c ∧ ModsLegal f.mods (named f) (checks f) ∧ P f := by
      intro f h g'
      have h0 := f.flag_imm (i := 0) (by decide)
      have h1 := f.flag_imm_one
      have h21 := f.flag_imm (i := 21) (by decide)
      simp only [buildOf.eq_def, buildMemory.eq_def, buildMatrix.eq_def, buildSystem.eq_def, h, Nat.reduceMod, Nat.reduceDiv, modRow_eq_ok, Uses4.Reads,
        ← Fields.mods.eq_def, LName.Stands, LName.parts]
      grind) : Row i :=
  fun f hf => decodeOp_row hf (fieldsFit i) (u f) (fun _ _ => hm f) hi (fun _ hP => hl f hP)
    (fun hw hg hx => hl f ((hm f).2 ⟨hw, by rw [Fields.mods, hg, hx]⟩).2) (hu f) (hb f)

/-- A row whose third source stands only where its modifiers say so; elsewhere it is code 1023. -/
theorem row_optional {i : Instr} {g : Guard} {d : Dst} {a b c : Src} {grp imm op : Nat} {named : Fields → List (Nat × Nat)}
    {checks : Fields → List (Nat × Bool)} {P : Fields → Prop} {ok x ud : Bool} (uses : Fields → Bool)
    (hm : ∀ f : Fields, Codes f (named f) (checks f) (P f) ok imm grp) (hx : ∀ f, P f → uses f = x) (hw : i.wf = (ok && (x || c.isZero)))
    (hi : fieldsOf i = some (mkFields op g d a b c grp imm)) (hd : ud = false → d = .none := by simp)
    (hu : ∀ f : Fields, f.op = op → usesOf f = some ⟨ud, true, true, uses f⟩ := by
      intro f h
      simp only [usesOf.eq_def, usesMemory.eq_def, h, Nat.reduceMod, Nat.reduceDiv])
    (hb : ∀ f : Fields, f.op = op → ∀ g', buildOf g' f = .ok i ↔
        g' = g ∧ Uses4.Reads ⟨ud, true, true, true⟩ f d a b c ∧ ModsLegal f.mods (named f) (checks f) ∧ P f := by
      intro f h g'
      simp only [buildOf.eq_def, buildMemory.eq_def, h, Nat.reduceMod, Nat.reduceDiv, modRow_eq_ok, Uses4.Reads, ← Fields.mods.eq_def]
      grind) : Row i := by
  intro f hf
  have hzero : c.isZero = true → c = .zero := by cases c <;> simp [Src.isZero]
  have hleaves (hc : uses f = false → c = .zero) : (Uses4.mk ud true true (uses f)).Leaves d a b c := by simpa [Uses4.Leaves] using ⟨hd, hc⟩
  refine decodeOp_row (named := named f) (checks := checks f) hf (fieldsFit i) _ (P := P f ∧ srcOf f.c f.ct f.bc = c) (fun hn hl => ?_) hi (fun ho hP => hleaves fun hc => ?_)
    (fun hw' hg hx' => hleaves fun hc => ?_) (hu f) (fun h g' => ?_)
  · have hsrc := ((src_iff (used := true) (field := 3) hf.c hf.ct hf.bc (by simp)).2 hn.2.2.2).2 rfl
    have huses (hP : P f) : (x || c.isZero) = true := by
      cases hc : uses f with
      | true => simp [← hx f hP, hc]
      | false => simp [hl.2.2.2 hc, Src.isZero]
    have := hm f
    simp only [Codes, hw, hsrc, and_true, Bool.and_eq_true] at this ⊢
    exact ⟨fun h => ⟨⟨(this.1 h).1, huses h.2⟩, (this.1 h).2⟩, fun h => this.2 ⟨h.1.1, h.2⟩⟩
  · rw [← hP.2]
    simp only [operandIllegal, Option.or_eq_none_iff, hc, srcIllegal] at ho
    have h1023 : f.c = 1023 := by grind
    simp [srcOf, h1023]
  · simp only [hw, Bool.and_eq_true, Bool.or_eq_true] at hw'
    have hP := ((hm f).2 ⟨hw'.1, by rw [Fields.mods, hg, hx']⟩).2
    exact hzero (hw'.2.resolve_left (by simp [← hx f hP, hc]))
  · rw [hb f h g']
    simp only [Uses4.Reads, forall_const]
    grind

theorem atomOpOf_beq_cas (n : Nat) : (atomOpOf n == .cas) = (n == 7) := by
  unfold atomOpOf
  split <;> simp_all

theorem copyDirOf_object (x : Nat) : flag x 1 = (copyDirOf (bits x 0 2) == .o2s || copyDirOf (bits x 0 2) == .s2o) := by
  have h : flag x 1 = flag (bits x 0 2) 1 := by rw [flag, flag, bits, Nat.testBit_mod_two_pow]; simp
  have := bits_lt x 0 2
  rw [h]
  generalize bits x 0 2 = n at *
  interval_cases n <;> rfl

theorem LName.Stands.src_stands {f : Fields} {s : Src} (h : LName.Stands f (.src s)) : flag f.imm 21 = false := by rwa [f.flag_imm (by decide)]

theorem LName.Stands.slot_stands {f : Fields} {k : Fin 8} (h : LName.Stands f (.slot k)) : flag f.imm 21 = true := by
  rw [f.flag_imm (by decide)]; exact h.1

/-- Where the modifiers hold a layered name. -/
def LName.layout : LName → Layout
  | .src _ => [(21, 1, 0)]
  | .slot k => [(21, 1, 1), (32, 3, k.val)]

theorem LName.stands_iff {f : Fields} (a : LName) : a.Stands f ↔ a.layout.Holds f.mods := by
  cases a with
  | src s => simp [LName.Stands, LName.layout, Layout.holds_cons, flag_iff]
  | slot k => simp [LName.Stands, LName.layout, Layout.holds_cons, flag_iff, fin8_iff]

theorem LName.layout_fits (a : LName) : a.layout.Fits := by
  cases a with
  | src s => simp [LName.layout, Layout.fits_cons]
  | slot k => simp [LName.layout, Layout.fits_cons]

theorem LName.layout_sum (a : LName) : a.layout.sum = a.parts.2.2 + 2 ^ 32 * a.parts.2.1 := by
  cases a with
  | src s => simp [LName.layout, Layout.sum_cons, LName.parts]
  | slot k => simp [LName.layout, Layout.sum_cons, LName.parts, Nat.mul_comm]

theorem LName.layout_named_sublist (a : LName) : a.layout.named.Sublist [(21, 1), (32, 3)] := by
  cases a <;> simp [LName.layout, Layout.named]

theorem LName.Stands.named_eq {f : Fields} {a : LName} (h : a.Stands f) : [(21, 1)] ++ (if flag f.mods 21 = true then [(32, 3)] else []) = a.layout.named := by
  cases a with
  | src s => rw [show flag f.mods 21 = false from h]; rfl
  | slot k => rw [h.1]; rfl

/-- The modifiers of a word with a layered name: its own below bit 21, and the name. -/
theorem codes_name {f : Fields} {named : List (Nat × Nat)} {checks : List (Nat × Bool)} {P : Prop} {ok : Bool} {imm : Nat} (a : LName) (l : Layout)
    (hn : l.named = named) (hd : (named ++ [(21, 1), (32, 3)]).Pairwise Apart) (hf : l.Fits) (hs : l.sum = imm)
    (hP : a.Stands f → ((∀ c ∈ checks, c.2 = true) ∧ P ↔ ok = true ∧ l.Holds f.mods)) :
    Codes f (named ++ [(21, 1)] ++ if flag f.mods 21 = true then [(32, 3)] else []) checks (P ∧ a.Stands f) ok (imm + a.parts.2.2) a.parts.2.1 := by
  subst hn hs
  have key : Codes f (l.named ++ a.layout.named) checks (P ∧ a.Stands f) ok (l.sum + a.parts.2.2) a.parts.2.1 := by
    refine codes_of_layout (l ++ a.layout) (by simp [Layout.named]) (hd.sublist (a.layout_named_sublist.append_left _)) ?_ ?_ ?_
    · exact List.forall_mem_append.2 ⟨hf, a.layout_fits⟩
    · have := a.layout_sum
      simp only [Layout.sum, List.map_append, List.sum_append] at this ⊢
      omega
    · rw [← and_assoc, Layout.Holds, List.forall_mem_append, a.stands_iff, ← and_assoc]
      exact and_congr_left fun h => hP (a.stands_iff.2 h)
  by_cases ha : a.Stands f
  · rwa [List.append_assoc, ha.named_eq]
  · simp only [Codes, ha, and_false] at key ⊢
    exact key

theorem codes_nbcast_src (f : Fields) (s : Src) (pair : Bool) :
    Codes f ([(0, 1), (21, 1)] ++ if flag f.mods 21 = true then [(32, 3)] else []) [(0, !(flag f.mods 0 && flag f.mods 21))]
      (flag f.mods 0 = pair ∧ LName.Stands f (.src s)) true pair.toNat 0 := by
  have := pair.toNat_lt
  refine codes_name (named := [(0, 1)]) (imm := pair.toNat) (.src s) [(0, 1, pair.toNat)] rfl (by simp [Apart]) (by simpa [Layout.fits_cons] using this)
    (by simp [Layout.sum_cons]) fun ha => ?_
  simp [show flag f.mods 21 = false from ha, Layout.holds_cons, ← flag_iff]

theorem codes_nbcast_slot (f : Fields) (k : Fin 8) :
    Codes f ([(0, 1), (21, 1)] ++ if flag f.mods 21 = true then [(32, 3)] else []) [(0, !(flag f.mods 0 && flag f.mods 21))]
      (True ∧ LName.Stands f (.slot k)) true 2097152 k := by
  rw [← Nat.zero_add 2097152]
  refine codes_name (named := [(0, 1)]) (.slot k) [(0, 1, 0)] rfl (by simp [Apart]) (by simp [Layout.fits_cons]) (by simp [Layout.sum_cons]) fun ha => ?_
  simp [ha.1, Layout.holds_cons, flag_eq_false]

theorem codes_ldrop (f : Fields) (a : LName) (pd : Bool) :
    Codes f ([(0, 1), (21, 1)] ++ if flag f.mods 21 = true then [(32, 3)] else []) [] (flag f.mods 0 = pd ∧ a.Stands f) true
      (pd.toNat + a.parts.2.2) a.parts.2.1 := by
  have := pd.toNat_lt
  refine codes_name (named := [(0, 1)]) a [(0, 1, pd.toNat)] rfl (by simp [Apart]) (by simpa [Layout.fits_cons] using this) (by simp [Layout.sum_cons]) fun ha => ?_
  simp [Layout.holds_cons, ← flag_iff]

theorem codes_lrank (f : Fields) (a : LName) :
    Codes f ([(21, 1)] ++ if flag f.mods 21 = true then [(32, 3)] else []) [] (True ∧ a.Stands f) true a.parts.2.2 a.parts.2.1 := by
  rw [← Nat.zero_add a.parts.2.2]
  exact codes_name (named := []) a [] rfl (by simp [Apart]) (by simp) rfl fun _ => by simp

/-- Where the modifiers of a MERGE hold its policy, beside its two predicates' fields (R201). -/
def mergeLayout (pd p kind op uns ty rm ftz : Nat) : Layout :=
  [(0, 1, pd), (1, 2, kind), (3, 3, op), (6, 1, uns), (8, 6, p), (14, 3, ty), (17, 3, rm), (20, 1, ftz)]

theorem codes_mergeLayout {f : Fields} {checks : List (Nat × Bool)} {P : Prop} {ok : Bool} {imm : Nat} (a : LName) (pd p kind op uns ty rm ftz : Nat)
    (hf : (mergeLayout pd p kind op uns ty rm ftz).Fits) (hs : (mergeLayout pd p kind op uns ty rm ftz).sum = imm)
    (hP : flag f.mods 21 = (match a with | .src _ => false | .slot _ => true) →
      ((∀ c ∈ checks, c.2 = true) ∧ P ↔ ok = true ∧ (mergeLayout pd p kind op uns ty rm ftz).Holds f.mods)) :
    Codes f ([(0, 1), (1, 2), (3, 3), (6, 1), (8, 6), (14, 3), (17, 3), (20, 1), (21, 1)] ++ if flag f.mods 21 = true then [(32, 3)] else [])
      checks (P ∧ a.Stands f) ok (imm + a.parts.2.2) a.parts.2.1 := by
  refine codes_name (named := [(0, 1), (1, 2), (3, 3), (6, 1), (8, 6), (14, 3), (17, 3), (20, 1)]) a _ rfl (by simp [Apart]) hf hs fun ha => hP ?_
  cases a with
  | src s => exact ha
  | slot k => exact ha.1

theorem codes_merge (f : Fields) (a : LName) (pd : Bool) (policy : Policy) (p : Fin 64) :
    Codes f ([(0, 1), (1, 2), (3, 3), (6, 1), (8, 6), (14, 3), (17, 3), (20, 1), (21, 1)] ++ if flag f.mods 21 = true then [(32, 3)] else [])
      (mergeChecks f.mods) ((flag f.mods 0 = pd ∧ policyOf f.mods = policy ∧ fin64 (bits f.mods 8 6) = p) ∧ a.Stands f)
      (policy.ok && mergeFormOk policy a) (pd.toNat + policy.code + 256 * p + a.parts.2.2) a.parts.2.1 := by
  have := pd.toNat_lt
  have := p.isLt
  have hkind := bits_lt f.mods 1 2
  cases policy with
  | chk =>
    refine codes_mergeLayout a pd.toNat p.val 0 0 0 0 0 0 (by simp only [mergeLayout, Layout.fits_cons, Layout.fits_nil, and_true]; omega)
      (by simp only [mergeLayout, Layout.sum_cons, Layout.sum_nil, Policy.code]; omega) fun _ => ?_
    simp [mergeLayout, Layout.holds_cons, mergeChecks, policyOf, ← flag_iff, fin64_iff, Policy.ok, mergeFormOk, ← flag_eq_false]
    grind
  | low =>
    refine codes_mergeLayout a pd.toNat p.val 1 0 0 0 0 0 (by simp only [mergeLayout, Layout.fits_cons, Layout.fits_nil, and_true]; omega)
      (by simp only [mergeLayout, Layout.sum_cons, Layout.sum_nil, Policy.code]; omega) fun _ => ?_
    simp [mergeLayout, Layout.holds_cons, mergeChecks, policyOf, ← flag_iff, fin64_iff, Policy.ok, mergeFormOk, ← flag_eq_false]
    grind
  | red op fmt uns rm ftz =>
    have := op.code_lt
    have := rm.code_lt
    have := ftz.toNat_lt
    have := uns.toNat_lt
    have h1 := redOf_iff (n := bits f.mods 3 3) (c := op)
    have h3 := rmOf_iff (n := bits f.mods 17 3) (c := rm)
    cases fmt with
    | some fmt =>
      have := fmt.code_lt
      refine codes_mergeLayout a pd.toNat p.val 2 op.code uns.toNat fmt.code rm.code ftz.toNat
        (by simp only [mergeLayout, Layout.fits_cons, Layout.fits_nil, and_true]; omega)
        (by simp only [mergeLayout, Layout.sum_cons, Layout.sum_nil, Policy.code]; omega) fun h21 => ?_
      have h2 := fmtOf_iff (n := bits f.mods 14 3) (c := fmt)
      have := op.code_lt_four
      have := rm.code_le_four
      simp [mergeLayout, Layout.holds_cons, mergeChecks, policyOf, ← flag_iff, fin64_iff, Policy.ok]
      cases a <;> grind [mergeFormOk]
    | none =>
      refine codes_mergeLayout a pd.toNat p.val 2 op.code uns.toNat 5 rm.code ftz.toNat
        (by simp only [mergeLayout, Layout.fits_cons, Layout.fits_nil, and_true]; omega)
        (by simp only [mergeLayout, Layout.sum_cons, Layout.sum_nil, Policy.code]; omega) fun h21 => ?_
      have := rm.code_eq_zero
      simp [mergeLayout, Layout.holds_cons, mergeChecks, policyOf, ← flag_iff, fin64_iff, Policy.ok]
      cases a <;> grind [mergeFormOk]

end Sys2Proof
end

section
/-! O17 and O18, the rows of each class. -/

namespace Sys2Proof

theorem rowControl {i : Instr} {f₀ : Fields} (hf₀ : fieldsOf i = some f₀) (hk : f₀.op / 128 = 0) : Row i := by
  cases i with
  | bra g off | call g off => exact row ⟨false, false, false, false⟩ (fun f _ _ => codes_word32 f off) rfl
  | brx g a | callx g a => exact row ⟨false, true, false, false⟩ (fun f _ _ => codes_none f) rfl
  | ret g | reform g | exit g | nop g | yield g => exact row ⟨false, false, false, false⟩ (fun f _ _ => codes_none f) rfl
  | drain g k => exact row ⟨false, false, false, false⟩ (fun f _ _ => codes_pred f k) rfl
  | nbcast g form b => cases form <;> (cases hf₀; simp [mkFields] at hk)
  | _ => cases hf₀ <;> simp [mkFields] at hk

theorem rowInteger {i : Instr} {f₀ : Fields} (hf₀ : fieldsOf i = some f₀) (hk : f₀.op / 128 = 1) : Row i := by
  cases i with
  | mov g w uns d a imm => exact row ⟨true, true, false, false⟩ (fun f n _ => codes_lit_w_uns n.lit1 imm w uns) rfl
  | movi g w uns d imm => exact row ⟨true, false, false, false⟩ (fun f _ _ => codes_movi f w uns imm) rfl
  | movh g d a b imm => exact row ⟨true, true, true, false⟩ (fun f n _ => codes_lit_none n.lit2 imm) rfl
  | sel g w uns d a b p => exact row ⟨true, true, true, false⟩ (fun f _ _ => codes_sel f w uns p) rfl
  | iadd g m d a b imm | isub g m d a b imm | imul g m d a b imm => exact row ⟨true, true, true, false⟩ (fun f n _ => codes_lit_imod n.lit2 imm m) rfl
  | iaddc g w d a b pi po | isubb g w d a b pi po => exact row ⟨true, true, true, false⟩ (fun f _ _ => codes_carry f w pi po) rfl
  | imulh g w uns d a b imm | imin g w uns d a b imm | imax g w uns d a b imm | idiff g w uns d a b imm | bfx g w uns d a b imm =>
    exact row ⟨true, true, true, false⟩ (fun f n _ => codes_lit_w_uns n.lit2 imm w uns) rfl
  | imad g m d a b c imm => exact row ⟨true, true, true, true⟩ (fun f n _ => codes_lit_imod n.lit3 imm m) rfl
  | imadw g uns sat d a b c imm => exact row ⟨true, true, true, true⟩ (fun f n _ => codes_lit_uns_sat n.lit3 imm uns sat) rfl
  | iabs g w sat d a imm => exact row ⟨true, true, false, false⟩ (fun f n _ => codes_lit_w_sat n.lit1 imm w sat) rfl
  | ineg g m d a imm => exact row ⟨true, true, false, false⟩ (fun f n _ => codes_lit_imod n.lit1 imm m) rfl
  | icmp g w uns cond p a b => exact row ⟨false, true, true, false⟩ (fun f _ _ => codes_icmp f w uns cond p) rfl
  | iset g w uns cond d a b => exact row ⟨true, true, true, false⟩ (fun f _ _ => codes_iset f w uns cond) rfl
  | and g w d a b imm | or g w d a b imm | xor g w d a b imm | shl g w d a b imm | shr g w d a b imm | sar g w d a b imm | rot g w d a b imm =>
    exact row ⟨true, true, true, false⟩ (fun f n _ => codes_lit_w n.lit2 imm w) rfl
  | not g w d a imm | popc g w d a imm | clz g w d a imm | ctz g w d a imm | brev g w d a imm =>
    exact row ⟨true, true, false, false⟩ (fun f n _ => codes_lit_w n.lit1 imm w) rfl
  | tlog g w d a b c mask => exact row ⟨true, true, true, true⟩ (fun f _ _ => codes_tlog f w mask) rfl
  | fshl g d a b c imm | fshr g d a b c imm | bytep g d a b c imm => exact row ⟨true, true, true, true⟩ (fun f n _ => codes_lit_none n.lit3 imm) rfl
  | bfi g w d a b c imm => exact row ⟨true, true, true, true⟩ (fun f n _ => codes_lit_w n.lit3 imm w) rfl
  | lea g uns d a b c imm => exact row ⟨true, true, true, true⟩ (fun f n _ => codes_lit_uns n.lit3 imm uns) rfl
  | pand g d a b | por g d a b | pxor g d a b => exact row ⟨false, false, false, false⟩ (fun f _ _ => codes_pred2 f d a b) rfl
  | pnot g d a | pmov g d a => exact row ⟨false, false, false, false⟩ (fun f _ _ => codes_pred1 f d a) rfl
  | pset g hi a b imm => exact row ⟨false, true, true, false⟩ (fun f n _ => codes_lit_w n.lit2 imm hi) rfl
  | pget g hi d => exact row ⟨true, false, false, false⟩ (fun f _ _ => codes_hi f hi) rfl
  | nbcast g form b => cases form <;> (cases hf₀; simp [mkFields] at hk)
  | _ => cases hf₀ <;> simp [mkFields] at hk

theorem rowFloating {i : Instr} {f₀ : Fields} (hf₀ : fieldsOf i = some f₀) (hk : f₀.op / 128 = 2) : Row i := by
  cases i with
  | fadd g m d a b | fsub g m d a b | fmul g m d a b | fdiv g m d a b | fscale g m d a b =>
    exact row ⟨true, true, true, false⟩ (fun f _ _ => codes_fmod f m) rfl
  | ffma g m d a b c => exact row ⟨true, true, true, true⟩ (fun f _ _ => codes_fmod f m) rfl
  | fsqrt g m d a | frcp g m d a | frsq g m d a | fexp2 g m d a | flog2 g m d a | fsin g m d a | fcos g m d a | ftanh g m d a =>
    exact row ⟨true, true, false, false⟩ (fun f _ _ => codes_fmod f m) rfl
  | fmin g fmt ftz d a b | fmax g fmt ftz d a b => exact row ⟨true, true, true, false⟩ (fun f _ _ => codes_fmin f fmt ftz) rfl
  | fcmp g fmt ftz cond p d a b => exact row ⟨true, true, true, false⟩ (fun f _ _ => codes_fcmp f fmt ftz cond p) rfl
  | fclass g fmt ftz mask d a => exact row ⟨true, true, false, false⟩ (fun f _ _ => codes_fclass f fmt ftz mask) rfl
  | frnd g fmt rm ftz d a => exact row ⟨true, true, false, false⟩ (fun f _ _ => codes_frnd f fmt rm ftz) rfl
  | nbcast g form b => cases form <;> (cases hf₀; simp [mkFields] at hk)
  | _ => cases hf₀ <;> simp [mkFields] at hk

theorem rowLane {i : Instr} {f₀ : Fields} (hf₀ : fieldsOf i = some f₀) (hk : f₀.op / 128 = 3) : Row i := by
  cases i with
  | fcvt g m sfmt d a => exact row ⟨true, true, false, false⟩ (fun f _ _ => codes_fcvt f m sfmt) rfl
  | icvt g m kind uns d a => exact row ⟨true, true, false, false⟩ (fun f _ _ => codes_icvt f m kind uns) rfl
  | fcvti g kind uns sfmt rm ftz d a => exact row ⟨true, true, false, false⟩ (fun f _ _ => codes_fcvti f kind uns sfmt rm ftz) rfl
  | kdec g m kb4 d a b => exact row ⟨true, true, true, false⟩ (fun f _ _ => codes_kdec f m kb4) rfl
  | xshf g mode rel d a b c =>
    cases rel with
    | none => exact row ⟨true, true, true, true⟩ (fun f _ _ => codes_xshf_none f mode) rfl
    | some k => exact row ⟨true, true, true, true⟩ (fun f _ _ => codes_xshf_some f mode k) rfl
  | xbcast g sel d a b c => exact row ⟨true, true, true, true⟩ (fun f _ _ => codes_xbcast f sel) rfl
  | xvote g mode d p => exact row ⟨false, false, false, false⟩ (fun f _ _ => codes_xvote f mode d p) rfl
  | xballot g d p => exact row ⟨true, false, false, false⟩ (fun f _ _ => codes_psrc f p) rfl
  | xcmpr g d a c p | xexpd g d a c p => exact row ⟨true, true, false, true⟩ (fun f _ _ => codes_psrc f p) rfl
  | xpfx g incl d p => exact row ⟨true, false, false, false⟩ (fun f _ _ => codes_xpfx f incl p) rfl
  | xred g r d a | xscan g r d a => exact row ⟨true, true, false, false⟩ (fun f _ _ => codes_rmod f r) rfl
  | xslide g up d a b c => exact row ⟨true, true, true, true⟩ (fun f _ _ => codes_flag f up) rfl
  | xtbl g len fill d a b => exact row ⟨true, true, true, false⟩ (fun f _ _ => codes_xtbl f len fill) rfl
  | nbcast g form b => cases form <;> (cases hf₀; simp [mkFields] at hk)
  | _ => cases hf₀ <;> simp [mkFields] at hk

theorem rowModular {i : Instr} {f₀ : Fields} (hf₀ : fieldsOf i = some f₀) (hk : f₀.op / 128 = 4) : Row i := by
  cases i with
  | qset g k wide tag a => exact row ⟨false, true, false, false⟩ (fun f _ _ => codes_qset f k wide tag) rfl
  | qget g k sel d => exact row ⟨true, false, false, false⟩ (fun f _ _ => codes_qget f k sel) rfl
  | maddq g k d a b | msubq g k d a b | mmulq g k d a b | mpowq g k d a b => exact row ⟨true, true, true, false⟩ (fun f _ _ => codes_slot f k) rfl
  | mnegq g k d a | mredq g k d a => exact row ⟨true, true, false, false⟩ (fun f _ _ => codes_slot f k) rfl
  | mmacq g k d a b c | bfly g k d a b c | ibfly g k d a b c => exact row ⟨true, true, true, true⟩ (fun f _ _ => codes_slot f k) rfl
  | xbfly g k rel v d a b | xibfly g k rel v d a b => exact row ⟨true, true, true, false⟩ (fun f _ _ => codes_xbfly f k rel v) rfl
  | nbcast g form b => cases form <;> (cases hf₀; simp [mkFields] at hk)
  | _ => cases hf₀ <;> simp [mkFields] at hk

theorem rowMemory {i : Instr} {f₀ : Fields} (hf₀ : fieldsOf i = some f₀) (hk : f₀.op / 128 = 5) : Row i := by
  cases i with
  | ld g m uns d a => exact row ⟨true, true, false, false⟩ (fun f _ _ => codes_ld f m uns) rfl
  | st g m a b => exact row ⟨false, true, true, false⟩ (fun f _ _ => codes_st f m) rfl
  | stm g m a b c => exact row ⟨false, true, true, true⟩ (fun f _ _ => codes_stm f m) rfl
  | lds g size take uns disp d a => exact row ⟨true, true, false, false⟩ (fun f _ _ => codes_lds f size take uns disp) rfl
  | sts g size disp a b => exact row ⟨false, true, true, false⟩ (fun f _ _ => codes_sts f size disp) rfl
  | stsm g size disp a b c => exact row ⟨false, true, true, true⟩ (fun f _ _ => codes_stsm f size disp) rfl
  | pref g l2 disp a => exact row ⟨false, true, false, false⟩ (fun f _ _ => codes_pref f l2 disp) rfl
  | redm g m a b => exact row ⟨false, true, true, false⟩ (fun f _ _ => codes_redm f m) rfl
  | fence g kind scope cpy => exact row ⟨false, false, false, false⟩ (fun f _ _ => codes_fence f kind scope cpy) rfl
  | bar g scope | bara g scope | barw g scope => exact row ⟨false, false, false, false⟩ (fun f _ _ => codes_bar f scope) rfl
  | feq g p disp a => exact row ⟨false, true, false, false⟩ (fun f _ _ => codes_feq f p disp) rfl
  | feset g full disp a => exact row ⟨false, true, false, false⟩ (fun f _ _ => codes_feset f full disp) rfl
  | nred g r d a => exact row ⟨true, true, false, false⟩ (fun f _ _ => codes_nred f r) rfl
  | atom g m d a b c =>
    exact row_optional (fun f => bits f.imm 12 4 == 7) (fun f => codes_atom f m) (x := m.op == .cas) (ud := true)
      (fun f hP => by rw [← hP, f.bits_imm (by decide)]; simp [atomModOf, atomOpOf_beq_cas])
      (by simp only [Instr.wf, casOk, Bool.and_right_comm]) rfl
  | atoms g op wide uns disp d a b c =>
    exact row_optional (fun f => bits f.imm 12 4 == 7) (fun f => codes_atoms f op wide uns disp) (x := op == .cas) (ud := true)
      (fun f hP => by rw [← hP.1, f.bits_imm (by decide)]; simp [atomOpOf_beq_cas]) rfl rfl
  | copy g size dir hint a b c =>
    exact row_optional (fun f => flag f.imm 1) (fun f => codes_copy f size dir hint) (x := dir == .o2s || dir == .s2o) (ud := false)
      (fun f hP => by rw [← hP.2.1, f.flag_imm (by decide), copyDirOf_object]) (by simp only [Instr.wf]) rfl
  | copym g size obj hint mask a b c =>
    exact row_optional (fun f => flag f.imm 1) (fun f => codes_copym f size obj hint mask) (x := obj) (ud := false)
      (fun f hP => by rw [← hP.2.1, f.flag_imm (by decide)]) rfl rfl
  | merge g pd policy p a =>
    cases a with
    | src a =>
      exact row_form (fun f => ⟨false, !flag f.imm 21, false, false⟩) (fun f => codes_merge f (.src a) pd policy p)
        (fun f hP => by simp [Uses4.Leaves, hP.2.src_stands]) rfl
    | slot k =>
      exact row_form (fun f => ⟨false, !flag f.imm 21, false, false⟩) (fun f => codes_merge f (.slot k) pd policy p)
        (fun f hP => by simp [Uses4.Leaves, LName.parts]) rfl
  | ldrop g pd a =>
    cases a with
    | src a =>
      exact row_form (fun f => ⟨false, !flag f.imm 21, false, false⟩) (fun f => codes_ldrop f (.src a) pd)
        (fun f hP => by simp [Uses4.Leaves, hP.2.src_stands]) rfl
    | slot k =>
      exact row_form (fun f => ⟨false, !flag f.imm 21, false, false⟩) (fun f => codes_ldrop f (.slot k) pd)
        (fun f hP => by simp [Uses4.Leaves, LName.parts]) rfl
  | lrank g d a =>
    cases a with
    | src a =>
      exact row_form (fun f => ⟨true, !flag f.imm 21, false, false⟩) (fun f => codes_lrank f (.src a))
        (fun f hP => by simp [Uses4.Leaves, hP.2.src_stands]) rfl
    | slot k =>
      exact row_form (fun f => ⟨true, !flag f.imm 21, false, false⟩) (fun f => codes_lrank f (.slot k)) (fun f hP => by simp [Uses4.Leaves, LName.parts]) rfl
  | nbcast g form b =>
    cases form with
    | one d a =>
      exact row_form (fun f => ⟨!flag f.imm 21, !flag f.imm 21, true, false⟩) (fun f => codes_nbcast_src f a false)
        (fun f hP => by simp [Uses4.Leaves, hP.2.src_stands]) rfl
    | pair d a =>
      exact row_form (fun f => ⟨!flag f.imm 21, !flag f.imm 21, true, false⟩) (fun f => codes_nbcast_src f a true)
        (fun f hP => by simp [Uses4.Leaves, hP.2.src_stands]) rfl
    | slot k =>
      exact row_form (fun f => ⟨!flag f.imm 21, !flag f.imm 21, true, false⟩) (fun f => codes_nbcast_slot f k)
        (fun f hP => by simp [Uses4.Leaves, hP.2.slot_stands]) rfl
  | _ => cases hf₀ <;> simp [mkFields] at hk

theorem rowMatrix {i : Instr} {f₀ : Fields} (hf₀ : fieldsOf i = some f₀) (hk : f₀.op / 128 = 6) : Row i := by
  cases i with
  | mdecl g n count => exact row ⟨false, false, false, false⟩ (fun f _ _ => codes_mdecl f n count) rfl
  | moprdy g => exact row ⟨false, false, false, false⟩ (fun f _ _ => codes_none f) rfl
  | mma g n k d a b c => exact row ⟨true, true, true, true⟩ (fun f _ _ => codes_mma f n k) rfl
  | mwait g a | mrel g a => exact row ⟨false, true, false, false⟩ (fun f _ _ => codes_none f) rfl
  | mlda g obj d a b c => exact row ⟨true, true, true, true⟩ (fun f _ _ => codes_flag f obj) rfl
  | msta g obj a b c => exact row ⟨false, true, true, true⟩ (fun f _ _ => codes_flag f obj) rfl
  | mslotAlloc g d =>
    exact row_form (fun f => ⟨!flag f.imm 1, flag f.imm 1, false, false⟩) (fun f => codes_mslot f 0 (by decide))
      (fun f hP => by simp [Uses4.Leaves, f.flag_imm_one, hP]) rfl
  | mslotCnt g d =>
    exact row_form (fun f => ⟨!flag f.imm 1, flag f.imm 1, false, false⟩) (fun f => codes_mslot f 1 (by decide))
      (fun f hP => by simp [Uses4.Leaves, f.flag_imm_one, hP]) rfl
  | mslotZero g a =>
    exact row_form (fun f => ⟨!flag f.imm 1, flag f.imm 1, false, false⟩) codes_mslot_zero
      (fun f hP => by simp [Uses4.Leaves, f.flag_imm_one, hP]) rfl
  | nbcast g form b => cases form <;> (cases hf₀; simp [mkFields] at hk)
  | _ => cases hf₀ <;> simp [mkFields] at hk

theorem rowSystem {i : Instr} {f₀ : Fields} (hf₀ : fieldsOf i = some f₀) (hk : f₀.op / 128 = 7) : Row i := by
  cases i with
  | srr g r d => exact row ⟨true, false, false, false⟩ (fun f _ _ => codes_sreg f r) rfl
  | srw g r a => exact row ⟨false, true, false, false⟩ (fun f _ _ => codes_sreg f r) rfl
  | setw g d a | objq g d a => exact row ⟨true, true, false, false⟩ (fun f _ _ => codes_none f) rfl
  | spawn g d a b | launch g d a b => exact row ⟨true, true, true, false⟩ (fun f _ _ => codes_none f) rfl
  | round g => exact row ⟨false, false, false, false⟩ (fun f _ _ => codes_none f) rfl
  | trap g code => exact row ⟨false, false, false, false⟩ (fun f _ _ => codes_trap f code) rfl
  | eret g a => exact row ⟨false, true, false, false⟩ (fun f _ _ => codes_none f) rfl
  | swapc g a b | objw g a b | icinv g a b => exact row ⟨false, true, true, false⟩ (fun f _ _ => codes_none f) rfl
  | xlinvRng g a b =>
    exact row_form (fun f => ⟨false, !flag f.imm 0, !flag f.imm 0, false⟩) (fun f => codes_flag f false)
      (fun f hP => by simp [Uses4.Leaves, f.flag_imm, hP]) rfl
  | xlinvAll g =>
    exact row_form (fun f => ⟨false, !flag f.imm 0, !flag f.imm 0, false⟩) (fun f => codes_flag f true) (fun f hP => by simp [Uses4.Leaves]) rfl
  | nbcast g form b => cases form <;> (cases hf₀; simp [mkFields] at hk)
  | _ => cases hf₀ <;> simp [mkFields] at hk

end Sys2Proof
end

section
/-! O17 and O18: what the decoder reads, what the encoder writes. -/

namespace Sys2Proof

theorem bits_append (w lo m n : Nat) : bits w lo m + 2 ^ m * bits w (lo + m) n = bits w lo (m + n) := by
  rw [bits, bits, bits, Nat.shiftRight_add, Nat.shiftRight_eq_div_pow _ m, Nat.pow_add, Nat.mod_mul]

theorem pack_unpack (w : Nat) : pack (unpack w) = w % 2 ^ 104 := by
  have h0 := bits_append w 0 32 72
  have h1 := bits_append w 32 3 69
  have h2 := bits_append w 35 1 68
  have h3 := bits_append w 36 1 67
  have h4 := bits_append w 37 1 66
  have h5 := bits_append w 38 2 64
  have h6 := bits_append w 40 10 54
  have h7 := bits_append w 50 2 52
  have h8 := bits_append w 52 10 42
  have h9 := bits_append w 62 2 40
  have h10 := bits_append w 64 10 30
  have h11 := bits_append w 74 2 28
  have h12 := bits_append w 76 10 18
  have h13 := bits_append w 86 8 10
  simp only [Nat.reduceAdd, pow_one] at h0 h1 h2 h3 h4 h5 h6 h7 h8 h9 h10 h11 h12 h13
  unfold pack
  simp only [unpack, h0, h1, h2, h3, h4, h5, h6, h7, h8, h9, h10, h11, h12, h13]
  rfl

theorem unpack_fits (w : Nat) : (unpack w).Fits := by
  constructor <;> exact bits_lt ..

/-- The fields of a word, each after the ones below it (R97). -/
def Fields.layout (f : Fields) : Layout :=
  [(0, 32, f.imm), (32, 3, f.grp), (35, 1, f.bc), (36, 1, f.bb), (37, 1, f.ba), (38, 2, f.ct), (40, 10, f.c), (50, 2, f.bt), (52, 10, f.b),
    (62, 2, f.at_), (64, 10, f.a), (74, 2, f.dt), (76, 10, f.d), (86, 8, f.guard), (94, 10, f.op)]

theorem Fields.layout_sum (f : Fields) : f.layout.sum = pack f := by
  unfold pack
  simp only [Fields.layout, Layout.sum_cons, Layout.sum_nil]
  ring

theorem Fields.Fits.layout {f : Fields} (h : f.Fits) : f.layout.Fits := by
  simp only [Fields.layout, Layout.fits_cons, Layout.fits_nil]
  exact ⟨h.imm, h.grp, h.bc, h.bb, h.ba, h.ct, h.c, h.bt, h.b, h.at_, h.a, h.dt, h.d, h.guard, h.op, trivial⟩

theorem unpack_pack {f : Fields} (h : f.Fits) : unpack (pack f) = f := by
  have hl := ((cleared_iff f.layout (pack f) (by simp [Fields.layout, Layout.named, Apart])).2 ⟨h.layout, f.layout_sum.symm⟩).2
  simp only [Fields.layout, Layout.holds_cons] at hl
  obtain ⟨h0, h1, h2, h3, h4, h5, h6, h7, h8, h9, h10, h11, h12, h13, h14, -⟩ := hl
  simp only [unpack, h0, h1, h2, h3, h4, h5, h6, h7, h8, h9, h10, h11, h12, h13, h14]

theorem pack_lt {f : Fields} (h : f.Fits) : pack f < 2 ^ 104 := by
  rw [← unpack_pack h, pack_unpack]
  exact Nat.mod_lt _ (Nat.two_pow_pos _)

/-- The fields of an operation are those of operands, a guard and modifiers under its opcode. -/
def Fields.Made (f : Fields) : Prop := ∃ op g d a b c grp imm, op < 2 ^ 10 ∧ f = mkFields op g d a b c grp imm

theorem Fields.made {op grp imm : Nat} {g : Guard} {d : Dst} {a b c : Src} (h : op < 2 ^ 10) : (mkFields op g d a b c grp imm).Made :=
  ⟨op, g, d, a, b, c, grp, imm, h, rfl⟩

/-- Every operation that is not an event has fields (log 4). -/
theorem fieldsOf_made (i : Instr) (h : i.isEvent = false) : ∃ f, fieldsOf i = some f ∧ f.Made := by
  cases i with
  | nbcast g form b => cases form <;> exact ⟨_, rfl, Fields.made (by decide)⟩
  | _ => cases h <;> exact ⟨_, rfl, Fields.made (by decide)⟩

theorem Guard.code_lt (g : Guard) : g.code < 2 ^ 8 := by
  cases g with
  | always => decide
  | on p | off p => have := p.isLt; simp only [Guard.code]; omega

theorem Dst.code_lt (d : Dst) : d.code < 2 ^ 10 ∧ d.tag < 2 ^ 2 := by
  cases d with
  | none => decide
  | reg n t => exact ⟨n.isLt.trans (by decide), t.code_lt⟩

theorem STag.code_lt (t : STag) : t.code < 4 := by cases t <;> decide

theorem Src.code_lt (a : Src) : a.code < 2 ^ 10 ∧ a.tag < 2 ^ 2 ∧ a.blk < 2 := by
  cases a with
  | reg n t b => exact ⟨n.isLt.trans (by decide), t.code_lt, b.toNat_lt⟩
  | _ => decide +revert

theorem Fields.Made.fits {f : Fields} (h : f.Made) (hgrp : f.grp < 8) (himm : f.imm < 2 ^ 32) : f.Fits := by
  obtain ⟨op, g, d, a, b, c, grp, imm, hop, rfl⟩ := h
  exact ⟨hop, g.code_lt, d.code_lt.1, d.code_lt.2, a.code_lt.1, a.code_lt.2.1, b.code_lt.1, b.code_lt.2.1, c.code_lt.1, c.code_lt.2.1, a.code_lt.2.2,
    b.code_lt.2.2, c.code_lt.2.2, hgrp, himm⟩

theorem fieldsOf_of_decodeOp {f : Fields} {i : Instr} (hop : f.op < 2 ^ 10) (h : decodeOp f = .ok i) : ∃ f₀, fieldsOf i = some f₀ := by
  cases hi : fieldsOf i with
  | some f₀ => exact ⟨f₀, rfl⟩
  | none =>
    have h0 : f.op = 0 := by rw [decodeOp_opcode hop h, Machine.opcodeOf, hi]
    obtain ⟨u, g, -, -, -, hb⟩ := decodeOp_eq_ok.1 h
    simp only [buildOf.eq_def, buildControl.eq_def, h0, Nat.zero_div, Nat.zero_mod, modRow_eq_ok] at hb
    rw [← hb.2] at hi
    cases hi

theorem fieldsOf_fits {i : Instr} {f : Fields} (h : fieldsOf i = some f) : f.Fits := by
  cases he : i.isEvent with
  | false =>
    obtain ⟨f', hf', hm⟩ := fieldsOf_made i he
    obtain rfl := Option.some.inj (hf'.symm.trans h)
    exact hm.fits (fieldsFit i _ h).1 (fieldsFit i _ h).2
  | true => cases i <;> cases he <;> cases h

/-- The decoder reads an operation from fields exactly where they are the operation's own. -/
theorem decodeOp_iff {f : Fields} (hf : f.Fits) (i : Instr) : decodeOp f = .ok i ↔ i.wf = true ∧ fieldsOf i = some f := by
  cases hi : fieldsOf i with
  | none =>
    refine iff_of_false (fun h => ?_) (by simp)
    obtain ⟨f₀, h₀⟩ := fieldsOf_of_decodeOp hf.op h
    simp [hi] at h₀
  | some f₀ =>
    rw [← hi]
    have := (fieldsOf_fits hi).op
    have hk : f₀.op / 128 < 8 := by omega
    generalize hc : f₀.op / 128 = k at hk
    interval_cases k
    · exact rowControl hi hc f hf
    · exact rowInteger hi hc f hf
    · exact rowFloating hi hc f hf
    · exact rowLane hi hc f hf
    · exact rowModular hi hc f hf
    · exact rowMemory hi hc f hf
    · exact rowMatrix hi hc f hf
    · exact rowSystem hi hc f hf

end Sys2Proof
end

section
/-! O17 and O18: words and bytes. -/

namespace Sys2Proof

theorem decodeWord_eq_one_iff {w : Nat} {sch : Sched} {i : Instr} : decodeWord w = .ok (.one sch i) ↔
    ((schedOf w).scheduled = true ∨ bits w 104 22 = 0) ∧ bits w 104 2 = 0 ∧ w.testBit 126 = false ∧ sch = schedOf w ∧ decodeOp (unpack w) = .ok i := by
  unfold decodeWord
  cases decodeOp (unpack w) <;> cases decodePair w <;> grind

theorem bits_of_lt {w lo n : Nat} (h : w < 2 ^ lo) : bits w lo n = 0 := by rw [bits_eq, Nat.div_eq_of_lt h, Nat.zero_mod]

theorem schedOf_of_lt {w : Nat} (h : w < 2 ^ 104) : schedOf w = schedOf 0 := by
  have hb (k : Nat) (hk : 104 ≤ k) : w.testBit k = false := Nat.testBit_eq_false_of_lt (h.trans_le (Nat.pow_le_pow_right (by decide) hk))
  have hl (lo n : Nat) (hk : 104 ≤ lo) : bits w lo n = 0 := bits_of_lt (h.trans_le (Nat.pow_le_pow_right (by decide) hk))
  simp only [schedOf, hb 127, hb 109, hl 120, hl 114, hl 110, hl 106, Nat.reduceLeDiff, Nat.zero_testBit]
  rfl

theorem leNat_leBytes : ∀ n v : Nat, leNat (leBytes n v) = v % 256 ^ n
  | 0, v => by simp [leBytes, leNat, Nat.mod_one]
  | n + 1, v => by
    rw [leBytes, leNat, leNat_leBytes n, Nat.pow_succ', Nat.mod_mul]
    simp

theorem length_leBytes : ∀ n v : Nat, (leBytes n v).length = n
  | 0, _ => rfl
  | n + 1, v => by rw [leBytes, List.length_cons, length_leBytes n]

theorem decodeBytes_leBytes {w : Nat} (h : w < 2 ^ 128) : decodeBytes (leBytes 16 w) = some (decodeWord w, []) := by
  have hl := length_leBytes 16 w
  rw [decodeBytes, hl, if_neg (by decide), List.take_of_length_le hl.le, List.drop_of_length_le hl.le, leNat_leBytes, show (256 : Nat) ^ 16 = 2 ^ 128 by norm_num, Nat.mod_eq_of_lt h]

theorem decodeTableWord_eq_some {w : Nat} {sch : Sched} {i : Instr} (h : w < 2 ^ 128) (hw : decodeWord w = .ok (.one sch i)) :
    decodeTableWord 128 w = some i := by
  rw [decodeTableWord, Nat.mod_eq_of_lt h, decodeBytes_leBytes h, hw]

theorem encode_iff {i : Instr} {w : Nat} : encode i = some w ↔ ∃ f, fieldsOf i = some f ∧ pack f = w := by
  simp [encode, Option.map_eq_some_iff]

/-- The word of a well-formed operation decodes to it. -/
theorem decodeWord_encode {i : Instr} {w : Nat} (hw : i.wf = true) (h : encode i = some w) : w < 2 ^ 104 ∧ decodeWord w = .ok (.one (schedOf 0) i) := by
  obtain ⟨f, hf, rfl⟩ := encode_iff.1 h
  have hfit := fieldsOf_fits hf
  have hlt := pack_lt hfit
  refine ⟨hlt, decodeWord_eq_one_iff.2 ⟨.inr (bits_of_lt hlt), bits_of_lt hlt,
    Nat.testBit_eq_false_of_lt (hlt.trans_le (Nat.pow_le_pow_right (by decide) (by decide))), (schedOf_of_lt hlt).symm, ?_⟩⟩
  rw [unpack_pack hfit]
  exact (decodeOp_iff hfit i).2 ⟨hw, hf⟩

/-- Settles O17: the fields of an operation are read from its word as they are, and the rows of the decoder give back the operation that has them. -/
theorem encodeThenDecode : Obligations.EncodeThenDecode := by
  intro i hw he
  obtain ⟨f, hf, -⟩ := fieldsOf_made i he
  obtain ⟨hlt, hd⟩ := decodeWord_encode hw (encode_iff.2 ⟨f, hf, rfl⟩)
  exact ⟨pack f, encode_iff.2 ⟨f, hf, rfl⟩, hlt, hd, decodeTableWord_eq_some (hlt.trans (by decide)) hd⟩

/-- Settles O18: the fields that decode are those of the operation, and a word's fields make up its bits [103:0]. -/
theorem decodeThenEncode : Obligations.DecodeThenEncode := by
  intro w sch i _ h
  obtain ⟨-, -, -, hs, hd⟩ := decodeWord_eq_one_iff.1 h
  obtain ⟨hw, hf⟩ := (decodeOp_iff (unpack_fits w) i).1 hd
  exact ⟨hw, hs, encode_iff.2 ⟨_, hf, pack_unpack w⟩⟩

end Sys2Proof
end

section
/-! O20: what the decoder refuses, and under which cause (R97, R98, R120, R121). -/

namespace Sys2Proof

theorem decodeOp_error_cause {f : Fields} {il : Illegal} (h : decodeOp f = .error il) : 1 ≤ il.cause ∧ il.cause ≤ 5 := by
  unfold decodeOp at h
  repeat' split at h
  all_goals (cases h <;> simp)

theorem decodePair_error_cause {w : Nat} {il : Illegal} (h : decodePair w = .error il) : 1 ≤ il.cause ∧ il.cause ≤ 7 := by
  unfold decodePair at h
  simp only at h
  repeat' split at h
  all_goals (cases h <;> simp)

theorem decodeWord_error_cause {w : Nat} {il : Illegal} (h : decodeWord w = .error il) : 1 ≤ il.cause ∧ il.cause ≤ 7 := by
  unfold decodeWord at h
  simp only at h
  split at h
  · cases h; decide
  · split at h
    · cases h; decide
    · split at h
      · cases hp : decodePair w with
        | error e => rw [hp] at h; cases h; exact decodePair_error_cause hp
        | ok p => simp [hp] at h
      · cases ho : decodeOp (unpack w) with
        | error e => rw [ho] at h; cases h; have := decodeOp_error_cause ho; omega
        | ok p => simp [ho] at h

theorem usesMemory_isSome (n : Nat) (f f' : Fields) : (usesMemory n f).isSome = (usesMemory n f').isSome := by
  simp only [usesMemory.eq_def]
  split <;> rfl

theorem usesMatrix_isSome (n : Nat) (f f' : Fields) : (usesMatrix n f).isSome = (usesMatrix n f').isSome := by
  simp only [usesMatrix.eq_def]
  split <;> rfl

theorem usesSystem_isSome (n : Nat) (f f' : Fields) : (usesSystem n f).isSome = (usesSystem n f').isSome := by
  simp only [usesSystem.eq_def]
  split <;> rfl

/-- Whether a row assigns an opcode does not depend on the other fields of the word. -/
theorem usesOf_isSome {f f' : Fields} (h : f.op = f'.op) : (usesOf f).isSome = (usesOf f').isSome := by
  simp only [usesOf.eq_def, h]
  split
  case h_6 => exact usesMemory_isSome ..
  case h_7 => exact usesMatrix_isSome ..
  case h_8 => exact usesSystem_isSome ..
  all_goals rfl

/-- The fields of a word of opcode `op` that names no operand and guards nothing; MDECL declares one tile, the least number it may (R211). -/
def blankFields (op : Nat) : Fields := mkFields op .always .none .zero .zero .zero 0 (if op = 0x300 then 16 else 0)

/-- Every opcode that a row assigns is that of an operation (R120). -/
theorem blankFields_decodes : ∀ op < 1024, usesOf (blankFields op) = none ∨ (decodeOp (blankFields op)).isOk = true := by decide +kernel

theorem isEvent_of_fieldsOf {i : Instr} {f : Fields} (h : fieldsOf i = some f) : i.isEvent = false := by
  cases he : i.isEvent with
  | false => rfl
  | true => cases i <;> cases he <;> cases h

/-- An opcode that is no operation's is assigned by no row. -/
theorem usesOf_eq_none {f : Fields} (hf : f.op < 1024) (h : ∀ i : Instr, i.isEvent = false → Machine.opcodeOf i ≠ f.op) : usesOf f = none := by
  rw [← Option.not_isSome_iff_eq_none, usesOf_isSome (f := f) (f' := blankFields f.op) rfl]
  intro hs
  obtain hn | ho := blankFields_decodes f.op hf
  · simp [hn] at hs
  · cases hd : decodeOp (blankFields f.op) with
    | error e => simp [hd, Except.isOk, Except.toBool] at ho
    | ok i =>
      obtain ⟨f₀, hf₀⟩ := fieldsOf_of_decodeOp (f := blankFields f.op) hf hd
      exact h i (isEvent_of_fieldsOf hf₀) (decodeOp_opcode (f := blankFields f.op) hf hd).symm

/-- Settles O20: each refusal is the first check of the decoder that fails, and a row assigns an opcode exactly where some operation has it. -/
theorem illegalWordsAreRefused : Obligations.IllegalWordsAreRefused := by
  refine ⟨fun w il h => decodeWord_error_cause h, fun w hs hb => ?_, fun w hs hb => ?_, fun w _ hb h126 hs hop => ?_⟩
  · rw [← bits_eq] at hb
    simp [decodeWord, schedOf, hs, hb]
  · rw [← show bits w 104 2 = w / 2 ^ 104 % 4 from bits_eq ..] at hb
    simp [decodeWord, schedOf, hs, hb]
  · have hnone : usesOf (unpack w) = none := usesOf_eq_none (unpack_fits w).op (by simpa [unpack, bits_eq] using hop)
    rw [← bits_eq] at hs
    rw [← show bits w 104 2 = w / 2 ^ 104 % 4 from bits_eq ..] at hb
    have hop' : (unpack w).op = w / 2 ^ 94 % 2 ^ 10 := bits_eq ..
    have hsched : ¬((!(schedOf w).scheduled && bits w 104 22 != 0) = true) := by
      obtain hs | hs := hs <;> simp [schedOf, hs]
    simp only [decodeWord, hsched, hb, h126, decodeOp, hnone, hop', if_false, ne_eq, not_true, Bool.false_eq_true]

end Sys2Proof
end

section
/-! O22. A step whose move is a fragment's word runs what the fetched word decodes to (R97, R102). -/

namespace Sys2Proof.Machine

/-- The fragment of a word is the one that the issue names. -/
theorem frag_of_env {s : State} {iss : Issue} {e : Env} (h : envOf s iss = some e) : frag s iss.frag = some e.frag := by
  unfold envOf at h
  simp only [Option.bind_eq_bind, Option.bind_eq_some_iff, Option.some.injEq] at h
  obtain ⟨f, hf, p, _, d, _, c, _, b, _, l, _, x, _, rfl⟩ := h
  exact hf

theorem ref_of_env {s : State} {iss : Issue} {e : Env} (h : envOf s iss = some e) : e.frag.ref = iss.frag := by
  simpa [frag] using List.find?_some (frag_of_env h)

/-- A step makes the chosen move and records it. -/
theorem step_of_choose {s t : State} {m : Move} {rest : List Nat} (hc : choose s (moves s) = (some m, rest)) (hr : run s m = .next t) :
    step s = .next (after s m rest t) := by
  rw [step, stepPart, hc]
  simp [hr]

/-- The word of a fragment that may move, with no deferred trap, runs as its fetched bytes decode. -/
theorem runWord_fetched {s s' : State} {r : FRef} {e : Env} {w : Nat} {d : Decoded} (he : envAt s r = some e) (hm : mayMove s e = true)
    (hw : e.waiting = none) (hf : fetch s e = .ok (w, s')) (hd : decodeWord w = .ok d) : runWord s r = runDecoded (takeId s').2 e s'.nextId d := by
  unfold runWord
  simp only [he, hm, hw, hf, hd, Bool.not_true, Bool.false_eq_true, if_false]
  rfl

theorem mayMove_of_enabled {s : State} {r : FRef} {e : Env} (h : enabled s (.word r) = true) (he : envAt s r = some e) : mayMove s e = true := by
  obtain ⟨t, ht⟩ := run_of_enabled h
  by_contra hm
  simp [run, runWord, he, Bool.eq_false_iff.2 hm] at ht

/-- A pair that issues runs X and then Y, where neither the pair as a whole nor X traps (R114, R344). -/
theorem runDecoded_pair {s t t' u : State} {e : Env} {wid : Nat} {sch : Sched} {x y : Instr} (hr : runDecoded s e wid (.two sch x y) = .next u)
    (hp : pairCheck e.launch.kernel x y = none) (hy : e.frag.yOnly = false) (hx : exec x (issuing s e.frag.ref wid .pairX sch) = .next t)
    (hc : t.cur.isSome = true) (hyt : exec y (issuing t e.frag.ref wid .pairY sch) = .next t') : runDecoded s e wid (.two sch x y) = .next t' := by
  unfold runDecoded at hr ⊢
  simp only at hr ⊢
  split at hr
  · cases hr
  · next hready =>
    rw [if_neg hready]
    simp [hp, hy, runPair, hx, hc, hyt]

/-- Settles O22: a chosen move is enabled, so the word's fragment may move and a pair is ready, and the step records what the word leads to. -/
theorem stepRunsTheDecodedWord : Obligations.StepRunsTheDecodedWord := by
  intro s r rest e w s' hc he hw hf
  have hen := enabled_of_mem_moves (choose_mem hc)
  have hm := mayMove_of_enabled hen he
  have href := ref_of_env he
  refine ⟨fun sch i t hd hx => step_of_choose hc ?_, fun sch x y t t' hd hy hp hx hcur hyt => step_of_choose hc ?_⟩
  · rw [run, runWord_fetched he hm hw hf hd, runDecoded, href]
    exact hx
  · obtain ⟨u, hu⟩ := run_of_enabled hen
    rw [run, runWord_fetched he hm hw hf hd] at hu ⊢
    exact runDecoded_pair hu hp hy (by rw [href]; exact hx) hcur (by rw [href]; exact hyt)

end Sys2Proof.Machine
end

section
/-! O23. A placed word is the word that the next step runs (R97, log 5). -/

namespace Sys2Proof.Machine

/-- Every operation issues, with a body of its own (R342). -/
theorem exec_issues (i : Instr) (hi : i.isEvent = false) (s : State) : ∃ body, exec i s = issue i s body := by
  cases i <;> cases hi <;> (apply Exists.intro; dsimp only [exec]; exact rfl)

/-- Only a word that is ready leads to a state (R61, R102). -/
theorem ready_of_exec {i : Instr} {s t : State} {e : Env} (hi : i.isEvent = false) (h : exec i s = .next t) (he : s.cur.bind (envOf s) = some e) :
    ready s e i = true := by
  obtain ⟨body, hb⟩ := exec_issues i hi s
  rw [hb, issue, he] at h
  by_contra hr
  simp [Bool.eq_false_iff.2 hr] at h

/-- The surroundings of an issue in a state that `placed` makes. -/
def placedEnv (iss : Issue) : Env := ⟨iss, placedFrag, placedPool, placedPond, placedBlock, placedLaunch, placedContext, 0, [placedThread]⟩

@[simp] theorem placedEnv_lake (iss : Issue) : (placedEnv iss).lake = 0 := by
  show Config.lakeOf 0 = 0
  decide

theorem placedThread_lowLane : lowLane [placedThread] = 0 := by decide

/-- The states whose one thread stands as `placed` puts it. -/
structure State.Placed (s : State) : Prop where
  frags : s.frags = [placedFrag]
  pools : s.pools = [placedPool]
  ponds : s.ponds = [placedPond]
  blocks : s.blocks = [placedBlock]
  launches : s.launches = [placedLaunch]
  ctxs : s.ctxs = [placedContext]
  threads : s.threads = [placedThread]

theorem placed_placed (s : State) (bs : List Byte) : (placed s bs).Placed := ⟨rfl, rfl, rfl, rfl, rfl, rfl, rfl⟩

theorem State.Placed.env {s : State} (h : s.Placed) (iss : Issue) (hi : iss.frag = ⟨0, 0⟩) : envOf s iss = some (placedEnv iss) := by
  simp only [envOf, frag, pool, pond, block, launch, ctx, fragThreads, hi, h.frags, h.pools, h.ponds, h.blocks, h.launches, h.ctxs, h.threads]
  rfl

theorem placed_xlat (s : State) (bs : List Byte) (r : MemReq) (hr : r = ⟨0, placedAt, 16, .fetch, false, false⟩) :
    checkXlat (placed s bs) (some 0) placedContext true r = .ok (placedAt, placedLeaf) := by
  subst hr
  rfl

theorem placed_checkMem (s : State) (bs : List Byte) :
    checkMem (placed s bs) (some 0) placedContext true [⟨0, placedAt, 16, .fetch, false, false⟩] = .ok [(placedAt, placedLeaf)] := by
  have h := placed_xlat s bs _ rfl
  rw [checkMem, checkBy, List.map_cons, List.map_nil, h]
  rfl

theorem homeBytes_eq_bytesAt {s : State} (h : s.hostLines = []) : ∀ n a, homeBytes s a n = bytesAt s.mem a n
  | 0, _ => rfl
  | n + 1, a => by
    rw [homeBytes, bytesAt, homeBytes_eq_bytesAt h n, homeByte, hostLine, h]
    rfl

/-- The word that a state of `placed` fetches is the one placed; it stays in the decoded-operation cache where it is unscheduled (R116). -/
theorem placed_fetch (s : State) (iss : Issue) {w : Nat} (hw : w < 2 ^ 104) : fetch (placed s (leBytes 16 w)) (placedEnv iss) =
    .ok (w, { placed s (leBytes 16 w) with icache := [⟨0, 1, placedAt, w⟩] }) := by
  have hword : leNat (memBytes (placed s (leBytes 16 w)) true placedAt 16) = w := by
    have hb := bytesAt_putBytes s.mem placedAt (leBytes 16 w)
    rw [length_leBytes] at hb
    rw [memBytes, if_pos rfl, homeBytes_eq_bytesAt rfl, placed, hb, leNat_leBytes]
    exact Nat.mod_eq_of_lt (hw.trans (by norm_num))
  have h127 : w.testBit 127 = false := Nat.testBit_eq_false_of_lt (hw.trans (by norm_num))
  have hvalid : (placedEnv iss).valid (placedEnv iss).pc = true := by
    show validIn placedAt 0x10000 placedAt = true
    decide
  have hcached : cachedWord (placed s (leBytes 16 w)) (placedEnv iss) = none := rfl
  have hmem : checkMem (placed s (leBytes 16 w)) (some (placedEnv iss).lake) (placedEnv iss).ctx true
      [⟨lowLane (placedEnv iss).threads, (placedEnv iss).pc, 16, .fetch, false, false⟩] = .ok [(placedAt, placedLeaf)] := by
    rw [show lowLane (placedEnv iss).threads = 0 from placedThread_lowLane, placedEnv_lake]
    exact placed_checkMem s _
  have hbad : (placed s (leBytes 16 w)).badLines.contains (lineOf placedAt) = false := rfl
  have hunread : rewriteFirst (placed s (leBytes 16 w)) (placedEnv iss) true placedAt = placed s (leBytes 16 w) := rfl
  have hcacheable : placedLeaf.cached = true := rfl
  have hfill : fillTlb (placed s (leBytes 16 w)) (placedEnv iss).lake (placedEnv iss).ctx.rcd.id placedLeaf = placed s (leBytes 16 w) := by
    rw [placedEnv_lake]; rfl
  simp only [fetch, hvalid, hcached, hmem, hbad, hcacheable, hunread, hword, hfill, cacheWord, h127, Bool.not_true, Bool.false_eq_true, if_false]
  rfl

/-- Nothing is drawn before the thread, and no rotation holds it back (R45, R63). -/
theorem placed_inTurn (s : State) (bs : List Byte) : inTurn (placed s bs) ⟨0, 0⟩ = true := by
  have henv : envAt (placed s bs) ⟨0, 0⟩ = some (placedEnv ⟨⟨0, 0⟩, (placed s bs).nextId, .single, schedOf 0⟩) := (placed_placed s bs).env _ rfl
  have hdraw (a : DrawAt) (ha : a.d = placedPond) : drawsDue (placed s bs) a = [] := by
    have hwells : wellsOf (placed s bs) 0 = [] := rfl
    simp only [drawsDue, ha, show placedPond.id = 0 from rfl, hwells, show placedPond.draining = [] from rfl]
    rfl
  have hpond : drawPending (placed s bs) 0 = false := by
    unfold drawPending
    cases h : drawAt (placed s bs) 0 with
    | none => rfl
    | some a =>
      have ha : a.d = placedPond := by
        have hpond : pond (placed s bs) 0 = some placedPond := rfl
        simp only [drawAt, hpond, Option.bind_eq_bind, Option.bind_eq_some_iff, Option.some.injEq] at h
        obtain ⟨d, rfl, _, _, _, _, _, _, _, _, _, _, h⟩ := h
        split at h
        · cases h; rfl
        · cases h
      simp [hdraw a ha]
  have hponds : (placed s bs).ponds = [placedPond] := rfl
  rw [inTurn, henv]
  simp [hponds, show placedPond.id = 0 from rfl, hpond]
  exact .inl rfl

theorem settleSpoils_of_settled {t : State} (h : t.settled) : settleSpoils t = t := by
  have hnone : t.mops.filter (fun m => m.done && !m.covered && regSpoiled t m.id) = [] := by
    rw [List.filter_eq_nil_iff]
    intro m hm hc
    simp only [Bool.and_eq_true, Bool.not_eq_true'] at hc
    simp [h m hm hc.1.1 hc.1.2] at hc
  simp [settleSpoils, hnone]

theorem tally_placed (s t : State) (bs : List Byte) : tally (placed s bs) t ⟨0, 0⟩ = t := by
  have henv : envAt (placed s bs) ⟨0, 0⟩ = some (placedEnv ⟨⟨0, 0⟩, (placed s bs).nextId, .single, schedOf 0⟩) := (placed_placed s bs).env _ rfl
  rw [tally, henv]
  simp [show (placedEnv _).reached = false from rfl, show (placedEnv _).still = false from rfl]

/-- What is recorded of the placed word leaves what its operation left (R221). -/
theorem after_placed {s t : State} {bs : List Byte} {rest : List Nat} (ht : t.settled) :
    after (placed s bs) (.word ⟨0, 0⟩) rest t = { t with choices := rest, inbox := restInbox (placed s bs) (.word ⟨0, 0⟩), leaving := [] } := by
  have hs : settleSpoils { t with choices := rest, inbox := restInbox (placed s bs) (.word ⟨0, 0⟩), leaving := [] } = _ := settleSpoils_of_settled ht
  rw [after]
  exact (congrArg (fun u => tally (placed s bs) u ⟨0, 0⟩) hs).trans (tally_placed ..)

/-- Settles O23: the placed word is fetched and decodes to its operation, which is ready, so the part offers its fragment's word before any other move. -/
theorem placedWordRunsFirst : Obligations.PlacedWordRunsFirst := by
  intro s i w t hw hwf he p c hx
  obtain ⟨hlt, hd⟩ := decodeWord_encode hwf hw
  have hp : s.withFetchWord 128 w = placed s (leBytes 16 w) := by rw [State.withFetchWord, Nat.mod_eq_of_lt (hlt.trans (by norm_num))]
  simp only [p, c, hp] at hx ⊢
  have henv : envAt (placed s (leBytes 16 w)) ⟨0, 0⟩ = some (placedEnv ⟨⟨0, 0⟩, s.nextId, .single, schedOf 0⟩) := (placed_placed s _).env _ rfl
  have hready := ready_of_exec he hx (State.Placed.env ⟨rfl, rfl, rfl, rfl, rfl, rfl, rfl⟩ ⟨⟨0, 0⟩, s.nextId, .single, schedOf 0⟩ rfl)
  have hmay : mayMove (placed s (leBytes 16 w)) (placedEnv ⟨⟨0, 0⟩, s.nextId, .single, schedOf 0⟩) = true := by
    simp only [ready, mayIssue, Bool.and_eq_true] at hready
    exact hready.1.1.1.1.1
  have hrun : run (placed s (leBytes 16 w)) (.word ⟨0, 0⟩) = .next t := by
    rw [run, runWord_fetched henv hmay rfl (placed_fetch s _ hlt) hd]
    exact hx
  have hen : enabled (placed s (leBytes 16 w)) (.word ⟨0, 0⟩) = true := by rw [enabled, hrun]
  have hchoose : choose (placed s (leBytes 16 w)) (moves (placed s (leBytes 16 w))) = (some (.word ⟨0, 0⟩), []) := by
    have hturn : inTurn (placed s (leBytes 16 w)) ⟨0, 0⟩ = true := placed_inTurn s _
    have hfirst : (placed s (leBytes 16 w)).frags.filter (fun f => enabled (placed s (leBytes 16 w)) (.word f.ref) && inTurn (placed s (leBytes 16 w)) f.ref) = [placedFrag] := by
      show [placedFrag].filter _ = _
      rw [List.filter_cons_of_pos (by simpa using ⟨hen, hturn⟩), List.filter_nil]
    have hinput : landing (placed s (leBytes 16 w)) = [] := rfl
    rw [moves, hinput, hfirst]
    rfl
  refine ⟨[], step_of_choose hchoose hrun, fun hs => ?_⟩
  simp only [after_placed hs, and_self]

end Sys2Proof.Machine
end

section
/-! O19. The words that the manual prints (R97). -/

namespace Sys2Proof

/-- Settles O19, by running the decoder on each word. -/
theorem printedWordsDecode : Obligations.PrintedWordsDecode := by
  unfold Obligations.PrintedWordsDecode
  decide +kernel

end Sys2Proof
end

section
/-! O21. What a paired word that decodes holds (R111 to R113). -/

namespace Sys2Proof

/-- The opcodes that have a short one (R112). -/
def shortOpcodes : List Nat := [0x080, 0x088, 0x089, 0x08C, 0x090, 0x091, 0x094, 0x0A0, 0x0A1, 0x0A2, 0x0A3, 0x0A5, 0x0A6, 0x0A7, 0x0AA,
  0x100, 0x101, 0x102, 0x104, 0x105, 0x112, 0x113, 0x114, 0x115, 0x116, 0x117, 0x118, 0x208, 0x209, 0x20A, 0x20B]

/-- Those of them that item 4 of R113 keeps apart. -/
def slowOpcodes : List Nat := [0x112, 0x113, 0x114, 0x115, 0x116, 0x117, 0x118, 0x20B]

/-- What the full operation of a short one names: one destination, one source or two, each of one register (R112). -/
def shortOpnds (one : Bool) (f : Short) : List Machine.Opnd :=
  Machine.dOp (dstOf f.d f.dt) 1 1 :: Machine.sOp 1 (srcOf f.a 0 f.ba) 1 1 :: if one then [] else [Machine.sOp 2 (srcOf f.b 0 f.bb) 1 1]

/-- The full operation of a short one, by its opcode (R112). -/
theorem shortInstr_spec {f : Short} {one : Bool} (h : shortOne f.op = some one) (g : Guard) :
    (shortInstr g f).wf = true ∧ Machine.opnds false (shortInstr g f) = shortOpnds one f ∧ Machine.opcodeOf (shortInstr g f) ∈ shortOpcodes ∧
      (Machine.opcodeOf (shortInstr g f) ∈ slowOpcodes → shortHeavy f.op = true) := by
  have hop : f.op < 68 := by
    unfold shortOne at h
    grind
  obtain ⟨op, guard, d, dt, a, b, modi, ba, bb, res⟩ := f
  simp only at h hop
  interval_cases op <;> cases h <;>
    exact ⟨by simp [shortInstr, Instr.wf, immOk], rfl, by simp [shortInstr, Machine.opcodeOf, fieldsOf, mkFields, shortOpcodes],
      by simp [shortInstr, Machine.opcodeOf, fieldsOf, mkFields, slowOpcodes, shortHeavy]⟩

/-- A legal short operation writes a register or none, and its sources are registers (R111). -/
structure Short.Legal (one : Bool) (f : Short) : Prop where
  dst : f.d < 768 ∨ f.d = 1023
  src : ∀ c ∈ f.srcs one, c < 768

theorem short_legal {one : Bool} {f : Short} (h : shortOperandIllegal one f = none) : f.Legal one := by
  simp only [shortOperandIllegal, Option.or_eq_none_iff] at h
  constructor
  · grind
  · cases one <;> simp [Short.srcs] <;> grind

theorem decodePair_eq_ok {w : Nat} {x y : Instr} (h : decodePair w = .ok (x, y)) : ∃ fx fy ox oy gx gy, shortOne fx.op = some ox ∧ shortOne fy.op = some oy ∧
    pairItem ox oy fx fy = none ∧ fx.Legal ox ∧ fy.Legal oy ∧ x = shortInstr gx fx ∧ y = shortInstr gy fy := by
  unfold decodePair at h
  simp only at h
  split at h
  · cases h
  · split at h
    · cases h
    · split at h
      · cases h
      · cases h
      · next ox oy hox hoy =>
        split at h
        · cases h
        · next hitem =>
          split at h
          · cases h
          · cases h
          · next gx gy _ _ =>
            split at h
            · cases h
            · cases h
            · next hx hy =>
              split at h
              · cases h
              · split at h
                · cases h
                · cases h
                  exact ⟨_, _, ox, oy, gx, gy, hox, hoy, hitem, short_legal hx, short_legal hy, rfl, rfl⟩

theorem dstOf_code {code tag : Nat} (h : code < 768 ∨ code = 1023) : (dstOf code tag).code = code := by
  unfold dstOf
  grind [Dst.code]

theorem srcOf_code {code tag blk : Nat} (h : code < 768) : (srcOf code tag blk).code = code := by
  unfold srcOf
  simp [h, Src.code]

theorem regs_dOp {d : Dst} : (Machine.dOp d 1 1).regs = if d.code < 768 then [d.code] else [] := by
  simp only [Machine.Opnd.regs, Machine.dOp]
  grind

theorem regs_sOp {field : Nat} {a : Src} (h : a.code < 768) : (Machine.sOp field a 1 1).regs = [a.code] := by
  simp [Machine.Opnd.regs, Machine.sOp, h]

/-- The register that a legal short operation writes. -/
theorem shortOpnds_writes {one : Bool} {f : Short} (h : f.Legal one) :
    ((shortOpnds one f).filter Machine.Opnd.dst).flatMap Machine.Opnd.regs = if f.d < 768 then [f.d] else [] := by
  have hf : (shortOpnds one f).filter Machine.Opnd.dst = [Machine.dOp (dstOf f.d f.dt) 1 1] := by cases one <;> rfl
  rw [hf, List.flatMap_singleton, regs_dOp, dstOf_code h.dst]

/-- The registers that a legal short operation reads. -/
theorem shortOpnds_reads {one : Bool} {f : Short} (h : f.Legal one) :
    ((shortOpnds one f).filter (fun o => !o.dst)).flatMap Machine.Opnd.regs = f.sources one := by
  have hsrcs : f.sources one = f.srcs one := List.filter_eq_self.2 fun c hc => decide_eq_true (h.src c hc)
  rw [hsrcs]
  have ha := srcOf_code (tag := 0) (blk := f.ba) (h.src f.a (by cases one <;> exact List.mem_cons_self))
  have hra := regs_sOp (field := 1) (a := srcOf f.a 0 f.ba) (by rw [ha]; exact h.src f.a (by cases one <;> exact List.mem_cons_self))
  cases one with
  | true =>
    have hf : (shortOpnds true f).filter (fun o => !o.dst) = [Machine.sOp 1 (srcOf f.a 0 f.ba) 1 1] := rfl
    rw [hf, List.flatMap_singleton, hra, ha]
    rfl
  | false =>
    have hlt : f.b < 768 := h.src f.b (by simp [Short.srcs])
    have hb := srcOf_code (tag := 0) (blk := f.bb) hlt
    have hrb := regs_sOp (field := 2) (a := srcOf f.b 0 f.bb) (by rwa [hb])
    have hf : (shortOpnds false f).filter (fun o => !o.dst) = [Machine.sOp 1 (srcOf f.a 0 f.ba) 1 1, Machine.sOp 2 (srcOf f.b 0 f.bb) 1 1] := rfl
    rw [hf, List.flatMap_cons, List.flatMap_singleton, hra, hrb, ha, hb]
    rfl

theorem decodeWord_eq_two {w : Nat} {sch : Sched} {x y : Instr} (h : decodeWord w = .ok (.two sch x y)) : decodePair w = .ok (x, y) := by
  unfold decodeWord at h
  cases ho : decodeOp (unpack w) <;> cases hp : decodePair w <;> grind

/-- What the items of R113 say of two operations. -/
theorem pairItem_eq_none {ox oy : Bool} {fx fy : Short} (h : pairItem ox oy fx fy = none) : fx.d ≠ fy.d ∧ (fx.d < 768 → fx.d ∉ fy.sources oy) ∧
    (∀ n ∈ fx.sources ox, ∀ m ∈ fy.sources oy, n % 4 ≠ m % 4) ∧ ¬(shortHeavy fx.op = true ∧ shortHeavy fy.op = true) := by
  unfold pairItem at h
  split at h
  · cases h
  · next h1 =>
    split at h
    · cases h
    · next h2 =>
      split at h
      · cases h
      · next h3 =>
        split at h
        · cases h
        · next h4 => exact ⟨h1, by simpa using h2, by simpa using h3, by simpa using h4⟩

/-- Settles O21: the items of R113 that the decoder checks, on the operations that the short ones stand for. -/
theorem pairsAreLegal : Obligations.PairsAreLegal := by
  intro w sch x y h writes reads slow
  obtain ⟨fx, fy, ox, oy, gx, gy, hox, hoy, hitem, hlx, hly, rfl, rfl⟩ := decodePair_eq_ok (decodeWord_eq_two h)
  obtain ⟨hwx, hopx, hcx, hsx⟩ := shortInstr_spec hox gx
  obtain ⟨hwy, hopy, hcy, hsy⟩ := shortInstr_spec hoy gy
  obtain ⟨hd, hraw, hbank, hheavy⟩ := pairItem_eq_none hitem
  have hwritesX : writes (shortInstr gx fx) = if fx.d < 768 then [fx.d] else [] := by simp only [writes, hopx, shortOpnds_writes hlx]
  have hwritesY : writes (shortInstr gy fy) = if fy.d < 768 then [fy.d] else [] := by simp only [writes, hopy, shortOpnds_writes hly]
  have hreadsX : reads (shortInstr gx fx) = fx.sources ox := by simp only [reads, hopx, shortOpnds_reads hlx]
  have hreadsY : reads (shortInstr gy fy) = fy.sources oy := by simp only [reads, hopy, shortOpnds_reads hly]
  rw [hwritesX, hwritesY, hreadsX, hreadsY]
  have := hlx.dst
  have := hly.dst
  refine ⟨hwx, hwy, ?_, ?_, hbank, fun hslow => hheavy ⟨hsx hslow.1, hsy hslow.2⟩, ?_⟩
  · by_cases hx : fx.d < 768
    · exact .inl (by simp [hx])
    · exact .inr (by simp [show fy.d < 768 by omega])
  · intro n hn
    by_cases hx : fx.d < 768
    · obtain rfl : n = fx.d := by simpa [hx] using hn
      refine ⟨?_, hraw hx⟩
      split <;> simp [hd]
    · simp [hx] at hn
  · rintro i (_ | ⟨_, _ | ⟨_, ⟨⟩⟩⟩)
    · exact hcx
    · exact hcy

end Sys2Proof
end

section
/-! O32. A register word, NOP, YIELD or DRAIN advances its fragment and counts (R102, R130, R226). -/

namespace Sys2Proof.Machine

variable {s t u : State} {e : Env} {i : Instr}

/-- The fragments, and the threads' counts of words, stand as before. -/
structure State.SameCounts (s t : State) : Prop where
  frags : t.frags = s.frags
  retired : t.threads.map Thread.retired = s.threads.map Thread.retired

theorem State.SameCounts.refl (s : State) : s.SameCounts s := ⟨rfl, rfl⟩

theorem State.SameCounts.trans (h : s.SameCounts t) (h' : t.SameCounts u) : s.SameCounts u :=
  ⟨h'.frags.trans h.frags, h'.retired.trans h.retired⟩

theorem updThreads_sameCounts (s : State) (p : Thread → Bool) {f : Thread → Thread} (hf : ∀ x, (f x).retired = x.retired) :
    s.SameCounts (updThreads s p f) := by
  refine ⟨rfl, ?_⟩
  show (updWhere p f s.threads).map Thread.retired = _
  rw [updWhere, List.map_map]
  refine List.map_congr_left fun x _ => ?_
  simp only [Function.comp]
  split
  · exact hf x
  · rfl

theorem lwrite_sameCounts (s : State) (p n : Nat) (pl : Bool) (vals : List (TRef × Word)) : s.SameCounts (lwrite s p n pl vals) := by
  refine (updThreads_sameCounts s (fun t => (valOf vals t.ref).isSome) (f := fun t => t.overtake n none) (fun _ => rfl)).trans ?_
  unfold lwrite writeCopies
  simp only
  split
  · exact (updThreads_sameCounts _ (fun t => t.inPool p) (f := fun t => t.dropSpring n) (fun _ => rfl)).trans ⟨rfl, rfl⟩
  · exact updThreads_sameCounts _ _ (fun _ => rfl)

theorem writeDst_sameCounts (s : State) (e : Env) (d : Dst) (vals : List (List (TRef × Word))) : s.SameCounts (writeDst s e d vals) := by
  cases d with
  | none => exact .refl s
  | reg n tag =>
    simp only [writeDst]
    generalize vals.zip _ = l
    induction l generalizing s with
    | nil => exact .refl s
    | cons p l ih => exact (lwrite_sameCounts s _ _ _ _).trans (ih _)

theorem writeW_sameCounts (s : State) (e : Env) (w : Bool) (d : Dst) (vals : List (TRef × DWord)) : s.SameCounts (writeW s e w d vals) := by
  cases w <;> exact writeDst_sameCounts ..

theorem writePred_sameCounts (s : State) (k : Nat) (vals : List (TRef × Bool)) : s.SameCounts (writePred s k vals) :=
  updThreads_sameCounts _ _ (fun _ => rfl)

theorem setFlags_sameCounts (s : State) (vals : List (TRef × FlagSet)) : s.SameCounts (setFlags s vals) :=
  updThreads_sameCounts _ _ (fun _ => rfl)

/-- A register word is a word that cannot trap after its checks, and its body counts nothing. -/
theorem registerWord_plain (hi : isRegisterWord i = true) (s : State) :
    ∃ f, exec i s = issue i s (plain (guardOfInstr i) f) ∧ ∀ e act u, State.SameCounts u (f e act u) := by
  cases i with
  | mov g w _ d | movi g w _ d | sel g w _ d | iabs g w _ d | imulh g w _ d | imin g w _ d | imax g w _ d | idiff g w _ d | iset g w _ _ d
  | and g w d | or g w d | xor g w d | not g w d | tlog g w d | shl g w d | shr g w d | sar g w d | rot g w d | brev g w d | bfx g w _ d
  | bfi g w d | iadd g m d | isub g m d | imul g m d | imad g m d | ineg g m d | imadw g _ _ d | lea g _ d
  | movh g d | fshl g d | fshr g d | bytep g d | popc g _ d | clz g _ d | ctz g _ d | pget g _ d | xtbl g _ _ d | qget g _ sel d
  | maddq _ _ d | msubq _ _ d | mnegq _ _ d | mmulq _ _ d | mmacq _ _ d | mredq _ _ d | xbfly _ _ _ _ d | xibfly _ _ _ _ d =>
    exact ⟨_, rfl, fun _ _ _ => writeW_sameCounts ..⟩
  | iaddc g w d a b pi po | isubb g w d a b pi po => exact ⟨_, rfl, fun _ _ _ => (writePred_sameCounts ..).trans (writeW_sameCounts ..)⟩
  | icmp g _ _ _ p | pand g p | por g p | pxor g p | pnot g p | pmov g p | xvote g _ p => exact ⟨_, rfl, fun _ _ _ => writePred_sameCounts ..⟩
  | pset g half a b imm => exact ⟨_, rfl, fun _ _ _ => updThreads_sameCounts _ _ (fun _ => rfl)⟩
  | fcmp g _ _ _ p d => exact ⟨_, rfl, fun _ _ _ => (writePred_sameCounts ..).trans (writeDst_sameCounts ..)⟩
  | fmin g _ _ d | fmax g _ _ d | fclass g _ _ _ d | xshf g _ _ d | xbcast g _ d | xpfx g _ d | xslide g _ d | xcmpr g d | xexpd g d | lrank g d
  | mslotCnt g d | xballot g d | bfly _ _ d a b c | ibfly _ _ d a b c => exact ⟨_, rfl, fun _ _ _ => writeDst_sameCounts ..⟩
  | fadd g _ d | fsub g _ d | fmul g _ d | ffma g _ d | fdiv g _ d | fsqrt g _ d | frcp g _ d | frsq g _ d | fexp2 g _ d | flog2 g _ d | fsin g _ d
  | fcos g _ d | ftanh g _ d | fscale g _ d | frnd g _ _ _ d | fcvt g m _ d | icvt g m _ _ d | kdec g m kb4 d | fcvti g kind _ _ _ _ d =>
    exact ⟨_, rfl, fun _ _ _ => (setFlags_sameCounts ..).trans (writeDst_sameCounts ..)⟩
  | xred g r d a | xscan g r d a => exact ⟨_, rfl, fun _ _ _ => (setFlags_sameCounts ..).trans (writeW_sameCounts ..)⟩
  | _ => cases hi

/-- The count of a thread after a word of the fragment `r` (R226). -/
def Thread.retiredAfter (r : FRef) (u : Thread) : DWord := if u.inFrag r then u.retired + 1 else u.retired

/-- The address of a fragment after the word of `e`: that of the next word, but for operation X of a pair (R102). -/
def Frag.pcAfter (e : Env) (f : Frag) : Nat := if f.ref = e.frag.ref ∧ e.iss.part ≠ .pairX then f.pc + 16 else f.pc

/-- The threads of a word's fragment have counted it once, and the fragment has gone on. -/
structure State.Advances (e : Env) (s t : State) : Prop where
  threads : t.threads.map Thread.retired = s.threads.map (Thread.retiredAfter e.frag.ref)
  frags : t.frags.map Frag.pc = s.frags.map (Frag.pcAfter e)

theorem State.Advances.of_sameCounts (h : s.Advances e t) (h' : t.SameCounts u) : s.Advances e u :=
  ⟨h'.retired.trans h.threads, by rw [h'.frags]; exact h.frags⟩

theorem finish_advances (s : State) (e : Env) (i : Instr) : s.Advances e (finish s e i) := by
  constructor
  · rw [finish_threads_eq_map, List.map_map]
    refine List.map_congr_left fun u _ => ?_
    simp only [Function.comp, Thread.issued, Thread.retiredAfter]
    split <;> rfl
  · have hmoved (g : Frag → Frag) (hg : ∀ f : Frag, f.ref = e.frag.ref → (g f).pc = f.pcAfter e) :
        (updWhere (fun x => x.ref == e.frag.ref) g s.frags).map Frag.pc = s.frags.map (Frag.pcAfter e) := by
      rw [updWhere, List.map_map]
      refine List.map_congr_left fun f _ => ?_
      by_cases hf : f.ref = e.frag.ref
      · simp [hf, hg f hf]
      · simp [hf, Frag.pcAfter]
    unfold finish
    simp only
    have hs : (if e.counts i = true then countHint (updThreads s (fun u => u.inFrag e.frag.ref) (fun u => { u with retired := u.retired + 1 })) e.ctx.rcd.id e.core
        else updThreads s (fun u => u.inFrag e.frag.ref) (fun u => { u with retired := u.retired + 1 })).frags = s.frags := by split <;> rfl
    split
    · next hp =>
      simp only [updFrag, hs]
      exact hmoved _ fun f _ => by simp [Frag.pcAfter, hp]
    · next hp =>
      simp only [updFrag, hs]
      have hne : e.iss.part ≠ .pairX := hp
      exact hmoved _ fun f hf => by simp [Frag.pcAfter, hf, hne]

theorem forall₂_of_map_eq {α β γ : Type} {f : α → γ} {g : β → γ} {l : List α} {l' : List β} (h : l'.map g = l.map f) :
    List.Forall₂ (fun a b => g b = f a) l l' := by
  have : List.Forall₂ Eq (l'.map g) (l.map f) := by rw [h]; exact List.forall₂_eq_eq_eq ▸ rfl
  exact (List.forall₂_map_left_iff.1 (List.forall₂_map_right_iff.1 this)).flip

/-- A word whose body does nothing leaves what its issue does. -/
theorem issue_nothing (h : Issues s e i) (hx : exec i s = issue i s (fun _ s => .ok s)) : exec i s = .next (finish s e i) := by
  rw [hx, issue_ok h (fun _ s => s)]

/-- Settles O32: the issue of a word counts and advances, and no register word's body changes a count or a fragment. -/
theorem wordsAdvanceAndCount : Obligations.WordsAdvanceAndCount := by
  intro s e i hi h
  suffices hs : ∃ t, exec i s = .next t ∧ s.Advances e t ∧ (isRegisterWord i = false → s.Keeps e [] [] false [] t) by
    obtain ⟨t, ht, ha, hk⟩ := hs
    exact ⟨t, ht, forall₂_of_map_eq ha.threads, forall₂_of_map_eq ha.frags, hk⟩
  obtain hr | ⟨g, rfl⟩ | ⟨g, rfl⟩ | ⟨g, k, rfl⟩ := hi
  · obtain ⟨f, hx, hf⟩ := registerWord_plain hr s
    refine ⟨_, hx.trans (issue_plain h _ f), ?_, by simp [hr]⟩
    split
    · exact finish_advances ..
    · exact (finish_advances ..).of_sameCounts (hf ..)
  all_goals exact ⟨_, issue_nothing h rfl, finish_advances .., fun _ => finish_keeps⟩

end Sys2Proof.Machine
end

section
/-! What the issue of a word leaves to its checks (R343, R356): the translation of an access, and whether the earlier accesses of its threads are
performed. -/

namespace Sys2Proof.Machine

variable {s x : State} {e : Env} {i : Instr}

/-- Two states translate alike: their homes, damaged lines, cached translations and peer lines agree. -/
structure State.SameXlat (s x : State) : Prop where
  badLines : x.badLines = s.badLines
  host : x.host = s.host
  home : ∀ a, homeByte x a = homeByte s a
  tlb : x.tlb = s.tlb
  peerLines : x.peerLines = s.peerLines

theorem State.SameXlat.ownAddr (h : s.SameXlat x) (a : Nat) : ownAddr x a = Machine.ownAddr s a := by
  simp only [Machine.ownAddr, h.host]

theorem State.SameXlat.populated (h : s.SameXlat x) (a : Nat) : populated x a = Machine.populated s a := by
  simp only [Machine.populated, feature, h.host]

theorem State.SameXlat.xlat (h : s.SameXlat x) (lake : Option Nat) (c : Ctx) (va : Nat) : xlat x lake c va = Machine.xlat s lake c va := by
  simp only [Machine.xlat, tlbHit, walk, h.tlb, walkFrom_of_homeByte h.badLines h.host h.home]

theorem State.SameXlat.spans (h : s.SameXlat x) (c : Ctx) (stop : Nat) : ∀ k va, spans x c stop k va = Machine.spans s c stop k va
  | 0, _ => rfl
  | k + 1, va => by
    simp only [Machine.spans, h.xlat, h.ownAddr, h.populated, h.spans c stop k]

theorem State.SameXlat.checkXlat (h : s.SameXlat x) (lake : Option Nat) (c : Ctx) (prog : Bool) :
    checkXlat x lake c prog = Machine.checkXlat s lake c prog := by
  funext r
  have hpriv : ∀ pa n, privileged x c pa n = privileged s c pa n := fun pa n => by
    simp only [privileged, physOf, spansOf, h.spans]
  have hhdr : ∀ pa n, inHeader x c pa n = inHeader s c pa n := fun pa n => by
    simp only [inHeader, physOf, spansOf, h.spans]
  have hheld : ∀ pa n, heldPeer x lake pa n = heldPeer s lake pa n := fun pa n => by
    simp only [heldPeer, h.peerLines]
  simp only [Machine.checkXlat, h.xlat, h.ownAddr, h.populated, h.host, hpriv, hhdr, hheld]

theorem State.SameXlat.checkMem (h : s.SameXlat x) (lake : Option Nat) (c : Ctx) (prog : Bool) (rs : List MemReq) :
    checkMem x lake c prog rs = Machine.checkMem s lake c prog rs := by
  rw [Machine.checkMem, Machine.checkMem, h.checkXlat]

theorem State.SameXlat.checkFatal (h : s.SameXlat x) (lake : Option Nat) (c : Ctx) (prog : Bool) (rs : List MemReq) :
    checkFatal x lake c prog rs = Machine.checkFatal s lake c prog rs := by
  rw [Machine.checkFatal, Machine.checkFatal, h.checkXlat]

theorem finish_sameXlat (s : State) (e : Env) (i : Instr) : s.SameXlat (finish s e i) := by
  rw [finish_eq]
  exact ⟨rfl, rfl, fun _ => rfl, rfl, rfl⟩

@[simp] theorem finish_accs (s : State) (e : Env) (i : Instr) : (finish s e i).accs = s.accs := by rw [finish_eq]
@[simp] theorem finish_slices (s : State) (e : Env) (i : Instr) : (finish s e i).slices = s.slices := by rw [finish_eq]
@[simp] theorem finish_copies (s : State) (e : Env) (i : Instr) : (finish s e i).copies = s.copies := by rw [finish_eq]
@[simp] theorem finish_mops (s : State) (e : Env) (i : Instr) : (finish s e i).mops = s.mops := by rw [finish_eq]
@[simp] theorem finish_invals (s : State) (e : Env) (i : Instr) : (finish s e i).invals = s.invals := by rw [finish_eq]
@[simp] theorem finish_tlb (s : State) (e : Env) (i : Instr) : (finish s e i).tlb = s.tlb := by rw [finish_eq]
@[simp] theorem finish_nextId (s : State) (e : Env) (i : Instr) : (finish s e i).nextId = s.nextId := by rw [finish_eq]
@[simp] theorem finish_icache (s : State) (e : Env) (i : Instr) : (finish s e i).icache = s.icache := by rw [finish_eq]
@[simp] theorem finish_hostLines (s : State) (e : Env) (i : Instr) : (finish s e i).hostLines = s.hostLines := by rw [finish_eq]
@[simp] theorem finish_peerLines (s : State) (e : Env) (i : Instr) : (finish s e i).peerLines = s.peerLines := by rw [finish_eq]
@[simp] theorem finish_mem (s : State) (e : Env) (i : Instr) : (finish s e i).mem = s.mem := by rw [finish_eq]

/-- Whether the engines have still to reach device pages does not depend on the issue of the word. -/
theorem finish_engineDevice (s : State) (e : Env) (i : Instr) (t : TRef) (wid : Nat) :
    engineDevice (finish s e i) t wid = engineDevice s t wid := by
  have hdev : ∀ o us, onDevice (finish s e i) o us = onDevice s o us := fun o us => by
    simp only [onDevice, ctx, finish_ctxs, (finish_sameXlat s e i).xlat]
  simp only [engineDevice, finish_copies, finish_mops, hdev]

theorem finish_actsReady (s : State) (e : Env) (i : Instr) (ls : List (Thread × Leaf)) : actsReady (finish s e i) e ls = actsReady s e ls := by
  simp only [actsReady, deviceBefore, coveredHome, finish_accs, finish_slices, finish_engineDevice]

/-- The threads of the state that issues a word have observed what they had. -/
theorem finish_observedHome (s : State) (e : Env) (i : Instr) (t : TRef) : observedHome (finish s e i) t = observedHome s t := by
  have hobs : ∀ u : Thread, (u.issued e.frag.ref).observed = u.observed := fun u => by rw [Thread.issued_eq]
  have hthread : thread (finish s e i) t = (thread s t).map (Thread.issued e.frag.ref) := by
    simp only [thread, finish_threads_eq_map, List.find?_map, Function.comp_def, issued_ref]
  unfold observedHome
  rw [hthread, finish_slices]
  cases thread s t with
  | none => rfl
  | some u => simp only [Option.map_some, hobs]

theorem finish_fenced_rel (s : State) (e : Env) (i : Instr) (sc : Scope) (t : TRef) : fenced (finish s e i) .rel sc t = fenced s .rel sc t := by
  simp only [fenced, performedFor, storesHome, finish_accs, finish_slices, finish_observedHome]

/-- Among faults one decides. -/
theorem firstFault_eq_none {fs : List MemFault} (h : firstFault fs = none) : fs = [] := by
  refine List.eq_nil_iff_forall_not_mem.2 fun f hf => ?_
  have hnil := (List.append_eq_nil_iff.1 (List.head?_eq_none_iff.1 h)).2
  exact List.not_mem_nil (hnil ▸ mem_sortBy.2 hf)

/-- Answers without a fault are all kept. -/
theorem length_pasOf : ∀ {l : List (Except MemFault (Nat × Leaf))}, decidingFault l = none → (pasOf l).length = l.length
  | [], _ => rfl
  | .ok _ :: l, h => congrArg (· + 1) (length_pasOf (l := l) h)
  | .error _ :: _, h => absurd (firstFault_eq_none h) (List.cons_ne_nil _ _)

/-- The checks of a word that find no fault answer each of its requests. -/
theorem length_of_checkBy {tr : MemReq → Except MemFault (Nat × Leaf)} {rs : List MemReq} {hs : List (Nat × Leaf)} (h : checkBy tr rs = .ok hs) :
    hs.length = rs.length := by
  unfold checkBy at h
  split at h
  · cases h
  · split at h
    · cases h
    · next hnone =>
      injection h with h
      rw [← h, length_pasOf hnone, List.length_map]

end Sys2Proof.Machine
end

section
/-! O51, XLINV (R239): what it drops, what it waits for, and its fragment, which holds until that is at home. -/

namespace Sys2Proof.Machine

variable {s : State} {e : Env} {i : Instr} {rs : List (Nat × Nat)} {all : Bool}

/-- An access of the context `c` to `va` may have been translated under what an invalidation of the context `ctxId` drops (R239). -/
def invalHits (s : State) (ctxId : Nat) (rs : List (Nat × Nat)) (all : Bool) (c va : Nat) : Bool :=
  (all && c == ctxId) || inSpans (rs.map pagesOf ++ (s.tlb.filter (dropsTlb ctxId rs all)).map (fun t => t.leaf.span)) va

/-- The invalidation that a program begins, with what it waits for (R239). -/
def begunInval (s : State) (ctxId : Nat) (rs : List (Nat × Nat)) (all : Bool) : Inval :=
  let begun := s.copies.filter (fun c => !c.unread && invalHits s ctxId rs all c.orig.ctx c.va)
  ⟨s.nextId, ctxId, rs, all,
    ((s.accs ++ s.slices).filter (fun y => y.space == .mem && invalHits s ctxId rs all y.orig.ctx y.va)).map Access.id ++
      ((commitWrites s).filter (fun x => invalHits s ctxId rs all x.1 x.2.va)).map (fun x => x.2.seq),
    begun.map Copy.id, begun.map Copy.wid, false, false, []⟩

/-- What has been translated under dropped translations does not depend on the issue of the word. -/
theorem finish_invalHits (s : State) (e : Env) (i : Instr) (c : Nat) : invalHits (finish s e i) c rs all = invalHits s c rs all := by
  funext x va
  simp only [invalHits, finish_tlb]

theorem finish_begunInval (s : State) (e : Env) (i : Instr) (c : Nat) : begunInval (finish s e i) c rs all = begunInval s c rs all := by
  simp only [begunInval, finish_invalHits, commitWrites, launch, finish_copies, finish_accs, finish_slices, finish_nextId, finish_blocks,
    finish_launches]

/-- The state in which an issued word's fragment holds for its invalidation. -/
theorem holdInval_finish (s : State) (e : Env) (i : Instr) (rs : List (Nat × Nat)) (all : Bool) : holdInval (finish s e i) e rs all =
    begin_ (updFrag { finish s e i with
      nextId := s.nextId + 1
      tlb := s.tlb.filter (fun t => !dropsTlb e.ctx.rcd.id rs all t)
      copies := updWhere (fun c => c.unread && invalHits s e.ctx.rcd.id rs all c.orig.ctx c.va) Copy.fresh s.copies
      invals := s.invals ++ [begunInval s e.ctx.rcd.id rs all] } e.frag.ref (fun f => { f with hold := .inval s.nextId e.waiter })) e := by
  rw [← finish_begunInval s e i, ← finish_invalHits s e i, ← finish_nextId s e i, ← finish_tlb s e i, ← finish_copies s e i,
    ← finish_invals s e i]
  rfl

/-- A range lies in its pages. -/
theorem mem_pagesOf {r : Nat × Nat} {a : Nat} (h : r.1 ≤ a ∧ a < r.1 + r.2) : (pagesOf r).1 ≤ a ∧ a < (pagesOf r).2 := by
  simp only [pagesOf]
  omega

/-- What an invalidation means to reach, it waits for. -/
theorem invalHits_of_meant {ctxId c a : Nat} (h : (all = true ∧ c = ctxId) ∨ ∃ r ∈ rs, r.1 ≤ a ∧ a < r.1 + r.2) :
    invalHits s ctxId rs all c a = true := by
  unfold invalHits
  rcases h with ⟨rfl, rfl⟩ | ⟨r, hr, ha⟩
  · simp
  · have hin : inSpans (rs.map pagesOf ++ (s.tlb.filter (dropsTlb ctxId rs all)).map (fun t => t.leaf.span)) a = true :=
      List.any_eq_true.2 ⟨pagesOf r, List.mem_append_left _ (List.mem_map_of_mem hr), decide_eq_true (mem_pagesOf ha)⟩
    rw [hin, Bool.or_true]

theorem acc_mem_waits {ctxId : Nat} {y : Access} (hy : y ∈ s.accs ++ s.slices) (hsp : y.space = .mem)
    (h : invalHits s ctxId rs all y.orig.ctx y.va = true) : y.id ∈ (begunInval s ctxId rs all).waits :=
  List.mem_append_left _ (List.mem_map_of_mem (List.mem_filter.2 ⟨hy, by simp [hsp, h]⟩))

theorem commitWrite_mem_waits {ctxId : Nat} {b : Block} {l : Launch} {x : BufEntry} (hb : b ∈ s.blocks) (hl : launch s b.launch = some l)
    (hx : x ∈ b.buffer) (hnone : x.launch = none) (h : invalHits s ctxId rs all l.ctx x.va = true) :
    x.seq ∈ (begunInval s ctxId rs all).waits := by
  have hmem : (l.ctx, x) ∈ commitWrites s := by
    refine List.mem_flatMap.2 ⟨b, hb, ?_⟩
    simp only [hl]
    exact List.mem_map.2 ⟨x, List.mem_filter.2 ⟨hx, by simp [hnone]⟩, rfl⟩
  exact List.mem_append_right _ (List.mem_map.2 ⟨(l.ctx, x), List.mem_filter.2 ⟨hmem, h⟩, rfl⟩)

theorem copy_mem_begun {ctxId : Nat} {c : Copy} (hc : c ∈ s.copies) (hgot : c.got ≠ []) (h : invalHits s ctxId rs all c.orig.ctx c.va = true) :
    c.id ∈ (begunInval s ctxId rs all).copies ∧ c.wid ∈ (begunInval s ctxId rs all).writers := by
  have hmem : c ∈ s.copies.filter (fun c => !c.unread && invalHits s ctxId rs all c.orig.ctx c.va) :=
    List.mem_filter.2 ⟨hc, by simp [Copy.unread, hgot, h]⟩
  exact ⟨List.mem_map_of_mem hmem, List.mem_map_of_mem hmem⟩

/-- Copy commands lose at most the translation of one that has read nothing. -/
theorem copies_fresh (p : Copy → Bool) (l : List Copy) :
    List.Forall₂ (fun (c c' : Copy) => c' = c ∨ (c.got = [] ∧ c' = { c with pa := none, leaf := none })) l
      (updWhere (fun c => c.unread && p c) Copy.fresh l) := by
  rw [updWhere, List.forall₂_map_right_iff]
  refine forall₂_self _ fun c _ => ?_
  split
  · next h => exact .inr ⟨List.isEmpty_iff.1 (Bool.and_eq_true_iff.1 h).1, rfl⟩
  · exact .inl rfl

/-- What is left of the issue of a word whose fragment holds for an invalidation. -/
theorem holdInval_issued (s : State) (e : Env) (i : Instr) (rs : List (Nat × Nat)) (all : Bool) :
    let t := holdInval (finish s e i) e rs all
    State.Issued e [] [] { s with
      tlb := t.tlb
      copies := t.copies
      invals := t.invals
      incomplete := s.incomplete ++ [e.iss.wid]
      nextId := t.nextId } t := by
  intro t
  refine issued_of ?_ (finish_threads_eq_map s e i) ((finish_frags s e i).updWhere fun x => ⟨rfl, rfl⟩)
  simp only [t, holdInval_finish, begin_, updFrag]
  conv_lhs => rw [finish_eq]
  simp only [finish_threads]

/-- The fragment of the word holds for its invalidation. -/
theorem holdInval_holds (h : Issues s e i) (rs : List (Nat × Nat)) (all : Bool) :
    ∃ f ∈ (holdInval (finish s e i) e rs all).frags, f.ref = e.frag.ref ∧ f.hold = .inval s.nextId e.waiter := by
  obtain ⟨f, hfs, hf⟩ := finish_frags s e i
  have hmem : f e.frag ∈ (finish s e i).frags := by
    rw [hfs]
    exact List.mem_map.2 ⟨e.frag, h.stands.frag, by simp⟩
  rw [holdInval_finish]
  refine ⟨{ f e.frag with hold := .inval s.nextId e.waiter }, List.mem_map.2 ⟨f e.frag, hmem, ?_⟩, (hf _).1, rfl⟩
  rw [if_pos (by simp [(hf _).1])]

/-- The two forms of XLINV, by the ranges that they name. -/
theorem exec_xlinv {g : Guard} (hi : (∃ a b, i = .xlinvRng g a b ∧ all = false ∧
        rs = ((e.active g).map (fun u => ((e.src64 0 false u a).toNat, (e.src 0 u b).toNat))).filter (fun r => r.2 != 0)) ∨
      (i = .xlinvAll g ∧ all = true ∧ rs = [])) (h : Issues s e i) :
    exec i s = .next (if (all = false ∧ rs = []) ∨ e.active g = [] then finish s e i else holdInval (finish s e i) e rs all) := by
  rcases hi with ⟨a, b, rfl, rfl, hrs⟩ | ⟨rfl, rfl, rfl⟩
  · have hnil : e.active g = [] → rs = [] := fun hact => by rw [hrs, hact]; rfl
    show execXlinvRng g a b s = _
    rw [execXlinvRng, issue_of_issues h]
    have hranges : e.rangesOf a b (e.active g) = rs := hrs.symm
    simp only [hranges]
    by_cases hrs0 : rs = []
    · simp [hrs0, settle]
    · simp [hrs0, mt hnil hrs0, settle]
  · show execXlinvAll g s = _
    rw [execXlinvAll, issue_of_issues h]
    by_cases hact : e.active g = []
    · simp [hact, settle]
    · simp [hact, settle]

/-- XLINV (R239). -/
theorem xlinv_acts (i : Instr) (g : Guard) (rs : List (Nat × Nat)) (all : Bool) (s : State) (e : Env)
    (hi : (∃ a b, i = .xlinvRng g a b ∧ all = false ∧
        rs = ((e.active g).map (fun u => ((e.src64 0 false u a).toNat, (e.src 0 u b).toNat))).filter (fun r => r.2 != 0)) ∨
      (i = .xlinvAll g ∧ all = true ∧ rs = [])) (h : Issues s e i) :
    ∃ t, exec i s = .next t ∧ ((all = false ∧ rs = []) ∨ e.active g = [] → State.Issued e [] [] s t) ∧
      (e.active g ≠ [] → (all = true ∨ rs ≠ []) → ∃ v, t.invals = s.invals ++ [v] ∧ v.ctx = e.ctx.rcd.id ∧ v.ranges = rs ∧ v.all = all ∧
        v.acked = false ∧ v.host = false ∧
        State.Issued e [] [] { s with
          tlb := t.tlb
          copies := t.copies
          invals := t.invals
          incomplete := s.incomplete ++ [e.iss.wid]
          nextId := t.nextId } t ∧
        List.Forall₂ (fun (c c' : Copy) => c' = c ∨ (c.got = [] ∧ c' = { c with pa := none, leaf := none })) s.copies t.copies ∧
        (∃ f ∈ t.frags, f.ref = e.frag.ref ∧ f.hold = .inval v.id e.waiter) ∧
        (∀ x, x ∈ t.tlb ↔ x ∈ s.tlb ∧ ¬((x.ctx = e.ctx.rcd.id ∨ x.leaf.glob = true) ∧ (all = true ∨ ∃ r ∈ rs,
          x.leaf.page * x.leaf.size < r.1 + r.2 ∧ r.1 < x.leaf.page * x.leaf.size + x.leaf.size))) ∧
        let meant (c a : Nat) : Prop := (all = true ∧ c = e.ctx.rcd.id) ∨ ∃ r ∈ rs, r.1 ≤ a ∧ a < r.1 + r.2
        (∀ y ∈ s.accs ++ s.slices, y.space = .mem → meant y.orig.ctx y.va → y.id ∈ v.waits) ∧
        (∀ c ∈ s.copies, c.got ≠ [] → meant c.orig.ctx c.va → c.id ∈ v.copies ∧ c.wid ∈ v.writers) ∧
        ∀ b ∈ s.blocks, ∀ l, launch s b.launch = some l → ∀ x ∈ b.buffer, x.launch = none → meant l.ctx x.va → x.seq ∈ v.waits) := by
  refine ⟨_, exec_xlinv hi h, fun hnone => ?_, fun hact hrs => ?_⟩
  · rw [if_pos hnone]
    exact finish_issued s e i
  · have hsome : ¬((all = false ∧ rs = []) ∨ e.active g = []) := by
      rintro (⟨rfl, hnil⟩ | hnil)
      · exact hrs.elim (by simp) (· hnil)
      · exact hact hnil
    rw [if_neg hsome]
    have heq := holdInval_finish s e i rs all
    refine ⟨begunInval s e.ctx.rcd.id rs all, by rw [heq]; rfl, rfl, rfl, rfl, rfl, rfl, holdInval_issued s e i rs all, ?_,
      holdInval_holds h rs all, fun x => ?_, fun y hy hsp hm => acc_mem_waits hy hsp (invalHits_of_meant hm),
      fun c hc hgot hm => copy_mem_begun hc hgot (invalHits_of_meant hm),
      fun b hb l hl x hx hnone hm => commitWrite_mem_waits hb hl hx hnone (invalHits_of_meant hm)⟩
    · rw [heq]
      exact copies_fresh (fun c => invalHits s e.ctx.rcd.id rs all c.orig.ctx c.va) s.copies
    · rw [heq]
      exact List.mem_filter.trans (and_congr_right fun _ => by rw [Bool.not_eq_true', ← Bool.not_eq_true, dropsTlb_iff])

end Sys2Proof.Machine
end

section
/-! O51, the words and translations of a code range dropped (R116, R117, R235, R238). -/

namespace Sys2Proof.Machine

variable {s t u : State} {c : Nat}

/-- Relations of lists compose element by element. -/
theorem forall₂_comp {α β γ : Type} {R : α → β → Prop} {S : β → γ → Prop} {T : α → γ → Prop} (h : ∀ x y z, R x y → S y z → T x z) :
    ∀ {l m n}, List.Forall₂ R l m → List.Forall₂ S m n → List.Forall₂ T l n
  | _, _, _, .nil, .nil => .nil
  | _, _, _, .cons hx hl, .cons hy hm => .cons (h _ _ _ hx hy) (forall₂_comp h hl hm)

/-- Where both caches stand, code of no range is dropped. -/
theorem codeDropped_nil (hi : t.icache = s.icache) (hc : t.ctxs = s.ctxs) : CodeDropped s t c [] := by
  refine ⟨fun x => by simp [hi], ?_⟩
  rw [hc]
  exact forall₂_self _ fun y _ => ⟨rfl, fun _ => rfl, fun _ x => by simp⟩

/-- Code dropped in two steps. -/
theorem CodeDropped.trans {l m : List (Nat × Nat)} (h : CodeDropped s t c l) (h' : CodeDropped t u c m) : CodeDropped s u c (l ++ m) := by
  obtain ⟨hi, hc⟩ := h
  obtain ⟨hi', hc'⟩ := h'
  refine ⟨fun x => ?_, forall₂_comp (fun y y' y'' hy hy' => ?_) hc hc'⟩
  · rw [hi', hi, and_assoc, ← forall_and]
    simp only [List.mem_append, or_imp, forall_and]
  · obtain ⟨hrest, hne, heq⟩ := hy
    obtain ⟨hrest', hne', heq'⟩ := hy'
    have hid : y'.rcd.id = y.rcd.id := by rw [hrest]
    refine ⟨by rw [hrest', hrest], fun hn => (hne' (hid ▸ hn)).trans (hne hn), fun he x => ?_⟩
    rw [heq' (hid.trans he), heq he, and_assoc]
    simp only [List.mem_append, or_imp, forall_and]

/-- Both caches are dropped alike from states in which they are alike. -/
theorem CodeDropped.of_eq {l : List (Nat × Nat)} (h : CodeDropped s t c l) (hi : s.icache = u.icache) (hc : s.ctxs = u.ctxs) :
    CodeDropped u t c l := by
  unfold CodeDropped at h ⊢
  rwa [hi, hc] at h

/-- The words and the translations of one range are dropped. -/
theorem dropCode_codeDropped (s : State) (c : Nat) (r : Nat × Nat) : CodeDropped s (dropCode c s r) c [r] := by
  refine ⟨fun x => List.mem_filter.trans (and_congr_right fun _ => ?_), ?_⟩
  · simp only [List.forall_mem_singleton]
    simp [meetsCode, imp_iff_not_or]
  · show List.Forall₂ _ s.ctxs (updWhere _ _ s.ctxs)
    rw [updWhere, List.forall₂_map_right_iff]
    refine forall₂_self _ fun y _ => ?_
    by_cases hy : y.rcd.id = c
    · rw [if_pos (beq_iff_eq.2 hy)]
      refine ⟨rfl, fun hn => absurd hy hn, fun _ x => List.mem_filter.trans (and_congr_right fun _ => ?_)⟩
      simp only [List.forall_mem_singleton]
      simp [meetsCode, imp_iff_not_or]
    · rw [if_neg (by simpa using hy)]
      exact ⟨rfl, fun _ => rfl, fun h => absurd h hy⟩

/-- The code of some ranges dropped, one after another, leaves all else. -/
theorem foldl_dropCode_rest (c : Nat) (rs : List (Nat × Nat)) (s : State) :
    ∃ ic cs, rs.foldl (dropCode c) s = { s with icache := ic, ctxs := cs } :=
  List.foldlRecOn (motive := fun t : State => ∃ ic cs, t = { s with icache := ic, ctxs := cs }) rs _ ⟨s.icache, s.ctxs, rfl⟩
    fun _ ⟨_, _, ht⟩ _ _ => ht ▸ ⟨_, _, rfl⟩

theorem foldl_dropCode_codeDropped (c : Nat) : ∀ (rs : List (Nat × Nat)) (s : State), CodeDropped s (rs.foldl (dropCode c) s) c rs
  | [], _ => codeDropped_nil rfl rfl
  | r :: rs, s => (dropCode_codeDropped s c r).trans (foldl_dropCode_codeDropped c rs (dropCode c s r))

end Sys2Proof.Machine
end

section
/-! O51, ICINV (R238): the host lines that it writes back, and the release of its threads in a still kernel. -/

namespace Sys2Proof.Machine

variable {s t u : State} {e : Env} {i : Instr} {act : List Thread}

theorem flushCtx_eq (s : State) (c : Nat) :
    flushCtx s c = writeBackAll false ((s.hostLines.filter (fun h => h.dirty && h.ctxs.contains c)).map HostLine.line) s := by
  rw [writeBackAll, List.foldl_map]
  rfl

/-- After the flush of a context none of its lines is dirty. -/
theorem clean_of_mem_flushCtx {c : Nat} {h : HostLine} (hh : h ∈ (flushCtx s c).hostLines) (hc : c ∈ h.ctxs) : h.dirty = false := by
  rw [flushCtx_eq] at hh
  rcases of_mem_writeBackAll _ hh with ⟨hmem, hline⟩ | ⟨hclean, -⟩
  · refine Bool.not_eq_true _ ▸ fun hd => hline ?_
    exact List.mem_map_of_mem (List.mem_filter.2 ⟨hmem, by simp [hd, hc]⟩)
  · exact hclean

theorem flushCtx_rest (s : State) (c : Nat) : ∃ m hs, flushCtx s c = { s with mem := m, hostLines := hs } := by
  rw [flushCtx_eq]
  exact writeBackAll_rest _ _ s

theorem homeByte_flushCtx (hok : s.hostLinesOk) (c a : Nat) : homeByte (flushCtx s c) a = homeByte s a := by
  rw [flushCtx_eq]
  exact homeByte_writeBackAll hok

/-- What a release at sy scope of a still word leaves, beside the marks on its threads' writes: the flush of its context. -/
theorem releaseSync_rest (s : State) (c l b : Nat) (ts : List TRef) : ∃ bs ls, releaseSync s c l b ts =
    { flushCtx s c with blocks := bs, launches := ls } := ⟨_, _, rfl⟩

theorem released_eq (ts : List TRef) : (fun x : BufEntry => if ts.contains x.t then { x with sync := true } else x) = BufEntry.released ts := by
  funext x
  simp [BufEntry.released]

theorem releaseSync_released (s : State) (e : Env) (ts : List TRef) :
    RoundReleased e ts s (releaseSync s e.ctx.rcd.id e.launch.id e.block.id ts) := by
  obtain ⟨m, hs, hflush⟩ := flushCtx_rest s e.ctx.rcd.id
  constructor
  · show List.Forall₂ _ s.blocks (updWhere _ _ (flushCtx s e.ctx.rcd.id).blocks)
    rw [hflush, updWhere, List.forall₂_map_right_iff]
    refine forall₂_self _ fun b _ => ?_
    simp only [released_eq, beq_iff_eq]
  · show List.Forall₂ _ s.launches (updWhere _ _ (flushCtx s e.ctx.rcd.id).launches)
    rw [hflush, updWhere, List.forall₂_map_right_iff]
    refine forall₂_self _ fun l _ => ?_
    by_cases hl : l.id = e.launch.id
    · rw [if_pos (beq_iff_eq.2 hl)]
      refine ⟨fun hn => absurd hl hn, fun _ => ⟨rfl, ?_⟩⟩
      rw [List.forall₂_map_right_iff]
      exact forall₂_self _ fun y _ => by rw [released_eq]
    · rw [if_neg (by simpa using hl)]
      exact ⟨fun _ => rfl, fun h => absurd h hl⟩

/-- A release of a word's threads at sy scope changes memory, the device's copies of host lines, and the round buffers. -/
theorem syncHost_rest (s : State) (e : Env) (act : List Thread) :
    ∃ m hs bs ls, e.syncHost s act = { s with mem := m, hostLines := hs, blocks := bs, launches := ls } := by
  obtain ⟨m, hs, hflush⟩ := flushCtx_rest s e.ctx.rcd.id
  unfold Env.syncHost
  split
  · exact ⟨_, _, _, _, rfl⟩
  · split
    · exact ⟨m, hs, _, _, by rw [releaseSync, hflush]; rfl⟩
    · exact ⟨m, hs, _, _, hflush⟩

theorem syncHost_idle (h : act = []) : e.syncHost s act = s := by simp [Env.syncHost, h]

theorem syncHost_still (hs : e.still = true) (h : act ≠ []) :
    e.syncHost s act = releaseSync s e.ctx.rcd.id e.launch.id e.block.id (act.map Thread.ref) := by simp [Env.syncHost, hs, h]

theorem syncHost_plain (hs : e.still = false) (h : act ≠ []) : e.syncHost s act = flushCtx s e.ctx.rcd.id := by simp [Env.syncHost, hs, h]

/-- Home bytes after a release are those of the flush. -/
theorem hostLines_syncHost (h : act ≠ []) : (e.syncHost s act).hostLines = (flushCtx s e.ctx.rcd.id).hostLines ∧
    (e.syncHost s act).mem = (flushCtx s e.ctx.rcd.id).mem := by
  cases hs : e.still with
  | true => rw [syncHost_still hs h]; exact ⟨rfl, rfl⟩
  | false => rw [syncHost_plain hs h]; exact ⟨rfl, rfl⟩

theorem homeByte_syncHost (hok : s.hostLinesOk) (a : Nat) : homeByte (e.syncHost s act) a = homeByte s a := by
  by_cases h : act = []
  · rw [syncHost_idle h]
  · obtain ⟨hlines, hmem⟩ := hostLines_syncHost (s := s) (e := e) h
    exact (homeByte_congr hmem hlines a).trans (homeByte_flushCtx hok _ a)

theorem icinvRound_rest (s : State) (e : Env) (rs : List (Nat × Nat)) : icinvRound s e rs = { s with launches := (icinvRound s e rs).launches } := by
  unfold icinvRound
  split <;> rfl

end Sys2Proof.Machine
end

section
/-! O51, ICINV (R238, R304). -/

namespace Sys2Proof.Machine

variable {s : State} {e : Env} {i : Instr} {act : List Thread} {rs : List (Nat × Nat)}

/-- The state that an ICINV leaves whose threads' accesses are performed. -/
def icinvDone (s : State) (e : Env) (act : List Thread) (rs : List (Nat × Nat)) : State :=
  rs.foldl (dropCode e.ctx.rcd.id) (icinvRound (e.syncHost s act) e rs)

/-- Without a range the round takes none. -/
theorem icinvRound_nil (s : State) (e : Env) : icinvRound s e [] = s := by
  have hsame : updWhere (fun x => x.id == e.launch.id) (fun l : Launch => { l with icinvs := l.icinvs ++ [] }) s.launches = s.launches := by
    simp [updWhere]
  unfold icinvRound updLaunch
  rw [hsame, ite_self]

theorem icinvDone_rest (s : State) (e : Env) (act : List Thread) (rs : List (Nat × Nat)) : ∃ m hs bs ls ic cs,
    icinvDone s e act rs = { s with mem := m, hostLines := hs, blocks := bs, launches := ls, icache := ic, ctxs := cs } := by
  obtain ⟨m, hs, bs, ls, hsync⟩ := syncHost_rest s e act
  obtain ⟨ic, cs, hdrop⟩ := foldl_dropCode_rest e.ctx.rcd.id rs (icinvRound (e.syncHost s act) e rs)
  refine ⟨m, hs, bs, (icinvRound (e.syncHost s act) e rs).launches, ic, cs, ?_⟩
  rw [icinvDone, hdrop, icinvRound_rest, hsync]

/-- Dropped code leaves memory, blocks and launches. -/
theorem icinvDone_keeps (s : State) (e : Env) (act : List Thread) (rs : List (Nat × Nat)) : (icinvDone s e act rs).mem = (e.syncHost s act).mem ∧
    (icinvDone s e act rs).hostLines = (e.syncHost s act).hostLines ∧ (icinvDone s e act rs).blocks = (e.syncHost s act).blocks ∧
    (icinvDone s e act rs).launches = (icinvRound (e.syncHost s act) e rs).launches := by
  obtain ⟨ic, cs, hdrop⟩ := foldl_dropCode_rest e.ctx.rcd.id rs (icinvRound (e.syncHost s act) e rs)
  have hround := icinvRound_rest (e.syncHost s act) e rs
  rw [icinvDone, hdrop]
  exact ⟨by rw [hround], by rw [hround], by rw [hround], rfl⟩

theorem icinvDone_codeDropped (s : State) (e : Env) (act : List Thread) (rs : List (Nat × Nat)) :
    CodeDropped s (icinvDone s e act rs) e.ctx.rcd.id rs := by
  obtain ⟨m, hs, bs, ls, hsync⟩ := syncHost_rest s e act
  refine (foldl_dropCode_codeDropped e.ctx.rcd.id rs _).of_eq ?_ ?_
  · rw [icinvRound_rest, hsync]
  · rw [icinvRound_rest, hsync]

/-- In a kernel without rounds, or for no thread, the blocks and the launches stand. -/
theorem icinvDone_plain (h : e.still = false ∨ (act = [] ∧ rs = [])) :
    (icinvDone s e act rs).blocks = s.blocks ∧ (icinvDone s e act rs).launches = s.launches := by
  obtain ⟨-, -, hb, hl⟩ := icinvDone_keeps s e act rs
  have hround : icinvRound (e.syncHost s act) e rs = e.syncHost s act := by
    rcases h with hs | ⟨-, rfl⟩
    · simp [icinvRound, hs]
    · exact icinvRound_nil _ e
  rw [hb, hl, hround]
  by_cases hact : act = []
  · rw [syncHost_idle hact]
    exact ⟨rfl, rfl⟩
  · obtain ⟨m, hs, hflush⟩ := flushCtx_rest s e.ctx.rcd.id
    rw [syncHost_plain (h.resolve_right fun h' => hact h'.1) hact, hflush]
    exact ⟨rfl, rfl⟩

/-- In a still kernel the threads release, and the launch keeps the ranges for the commit. -/
theorem icinvDone_still (hs : e.still = true) (h : act ≠ []) : ∃ s1, RoundReleased e (act.map Thread.ref) s s1 ∧
    (icinvDone s e act rs).blocks = s1.blocks ∧
    (icinvDone s e act rs).launches = s1.launches.map (fun l => if l.id = e.launch.id then { l with icinvs := l.icinvs ++ rs } else l) := by
  obtain ⟨-, -, hb, hl⟩ := icinvDone_keeps s e act rs
  refine ⟨e.syncHost s act, ?_, hb, ?_⟩
  · rw [syncHost_still hs h]
    exact releaseSync_released s e _
  · rw [hl, icinvRound, if_pos hs]
    simp only [updLaunch, updWhere, beq_iff_eq]

/-- A release that starts from the same blocks and launches. -/
theorem RoundReleased.of_eq {ts : List TRef} {t u : State} (h : RoundReleased e ts s t) (hb : s.blocks = u.blocks) (hl : s.launches = u.launches) :
    RoundReleased e ts u t := ⟨hb ▸ h.blocks, hl ▸ h.launches⟩

theorem exec_icinv {g : Guard} {a b : Src} (h : Issues s e (.icinv g a b)) (hf : ∀ u ∈ e.active g, fenced s .rel .sy u.ref = true) :
    exec (.icinv g a b) s = .next (icinvDone (finish s e (.icinv g a b)) e (e.active g) (e.rangesOf a b (e.active g))) := by
  have hall : (e.active g).all (fun t => fenced (finish s e (.icinv g a b)) .rel .sy t.ref) = true :=
    List.all_eq_true.2 fun u hu => (finish_fenced_rel s e _ .sy u.ref).trans (hf u hu)
  show execIcinv g a b s = _
  rw [execIcinv, issue_of_issues h]
  simp only [hall, Bool.not_true, Bool.false_eq_true, if_false]
  rfl

/-- ICINV (R238). -/
theorem icinv_acts (g : Guard) (a b : Src) (s : State) (e : Env) (h : Issues s e (.icinv g a b))
    (hf : ∀ u ∈ e.active g, fenced s .rel .sy u.ref = true) : ∃ t, exec (.icinv g a b) s = .next t ∧
    let rs := ((e.active g).map (fun u => ((e.src64 0 false u a).toNat, (e.src 0 u b).toNat))).filter (fun r => r.2 != 0)
    State.Issued e [] [] { s with
      mem := t.mem
      hostLines := t.hostLines
      blocks := t.blocks
      launches := t.launches
      icache := t.icache
      ctxs := t.ctxs } t ∧ (s.hostLinesOk → ∀ x, homeByte t x = homeByte s x) ∧
    (e.still = false ∨ e.active g = [] → t.blocks = s.blocks ∧ t.launches = s.launches) ∧
    (e.still = true → e.active g ≠ [] → ∃ s1, RoundReleased e (e.acting g) s s1 ∧ t.blocks = s1.blocks ∧
      t.launches = s1.launches.map (fun l => if l.id = e.launch.id then { l with icinvs := l.icinvs ++ rs } else l)) ∧
    CodeDropped s t e.ctx.rcd.id rs ∧
    (e.active g ≠ [] → ∀ h ∈ t.hostLines, e.ctx.rcd.id ∈ h.ctxs → h.dirty = false) := by
  have hnil : e.active g = [] → e.rangesOf a b (e.active g) = [] := fun hact => by rw [hact]; rfl
  obtain ⟨hmem, hlines, -, -⟩ := icinvDone_keeps (finish s e (.icinv g a b)) e (e.active g) (e.rangesOf a b (e.active g))
  refine ⟨_, exec_icinv h hf, ?_, fun hok x => ?_, fun hpl => ?_, fun hs hact => ?_, ?_, fun hact l hl hc => ?_⟩
  · obtain ⟨m, hs, bs, ls, ic, cs, hrest⟩ := icinvDone_rest (finish s e (.icinv g a b)) e (e.active g) (e.rangesOf a b (e.active g))
    rw [hrest]
    refine issued_of ?_ (finish_threads_eq_map s e _) (finish_frags s e _)
    conv_lhs => rw [finish_eq]
    simp only [finish_threads]
  · rw [homeByte_congr hmem hlines, homeByte_syncHost (by unfold State.hostLinesOk; rw [finish_hostLines]; exact hok)]
    exact (finish_sameXlat s e _).home x
  · obtain ⟨hb, hl⟩ := icinvDone_plain (s := finish s e (.icinv g a b)) (hpl.imp_right fun hact => ⟨hact, hnil hact⟩)
    exact ⟨hb.trans (finish_blocks ..), hl.trans (finish_launches ..)⟩
  · obtain ⟨s1, hr, hb, hl⟩ := icinvDone_still (s := finish s e (.icinv g a b)) (rs := e.rangesOf a b (e.active g)) hs hact
    exact ⟨s1, hr.of_eq (finish_blocks ..) (finish_launches ..), hb, hl⟩
  · exact (icinvDone_codeDropped (finish s e (.icinv g a b)) e (e.active g) (e.rangesOf a b (e.active g))).of_eq (finish_icache ..) (finish_ctxs ..)
  · rw [hlines, (hostLines_syncHost hact).1] at hl
    exact clean_of_mem_flushCtx hl hc

end Sys2Proof.Machine
end

section
/-! O51, what a store of the device leaves where it does not store: the images and buffers of rounds, the peer lines, and the write-range log (R254,
R263, R293, R303). -/

namespace Sys2Proof.Machine

variable {s t u : State}

/-- Bytes put over a list leave its length. -/
theorem length_overlay : ∀ (bs l : List Byte) (i : Nat), (overlay l i bs).length = l.length
  | [], _, _ => rfl
  | b :: bs, l, i => by rw [overlay, length_overlay bs, List.length_set]

/-- They leave the bytes outside them. -/
theorem getElem?_overlay_out : ∀ {bs l : List Byte} {i k : Nat}, ¬(i ≤ k ∧ k < i + bs.length) → (overlay l i bs)[k]? = l[k]?
  | [], _, _, _, _ => rfl
  | b :: bs, l, i, k, h => by
    rw [List.length_cons] at h
    rw [overlay, getElem?_overlay_out (by omega), List.getElem?_set_ne (by omega)]

theorem BufEntry.CutSince.refl (x : BufEntry) : x.CutSince x := ⟨[], by rw [List.append_nil]⟩

theorem BufEntry.CutSince.trans {x y z : BufEntry} (h : x.CutSince y) (h' : y.CutSince z) : x.CutSince z := by
  obtain ⟨l, rfl⟩ := h
  obtain ⟨m, rfl⟩ := h'
  exact ⟨l ++ m, by rw [List.append_assoc]⟩

theorem BuffersCut.refl (blk : Nat) (who : TRef → Prop) (bs : List Block) : BuffersCut blk who bs bs :=
  forall₂_self _ fun _ _ => ⟨fun _ => rfl, rfl, forall₂_self _ fun x _ => ⟨.refl x, fun _ => rfl⟩⟩

theorem BuffersCut.trans {blk : Nat} {who : TRef → Prop} {l m n : List Block} (h : BuffersCut blk who l m) (h' : BuffersCut blk who m n) :
    BuffersCut blk who l n := by
  refine forall₂_trans (fun x y z hxy hyz => ?_) h h'
  obtain ⟨hne, hrest, hbuf⟩ := hxy
  obtain ⟨hne', hrest', hbuf'⟩ := hyz
  have hid : y.id = x.id := by rw [hrest]
  refine ⟨fun hx => (hne' (hid ▸ hx)).trans (hne hx), by rw [hrest', hrest], forall₂_trans (fun p q r hpq hqr => ?_) hbuf hbuf'⟩
  obtain ⟨hcut, hsame⟩ := hpq
  obtain ⟨hcut', hsame'⟩ := hqr
  have ht : q.t = p.t := by
    obtain ⟨more, rfl⟩ := hcut
    rfl
  exact ⟨hcut.trans hcut', fun hp => (hsame' (ht ▸ hp)).trans (hsame hp)⟩

/-- A store that is performed at once cuts the entries of its thread. -/
theorem cutBuffer_cut (s : State) {b pa n : Nat} {r : TRef} {who : TRef → Prop} (hr : who r) :
    BuffersCut b who s.blocks (cutBuffer s b (· == r) pa n).blocks := by
  show List.Forall₂ _ s.blocks (updWhere _ _ s.blocks)
  rw [updWhere, List.forall₂_map_right_iff]
  refine forall₂_self _ fun x _ => ?_
  by_cases hx : x.id = b
  · rw [if_pos (beq_iff_eq.2 hx)]
    refine ⟨fun hn => absurd hx hn, rfl, ?_⟩
    rw [List.forall₂_map_right_iff]
    refine forall₂_self _ fun y _ => ?_
    by_cases hy : y.t = r
    · rw [if_pos (beq_iff_eq.2 hy)]
      exact ⟨⟨_, rfl⟩, fun hn => absurd (hy ▸ hr) hn⟩
    · rw [if_neg (by simpa using hy)]
      exact ⟨.refl y, fun _ => rfl⟩
  · rw [if_neg (by simpa using hx)]
    exact ⟨fun _ => rfl, rfl, forall₂_self _ fun y _ => ⟨.refl y, fun _ => rfl⟩⟩

theorem Touched.Mirrored.refl (out : Nat → Prop) (y : Touched) : y.Mirrored out y where
  rest := rfl
  log := forall₂_self _ fun x _ => .refl x
  none _ := rfl
  image i hi := ⟨i, hi, rfl, fun _ _ _ => rfl⟩

theorem Touched.Mirrored.trans {out : Nat → Prop} {x y z : Touched} (h : x.Mirrored out y) (h' : y.Mirrored out z) : x.Mirrored out z where
  rest := by rw [h'.rest, h.rest]
  log := forall₂_trans (fun _ _ _ => .trans) h.log h'.log
  none hn := by
    have hy := h.none hn
    rw [h'.none (by rw [hy]; exact hn), hy]
  image i hi := by
    obtain ⟨j, hj, hlen, hsame⟩ := h.image i hi
    obtain ⟨k, hk, hlen', hsame'⟩ := h'.image j hj
    have hline : y.line = x.line := by rw [h.rest]
    exact ⟨k, hk, hlen'.trans hlen, fun n hn ho => (hsame' n hn (hline ▸ ho)).trans (hsame n hn ho)⟩

theorem Mirrored.refl (out : Nat → Prop) (ls : List Launch) : Mirrored out ls ls :=
  forall₂_self _ fun _ _ => ⟨rfl, forall₂_self _ fun y _ => .refl out y⟩

theorem Mirrored.trans {out : Nat → Prop} {l m n : List Launch} (h : Mirrored out l m) (h' : Mirrored out m n) : Mirrored out l n := by
  refine forall₂_trans (fun x y z hxy hyz => ?_) h h'
  obtain ⟨hrest, ht⟩ := hxy
  obtain ⟨hrest', ht'⟩ := hyz
  exact ⟨by rw [hrest', hrest], forall₂_trans (fun _ _ _ => .trans) ht ht'⟩

/-- A touched line takes the bytes written at its home into its image. -/
theorem touched_mirrored {a : Nat} {bs : List Byte} {out : Nat → Prop} (ho : ∀ x, a ≤ x → x < a + bs.length → out x) (y : Touched) :
    y.Mirrored out (y.mirror a bs) := by
  unfold Touched.mirror
  split
  · next img himg =>
    split
    · next hline =>
      refine ⟨rfl, ?_, fun hn => absurd (himg.symm.trans hn) (Option.some_ne_none _), fun i hi => ?_⟩
      · rw [List.forall₂_map_right_iff]
        exact forall₂_self _ fun x _ => ⟨_, rfl⟩
      · obtain rfl : img = i := Option.some_inj.1 (himg.symm.trans hi)
        refine ⟨_, rfl, length_overlay .., fun k hk hout => getElem?_overlay_out fun hin => hout (ho _ ?_ ?_)⟩
        · unfold lineOf at hline
          omega
        · unfold lineOf at hline
          omega
    · exact .refl out y
  · exact .refl out y

theorem mirror_mirrored {a : Nat} {bs : List Byte} {out : Nat → Prop} (ho : ∀ x, a ≤ x → x < a + bs.length → out x) (s : State) :
    Mirrored out s.launches (mirror s a bs).launches := by
  show List.Forall₂ _ s.launches (s.launches.map _)
  rw [List.forall₂_map_right_iff]
  refine forall₂_self _ fun l _ => ⟨rfl, ?_⟩
  rw [List.forall₂_map_right_iff]
  exact forall₂_self _ fun y _ => touched_mirrored ho y

theorem PeersOwned.refl (lake : Nat) (lines : Nat → Prop) (ps : List (Nat × Nat)) : PeersOwned lake lines ps ps :=
  ⟨fun _ h => .inl h, fun _ h => .inl h⟩

theorem PeersOwned.trans {lake : Nat} {lines : Nat → Prop} {l m n : List (Nat × Nat)} (h : PeersOwned lake lines l m)
    (h' : PeersOwned lake lines m n) : PeersOwned lake lines l n :=
  ⟨fun p hp => (h'.1 p hp).elim (h.1 p) .inr, fun p hp => (h.2 p hp).elim (h'.2 p) .inr⟩

theorem ownPeer_owned (s : State) {lake a : Nat} {lines : Nat → Prop} (ha : lines (lineOf a)) :
    PeersOwned lake lines s.peerLines (ownPeer s lake a).peerLines := by
  unfold ownPeer
  split
  · refine ⟨fun p hp => ?_, fun p hp => ?_⟩
    · rcases List.mem_cons.1 hp with rfl | hp
      · exact .inr ⟨rfl, ha⟩
      · exact .inl (List.mem_filter.1 hp).1
    · by_cases hl : p.2 = lineOf a
      · exact .inr (hl ▸ ha)
      · exact .inl (List.mem_cons_of_mem _ (List.mem_filter.2 ⟨hp, by simpa using hl⟩))
  · exact .refl ..

theorem ownPeer_rest (s : State) (lake a : Nat) : ownPeer s lake a = { s with peerLines := (ownPeer s lake a).peerLines } := by
  unfold ownPeer
  split <;> rfl

end Sys2Proof.Machine
end

section
/-! O51, the bytes that a store of the device leaves (R254 item 6, R303). -/

namespace Sys2Proof.Machine

variable {s t u : State}

/-- A record of the write-range log lies in host memory, and is written only where the feature is negotiated (R303). -/
structure Logged (s t : State) : Prop where
  rest : t = { s with
    mem := t.mem
    host := t.host }
  lostModules : t.host.lostModules = s.host.lostModules
  feature : feature t 1 = feature s 1
  bytes : ∀ a, (a < Config.hostBase ∨ Machine.feature s 1 = false) → byteAt t.mem a = byteAt s.mem a

theorem Logged.refl (s : State) : Logged s s := ⟨rfl, rfl, rfl, fun _ _ => rfl⟩

/-- A byte below host memory stands when a record is put there. -/
theorem byteAt_putRecord (m : List Host.Cell) (base k : Nat) (bs : List Byte) {a : Nat} (ha : a < Config.hostBase) :
    byteAt (putBytes m (Config.hostBase + base + k) bs) a = byteAt m a :=
  byteAt_putBytes_below bs m _ a (by omega)

theorem logDirty_logged (s : State) (c l : Nat) : Logged s (logDirty s c l) := by
  unfold logDirty
  dsimp only
  split
  · exact .refl s
  · next hoff =>
    have hfeat : feature s 1 = true := by
      cases hf : feature s 1 with
      | true => rfl
      | false => simp [hf] at hoff
    split
    · exact ⟨rfl, rfl, rfl, fun _ _ => rfl⟩
    · split
      · exact ⟨rfl, rfl, rfl, fun a ha => byteAt_putRecord _ _ _ _ (ha.resolve_right (by simp [hfeat]))⟩
      · exact ⟨rfl, rfl, rfl, fun a ha => byteAt_putRecord _ _ _ _ (ha.resolve_right (by simp [hfeat]))⟩

theorem logWrite_logged (s : State) (c : Nat) (cached : Bool) (a : Nat) : Logged s (logWrite s c cached a) := by
  unfold logWrite
  split
  · exact logDirty_logged s c _
  · exact .refl s

theorem logWrite_device {c : Nat} {cached : Bool} {a : Nat} (h : a < Config.hostBase) : logWrite s c cached a = s := by
  have hhost : isHost a = false := decide_eq_false (Nat.not_le.2 h)
  simp [logWrite, hhost]

theorem Logged.hostLines (h : Logged s t) : t.hostLines = s.hostLines := by rw [h.rest]

theorem Logged.homeByte (h : Logged s t) {a : Nat} (ha : a < Config.hostBase ∨ Machine.feature s 1 = false) : homeByte t a = Machine.homeByte s a := by
  unfold Machine.homeByte hostLine
  rw [h.hostLines, h.bytes a ha]

/-- The copies of host lines with one of them replaced. -/
theorem find?_replaced (h : HostLine) (L : List HostLine) (n : Nat) : (h :: L.filter (fun x => x.line != h.line)).find? (fun x => x.line == n) =
    if n = h.line then some h else L.find? (fun x => x.line == n) := by
  by_cases hn : n = h.line
  · rw [if_pos hn, List.find?_cons_of_pos (by simpa using hn.symm)]
  · rw [if_neg hn, List.find?_cons_of_neg (by simpa using Ne.symm hn), List.find?_filter]
    exact congrArg (L.find? ·) (funext fun x => by
      by_cases hx : x.line = n
      · simp [hx, hn]
      · simp [hx])

/-- The bytes of a line as the device holds it, or as memory does. -/
def heldBytes (s : State) (l : Nat) : List Byte :=
  match hostLine s l with
  | some h => h.bytes
  | none => bytesAt s.mem (l * 128) 128

theorem homeByte_eq_heldBytes (s : State) (a : Nat) : homeByte s a = (heldBytes s (lineOf a)).getD (a % 128) 0 := by
  unfold homeByte heldBytes
  cases hostLine s (lineOf a) with
  | some h => rfl
  | none =>
    have hlt : a % 128 < 128 := Nat.mod_lt _ (by decide)
    have ha : lineOf a * 128 + a % 128 = a := by unfold lineOf; omega
    simp [bytesAt_eq_map, List.getD_eq_getElem?_getD, hlt, ha]

/-- The copy of a line that a cached host store leaves, dirty (R254 item 6). -/
def storedLine (s : State) (ctxId a : Nat) (bs : List Byte) : HostLine :=
  ⟨lineOf a, overlay (heldBytes s (lineOf a)) (a % 128) bs, true,
    ctxId :: ((hostLine s (lineOf a)).map HostLine.ctxs |>.getD []).filter (· != ctxId)⟩

theorem putHome_host {ctxId a : Nat} {cached : Bool} {bs : List Byte} (h : (isHost a && cached) = true) : putHome s ctxId cached a bs =
    { mirror s a bs with hostLines := storedLine s ctxId a bs :: s.hostLines.filter (fun x => x.line != lineOf a) } := by
  unfold putHome storedLine heldBytes
  simp only [h, if_true]
  have hl : hostLine (mirror s a bs) (lineOf a) = hostLine s (lineOf a) := rfl
  rw [hl]
  cases hostLine s (lineOf a) <;> rfl

/-- The copies of host lines after a cached host store. -/
theorem hostLine_putHome_host {ctxId a n : Nat} {cached : Bool} {bs : List Byte} (h : (isHost a && cached) = true) :
    hostLine (putHome s ctxId cached a bs) n = if n = lineOf a then some (storedLine s ctxId a bs) else hostLine s n := by
  rw [putHome_host h]
  exact find?_replaced (storedLine s ctxId a bs) s.hostLines n

theorem putHome_mem {ctxId a : Nat} {cached : Bool} {bs : List Byte} (h : (isHost a && cached) = false) : putHome s ctxId cached a bs =
    { mirror s a bs with
      mem := putBytes s.mem a bs
      lineTag := mapSet s.lineTag (lineOf a) ctxId } := by
  unfold putHome
  simp only [h, Bool.false_eq_true, if_false]
  rfl

theorem putHome_rest (s : State) (ctxId : Nat) (cached : Bool) (a : Nat) (bs : List Byte) : putHome s ctxId cached a bs = { s with
    mem := (putHome s ctxId cached a bs).mem
    lineTag := (putHome s ctxId cached a bs).lineTag
    hostLines := (putHome s ctxId cached a bs).hostLines
    launches := (mirror s a bs).launches } := by
  cases h : isHost a && cached with
  | true => rw [putHome_host h]; rfl
  | false => rw [putHome_mem h]; rfl

/-- Bytes put at their home leave the others. -/
theorem homeByte_putHome_out {ctxId a x : Nat} {cached : Bool} {bs : List Byte} (hx : ¬(a ≤ x ∧ x < a + bs.length)) :
    homeByte (putHome s ctxId cached a bs) x = homeByte s x := by
  cases h : isHost a && cached with
  | true =>
    have hmem : (putHome s ctxId cached a bs).mem = s.mem := by rw [putHome_host h]; rfl
    by_cases hl : lineOf x = lineOf a
    · have hline : heldBytes (putHome s ctxId cached a bs) (lineOf x) = overlay (heldBytes s (lineOf x)) (a % 128) bs := by
        rw [heldBytes, hostLine_putHome_host h, if_pos hl, hl]
        rfl
      rw [homeByte_eq_heldBytes, homeByte_eq_heldBytes, hline, List.getD_eq_getElem?_getD, List.getD_eq_getElem?_getD,
        getElem?_overlay_out (by unfold lineOf at hl; omega)]
    · unfold homeByte
      rw [hostLine_putHome_host h, if_neg hl, hmem]
  | false =>
    rw [putHome_mem h]
    unfold homeByte hostLine
    simp only [mirror_hostLines, byteAt_putBytes_out hx]

/-- Bytes below host memory are at their home in memory. -/
theorem homeByte_device (hok : s.hostLinesOk) {a : Nat} (ha : a < Config.hostBase) : homeByte s a = byteAt s.mem a := by
  unfold homeByte
  cases hl : hostLine s (lineOf a) with
  | none => rfl
  | some h =>
    obtain ⟨hmem, hline⟩ := hostLine_eq_some hl
    have hbase := (hok h hmem).1
    unfold lineOf at hline
    omega

theorem putHome_hostLinesOk {ctxId a : Nat} {cached : Bool} {bs : List Byte} (hok : s.hostLinesOk) : (putHome s ctxId cached a bs).hostLinesOk := by
  cases h : isHost a && cached with
  | true =>
    rw [putHome_host h]
    intro x hx
    rcases List.mem_cons.1 hx with rfl | hx
    · have ha : Config.hostBase ≤ a := of_decide_eq_true (Bool.and_eq_true_iff.1 h).1
      have hbase : Config.hostBase % 128 = 0 := by decide
      refine ⟨?_, ?_⟩
      · show _ ≤ 128 * lineOf a
        unfold lineOf
        omega
      · show (overlay _ _ _).length = _
        rw [length_overlay, heldBytes]
        cases hl : hostLine s (lineOf a) with
        | none => simp [bytesAt_eq_map]
        | some y => exact (hok y (hostLine_eq_some hl).1).2
    · exact hok x (List.mem_filter.1 hx).1
  | false =>
    rw [putHome_mem h]
    exact hok

/-- A byte put below host memory is read back there. -/
theorem homeByte_putHome_in {ctxId a k : Nat} {cached : Bool} {bs : List Byte} (hok : s.hostLinesOk) (hk : k < bs.length)
    (ha : a + k < Config.hostBase) : homeByte (putHome s ctxId cached a bs) (a + k) = bs.getD k 0 := by
  have hhost : (isHost a && cached) = false := by
    have hlt : isHost a = false := decide_eq_false (by omega)
    rw [hlt, Bool.false_and]
  rw [homeByte_device (putHome_hostLinesOk hok) ha, putHome_mem hhost]
  exact byteAt_putBytes_mid bs _ _ _ hk

end Sys2Proof.Machine
end

section
/-! O51, the stores of SWAPC and OBJW at the homes of their addresses (R235, R237). -/

namespace Sys2Proof.Machine

variable {s t u : State} {e : Env} {ts : List TRef} {pas : List Nat} {n : Nat}

/-- What stores of the device for the threads `ts`, of `n` bytes at each address of `pas`, leave. -/
structure DeviceStored (e : Env) (ts : List TRef) (pas : List Nat) (n : Nat) (s t : State) : Prop where
  rest : t = { s with
    mem := t.mem
    lineTag := t.lineTag
    hostLines := t.hostLines
    peerLines := t.peerLines
    launches := t.launches
    blocks := t.blocks
    host := t.host
    icache := t.icache
    ctxs := t.ctxs }
  lostModules : t.host.lostModules = s.host.lostModules
  feature : feature t 1 = feature s 1
  untouched : Untouched s t (among pas n)
  mirrored : Mirrored (among pas n) s.launches t.launches
  cut : BuffersCut e.block.id (· ∈ ts) s.blocks t.blocks
  peers : PeersOwned e.lake (fun k => ∃ p ∈ pas, k = lineOf p) s.peerLines t.peerLines
  lines : s.hostLinesOk → t.hostLinesOk

theorem DeviceStored.refl (e : Env) (ts : List TRef) (pas : List Nat) (n : Nat) (s : State) : DeviceStored e ts pas n s s where
  rest := rfl
  lostModules := rfl
  feature := rfl
  untouched _ _ _ := rfl
  mirrored := .refl ..
  cut := .refl ..
  peers := .refl ..
  lines h := h

theorem DeviceStored.trans (h : DeviceStored e ts pas n s t) (h' : DeviceStored e ts pas n t u) : DeviceStored e ts pas n s u where
  rest := by rw [h'.rest, h.rest]
  lostModules := h'.lostModules.trans h.lostModules
  feature := h'.feature.trans h.feature
  untouched a ha ho := (h'.untouched a (ha.imp_right h.feature.trans) ho).trans (h.untouched a ha ho)
  mirrored := h.mirrored.trans h'.mirrored
  cut := h.cut.trans h'.cut
  peers := h.peers.trans h'.peers
  lines hok := h'.lines (h.lines hok)

theorem DeviceStored.slices (h : DeviceStored e ts pas n s t) : t.slices = s.slices := by rw [h.rest]

theorem DeviceStored.lostTo (h : DeviceStored e ts pas n s t) (a : Nat) : lostTo t a = Machine.lostTo s a := by
  simp only [Machine.lostTo, h.lostModules]

/-- A store of the device whose line a path reaches, with nothing at the slices. -/
theorem deviceStore_eq {th : Thread} {cached : Bool} {pa : Nat} {bs : List Byte} (hs : s.slices = []) (hl : lostTo s pa = false) :
    e.deviceStore s th cached pa bs = homeWrite (cutBuffer (if cached then ownPeer s e.lake pa else s) e.block.id (· == th.ref) pa bs.length)
      e.ctx.rcd.id cached pa bs := by
  have hown : (if cached then ownPeer s e.lake pa else s) = { s with peerLines := (if cached then ownPeer s e.lake pa else s).peerLines } := by
    cases cached with
    | true => exact ownPeer_rest s e.lake pa
    | false => rfl
  have hlost : lostTo (cutBuffer (if cached then ownPeer s e.lake pa else s) e.block.id (· == th.ref) pa bs.length) pa = false := by
    rw [hown]
    exact hl
  rw [Env.deviceStore, hl, if_neg Bool.false_ne_true, deviceWrite, hlost, if_neg Bool.false_ne_true, settleLine_of_no_slices]
  rw [hown]
  exact hs

/-- The lake owns the line, and the thread's buffered stores leave the bytes to the store. -/
theorem claim_stored {th : Thread} {pa k : Nat} (cached : Bool) (hpa : pa ∈ pas) (hth : th.ref ∈ ts) :
    DeviceStored e ts pas n s (cutBuffer (if cached then ownPeer s e.lake pa else s) e.block.id (· == th.ref) pa k) := by
  have hown : ∃ ps, (if cached then ownPeer s e.lake pa else s) = { s with peerLines := ps } ∧
      PeersOwned e.lake (fun k => ∃ p ∈ pas, k = lineOf p) s.peerLines ps := by
    cases cached with
    | true => exact ⟨_, ownPeer_rest s e.lake pa, ownPeer_owned s ⟨pa, hpa, rfl⟩⟩
    | false => exact ⟨_, rfl, .refl ..⟩
  obtain ⟨ps, hown, hps⟩ := hown
  rw [hown]
  exact ⟨rfl, rfl, rfl, fun _ _ _ => rfl, .refl .., cutBuffer_cut { s with peerLines := ps } hth, hps, fun h => h⟩

theorem Logged.stored (h : Logged s t) : DeviceStored e ts pas n s t where
  rest := by rw [h.rest]
  lostModules := h.lostModules
  feature := h.feature
  untouched _ ha _ := h.homeByte ha
  mirrored := by rw [h.rest]; exact .refl ..
  cut := by rw [h.rest]; exact .refl ..
  peers := by rw [h.rest]; exact .refl ..
  lines hok := by rw [State.hostLinesOk, h.hostLines]; exact hok

theorem putHome_stored {ctxId pa : Nat} {bs : List Byte} (cached : Bool) (hpa : pa ∈ pas) (hn : bs.length = n) :
    DeviceStored e ts pas n s (putHome s ctxId cached pa bs) where
  rest := by
    conv_lhs => rw [putHome_rest]
    rw [putHome_rest]
  lostModules := by rw [putHome_rest]
  feature := by rw [putHome_rest]; rfl
  untouched a _ ho := homeByte_putHome_out fun hin => ho ⟨pa, hpa, hin.1, hn ▸ hin.2⟩
  mirrored := by
    rw [putHome_rest]
    exact mirror_mirrored (fun x h1 h2 => ⟨pa, hpa, h1, hn ▸ h2⟩) s
  cut := by rw [putHome_rest]; exact .refl ..
  peers := by rw [putHome_rest]; exact .refl ..
  lines hok := putHome_hostLinesOk hok

/-- One store of the device. -/
theorem deviceStore_stored {th : Thread} {cached : Bool} {pa : Nat} {bs : List Byte} (hs : s.slices = []) (hl : lostTo s pa = false)
    (hpa : pa ∈ pas) (hth : th.ref ∈ ts) (hn : bs.length = n) : DeviceStored e ts pas n s (e.deviceStore s th cached pa bs) := by
  rw [deviceStore_eq hs hl]
  exact ((claim_stored cached hpa hth).trans (logWrite_logged _ _ _ _).stored).trans (putHome_stored cached hpa hn)

/-- A store of the device drops no code. -/
theorem deviceStore_code {th : Thread} {cached : Bool} {pa : Nat} {bs : List Byte} (hs : s.slices = []) (hl : lostTo s pa = false) :
    (e.deviceStore s th cached pa bs).icache = s.icache ∧ (e.deviceStore s th cached pa bs).ctxs = s.ctxs := by
  have hclaim : (cutBuffer (if cached then ownPeer s e.lake pa else s) e.block.id (· == th.ref) pa bs.length).icache = s.icache ∧
      (cutBuffer (if cached then ownPeer s e.lake pa else s) e.block.id (· == th.ref) pa bs.length).ctxs = s.ctxs := by
    cases cached with
    | true =>
      simp only [if_true]
      rw [ownPeer_rest]
      exact ⟨rfl, rfl⟩
    | false => exact ⟨rfl, rfl⟩
  rw [deviceStore_eq hs hl, homeWrite, putHome_rest, (logWrite_logged _ _ _ _).rest]
  exact hclaim

/-- The bytes that it stores below host memory. -/
theorem homeByte_deviceStore {th : Thread} {cached : Bool} {pa k : Nat} {bs : List Byte} (hs : s.slices = []) (hl : lostTo s pa = false)
    (hok : s.hostLinesOk) (hk : k < bs.length) (ha : pa + k < Config.hostBase) :
    homeByte (e.deviceStore s th cached pa bs) (pa + k) = bs.getD k 0 := by
  have hclaim : DeviceStored e [th.ref] [pa] bs.length s
      (cutBuffer (if cached then ownPeer s e.lake pa else s) e.block.id (· == th.ref) pa bs.length) :=
    claim_stored cached List.mem_cons_self List.mem_cons_self
  rw [deviceStore_eq hs hl, homeWrite, logWrite_device (Nat.lt_of_le_of_lt (Nat.le_add_right pa k) ha)]
  exact homeByte_putHome_in (hclaim.lines hok) hk ha

/-- Dropped code leaves the rest of the stores. -/
theorem dropCode_stored (c : Nat) (r : Nat × Nat) : DeviceStored e ts pas n s (dropCode c s r) :=
  ⟨rfl, rfl, rfl, fun _ _ _ => rfl, .refl .., .refl .., .refl .., fun h => h⟩

end Sys2Proof.Machine
end

section
/-! O51, the bytes that SWAPC and OBJW store (R235, R237). -/

namespace Sys2Proof.Machine

/-- The registers that a thread names from a source up, as bytes of memory. -/
def Env.regBytes (e : Env) (b : Src) (m : Nat) (u : Thread) : List Byte := (List.range m).flatMap (fun k => word32Bytes (e.srcAt u b k))

theorem length_regBytes (e : Env) (b : Src) (u : Thread) : ∀ m, (e.regBytes b m u).length = 4 * m
  | 0 => rfl
  | m + 1 => by
    have hword : ∀ w, (word32Bytes w).length = 4 := fun w => length_leBytes 4 _
    rw [Env.regBytes, List.range_succ, List.flatMap_append, List.length_append, ← Env.regBytes, length_regBytes e b u m, List.flatMap_singleton,
      hword]
    omega

/-- SWAPC stores a word of four registers. -/
theorem datum_eq (e : Env) (u : Thread) (b : Src) : e.datum u b 16 = e.regBytes b 4 u :=
  List.take_of_length_le (Nat.le_of_eq (length_regBytes e b u 4))

/-- The first `m` registers of a record, as a number. -/
def Env.regSum (e : Env) (b : Src) (m : Nat) (u : Thread) : Nat :=
  (List.range m).foldr (fun i r => (e.srcAt u b i).toNat * 2 ^ (32 * i) + r) 0

theorem regSum_succ (e : Env) (b : Src) (m : Nat) (u : Thread) :
    e.regSum b (m + 1) u = e.regSum b m u + (e.srcAt u b m).toNat * 2 ^ (32 * m) := by
  have hadd : ∀ (l : List Nat) (c : Nat), l.foldr (fun i r => (e.srcAt u b i).toNat * 2 ^ (32 * i) + r) c =
      l.foldr (fun i r => (e.srcAt u b i).toNat * 2 ^ (32 * i) + r) 0 + c := by
    intro l c
    induction l with
    | nil => simp
    | cons i l ih => simp only [List.foldr_cons, ih]; omega
  rw [Env.regSum, List.range_succ, List.foldr_append, hadd]
  simp [Env.regSum]

theorem regSum_lt (e : Env) (b : Src) (u : Thread) : ∀ m, e.regSum b m u < 2 ^ (32 * m)
  | 0 => Nat.one_pos
  | m + 1 => by
    have ih := regSum_lt e b u m
    have hw : (e.srcAt u b m).toNat < 2 ^ 32 := (e.srcAt u b m).isLt
    have hmul : ((e.srcAt u b m).toNat + 1) * 2 ^ (32 * m) ≤ 2 ^ 32 * 2 ^ (32 * m) := Nat.mul_le_mul_right _ hw
    rw [regSum_succ, show 32 * (m + 1) = 32 + 32 * m by omega, Nat.pow_add]
    rw [Nat.add_mul] at hmul
    omega

theorem leBytes_add : ∀ m k v : Nat, leBytes (m + k) v = leBytes m v ++ leBytes k (v / 256 ^ m)
  | 0, k, v => by simp [leBytes]
  | m + 1, k, v => by
    rw [show m + 1 + k = m + k + 1 by omega, leBytes, leBytes, leBytes_add m k, Nat.div_div_eq_div_mul, Nat.pow_succ, Nat.mul_comm 256]
    rfl

/-- The bytes of a number depend on its value below their number alone. -/
theorem leBytes_add_mul : ∀ m v k : Nat, leBytes m (v + 256 ^ m * k) = leBytes m v
  | 0, _, _ => rfl
  | m + 1, v, k => by
    have hk : 256 ^ (m + 1) * k = 256 * (256 ^ m * k) := by rw [Nat.pow_succ, Nat.mul_comm _ 256, Nat.mul_assoc]
    have hbyte : BitVec.ofNat 8 (v + 256 * (256 ^ m * k)) = BitVec.ofNat 8 v := BitVec.eq_of_toNat_eq (Nat.add_mul_mod_self_left v 256 _)
    rw [leBytes, leBytes, hk, hbyte, Nat.add_mul_div_left _ _ (by decide), leBytes_add_mul m]

theorem leBytes_regSum (e : Env) (b : Src) (u : Thread) : ∀ m, leBytes (4 * m) (e.regSum b m u) = e.regBytes b m u
  | 0 => rfl
  | m + 1 => by
    have hpow : 2 ^ (32 * m) = 256 ^ (4 * m) := by rw [show 32 * m = 8 * (4 * m) by omega, Nat.pow_mul]
    have hlt : e.regSum b m u < 256 ^ (4 * m) := hpow ▸ regSum_lt e b u m
    rw [regSum_succ, hpow, Nat.mul_comm (e.srcAt u b m).toNat, Nat.mul_add, leBytes_add, leBytes_add_mul, leBytes_regSum e b u m,
      Nat.add_mul_div_left _ _ (Nat.pow_pos (by decide)), Nat.div_eq_of_lt hlt, Nat.zero_add, Env.regBytes, Env.regBytes, List.range_succ,
      List.flatMap_append, List.flatMap_singleton]
    rfl

/-- OBJW stores a record of sixteen registers. -/
theorem leBytes_recordOf (e : Env) (b : Src) (u : Thread) : leBytes 64 (e.recordOf u b) = e.regBytes b 16 u := leBytes_regSum e b u 16

end Sys2Proof.Machine
end

section
/-! O51, SWAPC and OBJW (R235, R237). -/

namespace Sys2Proof.Machine

variable {s t : State} {e : Env} {i : Instr} {obj : Bool} {a b : Src} {ts : List TRef} {pas : List Nat} {l : List (Thread × Nat × Leaf)}

/-- Where a thread's SWAPC or OBJW stores: the code address, or that of the table entry. -/
def Env.codeAddr (e : Env) (obj : Bool) (a : Src) (u : Thread) : Nat :=
  if obj then entryAddr e.ctx ((e.src 0 u a).toNat % 2 ^ 16) else (e.src64 0 false u a).toNat

/-- The bytes that it stores: a word or a record. -/
def codeLen (obj : Bool) : Nat := if obj then 64 else 16

/-- One thread's store, at its translated address; a word that SWAPC replaces leaves the caches of code. -/
def Env.codeStore (e : Env) (obj : Bool) (a b : Src) (s : State) (p : Thread × Nat × Leaf) : State :=
  let t := e.deviceStore s p.1 p.2.2.cached p.2.1 (e.regBytes b (codeLen obj / 4) p.1)
  if obj then t else dropCode e.ctx.rcd.id t (e.codeAddr obj a p.1, 16)

/-- The checks of SWAPC and OBJW on memory (R355, R356). -/
def codeCheck (obj : Bool) (s : State) (e : Env) (rs : List MemReq) : Except MemFault (List (Nat × Leaf)) :=
  if obj then checkMem s (some e.lake) e.ctx false rs else checkFatal s (some e.lake) e.ctx true rs

theorem length_of_codeCheck {rs : List MemReq} {hs : List (Nat × Leaf)} (h : codeCheck obj s e rs = .ok hs) : hs.length = rs.length := by
  cases obj with
  | true => exact length_of_checkBy h
  | false => exact length_of_checkBy h

theorem length_codeBytes (e : Env) (obj : Bool) (b : Src) (u : Thread) : (e.regBytes b (codeLen obj / 4) u).length = codeLen obj := by
  rw [length_regBytes]
  cases obj <;> rfl

/-- A SWAPC of valid targets whose checks find no fault stores for its threads in ascending lane. -/
theorem exec_swapc {g : Guard} {hs : List (Nat × Leaf)} (h : Issues s e (.swapc g a b)) (hok : ∀ u ∈ e.active g, e.targetOk (e.codeAddr false a u))
    (hc : codeCheck false s e ((e.active g).map (fun u => ⟨u.lane, e.codeAddr false a u, 16, .store, false, false⟩)) = .ok hs)
    (hr : actsReady s e ((e.active g).zip (hs.map Prod.snd)) = true) :
    exec (.swapc g a b) s = .next (((e.active g).zip hs).foldl (e.codeStore false a b) (finish s e (.swapc g a b))) := by
  have hvalid : (e.active g).find? (fun t => !e.valid (e.src64 0 false t a).toNat) = none := by
    refine List.find?_eq_none.2 fun u hu hbad => ?_
    obtain ⟨halign, hlo, hhi⟩ := hok u hu
    have hva : e.valid (e.src64 0 false u a).toNat = true := by
      rw [Env.valid, validIn, Bool.and_eq_true]
      exact ⟨beq_iff_eq.2 halign, decide_eq_true ⟨hlo, hhi⟩⟩
    rw [hva] at hbad
    cases hbad
  have hcheck := ((finish_sameXlat s e (.swapc g a b)).checkFatal (some e.lake) e.ctx true _).trans hc
  have hready := (finish_actsReady s e (.swapc g a b) _).trans hr
  simp only [Env.codeAddr, Bool.false_eq_true, if_false] at hcheck
  show execSwapc g a b s = _
  rw [execSwapc, issue_of_issues h]
  simp only [hvalid, hcheck, hready, Bool.not_true, Bool.false_eq_true, if_false, settle]
  rfl

/-- An OBJW of valid records whose checks find no fault stores for its threads in ascending lane. -/
theorem exec_objw {g : Guard} {hs : List (Nat × Leaf)} (h : Issues s e (.objw g a b))
    (hok : ∀ u ∈ e.active g, shapeV (e.recordOf u b) = true → shapeValid (e.recordOf u b) = true)
    (hc : codeCheck true s e ((e.active g).map (fun u => ⟨u.lane, e.codeAddr true a u, 64, .store, false, false⟩)) = .ok hs)
    (hr : actsReady s e ((e.active g).zip (hs.map Prod.snd)) = true) :
    exec (.objw g a b) s = .next (((e.active g).zip hs).foldl (e.codeStore true a b) (finish s e (.objw g a b))) := by
  have hvalid : (e.active g).find? (fun t => shapeV (e.recordOf t b) && !shapeValid (e.recordOf t b)) = none := by
    refine List.find?_eq_none.2 fun u hu hbad => ?_
    obtain ⟨hv, hn⟩ := Bool.and_eq_true_iff.1 hbad
    rw [hok u hu hv] at hn
    cases hn
  have hcheck := ((finish_sameXlat s e (.objw g a b)).checkMem (some e.lake) e.ctx false _).trans hc
  have hready := (finish_actsReady s e (.objw g a b) _).trans hr
  have hstore : e.codeStore true a b = fun s p => e.deviceStore s p.1 p.2.2.cached p.2.1 (leBytes 64 (e.recordOf p.1 b)) := by
    funext s p
    rw [leBytes_recordOf]
    rfl
  simp only [Env.codeAddr, if_true] at hcheck
  show execObjw g a b s = _
  rw [execObjw, issue_of_issues h, hstore]
  simp only [hvalid, Env.objIndex, hcheck, hready, Bool.not_true, Bool.false_eq_true, if_false, settle]

/-- Both words, by what they have in common. -/
theorem exec_codeWord {g : Guard} {hs : List (Nat × Leaf)} (hi : i = (if obj then .objw g a b else .swapc g a b)) (h : Issues s e i)
    (hcode : obj = false → ∀ u ∈ e.active g, e.targetOk (e.codeAddr obj a u))
    (hrec : obj = true → ∀ u ∈ e.active g, shapeV (e.recordOf u b) = true → shapeValid (e.recordOf u b) = true)
    (hc : codeCheck obj s e ((e.active g).map (fun u => ⟨u.lane, e.codeAddr obj a u, codeLen obj, .store, false, false⟩)) = .ok hs)
    (hr : actsReady s e ((e.active g).zip (hs.map Prod.snd)) = true) :
    exec i s = .next (((e.active g).zip hs).foldl (e.codeStore obj a b) (finish s e i)) := by
  subst hi
  cases obj with
  | true => exact exec_objw h (hrec rfl) hc hr
  | false => exact exec_swapc h (hcode rfl) hc hr

/-- One thread's store. -/
theorem codeStore_stored {p : Thread × Nat × Leaf} (hs : s.slices = []) (hl : lostTo s p.2.1 = false) (hpa : p.2.1 ∈ pas) (hth : p.1.ref ∈ ts) :
    DeviceStored e ts pas (codeLen obj) s (e.codeStore obj a b s p) := by
  have hstore : DeviceStored e ts pas (codeLen obj) s (e.deviceStore s p.1 p.2.2.cached p.2.1 (e.regBytes b (codeLen obj / 4) p.1)) :=
    deviceStore_stored hs hl hpa hth (length_codeBytes e obj b p.1)
  unfold Env.codeStore
  cases obj with
  | true => exact hstore
  | false => exact hstore.trans (dropCode_stored _ _)

theorem codeStore_codeDropped {p : Thread × Nat × Leaf} (hs : s.slices = []) (hl : lostTo s p.2.1 = false) :
    CodeDropped s (e.codeStore obj a b s p) e.ctx.rcd.id (if obj then [] else [(e.codeAddr obj a p.1, 16)]) := by
  have hcode := deviceStore_code (e := e) (th := p.1) (cached := p.2.2.cached) (bs := e.regBytes b (codeLen obj / 4) p.1) hs hl
  unfold Env.codeStore
  cases obj with
  | true => exact codeDropped_nil hcode.1 hcode.2
  | false => exact (dropCode_codeDropped _ _ _).of_eq hcode.1 hcode.2

/-- The threads' stores, one after another. -/
theorem foldl_codeStore_stored : ∀ {l : List (Thread × Nat × Leaf)} {s : State}, s.slices = [] →
    (∀ p ∈ l, lostTo s p.2.1 = false ∧ p.2.1 ∈ pas ∧ p.1.ref ∈ ts) → DeviceStored e ts pas (codeLen obj) s (l.foldl (e.codeStore obj a b) s)
  | [], s, _, _ => .refl ..
  | p :: l, s, hs, h => by
    obtain ⟨hl, hpa, hth⟩ := h p List.mem_cons_self
    have hstep : DeviceStored e ts pas (codeLen obj) s (e.codeStore obj a b s p) := codeStore_stored hs hl hpa hth
    exact hstep.trans (foldl_codeStore_stored (hstep.slices.trans hs) fun q hq => by
      rw [hstep.lostTo]
      exact h q (List.mem_cons_of_mem _ hq))

theorem foldl_codeStore_codeDropped : ∀ {l : List (Thread × Nat × Leaf)} {s : State}, s.slices = [] → (∀ p ∈ l, lostTo s p.2.1 = false) →
    CodeDropped s (l.foldl (e.codeStore obj a b) s) e.ctx.rcd.id (if obj then [] else l.map (fun p => (e.codeAddr obj a p.1, 16)))
  | [], s, _, _ => by cases obj <;> exact codeDropped_nil rfl rfl
  | p :: l, s, hs, h => by
    have hl := h p List.mem_cons_self
    have hstep : DeviceStored e [p.1.ref] [p.2.1] (codeLen obj) s (e.codeStore obj a b s p) :=
      codeStore_stored hs hl List.mem_cons_self List.mem_cons_self
    have hrest := foldl_codeStore_codeDropped (l := l) (hstep.slices.trans hs) fun q hq => by
      rw [hstep.lostTo]
      exact h q (List.mem_cons_of_mem _ hq)
    have htrans := (codeStore_codeDropped hs hl).trans hrest
    cases obj <;> exact htrans

/-- What a thread stores below host memory stands unless a later store meets it. -/
theorem homeByte_foldl_codeStore {l r : List (Thread × Nat × Leaf)} {p : Thread × Nat × Leaf} {k : Nat} (hs : s.slices = [])
    (hl : ∀ q ∈ l ++ p :: r, lostTo s q.2.1 = false) (hok : s.hostLinesOk) (hk : k < codeLen obj)
    (hlast : ∀ q ∈ r, ¬(q.2.1 ≤ p.2.1 + k ∧ p.2.1 + k < q.2.1 + codeLen obj)) (ha : p.2.1 + k < Config.hostBase) :
    homeByte ((l ++ p :: r).foldl (e.codeStore obj a b) s) (p.2.1 + k) = (e.regBytes b (codeLen obj / 4) p.1).getD k 0 := by
  have hpre : DeviceStored e (l.map (·.1.ref)) (l.map (·.2.1)) (codeLen obj) s (l.foldl (e.codeStore obj a b) s) :=
    foldl_codeStore_stored hs fun q hq => ⟨hl q (by simp [hq]), List.mem_map_of_mem (f := fun q => q.2.1) hq,
      List.mem_map_of_mem (f := fun q => q.1.ref) hq⟩
  have hs1 := hpre.slices.trans hs
  have hl1 : lostTo (l.foldl (e.codeStore obj a b) s) p.2.1 = false := (hpre.lostTo _).trans (hl p (by simp))
  have hstep : DeviceStored e [p.1.ref] [p.2.1] (codeLen obj) _ (e.codeStore obj a b (l.foldl (e.codeStore obj a b) s) p) :=
    codeStore_stored hs1 hl1 List.mem_cons_self List.mem_cons_self
  have hpost : DeviceStored e (r.map (·.1.ref)) (r.map (·.2.1)) (codeLen obj) (e.codeStore obj a b (l.foldl (e.codeStore obj a b) s) p)
      (r.foldl (e.codeStore obj a b) (e.codeStore obj a b (l.foldl (e.codeStore obj a b) s) p)) :=
    foldl_codeStore_stored (hstep.slices.trans hs1) fun q hq => ⟨(hstep.lostTo _).trans ((hpre.lostTo _).trans (hl q (by simp [hq]))),
      List.mem_map_of_mem (f := fun q => q.2.1) hq, List.mem_map_of_mem (f := fun q => q.1.ref) hq⟩
  have hout : ¬among (r.map (·.2.1)) (codeLen obj) (p.2.1 + k) := by
    rintro ⟨pa, hpa, hin⟩
    obtain ⟨q, hq, rfl⟩ := List.mem_map.1 hpa
    exact hlast q hq hin
  have hput : homeByte (e.deviceStore (l.foldl (e.codeStore obj a b) s) p.1 p.2.2.cached p.2.1 (e.regBytes b (codeLen obj / 4) p.1)) (p.2.1 + k) =
      (e.regBytes b (codeLen obj / 4) p.1).getD k 0 :=
    homeByte_deviceStore hs1 hl1 (hpre.lines hok) (by rw [length_codeBytes]; exact hk) ha
  rw [List.foldl_append, List.foldl_cons, hpost.untouched _ (.inl ha) hout, ← hput]
  unfold Env.codeStore
  cases obj <;> rfl

/-- What the stores of an issued word leave of its issue. -/
theorem DeviceStored.issued {n : Nat} (h : DeviceStored e ts pas n (finish s e i) t) : State.Issued e [] [] { s with
    mem := t.mem
    lineTag := t.lineTag
    hostLines := t.hostLines
    peerLines := t.peerLines
    launches := t.launches
    blocks := t.blocks
    host := t.host
    icache := t.icache
    ctxs := t.ctxs } t := by
  have hth : t.threads = (finish s e i).threads := by rw [h.rest]
  have hfr : t.frags = (finish s e i).frags := by rw [h.rest]
  have hcur : t.cur = (finish s e i).cur := by rw [h.rest]
  have hfree : t.free = (finish s e i).free := by rw [h.rest]
  have hhints : t.hints = (finish s e i).hints := by rw [h.rest]
  refine issued_of ?_ (hth.trans (finish_threads_eq_map s e i)) (hfr ▸ finish_frags s e i)
  conv_lhs => rw [h.rest, finish_eq]
  rw [hth, hfr, hcur, hfree, hhints, finish_threads]

/-- SWAPC and OBJW (R235, R237). -/
theorem codeWord_acts (i : Instr) (g : Guard) (a b : Src) (obj : Bool) (s : State) (e : Env) (hs : List (Nat × Leaf))
    (hi : i = (if obj then .objw g a b else .swapc g a b)) (h : Issues s e i) :
    let act := e.active g
    let va (u : Thread) : Nat := if obj then entryAddr e.ctx ((e.src 0 u a).toNat % 2 ^ 16) else (e.src64 0 false u a).toNat
    let n := if obj then 64 else 16
    let bytes (u : Thread) : List Byte := (List.range (n / 4)).flatMap (fun k => word32Bytes (e.srcAt u b k))
    let rs : List MemReq := act.map (fun u => ⟨u.lane, va u, n, .store, false, false⟩)
    (obj = false → ∀ u ∈ act, e.targetOk (va u)) → (obj = true → ∀ u ∈ act, shapeV (e.recordOf u b) = true → shapeValid (e.recordOf u b) = true) →
    (if obj then checkMem s (some e.lake) e.ctx false rs else checkFatal s (some e.lake) e.ctx true rs) = .ok hs →
    (∀ h ∈ hs, lostTo s h.1 = false) → actsReady s e (act.zip (hs.map Prod.snd)) = true → ∃ t, exec i s = .next t ∧ (s.slices = [] →
      State.Issued e [] [] { s with
        mem := t.mem
        lineTag := t.lineTag
        hostLines := t.hostLines
        peerLines := t.peerLines
        launches := t.launches
        blocks := t.blocks
        host := t.host
        icache := t.icache
        ctxs := t.ctxs } t ∧ Untouched s t (among (hs.map Prod.fst) n) ∧ Mirrored (among (hs.map Prod.fst) n) s.launches t.launches ∧
      BuffersCut e.block.id (· ∈ e.acting g) s.blocks t.blocks ∧ PeersOwned e.lake (fun k => ∃ h ∈ hs, k = lineOf h.1) s.peerLines t.peerLines ∧
      CodeDropped s t e.ctx.rcd.id (if obj then [] else act.map (fun u => (va u, 16))) ∧
      ∀ l p r k, act.zip hs = l ++ p :: r → k < n → (∀ q ∈ r, ¬(q.2.1 ≤ p.2.1 + k ∧ p.2.1 + k < q.2.1 + n)) →
        p.2.1 + k < Config.hostBase → s.hostLinesOk → homeByte t (p.2.1 + k) = (bytes p.1).getD k 0) := by
  intro act va n bytes rs hcode hrec hc hlost hready
  refine ⟨_, exec_codeWord hi h hcode hrec hc hready, fun hsl => ?_⟩
  have hlen : hs.length = act.length := (length_of_codeCheck hc).trans (List.length_map _)
  have hsl' : (finish s e i).slices = [] := (finish_slices s e i).trans hsl
  have hl : ∀ q ∈ act.zip hs, lostTo (finish s e i) q.2.1 = false := fun q hq => by
    rw [lostTo, finish_host]
    exact hlost q.2 (List.of_mem_zip hq).2
  have hstored : DeviceStored e (e.acting g) (hs.map Prod.fst) (codeLen obj) (finish s e i)
      ((act.zip hs).foldl (e.codeStore obj a b) (finish s e i)) :=
    foldl_codeStore_stored hsl' fun q hq => ⟨hl q hq, List.mem_map_of_mem (List.of_mem_zip hq).2, List.mem_map_of_mem (List.of_mem_zip hq).1⟩
  have hdropped := foldl_codeStore_codeDropped (e := e) (obj := obj) (a := a) (b := b) hsl' hl
  have hfst : (act.zip hs).map (fun p => (e.codeAddr obj a p.1, 16)) = act.map (fun u => (va u, 16)) := by
    calc (act.zip hs).map (fun p => (e.codeAddr obj a p.1, 16)) = ((act.zip hs).map Prod.fst).map (fun u => (e.codeAddr obj a u, 16)) :=
          by simp only [List.map_map, Function.comp_def]
      _ = act.map (fun u => (va u, 16)) := by rw [List.map_fst_zip hlen.ge]; rfl
  have hlines : (fun k => ∃ p ∈ hs.map Prod.fst, k = lineOf p) = fun k => ∃ h ∈ hs, k = lineOf h.1 := by
    funext k
    simp only [List.mem_map, exists_exists_and_eq_and]
  refine ⟨hstored.issued, fun x hx ho => ?_, ?_, ?_, ?_, ?_, fun l p r k hzip hk hlast ha hok => ?_⟩
  · have hfeat : feature (finish s e i) 1 = feature s 1 := by rw [feature, feature, finish_host]
    exact (hstored.untouched x (hx.imp_right hfeat.trans) ho).trans ((finish_sameXlat s e i).home x)
  · exact finish_launches s e i ▸ hstored.mirrored
  · exact finish_blocks s e i ▸ hstored.cut
  · exact finish_peerLines s e i ▸ hlines ▸ hstored.peers
  · exact (hfst ▸ hdropped).of_eq (finish_icache ..) (finish_ctxs ..)
  · rw [hzip] at hl ⊢
    exact homeByte_foldl_codeStore hsl' hl (by rw [State.hostLinesOk, finish_hostLines]; exact hok) hk hlast ha

/-- Settles O51: SWAPC and OBJW by what their threads' stores leave, one after another; ICINV by the release and the ranges that it drops; XLINV by
the invalidation that it begins. -/
theorem codeAndTableWords : Obligations.CodeAndTableWords := by
  unfold Obligations.CodeAndTableWords
  exact ⟨codeWord_acts, icinv_acts, xlinv_acts⟩

end Sys2Proof.Machine
end

section
/-! SUPPORT. Words that write one result or one predicate, by what their bodies compute; the halves of a value. -/

namespace Sys2Proof.Machine

/-- A word whose body writes `f` writes whatever holds of `f`. -/
theorem writes_of_writeBody {i : Instr} {w : Bool} {d : Dst} {p : Env → Thread → DWord → Prop} (f : Env → Thread → DWord)
    (hx : ∀ s, exec i s = issue i s (writeBody (guardOfInstr i) w d f)) (hp : ∀ e u, p e u (f e u)) : Writes i w d p := by
  intro s e h
  obtain ⟨t, ht, hr⟩ := writeBody_results h (guardOfInstr i) w d f
  exact ⟨t, f e, (hx s).trans ht, hr, fun u _ => hp e u⟩

/-- A word whose body writes the truth of `f` to a predicate sets whatever `f` decides. -/
theorem sets_of_predBody {i : Instr} {k : Fin 64} {p : Env → Thread → Prop} (f : Env → Thread → Bool)
    (hx : ∀ s, exec i s = issue i s (plain (guardOfInstr i) (fun e act s => writePred s k (forEach act (f e)))))
    (hp : ∀ e u, f e u = true ↔ p e u) : Sets i k p := by
  intro s e h
  obtain ⟨t, ht, hr⟩ := predBody_results h (guardOfInstr i) k (fun e _ => f e)
  exact ⟨t, (hx s).trans ht, fun u hu => ⟨f e u, hr u hu, hp e u⟩⟩

theorem Same.refl (w : Bool) (x : DWord) : Same w x x := ⟨rfl, fun _ => rfl⟩

theorem loWord_setWidth (x : Word) : loWord (x.setWidth 64) = x := by
  unfold loWord
  exact BitVec.eq_of_toNat_eq (by simpa using x.isLt)

@[simp] theorem getLsbD_loWord (x : DWord) (k : Nat) : (loWord x).getLsbD k = (decide (k < 32) && x.getLsbD k) := by simp [loWord]

theorem loWord_signExtend (x : Word) : loWord (x.signExtend 64) = x := by
  refine BitVec.eq_of_getLsbD_eq fun k hk => ?_
  rw [getLsbD_loWord, BitVec.getLsbD_signExtend, if_pos hk, decide_eq_true hk, decide_eq_true (by omega), Bool.true_and, Bool.true_and]

end Sys2Proof.Machine
end

section
/-! O2. Moves, compares, BYTEP and LEA (R131, R135, R140, R141). -/

namespace Sys2Proof.Machine

theorem predRead_iff (p : PSrc) (u : Thread) : predRead p u = true ↔ holdsIn p u := by
  unfold predRead holdsIn
  cases u.preds.getLsbD p.n <;> cases p.neg <;> decide

theorem condHolds_iff (c : Cond) (x y : Int) : condHolds c x y = true ↔ condRel c x y := by
  cases c <;> exact decide_eq_true_iff

/-- A 32-bit value holds the literal under either signedness (R123). -/
theorem movi_value (e : Env) (w uns : Bool) (u : Thread) (imm : Word) :
    Same w (e.srcW imm w uns u .lit) (if uns then imm.setWidth 64 else imm.signExtend 64) := by
  cases w with
  | true => exact .refl ..
  | false =>
    refine ⟨(loWord_setWidth imm).trans ?_, nofun⟩
    cases uns with
    | true => exact (loWord_setWidth imm).symm
    | false => exact (loWord_signExtend imm).symm

/-- MOVH puts the low half of b over that of a (R131). -/
theorem movh_value (x y : Word) :
    loWord (BitVec.ofNat 64 (y.toNat % 2 ^ 16 * 2 ^ 16 + x.toNat % 2 ^ 16)) = y.extractLsb' 0 16 ++ x.extractLsb' 0 16 := by
  have hx : x.toNat % 2 ^ 16 < 2 ^ 16 := Nat.mod_lt _ (by decide)
  have hy : y.toNat % 2 ^ 16 < 2 ^ 16 := Nat.mod_lt _ (by decide)
  apply BitVec.eq_of_toNat_eq
  simp only [loWord, BitVec.extractLsb'_toNat, BitVec.toNat_append, BitVec.toNat_ofNat, Nat.shiftRight_zero]
  rw [Nat.shiftLeft_eq, ← Nat.shiftLeft_eq, ← Nat.shiftLeft_add_eq_or_of_lt hx, Nat.shiftLeft_eq]
  omega

/-! BYTEP (R140). -/

theorem toNat_pairWord (hi lo : Word) : (pairWord hi lo).toNat = hi.toNat * 2 ^ 32 + lo.toNat := by
  rw [pairWord, BitVec.toNat_append, ← Nat.shiftLeft_add_eq_or_of_lt lo.isLt, Nat.shiftLeft_eq]

/-- Byte `n` of the bytes of `a` and `b`. -/
def pairByte (a b : Word) (n : Nat) : Nat := if n < 4 then wordByte a n else wordByte b (n - 4)

theorem bytepByte_eq (a b : Word) (n : Nat) : bytepByte a b n = if n < 8 then pairByte a b n else if 128 ≤ pairByte a b (n - 8) then 255 else 0 := rfl

theorem pairByte_eq (a b : Word) {n : Nat} (hn : n < 8) : pairByte a b n = bits (pairWord b a).toNat (8 * n) 8 := by
  have ha := a.isLt
  have hb := b.isLt
  unfold pairByte wordByte
  rw [bits_eq, toNat_pairWord]
  interval_cases n <;> simp <;> omega

/-- The sign of a byte is its bit 7. -/
theorem getLsbD_sign (x : DWord) (n : Nat) : x.getLsbD (8 * n + 7) = decide (128 ≤ bits x.toNat (8 * n) 8) := by
  rw [← BitVec.testBit_toNat, Nat.testBit_eq_decide_div_mod_eq, bits_eq, Nat.pow_add, ← Nat.div_div_eq_div_mul]
  generalize x.toNat / 2 ^ (8 * n) = y
  exact decide_eq_decide.2 (by omega)

theorem byteSel_eq (a b : Word) {n : Nat} (hn : n < 16) : byteSel (pairWord b a) n = bytepByte a b n := by
  rw [bytepByte_eq]
  unfold byteSel
  split
  · next h => exact (pairByte_eq a b h).symm
  · rw [getLsbD_sign, pairByte_eq a b (by omega)]
    simp only [decide_eq_true_eq]

theorem pairByte_lt (a b : Word) (n : Nat) : pairByte a b n < 256 := by
  unfold pairByte wordByte
  split <;> exact Nat.mod_lt _ (by decide)

theorem bytepByte_lt (a b : Word) (n : Nat) : bytepByte a b n < 256 := by
  rw [bytepByte_eq]
  split
  · exact pairByte_lt ..
  · split <;> decide

theorem toNat_loWord_ofNat (n : Nat) : (loWord (BitVec.ofNat 64 n)).toNat = n % 4294967296 := by
  rw [loWord, BitVec.extractLsb'_toNat, BitVec.toNat_ofNat, Nat.shiftRight_zero, Nat.mod_mod_of_dvd _ (by decide)]

theorem foldl_add_four (g : Nat → Nat) : (List.range 4).foldl (fun r k => r + g k) 0 = g 0 + g 1 + g 2 + g 3 := by simp [List.range_succ]

/-- Four bytes side by side are found again at their places. -/
theorem wordByte_bytes (f : Nat → Nat) (hf : ∀ k, f k < 256) {k : Nat} (hk : k < 4) :
    wordByte (loWord (BitVec.ofNat 64 ((List.range 4).foldl (fun r k => r + f k * 2 ^ (8 * k)) 0))) k = f k := by
  have hp (k n : Nat) (h : 2 ^ (8 * k) = n) : f k * 2 ^ (8 * k) = f k * n := by rw [h]
  rw [foldl_add_four, wordByte, toNat_loWord_ofNat, hp 0 1 (by decide), hp 1 256 (by decide), hp 2 65536 (by decide), hp 3 16777216 (by decide)]
  have h0 := hf 0
  have h1 := hf 1
  have h2 := hf 2
  have h3 := hf 3
  obtain rfl | rfl | rfl | rfl : k = 0 ∨ k = 1 ∨ k = 2 ∨ k = 3 := by omega
  · show _ / 1 % _ = _
    omega
  · show _ / 256 % _ = _
    omega
  · show _ / 65536 % _ = _
    omega
  · show _ / 16777216 % _ = _
    omega

/-- Byte `k` of what BYTEP writes is the one that nibble `k` of c selects. -/
theorem bytep_value (a b c : Word) {k : Nat} (hk : k < 4) :
    wordByte (loWord (BitVec.ofNat 64 ((List.range 4).foldl (fun r k => r + byteSel (pairWord b a) (bits c.toNat (4 * k) 4) * 2 ^ (8 * k)) 0))) k =
      bytepByte a b (c.toNat / 16 ^ k % 16) := by
  have hsel (k : Nat) : byteSel (pairWord b a) (bits c.toNat (4 * k) 4) = bytepByte a b (c.toNat / 16 ^ k % 16) := by
    rw [byteSel_eq a b (bits_lt ..), bits_eq, Nat.pow_mul]
    rfl
  simp only [hsel]
  exact wordByte_bytes _ (fun _ => bytepByte_lt ..) hk

/-! LEA (R141). -/

/-- A factor of LEA as the model extends it. -/
theorem scale_eq (e : Env) (imm : Word) (uns : Bool) (u : Thread) (x : Src) :
    (match x with
      | .reg .. | .lit | .zero => extInt false uns (e.srcW imm false uns u x)
      | _ => extInt false true (e.srcW imm false uns u x)) = e.scale imm uns u x := by
  have h (uns' : Bool) : extInt false uns' (e.srcW imm false uns u x) = if uns' then ((e.src imm u x).toNat : Int) else (e.src imm u x).toInt := by
    unfold extInt Env.srcW
    simp only [Bool.false_eq_true, if_false, loWord_setWidth]
  cases x <;> simp only [h] <;> rfl

theorem lea_value (x : DWord) (y z : Int) : BitVec.ofInt 64 (x.toNat + y * z) = x + BitVec.ofInt 64 (y * z) := by
  rw [BitVec.ofInt_add]
  simp

/-- Settles O2: the bodies of these words write what the rules say, thread by thread. -/
theorem movesComparesAndBytes : Obligations.MovesComparesAndBytes := by
  refine ⟨⟨⟨fun g w uns d a imm => ?mov, fun g w uns d imm => ?movi, fun g d a b imm => ?movh, fun g w uns d a b p => ?sel⟩,
    fun g w uns c p a b => ?icmp, fun g w uns c d a b => ?iset⟩, fun g d a b c imm => ?bytep, fun g uns d a b c imm => ?lea⟩
  case mov => exact writes_of_writeBody _ (fun _ => rfl) (fun _ _ => .refl ..)
  case movi => exact writes_of_writeBody _ (fun _ => rfl) (fun e u => movi_value e w uns u imm)
  case movh => exact writes_of_writeBody _ (fun _ => rfl) (fun _ _ => movh_value ..)
  case sel =>
    refine writes_of_writeBody _ (fun _ => rfl) (fun e u => ?_)
    rw [← predRead_iff]
    exact ⟨fun h => by rw [if_pos h]; exact .refl .., fun h => by rw [if_neg h]; exact .refl ..⟩
  case icmp => exact sets_of_predBody _ (fun _ => rfl) (fun _ _ => condHolds_iff ..)
  case iset =>
    refine writes_of_writeBody _ (fun _ => rfl) (fun e u => ?_)
    rw [← condHolds_iff]
    exact ⟨fun h => by rw [if_pos (by exact h)]; exact .refl .., fun h => by rw [if_neg (by exact h)]; exact .refl ..⟩
  case bytep => exact writes_of_writeBody _ (fun _ => rfl) (fun _ _ _ hk => bytep_value _ _ _ hk)
  case lea =>
    refine writes_of_writeBody _ (fun _ => rfl) (fun e u => ?_)
    rw [← scale_eq, ← scale_eq]
    exact lea_value ..

end Sys2Proof.Machine
end

section
/-! O3. Exact integers, clamped or modulo 2^w (R132, R134). -/

namespace Sys2Proof.Machine

/-- The low half of a 64-bit integer is the integer modulo 2^32. -/
theorem loWord_ofInt (r : Int) : loWord (BitVec.ofInt 64 r) = BitVec.ofInt 32 r := by
  apply BitVec.eq_of_toNat_eq
  rw [loWord, BitVec.extractLsb'_toNat, Nat.shiftRight_zero, BitVec.toNat_ofInt, BitVec.toNat_ofInt]
  omega

/-- An integer written at a width is read back without a sign modulo 2^w (R132). -/
theorem extInt_ofInt_uns (w : Bool) (r : Int) : extInt w true (BitVec.ofInt 64 r) = r % 2 ^ widthOf w := by
  cases w with
  | true =>
    show ((BitVec.ofInt 64 r).toNat : Int) = r % 2 ^ 64
    rw [BitVec.toNat_ofInt]
    omega
  | false =>
    show ((loWord (BitVec.ofInt 64 r)).toNat : Int) = r % 2 ^ 32
    rw [loWord_ofInt, BitVec.toNat_ofInt]
    omega

/-- An integer of the range of its signedness is read back as it is (R123). -/
theorem extInt_ofInt_of_bounds {w uns : Bool} {r : Int} (hlo : loBound w uns ≤ r) (hhi : r ≤ hiBound w uns) : extInt w uns (BitVec.ofInt 64 r) = r := by
  cases uns with
  | true =>
    rw [extInt_ofInt_uns]
    exact Int.emod_eq_of_lt hlo (Int.lt_of_le_sub_one hhi)
  | false =>
    cases w with
    | true => exact BitVec.toInt_ofInt_eq_self (by decide) hlo (Int.lt_of_le_sub_one hhi)
    | false =>
      show (loWord (BitVec.ofInt 64 r)).toInt = r
      rw [loWord_ofInt]
      exact BitVec.toInt_ofInt_eq_self (by decide) hlo (Int.lt_of_le_sub_one hhi)

theorem clampInt_eq {lo hi : Int} (h : lo ≤ hi) (r : Int) : clampInt lo hi r = max lo (min hi r) := by
  unfold clampInt
  omega

theorem loBound_le_hiBound (w uns : Bool) : loBound w uns ≤ hiBound w uns := by cases w <;> cases uns <;> decide

/-- What the model narrows an exact integer to holds it as R132 says. -/
theorem narrow_holds (w uns sat : Bool) (r : Int) : HoldsInt w uns sat r (narrow w uns sat r) := by
  cases sat with
  | true =>
    show extInt w uns (BitVec.ofInt 64 (clampInt (loBound w uns) (hiBound w uns) r)) = max (loBound w uns) (min (hiBound w uns) r)
    have hle := loBound_le_hiBound w uns
    rw [clampInt_eq hle]
    exact extInt_ofInt_of_bounds (le_max_left ..) (max_le hle (min_le_left ..))
  | false => exact extInt_ofInt_uns w r

/-- The floor of a quotient by 2^w (R132). -/
theorem shiftRight_widthOf (w : Bool) (x : Int) : x >>> widthOf w = x / (if w then 2 ^ 64 else 2 ^ 32) := by
  cases w <;> exact Int.shiftRight_eq_div_pow ..

/-- A word whose body narrows `r` writes `r` exactly. -/
theorem writesExact {i : Instr} {w uns sat : Bool} {d : Dst} (f r : Env → Thread → Int)
    (hx : ∀ s, exec i s = issue i s (writeBody (guardOfInstr i) w d (fun e u => narrow w uns sat (f e u)))) (hf : ∀ e u, f e u = r e u) :
    Writes i w d (fun e u v => HoldsInt w uns sat (r e u) v) :=
  writes_of_writeBody _ hx (fun e u => hf e u ▸ narrow_holds ..)

/-- Settles O3: each row of R132 and R134 narrows its exact integer. -/
theorem integerWordsWriteExactResults : Obligations.IntegerWordsWriteExactResults := by
  intro i op w uns sat d r h
  cases i with
  | iadd | isub | imul | imad | imadw =>
    cases h
    exact ⟨rfl, writesExact _ _ (fun _ => rfl) (fun _ _ => rfl)⟩
  | ineg =>
    cases h
    exact ⟨rfl, writesExact _ _ (fun _ => rfl) (fun _ _ => (Int.zero_sub _).symm)⟩
  | imulh =>
    cases h
    exact ⟨rfl, writesExact _ _ (fun _ => rfl) (fun _ _ => shiftRight_widthOf ..)⟩
  | imin =>
    cases h
    exact ⟨rfl, writesExact _ _ (fun _ => rfl) (fun _ _ => min_def ..)⟩
  | imax =>
    cases h
    exact ⟨rfl, writesExact _ _ (fun _ => rfl) (fun _ _ => max_def ..)⟩
  | iabs | idiff =>
    cases h
    exact ⟨rfl, writesExact _ _ (fun _ => rfl) (fun _ _ => Int.natCast_natAbs _)⟩
  | _ => cases h

end Sys2Proof.Machine
end

section
/-! O4. A sum or difference extended by a predicate (R133). -/

namespace Sys2Proof.Machine

variable {s t : State} {e : Env}

/-- A predicate that a word does not write stays as it is said to be. -/
theorem State.Keeps.predIs {regs preds : List Nat} {flags : Bool} {ws : List TRef} (h : s.Keeps e regs preds flags ws t) {r : TRef} {k : Nat} {b : Bool}
    (hk : k ∉ preds) (hb : PredIs s r k b) : PredIs t r k b := by
  intro u hu hr
  obtain ⟨x, hx, hxu⟩ := forall₂_mem_right h.threads u hu
  rw [hxu.preds k hk]
  exact hb x hx (hxu.ref_eq ▸ hr)

/-- After a predicate and then a result are written, every thread for which the word acts has both. -/
theorem writePred_writeW_results {p0 : Pool} (hp : pool s e.pool.id = some p0) (g : Guard) (k : Fin 64) (q : Thread → Bool) (w : Bool) (d : Dst)
    (val : Thread → DWord) : Results (writeW (writePred s k (forEach (e.active g) q)) e w d (forEach (e.active g) val)) e g w d val ∧
      ∀ u ∈ e.actors g, PredIs (writeW (writePred s k (forEach (e.active g) q)) e w d (forEach (e.active g) val)) u.ref k (q u) := by
  have hkeeps : (writePred s k (forEach (e.active g) q)).Keeps e (dstRange d (if w then 2 else 1)) [] false (e.acting g) _ :=
    writeW_keeps (vals := forEach (e.active g) val) (fun _ _ => mem_dstRange_width) (fun _ hv => mem_acting hv)
  exact ⟨writeW_results (s := writePred s k _) hp g w d val, fun u hu => hkeeps.predIs List.not_mem_nil (writePred_results g k q u hu)⟩

/-- A sum or difference with carry writes its result and its predicate, both from what the threads held before (R133). -/
theorem carryBody_results {i : Instr} (h : Issues s e i) (g : Guard) (w : Bool) (d : Dst) (a b : Src) (pi po : Fin 64)
    (f : Bool → DWord → DWord → Bool → Int × Bool) :
    let r (u : Thread) := f w (e.srcW 0 w true u a) (e.srcW 0 w true u b) (u.preds.getLsbD pi)
    ∃ t, issue i s (carryBody g w d a b pi po f) = .next t ∧ Results t e g w d (fun u => BitVec.ofInt 64 (r u).1) ∧
      ∀ u ∈ e.actors g, PredIs t u.ref po (r u).2 := by
  refine ⟨_, issue_plain h g _, ?_⟩
  split
  · next ha => exact ⟨fun _ _ _ u hu => absurd hu (not_mem_actors ha), fun u hu => absurd hu (not_mem_actors ha)⟩
  · exact writePred_writeW_results (pool_finish h) g po _ w d _

/-- An operation under an immediate has it in bits [31:0] of its word. -/
theorem encode_mod {i : Instr} {f : Fields} {word : Nat} (hf : fieldsOf i = some f) (h : encode i = some word) : word % 4294967296 = f.imm := by
  obtain ⟨f', hf', rfl⟩ := encode_iff.1 h
  obtain rfl := Option.some.inj (hf.symm.trans hf')
  have himm : f.imm < 4294967296 := (fieldsOf_fits hf).imm
  unfold pack
  rw [show (2 : Nat) ^ 32 = 4294967296 by norm_num, Nat.add_mul_mod_self_left, Nat.mod_eq_of_lt himm]

/-- The places of pI and pO in the word (R133). -/
theorem carryFields {word : Nat} {pi po : Fin 64} (h : word % 4294967296 = pi + 256 * po) :
    word % 2 ^ 6 = pi ∧ word / 2 ^ 6 % 4 = 0 ∧ word / 2 ^ 8 % 2 ^ 6 = po ∧ word / 2 ^ 14 % 2 ^ 18 = 0 := by
  have hpi := pi.isLt
  have hpo := po.isLt
  norm_num
  omega

/-- Settles O4: the word issues, its sources stand as they were, and the predicate is not among the registers that it writes. -/
theorem carryWordsExtend : Obligations.CarryWordsExtend := by
  intro g w d a b pi po s e
  refine ⟨fun h => ?_, fun h => ?_, fun word sub h => ?_⟩
  · obtain ⟨t, ht, hr, hp⟩ := carryBody_results h g w d a b pi po addCarry
    exact ⟨t, _, ht, hr, fun u hu => ⟨extInt_ofInt_uns w _, hp u hu⟩⟩
  · obtain ⟨t, ht, hr, hp⟩ := carryBody_results h g w d a b pi po subBorrow
    exact ⟨t, _, ht, hr, fun u hu => ⟨extInt_ofInt_uns w _, hp u hu⟩⟩
  · cases sub with
    | false => exact carryFields (encode_mod (i := .iaddc g w d a b pi po) rfl h)
    | true => exact carryFields (encode_mod (i := .isubb g w d a b pi po) rfl h)

end Sys2Proof.Machine
end

section
/-! O5. Logical words, shifts, counts and bit fields, bit by bit (R136 to R139). -/

namespace Sys2Proof.Machine

variable {w : Bool} {x y : DWord} {i n : Nat}

theorem widthOf_le (w : Bool) : widthOf w ≤ 64 := by cases w <;> decide

theorem loWord_ofNat (n : Nat) : loWord (BitVec.ofNat 64 n) = BitVec.ofNat 32 n := by
  apply BitVec.eq_of_toNat_eq
  rw [toNat_loWord_ofNat, BitVec.toNat_ofNat]

/-- A bit of a union over numbers: some number that counts has it. -/
theorem getLsbD_foldl_or (m : Nat → Bool) (f : Nat → DWord) (i : Nat) : ∀ (l : List Nat) (r : DWord),
    (l.foldl (fun r k => if m k then r ||| f k else r) r).getLsbD i = (r.getLsbD i || l.any (fun k => m k && (f k).getLsbD i))
  | [], r => by simp
  | k :: l, r => by
    rw [List.foldl_cons, getLsbD_foldl_or m f i l, List.any_cons]
    cases m k <;> simp [Bool.or_assoc]

/-- A bit of three-input logic is the bit of the mask that its inputs name (R136). -/
theorem getLsbD_tlogic (mask : BitVec 8) (x y z : DWord) (hi : i < 64) :
    (tlogic mask x y z).getLsbD i = mask.getLsbD ((x.getLsbD i).toNat + 2 * (y.getLsbD i).toNat + 4 * (z.getLsbD i).toNat) := by
  have hin (v : DWord) (b : Bool) : (if b then v else ~~~v).getLsbD i = (v.getLsbD i == b) := by
    cases b <;> simp only [Bool.false_eq_true, if_false, if_true, BitVec.getLsbD_not, decide_eq_true hi, Bool.true_and] <;>
      cases v.getLsbD i <;> rfl
  unfold tlogic
  rw [getLsbD_foldl_or]
  simp only [BitVec.getLsbD_and, hin]
  cases x.getLsbD i <;> cases y.getLsbD i <;> cases z.getLsbD i <;> simp [List.range_succ, Nat.testBit_eq_decide_div_mod_eq]

/-! Shifts (R137). -/

theorem getLsbD_shl (hi : i < widthOf w) :
    (if widthOf w ≤ n then (0 : DWord) else x <<< n).getLsbD i = (decide (n ≤ i) && x.getLsbD (i - n)) := by
  have h64 := widthOf_le w
  by_cases hn : n ≤ i
  · rw [if_neg (by omega)]
    rw [BitVec.getLsbD_shiftLeft, decide_eq_true (by omega : i < 64), decide_eq_false (Nat.not_lt.2 hn), decide_eq_true hn]
    rfl
  · split <;> simp [hn, Nat.lt_of_not_le hn]

theorem testBit_zextW (w : Bool) (x : DWord) (i : Nat) : (zextW w x).testBit i = (decide (i < widthOf w) && x.getLsbD i) := by
  cases w with
  | true =>
    show x.toNat.testBit i = (decide (i < 64) && x.getLsbD i)
    rw [BitVec.testBit_toNat]
    by_cases hi : i < 64
    · simp [hi]
    · simp [hi, BitVec.getLsbD_of_ge x i (Nat.le_of_not_lt hi)]
  | false => exact (BitVec.testBit_toNat _).trans (getLsbD_loWord x i)

theorem getLsbD_shr (hi : i < widthOf w) :
    (if widthOf w ≤ n then (0 : DWord) else BitVec.ofNat 64 (zextW w x >>> n)).getLsbD i = (decide (i + n < widthOf w) && x.getLsbD (i + n)) := by
  have h64 := widthOf_le w
  split
  · next hn => simp [show ¬(i + n < widthOf w) by omega]
  · rw [BitVec.getLsbD_ofNat, Nat.testBit_shiftRight, testBit_zextW, decide_eq_true (by omega : i < 64), Bool.true_and, Nat.add_comm]

/-- A w-bit value with its sign in all bits above (R137). -/
theorem getLsbD_signed (w : Bool) (x : DWord) (hi : i < 64) :
    (if w then x else (loWord x).signExtend 64).getLsbD i = x.getLsbD (min i (widthOf w - 1)) := by
  cases w with
  | true => rw [if_pos rfl, show min i (widthOf true - 1) = i from Nat.min_eq_left (by show i ≤ 63; omega)]
  | false =>
    rw [if_neg Bool.false_ne_true, BitVec.getLsbD_signExtend, decide_eq_true hi, Bool.true_and]
    by_cases h : i < 32
    · rw [if_pos h, getLsbD_loWord, decide_eq_true h, Bool.true_and, show min i (widthOf false - 1) = i from Nat.min_eq_left (by show i ≤ 31; omega)]
    · rw [if_neg h, BitVec.msb_eq_getLsbD_last, getLsbD_loWord, show min i (widthOf false - 1) = 31 from Nat.min_eq_right (by show 31 ≤ i; omega)]
      simp

theorem getLsbD_sar (hi : i < widthOf w) :
    ((if w then x else (loWord x).signExtend 64).sshiftRight (min n 63)).getLsbD i = x.getLsbD (min (i + n) (widthOf w - 1)) := by
  have h64 := widthOf_le w
  have hmin : widthOf w - 1 ≤ 63 := by omega
  rw [BitVec.getLsbD_sshiftRight, BitVec.msb_eq_getLsbD_last, getLsbD_signed w x (by decide : 64 - 1 < 64)]
  simp only [show ¬64 ≤ i by omega, decide_false, Bool.not_false, Bool.true_and]
  split
  · next h => rw [getLsbD_signed w x h]; congr 1; omega
  · congr 1; omega

theorem getLsbD_rotateLeft_mod {k m : Nat} (v : BitVec m) (hi : i < m) : (v.rotateLeft (k % m)).getLsbD i = v.getLsbD ((i + m - k % m) % m) := by
  have hk : k % m < m := Nat.mod_lt _ (by omega)
  rw [BitVec.getLsbD_rotateLeft, Nat.mod_mod]
  by_cases h : i < k % m
  · simp only [h, decide_true, cond_true]
    rw [Nat.mod_eq_of_lt (show i + m - k % m < m by omega), show m - k % m + i = i + m - k % m by omega]
  · simp only [h, decide_false, cond_false, hi, decide_true, Bool.true_and]
    rw [show i + m - k % m = i - k % m + m by omega, Nat.add_mod_right, Nat.mod_eq_of_lt (show i - k % m < m by omega)]

theorem getLsbD_rotW (hi : i < widthOf w) : (rotW w x n).getLsbD i = x.getLsbD ((i + widthOf w - n % widthOf w) % widthOf w) := by
  cases w with
  | true => exact getLsbD_rotateLeft_mod x hi
  | false =>
    have hi : i < 32 := hi
    have hlt : (i + 32 - n % 32) % 32 < 32 := Nat.mod_lt _ (by decide)
    show (((loWord x).rotateLeft (n % 32)).setWidth 64).getLsbD i = x.getLsbD ((i + 32 - n % 32) % 32)
    rw [BitVec.getLsbD_setWidth, decide_eq_true (by omega : i < 64), Bool.true_and, getLsbD_rotateLeft_mod _ hi, getLsbD_loWord, decide_eq_true hlt,
      Bool.true_and]

theorem getLsbD_fshl (hi : i < 32) : ((hiWord (x <<< (n % 32))).setWidth 64).getLsbD i = x.getLsbD (32 + i - n % 32) := by
  have hn : n % 32 < 32 := Nat.mod_lt _ (by decide)
  simp only [hiWord, BitVec.getLsbD_setWidth, BitVec.getLsbD_extractLsb', BitVec.getLsbD_shiftLeft, hi, decide_true, Bool.true_and]
  simp [show i < 64 by omega, show 32 + i < 64 by omega, show ¬32 + i < n % 32 by omega]

/-! Counts and reversal (R138). -/

theorem popCount_eq (x : DWord) : ∀ n, popCount x n = (onesBelow x n).length
  | 0 => rfl
  | n + 1 => by
    rw [popCount, popCount_eq x n, onesBelow, onesBelow, List.range_succ, List.filter_append, List.length_append, Nat.add_comm]
    cases h : x.getLsbD n <;> simp [h]

theorem leadZeros_spec (x : DWord) : ∀ n, leadZeros x n ≤ n ∧ (∀ i < leadZeros x n, x.getLsbD (n - 1 - i) = false) ∧
    (leadZeros x n < n → x.getLsbD (n - 1 - leadZeros x n) = true)
  | 0 => ⟨Nat.le_refl 0, nofun, nofun⟩
  | n + 1 => by
    obtain ⟨hle, hzero, hone⟩ := leadZeros_spec x n
    unfold leadZeros
    split
    · next h => exact ⟨Nat.zero_le _, nofun, fun _ => h⟩
    · next h =>
      refine ⟨by omega, fun i hi => ?_, fun hlt => ?_⟩
      · cases i with
        | zero => exact Bool.eq_false_iff.2 h
        | succ j => rw [show n + 1 - 1 - (j + 1) = n - 1 - j by omega]; exact hzero j (by omega)
      · rw [show n + 1 - 1 - (1 + leadZeros x n) = n - 1 - leadZeros x n by omega]
        exact hone (by omega)

theorem trailZeros_spec (x : DWord) : ∀ n k, trailZeros x n k ≤ n ∧ (∀ i < trailZeros x n k, x.getLsbD (k + i) = false) ∧
    (trailZeros x n k < n → x.getLsbD (k + trailZeros x n k) = true)
  | 0, _ => ⟨Nat.le_refl 0, nofun, nofun⟩
  | n + 1, k => by
    obtain ⟨hle, hzero, hone⟩ := trailZeros_spec x n (k + 1)
    unfold trailZeros
    split
    · next h => exact ⟨Nat.zero_le _, nofun, fun _ => h⟩
    · next h =>
      refine ⟨by omega, fun i hi => ?_, fun hlt => ?_⟩
      · cases i with
        | zero => exact Bool.eq_false_iff.2 h
        | succ j => rw [show k + (j + 1) = k + 1 + j by omega]; exact hzero j (by omega)
      · rw [← Nat.add_assoc]
        exact hone (by omega)

theorem getLsbD_revBits (hn : n ≤ 64) (hi : i < n) : (revBits x n).getLsbD i = x.getLsbD (n - 1 - i) := by
  unfold revBits
  rw [getLsbD_foldl_or, show BitVec.getLsbD (0 : DWord) i = false from BitVec.getLsbD_zero, Bool.false_or, Bool.eq_iff_iff, List.any_eq_true]
  simp only [List.mem_range, BitVec.getLsbD_twoPow, Bool.and_eq_true, decide_eq_true_eq]
  constructor
  · rintro ⟨k, hk, hx, -, heq⟩
    rwa [show n - 1 - i = k by omega]
  · exact fun hx => ⟨n - 1 - i, by omega, hx, by omega, by omega⟩

/-! Bit fields (R139). -/

/-- The field as the model finds it. -/
theorem fieldAt_eq (w : Bool) (ctl : Word) : fieldAt w ctl =
    if widthOf w ≤ bits ctl.toNat 0 8 then (0, 0) else (bits ctl.toNat 0 8, min (bits ctl.toNat 8 8) (widthOf w - bits ctl.toNat 0 8)) := by
  unfold fieldAt
  simp only [bits_eq, Nat.pow_zero, Nat.div_one]
  rfl

/-- A number of `m` bits extended by its sign or by zeros. -/
theorem getLsbD_extend {f m : Nat} (hf : f < 2 ^ m) (uns : Bool) (hi : i < 64) :
    (if (!uns && f.testBit (m - 1)) = true then BitVec.ofInt 64 ((f : Int) - 2 ^ m) else BitVec.ofNat 64 f).getLsbD i =
      if i < m then f.testBit i else !uns && f.testBit (m - 1) := by
  cases uns with
  | true =>
    rw [if_neg (by simp), BitVec.getLsbD_ofNat, decide_eq_true hi, Bool.true_and]
    split
    · rfl
    · next h => exact Nat.testBit_lt_two_pow (hf.trans_le (Nat.pow_le_pow_right (by decide) (Nat.le_of_not_lt h)))
  | false =>
    have hmsb : (BitVec.ofNat m f).msb = f.testBit (m - 1) := by
      rw [BitVec.msb_eq_getLsbD_last, BitVec.getLsbD_ofNat]
      cases m with
      | zero => rw [Nat.lt_one_iff.1 hf]; simp
      | succ k => simp
    have hint : (if (!false && f.testBit (m - 1)) = true then BitVec.ofInt 64 ((f : Int) - 2 ^ m) else BitVec.ofNat 64 f) =
        (BitVec.ofNat m f).signExtend 64 := by
      rw [BitVec.signExtend, BitVec.toInt_eq_msb_cond, hmsb, BitVec.toNat_ofNat, Nat.mod_eq_of_lt hf, Bool.not_false, Bool.true_and]
      split
      · norm_num
      · rw [BitVec.ofInt_natCast]
    rw [hint, BitVec.getLsbD_signExtend, hmsb, BitVec.getLsbD_ofNat, decide_eq_true hi, Bool.true_and]
    split
    · next h => rw [decide_eq_true h, Bool.true_and]
    · rfl

theorem testBit_bits (x : DWord) (lo n i : Nat) : (bits x.toNat lo n).testBit i = (decide (i < n) && x.getLsbD (lo + i)) := by
  rw [bits, Nat.testBit_mod_two_pow, Nat.testBit_shiftRight, BitVec.testBit_toNat]

/-- What BFX writes at a bit, for a field at `pos` of `n` bits of which some lie in the operand. -/
theorem getLsbD_fieldOf (w uns : Bool) (x : DWord) (ctl : Word) (hi : i < 64) :
    (fieldOf w uns x ctl).getLsbD i = if (fieldAt w ctl).2 = 0 then false
      else if i < (fieldAt w ctl).2 then x.getLsbD ((fieldAt w ctl).1 + i) else !uns && x.getLsbD ((fieldAt w ctl).1 + (fieldAt w ctl).2 - 1) := by
  rw [fieldAt_eq]
  unfold fieldOf
  generalize bits ctl.toNat 0 8 = pos
  generalize bits ctl.toNat 8 8 = len
  dsimp only
  by_cases hpos : widthOf w ≤ pos
  · rw [if_pos (.inl hpos), if_pos hpos]
    simp
  rw [if_neg hpos]
  by_cases hlen : len = 0
  · simp [hlen]
  rw [if_neg (show ¬(widthOf w ≤ pos ∨ len = 0) by omega)]
  dsimp only
  generalize hn : min len (widthOf w - pos) = n
  have hn0 : 0 < n := by omega
  rw [getLsbD_extend (bits_lt ..) uns hi, if_neg hn0.ne', testBit_bits, testBit_bits, decide_eq_true (by omega : n - 1 < n), Bool.true_and,
    show pos + (n - 1) = pos + n - 1 by omega]
  split
  · next h => rw [decide_eq_true h, Bool.true_and]
  · rfl

theorem getLsbD_fieldMask (pos n : Nat) (hi : i < 64) : (BitVec.ofNat 64 ((2 ^ n - 1) * 2 ^ pos)).getLsbD i = decide (pos ≤ i ∧ i < pos + n) := by
  rw [BitVec.getLsbD_ofNat, decide_eq_true hi, Bool.true_and, Nat.testBit_mul_two_pow, Nat.testBit_two_pow_sub_one, ← Bool.decide_and]
  exact decide_eq_decide.2 (by omega)

/-- What BFI writes at a bit. -/
theorem getLsbD_fieldInto (w : Bool) (x c : DWord) (ctl : Word) (hi : i < 64) :
    (fieldInto w x ctl c).getLsbD i = if decide ((fieldAt w ctl).1 ≤ i ∧ i < (fieldAt w ctl).1 + (fieldAt w ctl).2) = true
      then x.getLsbD (i - (fieldAt w ctl).1) else c.getLsbD i := by
  rw [fieldAt_eq]
  unfold fieldInto
  generalize bits ctl.toNat 0 8 = pos
  generalize bits ctl.toNat 8 8 = len
  dsimp only
  by_cases hpos : widthOf w ≤ pos
  · rw [if_pos (.inl hpos), if_pos hpos]
    simp
  rw [if_neg hpos]
  by_cases hlen : len = 0
  · simp [hlen]
  rw [if_neg (by omega)]
  dsimp only
  generalize min len (widthOf w - pos) = n
  rw [BitVec.getLsbD_or, BitVec.getLsbD_and, BitVec.getLsbD_and, BitVec.getLsbD_not, getLsbD_fieldMask pos n hi, BitVec.getLsbD_shiftLeft,
    decide_eq_true hi]
  by_cases h : pos ≤ i ∧ i < pos + n
  · simp [h, Nat.not_lt.2 h.1]
  · simp [h]

/-- A word whose body writes `f` writes it bit by bit. -/
theorem writesBits {i : Instr} {w : Bool} {d : Dst} {r : Env → Thread → Nat → Bool} (f : Env → Thread → DWord)
    (hx : ∀ s, exec i s = issue i s (writeBody (guardOfInstr i) w d f)) (hp : ∀ e u, ∀ k < widthOf w, (f e u).getLsbD k = r e u k) :
    Writes i w d (fun e u v => ∀ k < widthOf w, v.getLsbD k = r e u k) := writes_of_writeBody f hx hp

/-- The logical words (R136). -/
theorem logicRow_writes {i : Instr} {op : Nat} {w : Bool} {d : Dst} {r : Env → Thread → Nat → Bool} (h : logicRow i = some (op, w, d, r)) :
    opcodeOf i = op ∧ Writes i w d (fun e u v => ∀ k < widthOf w, v.getLsbD k = r e u k) := by
  have h64 := widthOf_le
  cases i with
  | and =>
    cases h
    exact ⟨rfl, writesBits _ (fun _ => rfl) (fun _ _ _ _ => BitVec.getLsbD_and)⟩
  | or =>
    cases h
    exact ⟨rfl, writesBits _ (fun _ => rfl) (fun _ _ _ _ => BitVec.getLsbD_or)⟩
  | xor =>
    cases h
    exact ⟨rfl, writesBits _ (fun _ => rfl) (fun _ _ _ _ => BitVec.getLsbD_xor)⟩
  | not _ w =>
    cases h
    refine ⟨rfl, writesBits _ (fun _ => rfl) (fun _ _ k hk => ?_)⟩
    rw [BitVec.getLsbD_not, decide_eq_true (hk.trans_le (h64 w))]
    rfl
  | tlog _ w =>
    cases h
    exact ⟨rfl, writesBits _ (fun _ => rfl) (fun _ _ _ hk => getLsbD_tlogic _ _ _ _ (hk.trans_le (h64 w)))⟩
  | _ => cases h

/-- The shifts (R137). -/
theorem shiftRow_writes {i : Instr} {op : Nat} {w : Bool} {d : Dst} {r : Env → Thread → Nat → Bool} (h : shiftRow i = some (op, w, d, r)) :
    opcodeOf i = op ∧ Writes i w d (fun e u v => ∀ k < widthOf w, v.getLsbD k = r e u k) := by
  cases i with
  | shl =>
    cases h
    exact ⟨rfl, writesBits _ (fun _ => rfl) (fun _ _ _ => getLsbD_shl)⟩
  | shr =>
    cases h
    exact ⟨rfl, writesBits _ (fun _ => rfl) (fun _ _ _ => getLsbD_shr)⟩
  | sar =>
    cases h
    exact ⟨rfl, writesBits _ (fun _ => rfl) (fun _ _ _ => getLsbD_sar)⟩
  | rot =>
    cases h
    exact ⟨rfl, writesBits _ (fun _ => rfl) (fun _ _ _ => getLsbD_rotW)⟩
  | fshl =>
    cases h
    exact ⟨rfl, writesBits _ (fun _ => rfl) (fun _ _ _ => getLsbD_fshl)⟩
  | fshr =>
    cases h
    refine ⟨rfl, writesBits _ (fun _ => rfl) (fun _ _ k _ => ?_)⟩
    rw [BitVec.getLsbD_ushiftRight, Nat.add_comm]
  | _ => cases h

/-- The counts (R138). -/
theorem countRow_writes {i : Instr} {op : Nat} {d : Dst} {r : Env → Thread → Nat → Prop} (h : countRow i = some (op, d, r)) :
    opcodeOf i = op ∧ Writes i false d (fun e u v => ∃ n, r e u n ∧ loWord v = BitVec.ofNat 32 n) := by
  cases i with
  | popc _ w =>
    cases h
    exact ⟨rfl, writes_of_writeBody _ (fun _ => rfl) (fun _ _ => ⟨_, popCount_eq _ (widthOf w), loWord_ofNat _⟩)⟩
  | clz _ w =>
    cases h
    exact ⟨rfl, writes_of_writeBody _ (fun _ => rfl) (fun _ _ => ⟨_, leadZeros_spec _ (widthOf w), loWord_ofNat _⟩)⟩
  | ctz _ w =>
    cases h
    refine ⟨rfl, writes_of_writeBody _ (fun _ => rfl) (fun e u => ⟨_, ?_, loWord_ofNat _⟩)⟩
    have hspec := fun x => trailZeros_spec x (widthOf w) 0
    simp only [Nat.zero_add] at hspec
    exact hspec _
  | _ => cases h

/-- The bit fields (R138, R139). -/
theorem fieldRow_writes {i : Instr} {op : Nat} {w : Bool} {d : Dst} {r : Env → Thread → Nat → Bool} (h : fieldRow i = some (op, w, d, r)) :
    opcodeOf i = op ∧ Writes i w d (fun e u v => ∀ k < widthOf w, v.getLsbD k = r e u k) := by
  have h64 := widthOf_le
  cases i with
  | brev _ w =>
    cases h
    exact ⟨rfl, writesBits _ (fun _ => rfl) (fun _ _ _ => getLsbD_revBits (h64 w))⟩
  | bfx _ w =>
    cases h
    exact ⟨rfl, writesBits _ (fun _ => rfl) (fun _ _ _ hk => getLsbD_fieldOf _ _ _ _ (hk.trans_le (h64 w)))⟩
  | bfi _ w =>
    cases h
    exact ⟨rfl, writesBits _ (fun _ => rfl) (fun _ _ _ hk => getLsbD_fieldInto _ _ _ _ (hk.trans_le (h64 w)))⟩
  | _ => cases h

/-- Settles O5: row by row, each bit of what the bodies write. -/
theorem bitsCountsAndFields : Obligations.BitsCountsAndFields :=
  ⟨fun _ _ _ _ _ h => h.elim logicRow_writes shiftRow_writes, fun _ _ _ _ => countRow_writes, fun _ _ _ _ _ => fieldRow_writes⟩

end Sys2Proof.Machine
end

section
/-! O6. Predicate words, PSET and PGET (R142, R143). -/

namespace Sys2Proof.Machine

variable {s : State} {e : Env}

theorem getLsbD_predMask (n : Nat) {k : Nat} (hk : k < 64) : (predMask n).getLsbD k = decide (k < n) := by
  rw [predMask, BitVec.getLsbD_ofNat, decide_eq_true hk, Bool.true_and, Nat.testBit_two_pow_sub_one]

/-- Where half `hi` holds its predicate `k` (R143). -/
theorem getLsbD_half (hi : Bool) (x : Word) {k : Nat} (hk : k < 32) :
    (if hi then x.setWidth 64 <<< 32 else x.setWidth 64 : BitVec 64).getLsbD (k + if hi then 32 else 0) = x.getLsbD k := by
  cases hi with
  | true => simp [show k + 32 < 64 by omega]
  | false => simp [show k < 64 by omega]

/-- A predicate of the half that PSET names (R143). -/
theorem getLsbD_psetPreds (hi : Bool) (n : Nat) (v m : Word) (p : BitVec 64) {k : Nat} (hk : k < 32) :
    (psetPreds hi n v m p).getLsbD (k + if hi then 32 else 0) =
      if (decide (k + (if hi then 32 else 0) < n) && m.getLsbD k) = true then v.getLsbD k else p.getLsbD (k + if hi then 32 else 0) := by
  have h64 : k + (if hi then 32 else 0) < 64 := by cases hi <;> simp <;> omega
  unfold psetPreds
  simp only [BitVec.getLsbD_or, BitVec.getLsbD_and, BitVec.getLsbD_not, getLsbD_half hi _ hk, getLsbD_predMask n h64, decide_eq_true h64, Bool.true_and,
    Bool.and_comm (m.getLsbD k)]
  cases decide (k + (if hi then 32 else 0) < n) && m.getLsbD k <;> simp

/-- After PSET each thread for which it acts holds what `f` gives it. -/
theorem setPreds_results (g : Guard) (f : Thread → BitVec 64) {u : Thread} (hu : u ∈ e.actors g) (k : Nat) :
    PredIs (updThreads s (fun t => (valOf (forEach (e.active g) f) t.ref).isSome)
      (fun t => { t with preds := (valOf (forEach (e.active g) f) t.ref).getD t.preds })) u.ref k ((f u).getLsbD k) := by
  intro x hx hr
  obtain ⟨y, -, rfl⟩ := List.mem_map.1 hx
  have hy : y.ref = u.ref := by
    rw [← hr]
    dsimp only
    split <;> rfl
  simp only [hy, valOf_forEach hu, Option.isSome_some, if_true, Option.getD_some]

/-- The predicate words (R142). -/
theorem predRow_sets {i : Instr} {op d : Nat} {r : Thread → Prop} (h : predRow i = some (op, d, r)) :
    opcodeOf i = op ∧ Sets i d (fun _ u => r u) := by
  cases i with
  | pand _ _ a b =>
    cases h
    refine ⟨rfl, sets_of_predBody _ (fun _ => rfl) (fun _ u => ?_)⟩
    rw [Bool.and_eq_true, predRead_iff, predRead_iff]
  | por _ _ a b =>
    cases h
    refine ⟨rfl, sets_of_predBody _ (fun _ => rfl) (fun _ u => ?_)⟩
    rw [Bool.or_eq_true, predRead_iff, predRead_iff]
  | pxor _ _ a b =>
    cases h
    refine ⟨rfl, sets_of_predBody _ (fun _ => rfl) (fun _ u => ?_)⟩
    show _ ↔ ¬(holdsIn a u ↔ holdsIn b u)
    rw [← predRead_iff, ← predRead_iff, bne_iff_ne, ne_eq, Bool.eq_iff_iff]
  | pnot _ _ a =>
    cases h
    refine ⟨rfl, sets_of_predBody _ (fun _ => rfl) (fun _ u => ?_)⟩
    show _ ↔ ¬holdsIn a u
    rw [← predRead_iff, Bool.not_eq_true', Bool.not_eq_true]
  | pmov _ _ a =>
    cases h
    exact ⟨rfl, sets_of_predBody _ (fun _ => rfl) (fun _ _ => predRead_iff ..)⟩
  | _ => cases h

/-- PSET (R143). -/
theorem pset_sets (g : Guard) (hi : Bool) (a b : Src) (imm : Word) (h : Issues s e (.pset g hi a b imm)) :
    ∃ t, exec (.pset g hi a b imm) s = .next t ∧ ∀ u ∈ e.actors g, ∀ k < 32, PredIs t u.ref (k + if hi then 32 else 0)
      (if decide (k + (if hi then 32 else 0) < e.launch.kernel.preds) && (e.src imm u b).getLsbD k then (e.src imm u a).getLsbD k
       else u.preds.getLsbD (k + if hi then 32 else 0)) := by
  refine ⟨_, issue_plain h g _, ?_⟩
  split
  · next ha => exact fun u hu => absurd hu (not_mem_actors ha)
  · intro u hu k hk
    rw [← getLsbD_psetPreds hi _ _ _ _ hk]
    exact setPreds_results g _ hu _

/-- The half that PGET reads, its predicates at or above `.preds` as 0 (R143). -/
theorem getLsbD_pget (hi : Bool) (p : BitVec 64) (n : Nat) {k : Nat} (hk : k < 32) :
    (if hi then (p &&& predMask n) >>> 32 else p &&& predMask n).getLsbD k =
      (decide (k + (if hi then 32 else 0) < n) && p.getLsbD (k + if hi then 32 else 0)) := by
  cases hi with
  | true =>
    rw [if_pos rfl, if_pos rfl, BitVec.getLsbD_ushiftRight, BitVec.getLsbD_and, Nat.add_comm, getLsbD_predMask n (by omega), Bool.and_comm]
  | false =>
    rw [if_neg Bool.false_ne_true, if_neg Bool.false_ne_true, BitVec.getLsbD_and, Nat.add_zero, getLsbD_predMask n (by omega), Bool.and_comm]

/-- Settles O6: the bodies write predicates, or read them, bit by bit. -/
theorem predicateWords : Obligations.PredicateWords :=
  ⟨fun _ _ _ _ => predRow_sets, fun g hi a b imm _ _ => pset_sets g hi a b imm,
    fun _ hi _ => writes_of_writeBody _ (fun _ => rfl) (fun _ _ _ hk => getLsbD_pget hi _ _ hk)⟩

end Sys2Proof.Machine
end

section
/-! O33 and O34 fail in states in which two threads of a fragment share a name: of the addresses that BRX, CALLX and RET name, the model counts those of
every thread whose name an active thread bears, the statements those of the active threads. -/

namespace Sys2Proof.Machine

/-- A thread whose v0 and whose return stack lead `off` bytes into the code, with p0 as given. -/
def crowdThread (tid lane off : Nat) (on : Bool) : Thread := { placedThread with
  tid := tid
  place := .lane 0 0 lane
  springs := [(0, BitVec.ofNat 32 off)]
  stack := [BitVec.ofNat 64 (placedAt + off)]
  preds := if on then 1 else 0 }

/-- Sixteen threads with p0 set that go to sixteen addresses, and behind them one with p0 clear that shares the first one's name and would go to a
seventeenth. -/
def crowdThreads : List Thread := (List.range 16).map (fun k => crowdThread k k (16 * k) true) ++ [crowdThread 0 16 256 false]

/-- A state with these threads in one fragment, about to issue a word. -/
def crowd : State := { placed State.reset [] with
  threads := crowdThreads
  cur := some ⟨⟨0, 0⟩, 7, .single, schedOf 0⟩ }

/-- The surroundings of the word under way in `crowd`. -/
def crowdEnv : Env :=
  ⟨⟨⟨0, 0⟩, 7, .single, schedOf 0⟩, placedFrag, placedPool, placedPond, placedBlock, placedLaunch, placedContext, 0, crowdThreads⟩

/-- The last of the sixteen threads, alone of its name. -/
def crowdLast : Thread := crowdThread 15 15 240 true

theorem crowdLast_mem : crowdLast ∈ crowdEnv.threads := by decide +kernel

theorem crowdLast_sole : Sole crowd crowdLast := by unfold Sole; decide +kernel

/-- The threads with p0 set go to their v0, bytes into the code. -/
def branchOnP0 : Instr := .brx (.on 0) (.reg 0 .res false)

/-- The same as a call. -/
def callOnP0 : Instr := .callx (.on 0) (.reg 0 .res false)

theorem issues_branchOnP0 : Issues crowd crowdEnv branchOnP0 := ⟨by decide +kernel, by decide +kernel, by decide +kernel⟩

theorem issues_callOnP0 : Issues crowd crowdEnv callOnP0 := ⟨by decide +kernel, by decide +kernel, by decide +kernel⟩

/-- A thread of a name stands at an address after a step that leads to a state. -/
def leadsThreadTo (r : TRef) (a : Nat) : Host.Outcome State Fault Refusal → Bool
  | .next t => t.threads.any (fun x => x.ref == r && t.frags.any (fun f => x.inFrag f.ref && f.pc == a))
  | _ => false

theorem leadsThreadTo_of_at {t : State} {r : TRef} {a : Nat} (h : At t r a) : leadsThreadTo r a (.next t) = true := by
  obtain ⟨x, hx, hr, f, hf, hin, hpc⟩ := h
  exact List.any_eq_true.2 ⟨x, hx, by simpa [hr] using ⟨f, hf, hin, hpc⟩⟩

/-- The address to which the last thread goes, as the statements have it: the active threads name sixteen. -/
theorem crowdLast_goes : crowdEnv.goes (.on 0) (fun u => crowdEnv.codeBase + (crowdEnv.src 0 u (.reg 0 .res false)).toNat) crowdLast = 0x100F0 := by
  decide +kernel

/-- The targets of the active threads are valid. -/
theorem crowd_targetOk : ∀ u ∈ crowdEnv.active (.on 0), crowdEnv.targetOk (crowdEnv.codeBase + (crowdEnv.src 0 u (.reg 0 .res false)).toNat) := by
  unfold Env.targetOk
  decide +kernel

theorem crowdLast_stays_branch : leadsThreadTo crowdLast.ref 0x100F0 (exec branchOnP0 crowd) = false := by decide +kernel

theorem crowdLast_stays_call : leadsThreadTo crowdLast.ref 0x100F0 (exec callOnP0 crowd) = false := by decide +kernel

/-- Refutes O33: the statement ranges over states in which two threads share a name. In `crowd` the active threads of a BRX name sixteen addresses, so
that by the statement each goes to its own; but the model's split takes in the target of the inactive thread that shares the first one's name as well,
and leaves the last thread on the word. -/
theorem not_branchesSplit : ¬ Obligations.BranchesSplit := by
  intro ⟨hall, _⟩
  obtain ⟨t, ht, hat, -⟩ := hall crowd crowdEnv branchOnP0 _ (.inr ⟨_, _, rfl⟩) rfl issues_branchOnP0 crowd_targetOk
  have hgoes := leadsThreadTo_of_at (hat crowdLast crowdLast_mem crowdLast_sole)
  rw [← ht] at hgoes
  exact absurd (crowdLast_goes ▸ hgoes) (by rw [crowdLast_stays_branch]; decide)

/-- Refutes O34 in the same state, by a CALLX. -/
theorem not_callsAndReturns : ¬ Obligations.CallsAndReturns := by
  intro ⟨hall, _⟩
  obtain ⟨t, ht, -, -, -, -, -, -, hat, -⟩ := hall crowd crowdEnv callOnP0 _ [] (.inr ⟨_, _, rfl⟩) rfl issues_callOnP0 crowd_targetOk
    (by decide +kernel) (by decide +kernel) (by decide +kernel) (by simp)
  have hgoes := leadsThreadTo_of_at (hat crowdLast crowdLast_mem crowdLast_sole)
  rw [← ht] at hgoes
  exact absurd (crowdLast_goes ▸ hgoes) (by rw [crowdLast_stays_call]; decide)

end Sys2Proof.Machine
end

section
/-! SUPPORT. What the device leaves when it writes a record of its own (R338, R339): the threads and all that holds them. -/

namespace Sys2Proof.Machine

variable {s t u : State}

/-- At most memory, the caches of it, and what is on its way there have changed. -/
structure StorageOnly (s t : State) : Prop where
  rest : t = { s with
    host := t.host
    mem := t.mem
    lineTag := t.lineTag
    hostLines := t.hostLines
    launches := t.launches
    slices := t.slices
    incomplete := t.incomplete }

theorem StorageOnly.refl (s : State) : StorageOnly s s := ⟨rfl⟩

theorem StorageOnly.trans (h : StorageOnly s t) (h' : StorageOnly t u) : StorageOnly s u := ⟨by rw [h'.rest, h.rest]⟩

theorem StorageOnly.foldl {α : Type} {f : State → α → State} (h : ∀ s x, StorageOnly s (f s x)) :
    ∀ (l : List α) (s : State), StorageOnly s (l.foldl f s)
  | [], s => .refl s
  | x :: l, s => (h s x).trans (StorageOnly.foldl h l (f s x))

theorem sweepWord_storage (s : State) (wid : Nat) : StorageOnly s (sweepWord s wid) := by
  unfold sweepWord
  split <;> exact ⟨rfl⟩

theorem putHome_storage (s : State) (c : Nat) (cached : Bool) (a : Nat) (bs : List Byte) : StorageOnly s (putHome s c cached a bs) :=
  ⟨by conv_lhs => rw [putHome_rest]
      rw [putHome_rest]⟩

theorem homeWrite_storage (s : State) (c : Nat) (cached : Bool) (a : Nat) (bs : List Byte) : StorageOnly s (homeWrite s c cached a bs) :=
  StorageOnly.trans ⟨by rw [(logWrite_logged s c cached a).rest]⟩ (putHome_storage ..)

theorem settleLine_storage (s : State) (l : Nat) : StorageOnly s (settleLine s l) := by
  unfold settleLine
  refine .foldl (fun s y => ?_) _ s
  exact StorageOnly.trans (t := { s with slices := s.slices.filter (fun z => z.id != y.id) }) ⟨rfl⟩ ((putHome_storage ..).trans (sweepWord_storage ..))

theorem deviceWrite_storage (s : State) (c : Nat) (cached : Bool) (a : Nat) (bs : List Byte) : StorageOnly s (deviceWrite s c cached a bs) := by
  unfold deviceWrite
  split
  · exact .refl s
  · exact (settleLine_storage ..).trans (homeWrite_storage ..)

theorem areaWrite_storage {c : Ctx} {priv : Bool} {va : Nat} {bs : List Byte} (h : areaWrite s c priv va bs = .ok t) : StorageOnly s t := by
  unfold areaWrite at h
  split at h
  · cases h
  · cases h
    exact .foldl (fun s p => deviceWrite_storage ..) _ s

theorem releaseArea_storage (s : State) (c : Ctx) (priv : Bool) (va n : Nat) : StorageOnly s (releaseArea s c priv va n) := by
  unfold releaseArea
  split
  · exact .refl s
  · refine .foldl (fun s p => ?_) _ s
    split
    · exact ⟨by rw [writeBack_rest]⟩
    · exact .refl s

/-- The threads, and the pools, ponds and fragments that hold them, stand as they were. -/
structure SameThreads (s t : State) : Prop where
  threads : t.threads = s.threads
  pools : t.pools = s.pools
  ponds : t.ponds = s.ponds
  frags : t.frags = s.frags

theorem SameThreads.refl (s : State) : SameThreads s s := ⟨rfl, rfl, rfl, rfl⟩

theorem SameThreads.trans (h : SameThreads s t) (h' : SameThreads t u) : SameThreads s u :=
  ⟨h'.threads.trans h.threads, h'.pools.trans h.pools, h'.ponds.trans h.ponds, h'.frags.trans h.frags⟩

theorem StorageOnly.sameThreads (h : StorageOnly s t) : SameThreads s t := by
  rw [h.rest]
  exact ⟨rfl, rfl, rfl, rfl⟩

/-! The fault queue (R338). -/

/-- The context of an identifier is found after it has been changed in what is not its identifier. -/
theorem ctx_updCtx {c : Nat} {x : Ctx} (f : Ctx → Ctx) (hf : ∀ x, (f x).rcd.id = x.rcd.id) (h : ctx s c = some x) : ctx (updCtx s c f) c = some (f x) := by
  have hx : (x.rcd.id == c) = true := List.find?_some (p := fun x : Ctx => x.rcd.id == c) h
  rw [ctx, updCtx_ctxs, find?_updWhere (fun x => by rw [hf]), show s.ctxs.find? (fun x => x.rcd.id == c) = some x from h, Option.map_some, if_pos hx]

theorem ctx_id {c : Nat} {x : Ctx} (h : ctx s c = some x) : x.rcd.id = c := by simpa using List.find?_some h

theorem StorageOnly.ctx (h : StorageOnly s t) (c : Nat) : ctx t c = Machine.ctx s c := by rw [Machine.ctx, h.rest, Machine.ctx]

/-- What an attempt to write a record leaves, with its answer: a record written has taken the next SEQ (R338, R339). -/
structure Queued (s : State) (c : Ctx) (r : State × Bool) : Prop where
  same : SameThreads s r.1
  ctx : ∃ x, ctx r.1 c.rcd.id = some x ∧ x.held = c.held ∧ x.seq = if r.2 then c.seq + 1 else c.seq

theorem ctx_fqFail {c : Ctx} (hc : ctx s c.rcd.id = some c) (va cause : Nat) : ctx (fqFail s c va cause) c.rcd.id =
    some { c with stalled := true, fqErr := BitVec.ofNat 64 (va / 4096 * 4096 + 256 + cause) } :=
  ctx_updCtx (s := { s with blocks := _ }) (fun x => { x with stalled := true, fqErr := BitVec.ofNat 64 (va / 4096 * 4096 + 256 + cause) })
    (fun _ => rfl) hc

theorem fqFail_queued {c : Ctx} (hc : ctx s c.rcd.id = some c) (va cause : Nat) : Queued s c (fqFail s c va cause, false) :=
  ⟨⟨rfl, rfl, rfl, rfl⟩, _, ctx_fqFail hc va cause, rfl, rfl⟩

theorem written_queued {c : Ctx} (hs : StorageOnly s t) (hc : ctx s c.rcd.id = some c) :
    Queued s c (raiseMsix (updCtx t c.rcd.id (fun x => { x with seq := x.seq + 1 })) (c.rcd.id % 64), true) :=
  ⟨hs.sameThreads.trans ⟨rfl, rfl, rfl, rfl⟩, { c with seq := c.seq + 1 },
    ctx_updCtx (fun x => { x with seq := x.seq + 1 }) (fun _ => rfl) ((hs.ctx _).trans hc), rfl, rfl⟩

theorem queueOne_queued {c : Ctx} (hc : ctx s c.rcd.id = some c) (raw : BitVec 512) : Queued s c (queueOne s c raw) := by
  unfold queueOne
  dsimp only
  split
  · exact fqFail_queued hc _ _
  · split
    · exact ⟨.refl s, c, hc, rfl, rfl⟩
    · split
      · exact fqFail_queued hc _ _
      · next hw => exact written_queued ((areaWrite_storage hw).trans (releaseArea_storage ..)) hc

/-- What a record that goes to the fault queue of a context leaves: it is written or held (R338). -/
structure Recorded (s : State) (c : Ctx) (r : Rec) (fr : Option FRef) (t : State) : Prop where
  same : SameThreads s t
  ctx : ∃ x, ctx t c.rcd.id = some x ∧
    ((x.held = c.held ++ [⟨BitVec.ofNat 512 r.raw, fr⟩] ∧ x.seq = c.seq) ∨ (x.held = c.held ∧ x.seq = c.seq + 1))

theorem held_recorded {c x : Ctx} (hs : SameThreads s t) (hx : ctx t c.rcd.id = some x) (hheld : x.held = c.held) (hseq : x.seq = c.seq) (r : Rec)
    (fr : Option FRef) :
    Recorded s c r fr (updCtx t c.rcd.id (fun x => { x with held := x.held ++ [⟨BitVec.ofNat 512 r.raw, fr⟩] })) :=
  ⟨hs.trans ⟨rfl, rfl, rfl, rfl⟩, _, ctx_updCtx (fun x => { x with held := x.held ++ [⟨BitVec.ofNat 512 r.raw, fr⟩] }) (fun _ => rfl) hx,
    .inl ⟨congrArg (· ++ _) hheld, hseq⟩⟩

theorem queueRecord_recorded {c : Ctx} (hc : ctx s c.rcd.id = some c) (r : Rec) (fr : Option FRef) :
    Recorded s c r fr (queueRecord s c.rcd.id r fr) := by
  unfold queueRecord
  rw [hc]
  dsimp only
  split
  · exact held_recorded (.refl s) hc rfl rfl r fr
  · obtain ⟨hs, x, hx, hheld, hseq⟩ := queueOne_queued hc (BitVec.ofNat 512 r.raw)
    split
    · next hq =>
      rw [hq] at hs hx hseq
      exact ⟨hs, x, hx, .inr ⟨hheld, hseq⟩⟩
    · next hq =>
      rw [hq] at hs hx hseq
      exact held_recorded hs hx hheld hseq r fr

end Sys2Proof.Machine
end

section
/-! SUPPORT. Taking a trap (R232, R336, R343): a fragment that stops, and one that waits for its pool's frame (R353). -/

namespace Sys2Proof.Machine

variable {s t : State} {e : Env}

theorem Env.Stands.ctx_self (h : e.Stands s) : Machine.ctx s e.ctx.rcd.id = some e.ctx := by
  rw [ctx_id h.ctx]
  exact h.ctx

/-- What surrounds a word stands on once the word has ended. -/
theorem Env.Stands.endWord (h : e.Stands s) : e.Stands (endWord s) :=
  ⟨h.frag, h.poolId, h.pool, h.pondId, h.pond, h.core, h.block, h.launch, h.ctx, h.threads⟩

theorem mem_updWhere {α : Type} {p : α → Bool} {f : α → α} {l : List α} {x : α} (hx : x ∈ l) : (if p x then f x else x) ∈ updWhere p f l :=
  List.mem_map_of_mem hx

/-- A trap without a handler stops the fragment where it resumes, and halts its block (R336, R343, R370). -/
theorem stopAtTrap_stopped (h : e.Stands s) (tr : Trap) : Stopped s e tr (stopAtTrap (endWord s) e (e.trapRec tr) (e.resumeAt tr)) := by
  obtain ⟨⟨hthreads, hpools, hponds, hfrags⟩, hctx⟩ := queueRecord_recorded h.endWord.ctx_self (e.trapRec tr) (some e.frag.ref)
  unfold stopAtTrap
  refine ⟨hthreads, hpools, hponds, ⟨{ e.frag with pc := e.resumeAt tr, hold := .faulted, deferred := none }, ?_, rfl, rfl, rfl⟩, fun f hf hne => ?_,
    fun b hb hid => ?_, hctx⟩
  · rw [haltBlock, updBlock_frags, updFrag_frags, hfrags]
    have hmem := mem_updWhere (p := fun x => x.ref == e.frag.ref) (f := fun f => { f with pc := e.resumeAt tr, hold := .faulted, deferred := none }) h.frag
    rwa [if_pos (beq_self_eq_true _)] at hmem
  · rw [haltBlock, updBlock_frags, updFrag_frags, hfrags]
    have hmem := mem_updWhere (p := fun x => x.ref == e.frag.ref) (f := fun f => { f with pc := e.resumeAt tr, hold := .faulted, deferred := none }) hf
    rwa [if_neg (by simpa using hne)] at hmem
  · rw [haltBlock, updBlock_blocks] at hb
    obtain ⟨x, -, rfl⟩ := List.mem_map.1 hb
    by_cases hx : (x.id == e.block.id) = true
    · simp only [hx, if_true]
      split
      · assumption
      · rfl
    · rw [if_neg hx] at hid
      exact absurd (beq_iff_eq.2 hid) hx

theorem takeTrap_eq (s : State) (e : Env) (tr : Trap) : takeTrap s e tr = deliver s e (e.trapRec tr) (e.resumeAt tr) := rfl

/-- A trap that no handler takes (R336, R343, R370). -/
theorem takeTrap_stopped (h : e.Stands s) (tr : Trap) (hno : e.ctx.hasHandler = false ∨ e.handling = true ∨ e.reached = true) :
    Stopped s e tr (takeTrap (endWord s) e tr) := by
  rw [takeTrap_eq, deliver, if_pos (by rcases hno with hno | hno | hno <;> simp [hno])]
  exact stopAtTrap_stopped h tr

/-- A trap while the frame of the pool is in use (R353). -/
theorem takeTrap_waits (tr : Trap) (hh : e.ctx.hasHandler = true) (hn : e.handling = false) (hr : e.reached = false)
    (hb : frameBusy s e.pool.id = true) :
    takeTrap (endWord s) e tr = { s with cur := none, frags := (takeTrap (endWord s) e tr).frags } ∧
      List.Forall₂ (fun f f' => f' = if f.ref = e.frag.ref then { f with hold := .frame (e.trapRec tr) (e.resumeAt tr), deferred := none } else f)
        s.frags (takeTrap (endWord s) e tr).frags := by
  have hb : frameBusy (endWord s) e.pool.id = true := hb
  rw [takeTrap_eq, deliver, if_neg (by simp [hh, hn, hr]), if_pos hb]
  refine ⟨rfl, ?_⟩
  rw [updFrag_frags, updWhere, List.forall₂_map_right_iff]
  exact forall₂_self _ fun f _ => by simp only [beq_iff_eq]

end Sys2Proof.Machine
end

section
/-! SUPPORT. Bytes of device memory written by the device (R254, R339), and masks of lanes (R233). -/

namespace Sys2Proof.Machine

variable {s t u : State} {e : Env}

/-- A bit set where it was clear. -/
theorem testBit_add_two_pow {a i : Nat} (h : a.testBit i = false) (j : Nat) : (a + 2 ^ i).testBit j = (a.testBit j || decide (i = j)) := by
  rw [Nat.add_comm]
  rcases Nat.lt_trichotomy i j with hij | rfl | hij
  · have hlow : a % 2 ^ (i + 1) < 2 ^ i := by
      refine Nat.lt_of_testBit i ?_ Nat.testBit_two_pow_self fun k hk => ?_
      · rw [Nat.testBit_mod_two_pow, h, Bool.and_false]
      · rw [Nat.testBit_mod_two_pow, Nat.testBit_two_pow_of_ne (Nat.ne_of_lt hk), decide_eq_false (by omega), Bool.false_and]
    have hpow : 2 ^ (i + 1) = 2 ^ i + 2 ^ i := by omega
    rw [← Nat.div_add_mod a (2 ^ (i + 1)), Nat.add_left_comm, Nat.testBit_two_pow_mul_add _ (by omega), Nat.testBit_two_pow_mul_add _ (by omega),
      if_neg (by omega), if_neg (by omega), decide_eq_false (Nat.ne_of_lt hij), Bool.or_false]
  · rw [Nat.testBit_two_pow_add_eq, h]
    simp
  · rw [Nat.testBit_two_pow_add_gt hij, decide_eq_false (Nat.ne_of_gt hij), Bool.or_false]

/-- The mask of some lanes has their bits. -/
theorem testBit_laneMask (l : Nat) : ∀ (ts : List Thread) (m : Nat), (ts.map Thread.lane).Nodup → (∀ x ∈ ts, m.testBit x.lane = false) →
    (ts.foldl (fun m t => m + 2 ^ t.lane) m).testBit l = (m.testBit l || ts.any (fun t => t.lane == l))
  | [], m, _, _ => by simp
  | x :: ts, m, hnd, hm => by
    obtain ⟨hx, hnd⟩ := List.nodup_cons.1 (by simpa using hnd : (x.lane :: ts.map Thread.lane).Nodup)
    have hadd := testBit_add_two_pow (hm x List.mem_cons_self)
    rw [List.foldl_cons, testBit_laneMask l ts _ hnd fun y hy => ?_, hadd, List.any_cons, Bool.or_assoc]
    · rfl
    · rw [hadd, hm y (List.mem_cons_of_mem _ hy), Bool.false_or]
      exact decide_eq_false fun hxy => hx (hxy ▸ List.mem_map_of_mem hy)

theorem lostTo_device {a : Nat} (h : a < Config.deviceTop) : lostTo s a = false := by
  have hp : isPeer a = false := decide_eq_false fun hp => absurd (h.trans_le (by decide : Config.deviceTop ≤ Config.peerBase)) (Nat.not_lt.2 hp.1)
  rw [lostTo, hp, Bool.false_and]

theorem isHost_device {a : Nat} (h : a < Config.deviceTop) : isHost a = false :=
  decide_eq_false (Nat.not_le.2 (h.trans_le (by decide : Config.deviceTop ≤ Config.hostBase)))

/-- A write of the device to its own memory, with nothing at the slices. -/
theorem deviceWrite_device (hs : s.slices = []) {c a : Nat} (cached : Bool) (bs : List Byte) (ha : a < Config.deviceTop) :
    deviceWrite s c cached a bs = { mirror s a bs with
      mem := putBytes s.mem a bs
      lineTag := mapSet s.lineTag (lineOf a) c } := by
  have hlt : a < Config.hostBase := ha.trans_le (by decide)
  rw [deviceWrite, lostTo_device ha, if_neg Bool.false_ne_true, settleLine_of_no_slices hs, homeWrite, logWrite_device hlt, putHome_mem]
  rw [isHost_device ha, Bool.false_and]

/-- A memory with `bs` at `a`, and all else as before. -/
def Holds (m m' : List Host.Cell) (a : Nat) (bs : List Byte) : Prop :=
  ∀ x, byteAt m' x = if a ≤ x ∧ x < a + bs.length then bs.getD (x - a) 0 else byteAt m x

theorem putBytes_holds (m : List Host.Cell) (a : Nat) (bs : List Byte) : Holds m (putBytes m a bs) a bs := by
  intro x
  split
  · next h =>
    have hput := byteAt_putBytes_mid bs m a (x - a) (by omega)
    rwa [Nat.add_sub_cancel' h.1] at hput
  · next h => exact byteAt_putBytes_out h

theorem Holds.nil (m : List Host.Cell) (a : Nat) : Holds m m a [] := fun x => by
  rw [if_neg (by simp)]

theorem Holds.append {m m' m'' : List Host.Cell} {a : Nat} {bs cs : List Byte} (h : Holds m m' a bs) (h' : Holds m' m'' (a + bs.length) cs) :
    Holds m m'' a (bs ++ cs) := by
  intro x
  rw [h' x, h x, List.length_append]
  by_cases hc : a + bs.length ≤ x ∧ x < a + bs.length + cs.length
  · rw [if_pos hc, if_pos (by omega), List.getD_append_right _ _ _ _ (by omega), show x - (a + bs.length) = x - a - bs.length by omega]
  · rw [if_neg hc]
    by_cases hb : a ≤ x ∧ x < a + bs.length
    · rw [if_pos hb, if_pos (by omega), List.getD_append _ _ _ _ (by omega)]
    · rw [if_neg hb, if_neg (by omega)]

theorem Holds.outside {m m' : List Host.Cell} {a x : Nat} {bs : List Byte} (h : Holds m m' a bs) (hx : ¬(a ≤ x ∧ x < a + bs.length)) :
    byteAt m' x = byteAt m x := (h x).trans (if_neg hx)

theorem Holds.bytesAt {m m' : List Host.Cell} {a : Nat} {bs : List Byte} (h : Holds m m' a bs) {k n : Nat} (hk : k + n ≤ bs.length) :
    bytesAt m' (a + k) n = (bs.drop k).take n := by
  rw [bytesAt_eq_map]
  refine List.ext_getElem (by simp; omega) fun i hi _ => ?_
  have hi : i < n := by simpa using hi
  rw [List.getElem_map, List.getElem_range, h, if_pos (by omega), show a + k + i - a = k + i by omega, List.getElem_take, List.getElem_drop,
    List.getD_eq_getElem _ _ (by omega)]

end Sys2Proof.Machine
end

section
/-! SUPPORT. The frame of a trap written (R232, R233). -/

namespace Sys2Proof.Machine

variable {s t u : State} {e : Env} {base : Nat}

/-- The address lies in the frame at `base`. -/
def inFrame (base a : Nat) : Prop := base ≤ a ∧ a < base + 2176

/-- What writes into a frame leave. -/
structure FrameStored (e : Env) (base : Nat) (s t : State) : Prop where
  rest : t = { s with
    mem := t.mem
    lineTag := t.lineTag
    launches := t.launches
    blocks := t.blocks }
  images : Mirrored (inFrame base) s.launches t.launches
  buffers : BuffersCut e.block.id (fun _ => True) s.blocks t.blocks
  memory : ∀ a, ¬inFrame base a → byteAt t.mem a = byteAt s.mem a

theorem FrameStored.refl (e : Env) (base : Nat) (s : State) : FrameStored e base s s := ⟨rfl, .refl .., .refl .., fun _ _ => rfl⟩

theorem FrameStored.trans (h : FrameStored e base s t) (h' : FrameStored e base t u) : FrameStored e base s u where
  rest := by rw [h'.rest, h.rest]
  images := h.images.trans h'.images
  buffers := h.buffers.trans h'.buffers
  memory a ha := (h'.memory a ha).trans (h.memory a ha)

/-- A frame can be written where it can be written once some of it is. -/
theorem FrameStored.frameAt (h : FrameStored e base s t) (hf : FrameAt s e base) : FrameAt t e base where
  xlat x hx hm := hf.xlat x (by
    conv_lhs => rw [hx, h.rest]) fun a ha => (hm a ha).trans (h.memory a ha)
  device := hf.device
  clean := by rw [h.rest]; exact hf.clean
  home := by rw [h.rest]; exact hf.home
  hosts := by rw [h.rest]; exact hf.hosts
  lanes := hf.lanes
  distinct := hf.distinct

theorem endWord_frameAt (hf : FrameAt s e base) : FrameAt (endWord s) e base where
  xlat x hx hm := hf.xlat x hx hm
  device := hf.device
  clean := hf.clean
  home := hf.home
  hosts := hf.hosts
  lanes := hf.lanes
  distinct := hf.distinct

/-- Eight bytes of a frame have an address, and it is free of damage. -/
theorem FrameAt.piece (hf : FrameAt s e base) {i : Nat} (hi : i < 272) :
    ∃ leaf, checkXlat s none e.ctx true ⟨0, e.frame + 8 * i, 8, .store, false, false⟩ = .ok (base + 8 * i, leaf) ∧
      s.badLines.contains (lineOf (base + 8 * i)) = false := by
  obtain ⟨leaf, hl⟩ := hf.xlat s rfl (fun _ _ => rfl) i hi
  refine ⟨leaf, hl, ?_⟩
  rw [List.contains_eq_mem]
  exact decide_eq_false (hf.clean (8 * i) (by omega))

/-- The pieces of a frame follow on from each other. -/
theorem FrameAt.areaPieces (hf : FrameAt s e base) : ∀ n i, i + n ≤ 272 → ∃ ps, Machine.areaPieces s e.ctx true true n (e.frame + 8 * i) = .ok ps ∧
    ps.map Prod.fst = (List.range' i n).map (fun j => base + 8 * j)
  | 0, _, _ => ⟨[], rfl, rfl⟩
  | n + 1, i, hn => by
    obtain ⟨leaf, hl, hbad⟩ := hf.piece (i := i) (by omega)
    obtain ⟨ps, hps, hfst⟩ := hf.areaPieces n (i + 1) (by omega)
    refine ⟨(base + 8 * i, leaf.cached) :: ps, ?_, ?_⟩
    · rw [Machine.areaPieces]
      simp only [if_true, hl, hbad, Bool.false_eq_true, if_false]
      rw [show e.frame + 8 * i + 8 = e.frame + 8 * (i + 1) by omega, hps]
    · rw [List.map_cons, hfst, List.range'_succ, List.map_cons]

/-- One write of the device within a frame. -/
theorem deviceWrite_frameStored (hs : s.slices = []) (hd : base + 2176 ≤ Config.deviceTop) {c a : Nat} (cached : Bool) {bs : List Byte} (ha : base ≤ a)
    (hn : a + bs.length ≤ base + 2176) (hlt : a < base + 2176) :
    FrameStored e base s (deviceWrite s c cached a bs) ∧ Holds s.mem (deviceWrite s c cached a bs).mem a bs := by
  rw [deviceWrite_device hs cached bs (by omega)]
  exact ⟨⟨rfl, mirror_mirrored (fun x h1 h2 => ⟨by omega, by omega⟩) s, .refl .., fun x hx =>
    byteAt_putBytes_out fun h => hx ⟨by omega, by omega⟩⟩, putBytes_holds _ _ _⟩

theorem FrameStored.slices (h : FrameStored e base s t) : t.slices = s.slices := by rw [h.rest]

/-- Bytes of a frame written piece by piece. -/
theorem foldl_frameStored (hd : base + 2176 ≤ Config.deviceTop) (c : Nat) : ∀ (ps : List (Nat × Bool)) (i : Nat) (bs : List Byte) (s : State),
    s.slices = [] → ps.map Prod.fst = (List.range' i ps.length).map (fun j => base + 8 * j) → bs.length = 8 * ps.length → i + ps.length ≤ 272 →
    let t := (ps.zip (chunks 8 ps.length bs)).foldl (fun s p => deviceWrite s c p.1.2 p.1.1 p.2) s
    FrameStored e base s t ∧ Holds s.mem t.mem (base + 8 * i) bs
  | [], i, bs, s, _, _, hlen, _ => by
    obtain rfl := List.eq_nil_of_length_eq_zero (by simpa using hlen)
    exact ⟨.refl .., .nil _ _⟩
  | p :: ps, i, bs, s, hs, hfst, hlen, hi => by
    simp only [List.length_cons] at hlen hi hfst
    rw [List.range'_succ, List.map_cons, List.map_cons, List.cons.injEq] at hfst
    obtain ⟨hp, hfst⟩ := hfst
    have hchunk : chunks 8 (p :: ps).length bs = bs.take 8 :: chunks 8 ps.length (bs.drop 8) := by
      cases bs with
      | nil => simp at hlen
      | cons b bs => rfl
    have htake : (bs.take 8).length = 8 := by rw [List.length_take]; omega
    obtain ⟨hst, hb⟩ := deviceWrite_frameStored (e := e) (c := c) (base := base) hs hd p.2 (a := p.1) (bs := bs.take 8) (by omega) (by omega) (by omega)
    obtain ⟨hst', hb'⟩ := foldl_frameStored hd c ps (i + 1) (bs.drop 8) (deviceWrite s c p.2 p.1 (bs.take 8)) (hst.slices.trans hs) hfst
      (by rw [List.length_drop]; omega) (by omega)
    rw [hchunk, List.zip_cons_cons, List.foldl_cons]
    refine ⟨hst.trans hst', ?_⟩
    have hnext : base + 8 * (i + 1) = p.1 + (bs.take 8).length := by omega
    rw [hnext] at hb'
    have happ := hb.append hb'
    rw [List.take_append_drop] at happ
    exact hp ▸ happ

/-- The buffered stores of every thread of a block leave bytes to a write of the device. -/
theorem cutBuffer_all (s : State) (b pa n : Nat) : BuffersCut b (fun _ => True) s.blocks (cutBuffer s b (fun _ => true) pa n).blocks := by
  show List.Forall₂ _ s.blocks (updWhere _ _ s.blocks)
  rw [updWhere, List.forall₂_map_right_iff]
  refine forall₂_self _ fun x _ => ?_
  split
  · next hx =>
    refine ⟨fun hn => absurd (beq_iff_eq.1 hx) hn, rfl, ?_⟩
    rw [List.forall₂_map_right_iff]
    exact forall₂_self _ fun y _ => ⟨⟨_, rfl⟩, fun hn => absurd trivial hn⟩
  · exact ⟨fun _ => rfl, rfl, forall₂_self _ fun y _ => ⟨.refl y, fun _ => rfl⟩⟩

theorem foldl_cutBuffer : ∀ (ps : List (Nat × Bool)) (s : State),
    FrameStored e base s (ps.foldl (fun s p => cutBuffer s e.block.id (fun _ => true) p.1 8) s) ∧
      (ps.foldl (fun s p => cutBuffer s e.block.id (fun _ => true) p.1 8) s).mem = s.mem
  | [], s => ⟨.refl .., rfl⟩
  | p :: ps, s => by
    obtain ⟨h, hm⟩ := foldl_cutBuffer ps (cutBuffer s e.block.id (fun _ => true) p.1 8)
    have hcut : FrameStored e base s (cutBuffer s e.block.id (fun _ => true) p.1 8) := ⟨rfl, .refl .., cutBuffer_all s _ _ _, fun _ _ => rfl⟩
    exact ⟨hcut.trans h, hm⟩

/-- Bytes of a frame written, at the place of its piece `i` (R233). -/
theorem FrameAt.framePut (hf : FrameAt s e base) {i n : Nat} {bs : List Byte} (hlen : bs.length = 8 * n) (hi : i + n ≤ 272) :
    ∃ t, Machine.framePut s e (e.frame + 8 * i) bs = .ok t ∧ FrameStored e base s t ∧ Holds s.mem t.mem (base + 8 * i) bs := by
  obtain ⟨ps, hps, hfst⟩ := hf.areaPieces n i hi
  have hn : ps.length = n := by simpa using congrArg List.length hfst
  subst hn
  have hpieces : (bs.length + 7) / 8 = ps.length := by omega
  obtain ⟨hst, hb⟩ := foldl_frameStored (e := e) hf.device e.ctx.rcd.id ps i bs s hf.home hfst hlen hi
  obtain ⟨hcut, hmem⟩ := foldl_cutBuffer (e := e) (base := base) ps
    ((ps.zip (chunks 8 ps.length bs)).foldl (fun s p => deviceWrite s e.ctx.rcd.id p.1.2 p.1.1 p.2) s)
  refine ⟨_, ?_, hst.trans hcut, hmem ▸ hb⟩
  unfold Machine.framePut areaWrite
  rw [hpieces, hps]

end Sys2Proof.Machine
end

section
/-! SUPPORT. The frame that a trap leaves in memory: its record, mask, and what it holds of each lane (R233). -/

namespace Sys2Proof.Machine

variable {s t u : State} {e : Env} {base resume : Nat}

/-- w0 of a thread as a frame saves it (R233). -/
def Env.saveW (e : Env) (u : Thread) : Nat := (pairWord (resolve (some e.pool) e.pond u 1 .res) (resolve (some e.pool) e.pond u 0 .res)).toNat

/-- What a frame holds of a lane, put into it behind what stands there (R233). -/
def storeLane (e : Env) (resume : Nat) (r : Except Nat State) (u : Thread) : Except Nat State :=
  match r with
  | .error c => .error c
  | .ok s =>
    match framePut s e (e.frame + 96 + 8 * u.lane) (leBytes 8 resume) with
    | .error c => .error c
    | .ok s => framePut s e (e.frame + 1120 + 8 * u.lane) (leBytes 8 (e.saveW u))

/-- RECORD and MASK of a frame (R233). -/
def Env.frameHead (e : Env) (r : Rec) : List Byte :=
  leBytes 64 (r.raw + 2 ^ 64 * (e.ctx.seq % 2 ^ 64)) ++ leBytes 16 (e.threads.foldl (fun m t => m + 2 ^ t.lane) 0) ++ leBytes 16 0

/-- A frame is written when all of it can be: its head, then each lane. -/
theorem writeFrame_ok {r : Rec} {ps : List (Nat × Bool)} (hps : areaPieces s e.ctx true true 272 e.frame = .ok ps)
    (hhead : framePut s e e.frame (e.frameHead r) = .ok t) (hlanes : e.threads.foldl (storeLane e resume) (.ok t) = .ok u) :
    writeFrame s e r resume = .ok u := by
  unfold writeFrame
  rw [hps]
  dsimp only
  rw [← Env.frameHead, hhead]
  exact hlanes

/-- The address lies where a frame holds PC or SAVEW of the thread's lane (R233). -/
def laneSlot (base : Nat) (u : Thread) (a : Nat) : Prop :=
  (base + 96 + 8 * u.lane ≤ a ∧ a < base + 96 + 8 * u.lane + 8) ∨ (base + 1120 + 8 * u.lane ≤ a ∧ a < base + 1120 + 8 * u.lane + 8)

/-- The frame holds PC and SAVEW of a lane. -/
def LaneStored (e : Env) (base resume : Nat) (t : State) (u : Thread) : Prop :=
  bytesAt t.mem (base + 96 + 8 * u.lane) 8 = leBytes 8 resume ∧ bytesAt t.mem (base + 1120 + 8 * u.lane) 8 = leBytes 8 (e.saveW u)

theorem Holds.bytesAt_all {m m' : List Host.Cell} {a : Nat} {bs : List Byte} (h : Holds m m' a bs) : Machine.bytesAt m' a bs.length = bs := by
  have hall := h.bytesAt (k := 0) (n := bs.length) (by omega)
  rwa [Nat.add_zero, List.drop_zero, List.take_length] at hall

/-- Bytes that a write leaves read as before. -/
theorem bytesAt_same {m m' : List Host.Cell} {a n : Nat} (h : ∀ x, a ≤ x → x < a + n → byteAt m' x = byteAt m x) : bytesAt m' a n = bytesAt m a n := by
  rw [bytesAt_eq_map, bytesAt_eq_map]
  refine List.map_congr_left fun i hi => ?_
  have hi := List.mem_range.1 hi
  exact h _ (by omega) (by omega)

/-- One lane put into a frame. -/
theorem FrameAt.storeLane (hf : FrameAt s e base) {u : Thread} (hu : u.lane < 128) :
    ∃ t, Machine.storeLane e resume (.ok s) u = .ok t ∧ FrameStored e base s t ∧ LaneStored e base resume t u ∧
      ∀ a, ¬laneSlot base u a → byteAt t.mem a = byteAt s.mem a := by
  obtain ⟨s₁, hput₁, hst₁, hb₁⟩ := hf.framePut (i := 12 + u.lane) (n := 1) (length_leBytes 8 resume) (by omega)
  obtain ⟨s₂, hput₂, hst₂, hb₂⟩ := (hst₁.frameAt hf).framePut (i := 140 + u.lane) (n := 1) (length_leBytes 8 (e.saveW u)) (by omega)
  rw [show e.frame + 8 * (12 + u.lane) = e.frame + 96 + 8 * u.lane by omega] at hput₁
  rw [show e.frame + 8 * (140 + u.lane) = e.frame + 1120 + 8 * u.lane by omega] at hput₂
  rw [show base + 8 * (12 + u.lane) = base + 96 + 8 * u.lane by omega] at hb₁
  rw [show base + 8 * (140 + u.lane) = base + 1120 + 8 * u.lane by omega] at hb₂
  have hpc := hb₁.bytesAt_all
  have hw := hb₂.bytesAt_all
  have hout₁ := fun x => hb₁.outside (x := x)
  have hout₂ := fun x => hb₂.outside (x := x)
  rw [length_leBytes] at hpc hw
  simp only [length_leBytes] at hout₁ hout₂
  refine ⟨s₂, ?_, hst₁.trans hst₂, ⟨?_, hw⟩, fun a ha => ?_⟩
  · rw [Machine.storeLane, hput₁]
    exact hput₂
  · rw [← hpc]
    exact bytesAt_same fun x h1 h2 => hout₂ x (by omega)
  · rw [hout₂ a fun h => ha (.inr h), hout₁ a fun h => ha (.inl h)]

/-- The slots of different lanes of a frame are apart. -/
theorem not_laneSlot {u v : Thread} (hu : u.lane < 128) (hv : v.lane < 128) (hne : u.lane ≠ v.lane) {a : Nat} (h : laneSlot base u a) : ¬laneSlot base v a := by
  unfold laneSlot at h ⊢
  omega

/-- All lanes put into a frame (R233). -/
theorem foldl_storeLane : ∀ (ts : List Thread) (s : State), FrameAt s e base → (∀ u ∈ ts, u.lane < 128) → (ts.map Thread.lane).Nodup →
    ∃ t, ts.foldl (storeLane e resume) (.ok s) = .ok t ∧ FrameStored e base s t ∧ (∀ u ∈ ts, LaneStored e base resume t u) ∧
      ∀ a, (∀ u ∈ ts, ¬laneSlot base u a) → byteAt t.mem a = byteAt s.mem a
  | [], s, _, _, _ => ⟨s, rfl, .refl .., by simp, fun _ _ => rfl⟩
  | u :: ts, s, hf, hlt, hnd => by
    rw [List.map_cons, List.nodup_cons] at hnd
    obtain ⟨hu, hlt⟩ := List.forall_mem_cons.1 hlt
    obtain ⟨hnot, hnd⟩ := hnd
    obtain ⟨s₁, hstep, hst₁, hlane, hout₁⟩ := hf.storeLane (resume := resume) hu
    obtain ⟨t, hfold, hst, hlanes, hout⟩ := foldl_storeLane ts s₁ (hst₁.frameAt hf) hlt hnd
    have hapart : ∀ v ∈ ts, u.lane ≠ v.lane := fun v hv heq => hnot (heq ▸ List.mem_map_of_mem hv)
    have hkeep : ∀ a, laneSlot base u a → byteAt t.mem a = byteAt s₁.mem a := fun a ha =>
      hout a fun v hv => not_laneSlot hu (hlt v hv) (hapart v hv) ha
    refine ⟨t, ?_, hst₁.trans hst, List.forall_mem_cons.2 ⟨?_, hlanes⟩, fun a ha => ?_⟩
    · rw [List.foldl_cons, hstep, hfold]
    · exact ⟨(bytesAt_same fun x h1 h2 => hkeep x (.inl ⟨h1, h2⟩)).trans hlane.1, (bytesAt_same fun x h1 h2 => hkeep x (.inr ⟨h1, h2⟩)).trans hlane.2⟩
    · obtain ⟨ha, hrest⟩ := List.forall_mem_cons.1 ha
      rw [hout a hrest, hout₁ a ha]

/-- A frame written (R233). -/
structure FrameWritten (e : Env) (base resume : Nat) (r : Rec) (s t : State) : Prop where
  stored : FrameStored e base s t
  record : bytesAt t.mem base 64 = leBytes 64 (r.raw + 2 ^ 64 * (e.ctx.seq % 2 ^ 64))
  mask : bytesAt t.mem (base + 64) 16 = leBytes 16 (e.threads.foldl (fun m t => m + 2 ^ t.lane) 0)
  lanes : ∀ u ∈ e.threads, LaneStored e base resume t u

theorem Env.length_frameHead (e : Env) (r : Rec) : (e.frameHead r).length = 96 := by
  rw [Env.frameHead, List.length_append, List.length_append, length_leBytes, length_leBytes, length_leBytes]

theorem FrameAt.writeFrame (hf : FrameAt s e base) (r : Rec) (resume : Nat) :
    ∃ t, Machine.writeFrame s e r resume = .ok t ∧ FrameWritten e base resume r s t := by
  obtain ⟨ps, hps, -⟩ := hf.areaPieces 272 0 (by omega)
  obtain ⟨s₁, hput, hst₁, hb⟩ := hf.framePut (i := 0) (n := 12) (e.length_frameHead r) (by omega)
  obtain ⟨t, hfold, hst, hlanes, hout⟩ := foldl_storeLane (resume := resume) e.threads s₁ (hst₁.frameAt hf) hf.lanes hf.distinct
  rw [Nat.mul_zero, Nat.add_zero] at hps hput hb
  have hhead : ∀ k n, k + n ≤ 96 → bytesAt t.mem (base + k) n = ((e.frameHead r).drop k).take n := fun k n hk => by
    rw [← hb.bytesAt (hk.trans (e.length_frameHead r).ge)]
    exact bytesAt_same fun x h1 h2 => hout x fun u _ hu => by
      unfold laneSlot at hu
      omega
  refine ⟨t, writeFrame_ok hps hput hfold, hst₁.trans hst, ?_, ?_, hlanes⟩
  · have hrec := hhead 0 64 (by omega)
    rwa [Nat.add_zero, List.drop_zero, Env.frameHead, List.append_assoc, List.take_left' (length_leBytes ..)] at hrec
  · rw [hhead 64 16 (by omega), Env.frameHead, List.append_assoc, List.drop_left' (length_leBytes ..), List.take_left' (length_leBytes ..)]

end Sys2Proof.Machine
end

section
/-! SUPPORT. Taking a trap, in all (R232, R233, R336, R343, R353). -/

namespace Sys2Proof.Machine

variable {s t : State} {e : Env} {base resume : Nat}

/-- Bytes at their homes are those of device memory. -/
theorem homeBytes_device (hok : s.hostLinesOk) : ∀ n a, a + n ≤ Config.hostBase → homeBytes s a n = bytesAt s.mem a n
  | 0, _, _ => rfl
  | n + 1, a, h => by
    rw [homeBytes, bytesAt, homeByte_device hok (by omega), homeBytes_device hok n (a + 1) (by omega)]

theorem homeByte_same (hh : t.hostLines = s.hostLines) {a : Nat} (hm : byteAt t.mem a = byteAt s.mem a) : homeByte t a = homeByte s a := by
  unfold homeByte hostLine
  rw [hh, hm]

/-- A thread that enters the handler (R232). -/
def Thread.enters (frame : Nat) (u : Thread) : Thread :=
  { ((((u.overtake 0 none).overtake 1 none).setSpring 0 (loWord (BitVec.ofNat 64 frame))).setSpring 1 (hiWord (BitVec.ofNat 64 frame))) with handler := true }

theorem enterHandler_threads (s : State) (e : Env) (opY : Bool) (pc : Nat) :
    (enterHandler s e opY pc).threads = updWhere (fun t => t.inFrag e.frag.ref) (Thread.enters e.frame) s.threads := rfl

theorem Thread.enters_rest (frame : Nat) (u : Thread) : u.enters frame = { u with
    springs := (u.enters frame).springs
    poison := (u.enters frame).poison
    marks := (u.enters frame).marks
    uses := (u.enters frame).uses
    handler := true } := rfl

theorem Thread.enters_springs (frame : Nat) (u : Thread) : (u.enters frame).springs =
    mapSet (mapSet u.springs 0 (loWord (BitVec.ofNat 64 frame))) 1 (hiWord (BitVec.ofNat 64 frame)) := rfl

theorem hiWord_ofNat (n : Nat) : hiWord (BitVec.ofNat 64 n) = BitVec.ofNat 32 (n / 2 ^ 32) := by
  apply BitVec.eq_of_toNat_eq
  simp [hiWord]
  omega

/-- The threads of a fragment that enters the handler, with the frame's address in w0 (R232). -/
theorem enters_forall₂ (s : State) (e : Env) : List.Forall₂ (fun u u' : Thread => (u.inFrag e.frag.ref = false → u' = u) ∧ (u.inFrag e.frag.ref = true →
    u' = { u with
      springs := u'.springs
      poison := u'.poison
      marks := u'.marks
      uses := u'.uses
      handler := true } ∧ mapGet u'.springs 0 = some (BitVec.ofNat 32 e.frame) ∧
      mapGet u'.springs 1 = some (BitVec.ofNat 32 (e.frame / 2 ^ 32)) ∧ ∀ n, n ≠ 0 → n ≠ 1 → mapGet u'.springs n = mapGet u.springs n)) s.threads
    (updWhere (fun t => t.inFrag e.frag.ref) (Thread.enters e.frame) s.threads) := by
  rw [updWhere, List.forall₂_map_right_iff]
  refine forall₂_self _ fun u _ => ⟨fun hn => if_neg (by simp [hn]), fun hin => ?_⟩
  rw [if_pos hin, Thread.enters_springs]
  refine ⟨u.enters_rest e.frame, ?_, ?_, fun n h0 h1 => ?_⟩
  · rw [mapGet_mapSet_ne _ _ (by decide), mapGet_mapSet_same, loWord_ofNat]
  · rw [mapGet_mapSet_same, hiWord_ofNat]
  · rw [mapGet_mapSet_ne _ _ (Ne.symm h1), mapGet_mapSet_ne _ _ (Ne.symm h0)]

/-- The fragment enters the handler over a frame that is written (R232, R233). -/
theorem FrameWritten.inHandler {tr : Trap} (h : FrameWritten e base (e.resumeAt tr) (e.trapRec tr) (endWord s) t) (hs : e.Stands s) (hf : FrameAt s e base)
    (opY : Bool) (pc : Nat) : InHandler s e tr base (enterHandler t e opY pc) := by
  obtain ⟨⟨hrest, himages, hbuffers, hmemory⟩, hrecord, hmask, hlanes⟩ := h
  have htop : base + 2176 ≤ Config.hostBase := hf.device.trans (by decide)
  have hhost : (enterHandler t e opY pc).hostLines = s.hostLines := by
    show t.hostLines = s.hostLines
    rw [hrest]
    rfl
  have hok : (enterHandler t e opY pc).hostLinesOk := by
    rw [State.hostLinesOk, hhost]
    exact hf.hosts
  have hfrags : t.frags = s.frags := by rw [hrest]; rfl
  have hctx : ctx t e.ctx.rcd.id = some e.ctx := by
    rw [ctx, hrest]
    exact hs.ctx_self
  have hbytes : ∀ a n, a + n ≤ Config.hostBase → homeBytes (enterHandler t e opY pc) a n = bytesAt t.mem a n := fun a n h => homeBytes_device hok n a h
  constructor
  case rest =>
    unfold enterHandler
    rw [hrest]
    rfl
  case images => exact himages
  case buffers => exact hbuffers
  case frag =>
    have hmem := mem_updWhere (p := fun x => x.ref == e.frag.ref)
      (f := fun f => { f with pc := e.ctx.rcd.handler, hold := .free, yOnly := false, transl := false, deferred := none }) hs.frag
    rw [if_pos (beq_self_eq_true _), ← hfrags] at hmem
    exact ⟨_, hmem, rfl, rfl, rfl⟩
  case frags =>
    intro f hmem hne
    have hmem := mem_updWhere (p := fun x => x.ref == e.frag.ref)
      (f := fun f => { f with pc := e.ctx.rcd.handler, hold := .free, yOnly := false, transl := false, deferred := none }) hmem
    rwa [if_neg (by simpa using hne), ← hfrags] at hmem
  case threads =>
    rw [enterHandler_threads, show t.threads = s.threads by rw [hrest]; rfl]
    exact enters_forall₂ s e
  case pools =>
    show List.Forall₂ _ s.pools (updWhere _ _ t.pools)
    rw [show t.pools = s.pools by rw [hrest]; rfl]
    exact forall₂_updWhere _ _ _ (fun _ _ _ => rfl) fun _ _ => rfl
  case ctx => exact ⟨_, ctx_updCtx (fun c => { c with seq := c.seq + 1 }) (fun _ => rfl) hctx, rfl⟩
  case record => rw [hbytes _ _ (by omega), hrecord]
  case mask =>
    intro l hl
    rw [homeValue, hbytes _ _ (by omega), hmask, leNat_leBytes, show 256 ^ 16 = 2 ^ 128 by norm_num, Nat.testBit_mod_two_pow, decide_eq_true hl, Bool.true_and,
      testBit_laneMask l e.threads 0 hf.distinct fun _ _ => Nat.zero_testBit _, Nat.zero_testBit, Bool.false_or, List.any_eq_true]
    simp only [beq_iff_eq]
  case lanes =>
    intro u hu
    obtain ⟨hpc, hw⟩ := hlanes u hu
    have hlt := hf.lanes u hu
    rw [homeValue, homeValue, hbytes _ _ (by omega), hbytes _ _ (by omega), hpc, hw, leNat_leBytes, leNat_leBytes, show 256 ^ 8 = 2 ^ 64 by norm_num]
    exact ⟨rfl, Nat.mod_eq_of_lt (BitVec.isLt _)⟩
  case memory => exact fun a ha => homeByte_same hhost (hmemory a ha)

/-- TAKING A TRAP does as the rules say, wherever the word's surroundings stand (R232, R336, R343, R353). -/
theorem takeTrap_taken (h : e.Stands s) (tr : Trap) : Taken s e tr (takeTrap (endWord s) e tr) := by
  refine ⟨takeTrap_stopped h tr, takeTrap_waits tr, fun hh hn hr hb base hf => ?_⟩
  obtain ⟨t, ht, hw⟩ := (endWord_frameAt hf).writeFrame (e.trapRec tr) (e.resumeAt tr)
  have hb : frameBusy (endWord s) e.pool.id = false := hb
  rw [takeTrap_eq, deliver, if_neg (by simp [hh, hn, hr]), if_neg (by simp [hb]), ht]
  exact hw.inHandler h hf _ _

end Sys2Proof.Machine
end

section
/-! SUPPORT. Words that trap in their bodies, in the lowest lane that fails (R342, R356). -/

namespace Sys2Proof.Machine

variable {s : State} {e : Env} {i : Instr} {g : Guard}

/-- A body that traps traps its word. -/
theorem traps_of_body {body : Env → State → Res} {tr : Trap} (h : Issues s e i) (hx : exec i s = issue i s body) (hb : body e (finish s e i) = .trap tr) :
    Traps i s e tr :=
  ⟨_, by rw [hx, issue_of_issues h, hb, settle], takeTrap_taken h.stands tr⟩

theorem active_ne_nil {l : List Thread} {p : Thread → Bool} {u : Thread} (h : l.find? p = some u) : l ≠ [] := by
  rintro rfl
  cases h

/-- What the first element that fails answers, among those that do not. -/
theorem firstSome_of_find? {α β : Type} {p : α → Bool} {f : α → Option β} {x : α} {b : β} : ∀ {l : List α}, l.find? p = some x →
    (∀ y ∈ l, p y = false → f y = none) → f x = some b → firstSome f l = some b
  | [], h, _, _ => by cases h
  | y :: l, h, hn, hx => by
    rw [List.find?_cons] at h
    split at h
    · cases h
      rw [firstSome, hx]
    · next hp => rw [firstSome, hn y List.mem_cons_self hp, firstSome_of_find? h (fun z hz => hn z (List.mem_cons_of_mem _ hz)) hx]

/-! Words of memory (R180, R356). -/

theorem misaligned_some {ea : Thread → Nat} {n : Nat} {act : List Thread} {u : Thread} (h : act.find? (fun x => ea x % n != 0) = some u) :
    misaligned n (act.map (fun x => (x, ea x))) = some ⟨0x20, n, some (ea u), u.lane⟩ := by
  rw [misaligned, List.find?_map, show (fun p : Thread × Nat => p.2 % n != 0) ∘ (fun x => (x, ea x)) = fun x => ea x % n != 0 from rfl, h]
  rfl

theorem misaligned_none {ea : Thread → Nat} {n : Nat} {act : List Thread} (h : ∀ x ∈ act, ea x % n = 0) :
    misaligned n (act.map (fun x => (x, ea x))) = none := by
  rw [misaligned, Option.map_eq_none_iff, List.find?_eq_none]
  intro p hp
  obtain ⟨x, hx, rfl⟩ := List.mem_map.1 hp
  simp [h x hx]

theorem gaccess_misaligned {acc : Acc} {loc : Bool} {n : Nat} {pieces : Thread → List (Nat × Nat)} {ea : Thread → Nat} {act : List Thread} {u : Thread}
    (h : act.find? (fun x => ea x % n != 0) = some u) :
    gaccess s e acc loc false n pieces (act.map (fun x => (x, ea x))) = .error (.trap ⟨0x20, n, some (ea u), u.lane⟩) := by
  rw [gaccess, if_neg Bool.false_ne_true, misaligned_some h]
  rfl

/-- An address that is not canonical traps in the lowest lane that has one, before anything is translated. -/
theorem gaccess_noncanonical {acc : Acc} {n : Nat} {ea : Thread → Nat} {act : List Thread} {u : Thread} (hal : ∀ x ∈ act, ea x % n = 0)
    (hlt : ∀ x, ea x < 2 ^ 64) (h : act.find? (fun x => decide (2 ^ 57 ≤ ea x)) = some u) :
    gaccess s e acc false false n (whole n) (act.map (fun x => (x, ea x))) =
      .error (.trap ⟨0x23, acc.code + 256 * acc.need, some (ea u), u.lane⟩) := by
  have hreqs : ((act.map (fun x => (x, ea x))).flatMap (fun p => (whole n p.1).map (fun q => (p.1, (e.virtual false p.1 p.2 + q.1) % 2 ^ 64, q)))).map
      (fun p => (⟨p.1.lane, p.2.1, p.2.2.2, acc, false, acc == .load⟩ : MemReq)) = act.map (fun x => ⟨x.lane, ea x, n, acc, false, acc == .load⟩) := by
    rw [List.flatMap_map, List.map_flatMap, List.map_eq_flatMap]
    refine congrArg List.flatten (List.map_congr_left fun x _ => ?_)
    simpa [whole, Env.virtual] using hlt x
  have hu : 2 ^ 57 ≤ ea u := of_decide_eq_true (List.find?_some (p := fun x => decide (2 ^ 57 ≤ ea x)) h)
  have hfind : (act.map (fun x => (⟨x.lane, ea x, n, acc, false, acc == .load⟩ : MemReq))).find? (fun r => decide (2 ^ 57 ≤ r.va)) =
      some ⟨u.lane, ea u, n, acc, false, acc == .load⟩ := by
    rw [List.find?_map, show (fun r : MemReq => decide (2 ^ 57 ≤ r.va)) ∘ (fun x : Thread => (⟨x.lane, ea x, n, acc, false, acc == .load⟩ : MemReq)) =
      fun x => decide (2 ^ 57 ≤ ea x) from rfl, h]
    rfl
  have hfail := firstSome_of_find? (f := checkCanonical) hfind (fun r _ hr => if_neg (of_decide_eq_false hr)) (if_pos hu)
  rw [gaccess, if_neg Bool.false_ne_true, misaligned_none hal]
  dsimp only [Option.none_or]
  rw [if_neg Bool.false_ne_true]
  dsimp only
  rw [hreqs, checkMem, checkBy, hfail]
  rfl

theorem ldBody_error {m : MemMod} {uns : Bool} {d : Dst} {a : Src} {r : Res} (hne : e.active g ≠ [])
    (h : gaccess s e .load m.loc false m.size.bytes (whole m.size.bytes) ((e.active g).map (fun t => (t, e.ea t a m.disp))) = .error r) :
    ldBody g m uns d a e s = r := by
  obtain ⟨v, vs, hact⟩ := List.exists_cons_of_ne_nil hne
  rw [hact] at h
  rw [ldBody, hact]
  dsimp only
  rw [h]

theorem stBody_error {m : MemMod} {a b : Src} {r : Res} (hne : e.active g ≠ [])
    (h : gaccess s e .store m.loc false m.size.bytes (whole m.size.bytes) ((e.active g).map (fun t => (t, e.ea t a m.disp))) = .error r) :
    stBody g m (fun _ _ => none) a b e s = r := by
  obtain ⟨v, vs, hact⟩ := List.exists_cons_of_ne_nil hne
  rw [hact] at h
  rw [stBody, hact]
  dsimp only
  rw [show (v :: vs).any (fun _ => (none : Option Nat).isSome) = false from List.any_eq_false.2 fun _ _ => Bool.false_ne_true, h]

theorem atomBody_error {m : AtomMod} {a b c : Src} {start : State → Env → List TRef → Option Nat × State} {r : Res} (hne : e.active g ≠ [])
    (h : gaccess s e .atomic false false (if m.wide then 8 else 4) (whole (if m.wide then 8 else 4)) ((e.active g).map (fun t => (t, e.ea t a m.disp))) =
      .error r) : atomBody g m a b c start e s = r := by
  obtain ⟨v, vs, hact⟩ := List.exists_cons_of_ne_nil hne
  rw [hact] at h
  rw [atomBody, hact]
  dsimp only
  rw [h]

/-- Where the checks of a word of memory find a trap, the word takes it. -/
theorem traps_of_gaccess {r : MemRow} {tr : Trap} (hr : memRow i = some r) (h : Issues s e i) (hm : r.masked = false) (hne : e.active (guardOfInstr i) ≠ [])
    (hg : gaccess (finish s e i) e r.acc r.loc false r.n (whole r.n) ((e.active (guardOfInstr i)).map (fun x => (x, e.ea x r.a r.disp))) =
      .error (.trap tr)) : Traps i s e tr := by
  unfold memRow at hr
  split at hr
  · cases hr
    exact traps_of_body h rfl (ldBody_error hne hg)
  · cases hr
    exact traps_of_body h rfl (stBody_error hne hg)
  · cases hr
    cases hm
  · cases hr
    exact traps_of_body h rfl (atomBody_error hne hg)
  · cases hr
    exact traps_of_body h rfl (atomBody_error hne hg)
  · cases hr

end Sys2Proof.Machine
end

section
/-! SUPPORT. Words of the scratchpad, branches and the rest of the words that trap in their bodies (R125, R128, R186, R220, R229). -/

namespace Sys2Proof.Machine

variable {s : State} {e : Env} {i : Instr} {g : Guard}

/-! Words of the scratchpad (R186, R356). -/

theorem spaccess_misaligned {reads : Bool} {n : Nat} {act : List Thread} {a : Src} {disp : BitVec 16} {u : Thread}
    (h : act.find? (fun x => e.spAddr x a disp % (n : Int) != 0) = some u) :
    spaccess e true reads n act a disp = .error (.trap ⟨0x20, n + 32, some (addr64 (e.spAddr u a disp)), u.lane⟩) := by
  rw [spaccess, spCheck, if_pos rfl, List.find?_map,
    show (fun p : Thread × Int => p.2 % (n : Int) != 0) ∘ (fun t => (t, e.spAddr t a disp)) = fun x => e.spAddr x a disp % (n : Int) != 0 from rfl, h]
  rfl

theorem spaccess_outside {align reads : Bool} {n : Nat} {act : List Thread} {a : Src} {disp : BitVec 16} {u : Thread}
    (hal : align = true → ∀ x ∈ act, e.spAddr x a disp % (n : Int) = 0)
    (h : act.find? (fun x => decide (e.spAddr x a disp < 0 ∨ (e.pond.size : Int) < e.spAddr x a disp + n)) = some u) :
    spaccess e align reads n act a disp = .error (.trap ⟨0x21, n + 2 ^ 32 * e.pond.size, some (addr64 (e.spAddr u a disp)), u.lane⟩) := by
  have hnone : (if align then (act.map (fun t => (t, e.spAddr t a disp))).find? (fun p => p.2 % (n : Int) != 0) else none) = none := by
    cases align with
    | false => rfl
    | true =>
      rw [if_pos rfl, List.find?_eq_none]
      intro p hp
      obtain ⟨x, hx, rfl⟩ := List.mem_map.1 hp
      simp [hal rfl x hx]
  rw [spaccess, spCheck, hnone, List.find?_map,
    show (fun p : Thread × Int => decide (p.2 < 0 ∨ (e.pond.size : Int) < p.2 + n)) ∘ (fun t => (t, e.spAddr t a disp)) =
      fun x => decide (e.spAddr x a disp < 0 ∨ (e.pond.size : Int) < e.spAddr x a disp + n) from rfl, h]
  rfl

/-- A lane without an access needs a mask (R183). -/
theorem spRow_pieces {r : SpRow} (hr : spRow i = some r) (ha : r.align = true) (e : Env) (x : Thread) : r.pieces e x ≠ [] := by
  have hunits : ∀ n, units n ≠ [] := fun n => by
    unfold units
    split <;> simp
  unfold spRow at hr
  split at hr
  · cases hr
    exact List.cons_ne_nil _ _
  · cases hr
    exact fun h => hunits _ (List.map_eq_nil_iff.1 h)
  · cases hr
    cases ha
  · cases hr
    exact List.cons_ne_nil _ _
  · cases hr

theorem stsBody_error {size : Size} {disp : BitVec 16} {align : Bool} {mask : Env → Thread → Option Nat} {a b : Src} {r : Res} (hne : e.active g ≠ [])
    (h : spaccess e align false size.bytes ((e.active g).filter (fun t => !(stsUnits size.bytes (mask e t)).isEmpty)) a disp = .error r) :
    stsBody g size disp align mask a b e s = r := by
  obtain ⟨v, vs, hact⟩ := List.exists_cons_of_ne_nil hne
  rw [hact] at h
  rw [stsBody, hact]
  dsimp only
  rw [h]

/-- Where the checks of a word of the scratchpad find a trap, the word takes it. -/
theorem traps_of_spaccess {r : SpRow} {tr : Trap} (hr : spRow i = some r) (h : Issues s e i) (hne : e.active (guardOfInstr i) ≠ [])
    (hs : spaccess e r.align r.reads r.n ((e.active (guardOfInstr i)).filter (fun x => !(r.pieces e x).isEmpty)) r.a r.disp = .error (.trap tr)) :
    Traps i s e tr := by
  obtain ⟨v, vs, hact⟩ := List.exists_cons_of_ne_nil hne
  unfold spRow at hr
  split at hr
  · next g size take uns disp d a =>
    cases hr
    change spaccess e true true size.bytes ((e.active g).filter (fun _ => true)) a disp = _ at hs
    change e.active g = _ at hact
    rw [List.filter_true, hact] at hs
    refine traps_of_body h (show execLds g size take uns disp d a s = issue _ s _ from rfl) ?_
    rw [hact]
    dsimp only
    rw [hs]
  · cases hr
    refine traps_of_body h rfl (stsBody_error hne ?_)
    simp only [List.isEmpty_map] at hs
    exact hs
  · cases hr
    refine traps_of_body h rfl (stsBody_error hne ?_)
    simp only [stsUnits, enabledBytes, List.isEmpty_map] at hs ⊢
    exact hs
  · next g op wide uns disp d a b c =>
    cases hr
    change spaccess e true true (if wide then 8 else 4) ((e.active g).filter (fun _ => true)) a disp = _ at hs
    change e.active g = _ at hact
    rw [List.filter_true, hact] at hs
    refine traps_of_body h (show execAtoms g op wide uns disp d a b c s = issue _ s _ from rfl) ?_
    rw [hact]
    dsimp only
    rw [hs]
  · cases hr

/-! Branches and the return stack (R125, R128). -/

/-- The model's target of a relative branch is the one of R125. -/
theorem relTarget_eq (pc : Nat) (off : Word) : relTarget pc off = relative pc off := by
  have hsum : BitVec.ofNat 64 (pc + 16) + off.signExtend 64 * 16 = BitVec.ofInt 64 (pc + 16 + off.toInt * 16) := by
    rw [BitVec.ofInt_add, BitVec.ofInt_mul, BitVec.signExtend, ← BitVec.ofInt_natCast]
    rfl
  rw [relTarget, hsum, BitVec.toNat_ofInt]
  rfl

theorem valid_eq_false {a : Nat} : (!e.valid a) = decide (a % 16 ≠ 0 ∨ a < e.codeBase ∨ e.codeBase + e.extent ≤ a) := by
  rw [Env.valid, validIn, Bool.eq_iff_iff]
  simp only [Bool.not_eq_true', Bool.and_eq_false_iff, beq_eq_false_iff_ne, decide_eq_false_iff_not, decide_eq_true_eq]
  omega

/-- An invalid target traps in the lowest lane that has one (R125). -/
theorem targetTrap_some {target : Thread → Nat} {act : List Thread} {u : Thread}
    (h : act.find? (fun x => decide (target x % 16 ≠ 0 ∨ target x < e.codeBase ∨ e.codeBase + e.extent ≤ target x)) = some u) :
    targetTrap e target act = some ⟨0x0B, 0, some (target u), u.lane⟩ := by
  rw [targetTrap]
  simp only [valid_eq_false]
  rw [h]
  rfl

theorem targetTrap_none {target : Thread → Nat} {act : List Thread} (h : ∀ x ∈ act, e.targetOk (target x)) : targetTrap e target act = none := by
  rw [targetTrap, Option.map_eq_none_iff, List.find?_eq_none]
  intro x hx
  obtain ⟨hal, hlo, hhi⟩ := h x hx
  rw [valid_eq_false, decide_eq_true_eq]
  omega

theorem branchBody_trap {apart : Bool} {target : Env → Thread → Nat} {tr : Trap} (h : targetTrap e (target e) (e.active g) = some tr) :
    branchBody apart g target e s = .trap tr := by
  rw [branchBody, h]

theorem callBody_trap {apart : Bool} {target : Env → Thread → Nat} {tr : Trap} (h : targetTrap e (target e) (e.active g) = some tr) :
    callBody apart g target e s = .trap tr := by
  rw [callBody]
  dsimp only
  rw [h]

/-- A call from a full return stack (R128). -/
theorem callBody_full {apart : Bool} {target : Env → Thread → Nat} {u : Thread} (h : ∀ x ∈ e.active g, e.targetOk (target e x))
    (hu : (e.active g).find? (fun x => x.stack.length + x.spilled == 1024) = some u) :
    callBody apart g target e s = .trap ⟨0x0C, 1024, none, u.lane⟩ := by
  rw [callBody]
  dsimp only
  rw [targetTrap_none h]
  dsimp only
  rw [show (e.active g).find? (fun t => t.depth == 1024) = some u from hu]

theorem retBody_trap {tr : Trap} (hd : ∀ x ∈ e.active g, x.stack.length + x.spilled ≠ 0) (h : targetTrap e Thread.top (e.active g) = some tr) :
    retBody g e s = .trap tr := by
  have hnone : (e.active g).find? (fun t => t.depth == 0) = none := List.find?_eq_none.2 fun x hx => by simpa [Thread.depth] using hd x hx
  rw [retBody]
  dsimp only
  rw [hnone]
  dsimp only
  rw [h]

/-- A return from an empty return stack (R128). -/
theorem retBody_empty {u : Thread} (hu : (e.active g).find? (fun x => x.stack.length + x.spilled == 0) = some u) :
    retBody g e s = .trap ⟨0x0D, 0, none, u.lane⟩ := by
  rw [retBody]
  dsimp only
  rw [show (e.active g).find? (fun t => t.depth == 0) = some u from hu]

/-- A branch word to an invalid target traps, a return behind its check for an empty stack (R125, R128). -/
theorem traps_of_target {target : Env → Thread → Nat} {u : Thread} (ht : targetOf i = some target) (h : Issues s e i)
    (hd : (∃ g, i = .ret g) → ∀ x ∈ e.active (guardOfInstr i), x.stack.length + x.spilled ≠ 0)
    (hu : (e.active (guardOfInstr i)).find? (fun x =>
      decide (target e x % 16 ≠ 0 ∨ target e x < e.codeBase ∨ e.codeBase + e.extent ≤ target e x)) = some u) :
    Traps i s e ⟨0x0B, 0, some (target e u), u.lane⟩ := by
  have htr := targetTrap_some hu
  unfold targetOf at ht
  split at ht
  · cases ht
    refine traps_of_body h rfl (branchBody_trap ?_)
    simp only [relTarget_eq]
    exact htr
  · cases ht
    refine traps_of_body h rfl (callBody_trap ?_)
    simp only [relTarget_eq]
    exact htr
  · cases ht
    exact traps_of_body h rfl (branchBody_trap htr)
  · cases ht
    exact traps_of_body h rfl (callBody_trap htr)
  · next g =>
    cases ht
    exact traps_of_body h rfl (retBody_trap (hd ⟨g, rfl⟩) htr)
  · cases ht

/-! Handles (R214, R220) and the operands of LAUNCH (R229). -/

theorem traps_of_handle {a : Src} {u : Thread} (hi : i = .mwait g a ∨ i = .mslotZero g a) (h : Issues s e i)
    (hu : (e.active g).find? (fun x => (e.pond.slotOfHandle (e.src 0 x a)).isNone) = some u) : Traps i s e ⟨0x1B, (e.src 0 u a).toNat, none, u.lane⟩ := by
  rcases hi with rfl | rfl
  · refine traps_of_body h (show execMwait g a s = issue _ s _ from rfl) ?_
    dsimp only
    rw [hu]
  · refine traps_of_body h (show execMslotZero g a s = issue _ s _ from rfl) ?_
    dsimp only
    rw [hu]

theorem traps_of_queue {d : Dst} {a b : Src} {u : Thread} (h : Issues s e (.launch g d a b)) (hal : ∀ x ∈ e.active g, (e.src64 0 false x a).toNat % 64 = 0)
    (hu : (e.active g).find? (fun x => decide (16 ≤ (e.src 0 x b).toNat)) = some u) :
    Traps (.launch g d a b) s e ⟨0x08, b.code + 2 * 2 ^ 12, none, u.lane⟩ := by
  have hq : 16 ≤ (e.src 0 u b).toNat := of_decide_eq_true (List.find?_some (p := fun x => decide (16 ≤ (e.src 0 x b).toNat)) hu)
  have htr : launchTrap e a b (e.active g) = some ⟨0x08, b.code + 2 * 2 ^ 12, none, u.lane⟩ := by
    refine firstSome_of_find? hu (fun x hx hp => ?_) ?_
    · rw [if_neg (not_not.2 (hal x hx)), if_neg (of_decide_eq_false hp)]
    · rw [if_neg (not_not.2 (hal u (List.mem_of_find?_eq_some hu))), if_pos hq]
  obtain ⟨v, vs, hact⟩ := List.exists_cons_of_ne_nil (active_ne_nil hu)
  rw [hact] at htr
  refine traps_of_body h (show execLaunch g d a b s = issue _ s _ from rfl) ?_
  rw [hact]
  dsimp only
  rw [htr]

end Sys2Proof.Machine
end

section
/-! PROOF of the checks that trap (R125, R128, R180, R186, R214, R220, R229, R234, R237, R341, R354, R356). -/

namespace Sys2Proof.Machine

variable {s : State} {e : Env} {i : Instr} {g : Guard}

/-- A word that its permission refuses is refused so where its static checks find nothing (R342). -/
theorem checks_of_permission {tr : Trap} (hs : staticCheck e.launch.kernel i = none) (hp : permission e i (e.active (guardOfInstr i)) = some tr) :
    checks e i = some tr := by
  rw [checks, hs]
  dsimp only
  rw [hp]
  rfl

theorem permission_eret {a : Src} {u : Thread} {us : List Thread} (hh : e.handling = false) :
    permission e (.eret g a) (u :: us) = some ⟨0x0B, 2, some (e.src64 0 false u a).toNat, u.lane⟩ := by
  rw [permission, hh]
  rfl

theorem permission_objw {a b : Src} {act : List Thread} (hne : act ≠ []) (hw : e.ctx.rcd.objWr = false) :
    permission e (.objw g a b) act = some ⟨0x1E, opcodeOf (.objw g a b), none, lowLane act⟩ := by
  obtain ⟨v, vs, rfl⟩ := List.exists_cons_of_ne_nil hne
  rw [permission, hw]
  rfl

theorem permission_spawn {d : Dst} {a b : Src} {act : List Thread} (hne : act ≠ []) (hs : e.still = true) :
    permission e (.spawn g d a b) act = some ⟨0x1D, opcodeOf (.spawn g d a b), none, lowLane act⟩ := by
  obtain ⟨v, vs, rfl⟩ := List.exists_cons_of_ne_nil hne
  rw [permission, hs]
  rfl

/-- A misaligned access of memory traps (R180, R356). -/
theorem traps_of_misaligned {r : MemRow} {u : Thread} (hr : memRow i = some r) (h : Issues s e i) (hm : r.masked = false)
    (hu : (e.active (guardOfInstr i)).find? (fun x => e.ea x r.a r.disp % r.n != 0) = some u) :
    Traps i s e ⟨0x20, r.n, some (e.ea u r.a r.disp), u.lane⟩ :=
  traps_of_gaccess hr h hm (active_ne_nil hu) (gaccess_misaligned (ea := fun x => e.ea x r.a r.disp) hu)

/-- An address of memory that is not canonical traps (R356). -/
theorem traps_of_noncanonical {r : MemRow} {u : Thread} (hr : memRow i = some r) (h : Issues s e i) (hm : r.masked = false) (hl : r.loc = false)
    (hal : ∀ x ∈ e.active (guardOfInstr i), e.ea x r.a r.disp % r.n = 0)
    (hu : (e.active (guardOfInstr i)).find? (fun x => decide (2 ^ 57 ≤ e.ea x r.a r.disp)) = some u) :
    Traps i s e ⟨0x23, r.acc.code + 256 * r.acc.need, some (e.ea u r.a r.disp), u.lane⟩ := by
  refine traps_of_gaccess hr h hm (active_ne_nil hu) ?_
  rw [hl]
  exact gaccess_noncanonical (ea := fun x => e.ea x r.a r.disp) hal (fun _ => BitVec.isLt _) hu

/-- A misaligned access of the scratchpad traps (R186). -/
theorem traps_of_spMisaligned {r : SpRow} {u : Thread} (hr : spRow i = some r) (h : Issues s e i) (ha : r.align = true)
    (hu : (e.active (guardOfInstr i)).find? (fun x => decide (((e.src 0 x r.a).toNat + r.disp.toInt) % (r.n : Int) ≠ 0)) = some u) :
    Traps i s e ⟨0x20, r.n + 32, some (BitVec.ofInt 64 ((e.src 0 u r.a).toNat + r.disp.toInt)).toNat, u.lane⟩ := by
  refine traps_of_spaccess hr h (active_ne_nil hu) ?_
  have hall : (e.active (guardOfInstr i)).filter (fun x => !(r.pieces e x).isEmpty) = e.active (guardOfInstr i) :=
    List.filter_eq_self.2 fun x _ => by simp [spRow_pieces hr ha e x]
  rw [ha, hall]
  refine spaccess_misaligned ?_
  rw [← hu]
  congr 1
  funext x
  rw [Bool.eq_iff_iff, bne_iff_ne, decide_eq_true_iff]
  rfl

/-- An access outside the scratchpad traps, but for a lane that accesses nothing (R186, log 56). -/
theorem traps_of_spOutside {r : SpRow} {u : Thread} (hr : spRow i = some r) (h : Issues s e i)
    (hal : r.align = true → ∀ x ∈ e.active (guardOfInstr i), ((e.src 0 x r.a).toNat + r.disp.toInt) % (r.n : Int) = 0)
    (hu : (e.active (guardOfInstr i)).find? (fun x => decide (r.pieces e x ≠ [] ∧ ((e.src 0 x r.a).toNat + r.disp.toInt < 0 ∨
      (e.pond.size : Int) < (e.src 0 x r.a).toNat + r.disp.toInt + r.n))) = some u) :
    Traps i s e ⟨0x21, r.n + 2 ^ 32 * e.pond.size, some (BitVec.ofInt 64 ((e.src 0 u r.a).toNat + r.disp.toInt)).toNat, u.lane⟩ := by
  refine traps_of_spaccess hr h (active_ne_nil hu) (spaccess_outside (fun ha x hx => hal ha x (List.mem_filter.1 hx).1) ?_)
  rw [List.find?_filter, ← hu]
  congr 1
  funext x
  rw [Bool.eq_iff_iff, decide_eq_true_iff, decide_eq_true_iff, decide_eq_true_iff, Bool.not_eq_true', List.isEmpty_eq_false_iff]
  rfl

/-- A call from a full return stack traps (R128). -/
theorem traps_of_full {target : Env → Thread → Nat} {u : Thread} (ht : targetOf i = some target) (hi : (∃ g off, i = .call g off) ∨ ∃ g a, i = .callx g a)
    (h : Issues s e i) (hok : ∀ x ∈ e.active (guardOfInstr i), e.targetOk (target e x))
    (hu : (e.active (guardOfInstr i)).find? (fun x => x.stack.length + x.spilled == 1024) = some u) : Traps i s e ⟨0x0C, 1024, none, u.lane⟩ := by
  obtain ⟨g, off, rfl⟩ | ⟨g, a, rfl⟩ := hi
  · cases ht
    refine traps_of_body h rfl (callBody_full (fun x hx => ?_) hu)
    rw [relTarget_eq]
    exact hok x hx
  · cases ht
    exact traps_of_body h rfl (callBody_full hok hu)

/-- Settles O48, clause by clause: the words refused by their permission, then those whose bodies trap in the lowest lane that fails. -/
theorem checksTrap : Obligations.ChecksTrap := by
  unfold Obligations.ChecksTrap
  refine ⟨?eret, ?objw, ?spawn, ?misaligned, ?canonical, ?spMisaligned, ?spOutside, ?target, ?full, ?empty, ?handle, ?queue⟩
  case eret =>
    intro e g a u us hs hact hh
    exact checks_of_permission hs ((congrArg (permission e _) hact).trans (permission_eret hh))
  case objw => exact fun e g a b hs hne hw => checks_of_permission hs (permission_objw hne hw)
  case spawn => exact fun e g d a b hs hne hst => checks_of_permission hs (permission_spawn hne hst)
  case misaligned => exact fun i r s e u hr h hm hu => traps_of_misaligned hr h hm hu
  case canonical => exact fun i r s e u hr h hm hl hal hu => traps_of_noncanonical hr h hm hl hal hu
  case spMisaligned => exact fun i r s e u hr h ha hu => traps_of_spMisaligned hr h ha hu
  case spOutside => exact fun i r s e u hr h hal hu => traps_of_spOutside hr h hal hu
  case target => exact fun i target s e u ht h hd hu => traps_of_target ht h hd hu
  case full => exact fun i target s e u ht hi h hok hu => traps_of_full ht hi h hok hu
  case empty => exact fun g s e u h hu => traps_of_body h rfl (retBody_empty hu)
  case handle => exact fun i g a s e u hi h hu => traps_of_handle hi h hu
  case queue => exact fun g d a b s e u h hal hu => traps_of_queue h hal hu

end Sys2Proof.Machine
end
